-- ==== Sys2Proof/Word.lean ====
section
/-! DEFINITION. The word types of the SX-880 and their plainest arithmetic (R8: little-endian, bit fields `[hi:lo]`). -/

namespace Sys2Proof

/-- One byte. -/
abbrev Byte := BitVec 8
/-- One 32-bit lane word. -/
abbrev W32 := BitVec 32
/-- One 64-bit uniform word. -/
abbrev W64 := BitVec 64
/-- One bit for each of the 32 logical lanes (R144). -/
abbrev LaneMask := BitVec 32

/-- The logical lanes in ascending order (R144). -/
def lanes : List Nat := List.range 32

end Sys2Proof
end

