-- ==== Sys2Proof/Syntax.lean ====
section
/-! DEFINITION. The instructions and the machine's other steps: one constructor of `Instr` for each row of the table of operations
and events. An instruction of the program carries the fields its encoding gives it (R181 to R201); a step of an engine, of the
memory system, of the Innkeeper, of the host link or of the debugger carries the numbers that say which agent takes it. -/

namespace Sys2Proof

/-- A source operand, as its mode selects it (R184). -/
inductive Src where
  | v (n : BitVec 8)              -- mode 000: register N
  | ix (n : BitVec 8)             -- mode 001: register N + sr.ix of the lane
  | k (n : BitVec 8)              -- mode 010: uniform N
  | imm (i : BitVec 8)            -- mode 011: signed 8-bit immediate
  | map (h : BitVec 2) (n : BitVec 8) -- mode 1ss: register N through map slot ss
  deriving DecidableEq, Repr

/-- A destination field with its DX bit (R181, R186). -/
structure Dst where
  ix : Bool
  n : BitVec 8
  deriving DecidableEq, Repr

/-- Rounding modes of the RM field (R67); code 111 is illegal (R202). -/
inductive RMode where
  | dyn | rne | rtz | rdn | rup | rna | rto
  deriving DecidableEq, Repr

/-- The word that may stand before a base or I-format word (R183). -/
structure Pfx where
  m : BitVec 3
  mn : Bool
  mz : Bool
  rm : RMode
  e : Src
  sat : Bool
  deriving DecidableEq, Repr

/-- What every instruction of the program carries beside its operands: lookahead, reuse hint, and the word before it (R181, R183). -/
structure Ctl where
  la : BitVec 4
  ru : Bool
  pfx : Option Pfx
  deriving DecidableEq, Repr

/-- Integer conditions (R196). -/
inductive ICond where
  | eq | ne | lt | le | gt | ge | ltu | leu | gtu | geu
  deriving DecidableEq, Repr

/-- Floating-point conditions (R196). -/
inductive FCond where
  | eq | ne | lt | le | gt | ge | uno | ord
  deriving DecidableEq, Repr

/-- Floating-point formats of the conversions (R197). -/
inductive FFmt where
  | f32 | f16 | bf16 | e4m3 | e5m2 | e2m1
  deriving DecidableEq, Repr

/-- Integer formats of the conversions (R197). -/
inductive IFmt where
  | s32 | u32 | s16 | u16 | s8 | u8 | s4
  deriving DecidableEq, Repr

/-- Operators of the integer reductions and scans (R198). -/
inductive IRed where
  | add | min | max | umin | umax | and | or | xor
  deriving DecidableEq, Repr

/-- Operators of the floating-point scans (R198). -/
inductive FRed where
  | add | max | min
  deriving DecidableEq, Repr

/-- Shuffle modes (R195, R248). -/
inductive ShMode where
  | lane | rel | rot | bfly
  deriving DecidableEq, Repr

/-- Operators of `poll` (R249). -/
inductive PollOp where
  | set | cnt | first | last | all | any | same
  deriving DecidableEq, Repr

/-- Orders of an access (R93, R199). -/
inductive Order where
  | rlx | acq | rel | ar
  deriving DecidableEq, Repr

/-- Scopes (R92, R199). -/
inductive Scope where
  | lane | warp | group | gang | die | dev | sys
  deriving DecidableEq, Repr

/-- Address spaces of an access descriptor (R200). -/
inductive Space where
  | glob | priv | scratch | window | acc | onchip
  deriving DecidableEq, Repr

/-- Access sizes (R201). -/
inductive Size where
  | u8 | s8 | u16 | s16 | w32 | w64 | w128
  deriving DecidableEq, Repr

/-- The access descriptor and the order descriptor of an ordered access or an atomic (R199, R200). -/
structure Access where
  space : Space
  size : Size
  ord : Order
  scope : Scope
  wide : Bool
  deriving DecidableEq, Repr

/-- Control byte of a barrier instruction (R269). -/
structure BarCtl where
  te : Bool
  win : Bool
  scope : Scope
  deriving DecidableEq, Repr

/-- Destination formats of `ldd` (R263). -/
inductive LddFmt where
  | f32 | f16 | bf16
  deriving DecidableEq, Repr

/-- A split of a resident warp: core, warp slot, split slot (R19, R147). -/
structure SplitRef where
  core : Nat
  slot : Nat
  split : Nat
  deriving DecidableEq, Repr

/-- What a storage error strikes (R44, R51, R54, R56, R62). -/
inductive StorageLoc where
  | reg (core slot n lane : Nat)
  | scratch (core word : Nat)
  | tile (core t : Nat)
  | slot (core m : Nat)
  | sector (pa : Nat)
  deriving DecidableEq, Repr

/-- A storage error: what it strikes, and whether its code corrects it (R44, R62). -/
structure StorageError where
  loc : StorageLoc
  corrected : Bool
  deriving DecidableEq, Repr

/-- What a data packet carries (R138): a write, a read of some bytes or its answer, and between the dies of a device a remote write or an
invalidation of a number, a mark, or a close request. -/
inductive PktOp where
  | write
  | read (len tag : Nat)
  | answer (tag : Nat)
  | remote (id : Nat) (inval : Bool)
  | mark (n : Nat)
  | askClose (n : Nat)
  deriving DecidableEq, Repr

/-- A data packet (R133): its flow tag, what it carries, the local KEY and the partition that travel with an access (R35), and the bytes.
`mode` is MODE; `sdev` is 128 for a packet between two dies of this device. -/
structure Packet where
  sdev : Nat
  sdie : Nat
  flow : Nat
  seq : Nat
  mode : Nat
  op : PktOp := .write
  pa : Nat
  data : List Byte
  poison : Bool
  key : Nat := 0
  part : Nat := 0
  deriving DecidableEq, Repr

/-- What an invalidation names (R139). -/
inductive Inval where
  | range (asid lo len : Nat)
  | asid (asid : Nat)
  | ipa (part lo len : Nat)
  deriving DecidableEq, Repr

/-- One constructor for each row of the table of operations and events. -/
inductive Instr where
  -- control flow (R218)
  | illegal (pw : Option (BitVec 32)) (w : BitVec 64)
  | nop (x : Ctl)
  | bra (x : Ctl) (imm : W32)
  | brc (x : Ctl) (a : BitVec 8) (imm : W32)
  | brx (x : Ctl) (a : Src)
  | call (x : Ctl) (d : BitVec 8) (imm : W32)
  | calli (x : Ctl) (d : Dst) (a : Src)
  | ret (x : Ctl) (a : Src)
  | rcv (x : Ctl) (off : BitVec 24)
  | waitj (x : Ctl) (d a : BitVec 8) (imm : W32)
  | waitjArrival (r : SplitRef)
  | waitjTimeout (r : SplitRef)
  | exit (x : Ctl)
  | endGroup (x : Ctl)
  | trap (x : Ctl) (imm : W32)
  | trapReturn (x : Ctl) (imm : W32)
  | sysc (x : Ctl) (d a : BitVec 8) (imm : W32)
  | bkpt (x : Ctl)
  | yield (x : Ctl)
  -- lane-wise integer (R210)
  | iadd (x : Ctl) (d : Dst) (a b : Src)
  | isub (x : Ctl) (d : Dst) (a b : Src)
  | imul (x : Ctl) (d : Dst) (a b : Src)
  | imulh (x : Ctl) (u : Bool) (d : Dst) (a b : Src)
  | imad (x : Ctl) (d : Dst) (a b c : Src)
  | idiv (x : Ctl) (u : Bool) (d : Dst) (a b : Src)
  | irem (x : Ctl) (u : Bool) (d : Dst) (a b : Src)
  | imin (x : Ctl) (u : Bool) (d : Dst) (a b : Src)
  | imax (x : Ctl) (u : Bool) (d : Dst) (a b : Src)
  | iabs (x : Ctl) (d : Dst) (a : Src)
  | and (x : Ctl) (d : Dst) (a b : Src)
  | or (x : Ctl) (d : Dst) (a b : Src)
  | xor (x : Ctl) (d : Dst) (a b : Src)
  | shl (x : Ctl) (d : Dst) (a b : Src)
  | shr (x : Ctl) (d : Dst) (a b : Src)
  | sra (x : Ctl) (d : Dst) (a b : Src)
  | popc (x : Ctl) (d : Dst) (a : Src)
  | clz (x : Ctl) (d : Dst) (a : Src)
  | brev (x : Ctl) (d : Dst) (a : Src)
  | bfe (x : Ctl) (d : Dst) (a b : Src)
  | bfi (x : Ctl) (d : Dst) (a b c : Src)
  | icmp (x : Ctl) (cc : ICond) (tomask : Bool) (d : Dst) (a b : Src)
  | sel (x : Ctl) (d : Dst) (a b c : Src)
  | mov (x : Ctl) (d : Dst) (a : Src)
  | movi (x : Ctl) (d : BitVec 8) (imm : W32)
  | lea (x : Ctl) (d : Dst) (a b c : Src)
  | iadd64 (x : Ctl) (d : Dst) (a b : Src)
  | setix (x : Ctl) (a : Src)
  | bsel (x : Ctl) (d : Dst) (a b c : Src)
  | ishf (x : Ctl) (d : Dst) (a b c : Src)
  | imads (x : Ctl) (d : Dst) (a b c : Src)
  | imul64 (x : Ctl) (d : Dst) (a b : Src)
  -- uniform (R213)
  | kadd (x : Ctl) (d : BitVec 8) (a b : Src)
  | ksub (x : Ctl) (d : BitVec 8) (a b : Src)
  | kmul (x : Ctl) (d : BitVec 8) (a b : Src)
  | kand (x : Ctl) (d : BitVec 8) (a b : Src)
  | kor (x : Ctl) (d : BitVec 8) (a b : Src)
  | kxor (x : Ctl) (d : BitVec 8) (a b : Src)
  | kshl (x : Ctl) (d : BitVec 8) (a b : Src)
  | kshr (x : Ctl) (d : BitVec 8) (a b : Src)
  | kmov (x : Ctl) (d : BitVec 8) (a : Src)
  | kmovi (x : Ctl) (d : BitVec 8) (imm : W32)
  | kcmp (x : Ctl) (cc : ICond) (d : BitVec 8) (a b : Src)
  | rdsr (x : Ctl) (d : Dst) (n : BitVec 8)
  | wrsr (x : Ctl) (n : BitVec 8) (a : Src)
  | vtok (x : Ctl) (d : BitVec 8) (a b : Src)
  | mmov (x : Ctl) (d : BitVec 8) (a : Src)
  | kld (x : Ctl) (sp : Bool) (d : BitVec 8) (a b : Src)
  -- FP32 and packed (R232, R236)
  | fadd (x : Ctl) (d : Dst) (a b : Src)
  | fsub (x : Ctl) (d : Dst) (a b : Src)
  | fmul (x : Ctl) (d : Dst) (a b : Src)
  | ffma (x : Ctl) (d : Dst) (a b c : Src)
  | fdiv (x : Ctl) (d : Dst) (a b : Src)
  | fmin (x : Ctl) (d : Dst) (a b : Src)
  | fmax (x : Ctl) (d : Dst) (a b : Src)
  | fcmp (x : Ctl) (cc : FCond) (tomask : Bool) (d : Dst) (a b : Src)
  | fclass (x : Ctl) (d : Dst) (a : Src)
  | fscale (x : Ctl) (d : Dst) (a b : Src)
  | frnd (x : Ctl) (d : Dst) (a : Src)
  | hadd2 (x : Ctl) (d : Dst) (a b : Src)
  | hmul2 (x : Ctl) (d : Dst) (a b : Src)
  | hfma2 (x : Ctl) (d : Dst) (a b c : Src)
  | hmnx2 (x : Ctl) (mx : Bool) (d : Dst) (a b : Src)
  | hcmp2 (x : Ctl) (cc : FCond) (tomask : Bool) (d : Dst) (a b : Src)
  | badd2 (x : Ctl) (d : Dst) (a b : Src)
  | bmul2 (x : Ctl) (d : Dst) (a b : Src)
  | bfma2 (x : Ctl) (d : Dst) (a b c : Src)
  | fdot2 (x : Ctl) (d : Dst) (a b c : Src)
  | cvt (x : Ctl) (dst src : FFmt) (d : Dst) (a : Src)
  | cvtp (x : Ctl) (dst src : FFmt) (d : Dst) (a b c : Src)
  | cvti (x : Ctl) (dst : IFmt) (src : FFmt) (d : Dst) (a : Src)
  | cvtf (x : Ctl) (dst : FFmt) (src : IFmt) (d : Dst) (a : Src)
  | fabs (x : Ctl) (neg : Bool) (d : Dst) (a : Src)
  -- special functions and activation tables (R240 to R245)
  | fexp (x : Ctl) (d : Dst) (a : Src)
  | fexp2 (x : Ctl) (d : Dst) (a : Src)
  | flog2 (x : Ctl) (d : Dst) (a : Src)
  | frcp (x : Ctl) (d : Dst) (a : Src)
  | frsq (x : Ctl) (d : Dst) (a : Src)
  | fsqrt (x : Ctl) (d : Dst) (a : Src)
  | fsin (x : Ctl) (d : Dst) (a : Src)
  | fcos (x : Ctl) (d : Dst) (a : Src)
  | ftanh (x : Ctl) (d : Dst) (a : Src)
  | fsig (x : Ctl) (d : Dst) (a : Src)
  | actld (x : Ctl) (d a : BitVec 8) (n : BitVec 2)
  | actev (x : Ctl) (d : Dst) (a : Src) (n : BitVec 2)
  | actinfo (x : Ctl) (d : BitVec 8) (n : BitVec 2)
  -- cross-lane (R247 to R253)
  | shfl (x : Ctl) (m : ShMode) (d : Dst) (a : BitVec 8) (b c : Src)
  | poll (x : Ctl) (op : PollOp) (d : Dst) (a : Src)
  | matchLanes (x : Ctl) (d : Dst) (a : Src)
  | raddf (x : Ctl) (d : Dst) (a : Src)
  | rmaxf (x : Ctl) (d : Dst) (a : Src)
  | rminf (x : Ctl) (d : Dst) (a : Src)
  | rint (x : Ctl) (op : IRed) (d : Dst) (a : Src)
  | scanf (x : Ctl) (op : FRed) (excl : Bool) (d : Dst) (a : Src)
  | scani (x : Ctl) (op : IRed) (excl : Bool) (d : Dst) (a : Src)
  | segf (x : Ctl) (op : FRed) (d : Dst) (a b : Src)
  | segi (x : Ctl) (op : IRed) (d : Dst) (a b : Src)
  | bcast (x : Ctl) (d : Dst) (a : BitVec 8) (b : Src)
  | shflo (x : Ctl) (m : ShMode) (d : Dst) (a : BitVec 8) (b : Src)
  | fusedSoftmax (la : BitVec 4) (m v t e r : BitVec 8)
  | longLatencyResult (r : SplitRef)
  -- loads and stores (R258, R260)
  | ld (x : Ctl) (d : BitVec 8) (ua : Bool) (sz : Size) (a : BitVec 8) (off : W32)
  | st (x : Ctl) (d : BitVec 8) (ua : Bool) (sz : Size) (a : BitVec 8) (off : W32)
  | ldl (x : Ctl) (d : BitVec 8) (ua : Bool) (sz : Size) (a : BitVec 8) (off : W32)
  | stl (x : Ctl) (d : BitVec 8) (ua : Bool) (sz : Size) (a : BitVec 8) (off : W32)
  | lds (x : Ctl) (d : BitVec 8) (ua : Bool) (sz : Size) (a : BitVec 8) (off : W32)
  | sts (x : Ctl) (d : BitVec 8) (ua : Bool) (sz : Size) (a : BitVec 8) (off : W32)
  | ldw (x : Ctl) (d : BitVec 8) (ua : Bool) (sz : Size) (a : BitVec 8) (off : W32)
  | stw (x : Ctl) (d : BitVec 8) (ua : Bool) (sz : Size) (a : BitVec 8) (off : W32)
  | ldt (x : Ctl) (d : BitVec 8) (ua : Bool) (sz : Size) (a : BitVec 8) (off : W32)
  | stt (x : Ctl) (d : BitVec 8) (ua : Bool) (sz : Size) (a : BitVec 8) (off : W32)
  | ldx (x : Ctl) (d : BitVec 8) (ua : Bool) (sz : Size) (a : BitVec 8) (off : W32)
  | stx (x : Ctl) (d : BitVec 8) (ua : Bool) (sz : Size) (a : BitVec 8) (off : W32)
  | orderedLoad (x : Ctl) (g : Access) (d : Dst) (a b : Src)
  | orderedStore (x : Ctl) (g : Access) (d : Dst) (a b : Src)
  -- atomics (R265)
  | atomAdd (x : Ctl) (g : Access) (d : Dst) (a b : Src)
  | atomSub (x : Ctl) (g : Access) (d : Dst) (a b : Src)
  | atomMin (x : Ctl) (g : Access) (d : Dst) (a b : Src)
  | atomMax (x : Ctl) (g : Access) (d : Dst) (a b : Src)
  | atomUmin (x : Ctl) (g : Access) (d : Dst) (a b : Src)
  | atomUmax (x : Ctl) (g : Access) (d : Dst) (a b : Src)
  | atomAnd (x : Ctl) (g : Access) (d : Dst) (a b : Src)
  | atomOr (x : Ctl) (g : Access) (d : Dst) (a b : Src)
  | atomXor (x : Ctl) (g : Access) (d : Dst) (a b : Src)
  | atomExch (x : Ctl) (g : Access) (d : Dst) (a b : Src)
  | atomCas (x : Ctl) (g : Access) (d : Dst) (a b : Src)
  | atomFadd (x : Ctl) (g : Access) (d : Dst) (a b : Src)
  -- fences, described blocks, cache control (R262 to R268)
  | fence (x : Ctl) (sc : Scope)
  | ldd (x : Ctl) (sp hdr : Bool) (f : LddFmt) (d : Dst) (a b : Src)
  | std (x : Ctl) (sp : Bool) (f : BitVec 5) (d : BitVec 8) (a b : Src)
  | cctlPrefetch (x : Ctl) (a b : Src)
  | cctlClean (x : Ctl) (a b : Src)
  | cctlEvict (x : Ctl) (a b : Src)
  | cctlDiscard (x : Ctl) (a b : Src)
  -- barriers, sync words, counters, tasks (R270 to R278)
  | barr (x : Ctl) (c : BarCtl) (a b : Src)
  | barw (x : Ctl) (c : BarCtl) (a b : Src)
  | barrw (x : Ctl) (c : BarCtl) (a b : Src)
  | barrierWaitEnd (r : SplitRef)
  | arriveRetry (r : SplitRef)
  | swwait (x : Ctl) (c : BarCtl) (a b : Src)
  | syncWaitEnd (r : SplitRef)
  | cinc (x : Ctl) (a b : Src)
  | crd (x : Ctl) (d : BitVec 8) (a : Src)
  | tqpush (x : Ctl) (d a b : BitVec 8) (n : BitVec 8)
  | tqpop (x : Ctl) (d : BitVec 8) (a : Src)
  | tqpopWake (r : SplitRef)
  | fork (x : Ctl) (d : Dst) (a : Src) (b : BitVec 8)
  | forkResume (launch groupid : Nat)
  | joinc (x : Ctl) (a b : Src)
  | joincApply (core room : Nat)
  | gbar (x : Ctl) (sc : Scope)
  | gbarComplete (core room : Nat) (gang : Bool)
  -- engine jobs (R279 to R284)
  | jsub (x : Ctl) (a : BitVec 8)
  | jwait (x : Ctl) (m : BitVec 8)
  | jwaitEnd (r : SplitRef)
  | jchk (x : Ctl) (d : BitVec 8) (s : BitVec 8)
  | jcan (x : Ctl) (m : BitVec 8)
  | jobAccept (core : Nat)
  | jobStart (core id : Nat)
  | porterRow (core id : Nat)
  | courierElement (core id : Nat)
  | collectiveElement (core id : Nat)
  | requantiseGroup (core id : Nat)
  | jobComplete (core id : Nat)
  | syncRaise (core id : Nat)
  | barrierCountdown (core id : Nat)
  -- matrix engine (R285 to R294)
  | mxq (x : Ctl) (d : BitVec 8) (a : Src)
  | mxrunResume (x : Ctl)
  | mxrunSkip (x : Ctl)
  | mxrunAbort (x : Ctl)
  | mxcfg (x : Ctl) (a : BitVec 8) (e : BitVec 8)
  | mxcb (x : Ctl) (a : BitVec 8) (sp : Bool) (j : BitVec 3)
  | mxwait (x : Ctl) (d : BitVec 8) (a : Src)
  | engineWaitEnd (r : SplitRef)
  | mxRecordFetch (core room : Nat)
  | mxRecordStart (core room : Nat)
  | mxKblock (core room : Nat)
  -- map slots (R296)
  | mapbind (x : Ctl) (h : BitVec 2) (a : BitVec 8) (sp : Bool)
  | mapld (x : Ctl) (h : BitVec 2) (a : BitVec 8) (sp : Bool)
  | mapst (x : Ctl) (h : BitVec 2) (a : BitVec 8) (sp : Bool)
  | maprel (x : Ctl) (h : BitVec 2)
  | mapinfo (x : Ctl) (d : BitVec 8) (h : BitVec 2)
  | blockedWaitEnd (r : SplitRef)
  -- search (R309)
  | srchbeg (x : Ctl) (u : BitVec 8) (off : BitVec 24)
  | srchend (x : Ctl)
  | trye (x : Ctl) (d : Dst) (a b : Src)
  | fail (x : Ctl)
  | cut (x : Ctl) (a : Src)
  | cpmark (x : Ctl) (d : Dst)
  | cpchk (x : Ctl) (d : Dst)
  | trst (x : Ctl) (b64 : Bool) (d : Dst) (a b : Src)
  | steal (x : Ctl) (d : Dst)
  -- steps of the core and the memory system
  | timerTrap (r : SplitRef)
  | storageError (e : StorageError)
  | pageTableWalk (die : Nat)
  | l2SectorFill (die sector : Nat)
  | l2Writeback (die sector : Nat)
  | hbmSectorTransfer (ctl tenant : Nat)
  | bucketRefill
  | bucketEntryWrite (ctl tenant : Nat) (entry : W64)
  | hbmScrub (sector : Nat)
  | keySlotDestroy (slot : Nat)
  | keySlotDestroyComplete (slot : Nat)
  | remoteWriteApply (die k : Nat)
  | remoteWriteAck (die k : Nat)
  | markReceive (dst src : Nat)
  | closeRequest (dst src : Nat)
  | epochTimeout (die : Nat)
  | hostPostedWrite (die fn pa : Nat) (data : List Byte)
  | packetArrival (die : Nat) (p : Packet)
  | orderedDelivery (die flow : Nat)
  | ack (die flow seq : Nat)
  | nak (die flow seq : Nat)
  | close (die sdev sdie flow : Nat)
  | packetResend (die flow seq : Nat)
  | linkFrameReceive (die : Nat) (ok : Bool) (ps : List Packet)
  | invalidationBroadcast (i : Inval)
  | invalidationReceipt (agent : Nat)
  | invalidationDrained (agent : Nat)
  | invalidationComplete
  | registerWindowWrite (core k : Nat)
  | debuggerWrite (core room off : Nat) (data : List Byte)
  | windowHoldSet (core room : Nat)
  | windowHoldAck (core room : Nat)
  | windowHoldRelease (core room : Nat)
  | breakpointArm (core room : Nat) (set : Bool)
  | stopRequest (core room : Nat)
  | singleStep (r : SplitRef)
  -- dispatch and scheduling
  | roomCardWrite (core room : Nat) (card : BitVec 256)
  | roomCardTakeUp (core room : Nat)
  | groupMakeResident (core room : Nat)
  | groupSave (core room : Nat)
  | groupRestore (core room : Nat)
  | sliceEnd (cluster : Nat)
  | preemptDeadline (cluster : Nat)
  | gangRelaunch (launch gang : Nat)
  | deficitUpdate
  -- reliability
  | scanSlotStart
  | scanRun
  | scanDefer
  | scanResult (pass : Bool) (lane : Option (Nat × Nat))
  | eyeMarginWindow (port : Nat) (above : Bool)
  | linkRetrainDone (port : Nat)
  | linkRateRaise (port : Nat)
  | linkReset (port : Nat)
  | engineReset (core : Nat) (mx : Bool)
  | partitionReset (part : Nat)
  | partitionResetComplete (part : Nat)
  | functionLevelReset (fn : Nat)
  | vfEnableClear
  -- host queues
  | sqDoorbell (fn q tail : Nat)
  | launch (fn q : Nat)
  | launchComplete (launch : Nat)
  | cincEntry (fn q : Nat)
  | cwait (fn q : Nat)
  | cwaitSatisfied (fn q : Nat)
  | nopEntry (fn q : Nat)
  | adminDoorbell (fn tail : Nat)
  | qreg (fn : Nat)
  | codeload (fn : Nat)
  | codefree (fn : Nat)
  | keyreg (fn : Nat)
  | pagereg (fn : Nat)
  | resume (fn : Nat)
  | abandon (fn : Nat)
  | depthr (fn : Nat)
  | trace (fn : Nat)
  | fwstage (fn : Nat)
  | fwact (fn : Nat)
  | fwHandover
  | fwHeartbeat (accepts : Bool)
  | fwRollback
  | duneshFailover
  | staleprWrite (fn : Nat)
  | registerWrite (fn off : Nat) (val : W64)
  | atsTranslationReply (die off : Nat) (r w : Bool) (addr : Nat)
  | atsInvalidationRequest (fn lo len : Nat)
  | pageRequestGroupResponse (fn idx code : Nat)
  | getVersion
  | getCapabilities
  | negotiateAlgorithms
  | getDigests
  | getCertificate
  | challenge (nonce : BitVec 256)
  | getMeasurements (idx : Nat)
  -- bring-up, power
  | powerOn
  | thermalThrottle
  | thermalTrip
  -- Lantern
  | lanternLoad (obj : Nat)
  | lanternBreak (kernel off : Nat)
  | lanternDeleteAll
  | lanternRun (kernel : Nat) (args : List W32)
  | lanternCont (n : Nat)
  | lanternPrint (warp lane : Nat) (items : List (BitVec 8 × BitVec 8))
  | lanternMem (space : Nat) (addr n : Nat)
  | lanternDis (addr n : Nat)
  | lanternEvict
  | lanternCinc (id : Nat) (n : W64)
  -- the host's and the Dunesh core's accesses
  | hostRead (die fn pa len : Nat)
  | cxlCacheSnoop (die sector : Nat) (inval : Bool)
  | privilegedAccess (write : Bool) (owner : Option Nat) (pa : Nat) (data : List Byte)
  | partitionStart (part : Nat)
  deriving DecidableEq, Repr

end Sys2Proof
end

