-- ==== Sys2Proof/Decode.lean ====
section
/-! DEFINITION. Words and instructions (R180 to R206): the fields of the three formats, the fate of every encoding, the decoder, and
after it the encoder written from the same tables. -/

namespace Sys2Proof

/-! ### The three formats (R181, R182, R183) -/

/-- The fields of a base-format word (R181). -/
structure Base where
  rsv : BitVec 3 := 0
  ru : BitVec 1 := 0
  cm : BitVec 3 := 0
  bm : BitVec 3 := 0
  am : BitVec 3 := 0
  dx : BitVec 1 := 0
  f : BitVec 6 := 0
  c : BitVec 8 := 0
  b : BitVec 8 := 0
  a : BitVec 8 := 0
  d : BitVec 8 := 0
  la : BitVec 4 := 0
  op : BitVec 8 := 0
  deriving DecidableEq, Repr

/-- The fields of an I-format word (R182). -/
structure IWord where
  imm : BitVec 32 := 0
  f4 : BitVec 4 := 0
  a : BitVec 8 := 0
  d : BitVec 8 := 0
  la : BitVec 4 := 0
  op : BitVec 8 := 0
  deriving DecidableEq, Repr

/-- The fields of the 32-bit word that may stand in front (R183). -/
structure PWord where
  rsv : BitVec 4 := 0
  sat : BitVec 1 := 0
  em : BitVec 3 := 0
  e : BitVec 8 := 0
  rm : BitVec 3 := 0
  mz : BitVec 1 := 0
  mn : BitVec 1 := 0
  mreg : BitVec 3 := 0
  op : BitVec 8 := 0xF0
  deriving DecidableEq, Repr

/-- The base word that holds these fields. -/
def Base.pack (g : Base) : BitVec 64 :=
  g.rsv ++ g.ru ++ g.cm ++ g.bm ++ g.am ++ g.dx ++ g.f ++ g.c ++ g.b ++ g.a ++ g.d ++ g.la ++ g.op

/-- The fields of a base word. -/
def Base.unpack (w : BitVec 64) : Base where
  rsv := w.extractLsb' 61 3
  ru := w.extractLsb' 60 1
  cm := w.extractLsb' 57 3
  bm := w.extractLsb' 54 3
  am := w.extractLsb' 51 3
  dx := w.extractLsb' 50 1
  f := w.extractLsb' 44 6
  c := w.extractLsb' 36 8
  b := w.extractLsb' 28 8
  a := w.extractLsb' 20 8
  d := w.extractLsb' 12 8
  la := w.extractLsb' 8 4
  op := w.extractLsb' 0 8

/-- The I-format word that holds these fields. -/
def IWord.pack (g : IWord) : BitVec 64 :=
  g.imm ++ g.f4 ++ g.a ++ g.d ++ g.la ++ g.op

/-- The fields of an I-format word. -/
def IWord.unpack (w : BitVec 64) : IWord where
  imm := w.extractLsb' 32 32
  f4 := w.extractLsb' 28 4
  a := w.extractLsb' 20 8
  d := w.extractLsb' 12 8
  la := w.extractLsb' 8 4
  op := w.extractLsb' 0 8

/-- The word in front that holds these fields. -/
def PWord.pack (g : PWord) : BitVec 32 :=
  g.rsv ++ g.sat ++ g.em ++ g.e ++ g.rm ++ g.mz ++ g.mn ++ g.mreg ++ g.op

/-- The fields of a word in front. -/
def PWord.unpack (w : BitVec 32) : PWord where
  rsv := w.extractLsb' 28 4
  sat := w.extractLsb' 27 1
  em := w.extractLsb' 24 3
  e := w.extractLsb' 16 8
  rm := w.extractLsb' 13 3
  mz := w.extractLsb' 12 1
  mn := w.extractLsb' 11 1
  mreg := w.extractLsb' 8 3
  op := w.extractLsb' 0 8

/-- One instruction's words: the 32-bit word in front, if any, and the 64-bit word (R180). -/
structure Words where
  pw : Option (BitVec 32) := none
  w : BitVec 64
  deriving DecidableEq, Repr

/-- The instruction's length in bytes (R204). -/
def Words.bytes (x : Words) : Nat := if x.pw.isSome then 12 else 8

/-! ### Codes of the fields -/

/-- The source operand that a mode and a field name (R184). -/
def Src.of (m : BitVec 3) (n : BitVec 8) : Src :=
  match m.toNat with
  | 0 => .v n
  | 1 => .ix n
  | 2 => .k n
  | 3 => .imm n
  | _ => .map (m.extractLsb' 0 2) n

/-- The mode of a source operand (R184). -/
def Src.mode : Src → BitVec 3
  | .v _ => 0
  | .ix _ => 1
  | .k _ => 2
  | .imm _ => 3
  | .map h _ => (1 : BitVec 1) ++ h

/-- The field of a source operand (R184). -/
def Src.field : Src → BitVec 8
  | .v n | .ix n | .k n | .imm n | .map _ n => n

/-- Whether a source operand passes through a map slot. -/
def Src.mapped : Src → Bool
  | .map _ _ => true
  | _ => false

/-- Rounding modes by code (R67). -/
def RMode.of (c : BitVec 3) : Option RMode :=
  match c.toNat with
  | 0 => some .dyn
  | 1 => some .rne
  | 2 => some .rtz
  | 3 => some .rdn
  | 4 => some .rup
  | 5 => some .rna
  | 6 => some .rto
  | _ => none

/-- The code of a rounding mode (R67). -/
def RMode.code : RMode → BitVec 3
  | .dyn => 0
  | .rne => 1
  | .rtz => 2
  | .rdn => 3
  | .rup => 4
  | .rna => 5
  | .rto => 6

/-- Integer conditions by F[3:0] (R196). -/
def ICond.of (c : BitVec 4) : Option ICond :=
  match c.toNat with
  | 0 => some .eq
  | 1 => some .ne
  | 2 => some .lt
  | 3 => some .le
  | 4 => some .gt
  | 5 => some .ge
  | 6 => some .ltu
  | 7 => some .leu
  | 8 => some .gtu
  | 9 => some .geu
  | _ => none

/-- F[3:0] of an integer condition (R196). -/
def ICond.code : ICond → BitVec 4
  | .eq => 0
  | .ne => 1
  | .lt => 2
  | .le => 3
  | .gt => 4
  | .ge => 5
  | .ltu => 6
  | .leu => 7
  | .gtu => 8
  | .geu => 9

/-- Floating-point conditions by F[3:0] (R196). -/
def FCond.of (c : BitVec 4) : Option FCond :=
  match c.toNat with
  | 0 => some .eq
  | 1 => some .ne
  | 2 => some .lt
  | 3 => some .le
  | 4 => some .gt
  | 5 => some .ge
  | 6 => some .uno
  | 7 => some .ord
  | _ => none

/-- F[3:0] of a floating-point condition (R196). -/
def FCond.code : FCond → BitVec 4
  | .eq => 0
  | .ne => 1
  | .lt => 2
  | .le => 3
  | .gt => 4
  | .ge => 5
  | .uno => 6
  | .ord => 7

/-- Float formats of the conversions by code (R197). -/
def FFmt.of (c : BitVec 3) : Option FFmt :=
  match c.toNat with
  | 0 => some .f32
  | 1 => some .f16
  | 2 => some .bf16
  | 3 => some .e4m3
  | 4 => some .e5m2
  | 5 => some .e2m1
  | _ => none

/-- The code of a float format (R197). -/
def FFmt.code : FFmt → BitVec 3
  | .f32 => 0
  | .f16 => 1
  | .bf16 => 2
  | .e4m3 => 3
  | .e5m2 => 4
  | .e2m1 => 5

/-- Width of a float format in bits (R67). -/
def FFmt.bits : FFmt → Nat
  | .f32 => 32
  | .f16 => 16
  | .bf16 => 16
  | .e4m3 => 8
  | .e5m2 => 8
  | .e2m1 => 4

/-- Integer formats of the conversions by code (R197). -/
def IFmt.of (c : BitVec 3) : Option IFmt :=
  match c.toNat with
  | 0 => some .s32
  | 1 => some .u32
  | 2 => some .s16
  | 3 => some .u16
  | 4 => some .s8
  | 5 => some .u8
  | 6 => some .s4
  | _ => none

/-- The code of an integer format (R197). -/
def IFmt.code : IFmt → BitVec 3
  | .s32 => 0
  | .u32 => 1
  | .s16 => 2
  | .u16 => 3
  | .s8 => 4
  | .u8 => 5
  | .s4 => 6

/-- Integer reduction operators by F[2:0] (R198). -/
def IRed.of (c : BitVec 3) : IRed :=
  match c.toNat with
  | 0 => .add
  | 1 => .min
  | 2 => .max
  | 3 => .umin
  | 4 => .umax
  | 5 => .and
  | 6 => .or
  | _ => .xor

/-- F[2:0] of an integer reduction operator (R198). -/
def IRed.code : IRed → BitVec 3
  | .add => 0
  | .min => 1
  | .max => 2
  | .umin => 3
  | .umax => 4
  | .and => 5
  | .or => 6
  | .xor => 7

/-- Floating-point scan operators by F[2:0] (R198). -/
def FRed.of (c : BitVec 3) : Option FRed :=
  match c.toNat with
  | 0 => some .add
  | 1 => some .max
  | 2 => some .min
  | _ => none

/-- F[2:0] of a floating-point scan operator (R198). -/
def FRed.code : FRed → BitVec 3
  | .add => 0
  | .max => 1
  | .min => 2

/-- Shuffle modes by F[1:0] (R195). -/
def ShMode.of (c : BitVec 2) : ShMode :=
  match c.toNat with
  | 0 => .lane
  | 1 => .rel
  | 2 => .rot
  | _ => .bfly

/-- F[1:0] of a shuffle mode (R195). -/
def ShMode.code : ShMode → BitVec 2
  | .lane => 0
  | .rel => 1
  | .rot => 2
  | .bfly => 3

/-- Operators of `poll` by F[2:0] (R249). -/
def PollOp.of (c : BitVec 3) : Option PollOp :=
  match c.toNat with
  | 0 => some .set
  | 1 => some .cnt
  | 2 => some .first
  | 3 => some .last
  | 4 => some .all
  | 5 => some .any
  | 6 => some .same
  | _ => none

/-- F[2:0] of an operator of `poll` (R249). -/
def PollOp.code : PollOp → BitVec 3
  | .set => 0
  | .cnt => 1
  | .first => 2
  | .last => 3
  | .all => 4
  | .any => 5
  | .same => 6

/-- Orders by ORD (R199). -/
def Order.of (c : BitVec 2) : Order :=
  match c.toNat with
  | 0 => .rlx
  | 1 => .acq
  | 2 => .rel
  | _ => .ar

/-- ORD of an order (R199). -/
def Order.code : Order → BitVec 2
  | .rlx => 0
  | .acq => 1
  | .rel => 2
  | .ar => 3

/-- Scopes by SCOPE (R199). -/
def Scope.of (c : BitVec 3) : Option Scope :=
  match c.toNat with
  | 0 => some .lane
  | 1 => some .warp
  | 2 => some .group
  | 3 => some .gang
  | 4 => some .die
  | 5 => some .dev
  | 6 => some .sys
  | _ => none

/-- SCOPE of a scope (R199). -/
def Scope.code : Scope → BitVec 3
  | .lane => 0
  | .warp => 1
  | .group => 2
  | .gang => 3
  | .die => 4
  | .dev => 5
  | .sys => 6

/-- Spaces by SPACE (R200). -/
def Space.of (c : BitVec 3) : Option Space :=
  match c.toNat with
  | 0 => some .glob
  | 1 => some .priv
  | 2 => some .scratch
  | 3 => some .window
  | 4 => some .acc
  | 5 => some .onchip
  | _ => none

/-- SPACE of a space (R200). -/
def Space.code : Space → BitVec 3
  | .glob => 0
  | .priv => 1
  | .scratch => 2
  | .window => 3
  | .acc => 4
  | .onchip => 5

/-- Sizes by code (R201). -/
def Size.of (c : BitVec 3) : Option Size :=
  match c.toNat with
  | 0 => some .u8
  | 1 => some .s8
  | 2 => some .u16
  | 3 => some .s16
  | 4 => some .w32
  | 5 => some .w64
  | 6 => some .w128
  | _ => none

/-- The code of a size (R201). -/
def Size.code : Size → BitVec 3
  | .u8 => 0
  | .s8 => 1
  | .u16 => 2
  | .s16 => 3
  | .w32 => 4
  | .w64 => 5
  | .w128 => 6

/-- Bytes of an access (R201). -/
def Size.bytes : Size → Nat
  | .u8 => 1
  | .s8 => 1
  | .u16 => 2
  | .s16 => 2
  | .w32 => 4
  | .w64 => 8
  | .w128 => 16

/-- Formats of `ldd` by FMTSEL[1:0] (R263). -/
def LddFmt.of (c : BitVec 2) : Option LddFmt :=
  match c.toNat with
  | 0 => some .f32
  | 1 => some .f16
  | 2 => some .bf16
  | _ => none

/-- FMTSEL[1:0] of a format of `ldd` (R263). -/
def LddFmt.code : LddFmt → BitVec 2
  | .f32 => 0
  | .f16 => 1
  | .bf16 => 2

/-- The rounding operand formats a target of `std` may have (R264). -/
def stdTarget (c : BitVec 5) : Bool := (1 ≤ c.toNat && c.toNat ≤ 6) || (0x10 ≤ c.toNat && c.toNat ≤ 0x17)

/-! ### Special registers by number (R215, R216) -/

/-- Per-lane special registers. -/
def srLane (n : BitVec 8) : Bool := n = 0 || n = 8 || n = 9

/-- Per-warp special registers. -/
def srWarp (n : BitVec 8) : Bool :=
  (1 ≤ n.toNat && n.toNat ≤ 7) || (0x0A ≤ n.toNat && n.toNat ≤ 0x14) || (0x20 ≤ n.toNat && n.toNat ≤ 0x28)

/-! ### What each opcode uses (R187, R202, and the entries of the instruction chapters) -/

/-- How an entry uses an operand field: not at all; as an operand in the modes of a set (bit m for mode m); as an immediate in mode
011 from 0 to a limit; as a number in mode 000 up to a limit; as raw bits with a zero mode. -/
inductive Use where
  | zero
  | modes (m : BitVec 8)
  | imm (top : Nat)
  | num (top : Nat)
  | raw
  deriving DecidableEq, Repr

/-- How an entry uses D: not at all, a vector register (indexed by DX or never), a uniform, a mask, a number below a limit. -/
inductive DUse where
  | none
  | vec
  | vecOnly
  | uni
  | mask
  | num (top : Nat)
  deriving DecidableEq, Repr

/-- What of the lane mask an entry takes: nothing, MK and MN with merge, or all of it (R187). -/
inductive MaskUse where
  | none
  | merge
  | full
  deriving DecidableEq, Repr

/-- What an opcode's entry asks of its fields. `bad3` to `bad5` are the entry's own further failures with those details. -/
structure Rule where
  d : DUse := .none
  a : Use := .zero
  b : Use := .zero
  c : Use := .zero
  e : Option (BitVec 8) := none
  mask : MaskUse := .none
  rounds : Bool := false
  sat : Bool := false
  fOk : Bool
  bad3 : Bool := false
  bad4 : Bool := false
  bad5 : Bool := false
  deriving DecidableEq, Repr

/-- Every mode. -/
abbrev mAll : BitVec 8 := 0xFF
/-- Every mode but the mapped ones. -/
abbrev mPlain : BitVec 8 := 0x0F
/-- Register, indexed register, uniform. -/
abbrev mReg : BitVec 8 := 0x07
/-- Uniform. -/
abbrev mUni : BitVec 8 := 0x04
/-- Uniform or immediate. -/
abbrev mUniImm : BitVec 8 := 0x0C

/-- Control flow (R218). -/
def ruleControl (op : Nat) (g : Base) : Option Rule :=
  let z := g.f = 0
  match op with
  | 0x01 | 0x0A | 0x0B | 0x0E | 0x0F => some { fOk := z }
  | 0x04 | 0x07 => some { fOk := z, a := .modes mReg }
  | 0x06 => some { fOk := z, d := .vec, a := .modes mReg }
  | 0x08 => some { fOk := z, a := .raw, b := .raw, c := .raw }
  | _ => none

/-- Lane-wise integer (R210). -/
def ruleInt (op : Nat) (g : Base) : Option Rule :=
  let z := g.f = 0
  let one : Rule := { fOk := z, d := .vec, a := .modes mAll, mask := .full }
  let two : Rule := { one with b := .modes mAll }
  let three : Rule := { two with c := .modes mAll }
  let sgn : Rule := { two with fOk := g.f.toNat ≤ 1 }
  match op with
  | 0x10 | 0x11 => some { two with sat := true }
  | 0x12 | 0x1A | 0x1B | 0x1C | 0x1D | 0x1E | 0x1F | 0x23 => some two
  | 0x13 | 0x15 | 0x16 | 0x17 | 0x18 => some sgn
  | 0x14 => some { three with sat := true }
  | 0x19 => some { one with sat := true }
  | 0x20 | 0x21 | 0x22 | 0x27 => some one
  | 0x24 | 0x26 | 0x2C | 0x2D | 0x2E => some three
  | 0x25 => some { two with d := if g.f.getLsbD 4 then .mask else .vec
                            fOk := !g.f.getLsbD 5 && (ICond.of (g.f.extractLsb' 0 4)).isSome }
  | 0x29 => some { three with a := .modes mPlain }
  | 0x2A => some { two with a := .modes mPlain, b := .modes mPlain }
  | 0x2B => some { one with d := .none }
  | 0x2F => some two
  | _ => none

/-- Uniform (R212 to R216). -/
def ruleUni (op : Nat) (g : Base) : Option Rule :=
  let z := g.f = 0
  match op with
  | 0x30 | 0x31 | 0x32 | 0x33 | 0x34 | 0x35 | 0x36 | 0x37 =>
    some { fOk := z, d := .uni, a := .modes mUniImm, b := .modes mUniImm }
  | 0x38 => some { fOk := z, d := .uni, a := .modes 0x0D, bad5 := g.am = 0 && 8 ≤ g.a.toNat }
  | 0x3A => some { fOk := !g.f.getLsbD 5 && !g.f.getLsbD 4 && (ICond.of (g.f.extractLsb' 0 4)).isSome
                   d := .uni, a := .modes mUniImm, b := .modes mUniImm }
  | 0x3B => some { fOk := z, d := if srLane g.a then .vec else .uni, a := .num 255, bad5 := !srLane g.a && !srWarp g.a }
  | 0x3C => some { fOk := z, d := .num 255, a := .modes (if g.d = 8 then 0x0B else mUniImm)
                   bad5 := !(g.d = 8 || g.d = 0x0D || g.d = 0x0E) }
  | 0x3D => some { fOk := z, d := .uni, a := .modes 0x03, b := .modes mUniImm }
  | 0x3E => some { fOk := z, d := .mask, a := .modes 0x0D, bad5 := g.am = 0 && 8 ≤ g.a.toNat }
  | 0x3F => some { fOk := z, d := .uni, a := .modes mUniImm, b := .modes mUniImm, c := .raw, bad4 := 2 ≤ g.c.toNat }
  | _ => none

/-- Floating point and conversions (R232, R236 to R239). -/
def ruleFloat (op : Nat) (g : Base) : Option Rule :=
  let z := g.f = 0
  let one : Rule := { fOk := z, d := .vec, a := .modes mAll, mask := .full }
  let two : Rule := { one with b := .modes mAll }
  let three : Rule := { two with c := .modes mAll }
  let hi := g.f.extractLsb' 3 3
  let lo := g.f.extractLsb' 0 3
  match op with
  | 0x40 | 0x41 | 0x42 | 0x44 | 0x49 | 0x4B | 0x4C | 0x50 | 0x51 => some { two with rounds := true, sat := true }
  | 0x43 | 0x4D | 0x52 | 0x53 => some { three with rounds := true, sat := true }
  | 0x45 | 0x46 => some two
  | 0x47 | 0x4F => some { two with d := if g.f.getLsbD 4 then .mask else .vec
                                   fOk := !g.f.getLsbD 5 && (FCond.of (g.f.extractLsb' 0 4)).isSome }
  | 0x48 => some one
  | 0x4A => some { one with rounds := true }
  | 0x4E => some { two with fOk := g.f.toNat ≤ 1 }
  | 0x54 => some { one with rounds := true, sat := true
                            fOk := (FFmt.of hi).isSome && (FFmt.of lo).isSome && hi ≠ lo }
  | 0x55 =>
    match FFmt.of hi, FFmt.of lo with
    | some dst, some src =>
      let ok := dst.bits < src.bits && src.bits ≤ 4 * dst.bits
      if src.bits = 4 * dst.bits then some { three with e := some mAll, rounds := true, sat := true, fOk := ok }
      else if src.bits = 2 * dst.bits then some { two with rounds := true, sat := true, fOk := ok }
      else some { three with rounds := true, sat := true, fOk := false }
    | _, _ => some { three with rounds := true, sat := true, fOk := false }
  | 0x56 => some { one with rounds := true, fOk := (IFmt.of hi).isSome && (FFmt.of lo).isSome }
  | 0x57 => some { one with rounds := true, sat := true, fOk := (FFmt.of hi).isSome && (IFmt.of lo).isSome }
  | 0x58 => some { one with a := .modes mPlain, fOk := g.f.toNat ≤ 1 }
  | _ => none

/-- Special functions and activation tables (R240 to R245). -/
def ruleSpecial (op : Nat) (g : Base) : Option Rule :=
  let z := g.f = 0
  match op with
  | 0x60 | 0x61 | 0x62 | 0x63 | 0x64 | 0x65 | 0x66 | 0x67 | 0x68 | 0x69 =>
    some { fOk := z, d := .vec, a := .modes mAll, mask := .full, rounds := true, sat := true }
  | 0x6A => some { fOk := z, d := .uni, a := .modes mUni, b := .imm 3 }
  | 0x6B => some { fOk := z, d := .vec, a := .modes mAll, b := .imm 3, mask := .full, rounds := true, sat := true }
  | 0x6C => some { fOk := z, d := .uni, b := .imm 3 }
  | _ => none

/-- Cross-lane (R247 to R252). -/
def ruleCross (op : Nat) (g : Base) : Option Rule :=
  let z := g.f = 0
  let one : Rule := { fOk := z, d := .vec, a := .modes mAll, mask := .full }
  match op with
  | 0x70 => some { fOk := g.f.toNat ≤ 3, d := .vec, a := .modes 0x01, b := .modes mPlain
                   c := if g.f.extractLsb' 0 2 = 1 then .modes mPlain else .zero, mask := .full }
  | 0x71 => some { one with mask := .merge, fOk := g.f.toNat ≤ 6 }
  | 0x72 => some { one with a := .modes mPlain }
  | 0x73 => some { one with mask := .merge, rounds := true, sat := true }
  | 0x74 | 0x75 => some { one with mask := .merge }
  | 0x76 => some { one with mask := .merge, fOk := g.f.toNat ≤ 7 }
  | 0x77 => some { one with rounds := g.f.extractLsb' 0 3 = 0, sat := g.f.extractLsb' 0 3 = 0
                            fOk := g.f.toNat < 16 && (FRed.of (g.f.extractLsb' 0 3)).isSome }
  | 0x78 => some { one with fOk := g.f.toNat < 16 }
  | 0x79 => some { one with b := .modes mAll, rounds := g.f.extractLsb' 0 3 = 0, sat := g.f.extractLsb' 0 3 = 0
                            fOk := g.f.toNat < 8 && (FRed.of (g.f.extractLsb' 0 3)).isSome }
  | 0x7A => some { one with b := .modes mAll, fOk := g.f.toNat < 8 }
  | 0x7B => some { fOk := z, d := .vec, a := .modes 0x01, b := .modes mUniImm, mask := .full }
  | 0x7E => some { fOk := g.f.toNat ≤ 3, d := .vec, a := .modes 0x01, b := .modes mPlain, mask := .full }
  | _ => none

/-- Whether a size may be used in a space (R15, R201). -/
def sizeOk (sp : Space) (sz : Size) : Bool :=
  match sp with
  | .acc => sz = .w32 || sz = .w64
  | _ => true

/-- Whether a size may be stored (R258). -/
def storeSize : Size → Bool
  | .s8 | .s16 => false
  | _ => true

/-- Whether F is an order descriptor that the opcode takes (R199). -/
def orderOk (op : Nat) (f : BitVec 6) : Bool :=
  let ord := f.extractLsb' 4 2
  let sc := f.extractLsb' 1 3
  (Scope.of sc).isSome && (ord ≠ 0 || sc = 0) &&
  (match op with
   | 0x8A => (ord = 0 || ord = 1) && !f.getLsbD 0
   | 0x8B => (ord = 0 || ord = 2) && !f.getLsbD 0
   | 0x98 => ord = 3 && !f.getLsbD 0
   | 0x97 => !f.getLsbD 0
   | _ => true)

/-- Ordered accesses, atomics, fences, blocks, cache control (R260 to R268). -/
def ruleMem (op : Nat) (g : Base) : Option Rule :=
  let sp := Space.of (g.c.extractLsb' 4 3)
  let sz := Size.of (g.c.extractLsb' 0 3)
  let res := g.c.getLsbD 7 || g.c.getLsbD 3
  let acc : Rule := { fOk := orderOk op g.f, d := .vec, a := .modes mReg, b := .modes mPlain, c := .num 255, bad3 := res, mask := .full }
  match op with
  | 0x8A | 0x8B =>
    let ok := match sp, sz with
      | some sp, some sz => sizeOk sp sz && (op = 0x8A || storeSize sz)
      | _, _ => false
    some { acc with bad4 := !ok, mask := if op = 0x8A then .full else .merge }
  | 0x8C | 0x8D | 0x8E | 0x8F | 0x90 | 0x91 | 0x92 | 0x93 | 0x94 | 0x95 | 0x96 | 0x97 =>
    some { acc with e := some (if g.f.getLsbD 0 then mPlain else mAll), rounds := op = 0x97
                    bad4 := sp.isNone || g.c.extractLsb' 0 3 ≠ 0 }
  | 0x98 => some { fOk := orderOk op g.f }
  | 0x99 =>
    let hdr := g.c.getLsbD 3
    let fmt := g.c.extractLsb' 0 2
    -- the header form's entry names no B (R187, R263)
    some { fOk := g.f = 0, d := .vec, a := .modes mReg, b := if hdr then .zero else .modes mPlain, c := .modes 0x08
           mask := .full, rounds := true, sat := true
           bad3 := g.c.getLsbD 7 || g.c.getLsbD 5 || g.c.getLsbD 4 || g.c.getLsbD 2
           bad5 := fmt = 3 || (hdr && fmt ≠ 0) }
  | 0x9A => some { fOk := g.f = 0, d := .vecOnly, a := .modes mUni, b := .modes mUniImm, c := .modes 0x08
                   mask := .merge, rounds := true
                   bad3 := g.c.getLsbD 7 || g.c.getLsbD 5, bad5 := !stdTarget (g.c.extractLsb' 0 5) }
  | 0x9B => some { fOk := g.f.toNat ≤ 3, a := .modes mUni, b := .modes mUniImm, mask := .merge
                   bad5 := g.bm = 3 && g.b.getLsbD 7 }
  | _ => none

/-- Whether SCOPE of a control byte may be used (R269). -/
def barScope (c : BitVec 8) : Bool :=
  let n := (c.extractLsb' 0 3).toNat
  2 ≤ n && n ≤ 6

/-- Synchronisation, tasks, jobs (R269 to R283). -/
def ruleSync (op : Nat) (g : Base) : Option Rule :=
  let z := g.f = 0
  let te := g.c.getLsbD 4
  -- only an address and tin are never mapped (R185, R270)
  let bar : Rule := { fOk := z, a := .modes mPlain, b := .modes mPlain, c := .modes 0x08, mask := .merge
                      bad3 := g.c.extractLsb' 5 3 ≠ 0, bad5 := !barScope g.c }
  match op with
  | 0xA0 | 0xA2 => some { bar with e := if te then some mAll else none }
  | 0xA1 | 0xA3 => some { bar with b := .modes mAll, bad3 := g.c.extractLsb' 5 3 ≠ 0 || te }
  | 0xA4 => some { fOk := z, a := .modes mUniImm, b := .modes mUniImm, mask := .merge, bad5 := g.bm = 3 && g.b.getLsbD 7 }
  | 0xA5 => some { fOk := z, d := .uni, a := .modes mAll, mask := .merge }
  | 0xA6 => some { fOk := z, d := .uni, a := .modes mUni, c := .imm 4, mask := .merge
                   b := if g.c = 0 then .zero else .modes mUni }
  | 0xA7 => some { fOk := z, d := .uni, a := .modes mUniImm, mask := .merge }
  | 0xA8 => some { fOk := z, d := .vec, a := .modes mReg, b := .modes mUni, mask := .merge }
  | 0xA9 => some { fOk := z, a := .modes mUniImm, b := .modes mUniImm, mask := .merge }
  | 0xAA => some { fOk := z, c := .modes 0x08, mask := .merge, bad3 := g.c.extractLsb' 5 3 ≠ 0 || te
                   bad5 := g.c.getLsbD 3 || !(g.c.extractLsb' 0 3 = 2 || g.c.extractLsb' 0 3 = 3) }
  | 0xB0 => some { fOk := z, a := .modes mUni, mask := .merge }
  | 0xB1 | 0xB3 => some { fOk := z, a := .imm 15, mask := .merge, bad5 := g.a = 0 }
  | 0xB2 => some { fOk := z, d := .uni, a := .imm 3, mask := .merge }
  | _ => none

/-- Matrix engine and map slots (R289, R296). -/
def ruleMatrix (op : Nat) (g : Base) : Option Rule :=
  let z := g.f = 0
  match op with
  | 0xC0 | 0xC4 => some { fOk := z, d := .uni, a := .modes mUniImm }
  | 0xC1 => some { fOk := z, a := .imm 2 }
  | 0xC2 => some { fOk := z, a := .modes mUni, b := .imm 8 }
  | 0xC3 => some { fOk := z, a := .modes mUni, b := .imm 15 }
  | 0xC5 | 0xC6 | 0xC7 => some { fOk := z, d := .num 3, a := .modes mUni, b := .imm 1 }
  | 0xC8 => some { fOk := z, d := .num 3 }
  | 0xC9 => some { fOk := z, d := .uni, a := .imm 3 }
  | _ => none

/-- Search (R309). -/
def ruleSearch (op : Nat) (g : Base) : Option Rule :=
  let z := g.f = 0
  match op with
  | 0xD0 => some { fOk := z, d := .num 255, a := .raw, b := .raw, c := .raw }
  | 0xD1 | 0xD3 => some { fOk := z }
  | 0xD2 => some { fOk := z, d := .vec, a := .modes mPlain, b := .modes mPlain, bad5 := g.am = 3 && g.a ≠ 0 }
  | 0xD4 => some { fOk := z, a := .modes mPlain }
  | 0xD5 | 0xD6 | 0xD8 => some { fOk := z, d := .vec }
  | 0xD7 => some { fOk := g.f.toNat ≤ 1, d := .vec, a := .modes mReg, b := .modes mPlain }
  | _ => none

/-- The entry of a base-format opcode; none for an unassigned or a reserved one (R192). -/
def rule (g : Base) : Option Rule :=
  let op := g.op.toNat
  match op / 16 with
  | 0 => ruleControl op g
  | 1 | 2 => ruleInt op g
  | 3 => ruleUni op g
  | 4 | 5 => ruleFloat op g
  | 6 => ruleSpecial op g
  | 7 => ruleCross op g
  | 8 | 9 => ruleMem op g
  | 10 | 11 => ruleSync op g
  | 12 => ruleMatrix op g
  | 13 => ruleSearch op g
  | _ => none

/-- The I-format opcodes (R193). -/
def isI (op : BitVec 8) : Bool :=
  op = 0x02 || op = 0x03 || op = 0x05 || op = 0x09 || op = 0x0C || op = 0x0D || op = 0x28 || op = 0x39 ||
  (0x80 ≤ op.toNat && op.toNat ≤ 0x89) || op = 0x9C || op = 0x9D

/-- The long-latency opcodes (R194). -/
def isLong (op : BitVec 8) : Bool :=
  op = 0x15 || op = 0x16 || op = 0x3F || (0x40 ≤ op.toNat && op.toNat ≤ 0x7E) ||
  op = 0x80 || op = 0x82 || op = 0x84 || op = 0x86 || op = 0x88 || op = 0x8A || op = 0x99 || op = 0x9C ||
  (0x8C ≤ op.toNat && op.toNat ≤ 0x97) || op = 0xA5

/-- The opcodes before which no word may stand (R188). -/
def noFront (op : BitVec 8) : Bool :=
  (0x01 ≤ op.toNat && op.toNat ≤ 0x0F) || (0xD0 ≤ op.toNat && op.toNat ≤ 0xDF)

/-- What an I-format entry asks of its fields. -/
structure IRule where
  d : DUse := .none
  a : Use := .zero
  f4Ok : Bool
  mask : MaskUse := .none
  deriving DecidableEq, Repr

/-- The space of a plain load or store (R192). -/
def plainSpace (op : BitVec 8) : Space :=
  match op.toNat with
  | 0x82 | 0x83 => .priv
  | 0x84 | 0x85 => .scratch
  | 0x86 | 0x87 => .window
  | 0x88 | 0x89 => .acc
  | 0x9C | 0x9D => .onchip
  | _ => .glob

/-- Whether a plain access stores (R258): the odd opcodes. -/
def plainStore (op : BitVec 8) : Bool := op.getLsbD 0

/-- The entry of an I-format opcode (R182, R218, R210, R213, R258). -/
def iRule (g : IWord) : IRule :=
  let z := g.f4 = 0
  match g.op.toNat with
  | 0x02 | 0x0C => { f4Ok := z }
  | 0x03 => { f4Ok := z, a := .modes 0x01 }
  | 0x05 => { f4Ok := z, d := .vec }
  | 0x09 | 0x0D => { f4Ok := z, d := .uni, a := .modes mUni }
  | 0x28 => { f4Ok := z, d := .vec, mask := .full }
  | 0x39 => { f4Ok := z, d := .uni }
  | _ =>
    { d := .vec, a := .modes (if g.f4.getLsbD 3 then mUni else 0x01)
      f4Ok := (match Size.of (g.f4.extractLsb' 0 3) with
        | some sz => sizeOk (plainSpace g.op) sz && (!plainStore g.op || storeSize sz)
        | none => false)
      mask := if plainStore g.op then .merge else .full }

/-! ### Illegal encodings (R202) -/

/-- An operand field that must be zero and is not (detail 3). -/
def Use.bad3 (u : Use) (m : BitVec 3) (n : BitVec 8) : Bool :=
  match u with
  | .zero => m ≠ 0 || n ≠ 0
  | .raw => m ≠ 0
  | _ => false

/-- An operand form that the entry does not take (detail 5). -/
def Use.bad5 (u : Use) (m : BitVec 3) (n : BitVec 8) : Bool :=
  match u with
  | .zero => false
  | .modes s => !s.getLsbD m.toNat || (m = 2 && 64 ≤ n.toNat)
  | .imm top => m ≠ 3 || top < n.toNat
  | .num top => m ≠ 0 || top < n.toNat
  | .raw => false

/-- D where the entry names none (detail 3). -/
def DUse.bad3 (u : DUse) (n : BitVec 8) : Bool :=
  match u with
  | .none => n ≠ 0
  | _ => false

/-- A destination form that the entry does not take (detail 5). -/
def DUse.bad5 (u : DUse) (dx : BitVec 1) (n : BitVec 8) : Bool :=
  match u with
  | .vec => false
  | .none | .vecOnly => dx = 1
  | .uni => dx = 1 || 64 ≤ n.toNat
  | .mask => dx = 1 || n = 0 || 8 ≤ n.toNat
  | .num top => dx = 1 || top < n.toNat

/-- Whether an operand is read through a map slot. -/
def Use.mapped (u : Use) (m : BitVec 3) : Nat :=
  match u with
  | .modes _ => if 4 ≤ m.toNat then 1 else 0
  | _ => 0

/-- Fields of the word in front that the entry does not use and that are not zero (detail 3). -/
def PWord.bad3 (p : PWord) (mask : MaskUse) (rounds sat readsE : Bool) : Bool :=
  p.rsv ≠ 0 || (!readsE && (p.e ≠ 0 || p.em ≠ 0)) || (!rounds && p.rm ≠ 0) || (!sat && p.sat ≠ 0) ||
  (match mask with
   | .none => p.mreg ≠ 0 || p.mn ≠ 0 || p.mz ≠ 0
   | .merge => p.mz ≠ 0
   | .full => false)

/-- The first detail whose condition holds. -/
def firstDetail : List (Bool × Nat) → Option Nat
  | [] => none
  | (b, d) :: rest => if b then some d else firstDetail rest

/-- The detail of an I-format word under its entry. -/
def illI (p : Option PWord) (g : IWord) : Option Nat :=
  let r := iRule g
  let pf := p.getD {}
  let m : BitVec 3 := if r.a = .modes mUni then 2 else 0
  firstDetail
    [ (r.a.bad3 0 g.a || r.d.bad3 g.d || pf.bad3 r.mask false false false, 3)
    , (!r.f4Ok || (RMode.of pf.rm).isNone, 4)
    , (r.a.bad5 m g.a || r.d.bad5 0 g.d, 5)
    , (p.isSome && noFront g.op, 6)
    , (g.la ≠ 0 && !isLong g.op, 7) ]

/-- The detail of a base word under its entry. -/
def illBase (p : Option PWord) (g : Base) (r : Rule) : Option Nat :=
  let pf := p.getD {}
  firstDetail
    [ (g.rsv ≠ 0 || r.bad3 || r.a.bad3 g.am g.a || r.b.bad3 g.bm g.b || r.c.bad3 g.cm g.c || r.d.bad3 g.d ||
        pf.bad3 r.mask r.rounds r.sat r.e.isSome, 3)
    , (!r.fOk || r.bad4 || (RMode.of pf.rm).isNone, 4)
    , (r.bad5 || r.a.bad5 g.am g.a || r.b.bad5 g.bm g.b || r.c.bad5 g.cm g.c || r.d.bad5 g.dx g.d ||
        (match r.e with
         | some s => p.isNone || (Use.modes s).bad5 pf.em pf.e
         | none => false) ||
        2 < r.a.mapped g.am + r.b.mapped g.bm + r.c.mapped g.cm +
          (match r.e with
           | some s => (Use.modes s).mapped pf.em
           | none => 0), 5)
    , (p.isSome && noFront g.op, 6)
    , (g.la ≠ 0 && !isLong g.op, 7) ]

/-- The detail of a word in front of another such word (R188, R202): a reserved bit or RM = 111 of the first comes before the place. -/
def illFront (p : PWord) : Option Nat :=
  firstDetail [(p.rsv ≠ 0, 3), ((RMode.of p.rm).isNone, 4), (true, 6)]

/-- The detail code of an illegal encoding; none for a legal one (R202). OP 0x00 is detail 1, an unassigned or reserved opcode
detail 2. -/
def ill (x : Words) : Option Nat :=
  let p := x.pw.map PWord.unpack
  let op := x.w.extractLsb' 0 8
  if op = 0 then some 1
  else if op = 0xF0 then illFront (p.getD {})
  else if isI op then illI p (IWord.unpack x.w)
  else match rule (Base.unpack x.w) with
    | none => some 2
    | some r => illBase p (Base.unpack x.w) r

/-! ### From words to an instruction -/

/-- The fields of the word in front as an instruction carries them. -/
def PWord.toPfx (p : PWord) : Option Pfx :=
  (RMode.of p.rm).map fun rm =>
    { m := p.mreg, mn := p.mn = 1, mz := p.mz = 1, rm := rm, e := Src.of p.em p.e, sat := p.sat = 1 }

/-- The word in front that carries these fields. -/
def Pfx.toPWord (x : Pfx) : PWord where
  sat := if x.sat then 1 else 0
  em := x.e.mode
  e := x.e.field
  rm := x.rm.code
  mz := if x.mz then 1 else 0
  mn := if x.mn then 1 else 0
  mreg := x.m

/-- What a base word carries beside its operands. -/
def Base.ctl (p : Option PWord) (g : Base) : Ctl :=
  { la := g.la, ru := g.ru = 1, pfx := p.bind PWord.toPfx }

/-- What an I-format word carries beside its operands. -/
def IWord.ctl (p : Option PWord) (g : IWord) : Ctl :=
  { la := g.la, ru := false, pfx := p.bind PWord.toPfx }

/-- Operand A of a base word. -/
def Base.A (g : Base) : Src := Src.of g.am g.a
/-- Operand B of a base word. -/
def Base.B (g : Base) : Src := Src.of g.bm g.b
/-- Operand C of a base word. -/
def Base.C (g : Base) : Src := Src.of g.cm g.c
/-- The destination of a base word. -/
def Base.D (g : Base) : Dst := { ix := g.dx = 1, n := g.d }
/-- F[0]. -/
def Base.f0 (g : Base) : Bool := g.f.getLsbD 0
/-- F[4]. -/
def Base.f4 (g : Base) : Bool := g.f.getLsbD 4

/-- The access of an ordered access or an atomic (R199, R200). -/
def Base.access (g : Base) : Option Access := do
  let sp ← Space.of (g.c.extractLsb' 4 3)
  let sz ← Size.of (g.c.extractLsb' 0 3)
  let sc ← Scope.of (g.f.extractLsb' 1 3)
  pure { space := sp, size := sz, ord := Order.of (g.f.extractLsb' 4 2), scope := sc, wide := g.f.getLsbD 0 }

/-- The control byte of a barrier instruction (R269). -/
def Base.bar (g : Base) : Option BarCtl := do
  let sc ← Scope.of (g.c.extractLsb' 0 3)
  pure { te := g.c.getLsbD 4, win := g.c.getLsbD 3, scope := sc }

/-- The instruction of an I-format word. -/
def IWord.instr (p : Option PWord) (g : IWord) : Option Instr :=
  let x := g.ctl p
  let ua := g.f4.getLsbD 3
  match g.op.toNat with
  | 0x02 => some (.bra x g.imm)
  | 0x03 => some (.brc x g.a g.imm)
  | 0x05 => some (.call x g.d g.imm)
  | 0x09 => some (.waitj x g.d g.a g.imm)
  | 0x0C => some (.trap x g.imm)
  | 0x0D => some (.sysc x g.d g.a g.imm)
  | 0x28 => some (.movi x g.d g.imm)
  | 0x39 => some (.kmovi x g.d g.imm)
  | n =>
    match Size.of (g.f4.extractLsb' 0 3) with
    | none => none
    | some sz =>
      match n with
      | 0x80 => some (.ld x g.d ua sz g.a g.imm)
      | 0x81 => some (.st x g.d ua sz g.a g.imm)
      | 0x82 => some (.ldl x g.d ua sz g.a g.imm)
      | 0x83 => some (.stl x g.d ua sz g.a g.imm)
      | 0x84 => some (.lds x g.d ua sz g.a g.imm)
      | 0x85 => some (.sts x g.d ua sz g.a g.imm)
      | 0x86 => some (.ldw x g.d ua sz g.a g.imm)
      | 0x87 => some (.stw x g.d ua sz g.a g.imm)
      | 0x88 => some (.ldt x g.d ua sz g.a g.imm)
      | 0x89 => some (.stt x g.d ua sz g.a g.imm)
      | 0x9C => some (.ldx x g.d ua sz g.a g.imm)
      | 0x9D => some (.stx x g.d ua sz g.a g.imm)
      | _ => none

/-- Control flow and integer words (R210, R218). -/
def Base.instr0 (p : Option PWord) (g : Base) : Option Instr :=
  let x := g.ctl p
  match g.op.toNat with
  | 0x01 => some (.nop x)
  | 0x04 => some (.brx x g.A)
  | 0x06 => some (.calli x g.D g.A)
  | 0x07 => some (.ret x g.A)
  | 0x08 => some (.rcv x (g.c ++ g.b ++ g.a))
  | 0x0A => some (.exit x)
  | 0x0B => some (.endGroup x)
  | 0x0E => some (.bkpt x)
  | 0x0F => some (.yield x)
  | 0x10 => some (.iadd x g.D g.A g.B)
  | 0x11 => some (.isub x g.D g.A g.B)
  | 0x12 => some (.imul x g.D g.A g.B)
  | 0x13 => some (.imulh x g.f0 g.D g.A g.B)
  | 0x14 => some (.imad x g.D g.A g.B g.C)
  | 0x15 => some (.idiv x g.f0 g.D g.A g.B)
  | 0x16 => some (.irem x g.f0 g.D g.A g.B)
  | 0x17 => some (.imin x g.f0 g.D g.A g.B)
  | 0x18 => some (.imax x g.f0 g.D g.A g.B)
  | 0x19 => some (.iabs x g.D g.A)
  | 0x1A => some (.and x g.D g.A g.B)
  | 0x1B => some (.or x g.D g.A g.B)
  | 0x1C => some (.xor x g.D g.A g.B)
  | 0x1D => some (.shl x g.D g.A g.B)
  | 0x1E => some (.shr x g.D g.A g.B)
  | 0x1F => some (.sra x g.D g.A g.B)
  | 0x20 => some (.popc x g.D g.A)
  | 0x21 => some (.clz x g.D g.A)
  | 0x22 => some (.brev x g.D g.A)
  | 0x23 => some (.bfe x g.D g.A g.B)
  | 0x24 => some (.bfi x g.D g.A g.B g.C)
  | 0x25 => (ICond.of (g.f.extractLsb' 0 4)).map fun cc => .icmp x cc g.f4 g.D g.A g.B
  | 0x26 => some (.sel x g.D g.A g.B g.C)
  | 0x27 => some (.mov x g.D g.A)
  | 0x29 => some (.lea x g.D g.A g.B g.C)
  | 0x2A => some (.iadd64 x g.D g.A g.B)
  | 0x2B => some (.setix x g.A)
  | 0x2C => some (.bsel x g.D g.A g.B g.C)
  | 0x2D => some (.ishf x g.D g.A g.B g.C)
  | 0x2E => some (.imads x g.D g.A g.B g.C)
  | 0x2F => some (.imul64 x g.D g.A g.B)
  | _ => none

/-- Uniform words (R213). -/
def Base.instr3 (p : Option PWord) (g : Base) : Option Instr :=
  let x := g.ctl p
  match g.op.toNat with
  | 0x30 => some (.kadd x g.d g.A g.B)
  | 0x31 => some (.ksub x g.d g.A g.B)
  | 0x32 => some (.kmul x g.d g.A g.B)
  | 0x33 => some (.kand x g.d g.A g.B)
  | 0x34 => some (.kor x g.d g.A g.B)
  | 0x35 => some (.kxor x g.d g.A g.B)
  | 0x36 => some (.kshl x g.d g.A g.B)
  | 0x37 => some (.kshr x g.d g.A g.B)
  | 0x38 => some (.kmov x g.d g.A)
  | 0x3A => (ICond.of (g.f.extractLsb' 0 4)).map fun cc => .kcmp x cc g.d g.A g.B
  | 0x3B => some (.rdsr x g.D g.a)
  | 0x3C => some (.wrsr x g.d g.A)
  | 0x3D => some (.vtok x g.d g.A g.B)
  | 0x3E => some (.mmov x g.d g.A)
  | 0x3F => some (.kld x (g.c = 1) g.d g.A g.B)
  | _ => none

/-- Floating-point words (R232, R236 to R239). -/
def Base.instr4 (p : Option PWord) (g : Base) : Option Instr :=
  let x := g.ctl p
  let hi := g.f.extractLsb' 3 3
  let lo := g.f.extractLsb' 0 3
  match g.op.toNat with
  | 0x40 => some (.fadd x g.D g.A g.B)
  | 0x41 => some (.fsub x g.D g.A g.B)
  | 0x42 => some (.fmul x g.D g.A g.B)
  | 0x43 => some (.ffma x g.D g.A g.B g.C)
  | 0x44 => some (.fdiv x g.D g.A g.B)
  | 0x45 => some (.fmin x g.D g.A g.B)
  | 0x46 => some (.fmax x g.D g.A g.B)
  | 0x47 => (FCond.of (g.f.extractLsb' 0 4)).map fun cc => .fcmp x cc g.f4 g.D g.A g.B
  | 0x48 => some (.fclass x g.D g.A)
  | 0x49 => some (.fscale x g.D g.A g.B)
  | 0x4A => some (.frnd x g.D g.A)
  | 0x4B => some (.hadd2 x g.D g.A g.B)
  | 0x4C => some (.hmul2 x g.D g.A g.B)
  | 0x4D => some (.hfma2 x g.D g.A g.B g.C)
  | 0x4E => some (.hmnx2 x g.f0 g.D g.A g.B)
  | 0x4F => (FCond.of (g.f.extractLsb' 0 4)).map fun cc => .hcmp2 x cc g.f4 g.D g.A g.B
  | 0x50 => some (.badd2 x g.D g.A g.B)
  | 0x51 => some (.bmul2 x g.D g.A g.B)
  | 0x52 => some (.bfma2 x g.D g.A g.B g.C)
  | 0x53 => some (.fdot2 x g.D g.A g.B g.C)
  | 0x54 => do
    let dst ← FFmt.of hi
    let src ← FFmt.of lo
    pure (.cvt x dst src g.D g.A)
  | 0x55 => do
    let dst ← FFmt.of hi
    let src ← FFmt.of lo
    pure (.cvtp x dst src g.D g.A g.B g.C)
  | 0x56 => do
    let dst ← IFmt.of hi
    let src ← FFmt.of lo
    pure (.cvti x dst src g.D g.A)
  | 0x57 => do
    let dst ← FFmt.of hi
    let src ← IFmt.of lo
    pure (.cvtf x dst src g.D g.A)
  | 0x58 => some (.fabs x g.f0 g.D g.A)
  | _ => none

/-- Special functions, activation tables and cross-lane words (R240 to R252). -/
def Base.instr6 (p : Option PWord) (g : Base) : Option Instr :=
  let x := g.ctl p
  let lo := g.f.extractLsb' 0 3
  let f3 := g.f.getLsbD 3
  match g.op.toNat with
  | 0x60 => some (.fexp x g.D g.A)
  | 0x61 => some (.fexp2 x g.D g.A)
  | 0x62 => some (.flog2 x g.D g.A)
  | 0x63 => some (.frcp x g.D g.A)
  | 0x64 => some (.frsq x g.D g.A)
  | 0x65 => some (.fsqrt x g.D g.A)
  | 0x66 => some (.fsin x g.D g.A)
  | 0x67 => some (.fcos x g.D g.A)
  | 0x68 => some (.ftanh x g.D g.A)
  | 0x69 => some (.fsig x g.D g.A)
  | 0x6A => some (.actld x g.d g.a (g.b.extractLsb' 0 2))
  | 0x6B => some (.actev x g.D g.A (g.b.extractLsb' 0 2))
  | 0x6C => some (.actinfo x g.d (g.b.extractLsb' 0 2))
  | 0x70 => some (.shfl x (ShMode.of (g.f.extractLsb' 0 2)) g.D g.a g.B g.C)
  | 0x71 => (PollOp.of lo).map fun op => .poll x op g.D g.A
  | 0x72 => some (.matchLanes x g.D g.A)
  | 0x73 => some (.raddf x g.D g.A)
  | 0x74 => some (.rmaxf x g.D g.A)
  | 0x75 => some (.rminf x g.D g.A)
  | 0x76 => some (.rint x (IRed.of lo) g.D g.A)
  | 0x77 => (FRed.of lo).map fun op => .scanf x op f3 g.D g.A
  | 0x78 => some (.scani x (IRed.of lo) f3 g.D g.A)
  | 0x79 => (FRed.of lo).map fun op => .segf x op g.D g.A g.B
  | 0x7A => some (.segi x (IRed.of lo) g.D g.A g.B)
  | 0x7B => some (.bcast x g.D g.a g.B)
  | 0x7E => some (.shflo x (ShMode.of (g.f.extractLsb' 0 2)) g.D g.a g.B)
  | _ => none

/-- Memory words (R260 to R268). -/
def Base.instr8 (p : Option PWord) (g : Base) : Option Instr :=
  let x := g.ctl p
  match g.op.toNat with
  | 0x8A => g.access.map fun y => .orderedLoad x y g.D g.A g.B
  | 0x8B => g.access.map fun y => .orderedStore x y g.D g.A g.B
  | 0x8C => g.access.map fun y => .atomAdd x y g.D g.A g.B
  | 0x8D => g.access.map fun y => .atomSub x y g.D g.A g.B
  | 0x8E => g.access.map fun y => .atomMin x y g.D g.A g.B
  | 0x8F => g.access.map fun y => .atomMax x y g.D g.A g.B
  | 0x90 => g.access.map fun y => .atomUmin x y g.D g.A g.B
  | 0x91 => g.access.map fun y => .atomUmax x y g.D g.A g.B
  | 0x92 => g.access.map fun y => .atomAnd x y g.D g.A g.B
  | 0x93 => g.access.map fun y => .atomOr x y g.D g.A g.B
  | 0x94 => g.access.map fun y => .atomXor x y g.D g.A g.B
  | 0x95 => g.access.map fun y => .atomExch x y g.D g.A g.B
  | 0x96 => g.access.map fun y => .atomCas x y g.D g.A g.B
  | 0x97 => g.access.map fun y => .atomFadd x y g.D g.A g.B
  | 0x98 => (Scope.of (g.f.extractLsb' 1 3)).map fun sc => .fence x sc
  | 0x99 => (LddFmt.of (g.c.extractLsb' 0 2)).map fun f => .ldd x (g.c.getLsbD 6) (g.c.getLsbD 3) f g.D g.A g.B
  | 0x9A => some (.std x (g.c.getLsbD 6) (g.c.extractLsb' 0 5) g.d g.A g.B)
  | 0x9B =>
    match g.f.toNat with
    | 0 => some (.cctlPrefetch x g.A g.B)
    | 1 => some (.cctlClean x g.A g.B)
    | 2 => some (.cctlEvict x g.A g.B)
    | 3 => some (.cctlDiscard x g.A g.B)
    | _ => none
  | _ => none

/-- Synchronisation and job words (R269 to R283). -/
def Base.instrA (p : Option PWord) (g : Base) : Option Instr :=
  let x := g.ctl p
  match g.op.toNat with
  | 0xA0 => g.bar.map fun c => .barr x c g.A g.B
  | 0xA1 => g.bar.map fun c => .barw x c g.A g.B
  | 0xA2 => g.bar.map fun c => .barrw x c g.A g.B
  | 0xA3 => g.bar.map fun c => .swwait x c g.A g.B
  | 0xA4 => some (.cinc x g.A g.B)
  | 0xA5 => some (.crd x g.d g.A)
  | 0xA6 => some (.tqpush x g.d g.a g.b g.c)
  | 0xA7 => some (.tqpop x g.d g.A)
  | 0xA8 => some (.fork x g.D g.A g.b)
  | 0xA9 => some (.joinc x g.A g.B)
  | 0xAA => (Scope.of (g.c.extractLsb' 0 3)).map fun sc => .gbar x sc
  | 0xB0 => some (.jsub x g.a)
  | 0xB1 => some (.jwait x g.a)
  | 0xB2 => some (.jchk x g.d g.a)
  | 0xB3 => some (.jcan x g.a)
  | _ => none

/-- Matrix, map-slot and search words (R289, R296, R309). -/
def Base.instrC (p : Option PWord) (g : Base) : Option Instr :=
  let x := g.ctl p
  let h := g.d.extractLsb' 0 2
  match g.op.toNat with
  | 0xC0 => some (.mxq x g.d g.A)
  | 0xC1 =>
    match g.a.toNat with
    | 0 => some (.mxrunResume x)
    | 1 => some (.mxrunSkip x)
    | 2 => some (.mxrunAbort x)
    | _ => none
  | 0xC2 => some (.mxcfg x g.a g.b)
  | 0xC3 => some (.mxcb x g.a (g.b.getLsbD 3) (g.b.extractLsb' 0 3))
  | 0xC4 => some (.mxwait x g.d g.A)
  | 0xC5 => some (.mapbind x h g.a (g.b = 1))
  | 0xC6 => some (.mapld x h g.a (g.b = 1))
  | 0xC7 => some (.mapst x h g.a (g.b = 1))
  | 0xC8 => some (.maprel x h)
  | 0xC9 => some (.mapinfo x g.d (g.a.extractLsb' 0 2))
  | 0xD0 => some (.srchbeg x g.d (g.c ++ g.b ++ g.a))
  | 0xD1 => some (.srchend x)
  | 0xD2 => some (.trye x g.D g.A g.B)
  | 0xD3 => some (.fail x)
  | 0xD4 => some (.cut x g.A)
  | 0xD5 => some (.cpmark x g.D)
  | 0xD6 => some (.cpchk x g.D)
  | 0xD7 => some (.trst x g.f0 g.D g.A g.B)
  | 0xD8 => some (.steal x g.D)
  | _ => none

/-- The instruction of a base word. -/
def Base.instr (p : Option PWord) (g : Base) : Option Instr :=
  match g.op.toNat / 16 with
  | 0 | 1 | 2 => g.instr0 p
  | 3 => g.instr3 p
  | 4 | 5 => g.instr4 p
  | 6 | 7 => g.instr6 p
  | 8 | 9 => g.instr8 p
  | 10 | 11 => g.instrA p
  | 12 | 13 => g.instrC p
  | _ => none

/-- Why bytes are no instruction: they end too soon, or the encoding is illegal with this detail (R202). -/
inductive DecodeError where
  | truncated
  | illegal (detail : Nat)
  deriving DecidableEq, Repr

/-- The instruction of a set of words. OP 0x00 is the illegal instruction itself (R192); every other illegal encoding is rejected with
its detail. -/
def decodeWords (x : Words) : Except DecodeError Instr :=
  if x.w.extractLsb' 0 8 = 0 then .ok (.illegal x.pw x.w)
  else
    match ill x with
    | some d => .error (.illegal d)
    | none =>
      let p := x.pw.map PWord.unpack
      let i := if isI (x.w.extractLsb' 0 8) then (IWord.unpack x.w).instr p else (Base.unpack x.w).instr p
      match i with
      | some i => .ok i
      | none => .error (.illegal 4)

/-- A little-endian word of `n` bytes (R8). -/
def leWord (n : Nat) (bs : List Byte) : Nat :=
  match n, bs with
  | n + 1, b :: rest => b.toNat + 256 * leWord n rest
  | _, _ => 0

/-- The bytes of a number, least significant first (R8). -/
def leBytes (n : Nat) (x : Nat) : List Byte :=
  match n with
  | 0 => []
  | n + 1 => BitVec.ofNat 8 x :: leBytes n (x / 256)

/-- The words at the head of a stream of bytes (R180): a first byte 0xF0 marks a word in front. -/
def wordsOf (bs : List Byte) : Option Words :=
  match bs with
  | [] => none
  | b :: _ =>
    if b = 0xF0 then
      if bs.length < 12 then none
      else some { pw := some (BitVec.ofNat 32 (leWord 4 bs)), w := BitVec.ofNat 64 (leWord 8 (bs.drop 4)) }
    else if bs.length < 8 then none
    else some { w := BitVec.ofNat 64 (leWord 8 bs) }

/-- The bytes of a set of words, as they lie in memory (R180). -/
def Words.toBytes (x : Words) : List Byte :=
  (match x.pw with
   | some p => leBytes 4 p.toNat
   | none => []) ++ leBytes 8 x.w.toNat

/-- The decoder: the instruction at the head of a stream of bytes, with the bytes that follow it. -/
def decode (bs : List Byte) : Except DecodeError (Instr × List Byte) :=
  match wordsOf bs with
  | none => .error .truncated
  | some x => (decodeWords x).map fun i => (i, bs.drop x.bytes)

/-- The instruction that the decoder reads from one whose bits are `w`, numbered from bit 0 of its first word; the bits above
`nbits` are zero. -/
def decodeTableWord (nbits w : Nat) : Option Instr :=
  match decode (leBytes 12 (w % 2 ^ nbits)) with
  | .ok (i, _) => some i
  | .error _ => none

/-! ### The encoder, from the same tables -/

/-- The fields that every base word takes from what an instruction carries. -/
def Ctl.base (x : Ctl) (op : BitVec 8) : Base :=
  { op := op, la := x.la, ru := if x.ru then 1 else 0 }

/-- A base word with a vector destination. -/
def Ctl.dst (x : Ctl) (op : BitVec 8) (d : Dst) : Base :=
  { x.base op with dx := if d.ix then 1 else 0, d := d.n }

/-- Put a source operand into A. -/
def Base.setA (g : Base) (s : Src) : Base := { g with am := s.mode, a := s.field }
/-- Put a source operand into B. -/
def Base.setB (g : Base) (s : Src) : Base := { g with bm := s.mode, b := s.field }
/-- Put a source operand into C. -/
def Base.setC (g : Base) (s : Src) : Base := { g with cm := s.mode, c := s.field }
/-- Put a subfunction into F. -/
def Base.setF (g : Base) (f : BitVec 6) : Base := { g with f := f }

/-- One bit. -/
def bit1 (b : Bool) : BitVec 1 := if b then 1 else 0

/-- F of a compare: the destination bit and the condition (R196). -/
def cmpF (tomask : Bool) (cc : BitVec 4) : BitVec 6 := (0 : BitVec 1) ++ bit1 tomask ++ cc

/-- F of a signedness or a direction bit. -/
def f0F (b : Bool) : BitVec 6 := (0 : BitVec 5) ++ bit1 b

/-- The order descriptor of an access (R199). -/
def Access.orderF (g : Access) : BitVec 6 := g.ord.code ++ g.scope.code ++ bit1 g.wide

/-- The access descriptor (R200). -/
def Access.descC (g : Access) : BitVec 8 := (0 : BitVec 1) ++ g.space.code ++ (0 : BitVec 1) ++ g.size.code

/-- An ordered access or an atomic (R260, R265). -/
def Ctl.access (x : Ctl) (op : BitVec 8) (g : Access) (d : Dst) (a b : Src) : Base :=
  { ((x.dst op d).setA a).setB b with f := g.orderF, c := g.descC }

/-- The control byte of a barrier instruction (R269). -/
def BarCtl.byte (c : BarCtl) : BitVec 8 := (0 : BitVec 3) ++ bit1 c.te ++ bit1 c.win ++ c.scope.code

/-- A barrier instruction (R270). -/
def Ctl.bar (x : Ctl) (op : BitVec 8) (c : BarCtl) (a b : Src) : Base :=
  { ((x.base op).setA a).setB b with c := c.byte, cm := 3 }

/-- The 24-bit offset of `rcv` and `srchbeg` in C, B and A (R218). -/
def Base.setOff (g : Base) (off : BitVec 24) : Base :=
  { g with a := off.extractLsb' 0 8, b := off.extractLsb' 8 8, c := off.extractLsb' 16 8 }

/-- A plain load or store (R258). -/
def plainWord (x : Ctl) (op d : BitVec 8) (ua : Bool) (sz : Size) (a : BitVec 8) (off : W32) : IWord :=
  { op := op, la := x.la, d := d, a := a, imm := off, f4 := bit1 ua ++ sz.code }

/-- Two small fields as an 8-bit field. -/
def n2 (n : BitVec 2) : BitVec 8 := (0 : BitVec 6) ++ n

/-- What the encoder puts in the 64-bit word. -/
inductive Word64 where
  | base (g : Base)
  | iform (g : IWord)
  deriving DecidableEq, Repr

/-- The 64-bit word's fields for an instruction of the program; none for a step of another agent, for the handler's return, whose
words are those of `trap`, and for the fused sequence, which has four instructions' words. -/
def Instr.word64 (i : Instr) : Option Word64 :=
  match i with
  | .illegal _ w => some (.base (Base.unpack w))
  | .nop x => some (.base (x.base 0x01))
  | .bra x imm => some (.iform { op := 0x02, la := x.la, imm := imm })
  | .brc x a imm => some (.iform { op := 0x03, la := x.la, a := a, imm := imm })
  | .brx x a => some (.base ((x.base 0x04).setA a))
  | .call x d imm => some (.iform { op := 0x05, la := x.la, d := d, imm := imm })
  | .calli x d a => some (.base ((x.dst 0x06 d).setA a))
  | .ret x a => some (.base ((x.base 0x07).setA a))
  | .rcv x off => some (.base ((x.base 0x08).setOff off))
  | .waitj x d a imm => some (.iform { op := 0x09, la := x.la, d := d, a := a, imm := imm })
  | .exit x => some (.base (x.base 0x0A))
  | .endGroup x => some (.base (x.base 0x0B))
  | .trap x imm => some (.iform { op := 0x0C, la := x.la, imm := imm })
  | .sysc x d a imm => some (.iform { op := 0x0D, la := x.la, d := d, a := a, imm := imm })
  | .bkpt x => some (.base (x.base 0x0E))
  | .yield x => some (.base (x.base 0x0F))
  | .iadd x d a b => some (.base (((x.dst 0x10 d).setA a).setB b))
  | .isub x d a b => some (.base (((x.dst 0x11 d).setA a).setB b))
  | .imul x d a b => some (.base (((x.dst 0x12 d).setA a).setB b))
  | .imulh x u d a b => some (.base ((((x.dst 0x13 d).setA a).setB b).setF (f0F u)))
  | .imad x d a b c => some (.base ((((x.dst 0x14 d).setA a).setB b).setC c))
  | .idiv x u d a b => some (.base ((((x.dst 0x15 d).setA a).setB b).setF (f0F u)))
  | .irem x u d a b => some (.base ((((x.dst 0x16 d).setA a).setB b).setF (f0F u)))
  | .imin x u d a b => some (.base ((((x.dst 0x17 d).setA a).setB b).setF (f0F u)))
  | .imax x u d a b => some (.base ((((x.dst 0x18 d).setA a).setB b).setF (f0F u)))
  | .iabs x d a => some (.base ((x.dst 0x19 d).setA a))
  | .and x d a b => some (.base (((x.dst 0x1A d).setA a).setB b))
  | .or x d a b => some (.base (((x.dst 0x1B d).setA a).setB b))
  | .xor x d a b => some (.base (((x.dst 0x1C d).setA a).setB b))
  | .shl x d a b => some (.base (((x.dst 0x1D d).setA a).setB b))
  | .shr x d a b => some (.base (((x.dst 0x1E d).setA a).setB b))
  | .sra x d a b => some (.base (((x.dst 0x1F d).setA a).setB b))
  | .popc x d a => some (.base ((x.dst 0x20 d).setA a))
  | .clz x d a => some (.base ((x.dst 0x21 d).setA a))
  | .brev x d a => some (.base ((x.dst 0x22 d).setA a))
  | .bfe x d a b => some (.base (((x.dst 0x23 d).setA a).setB b))
  | .bfi x d a b c => some (.base ((((x.dst 0x24 d).setA a).setB b).setC c))
  | .icmp x cc t d a b => some (.base ((((x.dst 0x25 d).setA a).setB b).setF (cmpF t cc.code)))
  | .sel x d a b c => some (.base ((((x.dst 0x26 d).setA a).setB b).setC c))
  | .mov x d a => some (.base ((x.dst 0x27 d).setA a))
  | .movi x d imm => some (.iform { op := 0x28, la := x.la, d := d, imm := imm })
  | .lea x d a b c => some (.base ((((x.dst 0x29 d).setA a).setB b).setC c))
  | .iadd64 x d a b => some (.base (((x.dst 0x2A d).setA a).setB b))
  | .setix x a => some (.base ((x.base 0x2B).setA a))
  | .bsel x d a b c => some (.base ((((x.dst 0x2C d).setA a).setB b).setC c))
  | .ishf x d a b c => some (.base ((((x.dst 0x2D d).setA a).setB b).setC c))
  | .imads x d a b c => some (.base ((((x.dst 0x2E d).setA a).setB b).setC c))
  | .imul64 x d a b => some (.base (((x.dst 0x2F d).setA a).setB b))
  | .kadd x d a b => some (.base { ((x.base 0x30).setA a).setB b with d := d })
  | .ksub x d a b => some (.base { ((x.base 0x31).setA a).setB b with d := d })
  | .kmul x d a b => some (.base { ((x.base 0x32).setA a).setB b with d := d })
  | .kand x d a b => some (.base { ((x.base 0x33).setA a).setB b with d := d })
  | .kor x d a b => some (.base { ((x.base 0x34).setA a).setB b with d := d })
  | .kxor x d a b => some (.base { ((x.base 0x35).setA a).setB b with d := d })
  | .kshl x d a b => some (.base { ((x.base 0x36).setA a).setB b with d := d })
  | .kshr x d a b => some (.base { ((x.base 0x37).setA a).setB b with d := d })
  | .kmov x d a => some (.base { (x.base 0x38).setA a with d := d })
  | .kmovi x d imm => some (.iform { op := 0x39, la := x.la, d := d, imm := imm })
  | .kcmp x cc d a b => some (.base { ((x.base 0x3A).setA a).setB b with d := d, f := cmpF false cc.code })
  | .rdsr x d n => some (.base { x.dst 0x3B d with a := n })
  | .wrsr x n a => some (.base { (x.base 0x3C).setA a with d := n })
  | .vtok x d a b => some (.base { ((x.base 0x3D).setA a).setB b with d := d })
  | .mmov x d a => some (.base { (x.base 0x3E).setA a with d := d })
  | .kld x sp d a b => some (.base { ((x.base 0x3F).setA a).setB b with d := d, c := if sp then 1 else 0 })
  | .fadd x d a b => some (.base (((x.dst 0x40 d).setA a).setB b))
  | .fsub x d a b => some (.base (((x.dst 0x41 d).setA a).setB b))
  | .fmul x d a b => some (.base (((x.dst 0x42 d).setA a).setB b))
  | .ffma x d a b c => some (.base ((((x.dst 0x43 d).setA a).setB b).setC c))
  | .fdiv x d a b => some (.base (((x.dst 0x44 d).setA a).setB b))
  | .fmin x d a b => some (.base (((x.dst 0x45 d).setA a).setB b))
  | .fmax x d a b => some (.base (((x.dst 0x46 d).setA a).setB b))
  | .fcmp x cc t d a b => some (.base ((((x.dst 0x47 d).setA a).setB b).setF (cmpF t cc.code)))
  | .fclass x d a => some (.base ((x.dst 0x48 d).setA a))
  | .fscale x d a b => some (.base (((x.dst 0x49 d).setA a).setB b))
  | .frnd x d a => some (.base ((x.dst 0x4A d).setA a))
  | .hadd2 x d a b => some (.base (((x.dst 0x4B d).setA a).setB b))
  | .hmul2 x d a b => some (.base (((x.dst 0x4C d).setA a).setB b))
  | .hfma2 x d a b c => some (.base ((((x.dst 0x4D d).setA a).setB b).setC c))
  | .hmnx2 x m d a b => some (.base ((((x.dst 0x4E d).setA a).setB b).setF (f0F m)))
  | .hcmp2 x cc t d a b => some (.base ((((x.dst 0x4F d).setA a).setB b).setF (cmpF t cc.code)))
  | .badd2 x d a b => some (.base (((x.dst 0x50 d).setA a).setB b))
  | .bmul2 x d a b => some (.base (((x.dst 0x51 d).setA a).setB b))
  | .bfma2 x d a b c => some (.base ((((x.dst 0x52 d).setA a).setB b).setC c))
  | .fdot2 x d a b c => some (.base ((((x.dst 0x53 d).setA a).setB b).setC c))
  | .cvt x t s d a => some (.base (((x.dst 0x54 d).setA a).setF (t.code ++ s.code)))
  | .cvtp x t s d a b c => some (.base (((((x.dst 0x55 d).setA a).setB b).setC c).setF (t.code ++ s.code)))
  | .cvti x t s d a => some (.base (((x.dst 0x56 d).setA a).setF (t.code ++ s.code)))
  | .cvtf x t s d a => some (.base (((x.dst 0x57 d).setA a).setF (t.code ++ s.code)))
  | .fabs x n d a => some (.base (((x.dst 0x58 d).setA a).setF (f0F n)))
  | .fexp x d a => some (.base ((x.dst 0x60 d).setA a))
  | .fexp2 x d a => some (.base ((x.dst 0x61 d).setA a))
  | .flog2 x d a => some (.base ((x.dst 0x62 d).setA a))
  | .frcp x d a => some (.base ((x.dst 0x63 d).setA a))
  | .frsq x d a => some (.base ((x.dst 0x64 d).setA a))
  | .fsqrt x d a => some (.base ((x.dst 0x65 d).setA a))
  | .fsin x d a => some (.base ((x.dst 0x66 d).setA a))
  | .fcos x d a => some (.base ((x.dst 0x67 d).setA a))
  | .ftanh x d a => some (.base ((x.dst 0x68 d).setA a))
  | .fsig x d a => some (.base ((x.dst 0x69 d).setA a))
  | .actld x d a n => some (.base { x.base 0x6A with d := d, a := a, am := 2, b := n2 n, bm := 3 })
  | .actev x d a n => some (.base { (x.dst 0x6B d).setA a with b := n2 n, bm := 3 })
  | .actinfo x d n => some (.base { x.base 0x6C with d := d, b := n2 n, bm := 3 })
  | .shfl x m d a b c => some (.base { (((x.dst 0x70 d).setB b).setC c) with a := a, f := (0 : BitVec 4) ++ m.code })
  | .poll x op d a => some (.base (((x.dst 0x71 d).setA a).setF ((0 : BitVec 3) ++ op.code)))
  | .matchLanes x d a => some (.base ((x.dst 0x72 d).setA a))
  | .raddf x d a => some (.base ((x.dst 0x73 d).setA a))
  | .rmaxf x d a => some (.base ((x.dst 0x74 d).setA a))
  | .rminf x d a => some (.base ((x.dst 0x75 d).setA a))
  | .rint x op d a => some (.base (((x.dst 0x76 d).setA a).setF ((0 : BitVec 3) ++ op.code)))
  | .scanf x op e d a => some (.base (((x.dst 0x77 d).setA a).setF ((0 : BitVec 2) ++ bit1 e ++ op.code)))
  | .scani x op e d a => some (.base (((x.dst 0x78 d).setA a).setF ((0 : BitVec 2) ++ bit1 e ++ op.code)))
  | .segf x op d a b => some (.base ((((x.dst 0x79 d).setA a).setB b).setF ((0 : BitVec 3) ++ op.code)))
  | .segi x op d a b => some (.base ((((x.dst 0x7A d).setA a).setB b).setF ((0 : BitVec 3) ++ op.code)))
  | .bcast x d a b => some (.base { (x.dst 0x7B d).setB b with a := a })
  | .shflo x m d a b => some (.base { (x.dst 0x7E d).setB b with a := a, f := (0 : BitVec 4) ++ m.code })
  | .ld x d ua sz a off => some (.iform (plainWord x 0x80 d ua sz a off))
  | .st x d ua sz a off => some (.iform (plainWord x 0x81 d ua sz a off))
  | .ldl x d ua sz a off => some (.iform (plainWord x 0x82 d ua sz a off))
  | .stl x d ua sz a off => some (.iform (plainWord x 0x83 d ua sz a off))
  | .lds x d ua sz a off => some (.iform (plainWord x 0x84 d ua sz a off))
  | .sts x d ua sz a off => some (.iform (plainWord x 0x85 d ua sz a off))
  | .ldw x d ua sz a off => some (.iform (plainWord x 0x86 d ua sz a off))
  | .stw x d ua sz a off => some (.iform (plainWord x 0x87 d ua sz a off))
  | .ldt x d ua sz a off => some (.iform (plainWord x 0x88 d ua sz a off))
  | .stt x d ua sz a off => some (.iform (plainWord x 0x89 d ua sz a off))
  | .ldx x d ua sz a off => some (.iform (plainWord x 0x9C d ua sz a off))
  | .stx x d ua sz a off => some (.iform (plainWord x 0x9D d ua sz a off))
  | .orderedLoad x g d a b => some (.base (x.access 0x8A g d a b))
  | .orderedStore x g d a b => some (.base (x.access 0x8B g d a b))
  | .atomAdd x g d a b => some (.base (x.access 0x8C g d a b))
  | .atomSub x g d a b => some (.base (x.access 0x8D g d a b))
  | .atomMin x g d a b => some (.base (x.access 0x8E g d a b))
  | .atomMax x g d a b => some (.base (x.access 0x8F g d a b))
  | .atomUmin x g d a b => some (.base (x.access 0x90 g d a b))
  | .atomUmax x g d a b => some (.base (x.access 0x91 g d a b))
  | .atomAnd x g d a b => some (.base (x.access 0x92 g d a b))
  | .atomOr x g d a b => some (.base (x.access 0x93 g d a b))
  | .atomXor x g d a b => some (.base (x.access 0x94 g d a b))
  | .atomExch x g d a b => some (.base (x.access 0x95 g d a b))
  | .atomCas x g d a b => some (.base (x.access 0x96 g d a b))
  | .atomFadd x g d a b => some (.base (x.access 0x97 g d a b))
  | .fence x sc => some (.base ((x.base 0x98).setF ((3 : BitVec 2) ++ sc.code ++ (0 : BitVec 1))))
  | .ldd x sp hdr f d a b =>
    some (.base { ((x.dst 0x99 d).setA a).setB b with
      c := (0 : BitVec 1) ++ bit1 sp ++ (0 : BitVec 2) ++ bit1 hdr ++ (0 : BitVec 1) ++ f.code, cm := 3 })
  | .std x sp f d a b =>
    some (.base { ((x.base 0x9A).setA a).setB b with d := d, c := (0 : BitVec 1) ++ bit1 sp ++ (0 : BitVec 1) ++ f, cm := 3 })
  | .cctlPrefetch x a b => some (.base (((x.base 0x9B).setA a).setB b))
  | .cctlClean x a b => some (.base ((((x.base 0x9B).setA a).setB b).setF 1))
  | .cctlEvict x a b => some (.base ((((x.base 0x9B).setA a).setB b).setF 2))
  | .cctlDiscard x a b => some (.base ((((x.base 0x9B).setA a).setB b).setF 3))
  | .barr x c a b => some (.base (x.bar 0xA0 c a b))
  | .barw x c a b => some (.base (x.bar 0xA1 c a b))
  | .barrw x c a b => some (.base (x.bar 0xA2 c a b))
  | .swwait x c a b => some (.base (x.bar 0xA3 c a b))
  | .cinc x a b => some (.base (((x.base 0xA4).setA a).setB b))
  | .crd x d a => some (.base { (x.base 0xA5).setA a with d := d })
  | .tqpush x d a b n =>
    some (.base { x.base 0xA6 with d := d, a := a, am := 2, b := b, bm := if n = 0 then 0 else 2, c := n, cm := 3 })
  | .tqpop x d a => some (.base { (x.base 0xA7).setA a with d := d })
  | .fork x d a b => some (.base { (x.dst 0xA8 d).setA a with b := b, bm := 2 })
  | .joinc x a b => some (.base (((x.base 0xA9).setA a).setB b))
  | .gbar x sc => some (.base { x.base 0xAA with c := (0 : BitVec 5) ++ sc.code, cm := 3 })
  | .jsub x a => some (.base { x.base 0xB0 with a := a, am := 2 })
  | .jwait x m => some (.base { x.base 0xB1 with a := m, am := 3 })
  | .jchk x d s => some (.base { x.base 0xB2 with d := d, a := s, am := 3 })
  | .jcan x m => some (.base { x.base 0xB3 with a := m, am := 3 })
  | .mxq x d a => some (.base { (x.base 0xC0).setA a with d := d })
  | .mxrunResume x => some (.base { x.base 0xC1 with a := 0, am := 3 })
  | .mxrunSkip x => some (.base { x.base 0xC1 with a := 1, am := 3 })
  | .mxrunAbort x => some (.base { x.base 0xC1 with a := 2, am := 3 })
  | .mxcfg x a e => some (.base { x.base 0xC2 with a := a, am := 2, b := e, bm := 3 })
  | .mxcb x a sp j => some (.base { x.base 0xC3 with a := a, am := 2, b := (0 : BitVec 4) ++ bit1 sp ++ j, bm := 3 })
  | .mxwait x d a => some (.base { (x.base 0xC4).setA a with d := d })
  | .mapbind x h a sp => some (.base { x.base 0xC5 with d := n2 h, a := a, am := 2, b := if sp then 1 else 0, bm := 3 })
  | .mapld x h a sp => some (.base { x.base 0xC6 with d := n2 h, a := a, am := 2, b := if sp then 1 else 0, bm := 3 })
  | .mapst x h a sp => some (.base { x.base 0xC7 with d := n2 h, a := a, am := 2, b := if sp then 1 else 0, bm := 3 })
  | .maprel x h => some (.base { x.base 0xC8 with d := n2 h })
  | .mapinfo x d h => some (.base { x.base 0xC9 with d := d, a := n2 h, am := 3 })
  | .srchbeg x u off => some (.base { (x.base 0xD0).setOff off with d := u })
  | .srchend x => some (.base (x.base 0xD1))
  | .trye x d a b => some (.base (((x.dst 0xD2 d).setA a).setB b))
  | .fail x => some (.base (x.base 0xD3))
  | .cut x a => some (.base ((x.base 0xD4).setA a))
  | .cpmark x d => some (.base (x.dst 0xD5 d))
  | .cpchk x d => some (.base (x.dst 0xD6 d))
  | .trst x b64 d a b => some (.base ((((x.dst 0xD7 d).setA a).setB b).setF (f0F b64)))
  | .steal x d => some (.base (x.dst 0xD8 d))
  | _ => none

/-- The 64-bit word of its fields. -/
def Word64.pack : Word64 → BitVec 64
  | .base g => g.pack
  | .iform g => g.pack

/-- What an instruction of the program carries beside its operands; the illegal instruction carries its own words. -/
def Instr.ctl? (i : Instr) : Option Ctl :=
  match i with
  | .nop x | .bra x _ | .brc x _ _ | .brx x _ | .call x _ _ | .calli x _ _ | .ret x _ | .rcv x _ | .waitj x _ _ _ | .exit x
  | .endGroup x | .trap x _ | .sysc x _ _ _ | .bkpt x | .yield x
  | .iadd x _ _ _ | .isub x _ _ _ | .imul x _ _ _ | .imulh x _ _ _ _ | .imad x _ _ _ _ | .idiv x _ _ _ _ | .irem x _ _ _ _
  | .imin x _ _ _ _ | .imax x _ _ _ _ | .iabs x _ _ | .and x _ _ _ | .or x _ _ _ | .xor x _ _ _ | .shl x _ _ _ | .shr x _ _ _
  | .sra x _ _ _ | .popc x _ _ | .clz x _ _ | .brev x _ _ | .bfe x _ _ _ | .bfi x _ _ _ _ | .icmp x _ _ _ _ _ | .sel x _ _ _ _
  | .mov x _ _ | .movi x _ _ | .lea x _ _ _ _ | .iadd64 x _ _ _ | .setix x _ | .bsel x _ _ _ _ | .ishf x _ _ _ _
  | .imads x _ _ _ _ | .imul64 x _ _ _
  | .kadd x _ _ _ | .ksub x _ _ _ | .kmul x _ _ _ | .kand x _ _ _ | .kor x _ _ _ | .kxor x _ _ _ | .kshl x _ _ _
  | .kshr x _ _ _ | .kmov x _ _ | .kmovi x _ _ | .kcmp x _ _ _ _ | .rdsr x _ _ | .wrsr x _ _ | .vtok x _ _ _ | .mmov x _ _
  | .kld x _ _ _ _
  | .fadd x _ _ _ | .fsub x _ _ _ | .fmul x _ _ _ | .ffma x _ _ _ _ | .fdiv x _ _ _ | .fmin x _ _ _ | .fmax x _ _ _
  | .fcmp x _ _ _ _ _ | .fclass x _ _ | .fscale x _ _ _ | .frnd x _ _ | .hadd2 x _ _ _ | .hmul2 x _ _ _ | .hfma2 x _ _ _ _
  | .hmnx2 x _ _ _ _ | .hcmp2 x _ _ _ _ _ | .badd2 x _ _ _ | .bmul2 x _ _ _ | .bfma2 x _ _ _ _ | .fdot2 x _ _ _ _
  | .cvt x _ _ _ _ | .cvtp x _ _ _ _ _ _ | .cvti x _ _ _ _ | .cvtf x _ _ _ _ | .fabs x _ _ _
  | .fexp x _ _ | .fexp2 x _ _ | .flog2 x _ _ | .frcp x _ _ | .frsq x _ _ | .fsqrt x _ _ | .fsin x _ _ | .fcos x _ _
  | .ftanh x _ _ | .fsig x _ _ | .actld x _ _ _ | .actev x _ _ _ | .actinfo x _ _
  | .shfl x _ _ _ _ _ | .poll x _ _ _ | .matchLanes x _ _ | .raddf x _ _ | .rmaxf x _ _ | .rminf x _ _ | .rint x _ _ _
  | .scanf x _ _ _ _ | .scani x _ _ _ _ | .segf x _ _ _ _ | .segi x _ _ _ _ | .bcast x _ _ _ | .shflo x _ _ _ _
  | .ld x _ _ _ _ _ | .st x _ _ _ _ _ | .ldl x _ _ _ _ _ | .stl x _ _ _ _ _ | .lds x _ _ _ _ _ | .sts x _ _ _ _ _
  | .ldw x _ _ _ _ _ | .stw x _ _ _ _ _ | .ldt x _ _ _ _ _ | .stt x _ _ _ _ _ | .ldx x _ _ _ _ _ | .stx x _ _ _ _ _
  | .orderedLoad x _ _ _ _ | .orderedStore x _ _ _ _
  | .atomAdd x _ _ _ _ | .atomSub x _ _ _ _ | .atomMin x _ _ _ _ | .atomMax x _ _ _ _ | .atomUmin x _ _ _ _
  | .atomUmax x _ _ _ _ | .atomAnd x _ _ _ _ | .atomOr x _ _ _ _ | .atomXor x _ _ _ _ | .atomExch x _ _ _ _
  | .atomCas x _ _ _ _ | .atomFadd x _ _ _ _
  | .fence x _ | .ldd x _ _ _ _ _ _ | .std x _ _ _ _ _ | .cctlPrefetch x _ _ | .cctlClean x _ _ | .cctlEvict x _ _
  | .cctlDiscard x _ _ | .barr x _ _ _ | .barw x _ _ _ | .barrw x _ _ _ | .swwait x _ _ _ | .cinc x _ _ | .crd x _ _
  | .tqpush x _ _ _ _ | .tqpop x _ _ | .fork x _ _ _ | .joinc x _ _ | .gbar x _
  | .jsub x _ | .jwait x _ | .jchk x _ _ | .jcan x _
  | .mxq x _ _ | .mxrunResume x | .mxrunSkip x | .mxrunAbort x | .mxcfg x _ _ | .mxcb x _ _ _ | .mxwait x _ _
  | .mapbind x _ _ _ | .mapld x _ _ _ | .mapst x _ _ _ | .maprel x _ | .mapinfo x _ _
  | .srchbeg x _ _ | .srchend x | .trye x _ _ _ | .fail x | .cut x _ | .cpmark x _ | .cpchk x _ | .trst x _ _ _ _
  | .steal x _ => some x
  | _ => none

/-- The words of an instruction of the program. -/
def encode (i : Instr) : Option Words :=
  match i with
  | .illegal pw w => some { pw := pw, w := w }
  | _ =>
    match i.word64, i.ctl? with
    | some w, some x => some { pw := x.pfx.map fun p => p.toPWord.pack, w := w.pack }
    | _, _ => none

end Sys2Proof
end

