-- ==== Sys2Proof/Machine/Flags.lean ====
section
/-! DEFINITION. Number formats, exact values, rounding and the floating-point flags (R67 to R73, R230, R233). An exact value is a
signed zero, a signed dyadic number, an infinity or a NaN; a value that is not dyadic stands as a dyadic number that lies strictly
between the same two candidates of every rounding, so that rounding it is rounding the value. -/

namespace Sys2Proof.Machine

/-- Effective rounding modes (R67). -/
inductive RM where
  | rne | rtz | rdn | rup | rna | rto
  deriving DecidableEq, Repr

/-- The mode of a DRM or RM code; 000 and 111 stand for rne (R67). -/
def RM.of (c : Nat) : RM :=
  match c with
  | 2 => .rtz
  | 3 => .rdn
  | 4 => .rup
  | 5 => .rna
  | 6 => .rto
  | _ => .rne

/-- EffRM: the instruction's mode, or the warp's dynamic mode (R67, R86). -/
def effRM (rm : RMode) (drm : Nat) : RM :=
  match rm with
  | .dyn => RM.of drm
  | .rne => .rne
  | .rtz => .rtz
  | .rdn => .rdn
  | .rup => .rup
  | .rna => .rna
  | .rto => .rto

/-- The flags of one instruction: NX, UF, OF, DZ, NV in bits 4 to 0 (R230). -/
abbrev FFlags := BitVec 5

/-- No flag. -/
def flNone : FFlags := 0
/-- Invalid operation. -/
def flNV : FFlags := 0b00001
/-- Division by zero. -/
def flDZ : FFlags := 0b00010
/-- Overflow and inexact. -/
def flOF : FFlags := 0b10100
/-- Underflow. -/
def flUF : FFlags := 0b01000
/-- Inexact. -/
def flNX : FFlags := 0b10000

/-! ### Exact values -/

/-- An exact value (the opening of the formats chapter): `fin s m e` is (−1)^s × m × 2^e, a signed zero when m = 0. -/
inductive XVal where
  | nan
  | inf (s : Bool)
  | fin (s : Bool) (m : Nat) (e : Int)
  deriving DecidableEq, Repr

/-- +0. -/
def XVal.zero (s : Bool := false) : XVal := .fin s 0 0

/-- An integer as an exact value. -/
def XVal.ofInt (i : Int) : XVal := .fin (decide (i < 0)) i.natAbs 0

/-- Whether an exact value is a NaN. -/
def XVal.isNaN : XVal → Bool
  | .nan => true
  | _ => false

/-- Whether an exact value is an infinity. -/
def XVal.isInf : XVal → Bool
  | .inf _ => true
  | _ => false

/-- Whether an exact value is a zero. -/
def XVal.isZero : XVal → Bool
  | .fin _ 0 _ => true
  | _ => false

/-- The sign of an exact value; a NaN counts as positive. -/
def XVal.sign : XVal → Bool
  | .nan => false
  | .inf s => s
  | .fin s _ _ => s

/-- The negated value. -/
def XVal.neg : XVal → XVal
  | .nan => .nan
  | .inf s => .inf (!s)
  | .fin s m e => .fin (!s) m e

/-- The exact product; 0 × ∞ is NaN (R80, R233). -/
def XVal.mul : XVal → XVal → XVal
  | .nan, _ | _, .nan => .nan
  | .inf s, .inf t => .inf (s != t)
  | .inf s, .fin t m _ => if m = 0 then .nan else .inf (s != t)
  | .fin s m _, .inf t => if m = 0 then .nan else .inf (s != t)
  | .fin s m e, .fin t n f => .fin (s != t) (m * n) (e + f)

/-- An exact value times 2^k. -/
def XVal.scale (k : Int) : XVal → XVal
  | .fin s m e => .fin s m (e + k)
  | x => x

/-- Twos-complement numerator of a finite value over 2^e, for e at or below its exponent. -/
def numAt (e : Int) : XVal → Int
  | .fin s m f =>
    let n : Int := (m * 2 ^ (f - e).toNat : Nat)
    if s then -n else n
  | _ => 0

/-- The least exponent of the finite nonzero terms of a list. -/
def minExp (t : List XVal) : Int :=
  (t.foldl (fun (acc : Option Int) x =>
    match x with
    | .fin _ (_ + 1) e =>
      match acc with
      | none => some e
      | some a => some (min a e)
    | _ => acc) none).getD 0

/-- The exact sum of terms that hold no NaN and no infinity, as a numerator over 2^e (R86). -/
def exactSum (t : List XVal) : Int × Int :=
  let e := minExp t
  (t.foldl (fun acc x => acc + numAt e x) 0, e)

/-- What a sum of terms is (R80, R233): NaN when a term is, or when both infinities occur; an infinity; the zero that the terms share or
`zeroSign` gives; or the exact finite sum. The flag tells an invalid sum of infinities. -/
def sumTerms (t : List XVal) (negZero : Bool) : XVal × Bool :=
  if t.any XVal.isNaN then (.nan, false)
  else
    let pos := t.any fun x => x = .inf false
    let neg := t.any fun x => x = .inf true
    if pos && neg then (.nan, true)
    else if pos then (.inf false, false)
    else if neg then (.inf true, false)
    else
      let (n, e) := exactSum t
      if n = 0 then
        if t.all fun x => x.isZero && x.sign then (.zero true, false)
        else if t.all fun x => x.isZero && !x.sign then (.zero false, false)
        else (.zero negZero, false)
      else (.fin (decide (n < 0)) n.natAbs e, false)

/-- Compare two finite or infinite values: whether the first is less. −0 and +0 are equal. -/
def XVal.lt (a b : XVal) : Bool :=
  match a, b with
  | .nan, _ | _, .nan => false
  | .inf s, .inf t => s && !t
  | .inf s, .fin _ _ _ => s
  | .fin _ _ _, .inf t => !t
  | x, y =>
    let e := minExp [x, y]
    decide (numAt e x < numAt e y)

/-- Equal as numbers; a NaN equals nothing. -/
def XVal.eqv (a b : XVal) : Bool :=
  !a.isNaN && !b.isNaN && !(a.lt b) && !(b.lt a)

/-! ### Formats (R69) -/

/-- A floating-point format: width, exponent and fraction bits, bias, and whether the all-ones exponent is special (R69). -/
structure FSpec where
  bits : Nat
  eb : Nat
  fb : Nat
  bias : Nat
  special : Bool
  deriving DecidableEq, Repr

/-- The layout of each format (R69). -/
def FFmt.spec (f : FFmt) : FSpec :=
  match f with
  | .f32 => ⟨32, 8, 23, 127, true⟩
  | .f16 => ⟨16, 5, 10, 15, true⟩
  | .bf16 => ⟨16, 8, 7, 127, true⟩
  | .e4m3 => ⟨8, 4, 3, 7, false⟩
  | .e5m2 => ⟨8, 5, 2, 15, true⟩
  | .e2m1 => ⟨4, 2, 1, 1, false⟩

/-- The exponent field of an encoding. -/
def expField (f : FFmt) (x : Nat) : Nat := x / 2 ^ (FFmt.spec f).fb % 2 ^ (FFmt.spec f).eb
/-- The fraction field of an encoding. -/
def fracField (f : FFmt) (x : Nat) : Nat := x % 2 ^ (FFmt.spec f).fb
/-- The sign bit of an encoding. -/
def signBit (f : FFmt) (x : Nat) : Bool := x / 2 ^ ((FFmt.spec f).bits - 1) % 2 = 1

/-- Whether an encoding is a NaN (R69). -/
def isNaN (f : FFmt) (x : Nat) : Bool :=
  match f with
  | .e4m3 => expField f x = 15 && fracField f x = 7
  | .e2m1 => false
  | _ => expField f x = 2 ^ (FFmt.spec f).eb - 1 && fracField f x ≠ 0

/-- The quiet bit of a format's NaN. -/
def quietBit (f : FFmt) : Nat := 2 ^ ((FFmt.spec f).fb - 1)

/-- Whether an encoding is a signalling NaN (R70); an E4M3 NaN never is. -/
def isSNaN (f : FFmt) (x : Nat) : Bool :=
  isNaN f x && f ≠ .e4m3 && x / quietBit f % 2 = 0

/-- Decode: the exact value of an encoding (R69). -/
def decodeF (f : FFmt) (x : Nat) : XVal :=
  let sp := FFmt.spec f
  let e := expField f x
  let m := fracField f x
  let s := signBit f x
  if isNaN f x then .nan
  else if sp.special && e = 2 ^ sp.eb - 1 then .inf s
  else if e = 0 then .fin s m (1 - (sp.bias : Int) - sp.fb)
  else .fin s (2 ^ sp.fb + m) ((e : Int) - sp.bias - sp.fb)

/-- The encoding of the largest finite magnitude (R69). -/
def maxBits (f : FFmt) : Nat :=
  match f with
  | .e4m3 => 0x7E
  | .e2m1 => 0x7
  | _ => (2 ^ (FFmt.spec f).eb - 1) * 2 ^ (FFmt.spec f).fb - 1

/-- The encoding of +∞; for E4M3 its NaN (R68). -/
def infBits (f : FFmt) : Nat :=
  match f with
  | .e4m3 => 0x7F
  | .e2m1 => 0x7
  | _ => (2 ^ (FFmt.spec f).eb - 1) * 2 ^ (FFmt.spec f).fb

/-- The default NaN (R70); E2M1 has none, and +0 stands for it. -/
def defaultNaN (f : FFmt) : Nat :=
  match f with
  | .e4m3 => 0x7F
  | .e2m1 => 0
  | _ => (2 ^ (FFmt.spec f).eb - 1) * 2 ^ (FFmt.spec f).fb + quietBit f

/-- An encoding with a sign. -/
def withSign (f : FFmt) (s : Bool) (x : Nat) : Nat := if s then x + 2 ^ ((FFmt.spec f).bits - 1) else x

/-! ### Rounding (R68) -/

/-- Whether the larger of two neighbouring magnitudes lo and lo + 1 is chosen, with `rem` of `2^sh` above lo (R68). -/
def roundsUp (rm : RM) (neg : Bool) (lo rem half : Nat) : Bool :=
  if rem = 0 then false
  else
    match rm with
    | .rne => half < rem || (rem = half && lo % 2 = 1)
    | .rna => half ≤ rem
    | .rtz => false
    | .rdn => neg
    | .rup => !neg
    | .rto => lo % 2 = 0

/-- The chosen significand over 2^q and whether it is exact. -/
def roundAt (rm : RM) (neg : Bool) (m : Nat) (e q : Int) : Nat × Bool :=
  if q ≤ e then (m * 2 ^ (e - q).toNat, true)
  else
    let sh := (q - e).toNat
    let lo := m / 2 ^ sh
    let rem := m % 2 ^ sh
    (if roundsUp rm neg lo rem (2 ^ (sh - 1)) then lo + 1 else lo, rem = 0)

/-- What an overflow gives (R68). -/
def overflowBits (f : FFmt) (rm : RM) (sat neg : Bool) : Nat :=
  let big := withSign f neg (maxBits f)
  let inf := withSign f neg (infBits f)
  if sat || f = .e2m1 then big
  else
    match rm with
    | .rto | .rtz => big
    | .rne | .rna => inf
    | .rdn => if neg then inf else big
    | .rup => if neg then big else inf

/-- Rounding a nonzero finite value into a format: encoding and flags (R68). -/
def roundFin (f : FFmt) (rm : RM) (sat neg : Bool) (m : Nat) (e : Int) : Nat × FFlags :=
  let sp := FFmt.spec f
  let lead : Int := (Nat.log2 m : Int) + e
  let qmin : Int := 1 - (sp.bias : Int) - sp.fb
  let q := max (lead - sp.fb) qmin
  let (sig, exact) := roundAt rm neg m e q
  let (sig, q) := if sig = 2 ^ (sp.fb + 1) then (2 ^ sp.fb, q + 1) else (sig, q)
  let enc : Nat := if sig < 2 ^ sp.fb then sig else (q - qmin + 1).toNat * 2 ^ sp.fb + (sig - 2 ^ sp.fb)
  if maxBits f < enc then (overflowBits f rm sat neg, flOF)
  else
    let tiny : Bool := lead < 1 - (sp.bias : Int)
    (withSign f neg enc, if exact then flNone else if tiny then flNX ||| flUF else flNX)

/-- Round: an exact value into a format under a mode and a saturation flag (R68). A NaN gives the default NaN; its own rules are R70's. -/
def roundX (f : FFmt) (rm : RM) (sat : Bool) (x : XVal) : Nat × FFlags :=
  match x with
  | .nan => (defaultNaN f, flNone)
  | .inf s =>
    if sat || f = .e2m1 then (withSign f s (maxBits f), flNX)
    else if f = .e4m3 then (withSign f s 0x7F, flNV)
    else (withSign f s (infBits f), flNone)
  | .fin s m e => if m = 0 then (withSign f s 0, flNone) else roundFin f rm sat s m e

/-- The integer chosen from a finite value under a mode (R72, R232), with whether it is exact. -/
def roundInt (rm : RM) (s : Bool) (m : Nat) (e : Int) : Int × Bool :=
  let (n, exact) := roundAt rm s m e 0
  (if s then -(n : Int) else n, exact)

/-! ### NaN results (R70, R85) -/

/-- A NaN of a format made quiet. -/
def quiet (f : FFmt) (x : Nat) : Nat :=
  if isSNaN f x then x + quietBit f else x

/-- ConvertNaN: a NaN of one format converted into another (R70), with NV for a signalling one and for E2M1. -/
def convertNaN (src dst : FFmt) (cplv : Nat) (x : Nat) : Nat × FFlags :=
  let nv := if isSNaN src x || dst = .e2m1 then flNV else flNone
  let bits :=
    match dst with
    | .e2m1 => 0
    | .e4m3 => withSign dst (signBit src x) 0x7F
    | _ =>
      let sf := (FFmt.spec src).fb
      let df := (FFmt.spec dst).fb
      let frac := fracField src x
      let fr := if sf ≤ df then frac * 2 ^ (df - sf) else frac / 2 ^ (sf - df)
      let q := quietBit dst
      let fr := if fr / q % 2 = 1 then fr else fr + q
      withSign dst (signBit src x) ((2 ^ (FFmt.spec dst).eb - 1) * 2 ^ df + fr)
  (if cplv = 1 then defaultNaN dst else bits, nv)

/-- NaNResult: the result for operands of which at least one is a NaN, each an encoding in its own format, in the order given
(R70, R233); NV for a signalling one. -/
def nanResult (dst : FFmt) (cplv : Nat) (ops : List (FFmt × Nat)) : Nat × FFlags :=
  let nv := if ops.any fun p => isSNaN p.1 p.2 then flNV else flNone
  match ops.find? fun p => isNaN p.1 p.2 with
  | some (f, x) =>
    if cplv = 1 then (defaultNaN dst, nv)
    else if f = dst then (quiet f x, nv)
    else ((convertNaN f dst cplv x).1, nv)
  | none => (defaultNaN dst, nv)

/-! ### Arithmetic on encodings -/

/-- A floating-point result that is not a NaN operand's: an exact value, or an invalid operation (R233). -/
def finishX (f : FFmt) (rm : RM) (sat : Bool) (x : XVal) (invalid : Bool) : Nat × FFlags :=
  if invalid || x.isNaN then (defaultNaN f, flNV) else roundX f rm sat x

/-- Flush16 of an operand (R85): an FP16 subnormal reads as zero of its sign at level 1. -/
def flushIn (f : FFmt) (cplv : Nat) (x : Nat) : Nat :=
  if cplv = 1 && f = .f16 && expField f x = 0 then withSign f (signBit f x) 0 else x

/-- Flush16 of a result (R85): an FP16 result below 2^−14 after rounding becomes zero of its sign, with UF and NX. -/
def flushOut (f : FFmt) (cplv : Nat) (r : Nat × FFlags) : Nat × FFlags :=
  if cplv = 1 && f = .f16 && expField f r.1 = 0 && fracField f r.1 ≠ 0 then
    (withSign f (signBit f r.1) 0, r.2 ||| flUF ||| flNX)
  else r

/-- Sum and product forms: the exact terms of an operation on encodings, rounded once (R232, R233, R236). `ops` are the operands in the
order that decides a NaN result; `terms` are the exact addends. 0 × ∞ makes a NaN term and so an invalid operation, and infinite addends
of both signs are one even where an operand is a NaN. -/
def sumOp (f : FFmt) (cplv : Nat) (rm : RM) (sat : Bool) (ops : List (FFmt × Nat)) (terms : List XVal) : Nat × FFlags :=
  let anyNaN := ops.any fun p => isNaN p.1 p.2
  let opposed := terms.contains (.inf false) && terms.contains (.inf true)
  if anyNaN then
    let r := nanResult f cplv ops
    (r.1, if opposed then r.2 ||| flNV else r.2)
  else
    let (x, bad) := sumTerms terms (rm = .rdn)
    finishX f rm sat x (bad || x.isNaN)

/-- fadd on encodings of one format (R232, R236). -/
def addF (f : FFmt) (cplv : Nat) (rm : RM) (sat : Bool) (a b : Nat) : Nat × FFlags :=
  let a := flushIn f cplv a
  let b := flushIn f cplv b
  flushOut f cplv (sumOp f cplv rm sat [(f, a), (f, b)] [decodeF f a, decodeF f b])

/-- fsub: a − b; a NaN operand is returned as it stands (R232, R233). -/
def subF (f : FFmt) (cplv : Nat) (rm : RM) (sat : Bool) (a b : Nat) : Nat × FFlags :=
  sumOp f cplv rm sat [(f, a), (f, b)] [decodeF f a, (decodeF f b).neg]

/-- fmul (R232, R236). -/
def mulF (f : FFmt) (cplv : Nat) (rm : RM) (sat : Bool) (a b : Nat) : Nat × FFlags :=
  let a := flushIn f cplv a
  let b := flushIn f cplv b
  if isNaN f a || isNaN f b then nanResult f cplv [(f, a), (f, b)]
  else flushOut f cplv (finishX f rm sat ((decodeF f a).mul (decodeF f b)) false)

/-- ffma: a × b + c with one rounding; 0 × ∞ raises NV even when c is a quiet NaN (R232, R233). -/
def fmaF (f : FFmt) (cplv : Nat) (rm : RM) (sat : Bool) (a b c : Nat) : Nat × FFlags :=
  let a := flushIn f cplv a
  let b := flushIn f cplv b
  let c := flushIn f cplv c
  let xa := decodeF f a
  let xb := decodeF f b
  let inv := !xa.isNaN && !xb.isNaN && (xa.mul xb).isNaN
  let r := sumOp f cplv rm sat [(f, a), (f, b), (f, c)] [xa.mul xb, decodeF f c]
  flushOut f cplv (r.1, if inv then r.2 ||| flNV else r.2)

/-- A positive quotient n / d as a dyadic number with a sticky last bit. -/
def quotientX (s : Bool) (n d : Nat) (e : Int) : XVal :=
  let k := 256 + Nat.log2 d
  let q := n * 2 ^ k / d
  let r := n * 2 ^ k % d
  .fin s (2 * q + (if r = 0 then 0 else 1)) (e - k - 1)

/-- fdiv (R232, R233). -/
def divF (cplv : Nat) (rm : RM) (sat : Bool) (a b : Nat) : Nat × FFlags :=
  if isNaN .f32 a || isNaN .f32 b then nanResult .f32 cplv [(.f32, a), (.f32, b)]
  else
    let s := signBit .f32 a != signBit .f32 b
    match decodeF .f32 a, decodeF .f32 b with
    | .inf _, .inf _ => (defaultNaN .f32, flNV)
    | .inf _, _ => roundX .f32 rm sat (.inf s)
    | _, .inf _ => (withSign .f32 s 0, flNone)
    | .fin _ m e, .fin _ n f =>
      if n = 0 then
        if m = 0 then (defaultNaN .f32, flNV)
        else
          let r := roundX .f32 rm sat (.inf s)
          (r.1, r.2 ||| flDZ)
      else if m = 0 then (withSign .f32 s 0, flNone)
      else roundX .f32 rm sat (quotientX s m n (e - f))
    | _, _ => (defaultNaN .f32, flNV)

/-- The order of fmin and fmax: −0 below +0 (R234). -/
def totalLt (f : FFmt) (a b : Nat) : Bool :=
  let x := decodeF f a
  let y := decodeF f b
  if x.isZero && y.isZero then signBit f a && !signBit f b else x.lt y

/-- fmin or fmax on encodings (R234, R236). -/
def minmaxF (f : FFmt) (cplv : Nat) (mx : Bool) (a b : Nat) : Nat × FFlags :=
  let a := flushIn f cplv a
  let b := flushIn f cplv b
  let nv := if isSNaN f a || isSNaN f b then flNV else flNone
  if isNaN f a && isNaN f b then nanResult f cplv [(f, a), (f, b)]
  else if isNaN f a then (b, nv)
  else if isNaN f b then (a, nv)
  else if mx then (if totalLt f a b then b else a, flNone)
  else (if totalLt f b a then b else a, flNone)

/-- A floating-point condition on encodings, with NV (R196, R234). -/
def condF (f : FFmt) (cplv : Nat) (cc : FCond) (a b : Nat) : Bool × FFlags :=
  let a := flushIn f cplv a
  let b := flushIn f cplv b
  let un := isNaN f a || isNaN f b
  let sn := isSNaN f a || isSNaN f b
  let x := decodeF f a
  let y := decodeF f b
  let quietNV := if sn then flNV else flNone
  let loudNV := if un then flNV else flNone
  match cc with
  | .eq => (!un && x.eqv y, quietNV)
  | .ne => (un || !x.eqv y, quietNV)
  | .lt => (!un && x.lt y, loudNV)
  | .le => (!un && !y.lt x, loudNV)
  | .gt => (!un && y.lt x, loudNV)
  | .ge => (!un && !x.lt y, loudNV)
  | .uno => (un, quietNV)
  | .ord => (!un, quietNV)

/-- fclass (R235). -/
def classF (x : Nat) : Nat :=
  let s := signBit .f32 x
  let e := expField .f32 x
  let m := fracField .f32 x
  if isNaN .f32 x then (if isSNaN .f32 x then 2 ^ 8 else 2 ^ 9)
  else if e = 255 then (if s then 2 ^ 0 else 2 ^ 7)
  else if e ≠ 0 then (if s then 2 ^ 1 else 2 ^ 6)
  else if m ≠ 0 then (if s then 2 ^ 2 else 2 ^ 5)
  else if s then 2 ^ 3 else 2 ^ 4

/-- fscale: a × 2^s(b) (R232). A factor outside ±1,200 rounds as one at ±1,200. -/
def scaleF (cplv : Nat) (rm : RM) (sat : Bool) (a : Nat) (k : Int) : Nat × FFlags :=
  if isNaN .f32 a then nanResult .f32 cplv [(.f32, a)]
  else roundX .f32 rm sat ((decodeF .f32 a).scale (max (-1200) (min 1200 k)))

/-- frnd: to an integer in floating point; a zero result keeps the sign, and no flag but NV (R232). -/
def frndF (cplv : Nat) (rm : RM) (a : Nat) : Nat × FFlags :=
  match decodeF .f32 a with
  | .nan => nanResult .f32 cplv [(.f32, a)]
  | .inf _ => (a, flNone)
  | .fin s m e =>
    let (n, _) := roundInt rm s m e
    if n = 0 then (withSign .f32 s 0, flNone) else ((roundX .f32 .rtz false (XVal.ofInt n)).1, flNone)

/-! ### Conversions (R237, R239) -/

/-- The mode of a format conversion: at level 1 rne breaks ties away from zero (R85). -/
def convRM (cplv : Nat) (rm : RM) : RM := if cplv = 1 && rm = .rne then .rna else rm

/-- One value from a float format into another (R237). -/
def cvtFF (dst src : FFmt) (cplv : Nat) (rm : RM) (sat : Bool) (a : Nat) : Nat × FFlags :=
  let a := flushIn src cplv (a % 2 ^ (FFmt.spec src).bits)
  if isNaN src a then convertNaN src dst cplv a
  else
    let r := roundX dst (convRM cplv rm) sat (decodeF src a)
    let r := if cplv = 1 && isNaN dst r.1 then (defaultNaN dst, r.2) else r
    flushOut dst cplv r

/-- Least and greatest value of an integer format (R197). -/
def IFmt.range (f : IFmt) : Int × Int :=
  match f with
  | .s32 => (-2147483648, 2147483647)
  | .u32 => (0, 4294967295)
  | .s16 => (-32768, 32767)
  | .u16 => (0, 65535)
  | .s8 => (-128, 127)
  | .u8 => (0, 255)
  | .s4 => (-8, 7)

/-- Width of an integer format. -/
def IFmt.bits (f : IFmt) : Nat :=
  match f with
  | .s32 | .u32 => 32
  | .s16 | .u16 => 16
  | .s8 | .u8 => 8
  | .s4 => 4

/-- Whether an integer format is signed. -/
def IFmt.signed (f : IFmt) : Bool :=
  match f with
  | .s32 | .s16 | .s8 | .s4 => true
  | _ => false

/-- A float value into an integer format (R72): the value, and NV or NX. -/
def floatToInt (f : IFmt) (rm : RM) (x : XVal) : Int × FFlags :=
  let (lo, hi) := IFmt.range f
  match x with
  | .nan => (0, flNV)
  | .inf s => (if s then lo else hi, flNV)
  | .fin s m e =>
    let (n, exact) := roundInt rm s m e
    if n < lo then (lo, flNV)
    else if hi < n then (hi, flNV)
    else (n, if exact then flNone else flNX)

/-- cvti: a float encoding into an integer, written sign- or zero-extended (R239). -/
def cvtFI (dst : IFmt) (src : FFmt) (cplv : Nat) (rm : RM) (a : Nat) : Nat × FFlags :=
  let a := flushIn src cplv (a % 2 ^ (FFmt.spec src).bits)
  let (n, fl) := floatToInt dst (convRM cplv rm) (decodeF src a)
  ((BitVec.ofInt 32 n).toNat, fl)

/-- The value of an integer source's low bits (R239). -/
def intValue (f : IFmt) (a : Nat) : Int :=
  let w := IFmt.bits f
  let n := a % 2 ^ w
  if IFmt.signed f && 2 ^ (w - 1) ≤ n then (n : Int) - 2 ^ w else n

/-- cvtf: an integer into a float format (R239). -/
def cvtIF (dst : FFmt) (src : IFmt) (cplv : Nat) (rm : RM) (sat : Bool) (a : Nat) : Nat × FFlags :=
  let r := roundX dst (convRM cplv rm) sat (XVal.ofInt (intValue src a))
  flushOut dst cplv (if cplv = 1 && isNaN dst r.1 then (defaultNaN dst, r.2) else r)

/-- An immediate feeding a floating-point operand (R184). -/
def immF (f : FFmt) (i : Int) : Nat := (roundX f .rne true (XVal.ofInt i)).1

end Sys2Proof.Machine
end

