-- ==== Sys2Proof/Config.lean ====
section
/-! DEFINITION. What one SX-880 fixes and the values its manual leaves open. A free value has no body: nothing can evaluate it, so
a statement about it holds whatever it is. -/

namespace Sys2Proof.Config

/-- What a register of the same owner holds at a fresh start (R42 does not specify which leftover value appears): data and poison of
the `n`-th leftover read (log entry 5). -/
opaque leftover : Nat → W64
/-- Poison of the `n`-th leftover (log entry 5). -/
opaque leftoverPoison : Nat → Bool
/-- A byte of a sector that was stored under another key (R34, R143): ciphertext decrypted under the wrong key (log entry 6). It depends on
the two keys, the sector, the 64 bytes that were stored, and the byte's place. -/
opaque wrongKeyByte : Nat → Nat → Nat → List Byte → Nat → Byte
/-- The `n`-th value for which the manual states neither a value nor a rule (log entries 2 and on name the places). -/
opaque openValue : Nat → W64
/-- SHA-256 of a byte string (R394); the manual names the algorithm and does not give it (log entry 7). -/
opaque sha256 : List Byte → BitVec 256
/-- ECDSA P-256 verification of a digest under a public key X, Y with r and s (R394, R398), log entry 7. -/
opaque ecdsaVerify : List Byte → BitVec 256 → List Byte → List Byte → Bool
/-- The ECDSA P-256 signature by the device's identity key (R398), log entry 7. -/
opaque identitySign : List Byte → List Byte
/-- What an image of firmware says of itself (R398): version, security version, whether it is Galaotte's and matches its measurement.
Its layout is not in the manual (log entry 7). -/
opaque fwImage : List Byte → Nat × Nat × Bool
/-- The body of an SPDM 1.3 answer whose bytes the manual leaves to that standard (R398), log entry 7. -/
opaque spdmBody : Nat → List Byte
/-- The fused minimum security version (R398), log entry 7. -/
opaque fusedMinimum : Nat
/-- Whether the compressed encoding of a line's sectors is smaller than the raw one (R63); the code is not given (log entry 8). -/
opaque compresses : List Byte → Bool
/-- This device's number in its pod (R133). -/
opaque device : Nat
/-- The peers' and the host's own permission for a key value (R35): the remote map decides. -/
opaque peerGrants : Nat → Nat → Bool

end Sys2Proof.Config
end

