-- ==== Sys2Proof/Machine/Sparse.lean ====
section
/-! DEFINITION. Sparse tables: lists of (key, value) pairs in one canonical form, keys strictly rising and no entry equal to what an
unlisted key reads as. Memory and every other array that is mostly empty is held so. -/

namespace Sys2Proof.Machine

/-- What a table holds at a key; `d` where the key is not listed. -/
def get {α : Type} (d : α) (t : List (Nat × α)) (k : Nat) : α :=
  match t with
  | [] => d
  | (i, x) :: r => if i = k then x else get d r k

/-- A table with one more entry in its place. -/
def insertAt {α : Type} (t : List (Nat × α)) (k : Nat) (v : α) : List (Nat × α) :=
  match t with
  | [] => [(k, v)]
  | (i, x) :: r => if k < i then (k, v) :: (i, x) :: r else (i, x) :: insertAt r k v

/-- A table without a key. -/
def without {α : Type} (t : List (Nat × α)) (k : Nat) : List (Nat × α) := t.filter fun p => p.1 ≠ k

/-- A table after writing a key: the default is not listed. -/
def put {α : Type} [DecidableEq α] (d : α) (t : List (Nat × α)) (k : Nat) (v : α) : List (Nat × α) :=
  if v = d then without t k else insertAt (without t k) k v

/-- Keys strictly rising from a bound on. -/
def risingFrom {α : Type} (b : Nat) (t : List (Nat × α)) : Bool :=
  match t with
  | [] => true
  | (i, _) :: r => b ≤ i && risingFrom (i + 1) r

/-- The canonical form of a table. -/
def tableWf {α : Type} [DecidableEq α] (d : α) (t : List (Nat × α)) : Bool :=
  risingFrom 0 t && t.all fun p => p.2 ≠ d

/-- What a byte of memory or of an SRAM that nothing has written reads as (log entry 1). -/
abbrev unwritten : Byte := 0

/-- The bytes from an address on. -/
def getBytes (t : List (Nat × Byte)) (a n : Nat) : List Byte := (List.range n).map fun i => get unwritten t (a + i)

/-- A table of bytes after writing bytes from an address on. -/
def putBytes (t : List (Nat × Byte)) (a : Nat) (bs : List Byte) : List (Nat × Byte) :=
  match bs with
  | [] => t
  | b :: r => putBytes (put unwritten t a b) (a + 1) r

/-- A little-endian number of bytes (R8). -/
def ofBytes (bs : List Byte) : Nat :=
  match bs with
  | [] => 0
  | b :: r => b.toNat + 256 * ofBytes r

/-- Insert into a set of numbers held in rising order. -/
def setInsert (t : List Nat) (k : Nat) : List Nat :=
  match t with
  | [] => [k]
  | i :: r => if k = i then i :: r else if k < i then k :: i :: r else i :: setInsert r k

/-- Remove from a set of numbers. -/
def setErase (t : List Nat) (k : Nat) : List Nat := t.filter (· ≠ k)

/-- A list with one entry replaced; unchanged when there is no such entry. -/
def modifyAt {α : Type} (t : List α) (k : Nat) (f : α → α) : List α :=
  match t, k with
  | [], _ => []
  | x :: r, 0 => f x :: r
  | x :: r, k + 1 => x :: modifyAt r k f

/-- The entry of a list, or a default. -/
def at_ {α : Type} (d : α) (t : List α) (k : Nat) : α := t.getD k d

/-- A bit of a lane mask. -/
def lane (m : LaneMask) (l : Nat) : Bool := m.getLsbD l

/-- The mask whose bit l is given by a predicate. -/
def maskOf (p : Nat → Bool) : LaneMask :=
  lanes.foldl (fun acc l => if p l then acc ||| BitVec.ofNat 32 (2 ^ l) else acc) 0

/-- The lanes of a mask, in ascending order. -/
def lanesOf (m : LaneMask) : List Nat := lanes.filter fun l => m.getLsbD l

/-- The lowest lane of a mask. -/
def lowest (m : LaneMask) : Option Nat := (lanesOf m).head?

/-- The number of lanes of a mask. -/
def popMask (m : LaneMask) : Nat := (lanesOf m).length

/-- Bits [hi:lo] of a number (R8). -/
def field (x hi lo : Nat) : Nat := x / 2 ^ lo % 2 ^ (hi + 1 - lo)

/-- A multiple of n at or above x. -/
def roundUp (x n : Nat) : Nat := (x + n - 1) / n * n

/-- A number read as two's complement of a width. -/
def signed (w x : Nat) : Int := (BitVec.ofNat w x).toInt

end Sys2Proof.Machine
end

