-- ==== Sys2Proof/Machine/State.lean ====
section
/-! DEFINITION. Everything the manual gives the device, as plain data, and the state right after power comes on. Lists stand for the
hardware's arrays and tables; a `List (Nat × α)` is a sparse table whose unlisted entries read as one stated default. -/

namespace Sys2Proof.Machine

/-! ### Registers, splits and warps -/

/-- One lane of a vector register: 32 data bits and a poison bit (R43). -/
structure LaneWord where
  data : W32 := 0
  poison : Bool := false
  deriving DecidableEq, Repr

/-- One physical register row: 32 lane words and the row's owner tag (R37); no owner reads as zero (R38). -/
structure Row where
  owner : Option Nat := none
  lanes : List LaneWord := List.replicate 32 {}
  deriving DecidableEq, Repr

/-- A uniform register with its poison bit (R212). -/
structure KReg where
  data : W64 := 0
  poison : Bool := false
  deriving DecidableEq, Repr

/-- A live split (R147); `none` for NONE. -/
structure Split where
  pc : W64
  mask : LaneMask
  ra : Option W64 := none
  pend : Option W64 := none
  deriving DecidableEq, Repr

/-- An entry of the reconvergence stack (R151): `join = false` is a PATH entry. `pend` is the copy of PEND that a path made by a search
instruction keeps (R310). -/
structure StackEntry where
  join : Bool
  pc : W64
  mask : LaneMask
  arrived : LaneMask
  ra : Option W64
  nest : Nat
  pend : Option W64 := none
  deriving DecidableEq, Repr

/-- The trap-presentation registers sr.trapcause to sr.trapimm (R204, R215). -/
structure TrapRegs where
  cause : W64 := 0
  pc : W64 := 0
  op : W64 := 0
  d : W64 := 0
  a : W64 := 0
  b : W64 := 0
  c : W64 := 0
  e : W64 := 0
  imm : W64 := 0
  deriving DecidableEq, Repr

/-- The handler save of a warp (R346, R355). -/
structure HSave where
  ra : Option W64 := none
  pend : Option W64 := none
  mask : LaneMask := 0
  split : Nat := 0
  deriving DecidableEq, Repr

/-- How an access reaches memory: key slot (none for a physical access of a privileged agent), described, compressible, cache policy,
poison on read (R26, R35), the local KEY and the partition that travel to a peer (R35); `ord` marks the traffic of an ordered job (R138). -/
structure Attr where
  key : Option Nat := none
  desc : Bool := false
  comp : Bool := false
  cp : Nat := 0
  psn : Bool := false
  ord : Bool := false
  lkey : Nat := 0
  part : Nat := 0
  deriving DecidableEq, Repr

/-- What a load that waits for the host or a peer writes when its data comes (R337): its size, the length of the instruction, for each active lane
its first register and the bytes it reads, and the registers that a zeroing mask clears. -/
structure LoadPlan where
  size : Size
  len : Nat
  lanes : List (Nat × Nat × List (Nat × Attr))
  zero : List (Nat × Nat)
  deriving DecidableEq, Repr

/-- A blocking record (R356); kind 0 when the split does not wait. A remote load keeps its plan beside it. -/
structure Block where
  kind : Nat := 0
  addr : W64 := 0
  value : W64 := 0
  aux : W64 := 0
  plan : Option LoadPlan := none
  deriving DecidableEq, Repr

/-- A register named by lookahead (R189, R190). -/
inductive RegName where
  | v (n : Nat) | k (n : Nat) | m (n : Nat) | flags | empty
  deriving DecidableEq, Repr

/-- One bank of an activation table (R241, R242): its 1,056 bytes (missing ones are zero) and its poison. -/
structure ActBank where
  bytes : List Byte := []
  poison : Bool := false
  deriving DecidableEq, Repr

/-- One result to be written (R189): a lane of a vector register, a uniform, a mask, one bit of a mask, sticky flags, E, or the flip of
activation table n to a bank, whose number goes to a uniform (R246). -/
inductive RegWrite where
  | v (n lane : Nat) (x : LaneWord)
  | k (n : Nat) (x : KReg)
  | m (n : Nat) (x : LaneMask)
  | mbit (n lane : Nat) (x : Bool)
  | ix (lane : Nat) (x : W32)
  | flags (f : BitVec 5)
  | empty (e : Bool)
  | act (n : Nat) (b : ActBank) (d : Nat)
  deriving DecidableEq, Repr

/-- A long-latency instruction whose window is open or whose results are not written yet (R189, R190): its split, its own offset, its LA,
how many instructions the split issued since, its pending registers, and the results that are still to be written. -/
structure Pending where
  split : Nat
  pc : W64
  la : Nat
  pos : Nat
  regs : List RegName
  writes : List RegWrite
  deriving DecidableEq, Repr

/-- A resident warp (R144, R147, R355). -/
structure Warp where
  room : Nat := 0
  num : Nat := 0                                          -- sr.warpid
  live : Bool := true
  splits : List (Option Split) := [none, none, none, none]
  nest : List Nat := List.replicate 32 0
  masks : List LaneMask := [-1, 0, 0, 0, 0, 0, 0, 0]
  ix : List W32 := List.replicate 32 0
  wflags : W32 := 0x100
  wtcmp : W64 := 0
  satchel : W64 := 0
  trap : TrapRegs := {}
  handler : Bool := false
  hsave : HSave := {}
  stepArmed : Bool := false
  uni : List KReg := List.replicate 64 {}
  stack : List StackEntry := []                           -- newest first (R151)
  block : List Block := [{}, {}, {}, {}]
  pend : List Pending := []                               -- oldest first
  subs : List Nat := [0, 0, 0, 0]                         -- submission number of each stream (R356)
  jvec : List Nat := []                                   -- what completions of its jobs released at device scope (R122, R405)
  age : List Nat := [0, 0, 0, 0]                          -- issue intervals since last issue (R335)
  came : List W64 := [0, 0, 0, 0]                         -- offset from which control reached each split's PC (R219)
  stopped : List Bool := [false, false, false, false]     -- splits held while a handler runs (R346)
  closed : List Bool := [false, false, false, false]      -- splits whose atomic has closed the epoch and waits at its home (R110)
  deriving DecidableEq, Repr

/-! ### Core-local storage -/

/-- A core-local SRAM: bytes, poisoned units and owner tags (R37, R51, R54, R56). Unlisted bytes are zero, unlisted granules have no
owner. -/
structure Store where
  cells : List Host.Cell := []
  poison : List Nat := []
  owner : List (Nat × Nat) := []
  deriving DecidableEq, Repr

/-- A codebook (R74, R294): the gang that holds it as (launch, gang), its 32 bytes, and its poison. -/
structure Codebook where
  holder : Option (Nat × Nat) := none
  bytes : List Byte := List.replicate 32 0
  poison : Bool := false
  deriving DecidableEq, Repr

/-- An activation table (R241, R245): two banks, bank select, load count, whether a load has completed. -/
structure ActTable where
  bank0 : ActBank := {}
  bank1 : ActBank := {}
  sel : Bool := false
  count : Nat := 0
  loaded : Bool := false
  deriving DecidableEq, Repr

/-- How the engine entered a record (R291). -/
inductive How where
  | fetch | restore | resume
  deriving DecidableEq, Repr

/-- The matrix record being run (R291): its 64 bytes as fetched, how it was entered, whether its start condition held, its next step, the
codebooks as they stood when it started (R75), and whether nothing but its completion arrival is left. -/
structure Running where
  rec_ : BitVec 512
  how : How
  started : Bool
  step : Nat
  books : List Codebook
  arrive : Bool := false
  deriving DecidableEq, Repr

/-- What the engine read of one row of A, or one column of B, for one K-block: its bytes, its scales, and whether any was poisoned. -/
structure OperRow where
  bytes : List Byte
  scales : List Byte
  poison : Bool
  deriving DecidableEq, Repr

/-- An operand of one K-block that the next record takes as this one read it (R293): the record that takes it, the side (true for B), the
step, what the record must name, and the rows. -/
structure Held where
  recno : Nat
  side : Bool
  step : Nat
  key : List Nat
  rows : List OperRow
  deriving DecidableEq, Repr

/-- The command ring of a room (R289). `how` says how its next record is entered (R291), and `books` are the codebooks with which that record
started, if it stopped on the way (R75). -/
structure Ring where
  base : Nat := 0
  size : Nat := 0
  qcnt : W32 := 0
  dcnt : W32 := 0
  halt : Bool := false
  how : How := .fetch
  books : Option (List Codebook) := none
  run : Option Running := none
  held : List Held := []
  deriving DecidableEq, Repr

/-- A footprint region of a job card (R116). -/
structure Region where
  base : Nat
  rd : Bool
  wr : Bool
  space : Nat
  len : Nat
  deriving DecidableEq, Repr

/-- A job card (R279, R280). -/
structure Card where
  kind : Nat
  stream : Nat
  scope : Nat
  ordered : Bool
  startK : Nat
  rm : Nat
  swen : Bool
  bin : Bool
  bout : Bool
  startGen : Nat
  startAddr : Nat
  swAddr : Nat
  barAddr : Nat
  p0 : W64
  p1 : W64
  p2 : W64
  regions : List Region
  deriving DecidableEq, Repr

/-- A raise or a countdown that waits for its bytes (R125, R129): 0 raise, 1 inbound, 2 outbound; `seq` numbers the first remote write
after its bytes. -/
structure Count where
  kind : Nat
  bytes : Nat
  seq : Nat
  deriving DecidableEq, Repr

/-- A job of a core's scheduler (R118 to R123): identity, submitter, card, whether accepted, started and done, its next unit, the
updates it owes, its edges, its status (R284) once an access or update has failed (`ended`), and whether the Innkeeper issued it (R17). -/
structure Job where
  id : Nat
  room : Nat
  slot : Nat
  num : Nat
  cardAddr : Nat
  bytes : List Byte
  card : Card
  accepted : Bool := false
  started : Bool := false
  performed : Bool := false
  next : Nat := 0
  owed : List Count := []
  seq : Nat := 0                                          -- the first remote write after its last
  edges : List Nat := []
  ended : Option Nat := none
  priv : Bool := false
  deriving DecidableEq, Repr

/-- The stamp of a write (R107): the die that performed it, its vector, and whether it is that of a release of device or system scope
(R405). -/
structure Stamp where
  die : Nat
  v : List Nat
  rel : Bool := false
  deriving DecidableEq, Repr

/-- A write of a gang peer, a porter or a privileged agent on its way to a core's port (R131, R132): the window offset, its bytes,
its poison, its owner and the stamp that it carries. -/
structure PortWrite where
  room : Nat
  off : Nat
  bytes : List Byte
  poison : Bool
  owner : Option Nat
  stamp : Option Stamp := none
  deriving DecidableEq, Repr

/-! ### Groups and rooms -/

/-- A kernel header (R173). -/
structure KHdr where
  magic : Nat := 0
  version : Nat := 0
  flags : Nat := 0
  codesize : Nat := 0
  allot : Nat := 0
  unif : Nat := 0
  res0 : Nat := 0
  scratch : Nat := 0
  tiles : Nat := 0
  slots : Nat := 0
  satchel : Nat := 0
  warps : Nat := 0
  gang : Nat := 0
  stages : Nat := 0
  roles : Nat := 0
  handler : Nat := 0
  trapmask : Nat := 0
  vernus : Nat := 0
  cplv : Nat := 0
  res1 : Nat := 0
  args : Nat := 0
  stack : Nat := 0
  trailbase : Nat := 0
  trailtop : Nat := 0
  res2 : Nat := 0
  deriving DecidableEq, Repr

/-- A launch record (R327). -/
structure LaunchRec where
  data : Nat := 0
  args : Nat := 0
  priv : Nat := 0
  khdr : Nat := 0
  gangs : Nat := 0
  asid : Nat := 0
  prio : Nat := 0
  deadline : Nat := 0
  slice : Nat := 0
  res : Nat := 0
  deriving DecidableEq, Repr

/-- Where a group in a room stands (R160). A Blocked group is a resident one all of whose splits wait. -/
inductive Phase where
  | bound | resident | suspended | faulted | doubleFaulted | paging | ended
  deriving DecidableEq, Repr

/-- A map-slot handle's binding (R295 to R297): physical slot and the 16-byte descriptor. -/
structure Binding where
  slot : Nat
  desc : BitVec 128
  deriving DecidableEq, Repr

/-- A group in a room (R154 to R160, R354). -/
structure Group where
  phase : Phase := .bound
  restore : Bool := false
  ctx : Nat := 0                                          -- CTXADDR
  launch : Nat := 0                                       -- the launch, in the Innkeeper's list
  lrec : LaunchRec := {}
  lpa : Nat := 0                                          -- physical address of the launch record
  hdr : KHdr := {}
  groupid : Nat := 0
  stay : Nat := 0
  prio : Nat := 0
  quads : Nat := 0
  part : Nat := 0
  owner : Nat := 0                                        -- the tenant's device key slot (R37)
  spbase : Nat := 0
  spbytes : Nat := 0
  atbase : Nat := 0
  warps : List (Option Nat) := List.replicate 32 none     -- warp slot of warp w (R20)
  handles : List (Option Binding) := [none, none, none, none]
  depcnt : W64 := 0
  relaunch : Nat := 0
  wtimer : W64 := 0
  join : Option (Nat × W64) := none                       -- joinc registration (R278)
  jchk : List (Nat × Nat) := [(0, 0), (0, 0), (0, 0), (0, 0)]   -- per stream: completions other than done, status of the first
  wake : Option (Nat × W64) := none                       -- fork's join counter and threshold (R277)
  fault : Nat × Nat := (255, 255)                         -- FWARP and FSPLIT (R354)
  pageaddr : Nat := 0
  stopped : Bool := false                                 -- stopped for the debugger (R360)
  bkptAt : Option (Nat × Nat × W64) := none               -- warp number, split and offset of the `bkpt` that stopped it (R226)
  stepping : Option (Nat × Nat) := none                   -- warp slot and split that a single step lets issue (R361)
  deriving DecidableEq, Repr

/-- The window hold of a room (R132). -/
inductive Hold where
  | off | requested | acked
  deriving DecidableEq, Repr

/-- A room of a core (R20, R226, R241, R289, R326). -/
structure Room where
  group : Option Group := none
  ring : Ring := {}
  acts : List ActTable := [{}, {}, {}, {}]
  bkpt : Bool := false
  hold : Hold := .off
  stale : Nat := 0
  deriving DecidableEq, Repr

/-- A line of a core's instruction cache (R142): the 64 bytes at a virtual address of an ASID, as they were fetched, their poison, and what
an invalidation may name of them. -/
structure CodeLine where
  asid : Nat
  line : Nat
  part : Nat
  ipa : Nat
  bytes : List Byte
  poison : Bool
  deriving DecidableEq, Repr

/-- A core (R1). -/
structure Core where
  clock : W64 := 0
  maps : List (BitVec 16) := [0xFFFF, 0xFFFF, 0xFFFF, 0xFFFF]    -- good-lane maps of its quadrants (R145)
  rows : List (Nat × Row) := []                           -- warp slot × 256 + register (R42: which physical row is open)
  sp : Store := {}
  acc : Store := {}
  slots : Store := {}
  rooms : List Room := List.replicate 16 {}
  warps : List (Nat × Option Warp) := []                  -- by warp slot; unlisted slots hold none
  wrote : List Nat := []                                  -- owners whose leftovers its registers may hold (R42)
  books : List Codebook := List.replicate 8 {}
  jobs : List Job := []
  jobSeq : Nat := 0
  jsubs : List (Nat × Nat) := []                          -- splits that wait to submit, longest first: warp slot and split (R118, R123)
  mxTurn : Nat := 0                                       -- room the matrix engine served last (R292)
  port : List PortWrite := []
  service : Bool := true
  stamps : List (Nat × Stamp) := []                       -- stamps of window words, of writes that carry one (R107, R131, R405)
  code : List CodeLine := []                              -- fetched code (R142)
  deriving DecidableEq, Repr

/-! ### Memory behind the cores -/

/-- A sector held by a die's slice (R57, R58): bytes present, bytes dirty, data, the key slot that tags the line, poison, whether a
described leaf wrote it, the stamps of the last writes applied to its bytes, each with the bytes that show it (R107, R405), and for host
memory whether the slice holds the line in a CXL.cache state that permits a write (R112). Without a slot it was filled by privileged agents
or the host alone, which write under the key of whoever reads (log entry 20). -/
structure L2Sec where
  die : Nat
  sector : Nat
  have_ : BitVec 64
  dirty : BitVec 64
  data : List Byte
  key : Option Nat
  poison : Bool
  desc : Bool
  comp : Bool := false
  stamps : List (BitVec 64 × Stamp) := []
  owned : Bool := false
  deriving DecidableEq, Repr

/-- A remote write that has left its die (R106, R107): an invalidation carries no bytes. `copies` are the dies whose
acknowledgement the home still awaits after applying it. `ext` marks one that came from outside the device (R113, R114); its `tag` is
then the host function, or 65 and up for a packet that a waystation delivered. `rel` marks a stamped release (R405); writes with one
`op` are the parts of accesses that no observer sees divided (R87); `here` holds once the destination's waystation has delivered it (R134);
`owner` is whose data a write into a core window carries (R131); `lkey` and `part` are the local KEY and the partition that travel with a
write to a peer device (R35). -/
structure Remote where
  src : Nat
  dst : Nat
  stamp : List Nat
  sector : Nat
  bytes : List (Nat × Byte)
  poison : Bool
  key : Option Nat
  desc : Bool
  comp : Bool := false
  cp : Nat := 0
  ord : Bool := false
  inval : Bool
  id : Nat
  applied : Bool := false
  copies : List Nat := []
  ext : Bool := false
  tag : Nat := 0
  rel : Bool := false
  op : Option Nat := none
  here : Bool := true
  owner : Option Nat := none
  lkey : Nat := 0
  part : Nat := 0
  deriving DecidableEq, Repr

/-- A message between two dies that its flow has delivered in order and its die has yet to handle (R108, R138): a mark, or a close
request. -/
structure DieMsg where
  src : Nat
  dst : Nat
  mark : Bool
  n : Nat
  deriving DecidableEq, Repr

/-- A flow's state at its destination (R133 to R135): `next` is NEXT, or for an unordered flow the number after the newest seen; the
packets held, each with whether it fills a reserve slot; and the tag of the last packet delivered (0 before any). -/
structure FlowRx where
  sdev : Nat
  sdie : Nat
  flow : Nat
  ordered : Bool
  next : Nat
  seen : List Nat := []
  held : List (Packet × Bool) := []
  last : Nat := 0
  deriving DecidableEq, Repr

/-- A packet in a source's replay buffer (R136): whether it was sent, the time from which it counts as due, and whether that is a
timeout, whose backoff is still to be added. -/
structure Replay where
  p : Packet
  sent : Bool
  due : Nat
  timed : Bool
  deriving DecidableEq, Repr

/-- A flow's state at its source (R133, R136): `dev` is none for a flow between two dies of this device; `hold` are the packets whose NAK
holds back the new ones of an ordered flow; `sys` marks the flow of a pair of dies that carries marks and close requests (R138). -/
structure FlowTx where
  flow : Nat
  dev : Option Nat
  die : Nat
  ordered : Bool
  sys : Bool
  next : Nat
  buf : List Replay
  naks : Nat
  hold : List Nat
  deriving DecidableEq, Repr

/-- What a die has to send and has no flow number for yet (R133): where it goes, and its packet without the flow's tag. -/
structure Outgoing where
  dev : Option Nat
  die : Nat
  ordered : Bool := false
  sys : Bool := false
  p : Packet
  deriving DecidableEq, Repr

/-- What is on its way between two dies of the device (R133): a data packet, an ACK, a NAK, a close. `dst` is the die it goes to. -/
inductive Wire where
  | data (dst : Nat) (p : Packet)
  | ack (dst flow seq : Nat)
  | nak (dst flow seq : Nat)
  | close (dst sdie flow : Nat)
  deriving DecidableEq, Repr

/-- Which leaves an access may use: any, those of lane-private memory (R11), those of described blocks (R262), those of plain operands
(R286). -/
inductive LeafUse where
  | any | lanePrivate | described | plain
  deriving DecidableEq, Repr

/-- Who asked for a translation (R33, R403). -/
inductive Asker where
  | split (r : SplitRef)
  | job (core id : Nat)
  | mx (core room : Nat)
  | host (die : Nat)
  deriving DecidableEq, Repr

/-- An agent's part in a miss (R33): who it is, whether it writes or fetches, which leaves its access may use, and whether it is held to
leaves with U = 1 (R17). -/
structure Wanted where
  who : Asker
  write : Bool
  fetch : Bool
  leaf : LeafUse := .any
  user : Bool := true
  deriving DecidableEq, Repr

/-- A miss in a die's walker queue: an ASID and a page, with everyone who joined it (R33). -/
structure Miss where
  asid : Nat
  va : Nat
  who : List Wanted
  deriving DecidableEq, Repr

/-- A sector that an agent waits for (R65, R161): of a controller whose bucket is empty for the tenant, or of host or peer memory. `done` once
it has come, until the agent has taken it. `tag` numbers a read of a peer device. -/
structure MemReq where
  who : Asker
  tenant : Nat
  sector : Nat
  tag : Nat := 0
  done : Bool := false
  deriving DecidableEq, Repr

/-- An entry of a die's partition-map cache (R33): a partition, its granule of 1 GiB, and the entry. -/
structure MapEntry where
  part : Nat
  granule : Nat
  entry : Nat
  deriving DecidableEq, Repr

/-- A walk's refusal as its asker will meet it (R33, R343, R403): the cause, the walk level, the stage, KEY and the
place of the cause in the order in which a walk meets its causes; poison instead of a cause where the walk read a poisoned entry. -/
structure Answer where
  who : Asker
  asid : Nat
  va : Nat
  write : Bool
  fetch : Bool
  cause : Nat
  level : Nat
  s2 : Bool
  key : Nat
  rank : Nat
  poison : Bool
  deriving DecidableEq, Repr

/-- A die of the ordering model (R106), its waystation (R134) and its walkers' queue (R33). -/
structure Die where
  vc : List Nat
  marks : List Nat
  sent : Nat := 0                                         -- newest mark sent
  first : Option Nat := none                              -- time of the first remote write of the open epoch
  rx : List FlowRx := []
  tx : List FlowTx := []
  txq : List Outgoing := []                               -- what waits for a flow number
  ways : List (Nat × Bool) := []                          -- tags of delivered packets, with whether each fills a reserve slot
  missq : List Miss := []
  maps : List MapEntry := []                              -- partition-map cache
  served : Nat := 0                                       -- requester the walkers served last (R33)
  deriving DecidableEq, Repr

/-- A translation held by a core or an engine (R139, R140): what a walk returned for one page of an ASID. -/
structure Tlb where
  agent : Nat
  asid : Nat
  va : Nat
  size : Nat
  pte : Nat
  entry : W64
  ipa : Nat
  pa : Nat
  part : Nat
  w2 : Bool
  x2 : Bool
  m : Bool
  deriving DecidableEq, Repr

/-- An entry of a die's ATC (R389): function, page of the host window, host page, read and write permission. -/
structure Atc where
  die : Nat
  fn : Nat
  page : Nat
  addr : Nat
  r : Bool
  w : Bool
  deriving DecidableEq, Repr

/-- A device key slot (R34, R36). -/
inductive KeySlot where
  | empty | live | destroying
  deriving DecidableEq, Repr

/-- An invalidation in progress (R139, R140): what it names, the die that issued it and the epoch that its release closed, the agents that
received it and those that acknowledged. -/
structure InvalRun where
  i : Inval
  die : Nat
  epoch : Nat
  got : List Nat
  acked : List Nat
  deriving DecidableEq, Repr

/-! ### Counters, tasks, launches -/

/-- A dependence counter (R221, R273): its value, every update with the tick in which it was applied, and the vector of closed epochs
that its updates released. -/
structure Counter where
  value : W64 := 0
  log : List (W64 × Nat) := []
  vec : List Nat := []
  deriving DecidableEq, Repr

/-- A task of the waiting pool (R274, R275, R333): its entry, its unsatisfied waits as (counter, threshold), whether it is ready, and the
vector that its push and the updates of its waits released. -/
structure Task where
  part : Nat
  entry : BitVec 256
  waits : List (Nat × W64)
  u : Nat
  ready : Bool
  vec : List Nat
  deriving DecidableEq, Repr

/-- An entry of a ready queue (R275, R276). -/
structure Ready where
  entry : BitVec 256
  vec : List Nat
  deriving DecidableEq, Repr

/-- A gang of a launch, as the Innkeeper keeps it (R155, R376): members not yet started, members ended, relaunches. -/
structure GangInfo where
  started : List Nat := []
  ended : List Nat := []
  relaunch : Nat := 0
  waiting : Bool := false                                 -- killed and not yet relaunched
  stopped : Bool := false                                 -- four relaunches used up
  deriving DecidableEq, Repr

/-- A launch (R327, R329, R380). `parent` names the launch and group that forked it. -/
structure Launch where
  fn : Nat := 0
  queue : Nat := 0
  tag : Nat := 0
  lpa : Nat := 0
  lrec : LaunchRec := {}
  hdr : KHdr := {}
  part : Nat := 0
  host : Bool := true
  begun : Bool := true
  gangs : List (Nat × GangInfo) := []
  complete : Bool := false
  abandoned : Bool := false
  aborted : Bool := false                                 -- by a reset of its partition (R385)
  depThr : W64 := 0
  depVec : Nat := 0
  advised : Bool := false
  suspect : Bool := false
  confirmed : Bool := false
  cores : List (Nat × Nat) := []                          -- (core, T[core] + 1)
  ended : Nat := 0                                        -- groups ended, with their resident time
  endTime : Nat := 0
  vec : List Nat := []                                    -- epochs that its start acquires (R277)
  since : Nat := 0                                        -- when it began to wait for a room (R331)
  deriving DecidableEq, Repr

/-- A group that left its room for its context record (R352 to R354): `state` is STATE of the record, `wake` the counter and threshold of
a fork (R277), `eligible` whether its wake condition holds (R337). What the record has no place for stays with it: its room, warps and
withdrawn jobs as they stood, the poisoned words of its scratchpad, and its gang's codebooks (log entry 17). -/
structure Saved where
  launch : Nat
  groupid : Nat
  ctx : Nat
  state : Nat
  stay : Nat
  eligible : Bool
  wake : Option (Nat × W64) := none
  core : Nat := 0
  room : Room := {}
  warps : List (Nat × Warp) := []
  jobs : List Job := []
  spPoison : List Nat := []
  books : List (Option Codebook) := []
  reqs : List MemReq := []                                -- the loads of its splits that are out, by warp number (R337)
  vec : List Nat := []                                    -- the epochs that its restore acquires (log entry 124)
  deriving DecidableEq, Repr

/-- An interrupt that a function's host is owed once the writes numbered from `lo` below `hi` are performed (R113). -/
structure Irq where
  fn : Nat
  vec : Nat
  lo : Nat
  hi : Nat
  deriving DecidableEq, Repr

/-- A token bucket (R64 to R66) and the entry that the next window will put into force. -/
structure Bucket where
  level : Nat := 0
  entry : W64 := 0
  pending : Option W64 := none
  deriving DecidableEq, Repr

/-- A ring registered by a function (R328, R391): base, entries, vector, head, tail, phase. -/
structure HostRing where
  base : Nat := 0
  size : Nat := 0
  vec : Nat := 0
  head : Nat := 0
  tail : Nat := 0
  phase : Bool := false
  deriving DecidableEq, Repr

/-- A page-request group index in use (R392): index, the group, its stay, the lane and the page. -/
structure PageReq where
  idx : Nat
  launch : Nat
  groupid : Nat
  stay : Nat
  lane : Nat
  page : Nat
  deriving DecidableEq, Repr

/-- What the pager remembers of a lane's faults on a page (R351, R392): Successes in a row, and whether it declined. -/
structure PageTry where
  launch : Nat
  groupid : Nat
  lane : Nat
  page : Nat
  good : Nat
  declined : Bool
  deriving DecidableEq, Repr

/-- An SR-IOV function (R328, R390, R391): 0 is the PF. -/
structure Fn where
  enabled : Bool := true
  ready : Bool := false
  updating : Bool := false
  adminq : W64 := 0
  admindb : Nat := 0
  adminHead : Nat := 0
  admincq : W64 := 0
  admincqTail : Nat := 0
  admincqPhase : Bool := false
  stalepr : Nat := 0
  sqs : List HostRing := List.replicate 16 {}
  cq : HostRing := {}
  conf : HostRing := {}
  cwait : List (Option (Nat × W64 × Nat)) := List.replicate 16 none   -- counter, threshold, tag: a CWAIT holds the queue back (R329)
  open_ : List Nat := List.replicate 16 0                 -- entries begun and not completed, by queue
  keys : List (Option (List Byte)) := [none, none, none, none]
  pageable : List (Nat × Nat × Nat) := []                 -- base, length, ASID
  images : List (Nat × Nat) := []                         -- loaded code: base, length
  loading : Option (Nat × Nat) := none                    -- code written and not yet usable: base, length (R142, R394)
  traceBuf : Nat × Nat × Nat := (0, 0, 0)                 -- base, bytes, records written
  pages : List PageReq := []
  resetting : Bool := false
  deriving DecidableEq, Repr

/-- A firmware slot (R398). -/
structure FwSlot where
  bytes : List Byte := []
  version : Nat := 0
  secver : Nat := 0
  staged : Bool := false
  deriving DecidableEq, Repr

/-- The firmware's state (R399). -/
inductive FwPhase where
  | running | quiescing | handover
  deriving DecidableEq, Repr

/-- Firmware and the Dunesh cores (R398, R399). -/
structure Firmware where
  slotA : FwSlot := { staged := true }
  slotB : FwSlot := {}
  active : Bool := false                                  -- false: slot A
  phase : FwPhase := .running
  since : Nat := 0
  fn : Nat := 0
  tag : Nat := 0
  spare : Bool := false                                   -- the core on die 4 serves
  deriving DecidableEq, Repr

/-- A Bassar port (R383): rate step 0 (224 Gb/s) to 3 (56 Gb/s). -/
structure Port where
  rate : Nat := 0
  target : Nat := 0
  training : Bool := false
  up : Bool := true
  owner : Option Nat := none                              -- the partition to which it belongs (R384)
  deriving DecidableEq, Repr

/-- Scan rotation (R379 to R381): the core whose turn it is, whether its slot is on, whether the patterns run and whether that is the
second scan, the time at which that began, the time at which the next slot begins, SEQ, and deferrals. -/
structure Scan where
  core : Nat := 0
  active : Bool := false
  running : Bool := false
  second : Bool := false
  since : Nat := 0
  next : Nat := 0
  seq : List Nat := List.replicate 64 0
  log : Nat := 0                                          -- deferrals logged
  deriving DecidableEq, Repr

/-- A tenant on a cluster (R331): its partition, the time at which its first group there became resident, its deficit, weight and default
slice, whether it drains, the time at which the deadline of a save falls, and whether that was missed, so that its groups are still to be saved
(R338). -/
structure Share where
  cluster : Nat
  part : Nat
  since : Nat := 0
  deficit : Int := 0
  weight : Nat := 1
  slice : Nat := 2000
  draining : Bool := false
  saving : Option Nat := none
  late : Bool := false
  deriving DecidableEq, Repr

/-- What the device sends out or shows. -/
inductive Out where
  | msix (fn vec : Nat)
  | pageRequest (fn idx : Nat) (asid page : Nat)
  | atsRequest (die fn page : Nat)
  | invalDone (fn : Nat)
  | invalidated (i : Inval)
  | missed (cluster part : Nat)
  | badRecord (core room off : Nat)
  | corrected (l : StorageLoc)
  | poisonedWalk (agent asid va : Nat)
  | cxlOwn (die sector : Nat)
  | flowClose (die dev ddie flow : Nat)
  | ack (die sdev sdie flow seq : Nat)
  | nak (die sdev sdie flow seq : Nat)
  | packet (die dev : Nat) (p : Packet)
  | readData (die : Nat) (data : Option (List Byte))
  | spdm (req : Nat) (body : List Byte) (sig : List Byte)
  | cacheState (die sector : Nat) (data : List Byte)
  | lantern (words : List W64)
  | code (offset : Nat) (words : List W32) (i : Option Instr)
  | refused (core room field : Nat)
  | innkeeper (what core room : Nat) (cause first : W64)
  | thermalTrip
  deriving DecidableEq, Repr

/-- A kernel that Lantern knows (R363): the address of its header. -/
structure Known where
  hdr : Nat
  deriving DecidableEq, Repr

/-- Lantern (R363, R368): the function and ASID it serves and the base of its workspace, which the driver gives it (log entry 25); the
kernels it knows; its armed stops as (kernel, offset); the launch it examines; how many stops are still to be reported before it halts (0
while it halts); the splits that may leave the armed instruction at which they stand; what has become of an `evict` (1 asked, 2 saved);
and how many launches it has made. -/
structure Lantern where
  fn : Nat := 1
  asid : Nat := 0
  space : Nat := 0
  data : Nat := 0
  kernels : List Known := []
  stops : List (Nat × Nat) := []
  launch : Option Nat := none
  goals : Nat := 0
  left : List SplitRef := []
  evict : Nat := 0
  seq : Nat := 0
  deriving DecidableEq, Repr

/-- A request of the host that may have to wait (R113, R393, R399). -/
inductive Request where
  | doorbell (fn q tail : Nat)
  | admin (fn tail : Nat)
  | flr (fn : Nat)
  | vfClear
  | read (die fn pa len : Nat)
  | page (fn idx code : Nat)
  | register (fn off : Nat) (val : W64)
  deriving DecidableEq, Repr

/-- What the machine does next: an issue slot of a quadrant is free, an agent's step takes place, or time passes. -/
inductive Move where
  | issue (core quad : Nat)
  | event (i : Instr)
  | time (ns cclk : Nat)
  deriving DecidableEq, Repr

/-- The whole device. -/
structure State where
  /-- Moves the world has already decided, oldest first; the machine's own order follows when there is none (log entry 2). -/
  agenda : List Move := []
  /-- Quadrant (core × 4 + quadrant) that the default order offers the next issue slot. -/
  turn : Nat := 0
  /-- The split whose instruction executes. -/
  cur : SplitRef := ⟨0, 0, 0⟩
  /-- Free values drawn so far (the model's own field). -/
  draws : Nat := 0
  gtime : Nat := 0
  cores : List Core := List.replicate 64 {}
  mem : List Host.Cell := []
  memPoison : List Nat := []
  memKey : List (Nat × Nat) := []
  memHdr : List (Nat × Nat) := []
  l2 : List L2Sec := []
  dies : List Die
  net : List Remote := []
  netSeq : Nat := 0
  msgs : List DieMsg := []
  asidBase : Nat := 0
  pmap : List (Nat × Nat) := []
  keyMap : List (Nat × Option Nat) := []
  keySlots : List KeySlot := List.replicate 128 .empty
  tenantKey : List (Nat × Nat) := []
  tlb : List Tlb := []
  walked : List Answer := []
  atc : List Atc := []
  ats : List (Nat × Nat × Nat) := []                      -- translation requests without a reply: die, function, page of the window
  atcDrain : List (Nat × Nat × Nat) := []                 -- host invalidations that drain: function, base, length
  inval : Option InvalRun := none
  invals : List Inval := []                                 -- invalidations issued while one is in progress (R139)
  buckets : List (Nat × Bucket) := []
  reqs : List MemReq := []                                  -- sectors that agents wait for (R65, R161)
  served : List (Nat × Nat) := []                           -- tenant that each controller served last (R65)
  wire : List Wire := []                                    -- what is on its way between dies (R133)
  window : Nat := 0                                       -- 256 ns windows whose refill is done (R65)
  paced : Nat := 0                                        -- 100 µs intervals whose deficits are counted (R331)
  counters : List (Nat × Counter) := []
  tasks : List Task := []
  queues : List (Nat × List Ready) := []
  queueCap : List (Nat × Nat) := []
  quota : List (Nat × Nat) := []
  launches : List Launch := []
  saved : List Saved := []
  stays : List (Nat × Nat) := []
  started : List Nat := []                                -- partitions whose start-up is over (R157, R158)
  shares : List Share := []
  misses : Nat := 0                                       -- window reads that missed (R22; log entry 99)
  tries : List PageTry := []
  fns : List Fn := List.replicate 65 {}
  fnPart : List (Nat × Nat) := []
  clusters : List (Option Nat) := List.replicate 16 none  -- the partition that owns each cluster (R384)
  resets : List Nat := []
  irqs : List Irq := []                                     -- interrupts that wait for writes (R113)
  held : List Request := []                                 -- host requests that wait for posted writes or a firmware update (R113, R399)
  fw : Firmware := {}
  ports : List Port := List.replicate 16 {}
  scan : Scan := {}
  mhz : Nat := 3000
  tripped : Bool := false
  lantern : Lantern := {}
  doe : Nat := 0
  out : List Out := []
  deriving DecidableEq, Repr

/-- Why a step stops. -/
inductive Fault where
  /-- Raised by a meaning when the issuing-split reference names no live split of a resident warp; `step` never calls one so. Safe:
  no run reaches it. -/
  | noSplit
  deriving DecidableEq, Repr

/-- Why a step is refused. -/
inductive Refusal where
  /-- Raised by an arm of `exec` that has no meaning yet. Safe: nothing is claimed of it. -/
  | notModelled (mnemonic : String)
  deriving DecidableEq, Repr

/-- A die right after reset: epoch 1 open, no marks (R106). -/
def Die.reset (e : Nat) : Die :=
  { vc := (List.replicate 8 0).set e 1, marks := List.replicate 8 0 }

/-- The device when power comes on (R400): bring-up is the first thing that happens. -/
def State.reset : State :=
  { agenda := [.event .powerOn]
    dies := (List.range 8).map Die.reset }

end Sys2Proof.Machine
end

