-- ==== Sys2Proof/Machine/Mem.lean ====
section
/-! DEFINITION. The memory behind the cores: the physical map (R18), home slices (R57, R58), keys and poison of stored sectors (R34,
R62, R63), and the ordering model's dies with their stamps, epochs and marks (R106 to R111, R405). -/

namespace Sys2Proof.Machine

/-- The canonical form of memory (log entry 1): addresses strictly rising, and no byte listed that reads the same unlisted. -/
def Memory.wf (m : List Host.Cell) : Bool := tableWf unwritten m

/-! ### Pieces of the state -/

/-- Core c. -/
def State.core (s : State) (c : Nat) : Core := s.cores.getD c {}
/-- The state with core c changed. -/
def State.modCore (s : State) (c : Nat) (f : Core → Core) : State := { s with cores := modifyAt s.cores c f }
/-- Die e. -/
def State.die (s : State) (e : Nat) : Die := s.dies.getD e (Die.reset e)
/-- The state with die e changed. -/
def State.modDie (s : State) (e : Nat) (f : Die → Die) : State := { s with dies := modifyAt s.dies e f }
/-- The state with one more thing sent out or shown. -/
def State.emit (s : State) (o : Out) : State := { s with out := s.out ++ [o] }

/-- The die of a core (R18). -/
def dieOf (c : Nat) : Nat := c / 8
/-- The cluster of a core (R18). -/
def clusterOf (c : Nat) : Nat := c / 4

/-! ### The physical map (R18) -/

/-- What a physical address names (R18). -/
inductive PaKind where
  | control | onchip | hbm | host | peer | reserved
  deriving DecidableEq, Repr

/-- The range of the physical map that holds an address (R18). -/
def paKind (pa : Nat) : PaKind :=
  if pa < 0x100000000 then .control
  else if 0xF00000000 ≤ pa && pa < 0xF40000000 then .onchip
  else if 0x1000000000 ≤ pa && pa < 0x9000000000 then .hbm
  else if 0x80000000000 ≤ pa && pa < 0x100000000000 then .host
  else if 0x8000000000000 ≤ pa && pa < 0x10000000000000 then .peer
  else .reserved

/-- The home die of a physical line (R57); what lies in a core window is at home on the core's die (R131). -/
def homeDie (pa : Nat) : Nat :=
  match paKind pa with
  | .hbm => pa / 0x1000000000 - 1
  | .host | .peer => pa / 4096 % 8
  | .onchip => (pa - 0xF00000000) / 2 ^ 24 / 8
  | .control | .reserved => 0

/-- The controller that serves the 256-byte line of an HBM address (R61): twice the stack, plus PA[8] XOR PA[16]. -/
def ctlOf (pa : Nat) : Nat := (pa / 0x1000000000 - 1) * 2 + (pa / 256 + pa / 65536) % 2

/-! ### Sectors -/

/-- A die's copy of a sector, or the home's (R58). -/
def State.sec (s : State) (e sector : Nat) : Option L2Sec := s.l2.find? fun x => x.die = e && x.sector = sector

/-- The slices without a die's sector. -/
def State.dropSec (s : State) (e sector : Nat) : State :=
  { s with l2 := s.l2.filter fun x => !(x.die = e && x.sector = sector) }

/-- The slices without a die's copy of a line. -/
def State.dropLine (s : State) (e sector : Nat) : State :=
  { s with l2 := s.l2.filter fun x => !(x.die = e && x.sector / 4 = sector / 4) }

/-- The slices with a sector put in its place. -/
def State.setSec (s : State) (x : L2Sec) : State :=
  { s with l2 := (s.l2.filter fun y => !(y.die = x.die && y.sector = x.sector)) ++ [x] }

/-- The key slot under which memory holds a sector. -/
def State.storedKey (s : State) (sector : Nat) : Option Nat := (s.memKey.find? fun p => p.1 = sector).map (·.2)

/-- Whether a sector read under a key is one that another key stored (R34, R143); host and peer memory ignore it (R35). A destroyed key,
numbered 128 and up, is another key to every reader, one without a slot too, who stands for 256 (R36). -/
def wrongKey (pa : Nat) (stored key : Option Nat) : Option (Nat × Nat) :=
  match paKind pa, stored, key with
  | .hbm, some a, some b => if a = b then none else some (a, b)
  | .hbm, some a, none => if 128 ≤ a then some (a, 256) else none
  | _, _, _ => none

/-- The key under which an accessor holds a line that another key tags: its own, or for one without a slot the line's as long as it lives
(log entry 20). -/
def lineKey (stored key : Option Nat) : Option Nat := if key.isSome then key else stored.filter (· < 128)

/-- A byte as memory gives it under a key (R34, R143). -/
def State.storedByte (s : State) (key : Option Nat) (pa : Nat) : Byte :=
  match wrongKey pa (s.storedKey (pa / 64)) key with
  | some (a, b) => Config.wrongKeyByte a b (pa / 64) (getBytes s.mem (pa / 64 * 64) 64) (pa % 64)
  | none => get unwritten s.mem pa

/-- Every byte of a sector. -/
def allBytes : BitVec 64 := BitVec.allOnes 64

/-- The bytes that a sector leaves in memory when it is written back: its written bytes over memory's, and for a described zero block
nothing but the format and scale bytes (R58, R63). -/
def State.backBytes (s : State) (x : L2Sec) : List Byte :=
  let bs := (List.range 64).map fun i =>
    if x.dirty.getLsbD i then at_ 0 x.data i else s.storedByte x.key (x.sector * 64 + i)
  if x.desc && bs.head? = some 0 then bs.take 2 ++ List.replicate 62 0 else bs

/-- A byte as its home gives it under a key, the home slice's written bytes above memory's; a line tagged with another key is seen as if it
had been written back and taken anew (R58, R143). -/
def State.homeByte (s : State) (key : Option Nat) (pa : Nat) : Byte :=
  match s.sec (homeDie pa) (pa / 64) with
  | none => s.storedByte key pa
  | some x =>
    match wrongKey pa x.key key with
    | some (a, b) => Config.wrongKeyByte a b (pa / 64) (s.backBytes x) (pa % 64)
    | none => if x.have_.getLsbD (pa % 64) then at_ 0 x.data (pa % 64) else s.storedByte x.key pa

/-- Whether a sector reads as poisoned at its home (R63, R261). -/
def State.homePoison (s : State) (pa : Nat) : Bool :=
  match s.sec (homeDie pa) (pa / 64) with
  | none => s.memPoison.contains (pa / 64)
  | some x => x.poison

/-- The mask of the byte offsets that a list of written bytes covers. -/
def offsMask (bs : List (Nat × Byte)) : BitVec 64 :=
  bs.foldl (fun m p => m ||| BitVec.ofNat 64 (2 ^ p.1)) 0

/-- The mask of the bytes of a sector that lie among some addresses. -/
def bytesOf (sector : Nat) (pas : List Nat) : BitVec 64 :=
  pas.foldl (fun m pa => if pa / 64 = sector then m ||| BitVec.ofNat 64 (2 ^ (pa % 64)) else m) 0

/-- A die's writes to a sector that its home has not applied yet, oldest first. -/
def State.ownWrites (s : State) (e sector : Nat) : List Remote :=
  s.net.filter fun r => r.src = e && !r.inval && !r.applied && !r.ext && r.sector = sector

/-- A die's copy of a sector that is homed elsewhere, as an access finds it: none for an uncached access, and none under another key (R59,
R111, R143). -/
def State.copyHit (s : State) (e : Nat) (at' : Attr) (sector : Nat) : Option L2Sec :=
  if homeDie (sector * 64) = e || at'.cp = 2 then none
  else (s.sec e sector).filter fun x => x.have_ = allBytes && (wrongKey (sector * 64) x.key at'.key).isNone

/-- A byte as an agent of die e reads it: the die's own writes on their way, else its copy, else the home (R59, R89, R111; log entry 10). -/
def State.dieByte (s : State) (e : Nat) (at' : Attr) (pa : Nat) : Byte :=
  let base := match s.copyHit e at' (pa / 64) with
    | some x => at_ 0 x.data (pa % 64)
    | none => s.homeByte at'.key pa
  (s.ownWrites e (pa / 64)).foldl (fun b r => ((r.bytes.filter fun p => p.1 = pa % 64).getLast?.map (·.2)).getD b) base

/-- Whether an agent of die e reads poison at an address; a clean write of every byte of the sector covers it (R261). -/
def State.diePoison (s : State) (e : Nat) (at' : Attr) (pa : Nat) : Bool :=
  let base := match s.copyHit e at' (pa / 64) with
    | some x => x.poison
    | none => s.homePoison pa
  (s.ownWrites e (pa / 64)).foldl (fun p r => if offsMask r.bytes = allBytes then r.poison else p || r.poison) base

/-- The bytes an agent of die e reads, and whether any of them is poisoned. -/
def State.readAt (s : State) (e : Nat) (at' : Attr) (pa n : Nat) : List Byte × Bool :=
  ((List.range n).map fun i => s.dieByte e at' (pa + i),
   at'.psn || (List.range n).any fun i => s.diePoison e at' (pa + i))

/-! ### Stamps (R107, R405) -/

/-- Stamps after a write of some bytes: each byte shows the stamp of the last write applied to it. -/
def restamp (t : List (BitVec 64 × Stamp)) (m : BitVec 64) (st : Stamp) : List (BitVec 64 × Stamp) :=
  ((t.map fun x => (x.1 &&& ~~~m, x.2)).filter fun x => x.1 ≠ 0) ++ [(m, st)]

/-- The stamps of the writes that a read of some bytes of a sector by die e returns (R107): its own on their way, or those that its copy or
the home shows. -/
def State.stampsAt (s : State) (e : Nat) (at' : Attr) (sector : Nat) (m : BitVec 64) : List Stamp :=
  let own := (s.ownWrites e sector).filter fun r => offsMask r.bytes &&& m ≠ 0
  let rest := m &&& ~~~(own.foldl (fun k r => k ||| offsMask r.bytes) 0)
  let x := match s.copyHit e at' sector with
    | some x => some x
    | none => s.sec (homeDie (sector * 64)) sector
  own.map (fun r => { die := r.src, v := r.stamp, rel := r.rel }) ++
    (((x.map (·.stamps)).getD []).filter fun p => p.1 &&& rest ≠ 0).map (·.2)

/-! ### Tokens (R64, R65) -/

/-- Key of a bucket: controller and tenant, who is named by his device key slot (R37). -/
def bucketKey (ctl tenant : Nat) : Nat := ctl * 128 + tenant

/-- The bucket that a sector's transfers for a tenant are charged to (R61, R65). -/
def State.bucketFor (s : State) (sector tenant : Nat) : Bucket := get {} s.buckets (bucketKey (ctlOf (sector * 64)) tenant)

/-- Whether a bucket limits its tenant (R64). -/
def Bucket.enforced (b : Bucket) : Bool := b.entry.getLsbD 0

/-- One token fewer at a sector's controller (R65). Only HBM has buckets, and what no key slot tags belongs to no tenant. -/
def State.spend (s : State) (sector : Nat) (tenant : Option Nat) : State :=
  match tenant with
  | none => s
  | some t =>
    let b := s.bucketFor sector t
    if paKind (sector * 64) = .hbm && b.enforced then
      { s with buckets := put {} s.buckets (bucketKey (ctlOf (sector * 64)) t) { b with level := b.level - 1 } }
    else s

/-- Whether a tenant's request for a sector need not wait: its bucket holds a token, and no request of a tenant that holds tokens waits at
the controller (R65). -/
def State.tokenFree (s : State) (sector : Nat) (tenant : Option Nat) : Bool :=
  match tenant with
  | none => true
  | some t =>
    let b := s.bucketFor sector t
    paKind (sector * 64) ≠ .hbm || !b.enforced ||
      (b.level ≠ 0 && !s.reqs.any fun q => !q.done && paKind (q.sector * 64) = .hbm && ctlOf (q.sector * 64) = ctlOf (sector * 64)
        && (s.bucketFor q.sector q.tenant).level ≠ 0)

/-! ### Write-back (R58, R63) -/

/-- Memory's encoding of a sector: 0 raw, 1 zero header, 2 poison header, 3 compressed (R63). What was written last decides for the whole
sector (log entry 96). -/
def encodingOf (x : L2Sec) (bytes : List Byte) : Nat :=
  if x.poison || (x.desc && bytes.head? = some 0xFF) then 2
  else if (x.desc && bytes.head? = some 0) || (!x.desc && bytes.all (· = 0)) then 1
  else if x.comp && Config.compresses bytes then 3
  else 0

/-- Memory after a dirty sector is written back, charged to the tenant whose slot tags it; the slice keeps the sector, now clean (R58, R63,
R65). -/
def State.writeBack (s : State) (x : L2Sec) : State :=
  if x.dirty = 0 then s
  else
    let bs := s.backBytes x
    let s := { s with
      mem := putBytes s.mem (x.sector * 64) bs
      memKey := match x.key with
        | some k => insertAt (without s.memKey x.sector) x.sector k
        | none => without s.memKey x.sector
      memHdr := put 0 s.memHdr x.sector (encodingOf x bs)
      memPoison := if encodingOf x bs = 2 then setInsert s.memPoison x.sector else setErase s.memPoison x.sector }
    (s.setSec { x with dirty := 0 }).spend x.sector x.key

/-- Whether a sector's write-back need not wait for a token. -/
def State.backFree (s : State) (x : L2Sec) : Bool := x.dirty = 0 || s.tokenFree x.sector x.key

/-- A home's sector without its bytes: what is left of an evicted sector is the stamps of the writes applied to it (R107; log entry 10). A
copy goes whole. -/
def State.forgetSec (s : State) (x : L2Sec) : State :=
  if x.stamps = [] || x.die ≠ homeDie (x.sector * 64) then s.dropSec x.die x.sector
  else
    s.setSec { x with have_ := 0, dirty := 0, data := List.replicate 64 0, key := if (s.storedKey x.sector).isSome then s.storedKey x.sector else x.key,
                      poison := s.memPoison.contains x.sector }

/-- A home's sector leaves its slice, a dirty one after it is written back (R58). -/
def State.evictHome (s : State) (x : L2Sec) : State :=
  let t := s.writeBack x
  match t.sec x.die x.sector with
  | some y => t.forgetSec y
  | none => t

/-- The lines of 256 bytes in a slice of 224 MiB (R2). -/
def sliceLines : Nat := 917504

/-- Whether a die's slice has room for a sector: it holds the line, or fewer lines than it has (R1, R2). -/
def State.hasRoom (s : State) (e sector : Nat) : Bool :=
  let mine := s.l2.filter fun x => x.die = e && x.have_ ≠ 0
  s.l2.length < sliceLines || mine.any (fun x => x.sector / 4 = sector / 4) || ((mine.map fun x => x.sector / 4).eraseDups).length < sliceLines

/-- Room made for a sector: a full slice gives up the line at home in it that it took first (R58 leaves the order to timing; a copy stays,
R111). -/
def State.makeRoom (s : State) (e sector : Nat) : State :=
  if s.hasRoom e sector then s
  else
    match s.l2.find? fun x => x.die = e && x.have_ ≠ 0 && homeDie (x.sector * 64) = e with
    | none => s
    | some v => (s.l2.filter fun x => x.die = e && x.sector / 4 = v.sector / 4).foldl State.evictHome s

/-! ### What a slice holds for an accessor (R58, R59, R143) -/

/-- A sector as its home holds it for an accessor, and whether the line is present: one tagged with another key is written back under its
own and taken anew under the accessor's (R143). -/
def State.tagged (s : State) (at' : Attr) (sector : Nat) : State × L2Sec × Bool :=
  let h := homeDie (sector * 64)
  let fresh := fun (t : State) (st : List (BitVec 64 × Stamp)) =>
    ({ die := h, sector := sector, have_ := 0, dirty := 0, data := List.replicate 64 0, key := lineKey (t.storedKey sector) at'.key,
       poison := t.memPoison.contains sector, desc := at'.desc, stamps := st } : L2Sec)
  match s.sec h sector with
  | none => (s, fresh s [], false)
  | some x =>
    if paKind (sector * 64) = PaKind.hbm && x.key ≠ lineKey x.key at'.key then
      ((s.writeBack x).dropSec h sector, fresh (s.writeBack x) x.stamps, false)
    else (s, x, x.have_ ≠ 0)

/-- Whether what an access makes the home write back need not wait for tokens: a line under another key, and the line that an uncached write
is merged into (R59, R65, R143). -/
def State.homeFree (s : State) (at' : Attr) (write : Bool) (sector : Nat) : Bool :=
  (match s.sec (homeDie (sector * 64)) sector with
    | some x => x.key = lineKey x.key at'.key || s.backFree x
    | none => true) && (!write || at'.cp ≠ 2 || s.tokenFree sector (lineKey (s.storedKey sector) at'.key))

/-- Whether die e's slice may take a copy of a sector: one that is homed elsewhere, once the home has acknowledged the die's own writes to
its line (R59, R111). -/
def State.mayCopy (s : State) (e : Nat) (at' : Attr) (sector : Nat) : Bool :=
  at'.cp ≠ 2 && homeDie (sector * 64) ≠ e && !s.net.any fun r => r.src = e && !r.inval && !r.ext && r.sector / 4 = sector / 4

/-- The bytes of a sector that its home has to have for a read of some of them: all of them where the reader's slice takes a copy. -/
def State.wanted (s : State) (e : Nat) (at' : Attr) (sector : Nat) (m : BitVec 64) : BitVec 64 :=
  if s.mayCopy e at' sector then allBytes else m

/-- Whether a read of some bytes of a sector has to take them from behind the home slice (R58, R59, R143). -/
def State.mustFetch (s : State) (e : Nat) (at' : Attr) (sector : Nat) (m : BitVec 64) : Bool :=
  (s.copyHit e at' sector).isNone &&
    match s.sec (homeDie (sector * 64)) sector with
    | some x => x.key ≠ lineKey x.key at'.key || x.have_ &&& s.wanted e at' sector m ≠ s.wanted e at' sector m
    | none => true

/-- The bytes of a sector that its home holds, the missing ones taken from memory (R58). -/
def State.merged (s : State) (x : L2Sec) : List Byte :=
  (List.range 64).map fun i => if x.have_.getLsbD i then at_ 0 x.data i else s.storedByte x.key (x.sector * 64 + i)

/-- What a read of some bytes of a sector by an agent of die e leaves in the slices: the home fills what it lacks, and the reader's slice
takes a copy. An uncached read allocates in neither (R58, R59, R111, R143). -/
def State.fillSec (s : State) (e : Nat) (at' : Attr) (sector : Nat) (m : BitVec 64) : State :=
  let h := homeDie (sector * 64)
  let copy := s.mayCopy e at' sector
  let want := s.wanted e at' sector m
  if (s.copyHit e at' sector).isSome then s
  else
    let (t, x, present) := s.tagged at' sector
    let full := { x with have_ := allBytes, data := t.merged x }
    if at'.cp = 2 && !present then (if x.stamps = [] then t else t.setSec x)
    else
      let t := if x.have_ &&& want = want then t else (t.makeRoom h sector).setSec full
      if copy && (t.hasRoom e sector) then t.setSec { full with die := e, dirty := 0, owned := false } else t

/-! ### Epochs, stamps and marks (R106 to R110) -/

/-- Entry k of a die's vector. -/
def vcAt (v : List Nat) (k : Nat) : Nat := at_ 0 v k

/-- The newest closed epoch of die d of which every remote write has been acknowledged (R108). -/
def State.ackedEpoch (s : State) (d : Nat) : Nat :=
  (s.net.filter fun r => r.src = d).foldl (fun n r => min n (vcAt r.stamp d - 1)) (vcAt (s.die d).vc d - 1)

/-! ### Sources of flows (R133, R136, R138) -/

/-- Whether a flow carries what a die has to send. -/
def FlowTx.carries (f : FlowTx) (o : Outgoing) : Bool := f.dev = o.dev && f.die = o.die && f.ordered = o.ordered && f.sys = o.sys

/-- The flow that takes what a die has to send: the one in use, else the lowest free number, else an idle flow's number (R133; log entry
19). -/
def Die.flowFor (x : Die) (o : Outgoing) : Option FlowTx :=
  let new := fun (n : Nat) => ({ flow := n, dev := o.dev, die := o.die, ordered := o.ordered, sys := o.sys, next := 0, buf := [], naks := 0,
                                 hold := [] } : FlowTx)
  match x.tx.find? fun f => f.carries o with
  | some f => some f
  | none =>
    match (List.range (min 1024 (x.tx.length + 1))).find? fun n => !x.tx.any fun f => f.flow = n with
    | some n => some (new n)
    | none => (x.tx.find? fun f => f.buf = []).map fun f => new f.flow

/-- The die that owns a Bassar port: two of the sixteen ports to each (R1, R2). DESIGN CHOICE: ports are numbered die by die (log entry 117). -/
def portDie (n : Nat) : Nat := n / 2

/-- Whether a die may send new frames of a partition to other devices: a port of its that no other partition owns is up and does not retrain, or
where none of those is up, one of another die (R383, R384). -/
def State.mayTransmit (s : State) (d part : Nat) : Bool :=
  let up := (s.ports.zipIdx).filter fun (p : Port × Nat) => p.1.up && (p.1.owner.getD part = part)
  let mine := up.filter fun p => portDie p.2 = d
  (if mine = [] then up else mine).any fun p => !p.1.training

/-- A packet leaves a die (R133): on the links between the dies of the device, or through a Bassar port. -/
def State.launch_ (s : State) (d : Nat) (f : FlowTx) (p : Packet) : State :=
  match f.dev with
  | none => { s with wire := s.wire ++ [.data f.die p] }
  | some dev => s.emit (.packet d dev p)

/-- A source that has no packet of a flow left to acknowledge closes it (R133). -/
def State.closeTx (s : State) (d : Nat) (f : FlowTx) : State :=
  let s := s.modDie d fun x => { x with tx := x.tx.filter fun y => y.flow ≠ f.flow }
  match f.dev with
  | none => { s with wire := s.wire ++ [.close f.die d f.flow] }
  | some dev => s.emit (.flowClose d dev f.die f.flow)

/-- A flow that sends the new packets it may: at most 1,024 unacknowledged, none while an ordered flow waits for a refused packet or its ports
retrain (R133, R136, R383, R384). -/
def State.pump (s : State) (d flow : Nat) : State :=
  match (s.die d).tx.find? fun f => f.flow = flow with
  | none => s
  | some f =>
    let room := 1024 - (f.buf.filter (·.sent)).length
    let may := fun (r : Replay) => f.dev.isNone || s.mayTransmit d r.p.part
    let new := f.buf.filter fun r => !r.sent
    let go := (if !f.ordered then new.filter may else if f.hold ≠ [] then [] else new.takeWhile may).take room
    let f' := { f with buf := f.buf.map fun (r : Replay) => if go.contains r then { r with sent := true, due := s.gtime + 50000, timed := true } else r }
    let s := s.modDie d fun x => { x with tx := x.tx.map fun y => if y.flow = flow then f' else y }
    go.foldl (fun s r => s.launch_ d f r.p) s

/-- What a die has to send enters the replay buffer of its flow, or waits for a flow number (R133, R136). A number whose flow is idle is
closed and used again from SEQ 0. -/
def State.sendOut (s : State) (d : Nat) (o : Outgoing) : State :=
  match (s.die d).flowFor o with
  | none => s.modDie d fun x => { x with txq := x.txq ++ [o] }
  | some f =>
    let s := match (s.die d).tx.find? fun g => g.flow = f.flow && !g.carries o with
      | some g => s.closeTx d g
      | none => s
    let p := { o.p with
      sdev := if o.dev.isNone then 128 else Config.device
      sdie := d
      flow := f.flow
      seq := f.next
      mode := if o.ordered then 1 else 0 }
    let f := { f with next := (f.next + 1) % 2 ^ 24, buf := f.buf ++ [{ p := p, sent := false, due := 0, timed := false }] }
    (s.modDie d fun x => { x with tx := x.tx.filter (fun y => y.flow ≠ f.flow) ++ [f] }).pump d f.flow

/-- A packet without its flow's tag. -/
def packetOf (op : PktOp) (pa : Nat) (data : List Byte) (poison : Bool) (lkey part : Nat) : Packet :=
  { sdev := 0, sdie := 0, flow := 0, seq := 0, mode := 0, op := op, pa := pa, data := data, poison := poison, key := lkey, part := part }

/-- The ordered flow of a pair of dies that carries marks and close requests (R138). -/
def sysMsg (k : Nat) (op : PktOp) : Outgoing := { dev := none, die := k, ordered := true, sys := true, p := packetOf op 0 [] false 0 0 }

/-! ### Closing epochs (R107 to R110) -/

/-- The marks of die d that may be sent are sent to the seven other dies, in ascending order (R108). -/
def State.sendMarks (s : State) (d : Nat) : State :=
  let upto := s.ackedEpoch d
  let from_ := (s.die d).sent
  if upto ≤ from_ then s
  else
    let new := (List.range (upto - from_)).flatMap fun i => ((List.range 8).filter (· ≠ d)).map fun k => (k, from_ + 1 + i)
    new.foldl (fun t m => t.sendOut d (sysMsg m.1 (.mark m.2))) (s.modDie d fun x => { x with sent := upto })

/-- Die d closes its open epoch (R108). -/
def State.closeEpoch (s : State) (d : Nat) : State :=
  let s := s.modDie d fun x => { x with vc := x.vc.set d (vcAt x.vc d + 1), first := none }
  s.sendMarks d

/-- A merge of a stamp into die e's vector; a raising merge closes the open epoch (R107). -/
def State.mergeStamp (s : State) (e : Nat) (v : List Nat) : State :=
  let old := (s.die e).vc
  let new := (List.range 8).map fun k => if k = e then vcAt old k else max (vcAt old k) (vcAt v k)
  if new = old then s else (s.modDie e fun x => { x with vc := new }).closeEpoch e

/-- The stamps that a read returns merged into the die's vector (R107). -/
def State.mergeAll (s : State) (e : Nat) (v : List Stamp) : State := v.foldl (fun s x => s.mergeStamp e x.v) s

/-- Whether die e's marks satisfy the stamp (d, V) of a write (R109, R110). -/
def marksOk (x : Die) (e d : Nat) (v : List Nat) : Bool :=
  (d = e || vcAt v d - 1 ≤ vcAt x.marks d) &&
  (List.range 8).all fun k => k = d || k = e || vcAt v k ≤ vcAt x.marks k

/-- A close request of die e to die k for epoch n, unless k has closed it or one is on its way (R109). -/
def State.askEpoch (s : State) (e k n : Nat) : State :=
  let o := sysMsg k (.askClose n)
  if n < vcAt (s.die k).vc k || s.msgs.contains { src := e, dst := k, mark := false, n := n }
      || (s.die e).txq.contains o || (s.die e).tx.any (fun f => f.carries o && f.buf.any fun r => r.p.op = .askClose n) then s
  else s.sendOut e o

/-- Die e asks the dies whose epochs a stamp waits for to close them (R109). -/
def State.askClose (s : State) (e d : Nat) (v : List Nat) : State :=
  ((List.range 8).filter fun k =>
    k ≠ e && (if k = d then vcAt (s.die e).marks k < vcAt v k - 1 else vcAt (s.die e).marks k < vcAt v k)).foldl
      (fun t k => t.askEpoch e k (vcAt v k)) s

/-- Whether every write that die e's work may depend on is everywhere, as a fence asks (R110). -/
def State.allMarks (s : State) (e : Nat) : Bool :=
  (List.range 8).all fun k => k = e || vcAt (s.die e).vc k ≤ vcAt (s.die e).marks k

/-- The close requests of a fence that waits (R109, R110). -/
def State.askAll (s : State) (e : Nat) : State := s.askClose e e (s.die e).vc

/-! ### Writes -/

/-- A sector's data after bytes are written into it in order (R91: the last on one byte remains). -/
def overlay (data : List Byte) (bs : List (Nat × Byte)) : List Byte :=
  bs.foldl (fun d p => d.set p.1 p.2) data

/-- The runs of neighbouring bytes of a sector's written bytes, each with its first offset. -/
def runsOf (bs : List (Nat × Byte)) : List (Nat × List Byte) :=
  (List.range 64).foldl (fun acc i =>
    match (bs.filter fun p => p.1 = i).getLast? with
    | none => acc
    | some p =>
      match acc.getLast? with
      | some (a, r) => if a + r.length = i then acc.dropLast ++ [(a, r ++ [p.2])] else acc ++ [(i, [p.2])]
      | none => [(i, [p.2])]) []

/-- The device and the die of a peer address, and the address there (R18, R57). -/
def peerOf (pa : Nat) : Nat × Nat × Nat :=
  let off := (pa - 0x8000000000000) % 2 ^ 44
  ((pa - 0x8000000000000) / 2 ^ 44, homeDie off, off)

/-- A write to a peer device leaves the line's home die in a packet (R114, R136, R138). -/
def State.sendPacket (s : State) (d pa : Nat) (at' : Attr) (bs : List Byte) (poison : Bool) : State :=
  s.sendOut d { dev := some (peerOf pa).1, die := (peerOf pa).2.1, ordered := at'.ord,
                p := packetOf .write (peerOf pa).2.2 bs poison at'.lkey at'.part }

/-- What a write at its home sends out: packets to a peer, or the request for a line of host memory that the slice does not hold in a state
that permits a write (R112, R114; log entry 97). -/
def State.sendHome (s : State) (at' : Attr) (sector : Nat) (bs : List (Nat × Byte)) (poison owned : Bool) : State :=
  match paKind (sector * 64) with
  | .peer => (runsOf bs).foldl (fun s r => s.sendPacket (homeDie (sector * 64)) (sector * 64 + r.1) at' r.2 poison) s
  | .host => if owned then s else s.emit (.cxlOwn (homeDie (sector * 64)) sector)
  | .control | .onchip | .hbm | .reserved => s

/-- A sector after a write (R58, R107, R261, R405): an atomic's write goes on with the release that it read (R96). -/
def L2Sec.wrote (x : L2Sec) (at' : Attr) (bs : List (Nat × Byte)) (poison : Bool) (st : Stamp) : L2Sec :=
  { x with
    have_ := x.have_ ||| offsMask bs
    dirty := x.dirty ||| offsMask bs
    data := overlay x.data bs
    poison := if offsMask bs = allBytes then poison else x.poison || poison
    desc := at'.desc
    comp := at'.comp
    owned := paKind (x.sector * 64) = .host
    stamps := restamp x.stamps (offsMask bs) st }

/-- A write applied at its home slice (R58, R59, R88, R143, R261). One that may allocate no line, or finds no room, goes on to memory. -/
def State.homeWrite (s : State) (at' : Attr) (sector : Nat) (bs : List (Nat × Byte)) (poison : Bool) (st : Stamp) : State :=
  let h := homeDie (sector * 64)
  let (t, x, present) := s.tagged at' sector
  let y := x.wrote at' bs poison st
  let t := (if at'.cp = 2 then t else t.makeRoom h sector)
  let u := (t.setSec y).sendHome at' sector bs poison x.owned
  if at'.cp = 2 then (if present then u.writeBack y else u.evictHome y)
  else if t.hasRoom h sector then u else u.evictHome y

/-- The dies other than the home that hold a copy of a line. -/
def State.copyDies (s : State) (sector : Nat) : List Nat :=
  ((s.l2.filter fun x => x.sector / 4 = sector / 4 && x.die ≠ homeDie (sector * 64)).map (·.die)).eraseDups

/-- The home sends every copy holder an invalidation that carries the write's stamp (R106, R107, R111, R138). -/
def State.sendInvals (s : State) (sector origin : Nat) (v : List Nat) (parent : Nat) : State :=
  let h := homeDie (sector * 64)
  let ds := s.copyDies sector
  let new := ds.map fun d =>
    ({ src := origin, dst := d, stamp := v, sector := sector, bytes := [], poison := false, key := none, desc := false,
       inval := true, id := parent, here := false } : Remote)
  let s := ds.foldl (fun s d => s.sendOut h { dev := none, die := d, p := packetOf (.remote parent true) 0 [] false 0 0 })
    { s with net := s.net ++ new }
  if ds.isEmpty || origin ≠ h then s
  else s.modDie origin fun x => { x with first := some (x.first.getD s.gtime) }

/-- How a write operation reaches its homes: as a release's, whose stamp R405 names, and as one part of several that no observer may see
divided, under a number (R87). -/
structure Doing where
  rel : Bool := false
  op : Option Nat := none
  deriving DecidableEq, Repr

/-- A write that waits at its home or on its way there (R106, R107): it leaves with the die's vector. -/
def State.sendWrite (s : State) (e : Nat) (at' : Attr) (w : Doing) (sector : Nat) (bs : List (Nat × Byte)) (poison : Bool)
    (owner : Option Nat := none) : State :=
  let h := homeDie (sector * 64)
  let r : Remote := { src := e, dst := h, stamp := (s.die e).vc, sector := sector, bytes := bs, poison := poison,
                      key := at'.key, desc := at'.desc, comp := at'.comp, cp := at'.cp, ord := at'.ord, inval := false,
                      id := s.netSeq, rel := w.rel, op := w.op, here := h = e, owner := owner, lkey := at'.lkey, part := at'.part }
  let s := { s with net := s.net ++ [r], netSeq := s.netSeq + 1 }
  if h = e then s
  else
    (s.modDie e fun x => { x with first := some (x.first.getD s.gtime) }).sendOut e
      { dev := none, die := h, ordered := at'.ord, p := packetOf (.remote r.id false) 0 [] false 0 0 }

/-- A sector's bytes written by an agent of die e (R58, R89, R106, R107, R111). A write to a line homed on the die is performed at once, unless
it is part of one that leaves the die or an earlier one to the sector waits; one to a line homed elsewhere takes the die's copy of the line
away when it is issued. -/
def State.writeSector (s : State) (e : Nat) (at' : Attr) (w : Doing) (sector : Nat) (bs : List (Nat × Byte)) (poison : Bool) : State :=
  let h := homeDie (sector * 64)
  let v := (s.die e).vc
  if paKind (sector * 64) = PaKind.control then
    -- control space is held in no slice (R18, R57)
    { s with mem := bs.foldl (fun m p => put unwritten m (sector * 64 + p.1) p.2) s.mem }
  else if h = e then
    if w.op.isSome || !(s.ownWrites e sector).isEmpty || !s.homeFree at' true sector then s.sendWrite e at' w sector bs poison
    else
      ({ s with netSeq := s.netSeq + 1 }.homeWrite at' sector bs poison { die := e, v := v, rel := w.rel }).sendInvals sector e v s.netSeq
  else (s.dropLine e sector).sendWrite e at' w sector bs poison

/-- One byte written: its address, value and whether poison covers it. -/
structure ByteWrite where
  pa : Nat
  val : Byte
  poison : Bool := false
  deriving DecidableEq, Repr

/-- The sectors of some addresses, each once, in order of first mention. -/
def sectorsOf (pas : List Nat) : List Nat := (pas.map (· / 64)).eraseDups

/-- One write operation: all bytes of one warp instruction or one engine write (R91, R261). -/
def State.writeAll (s : State) (e : Nat) (at' : Nat → Attr) (w : Doing) (ws : List ByteWrite) : State :=
  (sectorsOf (ws.map (·.pa))).foldl (fun s k =>
    let mine := ws.filter fun w => w.pa / 64 = k
    s.writeSector e (at' k) w k (mine.map fun w => (w.pa % 64, w.val)) (mine.any (·.poison))) s

/-- An authoritative byte of memory, as its home gives it to the owner of the key under which it lies. -/
def State.byteAt (s : State) (pa : Nat) : Byte := s.homeByte none pa

/-- A little-endian number in memory as a privileged agent of die e reads it, and its poison. -/
def State.privRead (s : State) (e pa n : Nat) : Nat × Bool :=
  let r := s.readAt e {} pa n
  (ofBytes r.1, r.2)

/-- A little-endian number written by a privileged agent of die e. -/
def State.privWrite (s : State) (e pa n x : Nat) : State :=
  s.writeAll e (fun _ => {}) {}
    ((leBytes n x).zipIdx.map fun p => { pa := pa + p.2, val := p.1 })

/-! ### What an access waits for (R65, R161) -/

/-- Whether memory is another agent's: the host's or a peer's (R337). -/
def distant (sector : Nat) : Bool := paKind (sector * 64) = .host || paKind (sector * 64) = .peer

/-- A sector asked for: at a controller whose bucket is empty, from the host, or from a peer by a read packet that leaves the line's home
die (R65, R138, R161). -/
def State.request (s : State) (who : Asker) (at' : Attr) (tenant sector : Nat) : State :=
  if s.reqs.any fun q => q.who = who && q.sector = sector then s
  else
    let t := { s with reqs := s.reqs ++ [{ who := who, tenant := tenant, sector := sector, tag := s.netSeq }], netSeq := s.netSeq + 1 }
    let p := peerOf (sector * 64)
    if paKind (sector * 64) = .peer then
      t.sendOut (homeDie (sector * 64)) { dev := some p.1, die := p.2.1, ordered := at'.ord, p := packetOf (.read 64 s.netSeq) p.2.2 [] false at'.lkey at'.part }
    else t

/-- One sector that a read has to take from behind the home slice: whether it is there, and the state after it was asked for or paid for
(R65, R161). -/
def State.obtain (s : State) (who : Asker) (at' : Attr) (tenant sector : Nat) : Bool × State :=
  if s.reqs.any fun q => q.who = who && q.sector = sector && q.done then (true, s)
  else if distant sector then (false, s.request who at' tenant sector)
  else if !(s.bucketFor sector tenant).enforced then (true, s)
  else if s.tokenFree sector (some tenant) then
    (true, { s.spend sector (some tenant) with
      reqs := (s.reqs.filter fun q => !(q.who = who && q.sector = sector)) ++ [{ who := who, tenant := tenant, sector := sector, done := true }] })
  else (false, s.request who at' tenant sector)

/-- What an agent asked for and got is taken. -/
def State.takeReqs (s : State) (who : Asker) (sectors : List Nat) : State :=
  { s with reqs := s.reqs.filter fun q => !(q.who = who && q.done && sectors.contains q.sector) }

/-- The bytes of a read, sector by sector: how the access reaches each sector, and which of its bytes it reads. -/
def sectorReads (bs : List (Nat × Attr)) : List (Nat × Attr × BitVec 64) :=
  (sectorsOf (bs.map (·.1))).map fun k =>
    (k, ((bs.find? fun b => b.1 / 64 = k).map (·.2)).getD {}, bytesOf k (bs.map (·.1)))

/-- How a read of memory goes on: it has its bytes, it must be tried again, or it waits for memory of the host or a peer (R161). -/
inductive Came where
  | ready
  | again
  | distant
  deriving DecidableEq, Repr

/-- What a read by an agent does to the slices, `e` being the die that reads each sector (R58, R59, R65, R111, R143, R161): whatever it lacks is
asked for, and once nothing is lacking the slices are filled. An uncached read waits for an invalidation on its way to the die's copy
(R89). -/
def State.fetchBytes (s : State) (e : Nat → Nat) (who : Asker) (tenant : Nat) (bs : List (Nat × Attr)) : Came × State :=
  let rs := sectorReads bs
  let need := rs.filter fun r => s.mustFetch (e r.1) r.2.1 r.1 r.2.2
  if rs.any fun r => (r.2.1.cp = 2 && s.net.any fun x => x.inval && x.dst = e r.1 && x.sector / 4 = r.1 / 4) || !s.homeFree r.2.1 false r.1 then
    (.again, s)
  else
    let got := need.foldl (fun (acc : Came × State) r =>
      let o := acc.2.obtain who r.2.1 tenant r.1
      (if o.1 then acc.1 else if distant r.1 then .distant else if acc.1 = .distant then .distant else .again, o.2)) (.ready, s)
    match got.1 with
    | .ready => (.ready, rs.foldl (fun t r => t.fillSec (e r.1) r.2.1 r.1 r.2.2) (got.2.takeReqs who (rs.map (·.1))))
    | c => (c, got.2)

end Sys2Proof.Machine
end

