-- ==== Sys2Proof/Machine/Local.lean ====
section
/-! DEFINITION. Core-local storage: the register file with its owner tags (R37, R38, R41 to R44), uniform registers and masks, and the
SRAM of a core (R47 to R56). -/

namespace Sys2Proof.Machine

/-! ### SRAM with owner tags -/

/-- How an SRAM is tagged and poisoned: the tag granule and the poisoned unit in bytes, and whether a clean store of a whole unit
clears its poison (R37, R51, R54, R56). -/
structure Grain where
  tag : Nat
  unit : Nat
  clears : Bool
  deriving DecidableEq, Repr

/-- The scratchpad array (R37, R51). -/
def spGrain : Grain := ⟨64, 4, true⟩
/-- Accumulator memory (R37, R54). -/
def accGrain : Grain := ⟨64, 24576, false⟩
/-- Map-slot storage (R37, R56). -/
def slotGrain : Grain := ⟨4096, 4096, true⟩

/-- The owner tag of the granule that holds a byte. -/
def Store.tagAt (g : Grain) (t : Store) (a : Nat) : Option Nat := (t.owner.find? fun p => p.1 = a / g.tag).map (·.2)

/-- Whether a reader sees what a byte's granule holds (R38). -/
def Store.seen (g : Grain) (t : Store) (o : Option Nat) (a : Nat) : Bool := o.isSome && t.tagAt g a = o

/-- Whether a byte that no owner's tag covers lies in a unit, larger than a granule, of which the reader owns some granule: a tile's poison
covers every read of the tile, and no other owner's (R38, R54). -/
def Store.unitOf (g : Grain) (t : Store) (o : Option Nat) (a : Nat) : Bool :=
  g.tag < g.unit && o.isSome && (t.tagAt g a).isNone && t.owner.any fun p => p.1 * g.tag / g.unit = a / g.unit && some p.2 = o

/-- Bytes as a reader sees them, and their poison (R38, R51, R54, R56). -/
def Store.read (g : Grain) (t : Store) (o : Option Nat) (a n : Nat) : List Byte × Bool :=
  ((List.range n).map fun i => if t.seen g o (a + i) then get unwritten t.cells (a + i) else 0,
   (List.range n).any fun i => t.poison.contains ((a + i) / g.unit) && (t.seen g o (a + i) || t.unitOf g o (a + i)))

/-- Without the cells of a range. -/
def eraseCells (t : List Host.Cell) (a n : Nat) : List Host.Cell := t.filter fun p => p.1 < a || a + n ≤ p.1

/-- A granule taken by a writer: another owner's bytes and poison go (R38). A tile's poison is the physical tile's and stays (R54). -/
def Store.claim (g : Grain) (t : Store) (o : Option Nat) (k : Nat) : Store :=
  if t.tagAt g (k * g.tag) = o then t
  else
    { cells := eraseCells t.cells (k * g.tag) g.tag
      poison := if g.unit ≤ g.tag then t.poison.filter fun u => u * g.unit / g.tag ≠ k else t.poison
      owner := match o with
        | some x => insertAt (without t.owner k) k x
        | none => without t.owner k }

/-- The granules or units of size n that a range meets. -/
def spanOf (a len n : Nat) : List Nat :=
  if len = 0 then [] else (List.range ((a + len - 1) / n - a / n + 1)).map fun i => a / n + i

/-- A store of bytes, clean or poisoned, by an owner (R38, R51, R54, R56). -/
def Store.write (g : Grain) (t : Store) (o : Option Nat) (a : Nat) (bs : List Byte) (poison : Bool) : Store :=
  let t := (spanOf a bs.length g.tag).foldl (fun t k => t.claim g o k) t
  let units := spanOf a bs.length g.unit
  { t with
    cells := putBytes t.cells a bs
    poison :=
      if poison then units.foldl setInsert t.poison
      else if g.clears then
        units.foldl (fun p u => if a ≤ u * g.unit && (u + 1) * g.unit ≤ a + bs.length then setErase p u else p) t.poison
      else t.poison }

/-- Storage after an uncorrectable error strikes a unit (R51, R54, R56). -/
def Store.strike (t : Store) (u : Nat) : Store := { t with poison := setInsert t.poison u }

/-- Storage after a scan or reset wrote a range with no owner (R38). -/
def Store.scrub (g : Grain) (t : Store) (a n : Nat) : Store :=
  { cells := eraseCells t.cells a n
    poison := t.poison.filter fun u => (u + 1) * g.unit ≤ a || a + n ≤ u * g.unit
    owner := t.owner.filter fun p => (p.1 + 1) * g.tag ≤ a || a + n ≤ p.1 * g.tag }

/-! ### The register file -/

/-- A lane word from a value and a poison bit: poisoned data bits are zero (R43). -/
def LaneWord.of (v : W32) (p : Bool) : LaneWord := if p then { data := 0, poison := true } else { data := v }

/-- A uniform from a value and a poison bit (R212). -/
def KReg.of (v : W64) (p : Bool) : KReg := if p then { data := 0, poison := true } else { data := v }

/-- A lane of a physical row as an owner sees it (R38). -/
def Core.lane (c : Core) (o : Option Nat) (key l : Nat) : LaneWord :=
  let r := get {} c.rows key
  if o.isSome && r.owner = o then at_ {} r.lanes l else {}

/-- A core after an owner wrote a lane of a physical row (R38). -/
def Core.setLane (c : Core) (o : Option Nat) (key l : Nat) (x : LaneWord) : Core :=
  let r := get {} c.rows key
  let r := if r.owner = o then r else { owner := o }
  { c with rows := put {} c.rows key { r with lanes := r.lanes.set l x } }

/-! ### Rooms, groups and warps -/

/-- Room n of core c (R20). -/
def State.room (s : State) (c n : Nat) : Room := (s.core c).rooms.getD n {}
/-- The state with a room changed. -/
def State.modRoom (s : State) (c n : Nat) (f : Room → Room) : State :=
  s.modCore c fun x => { x with rooms := modifyAt x.rooms n f }
/-- The group in a room, or an empty one. -/
def State.group (s : State) (c n : Nat) : Group := (s.room c n).group.getD {}
/-- The state with the group of a room changed. -/
def State.modGroup (s : State) (c n : Nat) (f : Group → Group) : State :=
  s.modRoom c n fun x => { x with group := x.group.map f }
/-- The warp in a warp slot, if any. -/
def State.warp? (s : State) (c slot : Nat) : Option Warp := get none (s.core c).warps slot
/-- The warp in a warp slot, or an empty one. -/
def State.warp (s : State) (c slot : Nat) : Warp := (s.warp? c slot).getD {}
/-- The state with a warp slot's warp replaced. -/
def State.setWarp (s : State) (c slot : Nat) (w : Warp) : State :=
  s.modCore c fun x => { x with warps := put none x.warps slot (some w) }
/-- The state with the warp of a slot changed. -/
def State.modWarp (s : State) (c slot : Nat) (f : Warp → Warp) : State :=
  match s.warp? c slot with
  | some w => s.setWarp c slot (f w)
  | none => s
/-- The live split that a reference names. -/
def State.split? (s : State) (r : SplitRef) : Option Split := (s.warp? r.core r.slot).bind fun w => w.splits.getD r.split none
/-- The group that a warp belongs to. -/
def State.groupOf (s : State) (c slot : Nat) : Group := s.group c (s.warp c slot).room

/-- The row of vN of the warp in a slot (R19, R41, R42). -/
def rowOf (slot n : Nat) : Nat := slot * 256 + n

/-- Lane l of vN of a warp (R38, R43). -/
def State.vreg (s : State) (c slot n l : Nat) : LaneWord :=
  (s.core c).lane (some (s.groupOf c slot).owner) (rowOf slot n) l

/-- The state after lane l of vN of a warp is written. -/
def State.setVreg (s : State) (c slot n l : Nat) (x : LaneWord) : State :=
  s.modCore c fun k => k.setLane (some (s.groupOf c slot).owner) (rowOf slot n) l x

/-- A warp after one result is written to a register that is not a vector register. -/
def Warp.write (w : Warp) (r : RegWrite) : Warp :=
  match r with
  | .v _ _ _ => w
  | .k n x => { w with uni := w.uni.set n x }
  | .m n x => if n = 0 then w else { w with masks := w.masks.set n x }
  | .mbit n l b =>
    if n = 0 then w
    else { w with masks := modifyAt w.masks n fun m =>
             if b then m ||| BitVec.ofNat 32 (2 ^ l) else m &&& ~~~ (BitVec.ofNat 32 (2 ^ l)) }
  | .ix l x => { w with ix := w.ix.set l x }
  | .flags f => { w with wflags := w.wflags ||| f.setWidth 32 }
  | .empty e => { w with wflags := if e then w.wflags ||| 0x20 else w.wflags &&& 0xFFFFFFDF }
  | .act _ _ _ => w

/-- A table after a load of an image into its other bank (R243). -/
def ActTable.load (t : ActTable) (b : ActBank) : ActTable :=
  if t.sel then { t with bank0 := b, sel := false, count := t.count + 1, loaded := true }
  else { t with bank1 := b, sel := true, count := t.count + 1, loaded := true }

/-- The number that `actld` and `actinfo` write: load count and current bank (R243, R245). -/
def ActTable.word (t : ActTable) (info : Bool) : W64 :=
  BitVec.ofNat 64 (t.count % 2 ^ 32 * 2 ^ 32 + (if info && t.loaded then 2 else 0) + (if t.sel then 1 else 0))

/-- Table n of a room. -/
def State.table (s : State) (c room n : Nat) : ActTable := at_ {} (s.room c room).acts n

/-- The flip of a table, performed when its uniform is written (R243, R246). -/
def State.flipTable (s : State) (c slot n : Nat) (b : ActBank) (d : Nat) : State :=
  let room := (s.warp c slot).room
  let t := (s.table c room n).load b
  (s.modRoom c room fun r => { r with acts := r.acts.set n t }).modWarp c slot fun w => w.write (.k d { data := t.word false })

/-- The state after one result of a warp is written (R189). -/
def State.writeReg (s : State) (c slot : Nat) (r : RegWrite) : State :=
  match r with
  | .v n l x => s.setVreg c slot n l x
  | .act n b d => s.flipTable c slot n b d
  | _ => s.modWarp c slot fun w => w.write r

/-- The state after results of a warp are written, in order. -/
def State.writeRegs (s : State) (c slot : Nat) (rs : List RegWrite) : State := rs.foldl (fun s r => s.writeReg c slot r) s

/-- Lane mask with one lane. -/
def bitOf (l : Nat) : LaneMask := BitVec.ofNat 32 (2 ^ l)

/-- Whether a result is a new value of E. -/
def RegWrite.isE : RegWrite → Bool
  | .empty _ => true
  | _ => false

/-- The entries of a warp after those that satisfy a test had their results written: they close, or with `keep` their windows stay open.
Of two instructions that write E the one that issued later decides, so that an older one's E is not to be written any more (R231). The
Bool says whether an entry of the list wrote E. -/
def written (p : Pending → Bool) (keep : Bool) : List Pending → Bool × List Pending
  | [] => (false, [])
  | x :: rest =>
    let (e, t) := written p keep rest
    if p x then (e || x.writes.any (·.isE), if keep then { x with writes := [] } :: t else t)
    else (e, (if e then { x with writes := x.writes.filter fun r => !r.isE } else x) :: t)

/-- Results of the entries of a warp that satisfy a test are written, oldest first (R189). -/
def State.writePend (s : State) (c slot : Nat) (p : Pending → Bool) (keep : Bool) : State :=
  let w := s.warp c slot
  let s := s.writeRegs c slot ((w.pend.filter p).flatMap (·.writes))
  s.modWarp c slot fun w => { w with pend := (written p keep w.pend).2 }

/-- Pending results of a warp that satisfy a test are written, oldest first, and their windows close (R189, R191, R339). -/
def State.drain (s : State) (c slot : Nat) (p : Pending → Bool) : State := s.writePend c slot p false

/-- Pending results of a warp are written while the windows stay open (R190). -/
def State.land (s : State) (c slot : Nat) (p : Pending → Bool) : State := s.writePend c slot p true

/-- Whether an entry still has results to write. -/
def Pending.unwritten (p : Pending) : Bool := p.writes ≠ []

/-- A `wrsr` of sr.wflags decides over what earlier instructions of the warp have not written yet (R231). -/
def Warp.supersede (w : Warp) : Warp :=
  { w with pend := w.pend.map fun p => { p with writes := p.writes.filter fun r => match r with
      | .flags _ | .empty _ => false
      | _ => true } }

end Sys2Proof.Machine
end

