-- ==== Sys2Proof/Machine/Split.lean ====
section
/-! DEFINITION. Splits and the reconvergence stack: divergence, arrival, pending paths and exit (R147 to R152). -/

namespace Sys2Proof.Machine

/-- One path of a branch: its next PC and its lanes (R148). -/
structure Path where
  target : W64
  lanes : LaneMask
  deriving DecidableEq, Repr

/-- Paths in ascending target order with one more lane in its place. -/
def addLane (ps : List Path) (t : W64) (l : Nat) : List Path :=
  match ps with
  | [] => [⟨t, bitOf l⟩]
  | p :: r =>
    if p.target = t then { p with lanes := p.lanes ||| bitOf l } :: r
    else if t.toInt < p.target.toInt then ⟨t, bitOf l⟩ :: p :: r
    else p :: addLane r t l

/-- One path for each distinct next PC of the lanes of a mask, in ascending target order (R148). -/
def pathsOf (m : LaneMask) (f : Nat → W64) : List Path := (lanesOf m).foldl (fun ps l => addLane ps (f l) l) []

/-- The split in a slot. -/
def Warp.split (w : Warp) (i : Nat) : Option Split := w.splits.getD i none

/-- The split slots that are free, lowest first. -/
def Warp.freeSlots (w : Warp) : List Nat := (List.range 4).filter fun i => (w.split i).isNone

/-- The nesting counter of a mask's lanes (R147: all lanes of a split have equal counters). -/
def Warp.nestOf (w : Warp) (m : LaneMask) : Nat := match lowest m with
  | some l => at_ 0 w.nest l
  | none => 0

/-- The warp with a split put into a slot that was free; `came` is the offset from which control reached it (R219). -/
def Warp.fill (w : Warp) (i : Nat) (x : Split) (came : W64) : Warp :=
  { w with
    splits := w.splits.set i (some x)
    block := w.block.set i {}
    age := w.age.set i 0
    came := w.came.set i came
    -- a path of lanes that the handler does not run stays stopped (R346)
    stopped := w.stopped.set i (w.handler && x.mask &&& ~~~w.hsave.mask ≠ 0) }

/-- The warp with a slot freed. -/
def Warp.free (w : Warp) (i : Nat) : Warp :=
  { w with splits := w.splits.set i none, block := w.block.set i {}, age := w.age.set i 0, stopped := w.stopped.set i false }

/-- A new split in the lowest free slot, or the newest PATH entry when there is none (R149, R152). -/
def Warp.place (w : Warp) (x : Split) (came : W64) : Warp :=
  if x.mask = 0 then w
  else
    match w.freeSlots with
    | i :: _ => w.fill i x came
    | [] => { w with stack := { join := false, pc := x.pc, mask := x.mask, arrived := 0, ra := x.ra, nest := w.nestOf x.mask,
                                pend := x.pend } :: w.stack }

/-- The position of the newest entry that satisfies a test. -/
def newest (st : List StackEntry) (p : StackEntry → Bool) : Option Nat := st.findIdx? p

/-- The JOIN entry at which a split that stands at its RA arrives (R149). -/
def Warp.joinOf (w : Warp) (x : Split) : Option Nat :=
  match x.ra with
  | some ra =>
    if x.pc = ra then newest w.stack fun j => j.join && j.pc = ra && j.nest = w.nestOf x.mask && x.mask &&& ~~~j.mask = 0
    else none
  | none => none

/-- A split arrives: its lanes enter ARRIVED and its slot is freed (R149). -/
def Warp.arrive (w : Warp) (i j : Nat) (m : LaneMask) : Warp :=
  { w.free i with stack := modifyAt w.stack j fun e => { e with arrived := e.arrived ||| m } }

/-- Nesting counters with a function applied to the lanes of a mask. -/
def nestMap (n : List Nat) (m : LaneMask) (f : Nat → Nat) : List Nat :=
  n.zipIdx.map fun (p : Nat × Nat) => if m.getLsbD p.2 then f p.1 else p.1

/-- A JOIN entry whose lanes have all arrived leaves the stack and becomes a split (R149, R152). -/
def Warp.complete (w : Warp) (j : Nat) (came : W64) : Warp :=
  match w.stack[j]? with
  | some e =>
    let w := { w with
      stack := w.stack.eraseIdx j
      nest := nestMap w.nest e.mask (· - 1) }
    w.place { pc := e.pc, mask := e.mask, ra := e.ra } came
  | none => w

/-- The newest PATH entry becomes a split (R150). -/
def Warp.popPath (w : Warp) (j : Nat) (came : W64) : Warp :=
  match w.stack[j]? with
  | some e => { w with stack := w.stack.eraseIdx j }.place { pc := e.pc, mask := e.mask, ra := e.ra, pend := e.pend } came
  | none => w

/-- A split that arrives, with the JOIN entry it arrives at: lowest slot first. -/
def Warp.arriving (w : Warp) : Option (Nat × Nat × LaneMask) :=
  (List.range 4).findSome? fun i =>
    match w.split i with
    | some x => (w.joinOf x).map fun j => (i, j, x.mask)
    | none => none

/-- Completions, arrivals and pending paths until none is left (R149, R150). Each round takes an entry off the stack or frees a slot. DESIGN
CHOICE: a path that stands at its RA when it leaves the stack arrives before the next one leaves (log entry 107). -/
def Warp.settleIn (fuel : Nat) (w : Warp) (came : W64) : Warp :=
  match fuel with
  | 0 => w
  | n + 1 =>
    match newest w.stack fun e => e.join && e.arrived = e.mask with
    | some j => Warp.settleIn n (w.complete j came) came
    | none =>
      match w.arriving with
      | some (i, j, m) => Warp.settleIn n (w.arrive i j m) came
      | none =>
        if w.freeSlots = [] then w
        else
          match newest w.stack fun e => !e.join with
          | some j => Warp.settleIn n (w.popPath j came) came
          | none => w

/-- The warp once every split at its RA has arrived and every path that can run is a split (R149, R150). -/
def Warp.settle (w : Warp) (came : W64) : Warp := Warp.settleIn (3 * w.stack.length + 9) w came

/-- Why a split cannot divide (R148). -/
inductive DivideError where
  | nest (lanes : LaneMask)
  | rsovf
  deriving DecidableEq, Repr

/-- Diverge of R148. `usePend` is true for a branch; a search instruction pushes no JOIN and copies PEND (R310). -/
def Warp.diverge (w : Warp) (i : Nat) (ps : List Path) (usePend : Bool) (came : W64) : Except DivideError Warp :=
  match w.split i, ps with
  | some x, [p] =>
    .ok { w with splits := w.splits.set i (some { x with pc := p.target, pend := if usePend then none else x.pend })
                 came := w.came.set i came }
  | some x, p :: rest =>
    let join := usePend && x.pend.isSome
    let hot := maskOf fun l => lane x.mask l && at_ 0 w.nest l = 255
    let extra := rest.length - w.freeSlots.length
    if join && hot ≠ 0 then .error (.nest hot)
    else if w.stack.length + (if join then 1 else 0) + extra > 4096 then .error .rsovf
    else
      let n := w.nestOf x.mask
      let w := if join then
          { w with
            stack := { join := true, pc := x.pend.getD 0, mask := x.mask, arrived := 0, ra := x.ra, nest := n + 1 } :: w.stack
            nest := nestMap w.nest x.mask (· + 1) }
        else w
      let ra := if join then x.pend else x.ra
      let pend := if usePend then none else x.pend
      let w := { w with splits := w.splits.set i (some { pc := p.target, mask := p.lanes, ra := ra, pend := pend })
                        came := w.came.set i came }
      -- paths that find a slot, lowest slot first; the others go to the stack in descending target order
      let k := w.freeSlots.length
      let w := (rest.take k).foldl (fun w q => w.place { pc := q.target, mask := q.lanes, ra := ra, pend := pend } came) w
      .ok { w with stack := (rest.drop k).map (fun q =>
              { join := false, pc := q.target, mask := q.lanes, arrived := 0, ra := ra, nest := w.nestOf q.lanes, pend := pend })
              ++ w.stack }
  | _, _ => .ok w

/-- An entry whose lanes are those of a mask (R152). -/
def StackEntry.keep (e : StackEntry) (m : LaneMask) : StackEntry := { e with mask := e.mask &&& m, arrived := e.arrived &&& m }

/-- Lanes leave a warp for good: every split, every entry, and RMASK of the search region (R152, R321). -/
def Warp.exitLanes (w : Warp) (m : LaneMask) (came : W64) : Warp :=
  let keep : LaneMask := ~~~m
  let w : Warp := (List.range 4).foldl (fun (w : Warp) i =>
    match w.split i with
    | some x => if x.mask &&& keep = 0 then w.free i else { w with splits := w.splits.set i (some { x with mask := x.mask &&& keep }) }
    | none => w) w
  let rmask := (w.satchel.toNat / 2 ^ 32) &&& keep.toNat
  let low := if rmask = 0 then w.satchel &&& 0xFFFFFFFC else w.satchel &&& 0xFFFFFFFF
  let w := { w with
    stack := (w.stack.map fun (e : StackEntry) => e.keep keep).filter fun e => e.join || e.mask ≠ 0
    satchel := if w.satchel.getLsbD 0 then BitVec.ofNat 64 (rmask * 2 ^ 32) ||| low else w.satchel }
  w.settle came

/-- The lanes of a warp that have not exited (R152). -/
def Warp.liveLanes (w : Warp) : LaneMask :=
  let a := w.splits.foldl (fun m x => m ||| (x.map (·.mask)).getD 0) (0 : LaneMask)
  w.stack.foldl (fun m e => m ||| (if e.join then e.arrived else e.mask)) a

end Sys2Proof.Machine
end

