-- ==== Sys2Proof/Machine/Translate.lean ====
section
/-! DEFINITION. Translation of global addresses: the two-stage walk (R23 to R32, R403), what an agent holds of earlier walks, the miss
queues (R33), and owner keys (R35, R36). -/

namespace Sys2Proof.Machine

/-- What an access does, as the access word of R343 codes it. -/
inductive AccKind where
  | read | write | fetch | rmw
  deriving DecidableEq, Repr

/-- Whether the access writes. -/
def AccKind.writes : AccKind → Bool
  | .write | .rmw => true
  | .read | .fetch => false

/-- Bits [5:4] of the access word (R343). -/
def AccKind.code : AccKind → Nat
  | .read => 0
  | .write => 1
  | .fetch => 2
  | .rmw => 3

/-- A translation fault: cause, walk level, stage 2, KEY, and its place in the order in which a walk meets its causes (R257, R343). -/
structure TrFault where
  cause : Nat
  level : Nat
  s2 : Bool := false
  key : Nat := 0
  rank : Nat := 0
  deriving DecidableEq, Repr

/-- What an agent gets for one address. -/
inductive Tr where
  | ok (pa : Nat) (at' : Attr)
  | miss
  | fault (f : TrFault)
  | poison
  deriving DecidableEq, Repr

/-- Agent number of a core's lanes and fetches. -/
def coreAgent (c : Nat) : Nat := c
/-- Agent number of a core's engines. -/
def engineAgent (c : Nat) : Nat := 64 + c
/-- Agent number of a die's host-link agent. -/
def hostAgent (d : Nat) : Nat := 128 + d

/-- Whether an address is canonical (R16). -/
def canonical (va : Nat) : Bool := va / 2 ^ 56 = 0 || va / 2 ^ 56 = 0xFF

/-- Place of a cause at a level: the table's own stage-2 lookup, the entry, its permissions, the final stage-2 lookup, the leaf's
target, its key (R257). -/
def rankOf (level place : Nat) : Nat := (6 - level) * 16 + place

/-- Level at which a page of a size is mapped (R25). -/
def levelOf (size : Nat) : Nat := if size = 0x40000000 then 3 else if size = 0x200000 then 2 else 1

/-- Bit n of a table entry. -/
def tbit (e : Nat) (n : Nat) : Bool := e / 2 ^ n % 2 = 1

/-- The device key slot of an access through a leaf (R35): none where no slot applies, an error where KEY is refused. -/
def State.keyOf (s : State) (part key pa : Nat) : Except Unit (Option Nat) :=
  match paKind pa with
  | .hbm =>
    match get none s.keyMap (part * 128 + key) with
    | some slot => if s.keySlots.getD slot .empty = KeySlot.live then .ok (some slot) else .error ()
    | none => .error ()
  | .peer => if Config.peerGrants part key then .ok none else .error ()
  | _ => .ok none

/-- Whether a leaf and its stage-2 entry permit an access, and how it reaches memory (R11, R17, R27, R31, R35, R262). -/
def State.leafCheck (s : State) (t : Tlb) (k : AccKind) (u : LeafUse) (user : Bool) (pa : Nat) : Except TrFault Attr :=
  let e := t.entry.toNat
  let l := levelOf t.size
  let key := field e 58 52
  let priv := u = LeafUse.lanePrivate
  if ((priv || u = LeafUse.plain) && tbit e 7) || (u = LeafUse.described && !tbit e 7) then .error { cause := 0x13, level := l, rank := rankOf l 5 }
  else if (user && !tbit e 4) || ((k.writes || priv) && !tbit e 2) || (k = AccKind.fetch && !tbit e 3) then
    .error { cause := 0x14, level := l, rank := rankOf l 6 }
  else if ((k.writes || priv) && !t.w2) || (k = AccKind.fetch && !t.x2) then
    .error { cause := 0x19, level := l, s2 := true, rank := rankOf l 10 }
  else if (paKind pa = PaKind.host || paKind pa = PaKind.peer) && (tbit e 7 || tbit e 8) then
    .error { cause := 0x13, level := l, rank := rankOf l 11 }
  else
    match s.keyOf t.part key pa with
    | .error _ => .error { cause := 0x15, level := l, key := key, rank := rankOf l 12 }
    | .ok slot => .ok { key := slot, desc := tbit e 7, comp := tbit e 8, cp := field e 6 5, psn := tbit e 9, lkey := key, part := t.part }

/-- What the walk that an asker wanted refused it (R33, R403), if it did. -/
def State.refusal (s : State) (who : Asker) (asid va : Nat) (k : AccKind) : Option Tr :=
  (s.walked.find? fun w => w.who = who && w.asid = asid && w.va = va / 4096 && w.write = k.writes
      && w.fetch = decide (k = AccKind.fetch)).map fun w =>
    if w.poison then .poison
    else .fault { cause := w.cause, level := w.level, s2 := w.s2, key := w.key, rank := w.rank }

/-- A translation as an agent gets it: from what it holds, from a walk's refusal, or by a miss (R33). A write through a held leaf whose M the
agent has not seen set is walked for again, and that walk may refuse it (R32). -/
def State.lookup (s : State) (agent : Nat) (who : Asker) (asid va : Nat) (k : AccKind) (u : LeafUse) (user : Bool) : Tr :=
  if !canonical va then .fault { cause := 0x10, level := 0, rank := 0 }
  else
    match s.tlb.find? fun t => t.agent = agent && t.asid = asid && t.va ≤ va && va < t.va + t.size with
    | some t =>
      let pa := t.pa + (va - t.va)
      match s.leafCheck t k u user pa with
      | .error f => .fault f
      | .ok a => if k.writes && !t.m then (s.refusal who asid va k).getD .miss else .ok pa a
    | none => (s.refusal who asid va k).getD .miss

/-! ### The walk -/

/-- A table entry as the walker reads it, and its poison. -/
def State.entryAt (s : State) (pa : Nat) : Nat × Bool :=
  (ofBytes ((List.range 8).map fun i => s.homeByte none (pa + i)), s.homePoison pa)

/-- Whether an invalidation in progress names a partition-map entry (R139): it is not used for new translations (R140). -/
def State.mapStale (s : State) (part granule : Nat) : Bool :=
  match s.inval with
  | some v => (match v.i with
    | .ipa p lo len => p = part && lo < (granule + 1) * 2 ^ 30 && granule * 2 ^ 30 < lo + len
    | .range _ _ _ | .asid _ => false)
  | none => false

/-- A partition-map entry as the walkers of a die find it: in the die's partition-map cache, or in memory (R29, R33), and its poison. -/
def State.mapEntry (s : State) (d part ipa : Nat) : Nat × Bool :=
  let g := field ipa 47 30
  match if s.mapStale part g then none else (s.die d).maps.find? fun m => m.part = part && m.granule = g with
  | some m => (m.entry, false)
  | none => s.entryAt (get 0 s.pmap part + g * 8)

/-- A stage-2 lookup by a die (R29, R30): physical address with W and X; an error names the cause, or none for a poisoned entry (R403). -/
def State.stage2 (s : State) (d part ipa : Nat) : Except (Option Nat) (Nat × Bool × Bool) :=
  let r := s.mapEntry d part ipa
  let e := r.1
  let frame := field e 51 30 * 2 ^ 30
  let kind := paKind frame
  if r.2 then .error none
  else if !tbit e 0 then .error (some 0x16)
  else if field e 63 52 ≠ 0 || field e 29 3 ≠ 0 then .error (some 0x17)
  else if kind = PaKind.control || kind = PaKind.onchip || kind = PaKind.reserved then .error (some 0x18)
  else .ok (frame + ipa % 2 ^ 30, tbit e 1, tbit e 2)

/-- A die's partition-map cache keeps the entry of an IPA that is in order (R33). -/
def State.keepMap (s : State) (d part ipa : Nat) : State :=
  let g := field ipa 47 30
  match s.stage2 d part ipa with
  | .error _ => s
  | .ok _ =>
    let e := (s.mapEntry d part ipa).1
    s.modDie d fun x => { x with maps := x.maps.filter (fun m => !(m.part = part && m.granule = g)) ++ [{ part := part, granule := g, entry := e }] }

/-- How a walk ends. -/
inductive Walk where
  | found (t : Tlb)
  | fault (f : TrFault)
  | poison
  deriving DecidableEq, Repr

/-- What a stage-2 refusal gives a walk. -/
def s2End (c : Option Nat) (level place : Nat) : Walk :=
  match c with
  | none => .poison
  | some c => .fault { cause := c, level := level, s2 := true, rank := rankOf level (place + (c - 0x16)) }

/-- Whether a stage-1 entry breaks R27 at a level. -/
def malformed (e level size : Nat) : Bool :=
  let leaf := tbit e 1
  field e 63 60 ≠ 0 || field e 51 48 ≠ 0 || (leaf && 4 ≤ level) || (!leaf && level = 1) ||
  (leaf && (field e 6 5 = 3 || (tbit e 59 && level ≠ 1) || field e 51 12 * 4096 % size ≠ 0))

/-- The size of a leaf at a level (R25). -/
def leafSize (level : Nat) (s64 : Bool) : Nat :=
  if level = 3 then 0x40000000 else if level = 2 then 0x200000 else if s64 then 0x10000 else 4096

/-- A walk on a die from a level on; `ipa` is the table of that level (R25 to R30). `agent` is whose the translation will be, and `seen`
the IPAs looked up so far. -/
def State.walkFrom (s : State) (d agent asid va part : Nat) (levels : List Nat) (ipa : Nat) (seen : List Nat) : Walk × List Nat :=
  match levels with
  | [] => (.poison, seen)
  | l :: rest =>
    let seen := seen ++ [ipa]
    match s.stage2 d part ipa with
    | .error c => (s2End c l 0, seen)
    | .ok (tpa, _, _) =>
      let idx := va / 2 ^ (3 + 9 * l) % 512
      let own := s.entryAt (tpa + idx * 8)
      let first := s.entryAt (tpa + (idx - idx % 16) * 8)
      let run := l = 1 && tbit first.1 59
      let epa := if run then tpa + (idx - idx % 16) * 8 else tpa + idx * 8
      let e := if run then first.1 else own.1
      if (l = 1 && first.2) || (if run then first.2 else own.2) then (.poison, seen)
      else if !tbit e 0 then (.fault { cause := 0x12, level := l, rank := rankOf l 4 }, seen)
      else if malformed e l (leafSize l run) then (.fault { cause := 0x13, level := l, rank := rankOf l 5 }, seen)
      else
        let out := field e 51 12 * 4096
        if !tbit e 1 then s.walkFrom d agent asid va part rest out seen
        else
          let size := leafSize l run
          match s.stage2 d part out with
          | .error c => (s2End c l 7, seen ++ [out])
          | .ok (pa, w, x) =>
            (.found { agent := agent, asid := asid, va := va - va % size, size := size, pte := epa, entry := BitVec.ofNat 64 e,
                      ipa := out, pa := pa, part := part, w2 := w, x2 := x, m := tbit e 11 }, seen ++ [out])

/-- The walk of an address under an ASID by a die's walkers (R24, R25): how it ends, and the partition with the IPAs it looked up. -/
def State.walk (s : State) (d agent asid va : Nat) : Walk × Nat × List Nat :=
  let r := s.entryAt (s.asidBase + asid * 8)
  let part := field r.1 6 1
  if asid = 0 then (.fault { cause := 0x11, level := 0, rank := 1 }, part, [])
  else if r.2 then (.poison, part, [])
  else if !tbit r.1 0 then (.fault { cause := 0x11, level := 0, rank := 1 }, part, [])
  else
    let w := s.walkFrom d agent asid va part [5, 4, 3, 2, 1] (field r.1 47 12 * 4096) []
    (w.1, part, w.2)

/-- The entry of a leaf rewritten with A, and M for a write (R32). -/
def State.markLeaf (s : State) (t : Tlb) (write : Bool) : State × Tlb :=
  let e := t.entry ||| 0x400 ||| (if write then 0x800 else 0)
  let t' := { t with entry := e, m := t.m || write }
  if e = t.entry then (s, t')
  else
    let h := homeDie t.pte
    let k := t.pte / 64
    let bs := (leBytes 8 e.toNat).zipIdx.map fun p => (t.pte % 64 + p.2, p.1)
    (({ s with netSeq := s.netSeq + 1 }.homeWrite {} k bs false { die := h, v := (s.die h).vc }).sendInvals k h (s.die h).vc s.netSeq, t')

/-! ### The miss queues (R33) -/

/-- The die that serves an asker. -/
def Asker.die : Asker → Nat
  | .split r => dieOf r.core
  | .job c _ => dieOf c
  | .mx c _ => dieOf c
  | .host d => d

/-- The agent whose translation caches an asker uses. -/
def Asker.agent : Asker → Nat
  | .split r => coreAgent r.core
  | .job c _ => engineAgent c
  | .mx c _ => engineAgent c
  | .host d => hostAgent d

/-- A requester's place in the round-robin of its die (R33). -/
def Asker.turn : Asker → Nat
  | .split r => r.core % 8
  | .job c _ => 8 + c % 8
  | .mx c _ => 8 + c % 8
  | .host _ => 16

/-- A miss enters its die's queue, or joins one for the same ASID and page; a full queue leaves the requester waiting (R33). -/
def State.askWalk (s : State) (w : Wanted) (asid va : Nat) : State :=
  s.modDie w.who.die fun d =>
    let same := fun (m : Miss) => m.asid = asid && m.va = va / 4096
    if d.missq.any same then
      { d with missq := d.missq.map fun m => if same m && !m.who.contains w then { m with who := m.who ++ [w] } else m }
    else if d.missq.length < 512 then { d with missq := d.missq ++ [{ asid := asid, va := va / 4096, who := [w] }] }
    else d

/-- A requester's place in the round-robin, for the requester that a miss belongs to: the first of those that wait for it. -/
def Miss.turn (m : Miss) : Nat := (m.who.head?.map (·.who.turn)).getD 0

/-- The miss that a die's walkers take next: round-robin among requesters, each requester's in arrival order (R33). -/
def Die.nextMiss (d : Die) : Option Miss :=
  let dist := fun (m : Miss) => (m.turn + 16 - d.served) % 17
  d.missq.foldl (fun best m =>
    match best with
    | none => some m
    | some b => if dist m < dist b then some m else some b) none

/-- The access that an agent waits for. -/
def Wanted.kind (w : Wanted) : AccKind := if w.write then .write else if w.fetch then .fetch else .read

/-- A walk's refusal as it will be met (R33, R403). -/
def Miss.refused (m : Miss) (w : Wanted) (f : TrFault) (p : Bool) : Answer :=
  { who := w.who, asid := m.asid, va := m.va, write := w.write, fetch := w.fetch, cause := f.cause, level := f.level, s2 := f.s2,
    key := f.key, rank := f.rank, poison := p }

/-- A translation kept by an agent, in place of an older one of the same page. -/
def State.keepTlb (s : State) (t : Tlb) : State :=
  { s with tlb := (s.tlb.filter fun x => !(x.agent = t.agent && x.asid = t.asid && x.va = t.va && x.size = t.size)) ++ [t] }

/-- The answer of a walk that found a leaf: each requester meets its own refusal or is given the translation, with A set once any may use
the leaf, and M once any of them writes (R32, R33). -/
def State.answerWalk (s : State) (m : Miss) (t : Tlb) : State :=
  let pa := t.pa + (m.va * 4096 - t.va)
  let test := m.who.map fun w => (w, s.leafCheck t w.kind w.leaf w.user pa)
  let good := test.filterMap fun p => match p.2 with
    | .ok _ => some p.1
    | .error _ => none
  let bad := test.filterMap fun p => match p.2 with
    | .ok _ => none
    | .error f => some (m.refused p.1 f false)
  let s := { s with walked := s.walked ++ bad }
  if good = [] then s
  else
    let (s, t) := s.markLeaf t (good.any (·.write))
    ((good.map (·.who.agent)).eraseDups).foldl (fun s a => s.keepTlb { t with agent := a }) s

/-- One walk of a die (R33): the miss leaves the queue, and those who wait find a translation or a refusal. -/
def State.pageWalk (s : State) (d : Nat) : State :=
  match (s.die d).nextMiss with
  | none => s
  | some m =>
    let s := s.modDie d fun x => { x with missq := x.missq.erase m, served := m.turn }
    let w := s.walk d ((m.who.head?.map (·.who.agent)).getD 0) m.asid (m.va * 4096)
    let s := w.2.2.foldl (fun s ipa => s.keepMap d w.2.1 ipa) s
    let refuse := fun (f : TrFault) (p : Bool) => { s with walked := s.walked ++ m.who.map fun x => m.refused x f p }
    match w.1 with
    | .poison => refuse { cause := 0, level := 0 } true
    | .fault f => refuse f false
    | .found t => s.answerWalk m t

/-- Refusals addressed to an asker are forgotten, and what it asked for: it has met them. -/
def State.forget (s : State) (who : Asker) : State :=
  { s with
    walked := s.walked.filter fun w => w.who ≠ who
    reqs := s.reqs.filter fun q => q.who ≠ who }

end Sys2Proof.Machine
end

