-- ==== Sys2Proof/Machine/Ops.lean ====
section
/-! DEFINITION. What every instruction of the program shares: taking a trap and returning from it (R339 to R351), gang kill (R375), and
running one instruction of one split. -/

namespace Sys2Proof.Machine

/-! ### Gangs and rooms -/

/-- A group's gang number (R155). -/
def Group.gang (g : Group) : Nat := g.groupid / max 1 g.hdr.gang
/-- A group's member index (R155). -/
def Group.member (g : Group) : Nat := g.groupid % max 1 g.hdr.gang

/-- A group's stage (R156). -/
def Group.stage (g : Group) : Nat := if tbit g.hdr.flags 5 then g.member % max 1 g.hdr.stages else 0
/-- The role of warp w: 0 general, 1 loader, 2 storer (R156). -/
def Group.role (g : Group) (w : Nat) : Nat :=
  if !tbit g.hdr.flags 5 then 0
  else if w < g.hdr.roles % 16 then 1
  else if g.hdr.warps - g.hdr.roles / 16 ≤ w then 2
  else 0

/-- Every room of the device, as core and room. -/
def allRooms : List (Nat × Nat) := (List.range 64).flatMap fun c => (List.range 16).map fun n => (c, n)

/-- The rooms that hold members of a gang. -/
def State.members (s : State) (launch gang : Nat) : List (Nat × Nat) :=
  allRooms.filter fun r =>
    match (s.room r.1 r.2).group with
    | some g => g.launch = launch && g.gang = gang
    | none => false

/-- The warp slots of a group's warps that are resident. -/
def Group.slots (g : Group) : List Nat := g.warps.filterMap id

/-- Codebooks of a core that a gang held are held no more, and read as +0 (R294). -/
def Core.dropBooks (c : Core) (launch gang : Nat) : Core :=
  { c with books := c.books.map fun b => if b.holder = some (launch, gang) then {} else b }

/-- A room released (R54, R297, R375): its warps, its tiles' poison, its ring and its activation tables go. -/
def State.releaseRoom (s : State) (c n : Nat) : State :=
  match (s.room c n).group with
  | none => s
  | some g =>
    { s with reqs := s.reqs.filter fun q => match q.who with
        | .split r => !(r.core = c && g.slots.contains r.slot)
        | .mx k m => !(k = c && m = n)
        | .job _ _ | .host _ => true }.modCore c fun k =>
      { k with
        warps := g.slots.foldl (fun ws sl => put none ws sl none) k.warps
        jsubs := k.jsubs.filter fun p => !g.slots.contains p.1
        acc := { k.acc with poison := k.acc.poison.filter fun t => t < g.atbase || g.atbase + g.hdr.tiles ≤ t }
        rooms := modifyAt k.rooms n fun x => { stale := x.stale, hold := x.hold } }

/-- The scratchpad of a group: bytes and poison at a group address. -/
def State.spRead (s : State) (c n a len : Nat) : List Byte × Bool :=
  let g := s.group c n
  (s.core c).sp.read spGrain (some g.owner) (g.spbase + a) len

/-- A store by the machine itself into a group's scratchpad. -/
def State.spWrite (s : State) (c n a : Nat) (bs : List Byte) (poison : Bool := false) : State :=
  let g := s.group c n
  s.modCore c fun k => { k with sp := k.sp.write spGrain (some g.owner) (g.spbase + a) bs poison }

/-- The scratchpad address of record number n of a room's ring (R289). -/
def Ring.addr (r : Ring) (n : Nat) : Nat := r.base + n % max 1 r.size * 64

/-- STATUS of a record written (R287): bits [23:20]. -/
def State.setStatus (s : State) (c n rec st : Nat) : State :=
  let a := (s.room c n).ring.addr rec + 2
  let b := ((s.spRead c n a 1).1.headD 0).toNat
  s.spWrite c n a [BitVec.ofNat 8 (b % 16 + 16 * st)]

/-- A launch changed. -/
def State.modLaunch (s : State) (l : Nat) (f : Launch → Launch) : State := { s with launches := modifyAt s.launches l f }

/-- What a launch knows of one of its gangs. -/
def Launch.gangInfo (l : Launch) (k : Nat) : GangInfo := get {} l.gangs k

/-- A launch with what it knows of a gang changed. -/
def Launch.modGang (l : Launch) (k : Nat) (f : GangInfo → GangInfo) : Launch := { l with gangs := put {} l.gangs k (f (l.gangInfo k)) }

/-- A gang leaves its cores without save (R375): splits stop, pending results are discarded, jobs that have not completed are
cancelled, matrix records stop with STATUS 7, joinc registrations and saved members go, and every room is released. -/
def State.dropGang (s : State) (launch gang : Nat) : State :=
  let ms := s.members launch gang
  let s := ms.foldl (fun s r =>
    let x := s.room r.1 r.2
    let s := if x.ring.run.isSome then s.setStatus r.1 r.2 x.ring.dcnt.toNat 7 else s
    let s := s.modCore r.1 fun k => { (k.dropBooks launch gang) with jobs := k.jobs.filter fun j => j.room ≠ r.2 }
    s.releaseRoom r.1 r.2) s
  { s with saved := s.saved.filter fun v => !(v.launch = launch &&
      v.groupid / max 1 ((s.launches.getD launch {}).hdr.gang) = gang) }

/-- A gang kill (R375, R376): the gang leaves its cores and waits to be relaunched, up to four times. -/
def State.killGang (s : State) (c n : Nat) : State :=
  match (s.room c n).group with
  | none => s
  | some g =>
    let k := g.gang
    let s := s.dropGang g.launch k
    s.modLaunch g.launch fun l => l.modGang k fun i =>
      if 4 ≤ i.relaunch then { i with started := [], ended := [], waiting := false, stopped := true }
      else { i with started := [], ended := [], waiting := true, relaunch := i.relaunch + 1 }

/-! ### Trap presentation -/

/-- A trap as its instruction raises it (R343): `imm` and `pc` where an entry assigns them, `fetched` false for a fault in fetching the
instruction's words, `va` the faulting address for the pager, `words` the words it describes where they are not those at the PC
(R254). -/
structure Trap where
  cause : Nat
  lanes : LaneMask
  detail : Nat := 0
  d : W64 := 0
  a : W64 := 0
  b : W64 := 0
  imm : Option W64 := none
  pc : Option W64 := none
  fetched : Bool := true
  va : Option Nat := none
  words : Option Words := none
  deriving DecidableEq, Repr

/-- The class of a cause, its bit in the trap enable mask (R343, R345). -/
def trapClass (cause : Nat) : Nat :=
  if cause = 0x01 then 0
  else if cause = 0x02 then 1
  else if cause = 0x03 then 9
  else if cause ≤ 0x07 then 2
  else if cause ≤ 0x09 then 5
  else if cause ≤ 0x0D then 3
  else if cause ≤ 0x19 then 4
  else if cause ≤ 0x25 then 6
  else if cause ≤ 0x2A then 7
  else 8

/-- sr.trapcause (R342). -/
def Trap.word (t : Trap) : W64 :=
  BitVec.ofNat 64 (t.lanes.toNat * 2 ^ 32 + trapClass t.cause * 2 ^ 16 + t.detail * 2 ^ 8 + t.cause)

/-- An operand field of the presentation of ILL: mode and field (R204). -/
def illOperand (m : BitVec 3) (n : BitVec 8) : W64 := BitVec.ofNat 64 (m.toNat * 256 + n.toNat)

/-- The nine registers that a trap writes together (R204, R344). -/
def Trap.regs (t : Trap) (x : Words) (pc : W64) : TrapRegs :=
  let x := t.words.getD x
  let iform := isI (x.w.setWidth 8)
  let g := Base.unpack x.w
  let i := IWord.unpack x.w
  let r : TrapRegs :=
    { cause := t.word
      pc := t.pc.getD pc
      op := if t.fetched then x.w else 0
      d := t.d
      a := t.a
      b := t.b
      c := 0
      e := if t.fetched then (match x.pw with
             | some p => BitVec.ofNat 64 (2 ^ 32 + p.toNat)
             | none => 0) else 0
      imm := t.imm.getD (if t.fetched && iform then i.imm.signExtend 64 else 0) }
  if t.cause = 0x01 then
    if iform then { r with d := i.d.setWidth 64, a := illOperand 0 i.a, b := 0, c := 0 }
    else { r with d := BitVec.ofNat 64 (g.dx.toNat * 256 + g.d.toNat), a := illOperand g.am g.a, b := illOperand g.bm g.b,
                  c := illOperand g.cm g.c }
  else r

/-- Whether an address lies in a range that the tenant's function registered as pageable under an ASID (R351, R391). -/
def State.pageable (s : State) (fn asid va : Nat) : Bool :=
  ((s.fns.getD fn {}).pageable).any fun p => p.2.2 = asid && p.1 ≤ va && va < p.1 + p.2.1

/-- The lowest page-request group index that a function does not use (R392). -/
def Fn.freeIndex (f : Fn) : Option Nat := (List.range 512).find? fun i => !f.pages.any fun p => p.idx = i

/-- The state with a function changed. -/
def State.modFn (s : State) (n : Nat) (f : Fn → Fn) : State := { s with fns := modifyAt s.fns n f }

/-- The pager takes a page fault (R351, R392), or declines it: no index is free, or the same lane has had three Successes on the page,
or the last response for it was not Success. -/
def State.pagerTakes (s : State) (g : Group) (t : Trap) : Option State :=
  match t.va with
  | none => none
  | some va =>
    let fn := (s.launches.getD g.launch {}).fn
    let l := (lowest t.lanes).getD 0
    let page := va / 4096
    let mine := fun (p : PageTry) => p.launch = g.launch && p.groupid = g.groupid && p.lane = l && p.page = page
    let ats := t.cause = 0x14 && t.a.toNat % 8 = 0
    if (t.cause ≠ 0x12 && t.cause ≠ 0x16 && !ats) || !s.pageable fn g.lrec.asid va then none
    else if s.tries.any fun p => mine p && (p.declined || 3 ≤ p.good) then none
    else
      match (s.fns.getD fn {}).freeIndex with
      | none => none
      | some i => some (s.modFn fn fun f => { f with pages := f.pages ++
          [{ idx := i, launch := g.launch, groupid := g.groupid, stay := g.stay, lane := l, page := page }] })

/-- A trap presented (R339, R344 to R351): to the pager, to the group's handler, or as a faulted group to the Innkeeper; in handler mode
a double fault. -/
def State.takeTrap (s : State) (r : SplitRef) (x : Words) (t : Trap) : State :=
  let s := s.drain r.core r.slot fun _ => true
  -- an ATS reply without permission answers the access that waited, and no later one (R389)
  let s := if t.cause = 0x14 && t.a.toNat % 8 = 0 then { s with atc := s.atc.filter fun a => a.r && a.w } else s
  let w := s.warp r.core r.slot
  let g := s.group r.core w.room
  let who := (w.num, r.split)
  match w.split r.split with
  | none => s
  | some sp =>
    match s.pagerTakes g t with
    | some s => s.modGroup r.core w.room fun g => { g with phase := .paging, fault := who, pageaddr := t.va.getD 0 }
    | none =>
      let l := (lowest t.lanes).getD 0
      -- a declined fault is delivered once
      let s := { s with tries := s.tries.filter fun p =>
        !(p.launch = g.launch && p.groupid = g.groupid && p.lane = l && some p.page = t.va.map (· / 4096)) }
      if w.handler then
        (s.modGroup r.core w.room fun g => { g with phase := .doubleFaulted, fault := who }).emit
          (.innkeeper 2 r.core w.room t.word w.trap.cause)
      else
        let w := { w with trap := t.regs x sp.pc }
        if g.hdr.handler ≠ 0xFFFFFFFF && tbit g.hdr.trapmask (trapClass t.cause) then
          s.setWarp r.core r.slot
            { w with
              handler := true
              hsave := { ra := sp.ra, pend := sp.pend, mask := sp.mask, split := r.split }
              splits := w.splits.set r.split (some { sp with pc := BitVec.ofNat 64 g.hdr.handler, ra := none, pend := none })
              came := w.came.set r.split sp.pc
              stopped := (List.range 4).map fun i => i ≠ r.split && (w.split i).isSome }
        else
          ((s.setWarp r.core r.slot w).modGroup r.core w.room fun g => { g with phase := .faulted, fault := who }).emit
            (.innkeeper 1 r.core w.room t.word 0)

/-- Return from a trap (R347): the split goes on at sr.trappc + 4 × n with RA and PEND restored, and the others run again. -/
def Warp.trapReturn (w : Warp) (i n : Nat) : Warp :=
  match w.split i with
  | some x =>
    let w := { w with
      splits := w.splits.set i (some { x with pc := w.trap.pc + BitVec.ofNat 64 (4 * n), ra := w.hsave.ra, pend := w.hsave.pend })
      came := w.came.set i x.pc
      handler := false
      hsave := {}
      stopped := [false, false, false, false] }
    w.settle x.pc
  | none => w

/-- Whether a `trap` in handler mode is the return (R347). -/
def Warp.returns (w : Warp) (i : Nat) (n : W32) : Bool :=
  w.handler && n.toNat ≤ 3 && (match w.split i with
    | some x => x.mask = w.hsave.mask
    | none => false)

/-! ### Running one instruction -/

/-- How an instruction ends: done, its split already moved, waiting at a blocking point, not yet possible, a trap, or uncorrectable
consumption. -/
inductive End where
  | next
  | moved
  | wait (b : Block)
  | again
  | trap (t : Trap)
  | kill
  deriving DecidableEq, Repr

/-- A part of an instruction that may end it early. -/
abbrev Act (α : Type) := Except (End × State) α

/-- The instruction ends here. -/
def stop {α : Type} (e : End) (s : State) : Act α := .error (e, s)

/-- How a whole instruction ends. -/
def Act.ends (m : Act State) : End × State :=
  match m with
  | .ok s => (.next, s)
  | .error e => e

/-- The issuing split with what its instruction names: place, warp, split, group, words, active lanes (R86, R183), lanes that a zeroing
mask clears, rounding field and SAT. -/
structure Ctx where
  core : Nat
  slot : Nat
  sp : Nat
  w : Warp
  x : Split
  g : Group
  words : Words
  act : LaneMask
  zero : LaneMask
  pfx : PWord
  deriving DecidableEq, Repr

/-- The prefix word of an instruction; every field is zero without one (R183). -/
def Words.pfx (x : Words) : PWord := PWord.unpack (x.pw.getD 0)

/-- The words of an instruction of the program (R180). -/
def wordsFor (i : Instr) : Words :=
  match i with
  | .illegal pw w => { pw := pw, w := w }
  | .fusedSoftmax _ m v _ _ _ => (encode (.rmaxf { la := 0, ru := false, pfx := none } { ix := false, n := m } (.v v))).getD { w := 0 }
  | .trapReturn x imm => (encode (.trap x imm)).getD { w := 0 }
  | i => (encode i).getD { w := 0 }

/-- The context of an instruction of the issuing split. -/
def ctxOf (s : State) (ws : Words) : Ctx :=
  let w := s.warp s.cur.core s.cur.slot
  let x := (w.split s.cur.split).getD { pc := 0, mask := 0 }
  let p := Words.pfx ws
  let m := at_ 0 w.masks p.mreg.toNat
  let act := (if p.mn = 1 then ~~~m else m) &&& x.mask
  { core := s.cur.core, slot := s.cur.slot, sp := s.cur.split, w := w, x := x, g := s.group s.cur.core w.room, words := ws,
    act := act, zero := if p.mz = 1 then x.mask &&& ~~~act else 0, pfx := p }

/-- The die of the issuing split. -/
def Ctx.die (c : Ctx) : Nat := dieOf c.core
/-- The room of the issuing split. -/
def Ctx.room (c : Ctx) : Nat := c.w.room
/-- The issuing split. -/
def Ctx.ref (c : Ctx) : SplitRef := ⟨c.core, c.slot, c.sp⟩
/-- The offset of the instruction that follows. -/
def Ctx.after (c : Ctx) : W64 := c.x.pc + BitVec.ofNat 64 c.words.bytes
/-- The lookahead of the instruction (R181). -/
def Ctx.la (c : Ctx) : Nat := (c.words.w.extractLsb' 8 4).toNat
/-- The opcode of the instruction. -/
def Ctx.op (c : Ctx) : BitVec 8 := c.words.w.setWidth 8
/-- The effective rounding mode (R67, R86). -/
def Ctx.rm (c : Ctx) : RM := effRM ((RMode.of c.pfx.rm).getD .dyn) (c.w.wflags.toNat / 256 % 8)
/-- Whether SAT is set. -/
def Ctx.sat (c : Ctx) : Bool := c.pfx.sat = 1
/-- The kernel's compatibility level (R85). -/
def Ctx.cplv (c : Ctx) : Nat := c.g.hdr.cplv
/-- The owner identity of the group (R37). -/
def Ctx.owner (c : Ctx) : Option Nat := some c.g.owner

/-- Which results an instruction waits for before it issues: those whose window is passed, its split's, or its warp's (R190, R191,
R310). -/
inductive Closes where
  | window | split | warp
  deriving DecidableEq, Repr

/-- What an opcode closes: control flow, blocking points and `fork` its split's windows, a search instruction its warp's (R191, R310). -/
def closes (op : Nat) : Closes :=
  if 0xD0 ≤ op && op ≤ 0xD8 then .warp
  else if (1 ≤ op && op ≤ 0x0F) || [0xA0, 0xA1, 0xA2, 0xA3, 0xA7, 0xA8, 0xAA, 0xB0, 0xB1, 0xC0, 0xC2, 0xC3, 0xC4, 0xC5].contains op
    then .split
  else .window

/-- The results for which an instruction waits are written (R190, R191, R310). -/
def State.drainFor (s : State) (ws : Words) : State :=
  s.drain s.cur.core s.cur.slot fun p =>
    match closes (ws.w.setWidth 8).toNat with
    | .warp => true
    | .split => p.split = s.cur.split
    | .window => p.split = s.cur.split && p.la < p.pos + 1

/-- Splits that stand at their RA arrive, after the results pending in them are written; paths that can run become splits (R149, R150,
R191). -/
def State.settleWarp (s : State) (c slot : Nat) (came : W64) : State :=
  let w := s.warp c slot
  let here := (List.range 4).filter fun i => match w.split i with
    | some x => (w.joinOf x).isSome
    | none => false
  let s := if here = [] then s else s.drain c slot fun p => here.contains p.split
  s.modWarp c slot fun w => w.settle came

/-- The issuing split moves past its instruction (R149, R180, R190). -/
def State.retire (s : State) (c : Ctx) : State :=
  let s := s.modWarp c.core c.slot fun w => { w with
    splits := modifyAt w.splits c.sp (Option.map fun x => { x with pc := c.after })
    came := w.came.set c.sp c.x.pc
    pend := w.pend.map fun p => if p.split = c.sp && p.pc ≠ c.x.pc then { p with pos := p.pos + 1 } else p }
  s.settleWarp c.core c.slot c.x.pc

/-- What every end of an instruction but a retry does: refusals of walks are forgotten, the split's age starts again, and a single step
is over (R335, R361). -/
def State.issued (s : State) (c : Ctx) : State :=
  let s := s.forget (.split c.ref)
  let s := { s with lantern := { s.lantern with left := s.lantern.left.erase c.ref } }
  let s := s.modWarp c.core c.slot fun w => { w with age := w.age.set c.sp 0, closed := w.closed.set c.sp false }
  if (s.group c.core c.room).stepping = some (c.slot, c.sp) then
    (s.modGroup c.core c.room fun g => { g with stepping := none }).modWarp c.core c.slot fun w => { w with stepArmed := false }
  else s

/-- The state after an instruction ended. -/
def State.finish (c : Ctx) (e : End × State) : State :=
  match e.1 with
  | .next => (e.2.retire c).issued c
  | .moved => (e.2.settleWarp c.core c.slot c.x.pc).issued c
  -- a split that waits has not left the armed instruction at which it stood (R363)
  | .wait b => { (e.2.modWarp c.core c.slot fun w => { w with block := w.block.set c.sp b }).issued c with
                 lantern := e.2.lantern, reqs := e.2.reqs }
  | .again => e.2
  | .trap t => (e.2.takeTrap c.ref c.words t).issued c
  | .kill => (e.2.killGang c.core c.room).issued c

/-- An instruction of the issuing split. -/
def run (i : Instr) (s : State) (body : Ctx → State → Act State) : Host.Outcome State Fault Refusal :=
  match s.split? s.cur with
  | none => .fault .noSplit
  | some _ =>
    let s := s.drainFor (wordsFor i)
    .next (State.finish (ctxOf s (wordsFor i)) (body (ctxOf s (wordsFor i)) s).ends)

/-- Every lane of the split raises a trap (R342). -/
def Ctx.trapAll (c : Ctx) (cause : Nat) (d a : W64 := 0) (detail : Nat := 0) (imm : Option W64 := none) : End :=
  .trap { cause := cause, lanes := c.x.mask, detail := detail, d := d, a := a, imm := imm }

end Sys2Proof.Machine
end

