-- ==== Sys2Proof/Machine/Access.lean ====
section
/-! DEFINITION. Accesses to the six address spaces: the checks before an access (R10 to R22, R256, R257), reading and writing what an
address names, windows and their hold (R131, R132), acquires and releases (R94, R107, R110, R405), and the trail (R305, R306). -/

namespace Sys2Proof.Machine

/-! ### What an address names -/

/-- A place that an access reaches: bytes of physical memory, or an offset in a core's window (R19). `far` is true for an access through
a gang window or the on-chip map. -/
inductive Place where
  | mem (bs : List (Nat × Attr))
  | chip (core off : Nat) (far : Bool)
  deriving DecidableEq, Repr

/-- What an offset of a core window names (R19). -/
inductive ChipLoc where
  | reg (slot n l b : Nat)
  | sp (off : Nat)
  | slot (off : Nat)
  | acc (off : Nat)
  | dir (room b : Nat)
  | reserved
  deriving DecidableEq, Repr

/-- The layout of a core window (R19). -/
def chipLoc (off : Nat) : ChipLoc :=
  if off < 0x200000 then .reg (off / 0x8000) (off % 0x8000 / 128) (off % 128 / 4) (off % 4)
  else if off < 0x3F0000 then .sp (off - 0x200000)
  else if off < 0x400000 then .slot (off - 0x3F0000)
  else if off < 0x580000 then .acc (off - 0x400000)
  else if off < 0x580400 then .dir ((off - 0x580000) / 64) ((off - 0x580000) % 64)
  else .reserved

/-- Whether a group in a phase still occupies its core. -/
def Phase.onCore : Phase → Bool
  | .resident | .faulted | .doubleFaulted | .paging | .suspended => true
  | .bound | .ended => false

/-- A room's directory entry (R20). DESIGN CHOICE: that of a room without a group reads as zero in every byte, WARPS and SLOTS too (log
entry 98). -/
def State.dirEntry (s : State) (c n : Nat) : List Byte :=
  match (s.room c n).group with
  | none => List.replicate 64 0
  | some g =>
    (g.warps.map fun x => BitVec.ofNat 8 (x.getD 0xFF)) ++ leBytes 4 g.spbase ++ leBytes 4 g.spbytes ++ leBytes 1 g.atbase
      ++ leBytes 1 g.hdr.tiles ++ (g.handles.map fun h => BitVec.ofNat 8 ((h.map (·.slot)).getD 0xFF)) ++ leBytes 2 g.stay
      ++ leBytes 2 g.gang ++ leBytes 1 g.member ++ leBytes 1 (1 + if g.phase.onCore then 2 else 0) ++ List.replicate 12 0

/-- A register of the view as a reader sees it: zero outside the allotment or without a warp (R22). -/
def State.viewLane (s : State) (o : Option Nat) (c slot n l : Nat) : LaneWord :=
  match s.warp? c slot with
  | none => {}
  | some w =>
    if n < (s.group c w.room).hdr.allot then (s.core c).lane o (rowOf slot n) l else {}

/-- Whether an access to the view is a window miss (R22). -/
def State.viewMiss (s : State) (c slot n : Nat) : Bool :=
  match s.warp? c slot with
  | none => true
  | some w => (s.group c w.room).hdr.allot ≤ n

/-- Bytes of a core window as a reader sees them, and their poison (R22, R38, R51, R54, R56). -/
def State.chipRead (s : State) (o : Option Nat) (c off n : Nat) : List Byte × Bool :=
  match chipLoc off with
  | .reg slot _ _ _ =>
    let word := fun (i : Nat) => s.viewLane o c slot ((off + i) % 0x8000 / 128) ((off + i) % 128 / 4)
    ((List.range n).map fun i => (word i).data.extractLsb' ((off + i) % 4 * 8) 8, (List.range n).any fun i => (word i).poison)
  | .sp a => (s.core c).sp.read spGrain o a n
  | .slot a => (s.core c).slots.read slotGrain o a n
  | .acc a => (s.core c).acc.read accGrain o a n
  | .dir r b => (((s.dirEntry c r).drop b).take n, false)
  | .reserved => (List.replicate n 0, false)

/-- A register of the view written by a window access (R22); a write that misses is discarded. -/
def State.viewWrite (s : State) (o : Option Nat) (c slot n l : Nat) (x : LaneWord) : State :=
  match s.warp? c slot with
  | none => { s with misses := s.misses + 1 }
  | some w =>
    if n < (s.group c w.room).hdr.allot then s.modCore c fun k => k.setLane o (rowOf slot n) l x
    else { s with misses := s.misses + 1 }

/-- The words of the register view that a range of bytes meets, written: a word that is only partly covered keeps its other bytes. -/
def State.viewBytes (s : State) (o : Option Nat) (c off : Nat) (bs : List Byte) (poison : Bool) : State :=
  (spanOf off bs.length 4).foldl (fun s k =>
    let slot := k * 4 / 0x8000
    let n := k * 4 % 0x8000 / 128
    let l := k * 4 % 128 / 4
    let old := s.viewLane o c slot n l
    let byte := fun (i : Nat) =>
      if off ≤ k * 4 + i && k * 4 + i < off + bs.length then at_ 0 bs (k * 4 + i - off) else old.data.extractLsb' (i * 8) 8
    let full := off ≤ k * 4 && k * 4 + 4 ≤ off + bs.length
    let v := byte 3 ++ byte 2 ++ byte 1 ++ byte 0
    s.viewWrite o c slot n l (LaneWord.of v (poison || (!full && old.poison)))) s

/-- KIND of a slot descriptor (R295). -/
def descKind (d : BitVec 128) : Nat := field d.toNat 5 4
/-- MFMT of a slot descriptor (R295). -/
def descMfmt (d : BitVec 128) : Nat := field d.toNat 7 6
/-- The side of a slot's matrix (R55, R295). -/
def descN (d : BitVec 128) : Nat := if descKind d = 0 then 32 else if descKind d = 1 then 2 else 4
/-- The bytes of a matrix element (R55). -/
def descEsize (d : BitVec 128) : Nat := if descMfmt d = 0 then 2 else if descMfmt d = 1 then 4 else 1
/-- Bytes of a slot's matrix (R55). -/
def descBytes (d : BitVec 128) : Nat := descN d * descN d * descEsize d

/-- The bytes of the matrix bound to a slot; the whole slot where none is. -/
def State.boundBytes (s : State) (c m : Nat) : Nat :=
  (((s.core c).rooms.filterMap (·.group)).findSome? fun g =>
    (g.handles.find? fun h => h.map (·.slot) = some m).bind fun h => h.map fun b => descBytes b.desc).getD 4096

/-- A store into slot storage; one that rewrites the whole matrix cleanly clears the slot's poison (R56). -/
def State.slotWrite (s : State) (o : Option Nat) (c a : Nat) (bs : List Byte) (poison : Bool) : State :=
  let whole := !poison && a % 4096 = 0 && s.boundBytes c (a / 4096) ≤ bs.length
  s.modCore c fun k =>
    let t := k.slots.write slotGrain o a bs poison
    { k with slots := if whole then { t with poison := setErase t.poison (a / 4096) } else t }

/-- Bytes written into a core window (R22, R38, R51, R54, R56); the directory is read-only (R19). -/
def State.chipPut (s : State) (o : Option Nat) (c off : Nat) (bs : List Byte) (poison : Bool) : State :=
  match chipLoc off with
  | .reg _ _ _ _ => s.viewBytes o c off bs poison
  | .sp a => s.modCore c fun k => { k with sp := k.sp.write spGrain o a bs poison }
  | .slot a => s.slotWrite o c a bs poison
  | .acc a => s.modCore c fun k => { k with acc := k.acc.write accGrain o a bs poison }
  | .dir _ _ | .reserved => s

/-- The stamps of window words after a write of n bytes: those of the words that it meets go, and its own, if it carries one, takes their place
(R107, R405). -/
def State.stampChip (s : State) (c off n : Nat) (st : Option Stamp) : State :=
  if (s.core c).stamps = [] && st.isNone then s
  else s.modCore c fun k => { k with
    stamps := (k.stamps.filter fun x => !(off < x.1 * 4 + 4 && x.1 * 4 < off + n)) ++
      (match st with
       | some x => (spanOf off n 4).map fun w => (w, x)
       | none => []) }

/-- A write performed at a core's port, with the stamp that it carries (R131, R405). -/
def State.chipWrite (s : State) (o : Option Nat) (c off : Nat) (bs : List Byte) (poison : Bool) (st : Option Stamp := none) : State :=
  (s.chipPut o c off bs poison).stampChip c off bs.length st

/-- The room whose registers, scratchpad, tiles or slots an offset of a core window lies in. -/
def State.roomAt (s : State) (c off : Nat) : Option Nat :=
  let has := fun (p : Group → Bool) => (List.range 16).find? fun n => ((s.room c n).group.map p).getD false
  match chipLoc off with
  | .reg slot _ _ _ => (s.warp? c slot).map (·.room)
  | .sp a => has fun g => g.spbase ≤ a && a < g.spbase + g.spbytes
  | .slot a => has fun g => g.handles.any fun h => h.map (·.slot) = some (a / 4096)
  | .acc a => has fun g => g.atbase ≤ a / 24576 && a / 24576 < g.atbase + g.hdr.tiles
  | .dir _ _ | .reserved => none

/-- Whether a room's window hold keeps a write at the port, or one that arrived before it still waits there (R132). -/
def State.holds (s : State) (c off : Nat) : Option Nat :=
  match s.roomAt c off with
  | some n => if (s.room c n).hold = .off && !(s.core c).port.any (fun p => p.room = n) then none else some n
  | none => none

/-- A window or on-chip-map write: performed at the owning core's port, or kept there by the room's hold (R131, R132). -/
def State.farWrite (s : State) (o : Option Nat) (c off : Nat) (bs : List Byte) (poison : Bool) (st : Option Stamp := none) : State :=
  match s.holds c off with
  | some n => s.modCore c fun k =>
      { k with port := k.port ++ [{ room := n, off := off, bytes := bs, poison := poison, owner := o, stamp := st }] }
  | none => s.chipWrite o c off bs poison st

/-- Whether a write kept at a core's port covers some byte of a range. -/
def State.keptAt (s : State) (c off n : Nat) : Bool :=
  (s.core c).port.any fun p => p.off < off + n && off < p.off + p.bytes.length

/-! ### Reading and writing places -/

/-- What a place reads as for an agent of die e with an owner (R38, R89, R111, R261). -/
def State.readPlace (s : State) (e : Nat) (o : Option Nat) (p : Place) (n : Nat) : List Byte × Bool :=
  match p with
  | .mem bs => (bs.map fun b => s.dieByte e b.2 b.1, bs.any fun b => b.2.psn || s.diePoison e b.2 b.1)
  | .chip c off _ => s.chipRead o c off n

/-- The window misses of reading places (R22). DESIGN CHOICE: those of lanes, jobs and matrix records are counted together in one number of the
device, since the manual names no register for them (log entry 99). -/
def State.readMisses (s : State) (ps : List Place) : Nat :=
  (ps.filter fun p => match p with
    | .chip c off true => (match chipLoc off with
        | .reg slot n _ _ => s.viewMiss c slot n
        | _ => false)
    | _ => false).length

/-- How a write of bytes of memory reaches its homes (R87): one whose single accesses span sectors that cannot all be written at once is kept
together. -/
def State.doing (s : State) (e : Nat) (rel : Bool) (ps : List Place) : Doing :=
  let secs := fun (p : Place) => match p with
    | .mem bs => sectorReads bs
    | .chip _ _ _ => []
  let now := ps.all fun p => (secs p).all fun r => homeDie (r.1 * 64) = e && (s.ownWrites e r.1).isEmpty && s.homeFree r.2.1 true r.1
  { rel := rel, op := if !now && ps.any (fun p => 1 < (secs p).length) then some s.netSeq else none }

/-- A write of places, in order, as one operation: all bytes of global and lane-private memory at once, then the others (R49, R91,
R261). A release's write carries its stamp wherever it goes (R405). -/
def State.writePlaces (s : State) (e : Nat) (o : Option Nat) (rel : Bool) (ws : List (Place × List Byte × Bool)) : State :=
  let bytes : List (ByteWrite × Attr) := ws.flatMap fun w =>
    match w.1 with
    | .mem bs => bs.zipIdx.map fun b => ({ pa := b.1.1, val := at_ 0 w.2.1 b.2, poison := w.2.2 }, b.1.2)
    | .chip _ _ _ => []
  let attr := fun (k : Nat) => ((bytes.find? fun b => b.1.pa / 64 = k).map (·.2)).getD {}
  let s := s.writeAll e attr (s.doing e rel (ws.map (·.1))) (bytes.map (·.1))
  let st : Option Stamp := if rel then some { die := e, v := (s.die e).vc, rel := true } else none
  ws.foldl (fun s w =>
    match w.1 with
    | .mem _ => s
    | .chip c off far => if far then s.farWrite o c off w.2.1 w.2.2 st else s.chipWrite o c off w.2.1 w.2.2 st) s

/-- The stamps of the writes that a read of places, each of n bytes, returns (R107, R405). -/
def State.stampsOf (s : State) (e : Nat) (ps : List Place) (n : Nat) : List Stamp :=
  ps.flatMap fun p => match p with
    | .mem bs => (sectorReads bs).flatMap fun r => s.stampsAt e r.2.1 r.1 r.2.2
    | .chip c off _ => ((s.core c).stamps.filter fun x => off < x.1 * 4 + 4 && x.1 * 4 < off + n).map (·.2)

/-- The bytes of memory that places name. -/
def memBytes (ps : List Place) : List (Nat × Attr) := ps.flatMap fun p => match p with
  | .mem bs => bs
  | .chip _ _ _ => []

/-! ### What a load writes (R201, R259, R337) -/

/-- Registers that an access of a size fills or stores (R201). -/
def Size.regs (z : Size) : Nat :=
  match z with
  | .u8 | .s8 | .u16 | .s16 | .w32 => 1
  | .w64 => 2
  | .w128 => 4

/-- The lane words that a load of a size writes (R201, R259, R261). -/
def loadWords (z : Size) (bs : List Byte) (p : Bool) : List LaneWord :=
  match z with
  | .s8 => [LaneWord.of ((BitVec.ofNat 8 (ofBytes bs)).signExtend 32) p]
  | .s16 => [LaneWord.of ((BitVec.ofNat 16 (ofBytes bs)).signExtend 32) p]
  | .u8 | .u16 | .w32 => [LaneWord.of (BitVec.ofNat 32 (ofBytes bs)) p]
  | .w64 => (List.range 2).map fun i => LaneWord.of (BitVec.ofNat 32 (ofBytes ((bs.drop (4 * i)).take 4))) p
  | .w128 => (List.range 4).map fun i => LaneWord.of (BitVec.ofNat 32 (ofBytes ((bs.drop (4 * i)).take 4))) p

/-! ### Checks before an access -/

/-- The access word of R343. -/
def accessWord (level : Nat) (s2 : Bool) (k : AccKind) (sp : Space) : W64 :=
  BitVec.ofNat 64 (level + (if s2 then 8 else 0) + k.code * 16 + sp.code.toNat * 256)

/-- Bytes of lane-private memory for each lane (R11). -/
def Group.privBytes (g : Group) : Nat := g.hdr.satchel + g.hdr.stack

/-- The global address of private address p of lane l of warp w (R11, R327). -/
def Group.privVa (g : Group) (w l p : Nat) : Nat :=
  (g.lrec.priv + (g.groupid * g.hdr.warps + w) * 32 * g.privBytes + p / 4 * 128 + l * 4 + p % 4) % 2 ^ 64

/-- The room of a member of a group's gang, on the cores of its cluster (R13, R155). -/
def State.memberRoom (s : State) (core : Nat) (g : Group) (m : Nat) : Option (Nat × Nat) :=
  ((List.range 4).flatMap fun c => (List.range 16).map fun n => (clusterOf core * 4 + c, n)).find? fun r =>
    match (s.room r.1 r.2).group with
    | some h => h.launch = g.launch && h.gang = g.gang && h.member = m
    | none => false

/-- The place of a gang-window address of n bytes (R13); none raises a bounds fault. -/
def State.windowPlace (s : State) (core : Nat) (g : Group) (a n : Nat) : Option Place :=
  let m := a / 2 ^ 21 % 8
  let off := a % 2 ^ 21
  if 2 ^ 24 ≤ a || max 1 g.hdr.gang ≤ m then none
  else
    match s.memberRoom core g m with
    | some (c, r) =>
      let h := s.group c r
      if off + n ≤ h.spbytes then some (.chip c (0x200000 + h.spbase + off) true) else none
    | none => none

/-- Whether a gang peer may reach an offset of a core window (R21). -/
def State.peerMay (s : State) (core : Nat) (g : Group) (c off n : Nat) (k : AccKind) : Bool :=
  let mine := fun (h : Group) => h.launch = g.launch && h.gang = g.gang
  let some_ := fun (p : Group → Bool) => (s.core c).rooms.any fun r => (r.group.map fun h => mine h && p h).getD false
  clusterOf c = clusterOf core &&
  match chipLoc off with
  | .reg slot _ _ _ => k ≠ .rmw && (match s.warp? c slot with
      | some w => ((s.room c w.room).group.map mine).getD false
      | none => false)
  | .sp a => some_ fun h => h.spbase ≤ a && a + n ≤ h.spbase + h.spbytes
  | .slot a => k ≠ .rmw && some_ fun h => h.handles.any fun x => x.map (·.slot) = some (a / 4096)
  | .acc a => some_ fun h => h.atbase ≤ a / 24576 && (a + n - 1) / 24576 < h.atbase + h.hdr.tiles
  | .dir _ _ => k = .read
  | .reserved => false

/-- A gang peer's read of a directory entry outside its gang returns zero (R21): the offset it reads instead lies in no entry. -/
def State.peerOff (s : State) (g : Group) (c off : Nat) : Nat :=
  match chipLoc off with
  | .dir r _ =>
    match (s.room c r).group with
    | some h => if h.launch = g.launch && h.gang = g.gang then off else 0x580400
    | none => off
  | _ => off

/-- One check of a lane: refused with a place in the order of R257 and R320 and the fault, waiting for a walk or for a host translation,
or the place. -/
inductive Check where
  | ok (p : Place)
  | bad (rank cause detail : Nat) (level : Nat) (s2 : Bool) (key : Nat)
  | miss (va : Nat)
  | ats (die fn page : Nat)
  | poison
  deriving DecidableEq, Repr

/-- Who accesses: the core, its asker, the group, the access, the leaves it may use, and whether it is held to leaves with U = 1 (R17). -/
structure Accessor where
  core : Nat
  who : Asker
  g : Group
  kind : AccKind
  leaf : LeafUse := .any
  user : Bool := true
  deriving DecidableEq, Repr

/-- What an accessor asks the walkers for (R33). -/
def Accessor.wanted (x : Accessor) : Wanted :=
  { who := x.who, write := x.kind.writes, fetch := decide (x.kind = .fetch), leaf := x.leaf, user := x.user }

/-- The function that owns a partition (R384): a VF, or the PF where none does. -/
def State.fnOf (s : State) (part : Nat) : Nat := (((List.range 65).drop 1).find? fun n => get 0 s.fnPart n = part).getD 0

/-- Whether a host-memory access has its translation (R389): the host-link agent of the line's home die serves it. -/
def State.atsCheck (s : State) (part pa : Nat) (k : AccKind) : Option Check :=
  if paKind pa ≠ .host then none
  else
    let page := (pa - 0x80000000000) / 4096
    let fn := s.fnOf part
    match s.atc.find? fun a => a.die = homeDie pa && a.fn = fn && a.page = page with
    | some a => if (if k.writes then a.w else a.r) then none else some (.bad (100 + rankOf 1 13) 0x14 0 0 false 0)
    | none => some (.ats (homeDie pa) fn page)

/-- The bytes of one aligned piece of global memory. -/
def State.globalPiece (s : State) (x : Accessor) (va n : Nat) : Check :=
  match s.lookup x.who.agent x.who x.g.lrec.asid va x.kind x.leaf x.user with
  | .ok pa a => (s.atsCheck x.g.part pa x.kind).getD (.ok (.mem ((List.range n).map fun i => (pa + i, a))))
  | .miss => .miss va
  | .fault f => .bad (100 + f.rank) f.cause 0 f.level f.s2 f.key
  | .poison => .poison

/-- Pieces joined to one place; the first that is refused decides. -/
def joinPieces (cs : List Check) (acc : List (Nat × Attr)) : Check :=
  match cs with
  | [] => .ok (.mem acc)
  | .ok (.mem bs) :: r => joinPieces r (acc ++ bs)
  | c :: _ => c

/-- The checks of one lane's access of n bytes at ea (R10, R13, R15, R16, R18, R21, R256, R257, R303). `protect` is CPBASE and the
satchel size while a search region is open, for a store or an atomic. -/
def State.check (s : State) (x : Accessor) (sp : Space) (w l : Nat) (n align : Nat) (protect : Option (Nat × Nat)) (ea : Int) : Check :=
  let a := ea.toNat
  let narrow := 0 ≤ ea && ea + n ≤ 2 ^ 32
  if ea % align ≠ 0 then .bad 0 0x0A 0 0 false 0
  else
    match sp with
    | .glob => s.globalPiece x (a % 2 ^ 64) n
    | .priv =>
      if !narrow || x.g.privBytes < a + n then .bad 1 0x0B 0 0 false 0
      else if (match protect with
        | some (cp, sb) => a < 0x20 || (cp < a + n && a < sb)
        | none => false) then .bad 2 0x30 6 0 false 0
      else joinPieces ((spanOf a n 4).map fun k =>
        let lo := max a (k * 4)
        s.globalPiece { x with leaf := .lanePrivate } (x.g.privVa w l lo) (min (a + n) (k * 4 + 4) - lo)) []
    | .scratch => if !narrow || x.g.spbytes < a + n then .bad 1 0x0B 0 0 false 0
        else .ok (.chip x.core (0x200000 + x.g.spbase + a) false)
    | .window =>
      match (if narrow then s.windowPlace x.core x.g a n else none) with
      | some p => .ok p
      | none => .bad 1 0x0B 0 0 false 0
    | .acc => if !narrow || x.g.hdr.tiles * 24576 < a + n then .bad 1 0x0B 0 0 false 0
        else .ok (.chip x.core (0x400000 + x.g.atbase * 24576 + a) false)
    | .onchip =>
      let pa := a % 2 ^ 64
      if paKind pa ≠ .onchip then .bad 4 0x0D 0 0 false 0
      else
        let c := (pa - 0xF00000000) / 2 ^ 24
        let off := (pa - 0xF00000000) % 2 ^ 24
        if s.peerMay x.core x.g c off n x.kind then .ok (.chip c (s.peerOff x.g c off) true)
        else .bad 3 0x0C 0 0 false 0

/-- Every lane's check. -/
abbrev Checks := List (Nat × Int × Check)

/-- Walks asked for by the checks that missed (R33), and host translations asked for once (R389). -/
def State.askAllWalks (s : State) (w : Wanted) (asid : Nat) (cs : Checks) : State :=
  cs.foldl (fun s c => match c.2.2 with
    | .miss va => s.askWalk w asid va
    | .ats d f p => if s.ats.contains (d, f, p) then s else { s with ats := s.ats ++ [(d, f, p)] }.emit (.atsRequest d f p)
    | _ => s) s

/-- The fault that the checks of an instruction raise, if any: the first in the order of R257, for every lane that raises its cause. -/
def firstFault (k : AccKind) (sp : Space) (cs : Checks) : Option Trap :=
  let rank := fun (c : Nat × Int × Check) => match c.2.2 with
    | .bad r _ _ _ _ _ => some r
    | _ => none
  let best := cs.foldl (fun (b : Option Nat) c => match rank c, b with
    | some r, some b => some (min r b)
    | some r, none => some r
    | none, b => b) none
  match cs.find? fun c => rank c = best && best.isSome with
  | some (_, _, .bad _ cause detail _ _ _) =>
    let same := cs.filter fun c => match c.2.2 with
      | .bad _ q d _ _ _ => q = cause && d = detail
      | _ => false
    match same with
    | (_, ea, .bad _ _ _ level s2 key) :: _ =>
      some { cause := cause, detail := detail, lanes := maskOf fun l => same.any fun c => c.1 = l, d := BitVec.ofInt 64 ea,
             a := accessWord level s2 k sp, b := BitVec.ofNat 64 key,
             va := if sp = .glob then some (ea.toNat % 2 ^ 64) else none }
    | _ => none
  | _ => none

/-- The places of lanes in ascending order, once no lane waits and none is refused. -/
def placesOf (cs : Checks) : List (Nat × Place) := cs.filterMap fun c => match c.2.2 with
  | .ok p => some (c.1, p)
  | _ => none

/-- The accessor that a split's instruction is. -/
def Ctx.accessor (c : Ctx) (k : AccKind) (u : LeafUse := .any) : Accessor :=
  { core := c.core, who := .split c.ref, g := c.g, kind := k, leaf := u }

/-- A load that waits for memory of the host or of a peer: a blocking point, at which the split's windows close (R161, R191, R356 kind 8). -/
def Ctx.remoteWait {α : Type} (c : Ctx) (s : State) (addr : W64) : Act α :=
  stop (.wait { kind := 8, addr := addr }) (s.drain c.core c.slot fun p => p.split = c.sp)

/-- What an instruction that waits for memory of the host or of a peer keeps beside its blocking record (R337). -/
def Act.planned {α : Type} (r : Act α) (p : Option LoadPlan) : Act α :=
  match r with
  | .error (.wait b, s) => stop (.wait { b with plan := p }) s
  | r => r

/-- Whether a search region is open for the warp (R301). -/
def Warp.regionOpen (w : Warp) : Bool := w.satchel.getLsbD 0

/-- Lanes of the region (R300, R301). -/
def Warp.rmask (w : Warp) : LaneMask := BitVec.ofNat 32 (w.satchel.toNat / 2 ^ 32)

/-- A lane-private fault names the address that the pager would need: the global one (R11). -/
def Ctx.pagerVa (c : Ctx) (sp : Space) (t : Trap) : Trap :=
  if sp = .priv then { t with va := some (c.g.privVa c.w.num ((lowest t.lanes).getD 0) t.d.toNat) } else t

/-- All checks of a per-lane memory instruction (R257): the places it accesses, or how it ends. `protect` holds for the lanes of an open
search region (R303). -/
def Ctx.places (c : Ctx) (s : State) (sp : Space) (k : AccKind) (u : LeafUse) (n align : Nat) (protect : Option (Nat × Nat))
    (accs : List (Nat × Int)) : Act (List (Nat × Place)) :=
  let cs : Checks := accs.map fun a => (a.1, a.2, s.check (c.accessor k u) sp c.w.num a.1 n align (if lane c.w.rmask a.1 then protect else none) a.2)
  let want := (c.accessor k (if sp = .priv then .lanePrivate else u)).wanted
  if cs.any (fun x => match x.2.2 with
      | .bad r _ _ _ _ _ => r < 100
      | _ => false) then
    match firstFault k sp cs with
    | some t => stop (.trap t) s
    | none => stop .again s
  else if cs.any fun x => match x.2.2 with
      | .miss _ => true
      | _ => false then
    stop .again (s.askAllWalks want c.g.lrec.asid cs)
  else if cs.any fun x => x.2.2 = .poison then stop .kill s
  else
    match firstFault k sp cs with
    | some t => stop (.trap (c.pagerVa sp t)) s
    | none =>
      if cs.any fun x => match x.2.2 with
          | .ats _ _ _ => true
          | _ => false then
        let s' := s.askAllWalks want c.g.lrec.asid cs
        let a := (cs.find? fun x => match x.2.2 with
          | .ats _ _ _ => true
          | _ => false).map (·.2.1)
        -- a load that waits for host memory is a blocking point (R161, R356 kind 8)
        if k = .read then c.remoteWait s' (BitVec.ofInt 64 (a.getD 0)) else stop .again s'
      else .ok (placesOf cs)

/-- A range of bytes accessed by one lane, in pieces of the alignment's size: every piece is checked, and a fault names the range's own
address (R343). -/
def Ctx.range (c : Ctx) (s : State) (sp : Space) (k : AccKind) (l addr len align : Nat) (u : LeafUse := .any) : Act (List Place) :=
  let piece := min align 64
  let accs := (List.range (len / max 1 piece)).map fun i => (l, ((addr + i * piece : Nat) : Int))
  match c.places s sp k u piece (if addr % align = 0 then piece else align) none (if addr % align = 0 then accs else [(l, (addr : Int))]) with
  | .ok ps => .ok (ps.map (·.2))
  | .error (.trap t, s) => .error (.trap { t with d := BitVec.ofNat 64 addr }, s)
  | .error e => .error e

/-- What places of a range read as, in order, and whether any of it is poisoned; `piece` bytes a place. -/
def Ctx.readRange (c : Ctx) (s : State) (ps : List Place) (piece : Nat) : List Byte × Bool :=
  let r := ps.map fun p => s.readPlace c.die c.owner p piece
  (r.flatMap (·.1), r.any (·.2))

/-! ### Acquire and release -/

/-- Order scopes that reach past the warp (R92). -/
def reaches : Scope → Bool
  | .lane | .warp => false
  | .group | .gang | .die | .dev | .sys => true

/-- Whether a scope is device or system (R110). -/
def wideScope : Scope → Bool
  | .dev | .sys => true
  | .lane | .warp | .group | .gang | .die => false

/-- Whether the write at an owner's ports have all been applied: a release or fence waits for them (R94, R132). -/
def State.portsClear (s : State) (o : Option Nat) : Bool := s.cores.all fun k => k.port.all fun p => p.owner ≠ o

/-- A release at a scope by an agent of die e (R110): device and system scope close the open epoch. -/
def State.release (s : State) (e : Nat) (sc : Scope) : State := if wideScope sc then s.closeEpoch e else s

/-- Whether some write to a peer device is not acknowledged yet (R114). -/
def State.peerBusy (s : State) : Bool :=
  s.net.any (fun r => !r.inval && paKind (r.sector * 64) = .peer) ||
    s.dies.any fun d => d.txq.any (fun o => o.dev.isSome) || d.tx.any fun f => f.dev.isSome && f.buf ≠ []

/-- Whether a write of die e to host memory has not been performed yet (R105, R112). -/
def State.hostBusy (s : State) (e : Nat) : Bool :=
  s.net.any fun r => r.src = e && !r.inval && !r.applied && paKind (r.sector * 64) = .host

/-- Whether a write of die e to a line of its own waits to be performed at its home (R110). -/
def State.homeBusy (s : State) (e : Nat) : Bool := s.net.any fun r => r.src = e && r.dst = e && !r.inval && !r.ext && !r.applied

/-- A release that may be performed now; otherwise the instruction runs again later (R94, R105, R110, R114). -/
def Ctx.releaseNow (c : Ctx) (s : State) (sc : Scope) : Act State :=
  if reaches sc && (!s.portsClear c.owner || s.homeBusy c.die) then stop .again s
  else if sc = .sys && (s.peerBusy || s.hostBusy c.die) then stop .again s
  else .ok (s.release c.die sc)

/-- The stamps that an acquire of die e at a scope has to see satisfied: those of stamped releases whatever the scope, and at device and system
scope those of every write of another die (R110, R405). -/
def acquired (sc : Scope) (e : Nat) (v : List Stamp) : List Stamp := v.filter fun x => x.rel || (wideScope sc && x.die ≠ e)

/-- Whether an acquire that returns stamps may complete (R110, R405; log entry 10). -/
def State.acquireOk (s : State) (e : Nat) (sc : Scope) (v : List Stamp) : Bool :=
  (acquired sc e v).all fun x => marksOk ((s.mergeAll e v).die e) e x.die x.v

/-- What an acquire that cannot complete yet leaves: merged stamps and close requests (R107, R109). -/
def State.acquireAsk (s : State) (e : Nat) (sc : Scope) (v : List Stamp) : State :=
  (acquired sc e v).foldl (fun t x => t.askClose e x.die x.v) (s.mergeAll e v)

/-- An acquire at a scope of what a read returned: the stamps merged, or the instruction runs again (R94, R110, R405). -/
def Ctx.acquireNow (c : Ctx) (s : State) (sc : Scope) (v : List Stamp) : Act State :=
  if s.acquireOk c.die sc v then .ok (s.mergeAll c.die v) else stop .again (s.acquireAsk c.die sc v)

/-- How a read of places, each of n bytes, by a split goes on (R58, R59, R65, R107, R110, R161, R191): the slices are filled, a read of memory of
the host or of a peer closes the split's windows and may wait there (`addr` is what its blocking record names, none for an atomic), and then
the read acquires at a scope or merges as every load does. `rmw` reads at the homes. -/
def Ctx.observe (c : Ctx) (s : State) (acq : Option Scope) (ps : List Place) (n : Nat) (addr : Option W64) : Act State :=
  let far := (memBytes ps).any fun b => distant (b.1 / 64)
  let at' := fun (k : Nat) => if addr.isSome then c.die else homeDie (k * 64)
  match s.fetchBytes at' (.split c.ref) c.g.owner (memBytes ps) with
  | (.again, s) => stop .again s
  | (.distant, s) =>
    match addr with
    | some a => c.remoteWait s a
    | none => stop .again s
  | (.ready, s) =>
    let s := if far && addr.isSome then s.drain c.core c.slot fun p => p.split = c.sp else s
    match acq with
    | some sc => c.acquireNow s sc (s.stampsOf c.die ps n)
    | none => .ok (s.mergeAll c.die (s.stampsOf c.die ps n))

/-- A fence that may complete now (R95, R110): at device and system scope every write that the die's work depends on is everywhere, and
the open epoch is closed. -/
def Ctx.fenceNow (c : Ctx) (s : State) (sc : Scope) : Act State :=
  if wideScope sc && !s.allMarks c.die then stop .again (s.askAll c.die) else c.releaseNow s sc

/-- The epochs that a release of die e has closed, as a vector: its own entry is the epoch before the open one (R110, R405). -/
def State.closedVec (s : State) (e : Nat) : List Nat := (s.die e).vc.set e (vcAt (s.die e).vc e - 1)

/-- Two vectors joined entry by entry. -/
def joinVec (a b : List Nat) : List Nat := (List.range 8).map fun k => max (vcAt a k) (vcAt b k)

/-- Whether every write that a vector names has been applied wherever die e's agents may read it (R110, R405). -/
def State.vecOk (s : State) (e : Nat) (v : List Nat) : Bool :=
  (List.range 8).all fun k => k = e || vcAt v k ≤ vcAt (s.die e).marks k

/-- An acquire of die e of a vector that the counter unit holds: the vector merged, or the dies it waits for asked (R107, R109, R110). -/
def State.acquireVec (s : State) (e : Nat) (v : List Nat) : Bool × State :=
  if s.vecOk e v then (true, s.mergeStamp e v)
  else (false, s.askClose e e v)

/-- An acquire at device scope of what the counter unit gives; otherwise the instruction runs again. -/
def Ctx.acquireVecNow (c : Ctx) (s : State) (v : List Nat) : Act State :=
  match s.acquireVec c.die v with
  | (true, s) => .ok s
  | (false, s) => stop .again s

/-! ### Lane-private words and the trail -/

/-- Whether register writes of the warp are trailed (R305). -/
def Ctx.trailing (c : Ctx) : Bool := c.w.regionOpen && !c.w.handler

/-- Reads n bytes of each lane's private memory, with poison (R11, R256): the machine's own reads of the satchels, which leave the slices as they
are (log entry 52). -/
def Ctx.privRead (c : Ctx) (s : State) (n : Nat) (accs : List (Nat × Int)) : Act (List (Nat × List Byte × Bool)) := do
  let ps ← c.places s .priv .read .lanePrivate n n none accs
  return ps.map fun p => (p.1, s.readPlace c.die c.owner p.2 n)

/-- One lane-private write. -/
structure PrivWrite where
  lane : Nat
  addr : Nat
  bytes : List Byte
  poison : Bool := false
  deriving DecidableEq, Repr

/-- The places of lane-private writes, each of its own size. -/
def Ctx.privPlaces (c : Ctx) (s : State) (ws : List PrivWrite) : Act (List (Place × List Byte × Bool)) := do
  let ps ← c.places s .priv .write .lanePrivate 1 1 none
    (ws.flatMap fun w => (spanOf w.addr w.bytes.length 4).map fun (k : Nat) => (w.lane, ((max w.addr (k * 4) : Nat) : Int)))
  -- each word's first byte is checked above; the word's bytes follow it
  let base := fun (l a : Nat) => ((ps.zip (ws.flatMap fun w => (spanOf w.addr w.bytes.length 4).map fun k => (w.lane, max w.addr (k * 4)))).find?
    fun q => q.2 = (l, a)).map (·.1.2)
  return ws.map fun w => (.mem ((spanOf w.addr w.bytes.length 4).flatMap fun k =>
    let lo := max w.addr (k * 4)
    match base w.lane lo with
    | some (.mem (b :: _)) => (List.range (min (w.addr + w.bytes.length) (k * 4 + 4) - lo)).map fun i => (b.1 + i, b.2)
    | _ => []), w.bytes, w.poison)

/-- CPTOP, TRTOP, SERIAL and UNITS of a satchel header (R302). -/
structure SHdr where
  cptop : Nat
  trtop : Nat
  serial : Nat
  units : Nat
  level : Nat
  exhausted : Bool
  thefts : Nat
  given : Nat
  deriving DecidableEq, Repr

/-- A satchel header from its 32 bytes (R302). -/
def SHdr.of (bs : List Byte) : SHdr :=
  let f := fun (a n : Nat) => ofBytes ((bs.drop a).take n)
  { cptop := f 0 4, trtop := f 4 4, serial := f 8 4, units := f 12 1, level := f 14 1, exhausted := f 15 1 % 2 = 1, thefts := f 16 4,
    given := f 20 4 }

/-- The 32 bytes of a satchel header (R302). -/
def SHdr.bytes (h : SHdr) : List Byte :=
  leBytes 4 h.cptop ++ leBytes 4 h.trtop ++ leBytes 4 h.serial ++ leBytes 1 h.units ++ leBytes 1 0 ++ leBytes 1 h.level
    ++ leBytes 1 (if h.exhausted then 1 else 0) ++ leBytes 4 h.thefts ++ leBytes 4 h.given ++ List.replicate 8 0

/-- The satchel headers of lanes (R302); a poisoned header is uncorrectable consumption (R374). -/
def Ctx.headers (c : Ctx) (s : State) (ls : List Nat) : Act (List (Nat × SHdr)) := do
  let r ← c.privRead s 16 (ls.map fun l => (l, 0))
  let q ← c.privRead s 16 (ls.map fun l => (l, 16))
  if r.any (fun x => x.2.2) || q.any (fun x => x.2.2) then stop .kill s
  else return (r.zip q).map fun x => (x.1.1, SHdr.of (x.1.2.1 ++ x.2.2.1))

/-- A trail entry (R306): the low word names kind, OLDP and place (a register number or a satchel address); the high word the old value. -/
def trailEntry (kind : Nat) (oldp : Bool) (place old : Nat) : List Byte :=
  leBytes 8 (place * 8 % 2 ^ 64 + (if oldp then 4 else 0) + kind) ++ leBytes 8 old

/-- SOVF (R305, R320): CPTOP and TRTOP of the lowest lane. -/
def sovf (hs : List (Nat × SHdr)) : Trap :=
  { cause := 0x31, lanes := maskOf fun l => hs.any fun h => h.1 = l,
    d := BitVec.ofNat 64 ((hs.head?.map (·.2.cptop)).getD 0), a := BitVec.ofNat 64 ((hs.head?.map (·.2.trtop)).getD 0) }

/-- The search faults' presentation (R320, R343): CPTOP of the lowest lane; a lane outside an open region has no CPTOP, and the value
presented for it is a free value. -/
def Ctx.srch {α : Type} (c : Ctx) (s : State) (detail : Nat) (ls : LaneMask) : Act α :=
  let l := (lowest ls).getD 0
  let t : Trap := { cause := 0x30, detail := detail, lanes := ls }
  let hs : Act (List (Nat × SHdr)) := if c.w.regionOpen && lane c.w.rmask l then c.headers s [l] else .ok []
  match hs with
  | .error (.again, s) => stop .again s
  | .ok (h :: _) => stop (.trap { t with d := BitVec.ofNat 64 h.2.cptop }) s
  | _ => stop (.trap { t with d := Config.openValue s.draws }) { s with draws := s.draws + 1 }

/-- The trail records of register writes about to take effect (R305): `ws` lists the registers an instruction writes, lane by lane, each
lane's in ascending order. Entries are recorded, and TRTOP moved, once every lane's space and addresses have been checked. -/
def Ctx.trail (c : Ctx) (s : State) (ws : List (Nat × Nat)) : Act State := do
  let ws := ws.filter fun w => lane c.w.rmask w.1 && c.g.hdr.trailbase ≤ w.2 && w.2 ≤ c.g.hdr.trailtop
  let ls := lanes.filter fun l => ws.any fun w => w.1 = l
  if !c.trailing || ws.isEmpty then return s
  else
    let hs ← c.headers s ls
    let count := fun (l : Nat) => (ws.filter fun w => w.1 = l).length
    let full := hs.filter fun h => h.2.trtop < h.2.cptop + 16 * count h.1
    let fits := hs.filter fun h => !full.contains h
    let entries := fits.flatMap fun h => (ws.filter fun w => w.1 = h.1).zipIdx.map fun (w : (Nat × Nat) × Nat) =>
      let old := s.vreg c.core c.slot w.1.2 h.1
      ({ lane := h.1, addr := h.2.trtop - 16 * (w.2 + 1),
         bytes := trailEntry 0 false w.1.2 (old.data.toNat + if old.poison then 2 ^ 32 else 0) } : PrivWrite)
    let tops := fits.map fun h => ({ lane := h.1, addr := 4, bytes := leBytes 4 (h.2.trtop - 16 * count h.1) } : PrivWrite)
    let pl ← c.privPlaces s (entries ++ tops)
    if !full.isEmpty then stop (.trap (sovf full)) s
    else return s.writePlaces c.die c.owner false pl

end Sys2Proof.Machine
end

