-- ==== Sys2Proof/Machine/Network.lean ====
section
/-! DEFINITION. Between dies: remote writes, acknowledgements, marks and close requests (R106 to R111), the L2's own steps (R58, R60), and
writes from the host (R113). -/

namespace Sys2Proof.Machine

/-! ### Remote writes -/

/-- How a remote write reaches its home. -/
def Remote.attr (r : Remote) : Attr :=
  { key := r.key, desc := r.desc, comp := r.comp, cp := r.cp, ord := r.ord, lkey := r.lkey, part := r.part }

/-- Whether an earlier write of the same die to some of the same bytes waits (R89). -/
def State.overtakes (s : State) (r : Remote) : Bool :=
  (s.net.takeWhile (· ≠ r)).any fun q =>
    q.src = r.src && !q.inval && !q.applied && q.sector = r.sector && offsMask q.bytes &&& offsMask r.bytes ≠ 0

/-- Whether a write that waits at a die may be applied, the other parts of its operation apart: it was delivered, its stamp is satisfied (a write
that never left its die has none to satisfy), it overtakes none, posted writes of the host follow the order in which they reached their agent,
and its home need not wait for tokens (R65, R89, R109, R113, R134). -/
def State.partOk (s : State) (r : Remote) : Bool :=
  r.here &&
  ((r.src = r.dst && !r.ext && !r.inval) || marksOk (s.die r.dst) r.dst r.src r.stamp) &&
  (r.inval || (!s.overtakes r && s.homeFree r.attr true r.sector)) &&
  (!r.ext || 65 ≤ r.tag || !((s.net.takeWhile (· ≠ r)).any fun q => q.ext && q.tag < 65 && q.src = r.src && !q.applied))

/-- The writes that no observer sees divided from one, itself among them (R87). -/
def State.partsOf (s : State) (r : Remote) : List Remote :=
  if r.op.isNone || r.inval then [r] else s.net.filter fun q => q.op = r.op && !q.inval && !q.applied

/-- Whether a die may apply a remote write (R87, R109). -/
def State.applyOk (s : State) (r : Remote) : Bool := (s.partsOf r).all s.partOk

/-- The remote writes that wait at a die, oldest first. -/
def State.waitingAt (s : State) (e : Nat) : List Remote := s.net.filter fun r => r.dst = e && !r.applied

/-- An invalidation applied at a copy holder, which acknowledges it (R108, R111). -/
def State.applyInval (s : State) (r : Remote) : State :=
  let s := s.dropLine r.dst r.sector
  let heard := fun (x : Remote) => if x.id = r.id && !x.inval then { x with copies := x.copies.filter (· ≠ r.dst) } else x
  { s with net := (s.net.erase r).map heard }.sendMarks r.src

/-- A write into a core window performed at the owning core's port (R131). -/
def State.applyChip (s : State) (r : Remote) : State :=
  let a := r.sector * 64 - 0xF00000000
  (runsOf r.bytes).foldl (fun s b =>
    s.farWrite r.owner (a / 2 ^ 24) (a % 2 ^ 24 + b.1) b.2 r.poison (some { die := r.src, v := r.stamp, rel := r.rel })) s

/-- One part of a write applied at its home, which sends the copy holders its invalidations (R109, R111). -/
def State.applyPart (s : State) (r : Remote) : State :=
  let ds := s.copyDies r.sector
  let s := { s with net := s.net.map fun (x : Remote) => if x = r then { x with applied := true, copies := ds } else x }
  if paKind (r.sector * 64) = .onchip then s.applyChip r
  else
    (s.homeWrite r.attr r.sector r.bytes r.poison { die := r.src, v := r.stamp, rel := r.rel }).sendInvals r.sector r.src r.stamp r.id

/-- A write applied at its home, with the other parts of its operation (R87, R109). -/
def State.applyWrite (s : State) (r : Remote) : State := (s.partsOf r).foldl State.applyPart s

/-- REMOTE_WRITE_APPLY: the k-th write waiting at a die is applied, or the die asks for the epochs it waits on (R109). -/
def State.remoteApply (s : State) (e k : Nat) : State :=
  match (s.waitingAt e)[k]? with
  | none => s
  | some r =>
    if s.applyOk r then (if r.inval then s.applyInval r else s.applyWrite r)
    else if r.here then s.askClose e r.src r.stamp else s

/-- The interrupts whose writes are performed go to the host, in order (R113). -/
def State.sendIrqs (s : State) : State :=
  let busy := fun (i : Irq) => s.peerBusy || s.net.any fun r => !r.ext && !r.inval && i.lo ≤ r.id && r.id < i.hi
  let go := s.irqs.takeWhile fun i => !busy i
  go.foldl (fun t i => t.emit (.msix i.fn i.vec)) { s with irqs := s.irqs.drop go.length }

/-- An interrupt that follows the writes numbered from `lo` on (R113). -/
def State.interrupt (s : State) (fn vec lo : Nat) : State :=
  ({ s with irqs := s.irqs ++ [({ fn := fn, vec := vec, lo := lo, hi := s.netSeq } : Irq)] } : State).sendIrqs

/-- REMOTE_WRITE_ACK: the k-th applied write of a die is acknowledged once every copy holder has applied its invalidation, and marks may
follow (R108). -/
def State.remoteAck (s : State) (d k : Nat) : State :=
  match (s.net.filter fun r => r.src = d && r.applied && r.copies = [])[k]? with
  | none => s
  | some r => ({ s with net := s.net.erase r }.sendMarks d).sendIrqs

/-- The message that a die handles next of those that their flow has delivered from another (R135, R138). -/
def State.firstMsg (s : State) (dst src : Nat) : Option DieMsg := s.msgs.find? fun m => m.src = src && m.dst = dst

/-- MARK_RECEIVE: the next message of a die to another, a mark, is taken in (R108). -/
def State.markReceive (s : State) (dst src : Nat) : State :=
  match s.firstMsg dst src with
  | none => s
  | some m => if m.mark then { s with msgs := s.msgs.erase m }.modDie dst fun x => { x with marks := x.marks.set src m.n } else s

/-- CLOSE_REQUEST: the next message of a die to another, a close request, is taken in; the die closes its open epoch if it is one that the request
names (R108, R109). -/
def State.closeRequest (s : State) (dst src : Nat) : State :=
  match s.firstMsg dst src with
  | none => s
  | some m =>
    if m.mark then s
    else
      let s := { s with msgs := s.msgs.erase m }
      if vcAt (s.die dst).vc dst ≤ m.n then s.closeEpoch dst else s

/-- EPOCH_TIMEOUT: 2,000 ns after the epoch's first remote write the die closes it (R108). -/
def State.epochTimeout (s : State) (e : Nat) : State :=
  match (s.die e).first with
  | some t => if t + 2000 ≤ s.gtime then s.closeEpoch e else s
  | none => s

/-! ### The L2 (R58, R60) -/

/-- VS of R353. -/
def KHdr.vs (h : KHdr) : Nat := roundUp (h.allot * 132) 4096
/-- OFFVREG of R353. -/
def KHdr.offVreg (h : KHdr) : Nat := 0x1000 + h.warps * 8192

/-- A number written into a context record at once, at the record's home. -/
def State.recWrite (s : State) (pa n x : Nat) : State := s.privWrite (homeDie pa) pa n x

/-- A lane word written into the vector image of warp w of a saved group, with its poison bit (R357). -/
def State.imageWord (s : State) (v : Saved) (w reg l : Nat) (x : LaneWord) : State :=
  let h := (v.room.group.getD {}).hdr
  let b := v.ctx + h.offVreg + w * h.vs
  let p := b + h.allot * 128 + 4 * reg
  let old := ofBytes ((List.range 4).map fun i => s.homeByte none (p + i))
  (s.recWrite (b + reg * 128 + 4 * l) 4 x.data.toNat).recWrite p 4 (old % 2 ^ l + (if x.poison then 2 ^ l else 0) + old / 2 ^ (l + 1) * 2 ^ (l + 1))

/-- The loads of a saved group's split that are out and have not come (R337). -/
def Saved.loadsOut (v : Saved) (num split : Nat) : Bool := v.reqs.any fun q => q.who = .split ⟨0, num, split⟩ && !q.done

/-- The remote loads of a saved group whose data has come and is not in its record yet: warp, split slot, plan. -/
def Saved.came (v : Saved) : List (Nat × Nat × LoadPlan) :=
  v.warps.flatMap fun w => w.2.block.zipIdx.filterMap fun b =>
    match b.1.plan with
    | some p => if b.1.aux = 0 && !v.loadsOut w.1 b.2 then some (w.1, b.2, p) else none
    | none => none

/-- The value of a remote load written into the record of its group, and AUX of its blocking record (R337, R356). -/
def State.landLoad (s : State) (v : Saved) (w i : Nat) (p : LoadPlan) : State :=
  let e := dieOf v.core
  let o := v.room.group.map (·.owner)
  let n := Size.bytes p.size
  let data := p.lanes.flatMap fun x =>
    let r := s.readPlace e o (.mem x.2.2) n
    (loadWords p.size r.1 r.2).zipIdx.map fun y => (x.2.1 + y.2, x.1, y.1)
  let gone := p.zero.flatMap fun z => (List.range (Size.regs p.size)).map fun k => (z.2 + k, z.1, ({} : LaneWord))
  let s := s.mergeAll e (s.stampsOf e (p.lanes.map fun x => .mem x.2.2) n)
  ((data ++ gone).foldl (fun s y => s.imageWord v w y.1 y.2.1 y.2.2) s).recWrite (v.ctx + 0x1818 + w * 8192 + 32 * i) 8 1

/-- A saved group once the values of some of its loads stand in its record. -/
def Saved.landed (v : Saved) (ls : List (Nat × Nat × LoadPlan)) : Saved :=
  let is := fun (w i : Nat) => ls.any fun x => x.1 = w && x.2.1 = i
  { v with
    warps := v.warps.map fun p => (p.1, { p.2 with
      block := p.2.block.zipIdx.map fun (b : Block × Nat) => if is p.1 b.2 then { b.1 with aux := 1 } else b.1 })
    reqs := v.reqs.filter fun q => match q.who with
      | .split r => !is r.slot r.split
      | .job _ _ | .mx _ _ | .host _ => true }

/-- The remote loads of saved groups whose data has come are completed in their records (R337). -/
def State.landLoads (s : State) : State :=
  s.saved.foldl (fun s v =>
    let ls := v.came
    if ls.isEmpty then s
    else
      let t := ls.foldl (fun t x => t.landLoad v x.1 x.2.1 x.2.2) s
      { t with saved := t.saved.map fun (x : Saved) => if x.launch = v.launch && x.groupid = v.groupid then x.landed ls else x }) s

/-- A sector has come for those who asked for it, and a split that waits for it goes on (R65, R161); one whose group is saved finds its value in
the record (R337). -/
def State.came (s : State) (p : MemReq → Bool) : State :=
  let mine := s.reqs.filter fun q => !q.done && p q
  let heard := fun (q : MemReq) => if !q.done && p q then { q with done := true } else q
  (mine.foldl (fun (t : State) (q : MemReq) => match q.who with
    | .split r => t.modWarp r.core r.slot fun w =>
        if (at_ {} w.block r.split).kind = 8 then { w with block := w.block.set r.split {} } else w
    | .job _ _ | .mx _ _ | .host _ => t)
    { s with reqs := s.reqs.map heard, saved := s.saved.map fun (v : Saved) => { v with reqs := v.reqs.map heard } }).landLoads

/-- L2_SECTOR_FILL: a home slice fills what a sector lacks from memory, and another die's slice takes a copy from the home (R58, R111). A sector of
HBM is charged to the tenant whose slot tags it, and waits for a token (R65); one of host memory answers those who asked for it (R161); one of
a peer comes in a packet (R138). -/
def State.l2Fill (s : State) (e sector : Nat) : State :=
  let h := homeDie (sector * 64)
  let key := match s.sec h sector with
    | some x => lineKey x.key none
    | none => lineKey (s.storedKey sector) none
  let at' : Attr := { key := key }
  if e ≠ h && !s.mayCopy e at' sector then s
  else
    match paKind (sector * 64) with
    | .control | .onchip | .peer | .reserved => s
    | .hbm =>
      if !s.mustFetch e at' sector allBytes then s.fillSec e at' sector allBytes
      else if s.tokenFree sector key then (s.spend sector key).fillSec e at' sector allBytes else s
    | .host => (s.fillSec e at' sector allBytes).came fun q => q.sector = sector

/-- L2_WRITEBACK: a sector leaves its home's slice, a dirty one after it is written back, once its tenant holds a token (R58, R65). A copy leaves
by an invalidation or by cache control alone (R111). -/
def State.l2Evict (s : State) (e sector : Nat) : State :=
  match s.sec e sector with
  | none => s
  | some x => if homeDie (sector * 64) = e && s.backFree x then s.evictHome x else s

/-- Clean of a sector (R60): written back and kept, and copies brought up to date. -/
def State.cleanSec (s : State) (sector : Nat) : State :=
  let h := homeDie (sector * 64)
  let s := match s.sec h sector with
    | some x => s.writeBack x
    | none => s
  let x := s.sec h sector
  { s with l2 := s.l2.map fun (y : L2Sec) =>
      if y.sector = sector && y.die ≠ h then
        let key := match x with
          | some x => x.key
          | none => y.key
        { y with have_ := allBytes, data := (List.range 64).map fun i => s.homeByte key (sector * 64 + i), key := key,
                 poison := s.homePoison (sector * 64), stamps := (x.map (·.stamps)).getD [] }
      else y }

/-- A sector without the copies that other dies hold (R60). -/
def State.dropCopies (s : State) (sector : Nat) : State := (s.copyDies sector).foldl (fun s d => s.dropSec d sector) s

/-- Evict of a sector (R60): written back and removed, with every copy. -/
def State.evictSec (s : State) (sector : Nat) : State :=
  let s := s.dropCopies sector
  match s.sec (homeDie (sector * 64)) sector with
  | some x => s.evictHome x
  | none => s

/-- Discard of a sector (R60): removed with every copy, without write-back. -/
def State.discardSec (s : State) (sector : Nat) : State :=
  let s := s.dropCopies sector
  match s.sec (homeDie (sector * 64)) sector with
  | some x => s.forgetSec x
  | none => s

/-! ### The steps of the network and the L2 -/

/-- REMOTE_WRITE_APPLY (R109). -/
def execRemoteWriteApply (die k : Nat) (s : State) : Host.Outcome State Fault Refusal := .next (s.remoteApply die k)
/-- REMOTE_WRITE_ACK (R108). -/
def execRemoteWriteAck (die k : Nat) (s : State) : Host.Outcome State Fault Refusal := .next (s.remoteAck die k)
/-- MARK_RECEIVE (R108). -/
def execMarkReceive (dst src : Nat) (s : State) : Host.Outcome State Fault Refusal := .next (s.markReceive dst src)
/-- CLOSE_REQUEST (R108). -/
def execCloseRequest (dst src : Nat) (s : State) : Host.Outcome State Fault Refusal := .next (s.closeRequest dst src)
/-- EPOCH_TIMEOUT (R108). -/
def execEpochTimeout (die : Nat) (s : State) : Host.Outcome State Fault Refusal := .next (s.epochTimeout die)
/-- L2_SECTOR_FILL (R58). -/
def execL2SectorFill (die sector : Nat) (s : State) : Host.Outcome State Fault Refusal := .next (s.l2Fill die sector)
/-- L2_WRITEBACK (R58). -/
def execL2Writeback (die sector : Nat) (s : State) : Host.Outcome State Fault Refusal := .next (s.l2Evict die sector)
/-- PAGE_TABLE_WALK (R33). -/
def execPageTableWalk (die : Nat) (s : State) : Host.Outcome State Fault Refusal := .next (s.pageWalk die)

end Sys2Proof.Machine
end

