-- ==== Sys2Proof/Machine/Operands.lean ====
section
/-! DEFINITION. Operands and results: register numbers and their checks (R45, R186, R258), lookahead violations (R190), operand values
(R184, R212), mapped operands (R185, R298, R299), and writing results (R43, R189, R305). -/

namespace Sys2Proof.Machine

/-! ### What an instruction touches -/

/-- A register use to check before an instruction issues: `cnt` consecutive registers of a vector operand, a uniform, a mask, sr.wflags as
a whole, or E. `pos` is the operand's number in sr.trapa (R343): 0 D, 1 A, 2 B, 3 C, 4 E, 5 an implied uniform. -/
inductive Need where
  | v (pos n : Nat) (ix : Bool) (cnt : Nat)
  | k (pos n : Nat)
  | m (n : Nat)
  | wflags
  | empty
  deriving DecidableEq, Repr

/-- What a source operand touches. -/
def srcNeed (pos cnt : Nat) (x : Src) : List Need :=
  match x with
  | .v n => [.v pos n.toNat false cnt]
  | .ix n => [.v pos n.toNat true cnt]
  | .k n => [.k pos n.toNat]
  | .imm _ => []
  | .map _ n => [.v pos n.toNat false 1]

/-- What a vector destination, or the data of a store, touches. -/
def dstNeed (cnt : Nat) (d : Dst) : List Need := [.v 0 d.n.toNat d.ix cnt]

/-- Uniforms after the first of a run of consecutive ones (R343: operand 5). -/
def impliedK (n cnt : Nat) : List Need := (List.range cnt).map fun i => .k 5 (n + 1 + i)

/-- The register number of lane l (R45). -/
def Ctx.number (c : Ctx) (n : Nat) (ix : Bool) (l : Nat) : Int :=
  if ix then (n : Int) + (at_ (0 : W32) c.w.ix l).toInt else n

/-- Whether cnt registers from e on are inside the allotment, and e suits a pair or a quad (R45, R258). -/
def Ctx.inAllot (c : Ctx) (e : Int) (cnt : Nat) : Bool :=
  0 ≤ e && e + cnt ≤ c.g.hdr.allot && e % cnt = 0

/-- The REGB of one use, if any lane fails it (R45). -/
def Ctx.regb1 (c : Ctx) (ls : LaneMask) (x : Need) : Option Trap :=
  match x with
  | .v pos n ix cnt =>
    let bad := maskOf fun l => lane ls l && !c.inAllot (c.number n ix l) cnt
    (lowest bad).map fun l =>
      { cause := 0x04, lanes := bad, d := BitVec.ofInt 64 (c.number n ix l), a := BitVec.ofNat 64 pos }
  | .k pos n =>
    if ls ≠ 0 && c.g.hdr.unif ≤ n then some { cause := 0x04, lanes := ls, d := BitVec.ofNat 64 n, a := BitVec.ofNat 64 pos } else none
  | .m _ | .wflags | .empty => none

/-- The register names of one use (R189, R190). -/
def Ctx.names (c : Ctx) (ls : LaneMask) (x : Need) : List RegName :=
  match x with
  | .v _ n false cnt => (List.range cnt).map fun i => .v (n + i)
  | .v _ n true cnt => (lanesOf ls).flatMap fun l => (List.range cnt).map fun i => .v ((c.number n true l).toNat + i)
  | .k _ n => [.k n]
  | .m n => [.m n]
  | .wflags => [.flags, .empty]
  | .empty => [.empty]

/-- The number of a register in sr.trapd of LAV (R343). -/
def RegName.number : RegName → Nat
  | .v n | .k n | .m n => n
  | .flags | .empty => 0x0E

/-- LAV of an instruction that touches a register pending in its split (R190). -/
def Ctx.lav (c : Ctx) (ls : LaneMask) (ns : List Need) : Option Trap :=
  let mk_ := if c.words.pw.isSome && c.pfx.mreg ≠ 0 then [RegName.m c.pfx.mreg.toNat] else []
  let touched := mk_ ++ ns.flatMap (c.names ls)
  (c.w.pend.filter fun p => p.split = c.sp).findSome? fun p =>
    (touched.find? fun r => p.regs.contains r).map fun r =>
      { cause := 0x05, lanes := c.x.mask, d := BitVec.ofNat 64 r.number, a := p.pc }

/-! ### Operand formats and mapped operands -/

/-- The format in which an instruction reads an operand (R184, R298): a 32-bit integer, a narrower one in the low bits, a scalar
floating-point format, one packed two or four to a word, or bits that no slot may feed. -/
inductive OpFmt where
  | i32
  | int (w : Nat)
  | flt (f : FFmt)
  | pair (f : FFmt)
  | quad (f : FFmt)
  | bits
  deriving DecidableEq, Repr

/-- An immediate in an operand's format (R184). -/
def immWord (fm : OpFmt) (i : BitVec 8) : W32 :=
  match fm with
  | .i32 | .int _ | .bits => i.signExtend 32
  | .flt f => BitVec.ofNat 32 (immF f i.toInt)
  | .pair f => BitVec.ofNat 32 (immF f i.toInt * 65537)
  | .quad f => BitVec.ofNat 32 (immF f i.toInt * 0x01010101)

/-- The bytes of a range of a sorted table, unlisted ones zero. -/
def denseBytes (t : List Host.Cell) (a n : Nat) : List Byte :=
  match n with
  | 0 => []
  | n + 1 =>
    match t with
    | [] => 0 :: denseBytes [] (a + 1) n
    | (i, b) :: r => if i = a then b :: denseBytes r (a + 1) n else 0 :: denseBytes ((i, b) :: r) (a + 1) n

/-- The slot's matrix as the group sees it: its bytes, and its poison (R38, R55, R56). -/
def State.slotBytes (s : State) (c : Nat) (o : Option Nat) (slot n : Nat) : List Byte × Bool :=
  let t := (s.core c).slots
  if t.seen slotGrain o (slot * 4096) then (denseBytes (t.cells.dropWhile fun p => p.1 < slot * 4096) (slot * 4096) n, t.poison.contains slot)
  else (List.replicate n 0, false)

/-- INFMT of a slot descriptor (R295). -/
def descInfmt (d : BitVec 128) : Nat := field d.toNat 11 8
/-- Whether a slot is an integer slot (R295). -/
def descInt (d : BitVec 128) : Bool := descMfmt d = 2 && (descInfmt d = 1 || descInfmt d = 4 || descInfmt d = 7)

/-- The element format and width in which a mapped result is placed: none for wrapped integers; the outer none is a mismatch (R299). -/
def placing (d : BitVec 128) (fm : OpFmt) : Option (Option FFmt × Nat) :=
  match descKind d, descInt d, fm with
  | 0, false, .flt f => some (some f, 32)
  | 0, true, .flt f => some (some f, 32)
  | 0, true, .i32 => some (none, 32)
  | 0, true, .int w => some (none, w)
  | 1, false, .pair f => some (some f, 16)
  | 1, true, .i32 => some (none, 16)
  | 2, false, .flt .e4m3 => some (some .e4m3, 8)
  | 2, false, .flt .e5m2 => some (some .e5m2, 8)
  | 2, false, .quad .e4m3 => some (some .e4m3, 8)
  | 2, false, .quad .e5m2 => some (some .e5m2, 8)
  | 2, true, .i32 => some (none, 8)
  | _, _, _ => none

/-- Consecutive pieces of a list, n long each. -/
def pieces {α : Type} (n k : Nat) (t : List α) : List (List α) :=
  match k with
  | 0 => []
  | k + 1 => t.take n :: pieces n k (t.drop n)

/-- A matrix element's exact value (R55, R295). -/
def matValue (d : BitVec 128) (bs : List Byte) : XVal :=
  match descMfmt d with
  | 0 => decodeF .bf16 (ofBytes bs)
  | 1 => decodeF .f32 (ofBytes bs)
  | _ => XVal.ofInt (signed 8 (ofBytes bs))

/-- Element e of a lane word in a slot's input format (R295). -/
def inValue (d : BitVec 128) (w : W32) (e : Nat) : XVal :=
  let h := w.toNat / 2 ^ (16 * e) % 65536
  let b := w.toNat / 2 ^ (8 * e) % 256
  match descInfmt d with
  | 0 => decodeF .f32 w.toNat
  | 1 => XVal.ofInt w.toInt
  | 2 => decodeF .f16 h
  | 3 => decodeF .bf16 h
  | 4 => XVal.ofInt (signed 16 h)
  | 5 => decodeF .e4m3 b
  | 6 => decodeF .e5m2 b
  | _ => XVal.ofInt (signed 8 b)

/-- A sum of products placed as result element i (R298): wrapped to the element's width, or rounded. -/
def placeElem (isInt : Bool) (fmt : Option FFmt) (width : Nat) (rm : RM) (t : List (XVal × XVal)) : Nat :=
  let prods := t.map fun p => p.1.mul p.2
  let y := if isInt then XVal.ofInt (prods.foldl (fun acc x => acc + numAt 0 x) 0) else (sumTerms prods false).1
  match fmt with
  | some f => (roundX f rm false y).1
  | none => (BitVec.ofInt width (numAt 0 y)).toNat

/-- A mapped operand of every lane (R298): the lanes read through the handle's slot, in the format of the operand. -/
def Ctx.mapped (c : Ctx) (s : State) (h n : Nat) (fm : OpFmt) : List LaneWord :=
  match (c.g.handles.getD h none) with
  | none => List.replicate 32 {}
  | some b =>
    match placing b.desc fm with
    | none => List.replicate 32 {}
    | some (fmt, width) =>
      let d := b.desc
      let k := descN d
      let (bytes, bad) := s.slotBytes c.core c.owner b.slot (k * k * descEsize d)
      let rows := pieces k k ((pieces (descEsize d) (k * k) bytes).map (matValue d))
      let om := field d.toNat 14 12
      let rm := if om = 0 then c.rm else RM.of om
      let inside := fun (l : Nat) => lane c.act l || (tbit d.toNat 15 && lane c.x.mask l)
      let x := lanes.map fun l => s.vreg c.core c.slot n l
      if k = 32 then
        let xs := lanes.map fun l => if inside l then inValue d (at_ {} x l).data 0 else XVal.zero
        let p := bad || lanes.any fun l => inside l && (at_ {} x l).poison
        rows.map fun r => LaneWord.of (BitVec.ofNat 32 (placeElem (descInt d) fmt width rm (r.zip xs))) p
      else
        lanes.map fun l =>
          let w := at_ {} x l
          let xs := (List.range k).map fun e => inValue d w.data e
          let y := rows.zipIdx.foldl (fun acc r => acc + placeElem (descInt d) fmt width rm (r.1.zip xs) * 2 ^ (width * r.2)) 0
          LaneWord.of (BitVec.ofNat 32 y) (bad || w.poison)

/-- SLOTU and SLOTF of the mapped operands, in operand order (R185, R203, R298, R299). -/
def Ctx.slotFault (c : Ctx) (ls : LaneMask) (ops : List (Src × OpFmt)) : Option Trap :=
  if ls = 0 then none
  else
    ops.findSome? fun p =>
      match p.1 with
      | .map h _ =>
        match c.g.handles.getD h.toNat none with
        | none => some { cause := 0x28, lanes := ls, d := h.setWidth 64 }
        | some b => if (placing b.desc p.2).isNone then some { cause := 0x29, lanes := ls, d := h.setWidth 64 } else none
      | _ => none

/-- The faults that stand before those of execution: REGB, slot faults, LAV (R203). -/
def Ctx.guard (c : Ctx) (s : State) (ls : LaneMask) (ns : List Need) (maps : List (Src × OpFmt) := []) : Act Unit :=
  match ns.findSome? (c.regb1 ls) with
  | some t => stop (.trap t) s
  | none =>
    match c.slotFault ls maps with
    | some t => stop (.trap t) s
    | none =>
      match c.lav ls ns with
      | some t => stop (.trap t) s
      | none => .ok ()

/-- The faults that stand before a memory instruction's own: one without an active lane touches nothing but its mask (R257). -/
def Ctx.memGuard (c : Ctx) (s : State) (ns : List Need) (maps : List (Src × OpFmt) := []) : Act Unit :=
  if c.act = 0 then c.guard s 0 [] else c.guard s c.act ns maps

/-! ### Operand values -/

/-- Lane l of vN as the warp reads it. -/
def Ctx.vlane (c : Ctx) (s : State) (n l : Nat) : LaneWord := s.vreg c.core c.slot n l

/-- A uniform (R212). -/
def Ctx.kreg (c : Ctx) (n : Nat) : KReg := at_ {} c.w.uni n

/-- A 32-bit operand of every lane (R86 ReadOp, R184); lanes outside `ls` are not examined. -/
def Ctx.vec (c : Ctx) (s : State) (ls : LaneMask) (x : Src) (fm : OpFmt) : List LaneWord :=
  match x with
  | .map h n => c.mapped s h.toNat n.toNat fm
  | .imm i => List.replicate 32 { data := immWord fm i }
  | .k n => List.replicate 32 { data := (c.kreg n.toNat).data.setWidth 32, poison := (c.kreg n.toNat).poison }
  | .v n => lanes.map fun l => if lane ls l then c.vlane s n.toNat l else {}
  | .ix n => lanes.map fun l => if lane ls l then c.vlane s (c.number n.toNat true l).toNat l else {}

/-- A 64-bit operand of every lane (R184): a pair, a whole uniform, or an immediate. -/
def Ctx.wvec (c : Ctx) (s : State) (ls : LaneMask) (x : Src) : List KReg :=
  let pair := fun (n l : Nat) =>
    let a := c.vlane s n l
    let b := c.vlane s (n + 1) l
    ({ data := b.data ++ a.data, poison := a.poison || b.poison } : KReg)
  match x with
  | .imm i => List.replicate 32 { data := i.signExtend 64 }
  | .k n => List.replicate 32 (c.kreg n.toNat)
  | .v n => lanes.map fun l => if lane ls l then pair n.toNat l else {}
  | .ix n => lanes.map fun l => if lane ls l then pair (c.number n.toNat true l).toNat l else {}
  | .map _ _ => List.replicate 32 {}

/-- An operand of the uniform family (R212, R213): a uniform, or an immediate sign-extended to 64 bits. -/
def Ctx.ksrc (c : Ctx) (x : Src) : KReg :=
  match x with
  | .k n => c.kreg n.toNat
  | .imm i => { data := i.signExtend 64 }
  | .v _ | .ix _ | .map _ _ => {}

/-! ### Results -/

/-- An instruction's results: written at once by a fixed-latency instruction, pending for a long-latency one (R189). -/
def Ctx.commit (c : Ctx) (s : State) (long : Bool) (regs : List RegName) (ws : List RegWrite) : State :=
  if long then
    s.modWarp c.core c.slot fun w => { w with pend := w.pend ++
      [{ split := c.sp, pc := c.x.pc, la := c.la, pos := 0, regs := regs, writes := ws }] }
  else s.writeRegs c.core c.slot ws

/-- The registers of a destination in the lanes that a zeroing mask clears: those inside the allotment (R45). -/
def Ctx.zeroed (c : Ctx) (d : Dst) (cnt : Nat) : List (Nat × Nat) :=
  (lanesOf c.zero).filterMap fun l =>
    let e := c.number d.n.toNat d.ix l
    if c.inAllot e cnt then some (l, e.toNat) else none

/-- A vector result: the words of each active lane written to its destination, zero to the lanes a zeroing mask clears (R43, R45, R86),
trailed where a search region asks for it (R305). `res` lists active lanes with their words. -/
def Ctx.writeLanes (c : Ctx) (s : State) (long : Bool) (d : Dst) (cnt : Nat) (res : List (Nat × List LaneWord))
    (extra : List RegName × List RegWrite) : Act State := do
  let hit := res.map fun r => (r.1, (c.number d.n.toNat d.ix r.1).toNat, r.2)
  let gone := c.zeroed d cnt
  let ws : List (Nat × Nat × LaneWord) :=
    (hit.flatMap fun h => h.2.2.zipIdx.map fun x => (h.1, h.2.1 + x.2, x.1)) ++
    (gone.flatMap fun z => (List.range cnt).map fun i => (z.1, z.2 + i, ({} : LaneWord)))
  let s ← c.trail s (ws.map fun w => (w.1, w.2.1))
  return c.commit s long (((ws.map fun w => RegName.v w.2.1).eraseDups) ++ extra.1) ((ws.map fun w => .v w.2.1 w.1 w.2.2) ++ extra.2)

/-- A uniform result (R212). -/
def Ctx.writeK (c : Ctx) (s : State) (long : Bool) (d : BitVec 8) (x : KReg) : State :=
  c.commit s long [.k d.toNat] [.k d.toNat (KReg.of x.data x.poison)]

/-- Flags recorded by an instruction (R230): nothing to write when it raised none, yet sr.wflags pends with its other results. -/
def flagWrites (f : FFlags) : List RegName × List RegWrite := ([.flags], if f = 0 then [] else [.flags f])

/-- A 32-bit lane-wise instruction (R209, R229): each active lane's result from its operands, poison from poison, flags from clean lanes. -/
def Ctx.laneWise (c : Ctx) (s : State) (long flags : Bool) (d : Dst) (ops : List (Nat × Src × OpFmt)) (f : List W32 → W32 × FFlags) :
    Act State := do
  c.guard s c.act (dstNeed 1 d ++ ops.flatMap fun o => srcNeed o.1 1 o.2.1) (ops.map (·.2))
  let vals := ops.map fun o => c.vec s c.act o.2.1 o.2.2
  let res := (lanesOf c.act).map fun l =>
    let xs := vals.map fun v => at_ {} v l
    if xs.any (·.poison) then (l, LaneWord.of 0 true, (0 : FFlags))
    else (l, LaneWord.of (f (xs.map (·.data))).1 false, (f (xs.map (·.data))).2)
  let fl := res.foldl (fun (acc : FFlags) r => acc ||| r.2.2) 0
  c.writeLanes s long d 1 (res.map fun r => (r.1, [r.2.1])) (if flags then flagWrites fl else ([], []))

end Sys2Proof.Machine
end

