-- ==== Sys2Proof/Machine/Fetch.lean ====
section
/-! DEFINITION. Fetching a split's next instruction (R180, R217, R219), and going on with an instruction that waits at a blocking point
(R161, R356). -/

namespace Sys2Proof.Machine

/-- What a split's fetch gives. -/
inductive Fetched where
  | instr (i : Instr) (x : Words)
  | trap (t : Trap)
  | miss (va : Nat)
  | kill
  deriving DecidableEq, Repr

/-- CODE of R219. -/
def codeTrap (m : LaneMask) (detail : Nat) (came : W64) : Trap :=
  { cause := 0x08, lanes := m, detail := detail, imm := some came, fetched := false }

/-- The instruction that words are: an illegal encoding is one too (R202). -/
def instrOf (x : Words) : Instr :=
  match decodeWords x with
  | .ok i => i
  | .error _ => .illegal x.pw x.w

/-- What a split asks the walkers for in order to fetch (R33). -/
def fetchWanted (r : SplitRef) : Wanted := { who := .split r, write := false, fetch := true }

/-- The line of a core's instruction cache that holds an address of an ASID (R142). -/
def Core.codeAt (k : Core) (asid va : Nat) : Option CodeLine := k.code.find? fun l => l.asid = asid && l.line = va / 64

/-- A 32-bit word of code at a global address, or how its fetch ends. What the core fetched before, it does not fetch again until an
invalidation covers it (R142). -/
def State.codeWord (s : State) (r : SplitRef) (asid : Nat) (m : LaneMask) (va : Nat) : Except Fetched (BitVec 32) :=
  match (s.core r.core).codeAt asid va with
  | some l => if l.poison then .error .kill else .ok (BitVec.ofNat 32 (ofBytes ((l.bytes.drop (va % 64)).take 4)))
  | none =>
    match s.lookup (coreAgent r.core) (.split r) asid va .fetch .any true with
    | .ok pa a =>
      let b := s.readAt (dieOf r.core) a pa 4
      if b.2 then .error .kill else .ok (BitVec.ofNat 32 (ofBytes b.1))
    | .miss => .error (.miss va)
    | .poison => .error .kill
    | .fault f => .error (.trap { cause := f.cause, lanes := m, d := BitVec.ofNat 64 va, b := BitVec.ofNat 64 f.key,
                                  a := accessWord f.level f.s2 .fetch .glob, fetched := false, va := some va })

/-- A line of code taken into a core's instruction cache, unless it is there (R142): it is read as a load reads its bytes (R58, R65). -/
def State.keepLine (s : State) (r : SplitRef) (line : Nat) : Came × State :=
  let g := s.groupOf r.core r.slot
  let va := line * 64
  let asid := g.lrec.asid
  if ((s.core r.core).codeAt asid va).isSome then (.ready, s)
  else
    match s.lookup (coreAgent r.core) (.split r) asid va .fetch .any true,
        s.tlb.find? fun t => t.agent = coreAgent r.core && t.asid = asid && t.va ≤ va && va < t.va + t.size with
    | .ok pa a, some t =>
      match s.fetchBytes (fun _ => dieOf r.core) (.split r) g.owner ((List.range 64).map fun i => (pa + i, a)) with
      | (.ready, s) =>
        let b := s.readAt (dieOf r.core) a pa 64
        (.ready, s.modCore r.core fun k => { k with
          code := k.code ++ [{ asid := asid, line := line, part := t.part, ipa := t.ipa + (va - t.va), bytes := b.1, poison := b.2 }] })
      | c => c
    | _, _ => (.ready, s)

/-- The lines that hold the next n bytes of a split's code, taken into the instruction cache. -/
def State.keepCode (s : State) (r : SplitRef) (n : Nat) : Came × State :=
  let g := s.groupOf r.core r.slot
  match s.split? r with
  | none => (.ready, s)
  | some x =>
    (spanOf (g.lrec.khdr + 64 + x.pc.toNat) n 64).foldl (fun acc k =>
      match acc.1 with
      | .ready => acc.2.keepLine r k
      | _ => acc) (.ready, s)

/-- The fetch of a split's next instruction (R180, R219): code size and wrap, then the words through translation. -/
def State.fetch (s : State) (r : SplitRef) : Fetched :=
  let w := s.warp r.core r.slot
  let g := s.group r.core w.room
  match w.split r.split with
  | none => .kill
  | some x =>
    let came := at_ 0 w.came r.split
    let pc := x.pc.toNat
    let base := g.lrec.khdr + 64
    let size := g.hdr.codesize
    let wrap : Trap := { cause := 0x09, lanes := x.mask, imm := some 0, fetched := false }
    if pc % 4 ≠ 0 then .trap (codeTrap x.mask 2 came)
    else if x.pc.toInt < 0 || size < pc + 8 then .trap (codeTrap x.mask 1 came)
    else if 2 ^ 56 < base + pc + 8 + 1 then .trap wrap
    else
      let word := s.codeWord r g.lrec.asid x.mask
      match word (base + pc), word (base + pc + 4) with
      | .error f, _ => f
      | _, .error f => f
      | .ok a, .ok b =>
        if a.extractLsb' 0 8 = 0xF0 then
          if size < pc + 12 then .trap (codeTrap x.mask 1 came)
          else if 2 ^ 56 < base + pc + 12 + 1 then .trap wrap
          else
            match word (base + pc + 8) with
            | .error f => f
            | .ok d => .instr (instrOf { pw := some a, w := d ++ b }) { pw := some a, w := d ++ b }
        else .instr (instrOf { w := b ++ a }) { w := b ++ a }

/-- The fetch of what stands at an offset from a split's PC. -/
def State.fetchAt (s : State) (r : SplitRef) (off : Nat) : Fetched :=
  (s.modWarp r.core r.slot fun w =>
    { w with splits := modifyAt w.splits r.split (Option.map fun x => { x with pc := x.pc + BitVec.ofNat 64 off }) }).fetch r

/-- The instruction at a split's PC, if it can be fetched. -/
def State.peek (s : State) (r : SplitRef) : Option (Instr × Words) :=
  match s.fetch r with
  | .instr i x => some (i, x)
  | _ => none

/-! ### Blocking points -/

/-- Whether a group may run: resident and not stopped for the debugger (R160, R360). -/
def Group.runs (g : Group) : Bool := g.phase = .resident && !g.stopped

/-- The blocking record of a split. -/
def State.blockOf (s : State) (r : SplitRef) : Block := at_ {} (s.warp r.core r.slot).block r.split

/-- A blocking record cleared. -/
def State.unblock (s : State) (r : SplitRef) : State :=
  s.modWarp r.core r.slot fun w => { w with block := w.block.set r.split {} }

/-- A waiting split's instruction goes on: its words are fetched from its PC, and the body decides from its blocking record (R356). A split
that does not wait so, or whose words are not translated yet, changes nothing but the walks it asks for. -/
def resume (r : SplitRef) (s : State) (kinds : List Nat) (body : Ctx → Instr → Block → State → Act State) : State :=
  let b := s.blockOf r
  match s.split? r with
  | none => s
  | some _ =>
    if !kinds.contains b.kind || !(s.groupOf r.core r.slot).runs then s
    else
      match s.fetch r with
      | .miss va => s.askWalk (fetchWanted r) (s.groupOf r.core r.slot).lrec.asid va
      | .trap t => (s.unblock r).takeTrap r { w := 0 } t
      | .kill => s.killGang r.core (s.warp r.core r.slot).room
      | .instr i x =>
        let s' := { s with cur := r }
        let c := ctxOf s' x
        let e := (body c i b s').ends
        let t := match e.1 with
          | .again => e.2
          | .wait _ => State.finish c e
          | _ => State.finish c (e.1, e.2.unblock r)
        -- an event leaves open which split issued last, so that a wait that does not end changes nothing
        { t with cur := s.cur }

end Sys2Proof.Machine
end

