-- ==== Sys2Proof/Machine/Integer.lean ====
section
/-! DEFINITION. Lane-wise integer, bit-field and address instructions (opcodes 0x10 to 0x2F, R206 to R211). -/

namespace Sys2Proof.Machine

/-! ### Results (R210) -/

/-- An exact integer clamped to the signed 32-bit range (R210). -/
def sat32 (x : Int) : W32 := BitVec.ofInt 32 (max (-2147483648) (min 2147483647 x))

/-- `idiv` (R210). -/
def divInt (u : Bool) (a b : W32) : W32 :=
  if b = 0 then -1
  else if u then BitVec.ofNat 32 (a.toNat / b.toNat)
  else BitVec.ofInt 32 (a.toInt.tdiv b.toInt)

/-- `irem` (R210). -/
def remInt (u : Bool) (a b : W32) : W32 :=
  if b = 0 then a
  else if u then BitVec.ofNat 32 (a.toNat % b.toNat)
  else BitVec.ofInt 32 (a.toInt.tmod b.toInt)

/-- Whether a is below b in signed or unsigned order. -/
def below (u : Bool) (a b : W32) : Bool := if u then a.toNat < b.toNat else a.toInt < b.toInt

/-- An integer condition of R196 on numbers of one width. -/
def condI {n : Nat} (cc : ICond) (a b : BitVec n) : Bool :=
  match cc with
  | .eq => a = b
  | .ne => a ≠ b
  | .lt => a.toInt < b.toInt
  | .le => a.toInt ≤ b.toInt
  | .gt => b.toInt < a.toInt
  | .ge => b.toInt ≤ a.toInt
  | .ltu => a.toNat < b.toNat
  | .leu => a.toNat ≤ b.toNat
  | .gtu => b.toNat < a.toNat
  | .geu => b.toNat ≤ a.toNat

/-- A 32-bit word from its bits. -/
def wordOf (f : Nat → Bool) : W32 := lanes.foldl (fun acc i => if f i then acc ||| bitOf i else acc) 0

/-- `bfe` (R210). -/
def bfeWord (a b : W32) : W32 :=
  let p := b.toNat % 256
  let n := b.toNat / 256 % 256
  wordOf fun i => decide (i < n) && decide (p + i < 32) && a.getLsbD (p + i)

/-- `bfi` (R210). -/
def bfiWord (a b c : W32) : W32 :=
  let p := c.toNat % 256
  let n := c.toNat / 256 % 256
  wordOf fun i => if p ≤ i ∧ i < p + n then b.getLsbD (i - p) else a.getLsbD i

/-- The number of leading zero bits. -/
def clzWord (a : W32) : W32 :=
  BitVec.ofNat 32 (if a = 0 then 32 else 31 - Nat.log2 a.toNat)

/-- `bsel` (R210): bytes chosen or filled from byte 0 upward. -/
def bselWord (a b c : W32) : W32 :=
  let src : BitVec 64 := b ++ a
  let fmode := c.toNat / 65536 % 4
  let byte := fun (prev : BitVec 8) (i : Nat) =>
    if c.getLsbD (12 + i) then
      (if fmode = 2 then (0xFF : BitVec 8)
       else if fmode = 1 && prev.getLsbD 7 then 0xFF
       else 0)
    else src.extractLsb' (8 * (c.toNat / 2 ^ (3 * i) % 8)) 8
  let b0 := byte 0 0
  let b1 := byte b0 1
  let b2 := byte b1 2
  let b3 := byte b2 3
  b3 ++ b2 ++ b1 ++ b0

/-- The operands of a two-operand integer form. -/
def ops2 (f : OpFmt) (a b : Src) : List (Nat × Src × OpFmt) := [(1, a, f), (2, b, f)]
/-- The operands of a three-operand integer form. -/
def ops3 (f : OpFmt) (a b c : Src) : List (Nat × Src × OpFmt) := [(1, a, f), (2, b, f), (3, c, f)]

/-- LaneInt of R209 for one operand. -/
def int1 (i : Instr) (s : State) (d : Dst) (a : Src) (f : Ctx → W32 → W32) : Host.Outcome State Fault Refusal :=
  run i s fun c s => c.laneWise s false false d [(1, a, .i32)] fun x => (f c (at_ 0 x 0), 0)

/-- LaneInt of R209 for two operands; `long` for `idiv` and `irem`. -/
def int2 (i : Instr) (s : State) (long : Bool) (d : Dst) (a b : Src) (f : Ctx → W32 → W32 → W32) : Host.Outcome State Fault Refusal :=
  run i s fun c s => c.laneWise s long false d (ops2 .i32 a b) fun x => (f c (at_ 0 x 0) (at_ 0 x 1), 0)

/-- LaneInt of R209 for three operands. -/
def int3 (i : Instr) (s : State) (d : Dst) (a b e : Src) (f : Ctx → W32 → W32 → W32 → W32) : Host.Outcome State Fault Refusal :=
  run i s fun c s => c.laneWise s false false d (ops3 .i32 a b e) fun x => (f c (at_ 0 x 0) (at_ 0 x 1) (at_ 0 x 2), 0)

/-- A 64-bit lane-wise result written to a pair (R209, R43): `res` gives each active lane's value and poison. -/
def Ctx.writePairs (c : Ctx) (s : State) (d : Dst) (res : List (Nat × KReg)) : Act State :=
  c.writeLanes s false d 2 (res.map fun r =>
    (r.1, [LaneWord.of (r.2.data.setWidth 32) r.2.poison, LaneWord.of (r.2.data.extractLsb' 32 32) r.2.poison])) ([], [])

/-- A mask result (R211): bit L of mD for each active lane, zero for the lanes a zeroing mask clears. -/
def Ctx.maskBits (c : Ctx) (d : BitVec 8) (res : List (Nat × Bool)) : List RegName × List RegWrite :=
  ([.m d.toNat], res.map (fun r => .mbit d.toNat r.1 r.2) ++ (lanesOf c.zero).map fun l => .mbit d.toNat l false)

/-- sr.depcnt after a deprecated instruction, and the advisory of its launch (R206, R207). -/
def Ctx.deprecated (c : Ctx) (s : State) : State :=
  let n := (s.group c.core c.room).depcnt + 1
  let s := s.modGroup c.core c.room fun g => { g with depcnt := n }
  let l := s.launches.getD c.g.launch {}
  if l.depThr ≠ 0 && n = l.depThr && !l.advised then
    (s.modLaunch c.g.launch fun l => { l with advised := true }).interrupt l.fn l.depVec 0
  else s

/-! ### Meanings -/

/-- `iadd` (R210). -/
def execIadd (x : Ctl) (d : Dst) (a b : Src) (s : State) : Host.Outcome State Fault Refusal :=
  int2 (.iadd x d a b) s false d a b fun c a b => if c.sat then sat32 (a.toInt + b.toInt) else a + b

/-- `isub` (R210). -/
def execIsub (x : Ctl) (d : Dst) (a b : Src) (s : State) : Host.Outcome State Fault Refusal :=
  int2 (.isub x d a b) s false d a b fun c a b => if c.sat then sat32 (a.toInt - b.toInt) else a - b

/-- `imul` (R210). -/
def execImul (x : Ctl) (d : Dst) (a b : Src) (s : State) : Host.Outcome State Fault Refusal :=
  int2 (.imul x d a b) s false d a b fun _ a b => a * b

/-- `imulh` (R210). -/
def execImulh (x : Ctl) (u : Bool) (d : Dst) (a b : Src) (s : State) : Host.Outcome State Fault Refusal :=
  int2 (.imulh x u d a b) s false d a b fun _ a b =>
    if u then BitVec.ofNat 32 (a.toNat * b.toNat / 2 ^ 32) else BitVec.ofInt 32 (a.toInt * b.toInt / 2 ^ 32)

/-- `imad` (R210). -/
def execImad (x : Ctl) (d : Dst) (a b e : Src) (s : State) : Host.Outcome State Fault Refusal :=
  int3 (.imad x d a b e) s d a b e fun c a b e => if c.sat then sat32 (a.toInt * b.toInt + e.toInt) else a * b + e

/-- `idiv` (R210). -/
def execIdiv (x : Ctl) (u : Bool) (d : Dst) (a b : Src) (s : State) : Host.Outcome State Fault Refusal :=
  int2 (.idiv x u d a b) s true d a b fun _ => divInt u

/-- `irem` (R210). -/
def execIrem (x : Ctl) (u : Bool) (d : Dst) (a b : Src) (s : State) : Host.Outcome State Fault Refusal :=
  int2 (.irem x u d a b) s true d a b fun _ => remInt u

/-- `imin` (R210). -/
def execImin (x : Ctl) (u : Bool) (d : Dst) (a b : Src) (s : State) : Host.Outcome State Fault Refusal :=
  int2 (.imin x u d a b) s false d a b fun _ a b => if below u b a then b else a

/-- `imax` (R210). -/
def execImax (x : Ctl) (u : Bool) (d : Dst) (a b : Src) (s : State) : Host.Outcome State Fault Refusal :=
  int2 (.imax x u d a b) s false d a b fun _ a b => if below u a b then b else a

/-- `iabs` (R210). -/
def execIabs (x : Ctl) (d : Dst) (a : Src) (s : State) : Host.Outcome State Fault Refusal :=
  int1 (.iabs x d a) s d a fun c a =>
    if c.sat then sat32 (if a.toInt < 0 then -a.toInt else a.toInt) else if a.toInt < 0 then -a else a

/-- `and` (R210). -/
def execAnd (x : Ctl) (d : Dst) (a b : Src) (s : State) : Host.Outcome State Fault Refusal :=
  int2 (.and x d a b) s false d a b fun _ a b => a &&& b

/-- `or` (R210). -/
def execOr (x : Ctl) (d : Dst) (a b : Src) (s : State) : Host.Outcome State Fault Refusal :=
  int2 (.or x d a b) s false d a b fun _ a b => a ||| b

/-- `xor` (R210). -/
def execXor (x : Ctl) (d : Dst) (a b : Src) (s : State) : Host.Outcome State Fault Refusal :=
  int2 (.xor x d a b) s false d a b fun _ a b => a ^^^ b

/-- `shl` (R210). -/
def execShl (x : Ctl) (d : Dst) (a b : Src) (s : State) : Host.Outcome State Fault Refusal :=
  int2 (.shl x d a b) s false d a b fun _ a b => a <<< (b.toNat % 256)

/-- `shr` (R210). -/
def execShr (x : Ctl) (d : Dst) (a b : Src) (s : State) : Host.Outcome State Fault Refusal :=
  int2 (.shr x d a b) s false d a b fun _ a b => a >>> (b.toNat % 256)

/-- `sra` (R210). -/
def execSra (x : Ctl) (d : Dst) (a b : Src) (s : State) : Host.Outcome State Fault Refusal :=
  int2 (.sra x d a b) s false d a b fun _ a b => a.sshiftRight (b.toNat % 256)

/-- `popc` (R210). -/
def execPopc (x : Ctl) (d : Dst) (a : Src) (s : State) : Host.Outcome State Fault Refusal :=
  int1 (.popc x d a) s d a fun _ a => BitVec.ofNat 32 (popMask a)

/-- `clz` (R210). -/
def execClz (x : Ctl) (d : Dst) (a : Src) (s : State) : Host.Outcome State Fault Refusal :=
  int1 (.clz x d a) s d a fun _ a => clzWord a

/-- `brev` (R210). -/
def execBrev (x : Ctl) (d : Dst) (a : Src) (s : State) : Host.Outcome State Fault Refusal :=
  int1 (.brev x d a) s d a fun _ a => wordOf fun i => a.getLsbD (31 - i)

/-- `bfe` (R210). -/
def execBfe (x : Ctl) (d : Dst) (a b : Src) (s : State) : Host.Outcome State Fault Refusal :=
  int2 (.bfe x d a b) s false d a b fun _ => bfeWord

/-- `bfi` (R210). -/
def execBfi (x : Ctl) (d : Dst) (a b e : Src) (s : State) : Host.Outcome State Fault Refusal :=
  int3 (.bfi x d a b e) s d a b e fun _ => bfiWord

/-- `icmp` (R196, R211). -/
def execIcmp (x : Ctl) (cc : ICond) (tomask : Bool) (d : Dst) (a b : Src) (s : State) : Host.Outcome State Fault Refusal :=
  run (.icmp x cc tomask d a b) s fun c s =>
    if tomask then do
      c.guard s c.act (.m d.n.toNat :: (srcNeed 1 1 a ++ srcNeed 2 1 b)) [(a, .i32), (b, .i32)]
      let va := c.vec s c.act a .i32
      let vb := c.vec s c.act b .i32
      if (lanesOf c.act).any fun l => (at_ {} va l).poison || (at_ {} vb l).poison then stop .kill s
      else
        let r := c.maskBits d.n ((lanesOf c.act).map fun l => (l, condI cc (at_ {} va l).data (at_ {} vb l).data))
        return c.commit s false r.1 r.2
    else c.laneWise s false false d (ops2 .i32 a b) fun v => (if condI cc (at_ 0 v 0) (at_ 0 v 1) then 1 else 0, 0)

/-- `sel` (R210). -/
def execSel (x : Ctl) (d : Dst) (a b e : Src) (s : State) : Host.Outcome State Fault Refusal :=
  int3 (.sel x d a b e) s d a b e fun _ a b e => if e ≠ 0 then a else b

/-- `mov` (R210). -/
def execMov (x : Ctl) (d : Dst) (a : Src) (s : State) : Host.Outcome State Fault Refusal :=
  int1 (.mov x d a) s d a fun _ a => a

/-- `movi` (R210). -/
def execMovi (x : Ctl) (d : BitVec 8) (imm : W32) (s : State) : Host.Outcome State Fault Refusal :=
  run (.movi x d imm) s fun c s => c.laneWise s false false { ix := false, n := d } [] fun _ => (imm, 0)

/-- `lea` (R210). -/
def execLea (x : Ctl) (d : Dst) (a b e : Src) (s : State) : Host.Outcome State Fault Refusal :=
  run (.lea x d a b e) s fun c s => do
    c.guard s c.act (dstNeed 2 d ++ srcNeed 1 2 a ++ srcNeed 2 1 b ++ srcNeed 3 1 e) [(b, .i32), (e, .i32)]
    let va := c.wvec s c.act a
    let vb := c.vec s c.act b .i32
    let ve := c.vec s c.act e .i32
    c.writePairs s d ((lanesOf c.act).map fun l =>
      let a := at_ {} va l
      let b := at_ {} vb l
      let e := at_ {} ve l
      (l, KReg.of (a.data + b.data.signExtend 64 <<< (e.data.toNat % 8)) (a.poison || b.poison || e.poison)))

/-- `iadd64` (R210). -/
def execIadd64 (x : Ctl) (d : Dst) (a b : Src) (s : State) : Host.Outcome State Fault Refusal :=
  run (.iadd64 x d a b) s fun c s => do
    c.guard s c.act (dstNeed 2 d ++ srcNeed 1 2 a ++ srcNeed 2 2 b)
    let va := c.wvec s c.act a
    let vb := c.wvec s c.act b
    c.writePairs s d ((lanesOf c.act).map fun l =>
      let a := at_ {} va l
      let b := at_ {} vb l
      (l, KReg.of (a.data + b.data) (a.poison || b.poison)))

/-- `setix` (R210, R211). -/
def execSetix (x : Ctl) (a : Src) (s : State) : Host.Outcome State Fault Refusal :=
  run (.setix x a) s fun c s => do
    c.guard s c.act (srcNeed 1 1 a) [(a, .i32)]
    let v := c.vec s c.act a .i32
    if (lanesOf c.act).any fun l => (at_ {} v l).poison then stop .kill s
    else
      return c.commit s false [] ((lanesOf c.act).map fun l => .ix l (at_ {} v l).data)

/-- `bsel` (R210). -/
def execBsel (x : Ctl) (d : Dst) (a b e : Src) (s : State) : Host.Outcome State Fault Refusal :=
  int3 (.bsel x d a b e) s d a b e fun _ => bselWord

/-- `ishf` (R210). -/
def execIshf (x : Ctl) (d : Dst) (a b e : Src) (s : State) : Host.Outcome State Fault Refusal :=
  int3 (.ishf x d a b e) s d a b e fun _ a b e => (((b ++ a : BitVec 64) >>> (e.toNat % 64)).setWidth 32)

/-- `imads` (R206, R210). -/
def execImads (x : Ctl) (d : Dst) (a b e : Src) (s : State) : Host.Outcome State Fault Refusal :=
  run (.imads x d a b e) s fun c s => do
    let s ← c.laneWise s false false d (ops3 .i32 a b e) fun v =>
      (sat32 ((at_ (0 : W32) v 0).toInt * (at_ (0 : W32) v 1).toInt + (at_ (0 : W32) v 2).toInt), 0)
    return c.deprecated s

/-- `imul64` (R210). -/
def execImul64 (x : Ctl) (d : Dst) (a b : Src) (s : State) : Host.Outcome State Fault Refusal :=
  run (.imul64 x d a b) s fun c s => do
    c.guard s c.act (dstNeed 2 d ++ srcNeed 1 1 a ++ srcNeed 2 1 b) [(a, .i32), (b, .i32)]
    let va := c.vec s c.act a .i32
    let vb := c.vec s c.act b .i32
    c.writePairs s d ((lanesOf c.act).map fun l =>
      let a := at_ {} va l
      let b := at_ {} vb l
      (l, KReg.of (BitVec.ofInt 64 (a.data.toInt * b.data.toInt)) (a.poison || b.poison)))

end Sys2Proof.Machine
end

