-- ==== Sys2Proof/Machine/Special.lean ====
section
/-! DEFINITION. The special functions (R240): the exact mathematical value rounded once. A value that is not a number of the format is
enclosed between two fixed-point numbers, and the enclosure is narrowed until both ends round alike (log entry 12). -/

namespace Sys2Proof.Machine

/-- An interval of fixed-point numbers: both ends over 2^P for a precision P that each operation names. -/
structure Ival where
  lo : Int
  hi : Int
  deriving DecidableEq, Repr

/-- The number n / d rounded down and up over 2^P. -/
def Ival.ratio (p : Nat) (n : Int) (d : Nat) : Ival :=
  { lo := (n * 2 ^ p) / (d : Int), hi := -((-n * 2 ^ p) / (d : Int)) }

/-- A dyadic number m × 2^e over 2^P. -/
def Ival.dyadic (p : Nat) (m : Int) (e : Int) : Ival :=
  let k := e + p
  if 0 ≤ k then ⟨m * 2 ^ k.toNat, m * 2 ^ k.toNat⟩
  else ⟨m / 2 ^ (-k).toNat, -((-m) / 2 ^ (-k).toNat)⟩

/-- Sum of two intervals. -/
def Ival.add (a b : Ival) : Ival := ⟨a.lo + b.lo, a.hi + b.hi⟩
/-- Difference of two intervals. -/
def Ival.sub (a b : Ival) : Ival := ⟨a.lo - b.hi, a.hi - b.lo⟩
/-- Negated interval. -/
def Ival.neg (a : Ival) : Ival := ⟨-a.hi, -a.lo⟩

/-- Product of two intervals over 2^P, rounded outward. -/
def Ival.mul (p : Nat) (a b : Ival) : Ival :=
  let w := a.lo * b.lo
  let x := a.lo * b.hi
  let y := a.hi * b.lo
  let z := a.hi * b.hi
  { lo := (min (min w x) (min y z)) / 2 ^ p, hi := -((-(max (max w x) (max y z))) / 2 ^ p) }

/-- An interval divided by a positive whole number. -/
def Ival.divNat (a : Ival) (d : Nat) : Ival := ⟨a.lo / (d : Int), -((-a.hi) / (d : Int))⟩

/-- An interval times a whole number. -/
def Ival.mulInt (a : Ival) (k : Int) : Ival :=
  if 0 ≤ k then ⟨a.lo * k, a.hi * k⟩ else ⟨a.hi * k, a.lo * k⟩

/-- The quotient of two intervals over 2^P, the second positive. -/
def Ival.div (p : Nat) (a b : Ival) : Ival :=
  let den := max b.lo 1
  { lo := (a.lo * 2 ^ p) / (if 0 ≤ a.lo then max b.hi 1 else den)
    hi := -((-(a.hi * 2 ^ p)) / (if 0 ≤ a.hi then den else max b.hi 1)) }

/-- An interval widened by the remainder of a series whose terms shrink at least by half: the last term, both ways. -/
def Ival.widen (a : Ival) (t : Ival) : Ival :=
  let w := max t.lo.natAbs t.hi.natAbs + 1
  ⟨a.lo - w, a.hi + w⟩

/-- The number 1 over 2^P. -/
def Ival.one (p : Nat) : Ival := ⟨2 ^ p, 2 ^ p⟩

/-- Terms of the exponential series from term x^n / n! on. -/
def expSeries (p : Nat) (x : Ival) : Nat → Nat → Ival → Ival → Ival
  | 0, _, t, acc => acc.widen t
  | fuel + 1, n, t, acc =>
    let t' := (t.mul p x).divNat n
    expSeries p x fuel (n + 1) t' (acc.add t')

/-- e^x for |x| ≤ 1. -/
def expSmall (p : Nat) (x : Ival) : Ival :=
  expSeries p x (p / 2 + 20) 1 (Ival.one p) (Ival.one p)

/-- Terms of the series of 2 × artanh(1/n) from power k on: 2 / (k × n^k). -/
def atanhInv (p n : Nat) : Nat → Nat → Ival → Ival → Ival
  | 0, _, t, acc => acc.widen t
  | fuel + 1, k, t, acc =>
    let t' := t.divNat (n * n)
    atanhInv p n fuel (k + 2) t' (acc.add (t'.divNat (k + 2)))

/-- ln 2 = 2 artanh(1/3). -/
def ln2 (p : Nat) : Ival :=
  let t := Ival.ratio p 2 3
  atanhInv p 3 (p / 3 + 8) 1 t t

/-- Terms of the series of arctan(1/n), signs alternating. -/
def atanInv (p n : Nat) : Nat → Nat → Bool → Ival → Ival → Ival
  | 0, _, _, t, acc => acc.widen t
  | fuel + 1, k, neg, t, acc =>
    let t' := t.divNat (n * n)
    let d := t'.divNat (k + 2)
    atanInv p n fuel (k + 2) (!neg) t' (if neg then acc.add d else acc.sub d)

/-- arctan(1/n). -/
def atanR (p n : Nat) : Ival :=
  let t := Ival.ratio p 1 n
  atanInv p n (p / 4 + 8) 1 false t t

/-- π/2 = 8 arctan(1/5) − 2 arctan(1/239). -/
def halfPi (p : Nat) : Ival := ((atanR p 5).mulInt 8).sub ((atanR p 239).mulInt 2)

/-- Terms of the sine or cosine series: x^n / n! with signs alternating in steps of two. -/
def trigSeries (p : Nat) (x2 : Ival) : Nat → Nat → Bool → Ival → Ival → Ival
  | 0, _, _, t, acc => acc.widen t
  | fuel + 1, n, neg, t, acc =>
    let t' := ((t.mul p x2).divNat (n + 1)).divNat (n + 2)
    trigSeries p x2 fuel (n + 2) (!neg) t' (if neg then acc.add t' else acc.sub t')

/-- sin x for |x| ≤ 2. -/
def sinSmall (p : Nat) (x : Ival) : Ival := trigSeries p (x.mul p x) (p / 4 + 12) 1 false x x
/-- cos x for |x| ≤ 2. -/
def cosSmall (p : Nat) (x : Ival) : Ival := trigSeries p (x.mul p x) (p / 4 + 12) 0 false (Ival.one p) (Ival.one p)

/-- An enclosure of a function's value: an interval of numerators over 2^P, times 2^shift. -/
structure Encl where
  iv : Ival
  p : Nat
  shift : Int
  deriving DecidableEq, Repr

/-- e^(x × c) for a fixed-point x and c = 1, by reduction modulo ln 2. -/
def enclExp (p : Nat) (x : Ival) : Encl :=
  let l := ln2 p
  let k : Int := x.lo / max l.lo 1
  { iv := expSmall p (x.sub (l.mulInt k)), p := p, shift := k }

/-- 2^x, by reduction modulo 1 and e^(r ln 2). -/
def enclExp2 (p : Nat) (x : Ival) : Encl :=
  let k : Int := x.lo / 2 ^ p
  let r : Ival := x.sub ((Ival.one p).mulInt k)
  { iv := expSmall p (r.mul p (ln2 p)), p := p, shift := k }

/-- Terms of 2 artanh(z): 2 z^k / k. -/
def atanhSeries (p : Nat) (z2 : Ival) : Nat → Nat → Ival → Ival → Ival
  | 0, _, t, acc => acc.widen t
  | fuel + 1, k, t, acc =>
    let t' := t.mul p z2
    atanhSeries p z2 fuel (k + 2) t' (acc.add (t'.divNat (k + 2)))

/-- log2 of a positive m × 2^e: the exponent plus ln(m') / ln 2 with m' in [1, 2). -/
def enclLog2 (p : Nat) (m : Nat) (e : Int) : Encl :=
  let g := Nat.log2 m
  let y := Ival.dyadic p (m : Int) (-(g : Int))
  let z := (y.sub (Ival.one p)).div p (y.add (Ival.one p))
  let t := z.mulInt 2
  let ln := atanhSeries p (z.mul p z) (p / 3 + 8) 1 t t
  { iv := (ln.div p (ln2 p)).add ((Ival.one p).mulInt (e + g)), p := p, shift := 0 }

/-- sin or cos of a fixed-point x, reduced modulo π/2 (R240: reduced exactly). -/
def enclTrig (cosine : Bool) (p : Nat) (x : Ival) : Encl :=
  let h := halfPi p
  let k : Int := x.lo / max h.lo 1
  let r := x.sub (h.mulInt k)
  let q := (k + if cosine then 1 else 0) % 4
  let iv :=
    match q with
    | 0 => sinSmall p r
    | 1 => cosSmall p r
    | 2 => (sinSmall p r).neg
    | _ => (cosSmall p r).neg
  { iv := iv, p := p, shift := 0 }

/-- An enclosure brought to shift 0. -/
def Encl.flat (x : Encl) : Ival :=
  if 0 ≤ x.shift then ⟨x.iv.lo * 2 ^ x.shift.toNat, x.iv.hi * 2 ^ x.shift.toNat⟩
  else ⟨x.iv.lo / 2 ^ (-x.shift).toNat, -((-x.iv.hi) / 2 ^ (-x.shift).toNat)⟩

/-- tanh x for x > 0: (1 − w) / (1 + w) with w = e^(−2x). -/
def enclTanh (p : Nat) (x : Ival) : Encl :=
  let w := (enclExp p (x.mulInt (-2))).flat
  { iv := ((Ival.one p).sub w).div p ((Ival.one p).add w), p := p, shift := 0 }

/-- 1 / (1 + e^(−x)). -/
def enclSig (p : Nat) (x : Ival) : Encl :=
  let w := enclExp p x.neg
  if 0 < w.shift then
    -- e^(−x) is large: 2^−k / (2^−k + w)
    let k := w.shift.toNat
    let small : Ival := ⟨2 ^ p / 2 ^ k, 2 ^ p / 2 ^ k + 1⟩
    { iv := (Ival.one p).div p (small.add w.iv), p := p, shift := -w.shift }
  else { iv := (Ival.one p).div p ((Ival.one p).add w.flat), p := p, shift := 0 }

/-- An end of an enclosure as an exact value lying between the candidates of every rounding: the fixed-point number with a sticky bit. -/
def Encl.value (x : Encl) (n : Int) : XVal :=
  .fin (decide (n < 0)) (2 * n.natAbs + 1) (x.shift - x.p - 1)

/-- Round a value that no number of the format is, narrowing its enclosure until both ends round alike (R240). -/
def roundEncl (rm : RM) (sat : Bool) (f : Nat → Encl) : List Nat → Nat × FFlags
  | [] => (defaultNaN .f32, flNX)
  | p :: rest =>
    let x := f p
    -- the ends, one unit outward so that the sticky bit never passes the value
    let a := roundX .f32 rm sat (x.value (x.iv.lo - 1))
    let b := roundX .f32 rm sat (x.value (x.iv.hi + 1))
    if a = b && decide (x.iv.lo - 1 < 0) = decide (x.iv.hi + 1 < 0) then a
    else
      match rest with
      | [] => a
      | _ => roundEncl rm sat f rest

/-- The precisions tried, in bits. -/
def precisions : List Nat := [160, 320, 640, 1280]

/-- A special function of one FP32 operand. -/
inductive SpecialFn where
  | exp | exp2 | log2 | rcp | rsq | sqrt | sin | cos | tanh | sig
  deriving DecidableEq, Repr

/-- Integer square root by bits, most significant first. -/
def isqrtBits (n : Nat) : Nat → Nat → Nat
  | 0, r => r
  | k + 1, r =>
    let t := r + 2 ^ k
    isqrtBits n k (if t * t ≤ n then t else r)

/-- The integer square root. -/
def isqrt (n : Nat) : Nat := isqrtBits n (Nat.log2 n / 2 + 1) 0

/-- The square root of a positive n over 2^(2k), as a dyadic number with a sticky last bit. -/
def sqrtX (m : Nat) (e : Int) : XVal :=
  -- make the exponent even and give the root 160 bits
  let odd := e % 2 ≠ 0
  let m := if odd then 2 * m else m
  let e := if odd then e - 1 else e
  let n := m * 2 ^ 320
  let r := isqrt n
  .fin false (2 * r + (if r * r = n then 0 else 1)) (e / 2 - 160 - 1)

/-- 1/√x for x = m × 2^e > 0. -/
def rsqrtX (m : Nat) (e : Int) : XVal :=
  match sqrtX m e with
  | .fin _ r g =>
    if r % 2 = 0 then quotientX false 1 r (-g)
    else
      -- irrational root: invert with the sticky bit kept
      match quotientX false 1 r (-g) with
      | .fin s q h => .fin s (q / 2 * 2 + 1) h
      | x => x
  | x => x

/-- A value below which, or above which, only the direction of rounding matters: a tiny positive number. -/
def tinyX (s : Bool) : XVal := .fin s 1 (-400)

/-- A special function (R240): operand bits, effective mode and SAT to result and flags. NaN operands follow R70 at every level. -/
def specialF (fn : SpecialFn) (rm : RM) (sat : Bool) (a : Nat) : Nat × FFlags :=
  let invalid : Nat × FFlags := (defaultNaN .f32, flNV)
  let exactly (x : XVal) := roundX .f32 rm sat x
  let one : XVal := .fin false 1 0
  let infDZ (s : Bool) :=
    let r := exactly (.inf s)
    (r.1, r.2 ||| flDZ)
  match decodeF .f32 a with
  | .nan => nanResult .f32 0 [(.f32, a)]
  | .inf s =>
    match fn with
    | .exp | .exp2 => if s then (0, flNone) else exactly (.inf false)
    | .log2 => if s then invalid else exactly (.inf false)
    | .rcp => (withSign .f32 s 0, flNone)
    | .rsq => if s then invalid else (0, flNone)
    | .sqrt => if s then invalid else exactly (.inf false)
    | .sin | .cos => invalid
    | .tanh => exactly (.fin s 1 0)
    | .sig => if s then (0, flNone) else exactly one
  | .fin s m e =>
    if m = 0 then
      match fn with
      | .exp | .exp2 | .cos => exactly one
      | .log2 => infDZ true
      | .rcp => infDZ s
      | .rsq => infDZ s
      | .sqrt | .sin | .tanh => (withSign .f32 s 0, flNone)
      | .sig => exactly (.fin false 1 (-1))
    else
      let big : Bool := 9 ≤ (Nat.log2 m : Int) + e      -- |x| ≥ 512
      let mi : Int := if s then -(m : Int) else m
      match fn with
      | .exp =>
        if big then exactly (if s then tinyX false else .fin false 1 400)
        else roundEncl rm sat (fun p => enclExp p (Ival.dyadic p mi e)) precisions
      | .exp2 =>
        if big then exactly (if s then tinyX false else .fin false 1 400)
        else
          let (n, exact) := roundInt .rtz s m e
          if exact then exactly (.fin false 1 n)
          else roundEncl rm sat (fun p => enclExp2 p (Ival.dyadic p mi e)) precisions
      | .log2 =>
        if s then invalid
        else if m = 2 ^ Nat.log2 m then exactly (XVal.ofInt (e + Nat.log2 m))
        else roundEncl rm sat (fun p => enclLog2 p m e) precisions
      | .rcp => exactly (quotientX s 1 m (-e))
      | .rsq => if s then invalid else exactly (rsqrtX m e)
      | .sqrt => if s then invalid else exactly (sqrtX m e)
      | .sin => roundEncl rm sat (fun p => enclTrig false p (Ival.dyadic p mi e)) precisions
      | .cos => roundEncl rm sat (fun p => enclTrig true p (Ival.dyadic p mi e)) precisions
      | .tanh =>
        -- from |x| = 16 on, 1 − tanh |x| is below 2^−44, and only the direction of rounding matters
        if 4 ≤ (Nat.log2 m : Int) + e then exactly (.fin s (2 ^ 400 - 1) (-400))
        else
          roundEncl rm sat (fun p =>
            let t := enclTanh p (Ival.dyadic p (m : Int) e)
            if s then { t with iv := t.iv.neg } else t) precisions
      | .sig =>
        if big then exactly (if s then tinyX false else .fin false (2 ^ 400 - 1) (-400))
        else roundEncl rm sat (fun p => enclSig p (Ival.dyadic p mi e)) precisions

end Sys2Proof.Machine
end

