-- ==== Sys2Proof/Machine/Float.lean ====
section
/-! DEFINITION. FP32, packed, conversion and special-function instructions (opcodes 0x40 to 0x69, R228 to R240). -/

namespace Sys2Proof.Machine

/-! ### Shapes -/

/-- A floating-point result on encodings as a lane word and its flags. -/
def fword (r : Nat × FFlags) : W32 × FFlags := (BitVec.ofNat 32 r.1, r.2)

/-- LaneFloat of R229. -/
def flt (i : Instr) (s : State) (d : Dst) (ops : List (Nat × Src × OpFmt)) (f : Ctx → List Nat → Nat × FFlags) :
    Host.Outcome State Fault Refusal :=
  run i s fun c s => c.laneWise s true true d ops fun x => fword (f c (x.map (·.toNat)))

/-- LaneFloat of R229 for an instruction that records no flags. -/
def fltQuiet (i : Instr) (s : State) (d : Dst) (ops : List (Nat × Src × OpFmt)) (f : Ctx → List Nat → Nat) :
    Host.Outcome State Fault Refusal :=
  run i s fun c s => c.laneWise s true false d ops fun x => (BitVec.ofNat 32 (f c (x.map (·.toNat))), 0)

/-- A packed operation: elements 0 and 1 apart, flags together (R236). -/
def pack2 (f : List Nat → Nat × FFlags) (x : List Nat) : Nat × FFlags :=
  let lo := f (x.map (· % 65536))
  let hi := f (x.map (· / 65536))
  (lo.1 + hi.1 * 65536, lo.2 ||| hi.2)

/-- Element i of a list of operands. -/
def opd (x : List Nat) (i : Nat) : Nat := at_ 0 x i

/-- `fdot2` on encodings (R232, R233). -/
def dot2F (cplv : Nat) (rm : RM) (sat : Bool) (a b c : Nat) : Nat × FFlags :=
  let a0 := flushIn .f16 cplv (a % 65536)
  let a1 := flushIn .f16 cplv (a / 65536)
  let b0 := flushIn .f16 cplv (b % 65536)
  let b1 := flushIn .f16 cplv (b / 65536)
  let p := (decodeF .f16 a0).mul (decodeF .f16 b0)
  let q := (decodeF .f16 a1).mul (decodeF .f16 b1)
  let inv := (!isNaN .f16 a0 && !isNaN .f16 b0 && p.isNaN) || (!isNaN .f16 a1 && !isNaN .f16 b1 && q.isNaN)
  let r := sumOp .f32 cplv rm sat [(.f16, a0), (.f16, a1), (.f16, b0), (.f16, b1), (.f32, c)] [p, q, decodeF .f32 c]
  (r.1, if inv then r.2 ||| flNV else r.2)

/-- A compare that writes lanes or a mask (R196, R211, R234): `f` gives the lane result, whether the condition holds, and flags. -/
def fltCmp (i : Instr) (s : State) (tomask : Bool) (d : Dst) (a b : Src) (fm : OpFmt) (f : Ctx → Nat → Nat → W32 × Bool × FFlags) :
    Host.Outcome State Fault Refusal :=
  run i s fun c s =>
    if tomask then do
      c.guard s c.act (.m d.n.toNat :: (srcNeed 1 1 a ++ srcNeed 2 1 b)) [(a, fm), (b, fm)]
      let va := c.vec s c.act a fm
      let vb := c.vec s c.act b fm
      if (lanesOf c.act).any fun l => (at_ {} va l).poison || (at_ {} vb l).poison then stop .kill s
      else
        let res := (lanesOf c.act).map fun l => (l, f c (at_ {} va l).data.toNat (at_ {} vb l).data.toNat)
        let m := c.maskBits d.n (res.map fun r => (r.1, r.2.2.1))
        let g := flagWrites (res.foldl (fun (acc : FFlags) r => acc ||| r.2.2.2) 0)
        return c.commit s true (m.1 ++ g.1) (m.2 ++ g.2)
    else
      c.laneWise s true true d (ops2 fm a b) fun x =>
        let r := f c (at_ (0 : W32) x 0).toNat (at_ (0 : W32) x 1).toNat
        (r.1, r.2.2)

/-! ### FP32 (R232 to R235) -/

/-- `fadd` (R232). -/
def execFadd (x : Ctl) (d : Dst) (a b : Src) (s : State) : Host.Outcome State Fault Refusal :=
  flt (.fadd x d a b) s d (ops2 (.flt .f32) a b) fun c v => addF .f32 c.cplv c.rm c.sat (opd v 0) (opd v 1)

/-- What `fsub` does. -/
def Ctx.fsub (c : Ctx) (s : State) (d : Dst) (a b : Src) : Act State :=
  c.laneWise s true true d (ops2 (.flt .f32) a b) fun x =>
    fword (subF .f32 c.cplv c.rm c.sat (at_ (0 : W32) x 0).toNat (at_ (0 : W32) x 1).toNat)

/-- `fsub` (R232). -/
def execFsub (x : Ctl) (d : Dst) (a b : Src) (s : State) : Host.Outcome State Fault Refusal :=
  run (.fsub x d a b) s fun c s => c.fsub s d a b

/-- `fmul` (R232). -/
def execFmul (x : Ctl) (d : Dst) (a b : Src) (s : State) : Host.Outcome State Fault Refusal :=
  flt (.fmul x d a b) s d (ops2 (.flt .f32) a b) fun c v => mulF .f32 c.cplv c.rm c.sat (opd v 0) (opd v 1)

/-- `ffma` (R232). -/
def execFfma (x : Ctl) (d : Dst) (a b e : Src) (s : State) : Host.Outcome State Fault Refusal :=
  flt (.ffma x d a b e) s d (ops3 (.flt .f32) a b e) fun c v => fmaF .f32 c.cplv c.rm c.sat (opd v 0) (opd v 1) (opd v 2)

/-- `fdiv` (R232). -/
def execFdiv (x : Ctl) (d : Dst) (a b : Src) (s : State) : Host.Outcome State Fault Refusal :=
  flt (.fdiv x d a b) s d (ops2 (.flt .f32) a b) fun c v => divF c.cplv c.rm c.sat (opd v 0) (opd v 1)

/-- `fmin` (R234). -/
def execFmin (x : Ctl) (d : Dst) (a b : Src) (s : State) : Host.Outcome State Fault Refusal :=
  flt (.fmin x d a b) s d (ops2 (.flt .f32) a b) fun c v => minmaxF .f32 c.cplv false (opd v 0) (opd v 1)

/-- `fmax` (R234). -/
def execFmax (x : Ctl) (d : Dst) (a b : Src) (s : State) : Host.Outcome State Fault Refusal :=
  flt (.fmax x d a b) s d (ops2 (.flt .f32) a b) fun c v => minmaxF .f32 c.cplv true (opd v 0) (opd v 1)

/-- `fcmp` (R234). -/
def execFcmp (x : Ctl) (cc : FCond) (tomask : Bool) (d : Dst) (a b : Src) (s : State) : Host.Outcome State Fault Refusal :=
  fltCmp (.fcmp x cc tomask d a b) s tomask d a b (.flt .f32) fun c a b =>
    let r := condF .f32 c.cplv cc a b
    (if r.1 then 1 else 0, r)

/-- `fclass` (R235). -/
def execFclass (x : Ctl) (d : Dst) (a : Src) (s : State) : Host.Outcome State Fault Refusal :=
  fltQuiet (.fclass x d a) s d [(1, a, .flt .f32)] fun _ v => classF (opd v 0)

/-- `fscale` (R232). -/
def execFscale (x : Ctl) (d : Dst) (a b : Src) (s : State) : Host.Outcome State Fault Refusal :=
  flt (.fscale x d a b) s d [(1, a, .flt .f32), (2, b, .i32)] fun c v =>
    scaleF c.cplv c.rm c.sat (opd v 0) (signed 32 (opd v 1))

/-- `frnd` (R232). -/
def execFrnd (x : Ctl) (d : Dst) (a : Src) (s : State) : Host.Outcome State Fault Refusal :=
  flt (.frnd x d a) s d [(1, a, .flt .f32)] fun c v => frndF c.cplv c.rm (opd v 0)

/-- `fdot2` (R232). -/
def execFdot2 (x : Ctl) (d : Dst) (a b e : Src) (s : State) : Host.Outcome State Fault Refusal :=
  flt (.fdot2 x d a b e) s d [(1, a, .pair .f16), (2, b, .pair .f16), (3, e, .flt .f32)] fun c v =>
    dot2F c.cplv c.rm c.sat (opd v 0) (opd v 1) (opd v 2)

/-- `fabs` and `fabs.neg` on an encoding (R232, R233). -/
def absF (cplv : Nat) (neg : Bool) (a : Nat) : Nat :=
  if cplv = 1 && isNaN .f32 a then defaultNaN .f32
  else if neg then a % 2 ^ 31 + 2 ^ 31 else a % 2 ^ 31

/-- `fabs` (R232, R233). -/
def execFabs (x : Ctl) (neg : Bool) (d : Dst) (a : Src) (s : State) : Host.Outcome State Fault Refusal :=
  fltQuiet (.fabs x neg d a) s d [(1, a, .bits)] fun c v => absF c.cplv neg (opd v 0)

/-! ### Packed (R236) -/

/-- `hadd2` (R236). -/
def execHadd2 (x : Ctl) (d : Dst) (a b : Src) (s : State) : Host.Outcome State Fault Refusal :=
  flt (.hadd2 x d a b) s d (ops2 (.pair .f16) a b) fun c => pack2 fun v => addF .f16 c.cplv c.rm c.sat (opd v 0) (opd v 1)

/-- `hmul2` (R236). -/
def execHmul2 (x : Ctl) (d : Dst) (a b : Src) (s : State) : Host.Outcome State Fault Refusal :=
  flt (.hmul2 x d a b) s d (ops2 (.pair .f16) a b) fun c => pack2 fun v => mulF .f16 c.cplv c.rm c.sat (opd v 0) (opd v 1)

/-- `hfma2` (R236). -/
def execHfma2 (x : Ctl) (d : Dst) (a b e : Src) (s : State) : Host.Outcome State Fault Refusal :=
  flt (.hfma2 x d a b e) s d (ops3 (.pair .f16) a b e) fun c =>
    pack2 fun v => fmaF .f16 c.cplv c.rm c.sat (opd v 0) (opd v 1) (opd v 2)

/-- `hmnx2` (R234, R236). -/
def execHmnx2 (x : Ctl) (mx : Bool) (d : Dst) (a b : Src) (s : State) : Host.Outcome State Fault Refusal :=
  flt (.hmnx2 x mx d a b) s d (ops2 (.pair .f16) a b) fun c =>
    pack2 fun v => flushOut .f16 c.cplv (minmaxF .f16 c.cplv mx (opd v 0) (opd v 1))

/-- `hcmp2` (R196, R236). -/
def execHcmp2 (x : Ctl) (cc : FCond) (tomask : Bool) (d : Dst) (a b : Src) (s : State) : Host.Outcome State Fault Refusal :=
  fltCmp (.hcmp2 x cc tomask d a b) s tomask d a b (.pair .f16) fun c a b =>
    let lo := condF .f16 c.cplv cc (a % 65536) (b % 65536)
    let hi := condF .f16 c.cplv cc (a / 65536) (b / 65536)
    ((if hi.1 then 0xFFFF0000 else 0) ||| (if lo.1 then 0x0000FFFF else 0), lo.1 && hi.1, lo.2 ||| hi.2)

/-- `badd2` (R236). -/
def execBadd2 (x : Ctl) (d : Dst) (a b : Src) (s : State) : Host.Outcome State Fault Refusal :=
  flt (.badd2 x d a b) s d (ops2 (.pair .bf16) a b) fun c => pack2 fun v => addF .bf16 c.cplv c.rm c.sat (opd v 0) (opd v 1)

/-- `bmul2` (R236). -/
def execBmul2 (x : Ctl) (d : Dst) (a b : Src) (s : State) : Host.Outcome State Fault Refusal :=
  flt (.bmul2 x d a b) s d (ops2 (.pair .bf16) a b) fun c => pack2 fun v => mulF .bf16 c.cplv c.rm c.sat (opd v 0) (opd v 1)

/-- `bfma2` (R236). -/
def execBfma2 (x : Ctl) (d : Dst) (a b e : Src) (s : State) : Host.Outcome State Fault Refusal :=
  flt (.bfma2 x d a b e) s d (ops3 (.pair .bf16) a b e) fun c =>
    pack2 fun v => fmaF .bf16 c.cplv c.rm c.sat (opd v 0) (opd v 1) (opd v 2)

/-! ### Conversions (R237 to R239) -/

/-- `cvt` (R237). -/
def execCvt (x : Ctl) (dst src : FFmt) (d : Dst) (a : Src) (s : State) : Host.Outcome State Fault Refusal :=
  flt (.cvt x dst src d a) s d [(1, a, .flt src)] fun c v => cvtFF dst src c.cplv c.rm c.sat (opd v 0)

/-- The format in which `cvtp` reads a source word: as many elements as fit (R238). -/
def wordFmt (f : FFmt) : OpFmt :=
  match f with
  | .f32 => .flt .f32
  | .f16 | .bf16 => .pair f
  | .e4m3 | .e5m2 | .e2m1 => .quad f

/-- `cvtp` on the source words (R238): their elements from element 0 up, converted and packed. -/
def cvtpWords (dst src : FFmt) (cplv : Nat) (rm : RM) (sat : Bool) (ws : List Nat) : Nat × FFlags :=
  let sb := (FFmt.spec src).bits
  let db := (FFmt.spec dst).bits
  let elems := ws.flatMap fun w => (List.range (32 / sb)).map fun e => w / 2 ^ (sb * e) % 2 ^ sb
  elems.zipIdx.foldl (fun acc p =>
    let r := cvtFF dst src cplv rm sat p.1
    (acc.1 + r.1 * 2 ^ (db * p.2), acc.2 ||| r.2)) (0, 0)

/-- `cvtp` (R238, R402): E is read when the ratio of the widths is 4. -/
def execCvtp (x : Ctl) (dst src : FFmt) (d : Dst) (a b e : Src) (s : State) : Host.Outcome State Fault Refusal :=
  let f := wordFmt src
  let four := (FFmt.spec src).bits = 4 * (FFmt.spec dst).bits
  let ops := ops2 f a b ++ if four then [(3, e, f), (4, ((x.pfx.map (·.e)).getD e), f)] else []
  flt (.cvtp x dst src d a b e) s d ops fun c v => cvtpWords dst src c.cplv c.rm c.sat v

/-- `cvti` (R239). -/
def execCvti (x : Ctl) (dst : IFmt) (src : FFmt) (d : Dst) (a : Src) (s : State) : Host.Outcome State Fault Refusal :=
  flt (.cvti x dst src d a) s d [(1, a, .flt src)] fun c v => cvtFI dst src c.cplv c.rm (opd v 0)

/-- How `cvtf` reads an integer of a format (R239, R299). -/
def srcFmt (f : IFmt) : OpFmt := if IFmt.bits f = 32 then .i32 else .int (IFmt.bits f)

/-- `cvtf` (R239). -/
def execCvtf (x : Ctl) (dst : FFmt) (src : IFmt) (d : Dst) (a : Src) (s : State) : Host.Outcome State Fault Refusal :=
  flt (.cvtf x dst src d a) s d [(1, a, srcFmt src)] fun c v => cvtIF dst src c.cplv c.rm c.sat (opd v 0)

/-! ### Special functions (R240) -/

/-- What a special function does. -/
def Ctx.special1 (c : Ctx) (s : State) (fn : SpecialFn) (d : Dst) (a : Src) : Act State :=
  c.laneWise s true true d [(1, a, .flt .f32)] fun x => fword (specialF fn c.rm c.sat (at_ (0 : W32) x 0).toNat)

/-- A special function of one FP32 operand. -/
def special1 (i : Instr) (s : State) (fn : SpecialFn) (d : Dst) (a : Src) : Host.Outcome State Fault Refusal :=
  run i s fun c s => c.special1 s fn d a

/-- `fexp` (R240). -/
def execFexp (x : Ctl) (d : Dst) (a : Src) (s : State) : Host.Outcome State Fault Refusal :=
  special1 (.fexp x d a) s .exp d a

/-- `fexp2` (R240). -/
def execFexp2 (x : Ctl) (d : Dst) (a : Src) (s : State) : Host.Outcome State Fault Refusal :=
  special1 (.fexp2 x d a) s .exp2 d a

/-- `flog2` (R240). -/
def execFlog2 (x : Ctl) (d : Dst) (a : Src) (s : State) : Host.Outcome State Fault Refusal :=
  special1 (.flog2 x d a) s .log2 d a

/-- `frcp` (R240). -/
def execFrcp (x : Ctl) (d : Dst) (a : Src) (s : State) : Host.Outcome State Fault Refusal :=
  special1 (.frcp x d a) s .rcp d a

/-- `frsq` (R240). -/
def execFrsq (x : Ctl) (d : Dst) (a : Src) (s : State) : Host.Outcome State Fault Refusal :=
  special1 (.frsq x d a) s .rsq d a

/-- `fsqrt` (R240). -/
def execFsqrt (x : Ctl) (d : Dst) (a : Src) (s : State) : Host.Outcome State Fault Refusal :=
  special1 (.fsqrt x d a) s .sqrt d a

/-- `fsin` (R240). -/
def execFsin (x : Ctl) (d : Dst) (a : Src) (s : State) : Host.Outcome State Fault Refusal :=
  special1 (.fsin x d a) s .sin d a

/-- `fcos` (R240). -/
def execFcos (x : Ctl) (d : Dst) (a : Src) (s : State) : Host.Outcome State Fault Refusal :=
  special1 (.fcos x d a) s .cos d a

/-- `ftanh` (R240). -/
def execFtanh (x : Ctl) (d : Dst) (a : Src) (s : State) : Host.Outcome State Fault Refusal :=
  special1 (.ftanh x d a) s .tanh d a

/-- `fsig` (R240). -/
def execFsig (x : Ctl) (d : Dst) (a : Src) (s : State) : Host.Outcome State Fault Refusal :=
  special1 (.fsig x d a) s .sig d a

end Sys2Proof.Machine
end

