-- ==== Sys2Proof/Machine/Activation.lean ====
section
/-! DEFINITION. Activation tables (opcodes 0x6A to 0x6C, R241 to R246). -/

namespace Sys2Proof.Machine

/-- The bytes of a table image (R242). -/
def actBytes : Nat := 1056

/-- A little-endian number of a bank. -/
def ActBank.num (b : ActBank) (a n : Nat) : Nat := ofBytes ((b.bytes.drop a).take n)

/-- WSHIFT of a bank (R242). -/
def ActBank.wshift (b : ActBank) : Int := signed 8 (b.num 0x0C 1)
/-- NSEG of a bank (R242). -/
def ActBank.nseg (b : ActBank) : Nat := b.num 0x0D 1
/-- LO of a bank as an exact value (R242). -/
def ActBank.lo (b : ActBank) : XVal := decodeF .f32 (b.num 0 4)
/-- Coefficient j of segment i as an encoding (R242). -/
def ActBank.coef (b : ActBank) (i j : Nat) : Nat := b.num (0x20 + 16 * i + 4 * j) 4

/-- Whether an image is refused with ACTF (R243). -/
def ActBank.bad (b : ActBank) : Bool :=
  ((b.bytes.drop 0x0E).take 0x12).any (· ≠ 0) || (List.range 64).any (fun i => b.num (0x2C + 16 * i) 4 ≠ 0) ||
  b.lo.isNaN || b.lo.isInf || b.wshift < -64 || 64 < b.wshift || 64 < b.nseg

/-- The exact sum of finite values as an exact value. -/
def sumX (t : List XVal) : XVal :=
  let r := exactSum t
  .fin (decide (r.1 < 0)) r.1.natAbs r.2

/-- The whole part of a number that is not negative. -/
def floorX (x : XVal) : Nat :=
  match x with
  | .fin _ m e => if 0 ≤ e then m * 2 ^ e.toNat else m / 2 ^ (-e).toNat
  | _ => 0

/-- ActEval of R244 on a bank that is not poisoned. -/
def ActBank.eval (b : ActBank) (rm : RM) (sat : Bool) (x : Nat) : Nat × FFlags :=
  let v := decodeF .f32 x
  let width : XVal := .fin false 1 b.wshift
  let hi := sumX [b.lo, .fin false b.nseg b.wshift]
  if v.isNaN then nanResult .f32 0 [(.f32, x)]
  else if v.lt b.lo then (b.num 4 4, flNone)
  else if !v.lt hi then (b.num 8 4, flNone)
  else
    let i := floorX ((sumX [v, b.lo.neg]).scale (-b.wshift))
    let u := sumX [v, b.lo.neg, (width.mul (.fin true i 0))]
    let cs := (List.range 3).map (b.coef i)
    let t := [decodeF .f32 (opd cs 0), (decodeF .f32 (opd cs 1)).mul u, ((decodeF .f32 (opd cs 2)).mul u).mul u]
    if t.any XVal.isNaN then nanResult .f32 0 (cs.map fun c => (.f32, c))
    else if t.any XVal.isInf then
      let y := sumTerms t false
      match y.1 with
      | .inf s => (withSign .f32 s (infBits .f32), flNone)
      | _ => (defaultNaN .f32, flNV)
    else roundX .f32 rm sat (sumTerms t (rm = .rdn)).1

/-- The bank that a table's select bit names (R241). -/
def ActTable.current (t : ActTable) : ActBank := if t.sel then t.bank1 else t.bank0

/-- Table n as the issuing split finds it: its own loads, also those whose number is not written yet, have flipped it (R89, R246). -/
def Ctx.table (c : Ctx) (s : State) (n : BitVec 2) : ActTable :=
  let mine := ((s.warp c.core c.slot).pend.filter fun p => p.split = c.sp).flatMap (·.writes)
  mine.foldl (fun t r => match r with
    | .act k b _ => if k = n.toNat then t.load b else t
    | _ => t) (s.table c.core c.room n.toNat)

/-- `actld` (R243, R246): the bank is flipped when kD is written. -/
def execActld (x : Ctl) (d a : BitVec 8) (n : BitVec 2) (s : State) : Host.Outcome State Fault Refusal :=
  run (.actld x d a n) s fun c s => do
    c.guard s c.x.mask [.k 0 d.toNat, .k 1 a.toNat]
    let k := c.kreg a.toNat
    let l := (lowest c.x.mask).getD 0
    if k.poison then stop .kill s
    else do
      let ps ← c.range s .glob .read l k.data.toNat actBytes 32
      let s ← c.observe s none ps 32 (some k.data)
      let r := c.readRange s ps 32
      let b : ActBank := { bytes := r.1, poison := r.2 }
      if b.bad then stop (.trap { cause := 0x25, lanes := bitOf l, d := k.data }) s
      else return c.commit s true [.k d.toNat] [.act n.toNat b d.toNat]

/-- `actev` (R244, R246): the bank that is current when the instruction issues. -/
def execActev (x : Ctl) (d : Dst) (a : Src) (n : BitVec 2) (s : State) : Host.Outcome State Fault Refusal :=
  run (.actev x d a n) s fun c s => do
    c.guard s c.act (dstNeed 1 d ++ srcNeed 1 1 a) [(a, .flt .f32)]
    let v := c.vec s c.act a (.flt .f32)
    let b := (c.table s n).current
    let res := (lanesOf c.act).map fun l =>
      let y := at_ {} v l
      if y.poison || b.poison then (l, LaneWord.of 0 true, (0 : FFlags))
      else
        let r := fword (b.eval c.rm c.sat y.data.toNat)
        (l, LaneWord.of r.1 false, r.2)
    let fl := res.foldl (fun (acc : FFlags) r => acc ||| r.2.2) 0
    c.writeLanes s true d 1 (res.map fun r => (r.1, [r.2.1])) (flagWrites fl)

/-- `actinfo` (R245). -/
def execActinfo (x : Ctl) (d : BitVec 8) (n : BitVec 2) (s : State) : Host.Outcome State Fault Refusal :=
  run (.actinfo x d n) s fun c s => do
    c.guard s c.x.mask [.k 0 d.toNat]
    return c.writeK s true d { data := (c.table s n).word true }

end Sys2Proof.Machine
end

