-- ==== Sys2Proof/Machine/Control.lean ====
section
/-! DEFINITION. Control flow, ends, traps, service calls and hints (opcodes 0x00 to 0x0F, R217 to R227). -/

namespace Sys2Proof.Machine

/-! ### The end of warps, groups and gangs -/

/-- A gang whose members have all ended, whose jobs are complete and whose `joinc` increments are applied leaves its rooms (R14, R160,
R223, R278). -/
def State.reap (s : State) (c n : Nat) : State :=
  match (s.room c n).group with
  | none => s
  | some g =>
    let ms := s.members g.launch g.gang
    let info := (s.launches.getD g.launch {}).gangInfo g.gang
    let all_ := (List.range (max 1 g.hdr.gang)).all fun m => info.ended.contains m
    let quiet := ms.all fun r => (s.group r.1 r.2).join.isNone && !(s.core r.1).jobs.any fun j => j.room = r.2
    if all_ && quiet then
      ms.foldl (fun s r => (s.modCore r.1 fun k => k.dropBooks g.launch g.gang).releaseRoom r.1 r.2) s
    else s

/-- A group ends (R160, R222, R223): its slots are free (R297), the launch counts it, and a persistent exit is logged (R158). -/
def State.endGroup (s : State) (c n : Nat) : State :=
  let g := s.group c n
  let s := g.slots.foldl (fun s sl => s.modWarp c sl fun w =>
    { w with live := false, splits := [none, none, none, none], stack := [], pend := [], block := [{}, {}, {}, {}], satchel := 0 }) s
  let s := s.modGroup c n fun g => { g with phase := .ended, handles := [none, none, none, none] }
  let s := s.modLaunch g.launch fun l =>
    { l.modGang g.gang fun i => { i with ended := setInsert i.ended g.member } with
      ended := l.ended + 1, endTime := l.endTime + g.wtimer.toNat }
  let s := if tbit g.hdr.flags 2 then s.emit (.innkeeper 4 c n 0 0) else s
  s.reap c n

/-- A warp without lanes has ended; the group ends with its last warp (R152, R160). -/
def State.checkWarp (s : State) (c slot : Nat) : State :=
  let w := s.warp c slot
  if w.liveLanes ≠ 0 then s
  else
    let s := s.modWarp c slot fun w => { w with live := false, pend := [], block := [{}, {}, {}, {}] }
    let g := s.group c w.room
    if g.slots.all fun sl => !(s.warp c sl).live then s.endGroup c w.room else s

/-! ### Branches -/

/-- NEST and RSOVF (R148, R343). -/
def divideTrap (c : Ctx) (e : DivideError) : Trap :=
  let d := BitVec.ofNat 64 c.w.stack.length
  match e with
  | .nest ls => { cause := 0x06, lanes := ls, d := d }
  | .rsovf => { cause := 0x07, lanes := c.x.mask, d := d }

/-- A branch: each lane goes to its own next PC, and PEND is consumed (R148, R217). -/
def Ctx.branch (c : Ctx) (s : State) (f : Nat → W64) : Act State :=
  match c.w.diverge c.sp (pathsOf c.x.mask f) true c.x.pc with
  | .error e => stop (.trap (divideTrap c e)) s
  | .ok w => stop .moved (s.setWarp c.core c.slot w)

/-- The target of a signed word offset (R182). -/
def Ctx.target (c : Ctx) (imm : W32) : W64 := c.x.pc + (imm.signExtend 64) * 4

/-- A branch to the lanes' own targets, read as offsets from a register operand; a poisoned one is uncorrectable consumption (R218,
R219). -/
def Ctx.targets (c : Ctx) (s : State) (a : Src) : Act (List W64) :=
  let v := c.vec s c.x.mask a .bits
  if (lanesOf c.x.mask).any fun l => (at_ {} v l).poison then stop .kill s
  else .ok (v.map fun x => x.data.setWidth 64)

/-- The link of a call, the offset of the next instruction, written into every active lane (R220). -/
def Ctx.link (c : Ctx) (s : State) (d : Dst) : Act State :=
  c.writeLanes s false d 1 ((lanesOf c.x.mask).map fun l => (l, [{ data := c.after.setWidth 32 }])) ([], [])

/-- A call: the faults of the branch come before the link is written (R148, R219, R220). -/
def Ctx.callTo (c : Ctx) (s : State) (d : Dst) (f : Nat → W64) : Act State :=
  match c.w.diverge c.sp (pathsOf c.x.mask f) true c.x.pc with
  | .error e => stop (.trap (divideTrap c e)) s
  | .ok w => do
    let s ← c.link s d
    stop .moved (s.setWarp c.core c.slot w)

/-- ILL with its detail (R202, R204). -/
def execIllegal (pw : Option (BitVec 32)) (w : BitVec 64) (s : State) : Host.Outcome State Fault Refusal :=
  run (.illegal pw w) s fun c s => stop (c.trapAll 0x01 0 0 ((ill { pw := pw, w := w }).getD 1)) s

/-- `nop` (R227). -/
def execNop (x : Ctl) (s : State) : Host.Outcome State Fault Refusal := run (.nop x) s fun _ s => .ok s

/-- `bra` (R218). -/
def execBra (x : Ctl) (imm : W32) (s : State) : Host.Outcome State Fault Refusal :=
  run (.bra x imm) s fun c s => c.branch s fun _ => c.target imm

/-- `brc` (R218). -/
def execBrc (x : Ctl) (a : BitVec 8) (imm : W32) (s : State) : Host.Outcome State Fault Refusal :=
  run (.brc x a imm) s fun c s => do
    c.guard s c.x.mask (srcNeed 1 1 (.v a))
    let v ← c.targets s (.v a)
    c.branch s fun l => if at_ 0 v l = 0 then c.after else c.target imm

/-- `brx` (R218). -/
def execBrx (x : Ctl) (a : Src) (s : State) : Host.Outcome State Fault Refusal :=
  run (.brx x a) s fun c s => do
    c.guard s c.x.mask (srcNeed 1 1 a)
    let v ← c.targets s a
    c.branch s fun l => at_ 0 v l

/-- `call` (R218, R220). -/
def execCall (x : Ctl) (d : BitVec 8) (imm : W32) (s : State) : Host.Outcome State Fault Refusal :=
  run (.call x d imm) s fun c s => do
    let d : Dst := { ix := false, n := d }
    c.guard s c.x.mask (dstNeed 1 d)
    c.callTo s d fun _ => c.target imm

/-- `calli` (R218, R220). -/
def execCalli (x : Ctl) (d : Dst) (a : Src) (s : State) : Host.Outcome State Fault Refusal :=
  run (.calli x d a) s fun c s => do
    c.guard s c.x.mask (dstNeed 1 d ++ srcNeed 1 1 a)
    let v ← c.targets s a
    c.callTo s d fun l => at_ 0 v l

/-- `ret` (R218, R220). -/
def execRet (x : Ctl) (a : Src) (s : State) : Host.Outcome State Fault Refusal :=
  run (.ret x a) s fun c s => do
    c.guard s c.x.mask (srcNeed 1 1 a)
    let v ← c.targets s a
    c.branch s fun l => at_ 0 v l

/-- `rcv` (R148, R218). -/
def execRcv (x : Ctl) (off : BitVec 24) (s : State) : Host.Outcome State Fault Refusal :=
  run (.rcv x off) s fun c s => .ok (s.modWarp c.core c.slot fun w => { w with
    splits := modifyAt w.splits c.sp (Option.map fun y => { y with pend := some (c.x.pc + off.signExtend 64 * 4) }) })

/-! ### Waiting on a counter (R221) -/

/-- A counter's key: partition and ID (R332). -/
def counterKey (part id : Nat) : Nat := part * 65536 + id % 65536

/-- When a counter first reached a threshold, as the counter unit stamped it (R221). -/
def Counter.reached (k : Counter) (thr : W64) : Option Nat := (k.log.find? fun p => thr.toNat ≤ p.1.toNat).map (·.2)

/-- Writes a uniform of the split whose instruction ends. -/
def Ctx.setK (c : Ctx) (s : State) (d : BitVec 8) (x : W64) : State := s.writeReg c.core c.slot (.k d.toNat { data := x })

/-- The deadline that stands for no timeout (log entry 3). -/
def noDeadline : W64 := -1

/-- `waitj` (R221). -/
def execWaitj (x : Ctl) (d a : BitVec 8) (imm : W32) (s : State) : Host.Outcome State Fault Refusal :=
  run (.waitj x d a imm) s fun c s => do
    c.guard s c.x.mask (.k 0 d.toNat :: .k 1 a.toNat :: impliedK a.toNat 1)
    let id := c.kreg a.toNat
    let thr := c.kreg (a.toNat + 1)
    if id.poison || thr.poison then stop .kill s
    else
      let key := counterKey c.g.part id.data.toNat
      let k := get {} s.counters key
      if thr.data.toNat ≤ k.value.toNat then
        let s ← c.acquireVecNow s k.vec
        return c.setK s d 1
      else stop (.wait { kind := 4, addr := BitVec.ofNat 64 (id.data.toNat % 65536), value := thr.data,
                         aux := if imm = 0 then noDeadline else BitVec.ofNat 64 (s.gtime + imm.toNat) }) s

/-- The D of a `waitj` and of the other waits that write a uniform. -/
def waitD (i : Instr) : BitVec 8 :=
  match i with
  | .waitj _ d _ _ => d
  | .tqpop _ d _ => d
  | .mxq _ d _ => d
  | .mxwait _ d _ => d
  | _ => 0

/-- WAITJ_ARRIVAL: the threshold was reached at or before the deadline (R221). -/
def waitjArrival (r : SplitRef) (s : State) : State :=
  resume r s [4] fun c i b s =>
    let k := get {} s.counters (counterKey c.g.part b.addr.toNat)
    match k.reached b.value with
    | some t =>
      if b.aux = noDeadline || t ≤ b.aux.toNat then do
        let s ← c.acquireVecNow s k.vec
        return c.setK s (waitD i) 1
      else stop .again s
    | none => stop .again s

/-- WAITJ_TIMEOUT: the deadline tick has ended without an arrival (R221). -/
def waitjTimeout (r : SplitRef) (s : State) : State :=
  resume r s [4] fun c i b s =>
    let k := get {} s.counters (counterKey c.g.part b.addr.toNat)
    let late := match k.reached b.value with
      | some t => b.aux.toNat < t
      | none => true
    if b.aux ≠ noDeadline && b.aux.toNat < s.gtime && late then return c.setK s (waitD i) 0 else stop .again s

/-- WAITJ_ARRIVAL. -/
def execWaitjArrival (r : SplitRef) (s : State) : Host.Outcome State Fault Refusal := .next (waitjArrival r s)
/-- WAITJ_TIMEOUT. -/
def execWaitjTimeout (r : SplitRef) (s : State) : Host.Outcome State Fault Refusal := .next (waitjTimeout r s)

/-! ### Ends (R222, R223) -/

/-- `exit` (R152, R222). -/
def execExit (x : Ctl) (s : State) : Host.Outcome State Fault Refusal :=
  run (.exit x) s fun c s =>
    stop .moved ((s.modWarp c.core c.slot fun w => w.exitLanes c.x.mask c.x.pc).checkWarp c.core c.slot)

/-- `end` (R223). -/
def execEndGroup (x : Ctl) (s : State) : Host.Outcome State Fault Refusal :=
  run (.endGroup x) s fun c s => stop .moved (s.endGroup c.core c.room)

/-! ### Traps, services, hints (R224 to R227) -/

/-- The software trap, or the return when the warp is in handler mode (R224, R347, R348). -/
def Ctx.softTrap (c : Ctx) (s : State) (imm : W32) : Act State :=
  if c.w.returns c.sp imm then stop .moved (s.modWarp c.core c.slot fun w => w.trapReturn c.sp imm.toNat)
  else stop (c.trapAll 0x02 (imm := some (imm.signExtend 64))) s

/-- `trap` (R224). -/
def execTrap (x : Ctl) (imm : W32) (s : State) : Host.Outcome State Fault Refusal :=
  run (.trap x imm) s fun c s => c.softTrap s imm

/-- TRAP_RETURN: `trap` in handler mode (R347). -/
def execTrapReturn (x : Ctl) (imm : W32) (s : State) : Host.Outcome State Fault Refusal :=
  run (.trapReturn x imm) s fun c s => c.softTrap s imm

/-- The die of the Dunesh core: 4 when the spare serves (R399). -/
def State.dunesh (s : State) : Nat := if s.fw.spare then 4 else 0

/-- The physical address behind an IPA of a partition as die d looks it up (R23, R33), if stage 2 maps it and permits the access (R30). -/
def State.ipaToPa (s : State) (d part ipa : Nat) (write : Bool) : Option Nat :=
  match s.stage2 d part ipa with
  | .ok (pa, w, _) => if write && !w then none else some pa
  | .error _ => none

/-- Whether the lookup of an IPA meets a poisoned entry (R403). -/
def State.ipaPoison (s : State) (d part ipa : Nat) : Bool :=
  match s.stage2 d part ipa with
  | .error none => true
  | .error (some _) | .ok _ => false

/-- Service 1 (R225): a record of sr.gtime and the argument bytes goes to the tenant's trace buffer; the answer is its number. -/
def State.traceRecord (s : State) (die fn part : Nat) (args : List W64) : State × W64 :=
  let f := s.fns.getD fn {}
  let (base, bytes, n) := f.traceBuf
  if bytes = 0 then (s, -1)
  else
    let at' := base + n % (bytes / 64) * 64
    let s := match s.ipaToPa die part at' true with
      | some pa => (s.privWrite die pa 8 s.gtime).privWrite die (pa + 8) 56 (args.foldr (fun (w : W64) (acc : Nat) => w.toNat + 2 ^ 64 * acc) 0)
      | none => s
    (s.modFn fn fun f => { f with traceBuf := (base, bytes, n + 1) }, BitVec.ofNat 64 n)

/-- `sysc` (R225). -/
def execSysc (x : Ctl) (d a : BitVec 8) (imm : W32) (s : State) : Host.Outcome State Fault Refusal :=
  run (.sysc x d a imm) s fun c s => do
    c.guard s c.x.mask (.k 0 d.toNat :: .k 1 a.toNat :: impliedK a.toNat 3)
    let args := (List.range 4).map fun i => c.kreg (a.toNat + i)
    if args.any (·.poison) then stop .kill s
    else
      let s ← c.fenceNow s .dev
      let (s, r) :=
        if imm = 0 then (s, 0)
        else if imm = 1 then s.traceRecord c.die (s.launches.getD c.g.launch {}).fn c.g.part (args.map (·.data))
        else (s, -1)
      return c.setK s d r

/-- A group stops for the debugger: every result pending in its warps is written (R360). -/
def State.stopGroup (s : State) (c n : Nat) : State :=
  let s := (s.group c n).slots.foldl (fun s sl => s.drain c sl fun _ => true) s
  s.modGroup c n fun g => { g with stopped := true }

/-- `bkpt` (R226). -/
def execBkpt (x : Ctl) (s : State) : Host.Outcome State Fault Refusal :=
  run (.bkpt x) s fun c s =>
    if (s.room c.core c.room).bkpt then
      let s := (s.stopGroup c.core c.room).modGroup c.core c.room fun g => { g with bkptAt := some (c.w.num, c.sp, c.x.pc) }
      stop .moved (s.emit (.innkeeper 3 c.core c.room 0 0))
    else .ok s

/-- `yield` (R227): the split's age starts again, as after every instruction (R335). -/
def execYield (x : Ctl) (s : State) : Host.Outcome State Fault Refusal := run (.yield x) s fun _ s => .ok s

end Sys2Proof.Machine
end

