-- ==== Sys2Proof/Machine/Launch.lean ====
section
/-! DEFINITION. What the Innkeeper and the counter unit keep: launch records and kernel headers (R173, R174, R327, R395), launches, the
dependence counters, the waiting pool and the ready queues (R273 to R276, R332, R333). -/

namespace Sys2Proof.Machine

/-! ### Records and headers -/

/-- The bytes [a, a + n) of a record as a number. -/
def num (bs : List Byte) (a n : Nat) : Nat := ofBytes ((bs.drop a).take n)

/-- A launch record from its 64 bytes (R327). -/
def LaunchRec.of (bs : List Byte) : LaunchRec :=
  let x := ofBytes bs
  { data := field x 511 448, args := field x 447 384, priv := field x 383 320, khdr := field x 319 256, gangs := field x 255 224,
    asid := field x 223 212, prio := field x 211 210, deadline := field x 191 160, slice := field x 159 128,
    res := field x 209 192 + 2 ^ 18 * field x 127 0 }

/-- A kernel header from its 64 bytes (R173). -/
def KHdr.of (bs : List Byte) : KHdr :=
  { magic := num bs 0 4, version := num bs 4 2, flags := num bs 6 2, codesize := num bs 8 4, allot := num bs 0xC 2, unif := num bs 0xE 1,
    res0 := num bs 0xF 1, scratch := num bs 0x10 4, tiles := num bs 0x14 1, slots := num bs 0x15 1, satchel := num bs 0x16 2,
    warps := num bs 0x18 1, gang := num bs 0x19 1, stages := num bs 0x1A 1, roles := num bs 0x1B 1, handler := num bs 0x1C 4,
    trapmask := num bs 0x20 4, vernus := num bs 0x24 2, cplv := num bs 0x26 1, res1 := num bs 0x27 1, args := num bs 0x28 4,
    stack := num bs 0x2C 4, trailbase := num bs 0x30 1, trailtop := num bs 0x31 1, res2 := num bs 0x32 14 }

/-- The byte offset of the first field of a header that breaks R170, R174 or R345, if any. -/
def KHdr.bad (h : KHdr) : Option Nat :=
  let pipe := tbit h.flags 5
  let search := tbit h.flags 1
  let slot := tbit h.flags 0
  let checks : List (Nat × Bool) :=
    [ (0x00, h.magic = 0x484B5853)
    , (0x04, h.version = 1)
    , (0x06, h.flags < 64)
    , (0x08, h.codesize % 4 = 0 && 8 ≤ h.codesize)
    , (0x0C, 8 ≤ h.allot && h.allot ≤ 256 && h.allot % 8 = 0)
    , (0x0E, h.unif ≤ 64)
    , (0x0F, h.res0 = 0)
    , (0x10, 8 + h.args ≤ h.scratch && h.scratch ≤ 2031616)
    , (0x14, h.tiles ≤ 64)
    , (0x15, if slot then 1 ≤ h.slots && h.slots ≤ 4 else h.slots = 0)
    , (0x16, if search then 256 ≤ h.satchel && h.satchel ≤ 16384 && h.satchel % 32 = 0 else h.satchel = 0)
    , (0x18, 1 ≤ h.warps && h.warps ≤ 32)
    , (0x19, 1 ≤ h.gang && h.gang ≤ 8)
    , (0x1A, if pipe then 1 ≤ h.stages && h.stages ≤ 8 else h.stages = 0)
    , (0x1B, if pipe then h.roles % 16 + h.roles / 16 ≤ h.warps else h.roles = 0)
    , (0x1C, h.handler = 0xFFFFFFFF || (h.handler % 4 = 0 && h.handler < h.codesize))
    , (0x20, h.trapmask < 1024)
    , (0x24, 1 ≤ h.vernus && h.vernus ≤ 5)
    , (0x26, h.cplv ≤ 1)
    , (0x27, h.res1 = 0)
    , (0x28, h.args % 8 = 0 && h.args ≤ 4096)
    , (0x2C, h.stack % 16 = 0 && h.stack ≤ 262144)
    , (0x30, if search then h.trailbase ≤ h.trailtop else h.trailbase = 0)
    , (0x31, if search then h.trailtop < h.allot else h.trailtop = 0)
    , (0x32, h.res2 = 0) ]
  (checks.find? fun c => !c.2).map (·.1)

/-- A translation that the Innkeeper makes for itself through a launch's tables, on the Dunesh core's die; its walk sets A, and one that meets a
poisoned entry is logged (R32, R33, R403). -/
def State.innAt (s : State) (asid va : Nat) : State × Option (Nat × Nat × Attr) :=
  let agent := hostAgent s.dunesh
  let w := s.walk s.dunesh agent asid va
  let s := w.2.2.foldl (fun s ipa => s.keepMap s.dunesh w.2.1 ipa) s
  match w.1 with
  | .found t =>
    match s.leafCheck t .read .any false (t.pa + (va - t.va)) with
    | .ok a => ((s.markLeaf t false).1, some (t.ipa + (va - t.va), t.pa + (va - t.va), a))
    | .error _ => (s, none)
  | .poison => (s.emit (.poisonedWalk agent asid va), none)
  | .fault _ => (s, none)

/-- The partition of an ASID, where the ASID is valid (R24). -/
def State.asidPart (s : State) (asid : Nat) : Option Nat :=
  let r := s.entryAt (s.asidBase + asid * 8)
  if asid = 0 || r.2 || !tbit r.1 0 then none else some (field r.1 6 1)

/-- Whether a kernel header at an IPA lies in a loaded image of a function (R395). -/
def Fn.hasImage (f : Fn) (ipa : Nat) : Bool := f.images.any fun i => i.1 ≤ ipa && ipa + 64 ≤ i.1 + i.2

/-- A launch record checked for a function of a partition (R174, R327, R395): the header, or the byte offset at fault. `parent` is the ASID
of a forking group. DESIGN CHOICE: a header that reads as poisoned is refused as one that cannot be read, with offset 32 (log entry
108). -/
def State.checkLaunch (s : State) (fn part : Nat) (parent : Option Nat) (r : LaunchRec) : State × Except Nat KHdr :=
  if r.res / 2 ^ 18 ≠ 0 then (s, .error 0)
  else if r.res % 2 ^ 18 ≠ 0 then (s, .error 24)
  else if r.gangs = 0 || 65536 < r.gangs then (s, .error 28)
  else if s.asidPart r.asid ≠ some part || (match parent with
    | some a => a ≠ r.asid
    | none => false) then (s, .error 26)
  else if r.khdr % 64 ≠ 0 then (s, .error 32)
  else
    match s.innAt r.asid r.khdr with
    | (s, none) => (s, .error 32)
    | (s, some (ipa, pa, a)) =>
      let bs := s.readAt s.dunesh a pa 64
      if bs.2 || !(s.fns.getD fn {}).hasImage ipa then (s, .error 32)
      else
        match (KHdr.of bs.1).bad with
        | some n => (s, .error n)
        | none => (s, .ok (KHdr.of bs.1))

/-- A launch that is submitted, checked (R158, R174, R327): once a partition's start-up is over, no launch of a persistent kernel is made there.
DESIGN CHOICE: such a launch is refused with the offset of FLAGS (log entry 114). -/
def State.admitLaunch (s : State) (fn part : Nat) (parent : Option Nat) (r : LaunchRec) : State × Except Nat KHdr :=
  match s.checkLaunch fn part parent r with
  | (s, .ok h) => (s, if tbit h.flags 2 && s.started.contains part then .error 6 else .ok h)
  | x => x

/-- A group of a launch that waits in its context record, or none. -/
def State.savedOf (s : State) (launch groupid : Nat) : Option Saved := s.saved.find? fun v => v.launch = launch && v.groupid = groupid

/-! ### Counters and tasks (R273 to R276, R332, R333) -/

/-- The home die of a partition's counters (R332): the lowest that holds a cluster of the partition. -/
def State.homeOf (s : State) (part : Nat) : Nat :=
  ((List.range 16).find? fun k => at_ none s.clusters k = some part).getD 0 / 2

/-- Key of a ready queue: partition and number. -/
def queueKey (part q : Nat) : Nat := part * 64 + q

/-- The entries that a ready queue holds at most (R332; 2^6 where none was registered). -/
def State.queueRoom (s : State) (part q : Nat) : Nat := 2 ^ (get 6 s.queueCap (queueKey part q))

/-- The queue that a task entry names (R274). -/
def taskQueue (e : BitVec 256) : Nat := field e.toNat 23 16

/-- A ready task enters its queue, at the tail or, with FRONT, at the head (R275). -/
def State.enqueue (s : State) (part : Nat) (e : BitVec 256) (vec : List Nat) : State :=
  let k := queueKey part (taskQueue e)
  let q := get [] s.queues k
  { s with queues := put [] s.queues k (if e.getLsbD 24 then { entry := e, vec := vec } :: q else q ++ [{ entry := e, vec := vec }]) }

/-- Whether a task's ready queue has a free entry. -/
def State.queueFree (s : State) (part q : Nat) : Bool := (get [] s.queues (queueKey part q)).length < s.queueRoom part q

/-- Ready tasks of a queue enter it in the order in which they became ready, as long as it has a free entry (R333). -/
def State.feedQueue (s : State) (fuel part q : Nat) : State :=
  match fuel with
  | 0 => s
  | n + 1 =>
    match s.tasks.find? fun t => t.ready && t.part = part && taskQueue t.entry = q with
    | some t => if s.queueFree part q then State.feedQueue ({ s with tasks := s.tasks.erase t }.enqueue part t.entry t.vec) n part q else s
    | none => s

/-- A task that became ready: in its queue, or in the pool, marked, behind those that became ready before it (R275, R333). -/
def State.makeReady (s : State) (t : Task) : State :=
  let q := taskQueue t.entry
  if s.queueFree t.part q then s.enqueue t.part t.entry t.vec else { s with tasks := s.tasks ++ [{ t with ready := true }] }

/-- The waits of a task after a counter rose from o to v (R275). -/
def Task.update (t : Task) (part id o v : Nat) (vec : List Nat) : Task :=
  let n := (t.waits.filter fun w => w.1 = id && o < w.2.toNat && w.2.toNat ≤ v).length
  if t.part ≠ part || t.ready || n = 0 then t else { t with u := t.u - n, vec := joinVec t.vec vec }

/-- An update of a counter (R221, R273, R275): it saturates, its tick is kept, its epochs join the counter's, and tasks become ready. -/
def State.counterAdd (s : State) (part id : Nat) (n : W64) (vec : List Nat) : State :=
  let key := counterKey part id
  let k := get {} s.counters key
  let o := k.value.toNat
  let v := min (o + n.toNat) (2 ^ 64 - 1)
  let k : Counter := { value := BitVec.ofNat 64 v, log := k.log ++ [(BitVec.ofNat 64 v, s.gtime)], vec := joinVec k.vec vec }
  let s := { s with counters := put {} s.counters key k }
  let ts := s.tasks.map fun (t : Task) => t.update part (id % 65536) o v vec
  let up := ts.filter fun t => !t.ready && t.u = 0
  up.foldl State.makeReady { s with tasks := ts.filter fun t => t.ready || t.u ≠ 0 }

/-- A push (R274, R332): 0 the task waits, 1 it is ready, 2 the pool or the quota is full. -/
def State.pushTask (s : State) (part : Nat) (e : BitVec 256) (waits : List (Nat × W64)) (vec : List Nat) : State × Nat :=
  let open_ := waits.filter fun w => (get {} s.counters (counterKey part w.1)).value.toNat < w.2.toNat
  let met := waits.filter fun w => !((get {} s.counters (counterKey part w.1)).value.toNat < w.2.toNat)
  let vec := met.foldl (fun v w => joinVec v (get {} s.counters (counterKey part w.1)).vec) vec
  let t : Task := { part := part, entry := e, waits := waits, u := open_.length, ready := false, vec := vec }
  let home := s.homeOf part
  let held := (s.tasks.filter fun x => s.homeOf x.part = home).length
  let mine := (s.tasks.filter fun x => x.part = part).length
  let full := 16384 ≤ held || get 16384 s.quota part ≤ mine
  if open_ = [] then
    if s.queueFree part (taskQueue e) then (s.enqueue part e vec, 1)
    else if full then (s, 2)
    else (s.makeReady t, 1)
  else if full then (s, 2)
  else ({ s with tasks := s.tasks ++ [t] }, 0)

/-- A pop (R276, R333). -/
def State.popTask (s : State) (part q : Nat) : Option (Ready × State) :=
  match get [] s.queues (queueKey part q) with
  | [] => none
  | x :: rest => some (x, { s with queues := put [] s.queues (queueKey part q) rest }.feedQueue 1 part q)

end Sys2Proof.Machine
end

