-- ==== Sys2Proof/Machine/Block.lean ====
section
/-! DEFINITION. Described blocks, codebooks and the requantiser (R72 to R79, R83), and the matrix step (R80). -/

namespace Sys2Proof.Machine

/-! ### Blocks (R74 to R78) -/

/-- A format of elements: a float format, INT8, or a codebook's entries (R77, R79). -/
inductive Elem where
  | flt (f : FFmt)
  | int8
  | cb (j : Nat)
  deriving DecidableEq, Repr

/-- The format that FMT names, if it is one (R77). -/
def Elem.of (fmt : Nat) : Option Elem :=
  match fmt with
  | 1 => some (.flt .e4m3)
  | 2 => some (.flt .e5m2)
  | 3 => some (.flt .e2m1)
  | 4 => some .int8
  | 5 => some (.flt .bf16)
  | 6 => some (.flt .f16)
  | n => if 16 ≤ n ∧ n ≤ 23 then some (.cb (n - 16)) else none

/-- The bits of an element. -/
def Elem.bits : Elem → Nat
  | .flt f => (FFmt.spec f).bits
  | .int8 => 8
  | .cb _ => 4

/-- The element count of a block (R77): 62, 124 or 31. -/
def Elem.count (e : Elem) : Nat := 496 / e.bits

/-- A codebook's entry as a gang sees it: +0 where the gang has not loaded it (R74, R294). -/
def Codebook.entry (b : Codebook) (holder : Nat × Nat) (c : Nat) : Nat :=
  if b.holder = some holder then ofBytes ((b.bytes.drop (2 * c)).take 2) else 0

/-- Whether a codebook delivers poison to a gang (R294). -/
def Codebook.bad (b : Codebook) (holder : Nat × Nat) : Bool := b.holder = some holder && b.poison

/-- Raw element i of packed bytes (R72). -/
def rawElem (bits : Nat) (bs : List Byte) (i : Nat) : Nat :=
  if bits = 4 then (at_ (0 : Byte) bs (i / 2)).toNat / (if i % 2 = 0 then 1 else 16) % 16
  else ofBytes ((bs.drop (bits / 8 * i)).take (bits / 8))

/-- The exact value of a raw element, unscaled (R72, R74, R78). -/
def elemValue (e : Elem) (books : List Codebook) (holder : Nat × Nat) (raw : Nat) : XVal :=
  match e with
  | .flt f => decodeF f raw
  | .int8 => XVal.ofInt (signed 8 raw)
  | .cb j => decodeF .bf16 ((at_ {} books j).entry holder raw)

/-- A value under an E8M0 scale byte (R73). -/
def scaled (x : XVal) (e : Nat) : XVal := if e = 255 then .nan else x.scale ((e : Int) - 127)

/-- BlockElement of R78 for a block whose FMT is a format. -/
def blockElement (e : Elem) (books : List Codebook) (holder : Nat × Nat) (blk : List Byte) (i : Nat) : XVal :=
  scaled (elemValue e books holder (rawElem e.bits (blk.drop 2) i)) ((at_ (0 : Byte) blk 1).toNat)

/-- FMT of a block. -/
def blockFmt (blk : List Byte) : Nat := (blk.headD 0).toNat

/-! ### The requantiser (R83) -/

/-- Floor(Log2) of a finite nonzero magnitude. -/
def log2X (x : XVal) : Int :=
  match x with
  | .fin _ m e => (Nat.log2 m : Int) + e
  | _ => 0

/-- The finite entries of a codebook, with their codes. -/
def cbFinite (es : List Nat) : List (Nat × XVal) :=
  (es.map (decodeF .bf16)).zipIdx.filterMap fun (p : XVal × Nat) => match p.1 with
    | .fin s m e => some (p.2, .fin s m e)
    | _ => none

/-- The magnitude of an exact value. -/
def absX (x : XVal) : XVal :=
  match x with
  | .fin _ m e => .fin false m e
  | .inf _ => .inf false
  | .nan => .nan

/-- The greatest value of a list, the first among equals. -/
def maxX (t : List XVal) : Option XVal :=
  t.foldl (fun b x => match b with
    | none => some x
    | some y => if y.lt x then some x else some y) none

/-- The code whose value is least, or greatest with `up`; the lowest code among equals. -/
def bestCode (up : Bool) (t : List (Nat × XVal)) : Nat :=
  ((t.foldl (fun (b : Option (Nat × XVal)) x => match b with
    | none => some x
    | some y => if (if up then y.2.lt x.2 else x.2.lt y.2) then some x else some y) none).map (·.1)).getD 0

/-- CbNearest of R83. -/
def cbNearest (es : List Nat) (w : XVal) : Nat :=
  let fin := cbFinite es
  let w := if w.isNaN then XVal.zero else w
  if fin.isEmpty then
    match w with
    | .inf s => (((es.map (decodeF .bf16)).zipIdx.find? fun (p : XVal × Nat) => p.1 = .inf s).map (·.2)).getD 0
    | _ => 0
  else
    match w with
    | .inf s => bestCode (!s) fin
    | _ => bestCode false (fin.map fun p =>
        let d := exactSum [p.2, w.neg]
        (p.1, .fin false d.1.natAbs d.2))

/-- The largest magnitude among a codebook's finite entries, if it is not 0 (R83). -/
def cbMax (es : List Nat) : Option XVal :=
  match maxX ((cbFinite es).map fun p => absX p.2) with
  | some x => if x.isZero then none else some x
  | none => none

/-- EmaxOf of R83; none where the scale is fixed at 127. DESIGN CHOICE: it is fixed for FP32 too, a target for which R83 states no EmaxOf, and a NaN
becomes FP32's default NaN (log entry 101). -/
def emaxOf (e : Elem) (es : List Nat) : Option Int :=
  match e with
  | .flt .e4m3 => some 8
  | .flt .e5m2 => some 15
  | .flt .e2m1 => some 2
  | .int8 => some 6
  | .cb _ => (cbMax es).map log2X
  | .flt _ => none

/-- One element of the target format (R83). -/
def requantElem (e : Elem) (es : List Nat) (rm : RM) (w : XVal) : Nat :=
  match e with
  | .cb _ => cbNearest es w
  | .int8 => ((floatToInt .s8 rm w).1 % 256).toNat
  | .flt f => if w.isNaN then defaultNaN f else (roundX f rm true w).1

/-- Elements packed into bytes (R72, R77). -/
def packElems (bits : Nat) (xs : List Nat) : List Byte :=
  if bits = 4 then
    (List.range ((xs.length + 1) / 2)).map fun i => BitVec.ofNat 8 (at_ 0 xs (2 * i) + 16 * at_ 0 xs (2 * i + 1))
  else xs.flatMap fun x => leBytes (bits / 8) x

/-- RequantiseBlock of R83 without the block's frame: the scale and the elements of values none of which is poison. -/
def requantise (e : Elem) (es : List Nat) (rm : RM) (v : List XVal) : Nat × List Nat :=
  let mags := (v.filter fun x => !x.isNaN && !x.isInf && !x.isZero).map absX
  let scale : Nat :=
    match maxX mags, emaxOf e es with
    | some m, some k => (max 0 (min 254 (log2X m - k + 127))).toNat
    | _, _ => 127
  (scale, v.map fun x => requantElem e es rm (x.scale (127 - (scale : Int))))

/-- FMT code of a format (R77). -/
def Elem.fmt : Elem → Nat
  | .flt .e4m3 => 1
  | .flt .e5m2 => 2
  | .flt .e2m1 => 3
  | .int8 => 4
  | .flt .bf16 => 5
  | .flt .f16 => 6
  | .flt .f32 => 0
  | .cb j => 16 + j

/-- A block of 64 bytes from FMT, SCALE and payload. -/
def frame (fmt scale : Nat) (payload : List Byte) : List Byte :=
  ([BitVec.ofNat 8 fmt, BitVec.ofNat 8 scale] ++ payload ++ List.replicate 62 0).take 64

/-- RequantiseBlock of R83 for a described target; `v` holds values, none for poison. -/
def requantiseBlock (e : Elem) (es : List Nat) (rm : RM) (v : List (Option XVal)) : List Byte :=
  if v.any (·.isNone) then frame 0xFF 0xFF []
  else
    let xs := v.filterMap id
    if xs.all XVal.isZero then frame 0 0x7F []
    else
      let r := requantise e es rm xs
      frame e.fmt r.1 (packElems e.bits r.2)

/-! ### The matrix step (R80) -/

/-- MatrixStep of R80 on operands none of which is poison: FP32 bits of the element after the step. -/
def matrixStep (acc : Nat) (prods : List XVal) : Nat :=
  let t := decodeF .f32 acc :: prods
  let y := sumTerms t false
  match y.1 with
  | .nan => 0x7FC00000
  | .inf s => withSign .f32 s (infBits .f32)
  | x => (roundX .f32 .rne false x).1

end Sys2Proof.Machine
end

