-- ==== Sys2Proof/Machine/Uniform.lean ====
section
/-! DEFINITION. Uniform instructions and special registers (opcodes 0x30 to 0x3E, R212, R213, R215, R216). -/

namespace Sys2Proof.Machine

/-! ### Uniform arithmetic -/

/-- A uniform instruction of two operands (R212, R213): poison from poison. -/
def uni2 (i : Instr) (s : State) (d : BitVec 8) (a b : Src) (f : W64 → W64 → W64) : Host.Outcome State Fault Refusal :=
  run i s fun c s => do
    c.guard s c.x.mask (.k 0 d.toNat :: (srcNeed 1 1 a ++ srcNeed 2 1 b))
    let p := c.ksrc a
    let q := c.ksrc b
    return c.writeK s false d (KReg.of (f p.data q.data) (p.poison || q.poison))

/-- `kadd` (R213). -/
def execKadd (x : Ctl) (d : BitVec 8) (a b : Src) (s : State) : Host.Outcome State Fault Refusal :=
  uni2 (.kadd x d a b) s d a b (· + ·)

/-- `ksub` (R213). -/
def execKsub (x : Ctl) (d : BitVec 8) (a b : Src) (s : State) : Host.Outcome State Fault Refusal :=
  uni2 (.ksub x d a b) s d a b (· - ·)

/-- `kmul` (R213). -/
def execKmul (x : Ctl) (d : BitVec 8) (a b : Src) (s : State) : Host.Outcome State Fault Refusal :=
  uni2 (.kmul x d a b) s d a b (· * ·)

/-- `kand` (R213). -/
def execKand (x : Ctl) (d : BitVec 8) (a b : Src) (s : State) : Host.Outcome State Fault Refusal :=
  uni2 (.kand x d a b) s d a b (· &&& ·)

/-- `kor` (R213). -/
def execKor (x : Ctl) (d : BitVec 8) (a b : Src) (s : State) : Host.Outcome State Fault Refusal :=
  uni2 (.kor x d a b) s d a b (· ||| ·)

/-- `kxor` (R213). -/
def execKxor (x : Ctl) (d : BitVec 8) (a b : Src) (s : State) : Host.Outcome State Fault Refusal :=
  uni2 (.kxor x d a b) s d a b (· ^^^ ·)

/-- `kshl` (R213). -/
def execKshl (x : Ctl) (d : BitVec 8) (a b : Src) (s : State) : Host.Outcome State Fault Refusal :=
  uni2 (.kshl x d a b) s d a b fun a b => a <<< (b.toNat % 256)

/-- `kshr` (R213). -/
def execKshr (x : Ctl) (d : BitVec 8) (a b : Src) (s : State) : Host.Outcome State Fault Refusal :=
  uni2 (.kshr x d a b) s d a b fun a b => a >>> (b.toNat % 256)

/-- `kcmp` (R196, R213). -/
def execKcmp (x : Ctl) (cc : ICond) (d : BitVec 8) (a b : Src) (s : State) : Host.Outcome State Fault Refusal :=
  uni2 (.kcmp x cc d a b) s d a b fun a b => if condI cc a b then 1 else 0

/-- What the source of `kmov` and `mmov` touches: mode 000 names a mask (R213). -/
def maskNeed (a : Src) : List Need :=
  match a with
  | .v n => [.m n.toNat]
  | a => srcNeed 1 1 a

/-- The source of `kmov` and `mmov`: a mask zero-extended, a uniform or an immediate (R213). -/
def Ctx.maskOrK (c : Ctx) (a : Src) : KReg :=
  match a with
  | .v n => { data := (at_ (0 : LaneMask) c.w.masks n.toNat).setWidth 64 }
  | a => c.ksrc a

/-- `kmov` (R213). -/
def execKmov (x : Ctl) (d : BitVec 8) (a : Src) (s : State) : Host.Outcome State Fault Refusal :=
  run (.kmov x d a) s fun c s => do
    c.guard s c.x.mask (.k 0 d.toNat :: maskNeed a)
    return c.writeK s false d (c.maskOrK a)

/-- `kmovi` (R213). -/
def execKmovi (x : Ctl) (d : BitVec 8) (imm : W32) (s : State) : Host.Outcome State Fault Refusal :=
  run (.kmovi x d imm) s fun c s => do
    c.guard s c.x.mask [.k 0 d.toNat]
    return c.writeK s false d { data := imm.signExtend 64 }

/-- `mmov` (R212, R213). -/
def execMmov (x : Ctl) (d : BitVec 8) (a : Src) (s : State) : Host.Outcome State Fault Refusal :=
  run (.mmov x d a) s fun c s => do
    c.guard s c.x.mask (.m d.toNat :: maskNeed a)
    let v := c.maskOrK a
    if v.poison then stop .kill s
    else return c.commit s false [] [.m d.toNat (v.data.setWidth 32)]

/-- `vtok` (R213): lane b mod 32 of vA, whether or not it is active. A poisoned b poisons the result. -/
def execVtok (x : Ctl) (d : BitVec 8) (a b : Src) (s : State) : Host.Outcome State Fault Refusal :=
  run (.vtok x d a b) s fun c s => do
    let j := (c.ksrc b).data.toNat % 32
    match c.regb1 c.x.mask (.k 0 d.toNat) with
    | some t => stop (.trap t) s
    | none =>
      match (srcNeed 1 1 a).findSome? (c.regb1 (bitOf j)) with
      | some t => stop (.trap t) s
      | none => do
        c.guard s c.x.mask (srcNeed 2 1 b)
        match c.lav (bitOf j) (.k 0 d.toNat :: (srcNeed 1 1 a ++ srcNeed 2 1 b)) with
        | some t => stop (.trap t) s
        | none =>
          let v := at_ {} (c.vec s (bitOf j) a .i32) j
          return c.writeK s false d (KReg.of (v.data.setWidth 64) (v.poison || (c.ksrc b).poison))

/-! ### Special registers (R215) -/

/-- The number of good lanes of a quadrant's map (R145). -/
def goodLanes (m : BitVec 16) : Nat := ((List.range 16).filter fun i => m.getLsbD i).length

/-- A special register as lane l of the issuing split reads it (R215). -/
def Ctx.special (c : Ctx) (s : State) (n l : Nat) : W64 :=
  let k := s.core c.core
  let w := s.warp c.core c.slot
  let g := s.group c.core c.room
  let map := at_ 0 k.maps (c.slot / 16)
  let t := w.trap
  match n with
  | 0x00 => BitVec.ofNat 64 l
  | 0x01 => BitVec.ofNat 64 w.num
  | 0x02 => BitVec.ofNat 64 g.groupid
  | 0x03 => BitVec.ofNat 64 (g.gang % 65536)
  | 0x04 => BitVec.ofNat 64 (g.role w.num * 256 + g.stage)
  | 0x05 => BitVec.ofNat 64 c.core
  | 0x06 => map.setWidth 64
  | 0x07 => BitVec.ofNat 64 ((32 + goodLanes map - 1) / goodLanes map)
  | 0x08 => (at_ (0 : W32) w.ix l).setWidth 64
  | 0x09 => BitVec.ofNat 64 (at_ 0 w.nest l)
  | 0x0A => k.clock
  | 0x0B => BitVec.ofNat 64 s.gtime
  | 0x0C => g.wtimer
  | 0x0D => w.wtcmp
  | 0x0E => w.wflags.setWidth 64
  | 0x0F => g.depcnt
  | 0x10 => BitVec.ofNat 64 g.hdr.cplv
  | 0x11 => BitVec.ofNat 64 g.relaunch
  | 0x12 => BitVec.ofNat 64 g.hdr.trailbase
  | 0x13 => BitVec.ofNat 64 g.hdr.trailtop
  | 0x14 => w.satchel
  | 0x20 => t.cause
  | 0x21 => t.pc
  | 0x22 => t.op
  | 0x23 => t.d
  | 0x24 => t.a
  | 0x25 => t.b
  | 0x26 => t.c
  | 0x27 => t.e
  | 0x28 => t.imm
  | _ => 0

/-- Whether a special register is read lane by lane (R215). -/
def perLane (n : Nat) : Bool := n = 0x00 || n = 0x08 || n = 0x09

/-- `rdsr` (R215, R216). -/
def execRdsr (x : Ctl) (d : Dst) (n : BitVec 8) (s : State) : Host.Outcome State Fault Refusal :=
  run (.rdsr x d n) s fun c s =>
    let extra : List Need := if n = 0x0E then [.wflags] else []
    if perLane n.toNat then do
      c.guard s c.x.mask (dstNeed 1 d)
      c.writeLanes s false d 1 ((lanesOf c.x.mask).map fun l => (l, [{ data := (c.special s n.toNat l).setWidth 32 }])) ([], [])
    else do
      c.guard s c.x.mask (.k 0 d.n.toNat :: extra)
      return c.writeK s false d.n { data := c.special s n.toNat 0 }

/-- sr.wflags as a write leaves it (R67, R230): reserved bits are zero, and a DRM of 000 or 111 is stored as 001. -/
def wflagsOf (x : W32) : W32 :=
  let y := x &&& 0x73F
  let drm := y.toNat / 256 % 8
  if drm = 0 || drm = 7 then (y &&& 0x3F) ||| 0x100 else y

/-- `wrsr` (R215, R216). -/
def execWrsr (x : Ctl) (n : BitVec 8) (a : Src) (s : State) : Host.Outcome State Fault Refusal :=
  run (.wrsr x n a) s fun c s =>
    if n = 0x08 then do
      c.guard s c.x.mask (srcNeed 1 1 a)
      let v := c.vec s c.x.mask a .i32
      if (lanesOf c.x.mask).any fun l => (at_ {} v l).poison then stop .kill s
      else return c.commit s false [] ((lanesOf c.x.mask).map fun l => .ix l (at_ {} v l).data)
    else do
      c.guard s c.x.mask (srcNeed 1 1 a ++ if n = 0x0E then [.wflags] else [])
      let v := c.ksrc a
      if v.poison then stop .kill s
      else if n = 0x0E then return s.modWarp c.core c.slot fun w => { w.supersede with wflags := wflagsOf (v.data.setWidth 32) }
      else return s.modWarp c.core c.slot fun w => { w with wtcmp := v.data }

end Sys2Proof.Machine
end

