-- ==== Sys2Proof/Machine/Memory.lean ====
section
/-! DEFINITION. Loads, stores, atomics, fences, described blocks and cache control (opcodes 0x3F and 0x80 to 0x9D, R214, R256 to
R268). -/

namespace Sys2Proof.Machine

/-! ### Addresses and data (R256, R201) -/

/-- The offset of a memory instruction: an I-format immediate or an operand (R256, R258, R260). -/
inductive Off where
  | imm (o : W32)
  | src (b : Src)
  deriving DecidableEq, Repr

/-- Whether the addresses of a space take 64 bits (R256). -/
def wideAddr (sp : Space) : Bool := sp = .glob || sp = .onchip

/-- The address register of an I-format access (R258). -/
def addrSrc (ua : Bool) (a : BitVec 8) : Src := if ua then .k a else .v a

/-- What an address operand and an offset touch. -/
def addrNeeds (sp : Space) (a : Src) (o : Off) : List Need :=
  srcNeed 1 (if wideAddr sp then 2 else 1) a ++
    match o with
    | .imm _ => []
    | .src b => srcNeed 2 1 b

/-- The offset of every lane (R256): a register operand is a signed 32-bit value, a uniform has 64 bits. -/
def Ctx.offsets (c : Ctx) (s : State) (o : Off) : List KReg :=
  match o with
  | .imm i => List.replicate 32 { data := i.signExtend 64 }
  | .src (.k n) => List.replicate 32 (c.kreg n.toNat)
  | .src b => (c.vec s c.act b .i32).map fun (w : LaneWord) => { data := w.data.signExtend 64, poison := w.poison }

/-- The effective address of each active lane (R256); none where an address or an offset is poisoned. -/
def Ctx.addresses (c : Ctx) (s : State) (sp : Space) (a : Src) (o : Off) : Option (List (Nat × Int)) :=
  let base : List KReg :=
    if wideAddr sp then c.wvec s c.act a
    else (c.vec s c.act a .i32).map fun (w : LaneWord) => { data := w.data.setWidth 64, poison := w.poison }
  let off := c.offsets s o
  let ls := lanesOf c.act
  if ls.any fun l => (at_ {} base l).poison || (at_ {} off l).poison then none
  else
    some (ls.map fun l =>
      let x := (at_ {} base l).data
      let y := (at_ {} off l).data
      (l, if wideAddr sp then ((x + y).toNat : Int) else (x.toNat : Int) + y.toInt))

/-- The bytes that a store of a size writes from lane words. -/
def storeBytes (z : Size) (ws : List LaneWord) : List Byte :=
  leBytes (Size.bytes z) (ws.foldr (fun (w : LaneWord) (acc : Nat) => w.data.toNat + 2 ^ 32 * acc) 0)

/-- Whether a window hold keeps a write that one of these places would read. -/
def State.keptPlaces (s : State) (ps : List Place) (n : Nat) : Bool :=
  ps.any fun p => match p with
    | .chip c off _ => s.keptAt c off n
    | .mem _ => false

/-- CPBASE of the warp's open region and the satchel size, as the header of a region lane gives them (R302); none outside a region. -/
def Ctx.protected (c : Ctx) (s : State) (sp : Space) : Act (Option (Nat × Nat)) :=
  if sp = .priv && c.w.regionOpen then
    match lowest (c.w.rmask &&& c.act) with
    | none => .ok none
    | some l => do
      let hs ← c.headers s [l]
      return hs.head?.map fun h => (0x20 + 32 * h.2.units, c.g.hdr.satchel)
  else .ok none

/-- The places of a store or an atomic of a space: in an open region the satchels are protected from CPBASE on, and below 0x20
(R303, R320). Where the header cannot be read, what is refused without it comes first (R257). -/
def Ctx.storePlaces (c : Ctx) (s : State) (sp : Space) (k : AccKind) (n : Nat) (accs : List (Nat × Int)) : Act (List (Nat × Place)) :=
  let srch := fun (r : Act (List (Nat × Place))) => match r with
    | .error (.trap t, s') => if t.cause = 0x30 then c.srch s t.detail t.lanes else .error (.trap t, s')
    | r => r
  match c.protected s sp with
  | .ok prot => srch (c.places s sp k .any n n prot accs)
  | .error e =>
    match srch (c.places s sp k .any n n (some (c.g.hdr.satchel, c.g.hdr.satchel)) accs) with
    | .error (.trap t, s') => if t.cause < 0x10 || t.cause = 0x30 then .error (.trap t, s') else .error e
    | _ => .error e

/-! ### Loads and stores (R258 to R261) -/

/-- The address that the first lane of some accesses names. -/
def firstAddr (accs : List (Nat × Int)) : W64 := BitVec.ofInt 64 ((accs.head?.map (·.2)).getD 0)

/-- What a plain load keeps while it waits for the host or a peer (R337). DESIGN CHOICE: one that acquires, or whose writes an open search region
trails, is performed afresh after a restore (log entry 121). -/
def Ctx.loadPlan (c : Ctx) (z : Size) (d : Dst) (acq : Option Scope) (ps : List (Nat × Place)) : Option LoadPlan :=
  if acq.isSome || c.w.regionOpen then none
  else some { size := z, len := c.words.bytes, zero := c.zeroed d (Size.regs z), lanes := ps.filterMap fun p => match p.2 with
    | .mem bs => some (p.1, (c.number d.n.toNat d.ix p.1).toNat, bs)
    | .chip _ _ _ => none }

/-- A load (R259, R261). -/
def Ctx.load (c : Ctx) (s : State) (sp : Space) (z : Size) (d : Dst) (a : Src) (o : Off) (acq : Option Scope) : Act State := do
  c.memGuard s (dstNeed (Size.regs z) d ++ addrNeeds sp a o)
  if c.act = 0 then return s
  else
    match c.addresses s sp a o with
    | none => stop .kill s
    | some accs => do
      let ps ← c.places s sp .read .any (Size.bytes z) (Size.bytes z) none accs
      let at' := ps.map (·.2)
      if s.keptPlaces at' (Size.bytes z) then stop .again s
      else do
        let s ← (c.observe s acq at' (Size.bytes z) (some (firstAddr accs))).planned (c.loadPlan z d acq ps)
        let s' ← c.writeLanes s true d (Size.regs z) (ps.map fun p =>
          let r := s.readPlace c.die c.owner p.2 (Size.bytes z)
          (p.1, loadWords z r.1 r.2)) ([], [])
        return { s' with misses := s'.misses + s.readMisses at' }

/-- A store (R49, R91, R259, R261): one write operation of all its lanes. -/
def Ctx.store (c : Ctx) (s : State) (sp : Space) (z : Size) (d : Dst) (a : Src) (o : Off) (rel : Option Scope) : Act State := do
  c.memGuard s (dstNeed (Size.regs z) d ++ addrNeeds sp a o)
  if c.act = 0 then return s
  else
    match c.addresses s sp a o with
    | none => stop .kill s
    | some accs => do
      let ps ← c.storePlaces s sp .write (Size.bytes z) accs
      let data := fun (l : Nat) => (List.range (Size.regs z)).map fun i => c.vlane s ((c.number d.n.toNat d.ix l).toNat + i) l
      let s ← match rel with
        | some sc => c.releaseNow s sc
        | none => .ok s
      return s.writePlaces c.die c.owner ((rel.map wideScope).getD false)
        (ps.map fun p => (p.2, storeBytes z (data p.1), (data p.1).any (·.poison)))

/-- A plain load (R258, R259). -/
def plainLoad (i : Instr) (sp : Space) (d : BitVec 8) (ua : Bool) (z : Size) (a : BitVec 8) (off : W32) (s : State) :
    Host.Outcome State Fault Refusal :=
  run i s fun c s => c.load s sp z ⟨false, d⟩ (addrSrc ua a) (.imm off) none

/-- A plain store (R258, R259). -/
def plainStoreOp (i : Instr) (sp : Space) (d : BitVec 8) (ua : Bool) (z : Size) (a : BitVec 8) (off : W32) (s : State) :
    Host.Outcome State Fault Refusal :=
  run i s fun c s => c.store s sp z ⟨false, d⟩ (addrSrc ua a) (.imm off) none

/-- `ld` (R258, R259): global. -/
def execLd (x : Ctl) (d : BitVec 8) (ua : Bool) (sz : Size) (a : BitVec 8) (off : W32) (s : State) : Host.Outcome State Fault Refusal :=
  plainLoad (.ld x d ua sz a off) .glob d ua sz a off s
/-- `st` (R258, R259): global. -/
def execSt (x : Ctl) (d : BitVec 8) (ua : Bool) (sz : Size) (a : BitVec 8) (off : W32) (s : State) : Host.Outcome State Fault Refusal :=
  plainStoreOp (.st x d ua sz a off) .glob d ua sz a off s
/-- `ldl` (R258, R259): lane-private. -/
def execLdl (x : Ctl) (d : BitVec 8) (ua : Bool) (sz : Size) (a : BitVec 8) (off : W32) (s : State) : Host.Outcome State Fault Refusal :=
  plainLoad (.ldl x d ua sz a off) .priv d ua sz a off s
/-- `stl` (R258, R259): lane-private. -/
def execStl (x : Ctl) (d : BitVec 8) (ua : Bool) (sz : Size) (a : BitVec 8) (off : W32) (s : State) : Host.Outcome State Fault Refusal :=
  plainStoreOp (.stl x d ua sz a off) .priv d ua sz a off s
/-- `lds` (R258, R259): scratchpad. -/
def execLds (x : Ctl) (d : BitVec 8) (ua : Bool) (sz : Size) (a : BitVec 8) (off : W32) (s : State) : Host.Outcome State Fault Refusal :=
  plainLoad (.lds x d ua sz a off) .scratch d ua sz a off s
/-- `sts` (R258, R259): scratchpad. -/
def execSts (x : Ctl) (d : BitVec 8) (ua : Bool) (sz : Size) (a : BitVec 8) (off : W32) (s : State) : Host.Outcome State Fault Refusal :=
  plainStoreOp (.sts x d ua sz a off) .scratch d ua sz a off s
/-- `ldw` (R258, R259): gang window. -/
def execLdw (x : Ctl) (d : BitVec 8) (ua : Bool) (sz : Size) (a : BitVec 8) (off : W32) (s : State) : Host.Outcome State Fault Refusal :=
  plainLoad (.ldw x d ua sz a off) .window d ua sz a off s
/-- `stw` (R258, R259): gang window. -/
def execStw (x : Ctl) (d : BitVec 8) (ua : Bool) (sz : Size) (a : BitVec 8) (off : W32) (s : State) : Host.Outcome State Fault Refusal :=
  plainStoreOp (.stw x d ua sz a off) .window d ua sz a off s
/-- `ldt` (R258, R259): accumulator. -/
def execLdt (x : Ctl) (d : BitVec 8) (ua : Bool) (sz : Size) (a : BitVec 8) (off : W32) (s : State) : Host.Outcome State Fault Refusal :=
  plainLoad (.ldt x d ua sz a off) .acc d ua sz a off s
/-- `stt` (R258, R259): accumulator. -/
def execStt (x : Ctl) (d : BitVec 8) (ua : Bool) (sz : Size) (a : BitVec 8) (off : W32) (s : State) : Host.Outcome State Fault Refusal :=
  plainStoreOp (.stt x d ua sz a off) .acc d ua sz a off s
/-- `ldx` (R258, R259): on-chip map. -/
def execLdx (x : Ctl) (d : BitVec 8) (ua : Bool) (sz : Size) (a : BitVec 8) (off : W32) (s : State) : Host.Outcome State Fault Refusal :=
  plainLoad (.ldx x d ua sz a off) .onchip d ua sz a off s
/-- `stx` (R258, R259): on-chip map. -/
def execStx (x : Ctl) (d : BitVec 8) (ua : Bool) (sz : Size) (a : BitVec 8) (off : W32) (s : State) : Host.Outcome State Fault Refusal :=
  plainStoreOp (.stx x d ua sz a off) .onchip d ua sz a off s

/-- The ordered load (R260). -/
def execOrderedLoad (x : Ctl) (g : Access) (d : Dst) (a b : Src) (s : State) : Host.Outcome State Fault Refusal :=
  run (.orderedLoad x g d a b) s fun c s => c.load s g.space g.size d a (.src b) (if g.ord = .acq then some g.scope else none)

/-- The ordered store (R260). -/
def execOrderedStore (x : Ctl) (g : Access) (d : Dst) (a b : Src) (s : State) : Host.Outcome State Fault Refusal :=
  run (.orderedStore x g d a b) s fun c s => c.store s g.space g.size d a (.src b) (if g.ord = .rel then some g.scope else none)

/-- `kld` (R214). -/
def execKld (x : Ctl) (sp : Bool) (d : BitVec 8) (a b : Src) (s : State) : Host.Outcome State Fault Refusal :=
  run (.kld x sp d a b) s fun c s => do
    c.guard s c.x.mask (.k 0 d.toNat :: (srcNeed 1 1 a ++ srcNeed 2 1 b))
    let ka := c.ksrc a
    let kb := c.ksrc b
    let l := (lowest c.x.mask).getD 0
    if ka.poison || kb.poison then stop .kill s
    else do
      let ea : Int := if sp then (ka.data.toNat % 2 ^ 32 : Int) + kb.data.toInt else ((ka.data + kb.data).toNat : Int)
      let ps ← c.places s (if sp then .scratch else .glob) .read .any 8 8 none [(l, ea)]
      let at' := ps.map (·.2)
      if s.keptPlaces at' 8 then stop .again s
      else do
        let s ← c.observe s none at' 8 (some (BitVec.ofInt 64 ea))
        let r := c.readRange s at' 8
        return c.writeK s true d { data := BitVec.ofNat 64 (ofBytes r.1), poison := r.2 }

/-! ### Atomics (R265, R266) -/

/-- An atomic in progress: the state, and each lane's old value with its poison. -/
structure Rmw where
  s : State
  res : List (Nat × Nat × Bool)

/-- The sectors at whose homes an atomic reads and writes, each with how the access reaches it (R57). -/
def homesOf (ps : List Place) : List (Nat × Attr) :=
  (ps.filterMap fun p => match p with
    | .mem (b :: _) => some (b.1 / 64, b.2)
    | .mem [] | .chip _ _ _ => none).eraseDups

/-- The write of an atomic of die e to a line homed elsewhere: read and written at the home in one act, its acknowledgement on its way back
(R90, R106 to R109). -/
def State.rmwRemote (s : State) (e : Nat) (at' : Attr) (rel : Bool) (pa : Nat) (bs : List Byte) (poison : Bool) : State :=
  let k := pa / 64
  let bytes := bs.zipIdx.map fun p => (pa % 64 + p.2, p.1)
  let v := (s.die e).vc
  let r : Remote := { src := e, dst := homeDie pa, stamp := v, sector := k, bytes := bytes, poison := poison, key := at'.key,
                      desc := at'.desc, comp := at'.comp, cp := at'.cp, inval := false, id := s.netSeq, applied := true,
                      copies := s.copyDies k, rel := rel, lkey := at'.lkey, part := at'.part }
  let s := { s with net := s.net ++ [r], netSeq := s.netSeq + 1 }.modDie e fun x => { x with first := some (x.first.getD s.gtime) }
  (s.homeWrite at' k bytes poison { die := e, v := v, rel := rel }).sendInvals k e v r.id

/-- The write of an atomic to a place: one that read a stamped release, or a write that goes on with it, goes on with it too (R96, R405). -/
def Ctx.rmwWrite (c : Ctx) (s : State) (rel : Bool) (p : Place) (bs : List Byte) (poison : Bool) : State :=
  let rel := rel || (s.stampsOf c.die [p] bs.length).any (·.rel)
  match p with
  | .mem ((pa, at') :: _) =>
    if homeDie pa = c.die then s.writePlaces c.die c.owner rel [(p, bs, poison)] else s.rmwRemote c.die at' rel pa bs poison
  | _ => s.writePlaces c.die c.owner rel [(p, bs, poison)]

/-- Operand E, which the word in front carries (R183, R402). -/
def Ctx.opE (c : Ctx) : Src := Src.of c.pfx.em c.pfx.e

/-- Whether an atomic may be performed at the homes of its places now: the issuing die has no write to them on its way, the homes may apply
a write with its stamp (R109) and need not wait for tokens (R65), and no window hold keeps a write there (R132). -/
def Ctx.rmwReady (c : Ctx) (s : State) (ps : List Place) : Bool :=
  let v := (s.die c.die).vc
  (homesOf ps).all (fun h => (s.ownWrites c.die h.1).isEmpty && s.homeFree h.2 true h.1 &&
    (homeDie (h.1 * 64) = c.die || marksOk (s.die (homeDie (h.1 * 64))) (homeDie (h.1 * 64)) c.die v)) &&
  ps.all fun p => match p with
    | .chip k off far => !far || (s.holds k off).isNone
    | .mem _ => true

/-- The close requests of the homes that an atomic waits for (R109). -/
def Ctx.rmwAsk (c : Ctx) (s : State) (ps : List Place) : State :=
  (homesOf ps).foldl (fun s h => if homeDie (h.1 * 64) = c.die then s else s.askClose (homeDie (h.1 * 64)) c.die (s.die c.die).vc) s

/-- The release side of an atomic, made once: its write may have to wait at its home, and the epoch is closed by then (R110). -/
def Ctx.rmwRelease (c : Ctx) (s : State) (sc : Scope) : Act State :=
  if at_ false c.w.closed c.sp then .ok s
  else do
    let s ← c.releaseNow s sc
    return if wideScope sc then s.modWarp c.core c.slot fun w => { w with closed := w.closed.set c.sp true } else s

/-- An atomic (R265, R266): `f` gives the new value and flags from the old value, the operand and the data of D, on which it depends where
`useD` holds. -/
def Ctx.atomic (c : Ctx) (s : State) (g : Access) (d : Dst) (a b : Src) (fm : OpFmt) (flags useD : Bool)
    (f : Nat → Nat → Nat → Nat × FFlags) : Act State := do
  let n := if g.wide then 2 else 1
  c.memGuard s (dstNeed n d ++ addrNeeds g.space a (.src b) ++ srcNeed 4 n c.opE) [(c.opE, fm)]
  if c.act = 0 then return s
  else
    match c.addresses s g.space a (.src b) with
    | none => stop .kill s
    | some accs => do
      let lp ← c.storePlaces s g.space .rmw (4 * n) accs
      let ps := lp.map (·.2)
      let s := (homesOf ps).foldl (fun s h => if homeDie (h.1 * 64) = c.die then s else s.dropLine c.die h.1) s
      if s.keptPlaces ps (4 * n) then stop .again s
      else do
        let s ← c.observe s (if g.ord = .acq || g.ord = .ar then some g.scope else none) ps (4 * n) none
        let isRel := g.ord = .rel || g.ord = .ar
        let s ← if isRel then c.rmwRelease s g.scope else .ok s
        if !c.rmwReady s ps then stop .again (c.rmwAsk s ps)
        else
          let e : List KReg :=
            if g.wide then c.wvec s c.act c.opE
            else (c.vec s c.act c.opE fm).map fun (w : LaneWord) => { data := w.data.setWidth 64, poison := w.poison }
          let dv := fun (l : Nat) => c.wvec s (bitOf l) (if d.ix then .ix d.n else .v d.n)
          let old := fun (l : Nat) =>
            if g.wide then at_ {} (dv l) l
            else
              let w := c.vlane s (c.number d.n.toNat d.ix l).toNat l
              { data := w.data.setWidth 64, poison := w.poison }
          let r := lp.foldl (fun (m : Rmw × FFlags) p =>
            let o := m.1.s.readPlace c.die c.owner p.2 (4 * n)
            let x := at_ {} e p.1
            let y : KReg := if useD then old p.1 else {}
            let bad := o.2 || x.poison || y.poison
            let z := f (ofBytes o.1) x.data.toNat y.data.toNat
            let bs := if bad then List.replicate (4 * n) 0 else leBytes (4 * n) z.1
            ({ s := c.rmwWrite m.1.s (isRel && wideScope g.scope) p.2 bs bad
               res := m.1.res ++ [(p.1, ofBytes o.1, bad)] }, if bad then m.2 else m.2 ||| z.2))
            (({ s := s, res := [] } : Rmw), (0 : FFlags))
          let words := r.1.res.map fun x => (x.1, (List.range n).map fun i => LaneWord.of (BitVec.ofNat 32 (x.2.1 / 2 ^ (32 * i))) x.2.2)
          -- the trail is checked before any lane's location changes (R305, R340)
          match c.writeLanes s true d n words ([], []) with
          | .error e => .error e
          | .ok _ => c.writeLanes r.1.s true d n words (if flags then flagWrites r.2 else ([], []))

/-- The width of an atomic in bits. -/
def Access.width (g : Access) : Nat := if g.wide then 64 else 32

/-- An integer atomic (R265). -/
def atomI (i : Instr) (s : State) (g : Access) (d : Dst) (a b : Src) (f : Nat → Nat → Nat → Nat) : Host.Outcome State Fault Refusal :=
  run i s fun c s => c.atomic s g d a b .i32 false false fun o e _ => (f (Access.width g) o e, 0)

/-- `atom.add` (R265). -/
def execAtomAdd (x : Ctl) (g : Access) (d : Dst) (a b : Src) (s : State) : Host.Outcome State Fault Refusal :=
  atomI (.atomAdd x g d a b) s g d a b fun w o e => (o + e) % 2 ^ w
/-- `atom.sub` (R265). -/
def execAtomSub (x : Ctl) (g : Access) (d : Dst) (a b : Src) (s : State) : Host.Outcome State Fault Refusal :=
  atomI (.atomSub x g d a b) s g d a b fun w o e => (o + 2 ^ w - e) % 2 ^ w
/-- `atom.min` (R265). -/
def execAtomMin (x : Ctl) (g : Access) (d : Dst) (a b : Src) (s : State) : Host.Outcome State Fault Refusal :=
  atomI (.atomMin x g d a b) s g d a b fun w o e => if signed w e < signed w o then e else o
/-- `atom.max` (R265). -/
def execAtomMax (x : Ctl) (g : Access) (d : Dst) (a b : Src) (s : State) : Host.Outcome State Fault Refusal :=
  atomI (.atomMax x g d a b) s g d a b fun w o e => if signed w o < signed w e then e else o
/-- `atom.umin` (R265). -/
def execAtomUmin (x : Ctl) (g : Access) (d : Dst) (a b : Src) (s : State) : Host.Outcome State Fault Refusal :=
  atomI (.atomUmin x g d a b) s g d a b fun _ o e => min o e
/-- `atom.umax` (R265). -/
def execAtomUmax (x : Ctl) (g : Access) (d : Dst) (a b : Src) (s : State) : Host.Outcome State Fault Refusal :=
  atomI (.atomUmax x g d a b) s g d a b fun _ o e => max o e
/-- `atom.and` (R265). -/
def execAtomAnd (x : Ctl) (g : Access) (d : Dst) (a b : Src) (s : State) : Host.Outcome State Fault Refusal :=
  atomI (.atomAnd x g d a b) s g d a b fun _ o e => o &&& e
/-- `atom.or` (R265). -/
def execAtomOr (x : Ctl) (g : Access) (d : Dst) (a b : Src) (s : State) : Host.Outcome State Fault Refusal :=
  atomI (.atomOr x g d a b) s g d a b fun _ o e => o ||| e
/-- `atom.xor` (R265). -/
def execAtomXor (x : Ctl) (g : Access) (d : Dst) (a b : Src) (s : State) : Host.Outcome State Fault Refusal :=
  atomI (.atomXor x g d a b) s g d a b fun _ o e => o ^^^ e
/-- `atom.exch` (R265). -/
def execAtomExch (x : Ctl) (g : Access) (d : Dst) (a b : Src) (s : State) : Host.Outcome State Fault Refusal :=
  atomI (.atomExch x g d a b) s g d a b fun _ _ e => e
/-- `atom.cas` (R265): E is the compare value, D the new one. -/
def execAtomCas (x : Ctl) (g : Access) (d : Dst) (a b : Src) (s : State) : Host.Outcome State Fault Refusal :=
  run (.atomCas x g d a b) s fun c s => c.atomic s g d a b .i32 false true fun o e y => (if o = e then y else o, 0)
/-- `atom.fadd` (R233, R265). -/
def execAtomFadd (x : Ctl) (g : Access) (d : Dst) (a b : Src) (s : State) : Host.Outcome State Fault Refusal :=
  run (.atomFadd x g d a b) s fun c s => c.atomic s g d a b (.flt .f32) true false fun o e _ => addF .f32 c.cplv c.rm false o e

/-! ### Fences (R95, R110, R267) -/

/-- `fence` (R95, R110, R267). -/
def execFence (x : Ctl) (sc : Scope) (s : State) : Host.Outcome State Fault Refusal :=
  run (.fence x sc) s fun c s => c.fenceNow s sc

/-! ### Described loads and requantising stores (R262 to R264) -/

/-- The format of `ldd`'s result. -/
def LddFmt.fmt : LddFmt → FFmt
  | .f32 => .f32
  | .f16 => .f16
  | .bf16 => .bf16

/-- The element count that the header form reports (R77, R263). -/
def countOf (fmt : Nat) : Nat := ((Elem.of fmt).map Elem.count).getD 0

/-- The header form of `ldd` on one block (R263). -/
def lddHeader (blk : List Byte) (bad : Bool) : W32 :=
  if bad || blockFmt blk = 0xFF then 0x0000FFFF
  else BitVec.ofNat 32 (blockFmt blk + (at_ (0 : Byte) blk 1).toNat * 256 + countOf (blockFmt blk) * 65536)

/-- One element of one block as `ldd` delivers it (R263, R294), with its flags; none is poison. -/
def lddElement (books : List Codebook) (holder : Nat × Nat) (dst : FFmt) (rm : RM) (sat : Bool) (blk : List Byte) (bad : Bool)
    (i : LaneWord) : Option (Nat × FFlags) :=
  if bad || i.poison then none
  else if blockFmt blk = 0 then some (0, 0)
  else
    match Elem.of (blockFmt blk) with
    | none => none
    | some e =>
      if Elem.count e ≤ i.data.toNat then some (0, 0)
      else
        let bookBad := match e with
          | .cb j => (at_ ({} : Codebook) books j).bad holder
          | .flt _ | .int8 => false
        if bookBad then none
        else
          let v := blockElement e books holder blk i.data.toNat
          some (if v.isNaN then (defaultNaN dst, 0) else roundX dst rm sat v)

/-- `ldd` (R262, R263). -/
def execLdd (x : Ctl) (sp hdr : Bool) (f : LddFmt) (d : Dst) (a b : Src) (s : State) : Host.Outcome State Fault Refusal :=
  run (.ldd x sp hdr f d a b) s fun c s => do
    let space : Space := if sp then .scratch else .glob
    c.memGuard s (dstNeed 1 d ++ addrNeeds space a (.imm 0) ++ if hdr then [] else srcNeed 2 1 b)
    if c.act = 0 then return s
    else
      match c.addresses s space a (.imm 0) with
      | none => stop .kill s
      | some accs => do
        let ps ← c.places s space .read .described 64 64 none accs
        let at' := ps.map (·.2)
        if s.keptPlaces at' 64 then stop .again s
        else do
          let s ← c.observe s none at' 64 (some (firstAddr accs))
          let idx := c.vec s c.act b .i32
          let books := (s.core c.core).books
          let res := ps.map fun p =>
            let r := s.readPlace c.die c.owner p.2 64
            if hdr then (p.1, LaneWord.of (lddHeader r.1 r.2) false, (0 : FFlags))
            else
              match lddElement books (c.g.launch, c.g.gang) (LddFmt.fmt f) c.rm c.sat r.1 r.2 (at_ {} idx p.1) with
              | none => (p.1, LaneWord.of 0 true, 0)
              | some y => (p.1, LaneWord.of (BitVec.ofNat 32 y.1) false, y.2)
          let fl := res.foldl (fun (acc : FFlags) r => acc ||| r.2.2) 0
          c.writeLanes s true d 1 (res.map fun r => (r.1, [r.2.1])) (flagWrites fl)

/-- `std` (R83, R264). DESIGN CHOICE: a CB4 target whose codebook is poisoned is quantised with the bytes that it stores (log entry 100). -/
def execStd (x : Ctl) (sp : Bool) (f : BitVec 5) (d : BitVec 8) (a b : Src) (s : State) : Host.Outcome State Fault Refusal :=
  run (.std x sp f d a b) s fun c s => do
    let e := (Elem.of f.toNat).getD .int8
    let n := Elem.count e
    let k := (n + 31) / 32
    c.memGuard s (((List.range k).map fun i => Need.v 0 (d.toNat + i) false 1) ++ srcNeed 1 1 a ++ srcNeed 2 1 b)
    match lowest c.act with
    | none => return s
    | some l =>
      let ka := c.ksrc a
      let kb := c.ksrc b
      if ka.poison || kb.poison then stop .kill s
      else do
        let ea : Int := if sp then (ka.data.toNat % 2 ^ 32 : Int) + kb.data.toInt else ((ka.data + kb.data).toNat : Int)
        let ps ← c.places s (if sp then .scratch else .glob) .write .described 64 64 none [(l, ea)]
        let v : List (Option XVal) := (List.range n).map fun i =>
          if lane c.act (i % 32) then
            let w := c.vlane s (d.toNat + i / 32) (i % 32)
            if w.poison then none else some (decodeF .f32 w.data.toNat)
          else some XVal.zero
        let es := match e with
          | .cb j => (List.range 16).map fun q => (at_ ({} : Codebook) (s.core c.core).books j).entry (c.g.launch, c.g.gang) q
          | .flt _ | .int8 => []
        let blk := requantiseBlock e es c.rm v
        return s.writePlaces c.die c.owner false (ps.map fun p => (p.2, blk, false))

/-! ### Cache control (R60, R268) -/

/-- A cache-control operation on the lines of a range (R268): the lines are checked, each waits for the split's own writes to it, and `f`
acts on each of their sectors, or leaves one for which it has to wait to a later attempt (R65). -/
def cctl (i : Instr) (s : State) (a b : Src) (k : AccKind) (f : Ctx → State → Nat × Attr → Bool × State) : Host.Outcome State Fault Refusal :=
  run i s fun c s => do
    c.memGuard s (srcNeed 1 1 a ++ srcNeed 2 1 b)
    match lowest c.act with
    | none => return s
    | some l =>
      let ka := c.ksrc a
      let kb := c.ksrc b
      if ka.poison || kb.poison then stop .kill s
      else do
        let lines := (List.range kb.data.toNat).map fun j => (l, (((ka.data.toNat / 256 + j) * 256 % 2 ^ 64 : Nat) : Int))
        let ps ← c.places s .glob k .any 1 1 none lines
        let secs := ps.flatMap fun p => match p.2 with
          | .mem (x :: _) => (List.range 4).map fun q => (x.1 / 64 + q, x.2)
          | _ => []
        if secs.any fun q => !(s.ownWrites c.die q.1).isEmpty then stop .again s
        else
          let r := secs.foldl (fun (acc : Bool × State) q =>
            let y := f c acc.2 q
            (acc.1 && y.1, y.2)) (true, s)
          if r.1 then return r.2 else stop .again r.2

/-- Prefetch of a sector: its home fills what it lacks from the local memory (R60, R65). -/
def Ctx.prefetchSec (c : Ctx) (s : State) (q : Nat × Attr) : Bool × State :=
  let h := homeDie (q.1 * 64)
  if distant q.1 || !s.mustFetch h q.2 q.1 allBytes then (true, s)
  else
    match s.obtain (.split c.ref) q.2 c.g.owner q.1 with
    | (true, s) => (true, s.fillSec h q.2 q.1 allBytes)
    | r => r

/-- An operation that writes a sector back, once its tenant holds a token for that (R60, R65). -/
def backSec (f : State → Nat → State) (s : State) (q : Nat × Attr) : Bool × State :=
  if ((s.sec (homeDie (q.1 * 64)) q.1).map s.backFree).getD true then (true, f s q.1) else (false, s)

/-- `cctl.prefetch` (R60, R268). -/
def execCctlPrefetch (x : Ctl) (a b : Src) (s : State) : Host.Outcome State Fault Refusal :=
  cctl (.cctlPrefetch x a b) s a b .read Ctx.prefetchSec
/-- `cctl.clean` (R60, R268). -/
def execCctlClean (x : Ctl) (a b : Src) (s : State) : Host.Outcome State Fault Refusal :=
  cctl (.cctlClean x a b) s a b .read fun _ => backSec State.cleanSec
/-- `cctl.evict` (R60, R268). -/
def execCctlEvict (x : Ctl) (a b : Src) (s : State) : Host.Outcome State Fault Refusal :=
  cctl (.cctlEvict x a b) s a b .read fun _ => backSec State.evictSec
/-- `cctl.discard` (R60, R268). -/
def execCctlDiscard (x : Ctl) (a b : Src) (s : State) : Host.Outcome State Fault Refusal :=
  cctl (.cctlDiscard x a b) s a b .write fun _ s q => (true, s.discardSec q.1)

end Sys2Proof.Machine
end

