-- ==== Sys2Proof/Machine/Sync.lean ====
section
/-! DEFINITION. Barrier objects, sync words, group barriers, counters, tasks, fork and join (opcodes 0xA0 to 0xAA, R124 to R129, R269 to
R278). -/

namespace Sys2Proof.Machine

/-! ### Objects (R124 to R128) -/

/-- A barrier object (R127). -/
structure Barrier where
  gen : Nat
  expect : Nat
  pend : Nat
  res : Nat
  inb : Int
  outb : Int
  deriving DecidableEq, Repr

/-- A barrier object from its 16 bytes. -/
def Barrier.of (bs : List Byte) : Barrier :=
  let x := ofBytes bs
  { gen := field x 3 0, expect := field x 15 4, pend := field x 27 16, res := field x 63 28, inb := signed 32 (field x 95 64),
    outb := signed 32 (field x 127 96) }

/-- The 16 bytes of a barrier object. -/
def Barrier.bytes (b : Barrier) : List Byte :=
  leBytes 16 (b.gen + b.expect * 2 ^ 4 + b.pend * 2 ^ 16 + b.res * 2 ^ 28 + (BitVec.ofInt 32 b.inb).toNat * 2 ^ 64
    + (BitVec.ofInt 32 b.outb).toNat * 2 ^ 96)

/-- Overflows of R128. -/
def overflows (x : Int) : Bool := x < -2 ^ 31 || 2 ^ 31 ≤ x

/-- Whether an object is no barrier (R128). -/
def Barrier.bad (b : Barrier) : Bool := b.expect = 0 || b.res ≠ 0

/-- Phase of R128. -/
def Barrier.phase (b : Barrier) : Barrier :=
  if b.pend = 0 && b.inb = 0 && b.outb = 0 then { b with gen := (b.gen + 1) % 16, pend := b.expect } else b

/-- How an arrival ends (R128): a fault, a wait for the generation to change, or the object after it. -/
inductive Arrival where
  | barf
  | wait
  | ok (b : Barrier)
  deriving DecidableEq, Repr

/-- Arrive of R128. -/
def Barrier.arrive (b : Barrier) (tin tout : Int) : Arrival :=
  if b.bad then .barf
  else if b.pend = 0 then .wait
  else if overflows (b.inb + tin) || overflows (b.outb + tout) then .barf
  else .ok (Barrier.phase { b with pend := b.pend - 1, inb := b.inb + tin, outb := b.outb + tout })

/-- CountDown of R128; none ends the job with BARF. -/
def Barrier.countDown (b : Barrier) (outbound : Bool) (n : Nat) : Option Barrier :=
  let x := (if outbound then b.outb else b.inb) - n
  if b.bad || overflows x then none
  else some (Barrier.phase (if outbound then { b with outb := x } else { b with inb := x }))

/-- SyncRaise of R125 on a sync word. -/
def syncRaise (w n : Nat) : Nat :=
  let gen := field w 63 56
  let count := field w 55 28
  let target := field w 27 0
  if target = 0 then gen * 2 ^ 56 + min (count + n) (2 ^ 28 - 1) * 2 ^ 28
  else
    let c := count + n
    (gen + c / target) % 256 * 2 ^ 56 + c % target * 2 ^ 28 + target

/-! ### Barrier instructions (R269 to R271) -/

/-- An operand of an instruction that acts once for its split, read from lane l (R269). -/
def Ctx.one (c : Ctx) (s : State) (l : Nat) (x : Src) : LaneWord := at_ {} (c.vec s (bitOf l) x .i32) l

/-- The place of an object, checked for lane l; a place whose port keeps a write, or holds writes back, is tried again (R132). -/
def Ctx.object (c : Ctx) (s : State) (win : Bool) (k : AccKind) (l addr n : Nat) : Act Place := do
  let ps ← c.places s (if win then .window else .scratch) k .any n n none [(l, (addr : Int))]
  match ps with
  | [(_, .chip core off far)] =>
    if s.keptAt core off n || (k.writes && far && (s.holds core off).isSome) then stop .again s else return .chip core off far
  | _ => stop .again s

/-- The bytes of an object as one number; poison is uncorrectable consumption (R128, R269). -/
def Ctx.readObject (c : Ctx) (s : State) (p : Place) (n : Nat) : Act (List Byte) :=
  let r := s.readPlace c.die c.owner p n
  if r.2 then stop .kill s else .ok r.1

/-- Whether a read of an object's GEN returns what a wait asks for (R270, R271): equal to a value, or different from it. -/
def genReads (sync differ : Bool) (bs : List Byte) (v : Nat) : Bool :=
  let g := if sync then (at_ (0 : Byte) bs 7).toNat else (at_ (0 : Byte) bs 0).toNat % 16
  if differ then g ≠ v else g = v

/-- A wait on an object's GEN: the read that ends it is an acquire; otherwise the split waits with the record given (R270, R271). -/
def Ctx.genWait (c : Ctx) (s : State) (x : BarCtl) (l addr v : Nat) (sync differ : Bool) (b : Block) : Act State := do
  let n := if sync then 8 else 16
  let p ← c.object s x.win .read l addr n
  let bs ← c.readObject s p n
  if !genReads sync differ bs v then stop (.wait b) s
  else
    match c.acquireNow s x.scope (s.stampsOf c.die [p] n) with
    | .ok s => return s
    | .error (_, s) => stop (.wait b) s

/-- The blocking record of a wait on a barrier object; `arrived` for `barrw` (R356). -/
def barBlock (addr v : Nat) (arrived : Bool) : Block :=
  { kind := 1, addr := BitVec.ofNat 64 addr, value := BitVec.ofNat 64 v, aux := if arrived then 1 else 0 }

/-- An arrival at a scope (R128, R129): a release of the split's earlier accesses, and the object's update; then, for `barrw`, the wait for
the generation to change. -/
def Ctx.arrive (c : Ctx) (s : State) (x : BarCtl) (l addr : Nat) (tin tout : W32) (wait : Bool) : Act State := do
  let p ← c.object s x.win .rmw l addr 16
  let bs ← c.readObject s p 16
  match (Barrier.of bs).arrive tin.toInt tout.toInt with
  | .barf => stop (.trap { cause := 0x21, lanes := bitOf l, d := BitVec.ofNat 64 addr }) s
  | .wait => stop (.wait { kind := 11, addr := BitVec.ofNat 64 addr, value := tin.setWidth 64, aux := tout.setWidth 64 }) s
  | .ok b => do
    let s ← c.releaseNow s x.scope
    let s := if wideScope x.scope then s else s.release c.die .dev
    let s := s.writePlaces c.die c.owner true [(p, b.bytes, false)]
    if wait then c.genWait s x l addr (Barrier.of bs).gen false true (barBlock addr (Barrier.of bs).gen true) else return s

/-- An arriving instruction (R269, R270). -/
def arriveOp (i : Instr) (s : State) (x : BarCtl) (a b : Src) (wait : Bool) : Host.Outcome State Fault Refusal :=
  run i s fun c s =>
    match lowest c.act with
    | none => .ok s
    | some l => do
      let e := c.opE
      c.guard s (bitOf l) (srcNeed 1 1 a ++ srcNeed 2 1 b ++ if x.te then srcNeed 4 1 e else []) (if x.te then [(e, .i32)] else [])
      let addr := c.one s l a
      let tin := c.one s l b
      let tout : LaneWord := if x.te then c.one s l e else {}
      if addr.poison || tin.poison || tout.poison then stop .kill s
      else c.arrive s x l addr.data.toNat tin.data tout.data wait

/-- `barr` (R270). -/
def execBarr (x : Ctl) (c : BarCtl) (a b : Src) (s : State) : Host.Outcome State Fault Refusal := arriveOp (.barr x c a b) s c a b false
/-- `barrw` (R270). -/
def execBarrw (x : Ctl) (c : BarCtl) (a b : Src) (s : State) : Host.Outcome State Fault Refusal := arriveOp (.barrw x c a b) s c a b true

/-- A waiting instruction on an object (R269 to R271). -/
def waitOp (i : Instr) (s : State) (x : BarCtl) (a b : Src) (sync : Bool) : Host.Outcome State Fault Refusal :=
  run i s fun c s =>
    match lowest c.act with
    | none => .ok s
    | some l => do
      c.guard s (bitOf l) (srcNeed 1 1 a ++ srcNeed 2 1 b) [(b, .i32)]
      let addr := c.one s l a
      let g := c.one s l b
      if addr.poison || g.poison then stop .kill s
      else
        let v := g.data.toNat % if sync then 256 else 16
        c.genWait s x l addr.data.toNat v sync false
          (if sync then { kind := 2, addr := addr.data.setWidth 64, value := BitVec.ofNat 64 v } else barBlock addr.data.toNat v false)

/-- `barw` (R270). -/
def execBarw (x : Ctl) (c : BarCtl) (a b : Src) (s : State) : Host.Outcome State Fault Refusal := waitOp (.barw x c a b) s c a b false
/-- `swwait` (R271). -/
def execSwwait (x : Ctl) (c : BarCtl) (a b : Src) (s : State) : Host.Outcome State Fault Refusal := waitOp (.swwait x c a b) s c a b true

/-- The control byte of a barrier instruction. -/
def barCtl (i : Instr) : Option BarCtl :=
  match i with
  | .barr _ c _ _ | .barw _ c _ _ | .barrw _ c _ _ | .swwait _ c _ _ => some c
  | _ => none

/-- The lane for which an instruction that acts once reports (R269). -/
def Ctx.first (c : Ctx) : Nat := (lowest c.act).getD 0

/-- BARRIER_WAIT_END: a waiting `barw` or `barrw` reads GEN again (R270, R356). -/
def barrierWaitEnd (r : SplitRef) (s : State) : State :=
  resume r s [1] fun c i b s =>
    match barCtl i with
    | some x => c.genWait s x c.first b.addr.toNat b.value.toNat false (b.aux = 1) b
    | none => stop .again s

/-- ARRIVE_RETRY: an arrival that found PEND = 0 is made again (R128, R356). -/
def arriveRetry (r : SplitRef) (s : State) : State :=
  resume r s [11] fun c i b s =>
    match i, barCtl i with
    | .barrw _ _ _ _, some x => c.arrive s x c.first b.addr.toNat (b.value.setWidth 32) (b.aux.setWidth 32) true
    | _, some x => c.arrive s x c.first b.addr.toNat (b.value.setWidth 32) (b.aux.setWidth 32) false
    | _, none => stop .again s

/-- SYNC_WAIT_END: a waiting `swwait` reads GEN again (R271). -/
def syncWaitEnd (r : SplitRef) (s : State) : State :=
  resume r s [2] fun c i b s =>
    match barCtl i with
    | some x => c.genWait s x c.first b.addr.toNat b.value.toNat true false b
    | none => stop .again s

/-- BARRIER_WAIT_END. -/
def execBarrierWaitEnd (r : SplitRef) (s : State) : Host.Outcome State Fault Refusal := .next (barrierWaitEnd r s)
/-- ARRIVE_RETRY. -/
def execArriveRetry (r : SplitRef) (s : State) : Host.Outcome State Fault Refusal := .next (arriveRetry r s)
/-- SYNC_WAIT_END. -/
def execSyncWaitEnd (r : SplitRef) (s : State) : Host.Outcome State Fault Refusal := .next (syncWaitEnd r s)

/-! ### Group barriers (R272) -/

/-- `gbar` (R272). -/
def execGbar (x : Ctl) (sc : Scope) (s : State) : Host.Outcome State Fault Refusal :=
  run (.gbar x sc) s fun c s =>
    if c.act = 0 then .ok s
    else do
      let s ← c.releaseNow s sc
      stop (.wait { kind := 3, value := (Scope.code sc).setWidth 64 }) s

/-- The splits of a warp that wait at a `gbar` of a scope. -/
def Warp.atGbar (w : Warp) (sc : Nat) : List Nat :=
  (List.range 4).filter fun i => (w.split i).isSome && (at_ {} w.block i).kind = 3 && (at_ {} w.block i).value.toNat = sc

/-- Whether every lane of a warp has exited or waits at a `gbar` of a scope (R272). -/
def Warp.allAtGbar (w : Warp) (sc : Nat) : Bool :=
  ((w.atGbar sc).foldl (fun (m : LaneMask) i => m ||| ((w.split i).map (·.mask)).getD 0) 0) = w.liveLanes

/-- GBAR_COMPLETE: the waiting lanes continue, split by split (R272). -/
def State.gbarComplete (s : State) (c n : Nat) (gang : Bool) : State :=
  match (s.room c n).group with
  | none => s
  | some g =>
    let sc := if gang then 3 else 2
    let rooms := if gang then s.members g.launch g.gang else [(c, n)]
    let slots := rooms.flatMap fun r => (s.group r.1 r.2).slots.map fun sl => (r.1, sl)
    let live := slots.filter fun x => (s.warp x.1 x.2).live
    let waits := live.flatMap fun x => ((s.warp x.1 x.2).atGbar sc).map fun i => (⟨x.1, x.2, i⟩ : SplitRef)
    let runs := rooms.all fun r => (s.group r.1 r.2).runs || (s.group r.1 r.2).phase = .ended
    if waits = [] || !runs || !live.all fun x => (s.warp x.1 x.2).allAtGbar sc then s
    else
      let unmapped := waits.filter fun r => match s.fetch r with
        | .miss _ => true
        | _ => false
      let ready := if unmapped = [] then waits else unmapped
      ready.foldl (fun s r => resume r s [3] fun _ _ _ s => .ok s) s

/-- GBAR_COMPLETE. -/
def execGbarComplete (core room : Nat) (gang : Bool) (s : State) : Host.Outcome State Fault Refusal := .next (s.gbarComplete core room gang)

/-! ### Counters (R273, R278) -/

/-- `cinc` (R273). -/
def execCinc (x : Ctl) (a b : Src) (s : State) : Host.Outcome State Fault Refusal :=
  run (.cinc x a b) s fun c s =>
    match lowest c.act with
    | none => .ok s
    | some l => do
      c.guard s (bitOf l) (srcNeed 1 1 a ++ srcNeed 2 1 b)
      let id := c.ksrc a
      let n := c.ksrc b
      if id.poison || n.poison then stop .kill s
      else do
        let s ← c.releaseNow s .dev
        return s.counterAdd c.g.part (id.data.toNat % 65536) n.data (s.closedVec c.die)

/-- `crd` (R273). -/
def execCrd (x : Ctl) (d : BitVec 8) (a : Src) (s : State) : Host.Outcome State Fault Refusal :=
  run (.crd x d a) s fun c s =>
    match lowest c.act with
    | none => .ok s
    | some l => do
      c.guard s (bitOf l) (.k 0 d.toNat :: srcNeed 1 1 a) [(a, .i32)]
      let id := match a with
        | .k _ | .imm _ => c.ksrc a
        | _ => let w := c.one s l a; { data := w.data.setWidth 64, poison := w.poison }
      if id.poison then stop .kill s
      else do
        let k : Counter := get {} s.counters (counterKey c.g.part (id.data.toNat % 65536))
        let s ← c.acquireVecNow s k.vec
        return c.writeK s true d { data := k.value }

/-- `joinc` (R278). -/
def execJoinc (x : Ctl) (a b : Src) (s : State) : Host.Outcome State Fault Refusal :=
  run (.joinc x a b) s fun c s =>
    match lowest c.act with
    | none => .ok s
    | some l => do
      c.guard s (bitOf l) (srcNeed 1 1 a ++ srcNeed 2 1 b)
      let id := c.ksrc a
      let n := c.ksrc b
      if id.poison || n.poison then stop .kill s
      else return s.modGroup c.core c.room fun g => { g with join := some (id.data.toNat % 65536, n.data) }

/-- JOINC_APPLY: the increment of a group that has ended, once its accesses are performed and its jobs complete (R278). -/
def State.joincApply (s : State) (c n : Nat) : State :=
  match (s.room c n).group with
  | none => s
  | some g =>
    match g.phase, g.join with
    | .ended, some (id, k) =>
      let e := dieOf c
      if (s.core c).jobs.any (fun j => j.room = n) || !s.portsClear (some g.owner) then s
      else if s.net.any fun r => r.src = e then (if (s.die e).first.isSome then s.closeEpoch e else s)
      else
        let s := s.closeEpoch e
        ((s.counterAdd g.part id k (s.closedVec e)).modGroup c n fun g => { g with join := none }).reap c n
    | _, _ => s

/-- JOINC_APPLY. -/
def execJoincApply (core room : Nat) (s : State) : Host.Outcome State Fault Refusal := .next (s.joincApply core room)

/-! ### Tasks (R274 to R276, R334) -/

/-- TQF (R343). -/
def Ctx.tqf (c : Ctx) (v : Nat) : End := .trap { cause := 0x24, lanes := bitOf c.first, d := BitVec.ofNat 64 v }

/-- `tqpush` (R274): n waits. -/
def execTqpush (x : Ctl) (d a b : BitVec 8) (n : BitVec 8) (s : State) : Host.Outcome State Fault Refusal :=
  run (.tqpush x d a b n) s fun c s =>
    match lowest c.act with
    | none => .ok s
    | some l => do
      let k := n.toNat
      c.guard s (bitOf l) (.k 0 d.toNat :: .k 1 a.toNat :: impliedK a.toNat 3 ++
        if k = 0 then [] else .k 2 b.toNat :: impliedK b.toNat k)
      let words := (List.range 4).map fun i => c.kreg (a.toNat + i)
      let ids := c.kreg b.toNat
      let thrs := (List.range k).map fun j => c.kreg (b.toNat + 1 + j)
      if words.any (·.poison) || (k ≠ 0 && ids.poison) || thrs.any (·.poison) then stop .kill s
      else
        let e : BitVec 256 := BitVec.ofNat 256 (words.foldr (fun (w : KReg) (acc : Nat) => w.data.toNat + 2 ^ 64 * acc) 0)
        if 64 ≤ taskQueue e || field e.toNat 31 25 ≠ 0 then stop (c.tqf (taskQueue e)) s
        else do
          let s ← c.releaseNow s .dev
          let waits := thrs.zipIdx.map fun (p : KReg × Nat) => (field ids.data.toNat (16 * p.2 + 15) (16 * p.2), p.1.data)
          let r := s.pushTask c.g.part e waits (s.closedVec c.die)
          return c.writeK r.1 false d { data := BitVec.ofNat 64 r.2 }

/-- What a pop writes: the entry, into kD to k(D+3) (R276). -/
def Ctx.popInto (c : Ctx) (s : State) (d : BitVec 8) (e : BitVec 256) : State :=
  (List.range 4).foldl (fun s i => s.writeReg c.core c.slot (.k (d.toNat + i) { data := BitVec.ofNat 64 (e.toNat / 2 ^ (64 * i)) })) s

/-- A pop by a split: the head entry, acquired at device scope, or the wait for one (R276). -/
def Ctx.pop (c : Ctx) (s : State) (d : BitVec 8) (q : Nat) : Act State :=
  match s.popTask c.g.part q with
  | none => stop (.wait { kind := 5, addr := BitVec.ofNat 64 q }) s
  | some (e, s') =>
    match s.acquireVec c.die e.vec with
    | (false, t) => stop .again t
    | (true, _) => .ok (c.popInto (s'.acquireVec c.die e.vec).2 d e.entry)

/-- `tqpop` (R276). -/
def execTqpop (x : Ctl) (d : BitVec 8) (a : Src) (s : State) : Host.Outcome State Fault Refusal :=
  run (.tqpop x d a) s fun c s =>
    match lowest c.act with
    | none => .ok s
    | some l => do
      c.guard s (bitOf l) (.k 0 d.toNat :: impliedK d.toNat 3 ++ srcNeed 1 1 a)
      let q := c.ksrc a
      if q.poison then stop .kill s
      else if 64 ≤ q.data.toNat then stop (.trap { cause := 0x24, lanes := bitOf l, d := q.data }) s
      else c.pop s d q.data.toNat

/-- TQPOP_WAKE: a split blocked at an empty queue takes an entry (R334). -/
def tqpopWake (r : SplitRef) (s : State) : State :=
  resume r s [5] fun c i b s => c.pop s (waitD i) b.addr.toNat

/-- TQPOP_WAKE. -/
def execTqpopWake (r : SplitRef) (s : State) : Host.Outcome State Fault Refusal := .next (tqpopWake r s)

/-! ### Fork (R159, R277) -/

/-- A launch created, and its number. -/
def State.addLaunch (s : State) (l : Launch) : State := { s with launches := s.launches ++ [{ l with since := s.gtime }] }

/-- `fork` (R159, R277). -/
def execFork (x : Ctl) (d : Dst) (a : Src) (b : BitVec 8) (s : State) : Host.Outcome State Fault Refusal :=
  run (.fork x d a b) s fun c s => do
    c.guard s c.act (dstNeed 1 d ++ srcNeed 1 2 a ++ (Need.k 2 b.toNat :: impliedK b.toNat 1))
    if c.act = 0 then return s
    else
      let id := c.kreg b.toNat
      let thr := c.kreg (b.toNat + 1)
      match c.addresses s .glob a (.imm 0) with
      | none => stop .kill s
      | some accs =>
        if id.poison || thr.poison then stop .kill s
        else do
          let ps ← c.places s .glob .read .any 64 64 none accs
          let s ← c.observe s none (ps.map (·.2)) 64 (some (firstAddr accs))
          let recs := ps.map fun p => (p.1, p.2, s.readPlace c.die c.owner p.2 64)
          if recs.any (·.2.2.2) then stop .kill s
          else do
            let s ← c.releaseNow s .dev
            let fn := (s.launches.getD c.g.launch {}).fn
            let checked := recs.foldl (fun (acc : State × List (Nat × Place × LaunchRec × Except Nat KHdr)) r =>
              let l := LaunchRec.of r.2.2.1
              let y := acc.1.admitLaunch fn c.g.part (some c.g.lrec.asid) l
              (y.1, acc.2 ++ [(r.1, r.2.1, l, y.2)])) (s, [])
            let s := checked.1
            let refused := checked.2.filter fun r => match r.2.2.2 with
              | .error _ => true
              | .ok _ => false
            if refused ≠ [] then
              c.writeLanes s false d 1 (checked.2.map fun r => match r.2.2.2 with
                | .error _ => (r.1, [({ data := 1 } : LaneWord)])
                | .ok _ => (r.1, [{ data := 2 }])) ([], [])
            else do
              let s ← c.writeLanes s false d 1 (checked.2.map fun r => (r.1, [({ data := 0 } : LaneWord)])) ([], [])
              let vec := s.closedVec c.die
              let s := checked.2.foldl (fun (s : State) r =>
                match r.2.2.2, r.2.1 with
                | .ok h, .mem (p :: _) =>
                  s.addLaunch { fn := fn, lpa := p.1, lrec := { r.2.2.1 with prio := min r.2.2.1.prio c.g.prio }, hdr := h,
                                part := c.g.part, host := false, vec := vec }
                | _, _ => s) s
              return s.modGroup c.core c.room fun g => { g with phase := .suspended, wake := some (id.data.toNat % 65536, thr.data) }

/-- FORK_RESUME: the join counter has reached its threshold, and the saved parent may be restored (R277). A notification for an assignment that is
over is counted in the room, and changes nothing else (R326). -/
def State.forkResume (s : State) (launch groupid : Nat) : State :=
  if (s.savedOf launch groupid).isNone then
    match allRooms.find? fun r => match (s.room r.1 r.2).group with
      | some g => g.launch = launch && g.groupid = groupid && g.phase ≠ .suspended
      | none => false with
    | some r => s.modRoom r.1 r.2 fun x => { x with stale := x.stale + 1 }
    | none => s
  else
  { s with saved := s.saved.map fun (v : Saved) =>
      match v.wake with
      | some (id, thr) =>
        if v.launch = launch && v.groupid = groupid
            && thr.toNat ≤ (get {} s.counters (counterKey (s.launches.getD launch {}).part id)).value.toNat then
          { v with eligible := true }
        else v
      | none => v }

/-- FORK_RESUME. -/
def execForkResume (launch groupid : Nat) (s : State) : Host.Outcome State Fault Refusal := .next (s.forkResume launch groupid)

end Sys2Proof.Machine
end

