-- ==== Sys2Proof/Machine/Engine.lean ====
section
/-! DEFINITION. What the engines of a core share: their accesses to the address spaces (R115, R117, R403), objects named by gang-window
addresses (R121, R125, R128), and what they leave behind when a group is killed. -/

namespace Sys2Proof.Machine

/-- How a part of an engine's work ends early: it is tried again, it ends with a status of R284, or its gang is killed. -/
inductive Halt where
  | again (s : State)
  | fail (status : Nat) (s : State)
  | kill (s : State)

/-- A part of an engine's work. -/
abbrev Work (α : Type) := Except Halt α

/-- The engine of a core acting for a group in a room, whether its traffic between dies and devices is ordered (R138), and whether it works for the
Innkeeper (R17). -/
structure Engine where
  core : Nat
  room : Nat
  who : Asker
  g : Group
  ord : Bool := false
  priv : Bool := false
  deriving DecidableEq, Repr

/-- The die of an engine. -/
def Engine.die (x : Engine) : Nat := dieOf x.core
/-- The owner of what an engine writes (R37). -/
def Engine.owner (x : Engine) : Option Nat := some x.g.owner

/-- The status of a cause (R284): 3 for translation, 5 for the rest. -/
def causeStatus (cause : Nat) : Nat := if 0x10 ≤ cause && cause ≤ 0x19 then 3 else 5

/-- The space that a footprint region's SPACE names (R116). -/
def regionSpace (n : Nat) : Option Space :=
  match n with
  | 0 => some .glob
  | 1 => some .scratch
  | 2 => some .window
  | 3 => some .acc
  | 4 => some .onchip
  | _ => none

/-- An address of a space as an engine computes it: global and on-chip addresses wrap, the others are exact (R256). -/
def engAddr (sp : Space) (a : Int) : Int := if wideAddr sp then a % 2 ^ 64 else a

/-- The pieces of n bytes at an address, each within one unit: how far into the access it begins, and its length. -/
def piecesOf (a : Int) (n unit : Nat) : List (Nat × Nat) :=
  let off := (a % unit).toNat
  (spanOf off n unit).map fun k => (max off (k * unit) - off, min (off + n) (k * unit + unit) - max off (k * unit))

/-- The places of an engine's access, piece by piece (R16 to R22, R115, R403). -/
def Engine.places (x : Engine) (s : State) (sp : Space) (k : AccKind) (u : LeafUse) (a : Int) (n unit : Nat) :
    Work (List (Place × Nat × Nat)) :=
  let acc : Accessor := { core := x.core, who := x.who, g := x.g, kind := k, leaf := u, user := !x.priv }
  let ps := piecesOf a n unit
  let cs : Checks := ps.map fun p => (0, a + p.1, s.check acc sp 0 0 p.2 1 none (engAddr sp (a + p.1)))
  match cs.findSome? fun c => match c.2.2 with
    | .bad _ cause _ _ _ _ => some (causeStatus cause)
    | _ => none with
  | some st => .error (.fail st (s.forget x.who))
  | none =>
    if cs.any fun c => c.2.2 = .poison then .error (.kill s)
    else if cs.any fun c => match c.2.2 with
        | .miss _ | .ats _ _ _ => true
        | _ => false then .error (.again (s.askAllWalks acc.wanted x.g.lrec.asid cs))
    else
      let pl := cs.filterMap fun c => match c.2.2 with
        | .ok p => some p
        | _ => none
      let res := pl.zip ps
      if res.any fun p => match p.1 with
          | .chip c off far => s.keptAt c off p.2.2 || (k = .rmw && far && (s.holds c off).isSome)
          | .mem _ => false then .error (.again s)
      else .ok res

/-- An engine's read: bytes with their poison, and the state after the slices were filled and the merge that every read makes (R58, R65, R107,
R161). -/
def Engine.read (x : Engine) (s : State) (sp : Space) (u : LeafUse) (a : Int) (n unit : Nat) : Work (List (Byte × Bool) × State) := do
  let ps ← x.places s sp .read u a n unit
  match s.fetchBytes (fun _ => x.die) x.who x.g.owner (memBytes (ps.map (·.1))) with
  | (.ready, s) =>
    let s' := s.mergeAll x.die (ps.flatMap fun p => s.stampsOf x.die [p.1] p.2.2)
    let bs := ps.flatMap fun p =>
      let r := s.readPlace x.die x.owner p.1 p.2.2
      r.1.map fun b => (b, r.2)
    return (bs, { s' with misses := s'.misses + s.readMisses (ps.map (·.1)) })
  | (_, s) => .error (.again s)

/-- An engine's write of bytes with their poison: one write operation (R115, R261). -/
def Engine.write (x : Engine) (s : State) (sp : Space) (u : LeafUse) (a : Int) (bs : List (Byte × Bool)) : Work State := do
  let ps ← x.places s sp .write u a bs.length 4
  return s.writePlaces x.die x.owner false (ps.map fun p =>
    let part := (bs.drop p.2.1).take p.2.2
    let pl : Place := match p.1 with
      | .mem qs => .mem (qs.map fun q => (q.1, { q.2 with ord := x.ord }))
      | q => q
    (pl, part.map (·.1), part.any (·.2)))

/-- An object at a gang-window address as an engine meets it; poison is uncorrectable consumption (R125, R128). -/
def Engine.object (x : Engine) (s : State) (k : AccKind) (addr n : Nat) : Work (Place × List Byte) := do
  let ps ← x.places s .window k .any addr n n
  match ps with
  | [(p, _, _)] =>
    let r := s.readPlace x.die x.owner p n
    if r.2 then .error (.kill s) else return (p, r.1)
  | _ => .error (.fail 5 s)

/-- An object updated by an engine: a release at device scope (R126, R129, R405). -/
def Engine.update (x : Engine) (s : State) (p : Place) (bs : List Byte) : State :=
  (s.release x.die .dev).writePlaces x.die x.owner true [(p, bs, false)]

/-- Whether an object at a gang-window address is aligned and inside the gang (R121, R280, R288). -/
def State.objectOk (s : State) (core : Nat) (g : Group) (addr n : Nat) : Bool := addr % n = 0 && (s.windowPlace core g addr n).isSome

/-- Whether a start condition holds (R121): the read is an acquire at gang scope. `kind` 1 is a sync word, 2 a barrier object, 0 none. -/
def Engine.start (x : Engine) (s : State) (kind addr gen : Nat) : Work State := do
  if kind = 0 then return s
  else
    let (p, bs) ← x.object s .read addr (if kind = 1 then 8 else 16)
    if !genReads (kind = 1) false bs gen then .error (.again s)
    else
      let v := s.stampsOf x.die [p] bs.length
      if s.acquireOk x.die .gang v then return s.mergeAll x.die v else .error (.again (s.acquireAsk x.die .gang v))

end Sys2Proof.Machine
end

