-- ==== Sys2Proof/Machine/Jobs.lean ====
section
/-! DEFINITION. Engine jobs (opcodes 0xB0 to 0xB3 and the steps of the job scheduler, R115 to R129, R279 to R284). -/

namespace Sys2Proof.Machine

/-! ### Cards (R116, R279, R280) -/

/-- A footprint region from its 16 bytes (R116). -/
def Region.of (x : Nat) : Region :=
  { base := field x 127 64, rd := tbit x 62, wr := tbit x 63, space := field x 61 58, len := field x 39 0 }

/-- Whether a region is used (R116). -/
def Region.used (r : Region) : Bool := r.rd || r.wr

/-- A job card from its 128 bytes (R279). -/
def Card.of (bs : List Byte) : Card :=
  let x := ofBytes bs
  { kind := field x 3 0, stream := field x 5 4, scope := field x 8 6, ordered := tbit x 9, startK := field x 11 10, rm := field x 14 12,
    swen := tbit x 32, bin := tbit x 33, bout := tbit x 34, startGen := field x 95 88, startAddr := field x 127 96,
    swAddr := field x 159 128, barAddr := field x 191 160, p0 := BitVec.ofNat 64 (field x 255 192), p1 := BitVec.ofNat 64 (field x 319 256),
    p2 := BitVec.ofNat 64 (field x 383 320),
    regions := (List.range 4).map fun k => Region.of (num bs (64 + 16 * k) 16) }

/-- Region k of a card. -/
def Card.region (c : Card) (k : Nat) : Region := at_ { base := 0, rd := false, wr := false, space := 0, len := 0 } c.regions k

/-- Field [hi:lo] of P0. -/
def Card.f0 (c : Card) (hi lo : Nat) : Nat := field c.p0.toNat hi lo
/-- Field [hi:lo] of P1. -/
def Card.f1 (c : Card) (hi lo : Nat) : Nat := field c.p1.toNat hi lo

/-- How far the access rights at an offset of a core window reach (R19, R21): a warp slot's registers, a member's scratchpad or tiles, a map slot,
a directory entry. -/
def State.rightsEnd (s : State) (c off : Nat) : Nat :=
  let member := fun (p : Group → Bool) (e : Group → Nat) =>
    (((s.core c).rooms.filterMap (·.group)).find? p |>.map e).getD (off + 1)
  match chipLoc off with
  | .reg slot _ _ _ => (slot + 1) * 0x8000
  | .sp a => member (fun h => h.spbase ≤ a && a < h.spbase + h.spbytes) fun h => 0x200000 + h.spbase + h.spbytes
  | .slot a => 0x3F0000 + (a / 4096 + 1) * 4096
  | .acc a => member (fun h => h.atbase ≤ a / 24576 && a / 24576 < h.atbase + h.hdr.tiles) fun h => 0x400000 + (h.atbase + h.hdr.tiles) * 24576
  | .dir r _ => 0x580000 + 64 * (r + 1)
  | .reserved => off + 1

/-- Whether a group may access every byte of a range of the on-chip map (R21). A range that it may access lies in one core's window and meets
fewer than 256 units of rights. -/
def State.mayAll (s : State) (core : Nat) (g : Group) (r : Region) (fuel a : Nat) : Bool :=
  match fuel with
  | 0 => false
  | n + 1 =>
    let c := (a - 0xF00000000) / 2 ^ 24
    let off := (a - 0xF00000000) % 2 ^ 24
    let next := a + (max (off + 1) (s.rightsEnd c off) - off)
    (!r.rd || s.peerMay core g c off 1 .read) && (!r.wr || s.peerMay core g c off 1 .write) &&
      (r.base + r.len ≤ next || s.mayAll core g r n next)

/-- Whether a used region is well formed, its reserved bits apart (R116). -/
def State.regionOk (s : State) (core : Nat) (g : Group) (r : Region) : Bool :=
  1 ≤ r.len &&
  match r.space with
  | 0 => r.base + r.len ≤ 2 ^ 56 || (2 ^ 64 - 2 ^ 56 ≤ r.base && r.base + r.len ≤ 2 ^ 64)
  | 1 | 2 | 3 => r.base + r.len ≤ 2 ^ 32
  | 4 => 0xF00000000 ≤ r.base && r.base + r.len ≤ 0xF40000000 && s.mayAll core g r 256 r.base
  | _ => false

/-- The format of a requantise job's source or target (R280): a format code of R77, or 0x07 for plain FP32. -/
def jobFmt (fmt : Nat) (desc : Bool) : Option Elem := if fmt = 7 then (if desc then none else some (.flt .f32)) else Elem.of fmt

/-- The values that one group of a requantise target takes (R83): the element count of a described block, or 32. -/
def groupLen (e : Elem) (desc : Bool) : Nat := if desc then Elem.count e else 32

/-- Bytes of one row of cols elements (R281). -/
def rowBytes (e : Elem) (desc : Bool) (cols : Nat) : Nat :=
  if desc then 64 * ((cols + Elem.count e - 1) / Elem.count e) else (cols * Elem.bits e + 7) / 8

/-- A requantise job's shape: source and target formats, and rows and columns of the source and of the target (R281, R84). -/
structure Requant where
  src : Elem
  sdesc : Bool
  dst : Elem
  tdesc : Bool
  tr : Bool
  srows : Nat
  scols : Nat
  drows : Nat
  dcols : Nat
  deriving DecidableEq, Repr

/-- The shape that a requantise card names, if its formats are formats (R280). -/
def Card.requant (c : Card) : Option Requant :=
  match jobFmt (c.f0 7 0) (c.f0 16 16 = 1), jobFmt (c.f0 15 8) (c.f0 17 17 = 1) with
  | some a, some b =>
    let tr := decide (c.f0 18 18 = 1)
    let r := c.f1 31 0
    let k := c.f1 63 32
    some { src := a, sdesc := c.f0 16 16 = 1, dst := b, tdesc := c.f0 17 17 = 1, tr := tr, srows := r, scols := k,
           drows := if tr then k else r, dcols := if tr then r else k }
  | _, _ => none

/-- Whether the row layout of a requantise card fits its regions (R280, R281). -/
def Requant.fits (q : Requant) (c : Card) : Bool :=
  q.srows * rowBytes q.src q.sdesc q.scols ≤ (c.region 0).len &&
  q.drows * rowBytes q.dst q.tdesc q.dcols ≤ (c.region 1).len &&
  (q.tdesc || q.drows * ((q.dcols + 31) / 32) ≤ (c.region 2).len) &&
  (q.sdesc || !(c.region 3).used || q.srows * ((q.scols + 31) / 32) ≤ (c.region 3).len)

/-- The rights that a kind needs of each region: number, read, write (R280). -/
def Card.rights (c : Card) : List (Nat × Bool × Bool) :=
  match c.kind with
  | 1 => [(0, true, false), (1, false, true)]
  | 2 => [(0, true, false), (1, false, true), (2, true, false)]
  | 3 => (0, c.f0 4 4 = 1, true) :: (List.range (c.f0 6 5)).map fun k => (k + 1, true, false)
  | _ => [(0, true, false), (1, false, true)] ++ (if c.f0 17 17 = 1 then [] else [(2, false, true)]) ++
      (if c.f0 16 16 = 1 || !(c.region 3).used then [] else [(3, true, false)])

/-- The byte offset of the first field for which a card is refused, if any (R121, R280). -/
def State.cardBad (s : State) (core : Nat) (g : Group) (bs : List Byte) : Option Nat :=
  let x := ofBytes bs
  let c := Card.of bs
  let round := c.kind = 4 || (c.kind = 3 && c.f0 3 2 ≠ 2 && c.f0 1 0 = 0)
  let checks : List (Nat × Bool) :=
    [ (0, 1 ≤ c.kind && c.kind ≤ 4 && 2 ≤ c.scope && c.scope ≤ 6)
    , (1, c.startK ≠ 3 && c.rm ≠ 7 && (if 3 ≤ c.kind then !round || c.rm ≠ 0 else c.rm = 0) && field x 31 15 = 0)
    , (4, field x 87 35 = 0 && (!c.swen || c.kind = 1))
    , (12, c.startK = 0 || s.objectOk core g c.startAddr (if c.startK = 1 then 8 else 16))
    , (16, !c.swen || s.objectOk core g c.swAddr 8)
    , (20, (!c.bin && !c.bout) || s.objectOk core g c.barAddr 16)
    , (24, match c.kind with
        | 1 => 1 ≤ c.f0 31 0 && 1 ≤ c.f0 63 32
        | 2 => c.f0 1 0 ≤ 1 && c.f0 3 2 ≤ 2 && c.f0 63 4 = 0
        | 3 => c.f0 1 0 ≤ 2 && c.f0 3 2 ≤ 2 && 1 ≤ c.f0 6 5 && c.f0 63 7 = 0
        | _ => c.requant.isSome && c.f0 63 19 = 0)
    , (32, match c.kind with
        | 1 => true
        | 2 | 3 => 1 ≤ c.f1 31 0 && c.f1 63 32 = 0
        | _ => 1 ≤ c.f1 31 0 && 1 ≤ c.f1 63 32)
    , (40, c.kind = 1 || c.p2 = 0)
    , (48, field x 511 384 = 0) ] ++
    ((List.range 4).map fun k =>
      let r := c.region k
      (64 + 16 * k, !r.used || (field (num bs (64 + 16 * k) 16) 57 40 = 0 && s.regionOk core g r))) ++
    (c.rights.map fun q => (64 + 16 * q.1, (!q.2.1 || (c.region q.1).rd) && (!q.2.2 || (c.region q.1).wr))) ++
    [ (80, c.kind ≠ 1 || (c.region 0).space ≠ (c.region 1).space || (c.region 0).base + (c.region 0).len ≤ (c.region 1).base
        || (c.region 1).base + (c.region 1).len ≤ (c.region 0).base)
    , (64, c.kind ≠ 4 || ((c.requant.map fun q => q.fits c).getD true)) ]
  (checks.find? fun q => !q.2).map (·.1)

/-! ### Edges (R118, R119) -/

/-- A region as edges compare it (R118): space, first byte, end. Scratchpad addresses are rewritten as gang-window ones of the group's own
member, which has 2^21 bytes. -/
def Group.regionKey (g : Group) (r : Region) : Nat × Nat × Nat :=
  if r.space = 1 then (2, g.member * 2 ^ 21 + min r.base (2 ^ 21), g.member * 2 ^ 21 + min (r.base + r.len) (2 ^ 21))
  else (r.space, r.base, r.base + r.len)

/-- Whether two regions overlap (R118). -/
def Group.overlap (g : Group) (a b : Region) : Bool :=
  let x := g.regionKey a
  let y := g.regionKey b
  x.1 = y.1 && x.2.1 < y.2.2 && y.2.1 < x.2.2

/-- Whether an earlier job holds a later one back (R118). -/
def Group.edge (g : Group) (a b : Card) : Bool :=
  a.regions.any fun x => b.regions.any fun y => x.used && y.used && (x.wr || y.wr) && g.overlap x y

/-! ### The scheduler's list -/

/-- A job of a core changed. -/
def State.modJob (s : State) (c id : Nat) (f : Job → Job) : State :=
  s.modCore c fun k => { k with jobs := k.jobs.map fun (j : Job) => if j.id = id then f j else j }

/-- A job of a core. -/
def State.job? (s : State) (c id : Nat) : Option Job := (s.core c).jobs.find? fun j => j.id = id

/-- A completion other than done, as `jchk` will report it (R283). -/
def Group.noteJob (g : Group) (stream status : Nat) : Group :=
  if status = 0 then g
  else { g with jchk := modifyAt g.jchk stream fun (p : Nat × Nat) => (min (p.1 + 1) 65535, if p.1 = 0 then status else p.2) }

/-- A job ends with a status (R119, R122, R284): a job that waited for one that is not done is cancelled in turn. -/
def State.endJob (fuel : Nat) (s : State) (c id status : Nat) : State :=
  match fuel with
  | 0 => s
  | n + 1 =>
    match s.job? c id with
    | none => s
    | some j =>
      let s := (s.modCore c fun k => { k with jobs := k.jobs.filter fun j => j.id ≠ id }).forget (.job c id)
      let s := s.modGroup c j.room fun g => g.noteJob j.card.stream status
      let held := ((s.core c).jobs.filter fun k => k.edges.contains id).map (·.id)
      if status = 0 then
        s.modCore c fun k => { k with jobs := k.jobs.map fun (j : Job) => { j with edges := j.edges.filter (· ≠ id) } }
      else held.foldl (fun s k => State.endJob n s c k 4) s

/-- A job ends; a scheduler holds 64 jobs, so chains of cancellations are no longer. -/
def State.finishJob (s : State) (c id status : Nat) : State :=
  let room := ((s.job? c id).map (·.room)).getD 0
  let s := State.endJob 65 s c id status
  if (s.group c room).phase = .ended then s.reap c room else s

/-- The engine that runs a job. -/
def State.jobEngine (s : State) (c : Nat) (j : Job) : Engine :=
  { core := c, room := j.room, who := .job c j.id, g := s.group c j.room, ord := j.card.ordered, priv := j.priv }

/-- A job that failed performs no further access; it completes once what it performed is settled (R117, R122, R284). The first status stays. -/
def State.failJob (s : State) (c id status : Nat) : State :=
  (s.modJob c id fun j => { j with ended := some (j.ended.getD status) }).forget (.job c id)

/-- One piece of a job's work, and how it may fail (R284). -/
def State.jobStep (s : State) (c id : Nat) (body : Job → Engine → Work State) : State :=
  match s.job? c id with
  | none => s
  | some j =>
    match body j (s.jobEngine c j) with
    | .ok s => s.forget (.job c id)
    | .error (.again s) => s
    | .error (.fail st s) => s.failJob c id st
    | .error (.kill s) => s.killGang c j.room

/-! ### The instructions (R282, R283) -/

/-- Whether a job number lies at or before another (R356: the numbers wrap at 16 bits). -/
def upTo (n last : Nat) : Bool := (last + 65536 - n) % 65536 < 32768

/-- The splits of a core that wait to submit a job, longest first (R118). -/
def State.submitters (s : State) (c : Nat) : List (Nat × Nat) :=
  (s.core c).jsubs.filter fun p => (at_ {} (s.warp c p.1).block p.2).kind = 7

/-- A submission (R118, R280, R282): the card is checked and taken as it stands when the scheduler accepts it. A full scheduler, or a submission
that became ready before, is a blocking point (R123). -/
def Ctx.submit (c : Ctx) (s : State) (l addr : Nat) : Act State := do
  let me := (c.slot, c.sp)
  let q := s.submitters c.core
  if 64 ≤ (s.core c.core).jobs.length || (q ≠ [] && q.head? ≠ some me) then
    stop (.wait { kind := 7, addr := BitVec.ofNat 64 addr })
      (s.modCore c.core fun k => { k with jsubs := if q.contains me then q else q ++ [me] })
  else
    let s := if q = [] then s else s.modCore c.core fun k => { k with jsubs := q.erase me }
    let ps ← c.range s .scratch .read l addr 128 128
    let r := c.readRange s ps 64
    if r.2 then stop .kill s
    else
      match s.cardBad c.core c.g r.1 with
      | some off => stop (.trap { cause := 0x20, lanes := bitOf l, d := BitVec.ofNat 64 addr, a := BitVec.ofNat 64 off }) s
      | none =>
        let card := Card.of r.1
        let n := at_ 0 (s.warp c.core c.slot).subs card.stream
        let s := s.modWarp c.core c.slot fun w => { w with subs := w.subs.set card.stream ((n + 1) % 65536) }
        return s.modCore c.core fun k => { k with
          jobSeq := k.jobSeq + 1
          jobs := k.jobs ++ [{ id := k.jobSeq, room := c.room, slot := c.slot, num := n, cardAddr := addr, bytes := r.1, card := card }] }

/-- `jsub` (R282). -/
def execJsub (x : Ctl) (a : BitVec 8) (s : State) : Host.Outcome State Fault Refusal :=
  run (.jsub x a) s fun c s =>
    match lowest c.act with
    | none => .ok s
    | some l => do
      c.guard s (bitOf l) [.k 1 a.toNat]
      let k := c.kreg a.toNat
      if k.poison then stop .kill s else c.submit s l (k.data.toNat % 2 ^ 32)

/-- The jobs of a warp on the streams of a mask, up to a number for each stream (R283, R356). -/
def State.awaited (s : State) (c slot : Nat) (m : Nat) (aux : Nat) : List Job :=
  (s.core c).jobs.filter fun j => j.slot = slot && tbit m j.card.stream && upTo j.num (field aux (16 * j.card.stream + 15) (16 * j.card.stream))

/-- A wait for jobs: once none is left, an acquire of what their completions released (R122, R283, R405). -/
def Ctx.waitJobs (c : Ctx) (s : State) (b : Block) : Act State :=
  if !(s.awaited c.core c.slot b.value.toNat b.aux.toNat).isEmpty then stop (.wait b) s
  else
    match s.acquireVec c.die (s.warp c.core c.slot).jvec with
    | (true, s) => .ok s
    | (false, s) => stop (.wait b) s

/-- `jwait` (R283). -/
def execJwait (x : Ctl) (m : BitVec 8) (s : State) : Host.Outcome State Fault Refusal :=
  run (.jwait x m) s fun c s =>
    if c.act = 0 then .ok s
    else
      let subs := (s.warp c.core c.slot).subs
      let aux := (List.range 4).foldl (fun (acc : Nat) st =>
        if tbit m.toNat st then acc + (at_ 0 subs st + 65535) % 65536 * 2 ^ (16 * st) else acc) 0
      c.waitJobs s { kind := 12, value := m.setWidth 64, aux := BitVec.ofNat 64 aux }

/-- JWAIT_END (R283). -/
def jwaitEnd (r : SplitRef) (s : State) : State := resume r s [12] fun c _ b s => c.waitJobs s b

/-- JWAIT_END. -/
def execJwaitEnd (r : SplitRef) (s : State) : Host.Outcome State Fault Refusal := .next (jwaitEnd r s)

/-- `jchk` (R283). -/
def execJchk (x : Ctl) (d : BitVec 8) (st : BitVec 8) (s : State) : Host.Outcome State Fault Refusal :=
  run (.jchk x d st) s fun c s =>
    match lowest c.act with
    | none => .ok s
    | some l => do
      c.guard s (bitOf l) [.k 0 d.toNat]
      let n := ((s.core c.core).jobs.filter fun j => j.slot = c.slot && j.card.stream = st.toNat).length
      let p := at_ (0, 0) (s.group c.core c.room).jchk st.toNat
      let s := s.modGroup c.core c.room fun g => { g with jchk := g.jchk.set st.toNat (0, 0) }
      return c.writeK s false d { data := BitVec.ofNat 64 (n % 65536 + p.1 * 2 ^ 16 + p.2 % 256 * 2 ^ 32) }

/-- `jcan` (R283). -/
def execJcan (x : Ctl) (m : BitVec 8) (s : State) : Host.Outcome State Fault Refusal :=
  run (.jcan x m) s fun c s =>
    if c.act = 0 then .ok s
    else
      let mine := (s.core c.core).jobs.filter fun j => j.slot = c.slot && tbit m.toNat j.card.stream && !j.performed
      .ok (mine.foldl (fun s j => s.finishJob c.core j.id 4) s)

/-! ### Acceptance and start (R118, R121) -/

/-- JOB_ACCEPT (R118): one at a time, in order, while the scheduler holds fewer than 64 accepted jobs (R123). -/
def State.jobAccept (s : State) (c : Nat) : State :=
  match (s.core c).jobs.find? fun j => !j.accepted with
  | none => s
  | some j =>
    if 64 ≤ ((s.core c).jobs.filter (·.accepted)).length then s else
    let g := s.group c j.room
    let before := (s.core c).jobs.filter fun k => k.accepted && k.room = j.room && k.card.stream = j.card.stream && g.edge k.card j.card
    s.modJob c j.id fun j => { j with accepted := true, edges := before.map (·.id) }

/-- JOB_START (R119, R121). -/
def State.jobStart (s : State) (c id : Nat) : State :=
  s.jobStep c id fun j x =>
    if !j.accepted || j.started || j.ended.isSome || j.edges ≠ [] then .error (.again s)
    else do
      let s ← x.start s j.card.startK j.card.startAddr j.card.startGen
      return s.modJob c id fun j => { j with started := true }

/-! ### Units of work (R117, R281) -/

/-- The footprint check of an access (R117). -/
def Card.foot (c : Card) (write : Bool) (sp : Nat) (a : Int) (n : Nat) : Bool :=
  c.regions.any fun r => (if write then r.wr else r.rd) && r.space = sp && (r.base : Int) ≤ a && a + n ≤ r.base + r.len

/-- An access of a job to region k, checked against its footprint: a read. -/
def Job.read (j : Job) (x : Engine) (s : State) (k : Nat) (a : Int) (n : Nat) : Work (List (Byte × Bool) × State) :=
  let r := j.card.region k
  match regionSpace r.space with
  | none => .error (.fail 1 s)
  | some sp => if j.card.foot false r.space (engAddr sp a) n then x.read s sp .any a n 4 else .error (.fail 1 s)

/-- An access of a job to region k, checked against its footprint: a write. -/
def Job.write (j : Job) (x : Engine) (s : State) (k : Nat) (a : Int) (bs : List (Byte × Bool)) : Work State :=
  let r := j.card.region k
  match regionSpace r.space with
  | none => .error (.fail 1 s)
  | some sp => if j.card.foot true r.space (engAddr sp a) bs.length then x.write s sp .any a bs else .error (.fail 1 s)

/-- A job that has accessed memory. -/
def State.touched (s : State) (c id : Nat) : State := s.modJob c id fun j => { j with performed := true }

/-- The updates that a job owes for bytes read and written (R125, R128, R129); bytes counted are applied in order. -/
def State.owe (s : State) (c id rd wr : Nat) : State :=
  s.modJob c id fun j =>
    let out := if j.card.bout && rd ≠ 0 then [({ kind := 2, bytes := rd, seq := 0 } : Count)] else []
    let inn := if j.card.bin && wr ≠ 0 then [({ kind := 1, bytes := wr, seq := s.netSeq } : Count)] else []
    let sw := if j.card.swen && wr ≠ 0 then [({ kind := 0, bytes := wr, seq := s.netSeq } : Count)] else []
    { j with next := j.next + 1, seq := s.netSeq, owed := j.owed ++ out ++ sw ++ inn }

/-- The units of a job: rows, elements or groups (R281). -/
def Card.units (c : Card) : Nat :=
  match c.kind with
  | 1 => c.f0 63 32
  | 2 | 3 => c.f1 31 0
  | _ =>
    match c.requant with
    | some q => q.drows * ((q.dcols + groupLen q.dst q.tdesc - 1) / groupLen q.dst q.tdesc)
    | none => 0

/-- One unit of a job of a kind, once the job has started. DESIGN CHOICE: the units are performed in ascending number, an order that R115 leaves open
between different locations (log entry 103). -/
def State.jobUnit (s : State) (c id kind : Nat) (body : Job → Engine → Work State) : State :=
  s.jobStep c id fun j x =>
    if j.card.kind ≠ kind || !j.started || j.ended.isSome || j.card.units ≤ j.next then .error (.again s) else body j x

/-- A failed access after others of the job have been performed leaves the job marked as having performed them. -/
def Work.mark (m : Work State) (c id : Nat) : Work State :=
  match m with
  | .error (.fail st s) => .error (.fail st (s.touched c id))
  | m => m

/-- PORTER_ROW (R281). -/
def State.porterRow (s : State) (c id : Nat) : State :=
  s.jobUnit c id 1 fun j x => do
    let n := j.card.f0 31 0
    let a : Int := (j.card.region 0).base + j.next * j.card.p1.toInt
    let b : Int := (j.card.region 1).base + j.next * j.card.p2.toInt
    let (bs, s) ← j.read x s 0 a n
    Work.mark (do
      let s ← j.write x s 1 b bs
      return (s.touched c id).owe c id n n) c id

/-- An element's access is naturally aligned (R284). -/
def aligned (s : State) (a : Int) (n : Nat) : Work Unit := if a % n = 0 then .ok () else .error (.fail 5 s)

/-- COURIER_ELEMENT (R281). -/
def State.courierElement (s : State) (c id : Nat) : State :=
  s.jobUnit c id 2 fun j x => do
    let es : Nat := 4 * 2 ^ j.card.f0 3 2
    let ia : Int := (j.card.region 2).base + 4 * j.next
    aligned s ia 4
    let (ib, s) ← j.read x s 2 ia 4
    if ib.any (·.2) then .error (.kill s)
    else
      Work.mark (do
        let i := ofBytes (ib.map (·.1))
        let gather := j.card.f0 1 0 = 0
        let a : Int := (j.card.region 0).base + (if gather then i else j.next) * es
        let b : Int := (j.card.region 1).base + (if gather then j.next else i) * es
        aligned s a es
        let (bs, s) ← j.read x s 0 a es
        aligned s b es
        let s ← j.write x s 1 b bs
        return (s.touched c id).owe c id es es) c id

/-- One combination of a collective job (R281): 0 add, 1 max, 2 min; FMT 0 FP32, 1 BF16, 2 INT32. -/
def combine (op fmt : Nat) (rm : RM) (a b : Nat) : Nat :=
  let f : FFmt := if fmt = 1 then .bf16 else .f32
  if fmt = 2 then
    if op = 0 then (a + b) % 2 ^ 32
    else if op = 1 then (if signed 32 a < signed 32 b then b else a)
    else if signed 32 b < signed 32 a then b else a
  else if op = 0 then (addF f 0 rm false a b).1
  else (minmaxF f 0 (op = 1) a b).1

/-- The sources of a collective element, read in ascending region order and combined (R281). -/
def Job.gather (j : Job) (x : Engine) (es : Nat) (ks : List Nat) (acc : Option (Nat × Bool)) (s : State) :
    Work (Option (Nat × Bool) × State) :=
  match ks with
  | [] => .ok (acc, s)
  | k :: rest => do
    let a : Int := (j.card.region k).base + j.next * es
    aligned s a es
    let (bs, s) ← j.read x s k a es
    let v := ofBytes (bs.map (·.1))
    let p := bs.any (·.2)
    let r := match acc with
      | none => (v, p)
      | some t => if t.2 || p then (0, true) else (combine (j.card.f0 1 0) (j.card.f0 3 2) (RM.of j.card.rm) t.1 v, false)
    j.gather x es rest (some r) s

/-- COLLECTIVE_ELEMENT (R281). -/
def State.collectiveElement (s : State) (c id : Nat) : State :=
  s.jobUnit c id 3 fun j x => do
    let es : Nat := if j.card.f0 3 2 = 1 then 2 else 4
    let ks := (if j.card.f0 4 4 = 1 then [0] else []) ++ (List.range (j.card.f0 6 5)).map (· + 1)
    let (r, s) ← j.gather x es ks none s
    Work.mark (do
      let a : Int := (j.card.region 0).base + j.next * es
      aligned s a es
      let t := r.getD (0, false)
      let s ← j.write x s 0 a ((leBytes es (if t.2 then 0 else t.1)).map fun b => (b, t.2))
      return (s.touched c id).owe c id (es * ks.length) es) c id

/-- What a requantise group has read so far: which bytes, and the element values. -/
structure Taken where
  s : State
  rd : List (Nat × Int)
  vals : List (Option XVal)

/-- One source element of a requantise job (R78, R79, R281): none for poison. DESIGN CHOICE: an element past the count of a described block's own
format reads +0 (log entry 102). -/
def Job.element (j : Job) (x : Engine) (q : Requant) (row col : Nat) (t : Taken) : Work Taken := do
  let k := t.s.core x.core
  let holder := (x.g.launch, x.g.gang)
  let bookBad := fun (e : Elem) => match e with
    | .cb b => (at_ ({} : Codebook) k.books b).bad holder
    | .flt _ | .int8 => false
  let seen := fun (r : Nat) (a : Int) (n : Nat) => (List.range n).foldl (fun (l : List (Nat × Int)) (i : Nat) =>
    if l.contains (r, a + i) then l else (r, a + i) :: l)
  if q.sdesc then
    let n := Elem.count q.src
    let a : Int := (j.card.region 0).base + row * rowBytes q.src true q.scols + col / n * 64
    let (bs, s) ← j.read x t.s 0 a 64
    let blk := bs.map (·.1)
    let v : Option XVal :=
      if bs.any (·.2) then none
      else if blockFmt blk = 0 then some .zero
      else
        match Elem.of (blockFmt blk) with
        | none => none
        | some e => if bookBad e then none
          else if Elem.count e ≤ col % n then some .zero
          else some (blockElement e k.books holder blk (col % n))
    return { s := s, rd := seen 0 a 64 t.rd, vals := t.vals ++ [v] }
  else
    let w := Elem.bits q.src
    let a : Int := (j.card.region 0).base + row * rowBytes q.src false q.scols + col * w / 8
    let n := max 1 (w / 8)
    let (bs, s) ← j.read x t.s 0 a n
    let raw := if w = 4 then (ofBytes (bs.map (·.1))) / (if col % 2 = 0 then 1 else 16) % 16 else ofBytes (bs.map (·.1))
    let v := elemValue q.src k.books holder raw
    let bad := bs.any (·.2) || bookBad q.src
    if (j.card.region 3).used then
      let sa : Int := (j.card.region 3).base + row * ((q.scols + 31) / 32) + col / 32
      let (sb, s) ← j.read x s 3 sa 1
      let e := ofBytes (sb.map (·.1))
      return { s := s, rd := seen 3 sa 1 (seen 0 a n t.rd), vals := t.vals ++ [if bad || sb.any (·.2) then none else some (scaled v e)] }
    else return { s := s, rd := seen 0 a n t.rd, vals := t.vals ++ [if bad then none else some v] }

/-- The elements of one target group, in order; a missing one is +0 (R281). -/
def Job.elements (j : Job) (x : Engine) (q : Requant) (row : Nat) (cols : List Nat) (t : Taken) : Work Taken :=
  match cols with
  | [] => .ok t
  | col :: rest => do
    let t ← if q.dcols ≤ col then pure { t with vals := t.vals ++ [some XVal.zero] }
      else if q.tr then j.element x q col row t else j.element x q row col t
    j.elements x q row rest t

/-- REQUANTISE_GROUP (R83, R84, R281). -/
def State.requantiseGroup (s : State) (c id : Nat) : State :=
  s.jobUnit c id 4 fun j x => do
    match j.card.requant with
    | none => .error (.fail 1 s)
    | some q =>
      let n := groupLen q.dst q.tdesc
      let per := (q.dcols + n - 1) / n
      let row := j.next / per
      let grp := j.next % per
      let t ← j.elements x q row ((List.range n).map fun i => grp * n + i) { s := s, rd := [], vals := [] }
      let es := match q.dst with
        | .cb b => (List.range 16).map fun i => (at_ ({} : Codebook) (t.s.core x.core).books b).entry (x.g.launch, x.g.gang) i
        | .flt _ | .int8 => []
      let rm := RM.of j.card.rm
      Work.mark (do
        if q.tdesc then
          let blk := requantiseBlock q.dst es rm t.vals
          let a : Int := (j.card.region 1).base + row * rowBytes q.dst true q.dcols + grp * 64
          let s ← j.write x t.s 1 a (blk.map fun b => (b, false))
          return (s.touched c id).owe c id t.rd.length 64
        else
          let m := min n (q.dcols - grp * n)
          let r := if t.vals.any (·.isNone) then (255, List.replicate n 0) else requantise q.dst es rm (t.vals.filterMap fun v => v)
          let pay := packElems (Elem.bits q.dst) (r.2.take m)
          let a : Int := (j.card.region 1).base + row * rowBytes q.dst false q.dcols + grp * n * Elem.bits q.dst / 8
          let sa : Int := (j.card.region 2).base + row * ((q.dcols + 31) / 32) + grp
          let _ ← j.write x t.s 2 sa [(BitVec.ofNat 8 r.1, false)]
          let s ← j.write x t.s 1 a (pay.map fun b => (b, false))
          let s ← j.write x s 2 sa [(BitVec.ofNat 8 r.1, false)]
          return (s.touched c id).owe c id t.rd.length (pay.length + 1)) c id

/-! ### Raises, countdowns and completion (R122, R125, R128, R129) -/

/-- Whether the writes that a core's die numbered before `seq` have been acknowledged, by the holders of copies too, and packets by peers, and no
port keeps a write of the owner (R108, R114). -/
def State.settled (s : State) (c : Nat) (o : Option Nat) (seq : Nat) : Bool :=
  s.portsClear o && !s.net.any (fun r => r.src = dieOf c && !r.ext && r.id < seq) && !s.peerBusy

/-- The oldest update of a kind that a job owes, and the job without it. -/
def Job.takeOwed (j : Job) (p : Count → Bool) : Option (Count × Job) :=
  (j.owed.find? p).map fun o => (o, { j with owed := j.owed.erase o })

/-- An update that fails is owed no more; those for other bytes still come (R124, R128). -/
def Work.drop (m : Work State) (c : Nat) (j : Job) : Work State :=
  match m with
  | .error (.fail st s) => .error (.fail st (s.modJob c j.id fun k => { k with owed := j.owed }))
  | m => m

/-- SYNC_RAISE: the job's sync word is raised once the bytes are performed (R125, R126). -/
def State.syncRaiseJob (s : State) (c id : Nat) : State :=
  s.jobStep c id fun j x =>
    match j.takeOwed fun o => o.kind = 0 with
    | none => .error (.again s)
    | some (o, j') =>
      if !s.settled c x.owner o.seq then .error (.again s)
      else Work.drop (do
        let (p, bs) ← x.object s .rmw j.card.swAddr 8
        return (x.update s p (leBytes 8 (syncRaise (ofBytes bs) o.bytes))).modJob c id fun _ => j') c j'

/-- BARRIER_COUNTDOWN (R128, R129): an inbound count waits for its bytes, an outbound one has read them. -/
def State.barrierCountdown (s : State) (c id : Nat) : State :=
  s.jobStep c id fun j x =>
    match j.takeOwed fun o => o.kind ≠ 0 && (o.kind = 2 || s.settled c x.owner o.seq) with
    | none => .error (.again s)
    | some (o, j') => Work.drop (do
      let (p, bs) ← x.object s .rmw j.card.barAddr 16
      match (Barrier.of bs).countDown (o.kind = 2) o.bytes with
      | none => .error (.fail 2 s)
      | some b => return (x.update s p b.bytes).modJob c id fun _ => j') c j'

/-- The scope of a card's completion. -/
def Card.completion (c : Card) : Scope := (Scope.of (BitVec.ofNat 3 c.scope)).getD .sys

/-- Whether a job has no access left to perform: every unit is done, or one failed (R117, R122). -/
def Job.over (j : Job) : Bool := (j.started && j.card.units ≤ j.next) || j.ended.isSome

/-- JOB_COMPLETE: no access left, every update applied, every write performed at the completion scope; a release, of a faulted job's writes too
(R122). -/
def State.jobComplete (s : State) (c id : Nat) : State :=
  match s.job? c id with
  | none => s
  | some j =>
    let o := some (s.group c j.room).owner
    if !j.over || j.owed ≠ [] || !s.portsClear o || s.homeBusy (dieOf c)
        || (wideScope j.card.completion && !s.settled c o j.seq) then s
    else
      let s := s.release (dieOf c) j.card.completion
      let s := if wideScope j.card.completion then
          s.modWarp c j.slot fun w => { w with jvec := joinVec w.jvec (s.closedVec (dieOf c)) } else s
      s.finishJob c id (j.ended.getD 0)

/-- JOB_ACCEPT. -/
def execJobAccept (core : Nat) (s : State) : Host.Outcome State Fault Refusal := .next (s.jobAccept core)
/-- JOB_START. -/
def execJobStart (core id : Nat) (s : State) : Host.Outcome State Fault Refusal := .next (s.jobStart core id)
/-- PORTER_ROW. -/
def execPorterRow (core id : Nat) (s : State) : Host.Outcome State Fault Refusal := .next (s.porterRow core id)
/-- COURIER_ELEMENT. -/
def execCourierElement (core id : Nat) (s : State) : Host.Outcome State Fault Refusal := .next (s.courierElement core id)
/-- COLLECTIVE_ELEMENT. -/
def execCollectiveElement (core id : Nat) (s : State) : Host.Outcome State Fault Refusal := .next (s.collectiveElement core id)
/-- REQUANTISE_GROUP. -/
def execRequantiseGroup (core id : Nat) (s : State) : Host.Outcome State Fault Refusal := .next (s.requantiseGroup core id)
/-- JOB_COMPLETE. -/
def execJobComplete (core id : Nat) (s : State) : Host.Outcome State Fault Refusal := .next (s.jobComplete core id)
/-- SYNC_RAISE. -/
def execSyncRaise (core id : Nat) (s : State) : Host.Outcome State Fault Refusal := .next (s.syncRaiseJob core id)
/-- BARRIER_COUNTDOWN. -/
def execBarrierCountdown (core id : Nat) (s : State) : Host.Outcome State Fault Refusal := .next (s.barrierCountdown core id)

end Sys2Proof.Machine
end

