-- ==== Sys2Proof/Machine/Matrix.lean ====
section
/-! DEFINITION. The matrix engine: command records, the ring, K-blocks and codebooks (opcodes 0xC0 to 0xC4, R75, R80, R81, R285 to
R294). -/

namespace Sys2Proof.Machine

/-! ### Command records (R285 to R288) -/

/-- Field [hi:lo] of a record. -/
def recField (r : BitVec 512) (hi lo : Nat) : Nat := field r.toNat hi lo

/-- OP. -/
def recOp (r : BitVec 512) : Nat := recField r 3 0
/-- DESC. -/
def recDesc (r : BitVec 512) : Bool := r.getLsbD 4
/-- STATUS. -/
def recStatus (r : BitVec 512) : Nat := recField r 23 20
/-- PROGRESS. -/
def recProgress (r : BitVec 512) : Nat := recField r 95 64
/-- KLEN. -/
def recKlen (r : BitVec 512) : Nat := recField r 63 32

/-- One side of a record: A, or B (R285). -/
structure Side where
  base : Nat
  stride : Nat
  fmt : Nat
  sp : Bool
  side : Bool
  sideOff : Int
  sideStr : Nat
  deriving DecidableEq, Repr

/-- A side of a record. -/
def sideOf (r : BitVec 512) (b : Bool) : Side :=
  if b then
    { base := recField r 319 256, stride := recField r 383 352, fmt := recField r 175 168, sp := r.getLsbD 177, side := r.getLsbD 179,
      sideOff := signed 32 (recField r 479 448), sideStr := recField r 447 432 }
  else
    { base := recField r 255 192, stride := recField r 351 320, fmt := recField r 167 160, sp := r.getLsbD 176, side := r.getLsbD 178,
      sideOff := signed 32 (recField r 415 384), sideStr := recField r 431 416 }

/-- What two records must both name for one to take an operand as the other read it (R293), and where in K the operand of a K-block ends. -/
def Side.key (x : Side) (desc : Bool) : List Nat :=
  [x.base, x.stride, x.fmt, if x.sp then 1 else 0, if x.side then 1 else 0, (BitVec.ofInt 32 x.sideOff).toNat, x.sideStr,
   if desc then 1 else 0]

/-- Elements per step of a class, by element width (R80). -/
def stepLen (bits : Nat) : Nat := if bits = 8 then 8 else if bits = 4 then 16 else if bits = 16 then 4 else 1

/-- The element after the last that a K-block reads of a row of a plain record. -/
def blockEnd (r : BitVec 512) (w step : Nat) : Nat := min ((step + 8) * stepLen w) (recKlen r)

/-- The format that a plain side names (R285). -/
def Side.plain (x : Side) : Option Elem := jobFmt x.fmt false

/-- The step count S of a record (R288). -/
def recSteps (r : BitVec 512) : Nat :=
  if recOp r = 3 then 0
  else if recDesc r then 8 * recKlen r
  else
    match (sideOf r false).plain with
    | some e => (recKlen r + stepLen (Elem.bits e) - 1) / stepLen (Elem.bits e)
    | none => 0

/-- The room that holds a member of a group's gang on the same core, if it is resident there. -/
def State.memberHere (s : State) (c : Nat) (g : Group) (m : Nat) : Option Nat :=
  (List.range 16).find? fun n =>
    match (s.room c n).group with
    | some h => h.launch = g.launch && h.gang = g.gang && h.member = m && h.phase.onCore
    | none => false

/-- Whether every field of a zero-fill record that it does not use is zero (R285). -/
def zeroFillOk (r : BitVec 512) : Bool :=
  recField r 6 4 = 0 && recKlen r = 0 && recField r 179 160 = 0 && recField r 479 192 = 0

/-- Malformed of R288. -/
def State.malformed (s : State) (x : Engine) (r : BitVec 512) : Bool :=
  let a := sideOf r false
  let b := sideOf r true
  let al := if recDesc r then 64 else 16
  let need := (recKlen r + 31) / 32
  let startK := recField r 9 8
  let p := recProgress r
  let bad :=
    !(1 ≤ recOp r && recOp r ≤ 3) || recField r 19 19 ≠ 0 || recField r 191 180 ≠ 0 || recField r 511 480 ≠ 0 || startK = 3
      || max 1 x.g.hdr.gang ≤ recField r 18 16
      || (match s.memberHere x.core x.g (recField r 18 16) with
          | some n => (s.group x.core n).hdr.tiles ≤ recField r 15 10
          | none => true)
      || (startK ≠ 0 && !s.objectOk x.core x.g (recField r 127 96) (if startK = 1 then 8 else 16))
      || (r.getLsbD 7 && !s.objectOk x.core x.g (recField r 159 128) 16)
      || p % 8 ≠ 0
  let operands :=
    if recOp r = 3 then !zeroFillOk r || p ≠ 0
    else
      recKlen r = 0 || a.base % al ≠ 0 || b.base % al ≠ 0 || a.stride % al ≠ 0 || b.stride % al ≠ 0
        || (if recDesc r then a.fmt ≠ 0 || b.fmt ≠ 0 || a.side || b.side
            else (match a.plain, b.plain with
                | some e, some f => Elem.bits e ≠ Elem.bits f
                | _, _ => true)
              || (a.side && a.sideStr < need) || (b.side && b.sideStr < need))
        || recSteps r ≤ p
  bad || operands

/-! ### The ring (R289 to R291) -/

/-- A room's ring changed. -/
def State.modRing (s : State) (c n : Nat) (f : Ring → Ring) : State := s.modRoom c n fun x => { x with ring := f x.ring }

/-- PROGRESS of record number rec written (R291). -/
def State.setProgress (s : State) (c n rec_ p : Nat) : State := s.spWrite c n ((s.room c n).ring.addr rec_ + 8) (leBytes 4 p)

/-- Halt of R291; nothing is held after it (R293). The record keeps the codebooks with which it started (R75). -/
def State.haltRing (s : State) (c n code : Nat) (progress : Option Nat) : State :=
  let d := (s.room c n).ring.dcnt.toNat
  let s := s.setStatus c n d code
  let s := match progress with
    | some p => s.setProgress c n d p
    | none => s
  s.modRing c n fun r => { r with
    halt := true
    run := none
    held := []
    books := if code = 4 || code = 5 then r.run.map (·.books) else none }

/-- Whether a ring has a record to run. -/
def Ring.pending (r : Ring) : Bool := r.size ≠ 0 && !r.halt && r.dcnt ≠ r.qcnt

/-- The engine of a core for a room. -/
def State.mxEngine (s : State) (c n : Nat) : Engine := { core := c, room := n, who := .mx c n, g := s.group c n }

/-- The room's engine works only while its group is on the core and not being saved. -/
def State.mxRuns (s : State) (c n : Nat) : Bool :=
  match (s.room c n).group with
  | some g => g.phase = .resident || g.phase = .ended || g.phase = .faulted || g.phase = .suspended
  | none => false

/-- The tile of a record as bytes of accumulator memory begin: its physical number (R15). -/
def State.tileOf (s : State) (x : Engine) (r : BitVec 512) : Nat :=
  match s.memberHere x.core x.g (recField r 18 16) with
  | some n => (s.group x.core n).atbase + recField r 15 10
  | none => 0

/-- A tile's poison bit (R54). -/
def State.setTilePoison (s : State) (c t : Nat) (p : Bool) : State :=
  s.modCore c fun k => { k with acc := { k.acc with poison := if p then setInsert k.acc.poison t else setErase k.acc.poison t } }

/-- A record enters its steps: an initialise record at its beginning clears its tile's poison bit (R291). -/
def State.enterSteps (s : State) (x : Engine) (r : BitVec 512) : State :=
  if recOp r = 2 && recProgress r = 0 then s.setTilePoison x.core (s.tileOf x r) false else s

/-- MX_RECORD_FETCH (R291): the next record is read, an acquire at group scope, and checked. One resumed with STATUS 8, or saved while its arrival
waited, repeats only its arrival (log entry 16). -/
def State.mxFetch (s : State) (c n : Nat) : State :=
  let ring := (s.room c n).ring
  if !s.mxRuns c n || !ring.pending || ring.run.isSome then s
  else
    let x := s.mxEngine c n
    let (bs, bad) := s.spRead c n (ring.addr ring.dcnt.toNat) 64
    if bad then s.killGang c n
    else
      let r : BitVec 512 := BitVec.ofNat 512 (ofBytes bs)
      let how := ring.how
      let again := (how = .resume && recStatus r = 8) || (how = .restore && (recStatus r = 2 || recStatus r = 8))
      let s := s.modRing c n fun r => { r with how := .fetch, books := none }
      if !again && s.malformed x r then s.haltRing c n 3 none
      else
        let go := again || how = .restore || (how = .resume && (recStatus r = 4 || recStatus r = 5))
        let q : Running := { rec_ := r, how := how, started := go, step := recProgress r,
                             books := (if go then ring.books else none).getD (s.core c).books, arrive := again }
        (if go && !again then s.enterSteps x r else s).modRing c n fun x => { x with run := some q }

/-- MX_RECORD_START (R75, R121, R291): the start condition holds; the codebooks are those of this moment. -/
def State.mxStart (s : State) (c n : Nat) : State :=
  match (s.room c n).ring.run with
  | none => s
  | some q =>
    if q.started || !s.mxRuns c n then s
    else
      let x := s.mxEngine c n
      match x.start s (recField q.rec_ 9 8) (recField q.rec_ 127 96) (recField q.rec_ 31 24) with
      | .ok s => (s.enterSteps x q.rec_).modRing c n fun r => { r with run := some { q with started := true, books := (s.core c).books } }
      | .error (.again s) => s
      | .error (.fail _ s) => s.haltRing c n 3 none
      | .error (.kill s) => s.killGang c n

/-! ### A K-block (R80, R81, R286, R291) -/

/-- One side's rows of a K-block, read row by row (R286). -/
def Engine.rows (x : Engine) (r : BitVec 512) (b : Bool) (step : Nat) (is : List Nat) (s : State) (acc : List OperRow) :
    Work (List OperRow × State) :=
  match is with
  | [] => .ok (acc, s)
  | i :: rest => do
    let d := sideOf r b
    let sp : Space := if d.sp then .scratch else .glob
    if recDesc r then
      let (bs, s) ← x.read s sp .described (d.base + i * d.stride + 64 * (step / 8)) 64 64
      x.rows r b step rest s (acc ++ [{ bytes := bs.map (·.1), scales := [], poison := bs.any (·.2) }])
    else
      let w := Elem.bits ((d.plain).getD .int8)
      let k0 := step * stepLen w
      let k1 := blockEnd r w step
      let lo := k0 * w / 8
      let (bs, s) ← x.read s sp .plain (d.base + i * d.stride + lo) ((k1 * w + 7) / 8 - lo) 16
      if d.side then
        let (sc, s) ← x.read s sp .plain (d.base + d.sideOff + i * d.sideStr + k0 / 32) ((k1 - 1) / 32 - k0 / 32 + 1) 16
        x.rows r b step rest s (acc ++ [{ bytes := bs.map (·.1), scales := sc.map (·.1), poison := bs.any (·.2) || sc.any (·.2) }])
      else x.rows r b step rest s (acc ++ [{ bytes := bs.map (·.1), scales := [], poison := bs.any (·.2) }])

/-- What a row of A, or a column of B, stands for in a K-block (R81, R294): poison, a zero block, elements of a poisoned codebook, or its element
values, step by step. -/
inductive RowVals where
  | poison
  | zero
  | book
  | vals (v : List (List XVal))
  deriving DecidableEq, Repr

/-- A row's element values, step by step of the K-block (R78, R79, R81, R294). -/
def rowValues (r : BitVec 512) (b : Bool) (step : Nat) (books : List Codebook) (holder : Nat × Nat) (kc : Nat) (row : OperRow) : RowVals :=
  let bookBad := fun (e : Elem) => match e with
    | .cb j => (at_ ({} : Codebook) books j).bad holder
    | .flt _ | .int8 => false
  if row.poison then .poison
  else if recDesc r then
    if blockFmt row.bytes = 0 then .zero
    else
      match Elem.of (blockFmt row.bytes) with
      | none => .poison
      | some e =>
        if bookBad e then .book
        else .vals ((List.range 8).map fun u => ((List.range kc).map (kc * u + ·)).filterMap fun k =>
          if k < Elem.count e then some (blockElement e books holder row.bytes k) else none)
  else
    let e := ((sideOf r b).plain).getD .int8
    let w := Elem.bits e
    let k0 := step * kc
    if bookBad e then .book
    else .vals ((List.range 8).map fun u => ((List.range kc).map (k0 + kc * u + ·)).filterMap fun k =>
      if k < recKlen r then
        let raw := rawElem w row.bytes (k - k0 * w / 8 * 8 / w)
        let sc := if row.scales = [] then 127 else (at_ (0 : Byte) row.scales (k / 32 - k0 / 32)).toNat
        some (scaled (elemValue e books holder raw) sc)
      else none)

/-- The classes, as element widths, of the format blocks of a K-block (R81). -/
def classesOf (rows : List OperRow) : List Nat :=
  (rows.filterMap fun r => if r.poison then none else (Elem.of (blockFmt r.bytes)).map Elem.bits).eraseDups

/-- The exact products of one step of one element (R80, R81): a missing position is a +0 product. -/
def stepProducts (a b : List XVal) : List XVal :=
  if a.isEmpty || b.isEmpty then [.zero] else (a.zip b).map fun p => p.1.mul p.2

/-- The steps of a K-block applied to one element (R80, R81): the element and whether it is poison. A zero block reads no entry of a codebook
(R294). -/
def elementSteps (a b : RowVals) (acc : Nat) (n : Nat) (pad : Bool) : Nat × Bool :=
  let steps := fun (f : Nat → List XVal) =>
    ((List.range n).foldl (fun acc u => matrixStep acc (if pad && u = 7 then f u ++ [.zero] else f u)) acc, false)
  match a, b with
  | .poison, _ | _, .poison => (0, true)
  | .zero, _ | _, .zero => steps fun _ => [.zero]
  | .book, _ | _, .book => (0, true)
  | .vals a, .vals b => steps fun u => stepProducts (at_ [] a u) (at_ [] b u)

/-- What a K-block's operand is known by: what its record names of the side, and where in K it ends. -/
def Running.key (q : Running) (b : Bool) : List Nat :=
  let d := sideOf q.rec_ b
  d.key (recDesc q.rec_) ++ [if recDesc q.rec_ then 0 else blockEnd q.rec_ (Elem.bits ((d.plain).getD .int8)) q.step]

/-- Rows of a side: those held for this record, else those read (R293). -/
def Engine.operand (x : Engine) (s : State) (q : Running) (n : Nat) (b : Bool) : Work (List OperRow × State) :=
  let ring := (s.room x.core x.room).ring
  match ring.held.find? fun h => h.recno = n && h.side = b && h.step = q.step && h.key = q.key b with
  | some h => .ok (h.rows, s)
  | none => x.rows q.rec_ b q.step (List.range (if b then 96 else 64)) s []

/-- What the next record may take as this one read it (R293). -/
def keepRows (q : Running) (n : Nat) (b : Bool) (rows : List OperRow) : List Held :=
  if q.rec_.getLsbD (if b then 6 else 5) then
    [{ recno := (n + 1) % 2 ^ 32, side := b, step := q.step, key := q.key b, rows := rows }]
  else []

/-- The eight steps of one K-block (R291): operands first, then the class check, then the steps. -/
def State.kblock (s : State) (x : Engine) (q : Running) : Work (Option State × State) := do
  let n := (s.room x.core x.room).ring.dcnt.toNat
  let (ra, s) ← x.operand s q n false
  let (rb, s) ← x.operand s q n true
  let cls := classesOf (ra ++ rb)
  if recDesc q.rec_ && 2 ≤ cls.length then return (none, s)
  else
    let s := s.modRing x.core x.room fun r => { r with held := r.held ++ keepRows q n false ra ++ keepRows q n true rb }
    let holder := (x.g.launch, x.g.gang)
    let w := if recDesc q.rec_ then cls.headD 8 else Elem.bits (((sideOf q.rec_ false).plain).getD .int8)
    let va := ra.map (rowValues q.rec_ false q.step q.books holder (stepLen w))
    let vb := rb.map (rowValues q.rec_ true q.step q.books holder (stepLen w))
    let t := s.tileOf x q.rec_
    let old := (s.core x.core).acc.read accGrain x.owner (t * 24576) 24576
    let steps := min 8 (recSteps q.rec_ - q.step)
    let out := (List.range 64).flatMap fun i => (List.range 96).map fun j =>
      let acc := if recOp q.rec_ = 2 && q.step = 0 then 0x80000000 else num old.1 (i * 384 + j * 4) 4
      elementSteps (at_ .poison va i) (at_ .poison vb j) acc steps (recDesc q.rec_)
    let bad := out.any (·.2)
    let s := s.modCore x.core fun k =>
      { k with acc := k.acc.write accGrain x.owner (t * 24576) (out.flatMap fun e => leBytes 4 e.1) false }
    let s := if bad then s.setTilePoison x.core t true else s
    return (some s, s)

/-- Arrival of R291: it is tried again while it finds PEND = 0 (R128). -/
def State.mxArrive (s : State) (x : Engine) (q : Running) : Work State := do
  let c := x.core
  let n := x.room
  let d := (s.room c n).ring.dcnt.toNat
  let s := s.setStatus c n d 2
  let retire := fun (s : State) => s.modRing c n fun r =>
    { r with dcnt := r.dcnt + 1, run := none, held := r.held.filter fun h => h.recno ≠ d }
  if !q.rec_.getLsbD 7 then return retire s
  else
    match x.object s .rmw (recField q.rec_ 159 128) 16 with
    | .error (.fail _ s) => return s.haltRing c n 8 none
    | .error e => .error e
    | .ok (p, bs) =>
      match (Barrier.of bs).arrive 0 0 with
      | .barf => return s.haltRing c n 8 none
      | .wait => .error (.again s)
      | .ok b => return retire (x.update s p b.bytes)

/-- Complete of R291: PROGRESS and STATUS, and the arrival. -/
def State.mxComplete (s : State) (x : Engine) (q : Running) : Work State :=
  let d := (s.room x.core x.room).ring.dcnt.toNat
  ((s.setProgress x.core x.room d (recSteps q.rec_)).modRing x.core x.room fun r => { r with run := some { q with arrive := true } }).mxArrive x q

/-- What a started record does at a K-block boundary (R291): one K-block, and its completion after the last. -/
def State.mxGo (s : State) (c n : Nat) (q : Running) : Work State := do
  let x := s.mxEngine c n
  let s := s.modCore c fun k => { k with mxTurn := n }
  if q.arrive then s.mxArrive x q
  else if recOp q.rec_ = 3 then
    let t := s.tileOf x q.rec_
    let s := s.modCore c fun k => { k with acc := k.acc.write accGrain x.owner (t * 24576) (List.replicate 24576 0) false }
    (s.setTilePoison c t false).mxComplete x q
  else
    match ← s.kblock x q with
    | (none, s) => return s.haltRing c n 4 (some q.step)
    | (some s, _) =>
      let q := { q with step := q.step + 8 }
      let s := (s.modRing c n fun r => { r with run := some q }).forget (.mx c n)
      if recSteps q.rec_ ≤ q.step then s.mxComplete x q else return s

/-- A room's turn of the engine, if its record runs: whether the record went on, and the state. A record whose accesses or arrival wait leaves the
turn to the next room. -/
def State.mxTry (s : State) (c n : Nat) : Bool × State :=
  match (s.room c n).ring.run with
  | none => (false, s)
  | some q =>
    if !q.started || !s.mxRuns c n then (false, s)
    else
      match s.mxGo c n q with
      | .ok s => (true, s)
      | .error (.again t) => (false, t.modCore c fun k => { k with mxTurn := (s.core c).mxTurn })
      | .error (.fail _ s) => (true, s.haltRing c n 5 (some q.step))
      | .error (.kill s) => (true, s.killGang c n)

/-- The rooms that the engine asks before a room: those after the one it served last (R292). -/
def Core.asksBefore (k : Core) (n : Nat) : List Nat := ((List.range 15).map fun i => (k.mxTurn + 1 + i) % 16).takeWhile (· ≠ n)

/-- MX_KBLOCK (R291, R292): the turn of the next room that has a runnable record, rooms taken in ascending number and round-robin. -/
def State.mxKblock (s : State) (c n : Nat) : State :=
  if ((s.core c).asksBefore n).any fun m => (s.mxTry c m).1 then s else (s.mxTry c n).2

/-- MX_RECORD_FETCH. -/
def execMxRecordFetch (core room : Nat) (s : State) : Host.Outcome State Fault Refusal := .next (s.mxFetch core room)
/-- MX_RECORD_START. -/
def execMxRecordStart (core room : Nat) (s : State) : Host.Outcome State Fault Refusal := .next (s.mxStart core room)
/-- MX_KBLOCK. -/
def execMxKblock (core room : Nat) (s : State) : Host.Outcome State Fault Refusal := .next (s.mxKblock core room)

/-! ### The instructions (R289, R290, R294) -/

/-- An operand of an instruction that acts once: a uniform or an immediate. -/
def Ctx.count (c : Ctx) (a : Src) : KReg := c.ksrc a

/-- MXR (R343). -/
def Ctx.mxr (c : Ctx) (n size : Nat) : End := .trap { cause := 0x22, lanes := bitOf c.first, d := BitVec.ofNat 64 n, a := BitVec.ofNat 64 size }

/-- `mxq` of a records (R290): it waits for free slots. -/
def Ctx.queueRecords (c : Ctx) (s : State) (d : BitVec 8) (a : Nat) : Act State :=
  let r := (s.room c.core c.room).ring
  if r.size < (r.qcnt - r.dcnt).toNat + a then stop (.wait { kind := 9, value := BitVec.ofNat 64 a }) s
  else
    let q := r.qcnt + BitVec.ofNat 32 a
    .ok (c.setK (s.modRing c.core c.room fun r => { r with qcnt := q }) d (q.setWidth 64))

/-- `mxq` (R290). -/
def execMxq (x : Ctl) (d : BitVec 8) (a : Src) (s : State) : Host.Outcome State Fault Refusal :=
  run (.mxq x d a) s fun c s =>
    match lowest c.act with
    | none => .ok s
    | some l => do
      c.guard s (bitOf l) (.k 0 d.toNat :: srcNeed 1 1 a)
      let v := c.count a
      let size := (s.room c.core c.room).ring.size
      let n := v.data.toNat
      if v.poison then stop .kill s
      else if size = 0 || n = 0 || size < n then stop (c.mxr n size) s
      else do
        let s ← c.releaseNow s .group
        c.queueRecords s d n

/-- `mxrun 0` (R290): the halted record is run again. -/
def execMxrunResume (x : Ctl) (s : State) : Host.Outcome State Fault Refusal :=
  run (.mxrunResume x) s fun c s =>
    if c.act = 0 then .ok s
    else do
      let s ← c.releaseNow s .group
      if !(s.room c.core c.room).ring.halt then return s
      else return s.modRing c.core c.room fun r => { r with halt := false, how := .resume }

/-- `mxrun 1` (R290): the halted record is skipped. -/
def execMxrunSkip (x : Ctl) (s : State) : Host.Outcome State Fault Refusal :=
  run (.mxrunSkip x) s fun c s =>
    if c.act = 0 then .ok s
    else do
      let s ← c.releaseNow s .group
      let r := (s.room c.core c.room).ring
      if !r.halt then return s
      else return (s.setStatus c.core c.room r.dcnt.toNat 6).modRing c.core c.room fun r => { r with halt := false, dcnt := r.dcnt + 1 }

/-- `mxrun 2` (R290): every queued record from the halted one is cancelled. -/
def execMxrunAbort (x : Ctl) (s : State) : Host.Outcome State Fault Refusal :=
  run (.mxrunAbort x) s fun c s =>
    if c.act = 0 then .ok s
    else do
      let s ← c.releaseNow s .group
      let r := (s.room c.core c.room).ring
      if !r.halt then return s
      else
        let s := (List.range (r.qcnt - r.dcnt).toNat).foldl (fun s i =>
          s.setStatus c.core c.room (r.dcnt + BitVec.ofNat 32 i).toNat 7) s
        return s.modRing c.core c.room fun r => { r with halt := false, dcnt := r.qcnt }

/-- `mxcfg` of a base and 2^e slots, once the ring is idle (R290). -/
def Ctx.configure (c : Ctx) (s : State) (a e : Nat) : Act State :=
  let r := (s.room c.core c.room).ring
  if r.qcnt ≠ r.dcnt || r.halt then stop (.wait { kind := 9, value := BitVec.ofNat 64 a }) s
  else .ok (s.modRing c.core c.room fun r => { r with base := a, size := 2 ^ e, held := [] })

/-- `mxcfg` (R290): the base's faults are met before the wait. -/
def execMxcfg (x : Ctl) (a : BitVec 8) (e : BitVec 8) (s : State) : Host.Outcome State Fault Refusal :=
  run (.mxcfg x a e) s fun c s =>
    match lowest c.act with
    | none => .ok s
    | some l => do
      c.guard s (bitOf l) [.k 1 a.toNat]
      let v := c.kreg a.toNat
      if v.poison then stop .kill s
      else do
        let _ ← c.range s .scratch .read l (v.data.toNat % 2 ^ 32) (64 * 2 ^ e.toNat) 64
        c.configure s (v.data.toNat % 2 ^ 32) e.toNat

/-- Whether a sequence number is reached (R290). -/
def reached (dcnt a : W32) : Bool := (dcnt - a).toNat < 2 ^ 31

/-- `mxwait` for a record count (R290): the value, MXH at a halt, or a wait. -/
def Ctx.waitRecords (c : Ctx) (s : State) (d : BitVec 8) (a : W32) : Act State :=
  let r := (s.room c.core c.room).ring
  if reached r.dcnt a then .ok (c.setK s d (r.dcnt.setWidth 64))
  else if r.halt then
    let st := ((s.spRead c.core c.room (r.addr r.dcnt.toNat + 2) 1).1.headD 0).toNat / 16
    stop (.trap { cause := 0x23, lanes := bitOf c.first, d := BitVec.ofNat 64 st, imm := some (r.dcnt.setWidth 64) }) s
  else stop (.wait { kind := 9, value := a.setWidth 64 }) s

/-- `mxwait` (R290). -/
def execMxwait (x : Ctl) (d : BitVec 8) (a : Src) (s : State) : Host.Outcome State Fault Refusal :=
  run (.mxwait x d a) s fun c s =>
    match lowest c.act with
    | none => .ok s
    | some l => do
      c.guard s (bitOf l) (.k 0 d.toNat :: srcNeed 1 1 a)
      let v := c.count a
      if v.poison then stop .kill s else c.waitRecords s d (v.data.setWidth 32)

/-- The cores that hold members of a group's gang. -/
def State.gangCores (s : State) (g : Group) : List Nat := ((s.members g.launch g.gang).map (·.1)).eraseDups

/-- `mxcb` of codebook j (R294): it waits while another gang holds the codebook on a core of its gang. -/
def Ctx.loadBook (c : Ctx) (s : State) (l : Nat) (sp : Bool) (j addr : Nat) : Act State :=
  let holder := (c.g.launch, c.g.gang)
  let cores := s.gangCores c.g
  let busy := cores.any fun k => match (at_ ({} : Codebook) (s.core k).books j).holder with
    | some h => h ≠ holder
    | none => false
  if busy then stop (.wait { kind := 10, addr := BitVec.ofNat 64 addr, value := BitVec.ofNat 64 j }) s
  else do
    let ps ← c.range s (if sp then .scratch else .glob) .read l addr 32 2
    let s ← c.observe s none ps 2 (some (BitVec.ofNat 64 addr))
    let r := c.readRange s ps 2
    return cores.foldl (fun s k => s.modCore k fun k => { k with books := k.books.set j { holder := some holder, bytes := r.1, poison := r.2 } }) s

/-- `mxcb` (R294). -/
def execMxcb (x : Ctl) (a : BitVec 8) (sp : Bool) (j : BitVec 3) (s : State) : Host.Outcome State Fault Refusal :=
  run (.mxcb x a sp j) s fun c s =>
    match lowest c.act with
    | none => .ok s
    | some l => do
      c.guard s (bitOf l) [.k 1 a.toNat]
      let v := c.kreg a.toNat
      if v.poison then stop .kill s
      else c.loadBook s l sp j.toNat (if sp then v.data.toNat % 2 ^ 32 else v.data.toNat)

/-- ENGINE_WAIT_END: a blocked `mxq`, `mxcfg`, `mxwait` or `mxcb` goes on (R290, R294). -/
def engineWaitEnd (r : SplitRef) (s : State) : State :=
  resume r s [9, 10] fun c i b s =>
    match i with
    | .mxq _ d _ => c.queueRecords s d b.value.toNat
    | .mxcfg _ _ e => c.configure s b.value.toNat e.toNat
    | .mxwait _ d _ => c.waitRecords s d (b.value.setWidth 32)
    | .mxcb _ _ sp j => c.loadBook s c.first sp j.toNat b.addr.toNat
    | _ => stop .again s

/-- ENGINE_WAIT_END. -/
def execEngineWaitEnd (r : SplitRef) (s : State) : Host.Outcome State Fault Refusal := .next (engineWaitEnd r s)

end Sys2Proof.Machine
end

