-- ==== Sys2Proof/Machine/MapSlot.lean ====
section
/-! DEFINITION. Map slots: descriptors, binding, loading and storing matrices (opcodes 0xC5 to 0xC9, R55, R56, R295 to R297). -/

namespace Sys2Proof.Machine

/-- SLOTD (R296, R343). -/
def slotD (l : Nat) (h : BitVec 2) : End := .trap { cause := 0x2A, lanes := bitOf l, d := h.setWidth 64 }
/-- SLOTU (R296, R343). -/
def slotU (l : Nat) (h : BitVec 2) : End := .trap { cause := 0x28, lanes := bitOf l, d := h.setWidth 64 }

/-- Whether a descriptor has no reserved field or value, and an INFMT that suits its KIND (R295). -/
def descOk (d : BitVec 128) : Bool :=
  let x := d.toNat
  let kind := descKind d
  let inf := descInfmt d
  field x 3 0 = 0 && field x 63 16 = 0 && field x 14 12 ≠ 7 && descMfmt d ≠ 3 &&
  (match kind with
    | 0 => inf ≤ 1
    | 1 => 2 ≤ inf && inf ≤ 4
    | 2 => 5 ≤ inf && inf ≤ 7
    | _ => false)

/-- The lowest free slot of a core (R296). -/
def State.freeSlot (s : State) (c : Nat) : Option Nat :=
  let used := (s.core c).rooms.flatMap fun r => match r.group with
    | some g => g.handles.filterMap fun h => h.map (·.slot)
    | none => []
  (List.range 16).find? fun m => !used.contains m

/-- A whole matrix written into a slot (R56, R296). -/
def State.loadSlot (s : State) (c : Nat) (o : Option Nat) (m : Nat) (bs : List Byte) (poison : Bool) : State :=
  s.modCore c fun k =>
    let t := k.slots.write slotGrain o (m * 4096) bs poison
    { k with slots := if poison then t else { t with poison := setErase t.poison m } }

/-- The space that `.sp` selects, and an address there (R256, R296). -/
def slotSpace (sp : Bool) : Space := if sp then .scratch else .glob

/-- A handle's binding. -/
def Ctx.binding (c : Ctx) (s : State) (h : BitVec 2) : Option Binding := (s.group c.core c.room).handles.getD h.toNat none

/-- `mapbind` at a descriptor's address (R296). -/
def Ctx.bind (c : Ctx) (s : State) (l : Nat) (h : BitVec 2) (sp : Bool) (addr : Nat) : Act State := do
  let ps ← c.range s (slotSpace sp) .read l addr 16 16
  let s ← c.observe s none ps 16 (some (BitVec.ofNat 64 addr))
  let r := c.readRange s ps 16
  if r.2 then stop .kill s
  else
    let d : BitVec 128 := BitVec.ofNat 128 (ofBytes r.1)
    let at' : Int := addr + signed 64 (field d.toNat 127 64)
    if !descOk d || at' % descEsize d ≠ 0 then stop (slotD l h) s
    else
      let slot := match c.binding s h with
        | some b => some b.slot
        | none => s.freeSlot c.core
      match slot with
      | none => stop (.wait { kind := 6, addr := BitVec.ofNat 64 addr, value := h.setWidth 64 }) s
      | some m => do
        let a := if sp then (if at' < 0 then 2 ^ 32 else at'.toNat) else (at' % 2 ^ 64).toNat
        let qs ← c.range s (slotSpace sp) .read l a (descBytes d) (descEsize d)
        let s ← c.observe s none qs (descEsize d) (some (BitVec.ofNat 64 addr))
        let q := c.readRange s qs (descEsize d)
        return (s.loadSlot c.core c.owner m q.1 q.2).modGroup c.core c.room fun g =>
          { g with handles := g.handles.set h.toNat (some { slot := m, desc := d }) }

/-- A map-slot instruction on a handle that the kernel has (R296). -/
def slotOp (i : Instr) (s : State) (h : BitVec 2) (needs : List Need) (body : Ctx → State → Nat → Act State) : Host.Outcome State Fault Refusal :=
  run i s fun c s =>
    match lowest c.act with
    | none => .ok s
    | some l => do
      c.guard s (bitOf l) needs
      if c.g.hdr.slots ≤ h.toNat then stop (slotD l h) s else body c s l

/-- The address in a uniform, of the space that `.sp` selects; poison is uncorrectable consumption (R43). -/
def Ctx.slotAddr (c : Ctx) (s : State) (sp : Bool) (a : BitVec 8) : Act Nat :=
  let v := c.kreg a.toNat
  if v.poison then stop .kill s else .ok (if sp then v.data.toNat % 2 ^ 32 else v.data.toNat)

/-- `mapbind` (R296). -/
def execMapbind (x : Ctl) (h : BitVec 2) (a : BitVec 8) (sp : Bool) (s : State) : Host.Outcome State Fault Refusal :=
  slotOp (.mapbind x h a sp) s h [.k 1 a.toNat] fun c s l => do
    let addr ← c.slotAddr s sp a
    c.bind s l h sp addr

/-- `mapld` (R296). -/
def execMapld (x : Ctl) (h : BitVec 2) (a : BitVec 8) (sp : Bool) (s : State) : Host.Outcome State Fault Refusal :=
  slotOp (.mapld x h a sp) s h [.k 1 a.toNat] fun c s l => do
    let addr ← c.slotAddr s sp a
    match c.binding s h with
    | none => stop (slotU l h) s
    | some b => do
      let ps ← c.range s (slotSpace sp) .read l addr (descBytes b.desc) (descEsize b.desc)
      let s ← c.observe s none ps (descEsize b.desc) (some (BitVec.ofNat 64 addr))
      let r := c.readRange s ps (descEsize b.desc)
      return s.loadSlot c.core c.owner b.slot r.1 r.2

/-- `mapst` (R296). -/
def execMapst (x : Ctl) (h : BitVec 2) (a : BitVec 8) (sp : Bool) (s : State) : Host.Outcome State Fault Refusal :=
  slotOp (.mapst x h a sp) s h [.k 1 a.toNat] fun c s l => do
    let addr ← c.slotAddr s sp a
    match c.binding s h with
    | none => stop (slotU l h) s
    | some b => do
      let e := descEsize b.desc
      let ps ← c.range s (slotSpace sp) .write l addr (descBytes b.desc) e
      let r := s.slotBytes c.core c.owner b.slot (descBytes b.desc)
      return s.writePlaces c.die c.owner false (ps.zipIdx.map fun p => (p.1, (r.1.drop (e * p.2)).take e, r.2))

/-- `maprel` (R296). -/
def execMaprel (x : Ctl) (h : BitVec 2) (s : State) : Host.Outcome State Fault Refusal :=
  slotOp (.maprel x h) s h [] fun c s _ =>
    .ok (s.modGroup c.core c.room fun g => { g with handles := g.handles.set h.toNat none })

/-- `mapinfo` (R296). -/
def execMapinfo (x : Ctl) (d : BitVec 8) (h : BitVec 2) (s : State) : Host.Outcome State Fault Refusal :=
  run (.mapinfo x d h) s fun c s =>
    match lowest c.act with
    | none => .ok s
    | some l => do
      c.guard s (bitOf l) [.k 0 d.toNat]
      let v := match c.binding s h with
        | none => 0x00FF0000
        | some b => b.desc.toNat % 2 ^ 16 + b.slot * 2 ^ 16 + 2 ^ 24 +
            (if (s.slotBytes c.core c.owner b.slot 1).2 then 2 ^ 25 else 0)
      return c.writeK s false d { data := BitVec.ofNat 64 v }

/-- BLOCKED_WAIT_END: a blocked `mapbind` or `jsub` goes on (R161, R356). -/
def blockedWaitEnd (r : SplitRef) (s : State) : State :=
  resume r s [6, 7] fun c i b s =>
    match i with
    | .mapbind _ h _ sp => c.bind s c.first h sp b.addr.toNat
    | .jsub _ _ => c.submit s c.first b.addr.toNat
    | _ => stop .again s

/-- BLOCKED_WAIT_END. -/
def execBlockedWaitEnd (r : SplitRef) (s : State) : Host.Outcome State Fault Refusal := .next (blockedWaitEnd r s)

end Sys2Proof.Machine
end

