-- ==== Sys2Proof/Machine/Search.lean ====
section
/-! DEFINITION. Search: regions, the trail's unwinding, choice points, theft and revocation (opcodes 0xD0 to 0xD8, R300 to R321). A search
instruction works on a copy of the state, lane by lane in ascending order; when any lane's check fails, nothing has changed (R310,
R314). -/

namespace Sys2Proof.Machine

/-! ### Choice points (R308) -/

/-- A choice point. -/
structure Choice where
  alts : Nat
  count : Nat
  next : Nat
  tmark : Nat
  resume : Nat
  dreg : Nat
  origin : Nat
  stolen : Bool
  revoked : Bool
  serial : Nat
  thieves : LaneMask
  deriving DecidableEq, Repr

/-- A choice point from its 32 bytes. -/
def Choice.of (bs : List Byte) : Choice :=
  let f := fun (a n : Nat) => ofBytes ((bs.drop a).take n)
  { alts := f 0 8, count := f 8 2, next := f 10 2, tmark := f 12 4, resume := f 16 4, dreg := f 20 1, origin := f 21 1 % 32,
    stolen := tbit (f 21 1) 6, revoked := tbit (f 21 1) 7, serial := f 24 4, thieves := BitVec.ofNat 32 (f 28 4) }

/-- The 32 bytes of a choice point. -/
def Choice.bytes (k : Choice) : List Byte :=
  leBytes 8 k.alts ++ leBytes 2 k.count ++ leBytes 2 k.next ++ leBytes 4 k.tmark ++ leBytes 4 k.resume ++ leBytes 1 k.dreg
    ++ leBytes 1 (k.origin + (if k.stolen then 64 else 0) + (if k.revoked then 128 else 0)) ++ leBytes 2 0 ++ leBytes 4 k.serial
    ++ leBytes 4 k.thieves.toNat

/-- Whether a choice point is untried (R308). -/
def Choice.untried (k : Choice) : Bool := k.next < k.count && !k.revoked

/-- CPBASE of a lane (R302). -/
def SHdr.base (h : SHdr) : Nat := 0x20 + 32 * h.units

/-- Whether a lane holds a choice point (R302). -/
def SHdr.holds (h : SHdr) : Bool := h.base < h.cptop

/-! ### Accesses of one lane -/

/-- An access that cannot be made: who, where, how, and what its check gave. -/
structure Refused where
  lane : Nat
  ea : Int
  kind : AccKind
  space : Space
  check : Check
  deriving DecidableEq, Repr

/-- Why a lane cannot go on: an access that was refused, or poison consumed. -/
inductive LaneStop where
  | access
  | kill
  deriving DecidableEq, Repr

/-- What the lanes of a search instruction met: the accesses refused, and global words that have not come yet, each with its address (R161). -/
structure LaneLog where
  refused : List Refused := []
  late : List (Place × W64) := []
  deriving DecidableEq, Repr

/-- A lane's part of a search instruction: what it met is kept where it stops. -/
abbrev Lane := ExceptT LaneStop (StateM LaneLog)

/-- The work of a search instruction: the state so far, and the lanes whose stacks would meet (R320). -/
structure Work2 where
  s : State
  full : List (Nat × SHdr) := []
  deriving DecidableEq, Repr

/-- The place of a lane's access, once checked; a refused one is noted. -/
def Ctx.tryPlace (c : Ctx) (s : State) (sp : Space) (k : AccKind) (l n : Nat) (ea : Int) : Lane (Option Place) :=
  match s.check (c.accessor k (if sp = .priv then .lanePrivate else .any)) sp c.w.num l n n none ea with
  | .ok p => pure (some p)
  | x => do
    modify fun g => { g with refused := g.refused ++ [⟨l, ea, k, sp, x⟩] }
    return none

/-- Bytes of a lane's satchel with their poison. -/
def Ctx.satRead (c : Ctx) (s : State) (l a n : Nat) : Lane (List Byte × Bool) := do
  match ← c.tryPlace s .priv .read l n a with
  | some p => return s.readPlace c.die c.owner p n
  | none => return (List.replicate n 0, false)

/-- Bytes of a lane's satchel that a search instruction interprets: poison among them is uncorrectable consumption (R307, R374), and without
them the lane does not go on. -/
def Ctx.satClean (c : Ctx) (s : State) (l a n : Nat) : Lane (List Byte) := do
  match ← c.tryPlace s .priv .read l n a with
  | none => throw .access
  | some p =>
    let r := s.readPlace c.die c.owner p n
    if r.2 then throw .kill else return r.1

/-- Bytes written into a lane's satchel. -/
def Ctx.satWrite (c : Ctx) (s : State) (l a : Nat) (bs : List Byte) (poison : Bool := false) : Lane State := do
  match ← c.tryPlace s .priv .write l bs.length a with
  | some p => return s.writePlaces c.die c.owner false [(p, bs, poison)]
  | none => return s

/-- A lane's header (R302). -/
def Ctx.header (c : Ctx) (s : State) (l : Nat) : Lane SHdr := do return SHdr.of (← c.satClean s l 0 32)
/-- A lane's header written. -/
def Ctx.setHeader (c : Ctx) (s : State) (l : Nat) (h : SHdr) : Lane State := c.satWrite s l 0 h.bytes
/-- The choice point at a satchel address. -/
def Ctx.choice (c : Ctx) (s : State) (l a : Nat) : Lane Choice := do return Choice.of (← c.satClean s l a 32)
/-- A choice point written. -/
def Ctx.setChoice (c : Ctx) (s : State) (l a : Nat) (k : Choice) : Lane State := c.satWrite s l a k.bytes

/-- A lane's oldest choice point, if it holds one. -/
def Ctx.oldest (c : Ctx) (s : State) (l : Nat) : Lane (Option Choice) := do
  let h ← c.header s l
  if h.holds then return some (← c.choice s l h.base) else return none

/-- The address of an alternative's word (R308). -/
def altAddr (alts i : Nat) : Nat := (alts + 4 * i) % 2 ^ 64

/-- Alt of R308: the index itself, or the word at ALTS + 4i as the lane's relaxed global load gives it; one that has not come yet is noted. -/
def Ctx.alt (c : Ctx) (s : State) (l alts i : Nat) : Lane (State × LaneWord) := do
  if alts = 0 then return (s, { data := BitVec.ofNat 32 i })
  else
    match ← c.tryPlace s .glob .read l 4 (altAddr alts i) with
    | none => return (s, {})
    | some p =>
      match s.fetchBytes (fun _ => c.die) (.split c.ref) c.g.owner (memBytes [p]) with
      | (.ready, s) =>
        let r := s.readPlace c.die c.owner p 4
        return (s.mergeAll c.die (s.stampsOf c.die [p] 4), LaneWord.of (BitVec.ofNat 32 (ofBytes r.1)) r.2)
      | _ =>
        modify fun g => { g with late := g.late ++ [(p, BitVec.ofNat 64 (altAddr alts i))] }
        return (s, {})

/-- Whether a register is trailed (R305). -/
def Ctx.trailed (c : Ctx) (n : Nat) : Bool := c.g.hdr.trailbase ≤ n && n ≤ c.g.hdr.trailtop

/-- WriteLane of R314: the entry of a trailed register is recorded, then the register is written (R305). -/
def Ctx.putLane (c : Ctx) (w : Work2) (l n : Nat) (x : LaneWord) : Lane Work2 := do
  if !c.trailed n then return { w with s := w.s.setVreg c.core c.slot n l x }
  else
    let h ← c.header w.s l
    if h.trtop < h.cptop + 16 then return { w with full := w.full ++ [(l, h)] }
    else
      let old := w.s.vreg c.core c.slot n l
      let s ← c.satWrite w.s l (h.trtop - 16) (trailEntry 0 false n (old.data.toNat + if old.poison then 2 ^ 32 else 0))
      let s ← c.setHeader s l { h with trtop := h.trtop - 16 }
      return { w with s := s.setVreg c.core c.slot n l x }

/-! ### Unwinding, discarding and backtracking (R307, R315) -/

/-- The entries of a trail from one position up to another applied to a lane, newest first (R307). -/
def Ctx.applyTrail (c : Ctx) (fuel : Nat) (s : State) (l top m : Nat) : Lane State :=
  match fuel with
  | 0 => pure s
  | fuel + 1 =>
    if m ≤ top then pure s
    else do
      let bs ← c.satClean s l top 16
      let lo := ofBytes (bs.take 8)
      let old := bs.drop 8
      let kind := lo % 4
      let s ←
        if kind = 0 then
          pure (s.setVreg c.core c.slot (lo / 8) l (LaneWord.of (BitVec.ofNat 32 (ofBytes (old.take 4))) (tbit (ofBytes old) 32)))
        else if kind = 3 then pure s
        else c.satWrite s l (lo / 8) (old.take (4 * kind)) (tbit lo 2)
      c.applyTrail fuel s l (top + 16) m

/-- Unwind of R307: TRTOP moves to the mark. -/
def Ctx.unwind (c : Ctx) (s : State) (l m : Nat) : Lane State := do
  let h ← c.header s l
  let s ← c.applyTrail (m / 16 + 1) s l h.trtop m
  c.setHeader s l { h with trtop := max h.trtop m }

/-- A choice point's thieves revoked: those whose derived choice point, always their oldest, names it (R315, R318). -/
def Ctx.revoke (c : Ctx) (s : State) (l : Nat) (d : Choice) : Lane State :=
  (lanesOf d.thieves).foldlM (fun s t => do
    let h ← c.header s t
    match ← c.oldest s t with
    | some k =>
      if k.stolen && k.origin = l && k.serial = d.serial then c.setChoice s t h.base { k with revoked := true } else return s
    | none => return s) s

/-- Discard of R315: choice points of a lane from the newest down while `p` holds, their thieves revoked; an emptied stack empties the
trail. -/
def Ctx.discard (c : Ctx) (fuel : Nat) (s : State) (l : Nat) (p : Choice → Bool) : Lane State :=
  match fuel with
  | 0 => pure s
  | fuel + 1 => do
    let h ← c.header s l
    if !h.holds then return s
    else
      let d ← c.choice s l (h.cptop - 32)
      if !p d then return s
      else
        let s ← c.revoke s l d
        let h ← c.header s l
        let top := h.cptop - 32
        let s ← c.setHeader s l { h with cptop := top, trtop := if top = h.base then c.g.hdr.satchel else h.trtop }
        c.discard fuel s l p

/-- The loop of Backtrack (R315). -/
def Ctx.backtrackLoop (c : Ctx) (fuel : Nat) (w : Work2) (l : Nat) : Lane (Work2 × W64) := do
  let h ← c.header w.s l
  let exh := c.w.satchel &&& 0xFFFFFFFC
  match fuel, h.holds with
  | fuel + 1, true =>
    let a := h.cptop - 32
    let k ← c.choice w.s l a
    let s ← c.unwind w.s l k.tmark
    if k.untried then
      let (s, x) ← c.alt s l k.alts k.next
      let s ← c.setChoice s l a { k with next := k.next + 1 }
      let w ← c.putLane { w with s := s } l k.dreg x
      return (w, BitVec.ofNat 64 k.resume)
    else
      let h ← c.header s l
      let s ← c.setHeader s l { h with cptop := a }
      c.backtrackLoop fuel { w with s := s } l
  | _, _ =>
    let s ← c.setHeader w.s l { h with trtop := c.g.hdr.satchel, exhausted := true }
    return ({ w with s := s }, exh)

/-- The most choice points that a satchel can hold. -/
def Ctx.depth (c : Ctx) : Nat := c.g.hdr.satchel / 32 + 1

/-- Backtrack of R315: a lane that holds a revoked choice point, always its oldest, first fails its whole stolen subtree (R319). -/
def Ctx.backtrack (c : Ctx) (w : Work2) (l : Nat) : Lane (Work2 × W64) := do
  match ← c.oldest w.s l with
  | some r =>
    if r.revoked then
      let s ← c.unwind w.s l r.tmark
      let s ← c.discard c.depth s l fun _ => true
      c.backtrackLoop c.depth { w with s := s } l
    else c.backtrackLoop c.depth w l
  | none => c.backtrackLoop c.depth w l

/-! ### What every search instruction does (R310, R311, R320) -/

/-- The fault of refused accesses, in the order of R257 over all of them: walks first asked for, and host translations. -/
def Ctx.refuse {α : Type} (c : Ctx) (s : State) (rs : List Refused) : Act α :=
  let rank := fun (r : Refused) => match r.check with
    | .bad k _ _ _ _ _ => some k
    | _ => none
  let best := (rs.filterMap rank).foldl min 1000000
  let ask := fun (s : State) (r : Refused) =>
    s.askAllWalks (c.accessor r.kind (if r.space = .priv then .lanePrivate else .any)).wanted c.g.lrec.asid [(r.lane, r.ea, r.check)]
  let trap := (rs.find? fun r => rank r = some best).bind fun r => firstFault r.kind r.space [(r.lane, r.ea, r.check)]
  let ends : Act α := match trap with
    | some t =>
      let same := maskOf fun l => rs.any fun r => r.lane = l && (match r.check with
        | .bad _ q d _ _ _ => q = t.cause && d = t.detail
        | _ => false)
      let sp := ((rs.find? fun r => rank r = some best).map (·.space)).getD .priv
      stop (.trap { c.pagerVa sp t with lanes := same }) s
    | none =>
      let s := rs.foldl ask s
      match rs.find? fun r => match r.check with
        | .ats _ _ _ => true
        | _ => false with
      | some r => c.remoteWait s (BitVec.ofInt 64 r.ea)
      | none => stop .again s
  if best < 100 then ends
  else if rs.any fun r => match r.check with
      | .miss _ => true
      | _ => false then
    stop .again (rs.foldl ask s)
  else if rs.any fun r => r.check = .poison then stop .kill s
  else ends

/-- The lanes of a search instruction run in ascending order on one work state: a lane that stops takes no part in what follows, `pre` being the
accesses that it makes in any case. The instruction takes effect only when no access was refused, poison was consumed by none, no two stacks
met, and every alternative has come (R161, R314, R320); otherwise it leaves `s0`. -/
def Ctx.perLane (c : Ctx) (s0 s : State) (f : Work2 → Nat → Lane (Work2 × W64)) (pre : Nat → Lane Unit := fun _ => pure ()) :
    Act (State × List (Nat × W64)) :=
  let r := (lanesOf c.act).foldl (fun (r : Work2 × List (Nat × W64) × Bool × LaneLog) l =>
    match (f r.1 l).run r.2.2.2 with
    | (.ok (w, pc), g) => (w, r.2.1 ++ [(l, pc)], r.2.2.1, g)
    | (.error e, g) => (r.1, r.2.1, r.2.2.1 || e = .kill, ((pre l).run g).2)) (({ s := s } : Work2), [], false, {})
  if !r.2.2.2.refused.isEmpty then c.refuse s0 r.2.2.2.refused
  else if r.2.2.1 then stop .kill s0
  else if !r.1.full.isEmpty then stop (.trap (sovf r.1.full)) s0
  else
    match r.2.2.2.late with
    | [] => .ok (r.1.s, r.2.1)
    | (p, a) :: ps => do
      let s ← c.observe s0 none (p :: ps.map (·.1)) 4 (some a)
      stop .again s

/-- The lanes go to their next PCs: no JOIN is pushed, RA and PEND stay (R310). -/
def Ctx.scatter (c : Ctx) (s0 s : State) (pcs : List (Nat × W64)) : Act State :=
  let f := fun (l : Nat) => ((pcs.find? fun p => p.1 = l).map (·.2)).getD 0
  match (s.warp c.core c.slot).diverge c.sp (pathsOf c.x.mask f) false c.x.pc with
  | .error e => stop (.trap (divideTrap c e)) s0
  | .ok w => stop .moved (s.setWarp c.core c.slot w)

/-- SRCH details 2 and 1 (R320). -/
def Ctx.searchEnter (c : Ctx) (s : State) : Act Unit :=
  let out := c.x.mask &&& ~~~c.w.rmask
  if !tbit c.g.hdr.flags 1 then c.srch s 2 c.x.mask
  else if c.w.handler || !c.w.regionOpen then c.srch s 1 c.x.mask
  else if out ≠ 0 then c.srch s 1 out
  else .ok ()

/-- SRCH details 2, 1, 7, 5 and 4 in that order (R311, R320), and the lanes' headers, of those that can be read: `big` are the lanes of detail 5,
`out` says whether a lane is one of detail 4. Walks for headers come first. -/
def Ctx.searchCheck (c : Ctx) (s : State) (big : LaneMask := 0) (out : Nat → Option SHdr → Bool := fun _ _ => false) :
    Act (List (Nat × SHdr)) := do
  c.searchEnter s
  let rs := (lanesOf c.x.mask).map fun l => (l, (c.header s l).run {})
  let waits := (rs.flatMap fun r => r.2.2.refused).filter fun r => match r.check with
    | .miss _ | .ats _ _ _ => true
    | _ => false
  if !waits.isEmpty then c.refuse s waits
  else
    let hs := rs.filterMap fun r => match r.2.1 with
      | .ok h => some (r.1, h)
      | .error _ => none
    let bad := maskOf fun l => hs.any fun h => h.1 = l && at_ 0 c.w.nest l ≠ h.2.level
    let away := maskOf fun l => lane c.act l && out l ((hs.find? fun h => h.1 = l).map (·.2))
    if bad ≠ 0 then c.srch s 7 bad
    else if big ≠ 0 then c.srch s 5 big
    else if away ≠ 0 then c.srch s 4 away
    else return hs

/-! ### The instructions -/

/-- `srchbeg` (R312). -/
def execSrchbeg (x : Ctl) (u : BitVec 8) (off : BitVec 24) (s : State) : Host.Outcome State Fault Refusal :=
  run (.srchbeg x u off) s fun c s =>
    let sb := c.g.hdr.satchel
    let base := 0x20 + 32 * u.toNat
    let hot := maskOf fun l => lane c.x.mask l && at_ 0 c.w.nest l = 255
    if !tbit c.g.hdr.flags 1 then c.srch s 2 c.x.mask
    else if c.w.handler || c.w.regionOpen then c.srch s 1 c.x.mask
    else
      match c.x.pend with
      | none => c.srch s 3 c.x.mask
      | some pend =>
        if sb < base + 48 then c.srch s 3 c.x.mask
        else if hot ≠ 0 then stop (.trap (divideTrap c (.nest hot))) s
        else if 4096 < c.w.stack.length + 1 then stop (.trap (divideTrap c .rsovf)) s
        else do
          let n := c.w.nestOf c.x.mask + 1
          let h : SHdr := { cptop := base, trtop := sb, serial := 1, units := u.toNat, level := n, exhausted := false, thefts := 0, given := 0 }
          let r ← c.perLane s s fun w l => do return ({ w with s := ← c.setHeader w.s l h }, c.after)
          let exh := (c.x.pc + off.signExtend 64 * 4).toNat % 2 ^ 32
          return r.1.modWarp c.core c.slot fun w => { w with
            stack := { join := true, pc := pend, mask := c.x.mask, arrived := 0, ra := c.x.ra, nest := n } :: w.stack
            nest := nestMap w.nest c.x.mask (· + 1)
            splits := modifyAt w.splits c.sp (Option.map fun y => { y with ra := some pend, pend := none })
            satchel := BitVec.ofNat 64 (c.x.mask.toNat * 2 ^ 32 + exh / 4 * 4 + 1) }

/-- `srchend` (R313). -/
def execSrchend (x : Ctl) (s : State) : Host.Outcome State Fault Refusal :=
  run (.srchend x) s fun c s => do
    c.searchEnter s
    if c.x.mask ≠ c.w.rmask then c.srch s 1 c.x.mask
    else return s.modWarp c.core c.slot fun w => { w with satchel := w.satchel &&& 0xFFFFFFFC }

/-- One lane of `trye` (R314). -/
def Ctx.tryLane (c : Ctx) (d : Dst) (alts count : Nat) (w : Work2) (l : Nat) : Lane (Work2 × W64) := do
  let o ← c.oldest w.s l
  if count = 0 || (o.map (·.revoked)).getD false then c.backtrack w l
  else
    let h ← c.header w.s l
    let dreg := (c.number d.n.toNat d.ix l).toNat
    let (s, x) ← c.alt w.s l alts 0
    if h.trtop < h.cptop + 32 + (if c.trailed dreg then 16 else 0) then return ({ w with full := w.full ++ [(l, h)] }, c.after)
    else
      let s ← c.setChoice s l h.cptop
        { alts := alts, count := count, next := 1, tmark := h.trtop, resume := c.after.toNat % 2 ^ 32, dreg := dreg, origin := l,
          stolen := false, revoked := false, serial := h.serial, thieves := 0 }
      let s ← c.setHeader s l { h with serial := (h.serial + 1) % 2 ^ 32, cptop := h.cptop + 32, exhausted := false }
      return (← c.putLane { w with s := s } l dreg x, c.after)

/-- The alternative that a lane whose `trye` pushes a choice point hands out first, as an access (R314, R320). -/
def Ctx.firstAlt (c : Ctx) (s : State) (l alts count : Nat) : Lane Unit := do
  if alts = 0 || count = 0 then return ()
  else
    let _ ← c.tryPlace s .glob .read l 4 (altAddr alts 0)
    return ()

/-- `trye` (R314). -/
def execTrye (x : Ctl) (d : Dst) (a b : Src) (s : State) : Host.Outcome State Fault Refusal :=
  run (.trye x d a b) s fun c s => do
    c.guard s c.act (dstNeed 1 d ++ srcNeed 1 2 a ++ srcNeed 2 1 b)
    let alts := c.wvec s c.act a
    let cnt := c.vec s c.act b .i32
    c.searchEnter s
    if (lanesOf c.act).any fun l => (at_ {} alts l).poison || (at_ {} cnt l).poison then stop .kill s
    else
      let _ ← c.searchCheck s (maskOf fun l => lane c.act l && 65535 < (at_ {} cnt l).data.toNat)
      let r ← c.perLane s s (fun w l => c.tryLane d (at_ {} alts l).data.toNat (at_ {} cnt l).data.toNat w l) fun l =>
        c.firstAlt s l (at_ {} alts l).data.toNat (at_ {} cnt l).data.toNat
      c.scatter s r.1 r.2

/-- `fail` (R315). -/
def execFail (x : Ctl) (s : State) : Host.Outcome State Fault Refusal :=
  run (.fail x) s fun c s => do
    let _ ← c.searchCheck s
    let r ← c.perLane s s fun w l => c.backtrack w l
    c.scatter s r.1 r.2

/-- `cut` (R316). -/
def execCut (x : Ctl) (a : Src) (s : State) : Host.Outcome State Fault Refusal :=
  run (.cut x a) s fun c s => do
    c.guard s c.act (srcNeed 1 1 a)
    let mark := c.vec s c.act a .i32
    c.searchEnter s
    if (lanesOf c.act).any fun l => (at_ {} mark l).poison then stop .kill s
    else
      let _ ← c.searchCheck s
      let r ← c.perLane s s fun w l => do
        let s ← c.discard c.depth w.s l fun k => (at_ {} mark l).data.toNat ≤ k.serial
        return ({ w with s := s }, c.after)
      return r.1

/-- `cpmark` (R316). -/
def execCpmark (x : Ctl) (d : Dst) (s : State) : Host.Outcome State Fault Refusal :=
  run (.cpmark x d) s fun c s => do
    c.guard s c.act (dstNeed 1 d)
    let _ ← c.searchCheck s
    let r ← c.perLane s s fun w l => do
      let h ← c.header w.s l
      let w ← c.putLane w l (c.number d.n.toNat d.ix l).toNat { data := BitVec.ofNat 32 h.serial }
      return (w, c.after)
    return r.1

/-- `cpchk` (R316, R319). -/
def execCpchk (x : Ctl) (d : Dst) (s : State) : Host.Outcome State Fault Refusal :=
  run (.cpchk x d) s fun c s => do
    c.guard s c.act (dstNeed 1 d)
    let _ ← c.searchCheck s
    let r ← c.perLane s s fun w l => do
      let o ← c.oldest w.s l
      if (o.map (·.revoked)).getD false then c.backtrack w l
      else
        let h ← c.header w.s l
        let w ← c.putLane w l (c.number d.n.toNat d.ix l).toNat { data := BitVec.ofNat 32 ((h.cptop - h.base) / 32) }
        return (w, c.after)
    c.scatter s r.1 r.2

/-- One lane of `trst` (R317): the old bytes are recorded, then the new ones stored. -/
def Ctx.storeTrailed (c : Ctx) (n : Nat) (data : List LaneWord) (ea : Int) (w : Work2) (l : Nat) : Lane Work2 := do
  let a := ea.toNat
  let _ ← c.tryPlace w.s .priv .write l n ea
  let old ← c.satRead w.s l a n
  let h ← c.header w.s l
  if h.trtop < h.cptop + 16 then return { w with full := w.full ++ [(l, h)] }
  else
    let s ← c.satWrite w.s l (h.trtop - 16) (trailEntry (n / 4) old.2 a (if old.2 then 0 else ofBytes old.1))
    let s ← c.setHeader s l { h with trtop := h.trtop - 16 }
    let s ← c.satWrite s l a (leBytes n (data.foldr (fun (w : LaneWord) (acc : Nat) => w.data.toNat + 2 ^ 32 * acc) 0)) (data.any (·.poison))
    return { w with s := s }

/-- `trst` (R317). -/
def execTrst (x : Ctl) (b64 : Bool) (d : Dst) (a b : Src) (s : State) : Host.Outcome State Fault Refusal :=
  run (.trst x b64 d a b) s fun c s => do
    let k := if b64 then 2 else 1
    c.guard s c.act (dstNeed k d ++ srcNeed 1 1 a ++ srcNeed 2 1 b)
    let va := c.vec s c.act a .i32
    let vb : List KReg := match b with
      | .k n => List.replicate 32 (c.kreg n.toNat)
      | b => (c.vec s c.act b .i32).map fun (w : LaneWord) => { data := w.data.signExtend 64, poison := w.poison }
    c.searchEnter s
    if (lanesOf c.act).any fun l => (at_ {} va l).poison || (at_ {} vb l).poison then stop .kill s
    else
      let ea := fun (l : Nat) => ((at_ {} va l).data.toNat : Int) + (at_ {} vb l).data.toInt
      let _ ← c.searchCheck s 0 fun l h => !(0x20 ≤ ea l && ea l + 4 * k ≤ (h.map (·.base)).getD c.g.hdr.satchel)
      let r ← c.perLane s s fun w l => do
        let ws := (List.range k).map fun i => c.vlane s ((c.number d.n.toNat d.ix l).toNat + i) l
        return (← c.storeTrailed (4 * k) ws (ea l) w l, c.after)
      return r.1

/-! ### Theft (R318) -/

/-- The satchel address of a lane's oldest untried choice point. -/
def Ctx.oldestUntried (c : Ctx) (fuel : Nat) (s : State) (l a top : Nat) : Lane (Option (Nat × Choice)) :=
  match fuel with
  | 0 => pure none
  | fuel + 1 =>
    if top ≤ a then pure none
    else do
      let k ← c.choice s l a
      if k.untried then return some (a, k) else c.oldestUntried fuel s l (a + 32) top

/-- A lane's oldest untried choice point. -/
def Ctx.stealable (c : Ctx) (s : State) (l : Nat) : Lane (Option (Nat × Choice)) := do
  let h ← c.header s l
  c.oldestUntried c.depth s l h.base h.cptop

/-- The victim of a thief: the first of the lanes that follow it, in RMASK, with an untried choice point. -/
def Ctx.victim (c : Ctx) (s : State) (vs : List Nat) : Lane (Option (Nat × Nat × Choice)) :=
  match vs with
  | [] => pure none
  | v :: r =>
    if lane c.w.rmask v then do
      match ← c.stealable s v with
      | some (a, k) => return some (v, a, k)
      | none => c.victim s r
    else c.victim s r

/-- Every satchel word from 0x20 on copied from one lane to another, with its poison. -/
def Ctx.copySatchel (c : Ctx) (s : State) (v t : Nat) : Lane State :=
  ((List.range (c.g.hdr.satchel / 4)).drop 8).foldlM (fun s k => do
    let r ← c.satRead s v (4 * k) 4
    c.satWrite s t (4 * k) r.1 r.2) s

/-- One theft (R318): thief t takes the next alternative of choice point k, at address a of lane v. -/
def Ctx.theft (c : Ctx) (w : Work2) (t v a : Nat) (k : Choice) : Lane (Work2 × W64) := do
  let sb := c.g.hdr.satchel
  let (s, x) ← c.alt w.s t k.alts k.next
  let hv ← c.header s v
  let ht ← c.header s t
  let s := (List.range c.g.hdr.allot).foldl (fun s n => s.setVreg c.core c.slot n t (s.vreg c.core c.slot n v)) s
  let s := s.modWarp c.core c.slot fun w => { w with ix := w.ix.set t (at_ 0 w.ix v) }
  let s ← c.copySatchel s v t
  let s ← c.applyTrail (k.tmark / 16 + 1) s t hv.trtop k.tmark
  let s ← c.setHeader s t { ht with cptop := ht.base + 32, trtop := sb - 16, serial := hv.serial, exhausted := false,
                                    thefts := (ht.thefts + 1) % 2 ^ 32 }
  let s ← c.setChoice s t ht.base { k with next := k.count, stolen := true, revoked := false, origin := v, thieves := 0, tmark := sb - 16 }
  let s ← c.satWrite s t (sb - 16) (trailEntry 3 false 0 (v + k.serial * 2 ^ 32))
  let s ← c.setChoice s v a { k with next := k.next + 1, thieves := k.thieves ||| bitOf t }
  let s ← c.setHeader s v { hv with given := (hv.given + 1) % 2 ^ 32 }
  let w ← c.putLane { w with s := s } t k.dreg x
  return (w, BitVec.ofNat 64 k.resume)

/-- Whether a lane has arrived at the region's join (R149, R318). -/
def Warp.arrivedAt (w : Warp) (level l : Nat) : Bool := w.stack.any fun e => e.join && e.nest = level && lane e.arrived l

/-- Whether some lane of RMASK holds an untried choice point, or is neither EXHAUSTED nor arrived at the region's join (R318). -/
def Ctx.working (c : Ctx) (s : State) (ls : List Nat) : Lane Bool :=
  match ls with
  | [] => pure false
  | l :: r => do
    let h ← c.header s l
    let k ← c.stealable s l
    if k.isSome || (!h.exhausted && !c.w.arrivedAt h.level l) then return true else c.working s r

/-- One lane of `steal`: its theft, or none. -/
def Ctx.stealLane (c : Ctx) (w : Work2) (t : Nat) : Lane (Work2 × Option W64) := do
  let h ← c.header w.s t
  if h.holds then return (w, none)
  else
    match ← c.victim w.s ((List.range 31).map fun j => (t + 1 + j) % 32) with
    | some (v, a, k) =>
      let r ← c.theft w t v a k
      return (r.1, some r.2)
    | none => return (w, none)

/-- `steal` (R318): thefts in ascending lane order, then the answer for every lane that stole nothing. -/
def execSteal (x : Ctl) (d : Dst) (s : State) : Host.Outcome State Fault Refusal :=
  run (.steal x d) s fun c s => do
    c.guard s c.act (dstNeed 1 d)
    let _ ← c.searchCheck s
    -- 0xFFFFFFFFFFFFFFFF stands for a lane that stole nothing
    let r ← c.perLane s s fun w l => do
      let q ← c.stealLane w l
      return (q.1, q.2.getD (-1))
    let idle := r.2.filter fun p => p.2 = -1
    let q ← ({ c with act := maskOf fun l => idle.any fun p => p.1 = l }).perLane s r.1 fun w l => do
      let yes ← c.working w.s (lanesOf c.w.rmask)
      let w ← c.putLane w l (c.number d.n.toNat d.ix l).toNat { data := if yes then 1 else 0 }
      return (w, c.after)
    c.scatter s q.1 (r.2.map fun p => if p.2 = -1 then (p.1, c.after) else p)

end Sys2Proof.Machine
end

