-- ==== Sys2Proof/Machine/Upkeep.lean ====
section
/-! DEFINITION. TIMER (R350), storage errors (R44, R51, R54, R56, R62), bandwidth buckets (R64 to R66), key slots (R36), translation
changes (R139 to R143), window holds and the debugger's stops, steps and writes (R131, R132, R226, R360 to R362), and privileged
accesses (R17, R18, R21, R38). -/

namespace Sys2Proof.Machine

/-! ### TIMER (R350) -/

/-- Whether Lantern has armed a stop at an offset of a group's kernel (R363). -/
def State.stopsAt (s : State) (g : Group) (off : Nat) : Bool :=
  s.lantern.launch = some g.launch && s.lantern.stops.any fun p =>
    ((s.lantern.kernels[p.1]?).map (·.hdr)) = some g.lrec.khdr && p.2 = off

/-- Whether a split of the launch that Lantern examines stands before an armed instruction that it may not leave (R363). -/
def State.atStop (s : State) (r : SplitRef) : Bool :=
  let w := s.warp r.core r.slot
  !s.lantern.left.contains r && (at_ {} w.block r.split).kind = 0 && (match w.split r.split with
    | some x => s.stopsAt (s.group r.core w.room) x.pc.toNat
    | none => false)

/-- Whether a split's next instruction may not issue yet, because it waits for results that are not written (R190, R191, R310). -/
def State.awaitsResults (s : State) (r : SplitRef) : Bool :=
  let pend := (s.warp r.core r.slot).pend.filter (·.unwritten)
  let mine := pend.filter fun p => p.split = r.split
  if pend = [] then false
  else mine.any (fun p => p.la < p.pos + 1) || (match s.fetch r with
    | .instr _ x => (match closes (x.w.setWidth 8).toNat with
        | .warp => true
        | .split => mine ≠ []
        | .window => false)
    | _ => false)

/-- Whether a split is ready: it does not wait, is not held by a handler or before an armed instruction, its next instruction may issue,
and its group runs, or is being stepped (R190, R335, R346, R360, R361, R363). -/
def State.ready (s : State) (r : SplitRef) : Bool :=
  match s.warp? r.core r.slot with
  | none => false
  | some w =>
    let g := s.group r.core w.room
    w.live && (w.split r.split).isSome && !at_ false w.stopped r.split && (at_ {} w.block r.split).kind = 0
      && !s.atStop r && !s.awaitsResults r
      && (g.runs || (g.phase = .resident && g.stepping = some (r.slot, r.split)))

/-- Whether TIMER is due before the next instruction of a warp (R348, R350). -/
def State.timerDue (s : State) (r : SplitRef) : Bool :=
  let w := s.warp r.core r.slot
  !w.handler && w.wtcmp ≠ 0 && w.wtcmp.toNat ≤ (s.group r.core w.room).wtimer.toNat

/-- TIMER of a split whose instruction's words are fetched, or could not be. -/
def State.presentTimer (s : State) (r : SplitRef) (x : Words) (fetched : Bool) : State :=
  let g := s.groupOf r.core r.slot
  let m := ((s.split? r).map (·.mask)).getD 0
  let c := ctxOf { s with cur := r } x
  State.finish c (.trap { cause := 0x03, lanes := m, d := g.wtimer, fetched := fetched },
    s.modWarp r.core r.slot fun w => { w with wtcmp := 0 })

/-- TIMER_TRAP: sr.wtcmp goes to 0; the warp takes TIMER where its class is enabled and a handler is named (R350). -/
def State.timerTrap (s : State) (r : SplitRef) : State :=
  let g := s.groupOf r.core r.slot
  if !s.ready r || !s.timerDue r then s
  else if g.hdr.handler = 0xFFFFFFFF || !tbit g.hdr.trapmask 9 then s.modWarp r.core r.slot fun w => { w with wtcmp := 0 }
  else
    match s.fetch r with
    | .instr _ x => s.presentTimer r x true
    | .trap _ => s.presentTimer r { w := 0 } false
    | .miss va => s.askWalk (fetchWanted r) g.lrec.asid va
    | .kill => s.killGang r.core (s.warp r.core r.slot).room

/-- TIMER_TRAP (R350). -/
def execTimerTrap (r : SplitRef) (s : State) : Host.Outcome State Fault Refusal := .next (s.timerTrap r)

/-! ### Storage errors and scrubbing -/

/-- The data that a detected uncorrectable error strikes becomes poison (R44, R51, R54, R56, R62). -/
def State.strike (s : State) (l : StorageLoc) : State :=
  match l with
  | .reg c slot n lane => s.modCore c fun k =>
      let r := get {} k.rows (rowOf slot n)
      { k with rows := put {} k.rows (rowOf slot n) { r with lanes := r.lanes.set lane { poison := true } } }
  | .scratch c w => s.modCore c fun k => { k with sp := k.sp.strike w }
  | .tile c t => s.modCore c fun k => { k with acc := k.acc.strike t }
  | .slot c m => s.modCore c fun k => { k with slots := k.slots.strike m }
  | .sector pa =>
    { s with
      memPoison := setInsert s.memPoison (pa / 64)
      -- a slice that lacks bytes of the sector would take them from memory
      l2 := s.l2.map fun (x : L2Sec) => if x.sector = pa / 64 && x.have_ ≠ allBytes then { x with poison := true } else x }

/-- STORAGE_ERROR: a corrected error is logged to the Innkeeper and changes nothing (R44, R62). -/
def execStorageError (e : StorageError) (s : State) : Host.Outcome State Fault Refusal :=
  .next (if e.corrected then s.emit (.corrected e.loc) else s.strike e.loc)

/-- HBM_SCRUB: the sector's corrected data is written back, which are the bytes it holds (R62). -/
def execHbmScrub (_ : Nat) (s : State) : Host.Outcome State Fault Refusal := .next s

/-! ### Bandwidth buckets (R64 to R66) -/

/-- DEPTH of a bucket entry. -/
def bucketDepth (e : W64) : Nat := field e.toNat 47 32

/-- A bucket at the start of a window: a new entry takes effect, then the refill (R65, R66). -/
def Bucket.refill (b : Bucket) : Bucket :=
  let b := match b.pending with
    | some e => { b with entry := e, pending := none, level := min b.level (bucketDepth e) }
    | none => b
  if tbit b.entry.toNat 0 then { b with level := min (bucketDepth b.entry) (b.level + field b.entry.toNat 28 16) } else b

/-- BUCKET_REFILL: the next 256 ns window of the global time base that has begun. -/
def State.bucketRefill (s : State) : State :=
  if s.gtime / 256 ≤ s.window then s
  else { s with window := s.window + 1, buckets := s.buckets.map fun (p : Nat × Bucket) => (p.1, p.2.refill) }

/-- BUCKET_REFILL (R65). -/
def execBucketRefill (s : State) : Host.Outcome State Fault Refusal := .next s.bucketRefill

/-- A bucket's 64 bits as they are read (R64). -/
def Bucket.word (b : Bucket) : W64 := b.entry ||| BitVec.ofNat 64 (b.level % 65536 * 2 ^ 48)

/-- A bucket entry written: it waits for the next window; LEVEL is read-only, reserved bits are zero (R64, R66). There are sixteen controllers
(R1), and a tenant for each device key slot (R37). -/
def State.bucketWrite (s : State) (ctl tenant : Nat) (entry : W64) : State :=
  if 16 ≤ ctl || 128 ≤ tenant then s
  else
    let b : Bucket := get {} s.buckets (bucketKey ctl tenant)
    { s with
      buckets := put {} s.buckets (bucketKey ctl tenant) { b with pending := some (entry &&& 0x0000FFFF1FFF0003) }
      window := if s.buckets = [] then s.gtime / 256 else s.window }

/-- BUCKET_ENTRY_WRITE (R64, R66). -/
def execBucketEntryWrite (ctl tenant : Nat) (entry : W64) (s : State) : Host.Outcome State Fault Refusal :=
  .next (s.bucketWrite ctl tenant entry)

/-- The requests that wait at a controller (R61, R65). -/
def State.waitingSectors (s : State) (ctl : Nat) : List MemReq :=
  s.reqs.filter fun q => !q.done && paKind (q.sector * 64) = .hbm && ctlOf (q.sector * 64) = ctl

/-- The tenant that a controller serves next: of those whose requests wait, the ones that hold tokens round-robin; where there is none, one that
may borrow (R65). -/
def State.nextTenant (s : State) (ctl : Nat) : Option Nat :=
  let ts := (s.waitingSectors ctl).map (·.tenant)
  let last := get 127 s.served ctl
  let after := fun (p : Bucket → Bool) =>
    ((List.range 128).map fun i => (last + 1 + i) % 128).find? fun t => ts.contains t && p (get {} s.buckets (bucketKey ctl t))
  (after fun b => !b.enforced || b.level ≠ 0).or (after fun b => b.entry.getLsbD 1)

/-- HBM_SECTOR_TRANSFER: the oldest waiting request of the tenant whose turn it is, for one token; a borrowed sector leaves LEVEL at zero
(R65). -/
def State.sectorTransfer (s : State) (ctl tenant : Nat) : State :=
  match (s.waitingSectors ctl).find? fun q => q.tenant = tenant with
  | none => s
  | some q =>
    if s.nextTenant ctl ≠ some tenant then s
    else { s.spend q.sector (some tenant) with served := put 127 s.served ctl tenant }.came fun x => x = q

/-- HBM_SECTOR_TRANSFER (R65). -/
def execHbmSectorTransfer (ctl tenant : Nat) (s : State) : Host.Outcome State Fault Refusal := .next (s.sectorTransfer ctl tenant)

/-! ### Key slots (R36) -/

/-- KEY_SLOT_DESTROY: from now on accesses that name the slot are refused. -/
def execKeySlotDestroy (slot : Nat) (s : State) : Host.Outcome State Fault Refusal :=
  .next (if s.keySlots.getD slot .empty = KeySlot.live then { s with keySlots := s.keySlots.set slot .destroying } else s)

/-- The key under which memory keeps sectors whose slot was destroyed: none that a slot can hold. -/
def deadKey (slot : Nat) : Nat := 128 + slot

/-- KEY_SLOT_DESTROY_COMPLETE: no access holds the slot; its lines are discarded, and the slot is zeroised. -/
def State.keyDestroyed (s : State) (slot : Nat) : State :=
  if s.keySlots.getD slot .empty ≠ KeySlot.destroying || s.net.any (fun r => r.key = some slot) then s
  else
    let mine := s.l2.filter fun x => x.key = some slot && paKind (x.sector * 64) = .hbm
    let s := mine.foldl (fun s x => s.forgetSec x) s
    { s with
      keySlots := s.keySlots.set slot .empty
      memKey := s.memKey.map fun p => if p.2 = slot then (p.1, deadKey slot) else p
      l2 := s.l2.map fun (x : L2Sec) => if x.key = some slot && paKind (x.sector * 64) = .hbm then { x with key := some (deadKey slot) } else x }

/-- KEY_SLOT_DESTROY_COMPLETE (R36). -/
def execKeySlotDestroyComplete (slot : Nat) (s : State) : Host.Outcome State Fault Refusal := .next (s.keyDestroyed slot)

/-! ### Translation changes (R139 to R141) -/

/-- The agents that an invalidation reaches (R139): cores with their fetch buffers and instruction caches, their engines, host-link agents with
their ATS translation caches, and the walkers of each die with its partition-map cache. -/
def invalAgents : List Nat := List.range 144

/-- The die of an agent. -/
def agentDie (a : Nat) : Nat := if a < 128 then a % 64 / 8 else a % 8

/-- Whether a held translation matches an invalidation (R139): a partition's IPA range covers every result derived from it. -/
def invalHits (i : Inval) (t : Tlb) : Bool :=
  match i with
  | .range asid lo len => t.asid = asid && t.va < lo + len && lo < t.va + t.size
  | .asid asid => t.asid = asid
  | .ipa part lo len => t.part = part && t.ipa < lo + len && lo < t.ipa + t.size

/-- Whether a refusal found by a walk matches: refusals hold no entry, so an ASID's or any partition's change forgets them. -/
def invalHitsAnswer (i : Inval) (a : Answer) : Bool :=
  match i with
  | .range asid lo len => a.asid = asid && a.va * 4096 < lo + len && lo < a.va * 4096 + 4096
  | .asid asid => a.asid = asid
  | .ipa _ _ _ => true

/-- Whether a line of an instruction cache matches (R139, R142). -/
def invalHitsCode (i : Inval) (l : CodeLine) : Bool :=
  match i with
  | .range asid lo len => l.asid = asid && lo < l.line * 64 + 64 && l.line * 64 < lo + len
  | .asid asid => l.asid = asid
  | .ipa part lo len => l.part = part && lo < l.ipa + 64 && l.ipa < lo + len

/-- Whether an entry of a partition-map cache matches (R139). -/
def invalHitsMap (i : Inval) (m : MapEntry) : Bool :=
  match i with
  | .ipa part lo len => m.part = part && lo < (m.granule + 1) * 2 ^ 30 && m.granule * 2 ^ 30 < lo + len
  | .range _ _ _ | .asid _ => false

/-- An invalidation issued by the Dunesh core: a release at device scope, which the broadcast follows (R139). -/
def State.invalStart (s : State) (i : Inval) : State :=
  let d := s.dunesh
  { s.closeEpoch d with inval := some { i := i, die := d, epoch := vcAt (s.die d).vc d, got := [], acked := [] } }

/-- INVALIDATION_BROADCAST (R139): one issued while another is in progress follows it. -/
def State.invalBegin (s : State) (i : Inval) : State :=
  if s.inval.isSome then { s with invals := s.invals ++ [i] } else s.invalStart i

/-- INVALIDATION_RECEIPT: once the release before the broadcast is performed, the agent stops using matching entries and discards matching
code (R139, R140). -/
def State.invalReceipt (s : State) (a : Nat) : State :=
  match s.inval with
  | none => s
  | some v =>
    if v.got.contains a || !invalAgents.contains a || s.ackedEpoch v.die < v.epoch then s
    else
      let s := if a < 64 then s.modCore a fun k => { k with code := k.code.filter fun l => !invalHitsCode v.i l }
        else if 136 ≤ a then s.modDie (a - 136) fun d => { d with maps := d.maps.filter fun m => !invalHitsMap v.i m }
        else s
      { s with
      tlb := s.tlb.filter fun t => !(t.agent = a && invalHits v.i t)
      walked := s.walked.filter fun w => !(w.who.agent = a && invalHitsAnswer v.i w)
      -- a change of a partition's map discards the host-link agent's translations (R389); which offsets it covers is not asked
      atc := match v.i with
        | .ipa _ _ _ => if a < 128 || 136 ≤ a then s.atc else s.atc.filter fun x => x.die ≠ a - 128
        | _ => s.atc
      inval := some { v with got := setInsert v.got a } }

/-- Whether an agent's accesses have drained: every write of its die is applied and acknowledged, by the holders of copies too, no write of its
stands at a port, and no packet for a peer stands in a replay buffer (R140, R141). -/
def State.drained (s : State) (a : Nat) : Bool :=
  let d := agentDie a
  !s.net.any (fun r => r.src = d && !r.ext) && !s.peerBusy
    && s.cores.zipIdx.all (fun (p : Core × Nat) => dieOf p.2 ≠ d || p.1.port = [])

/-- INVALIDATION_DRAINED: the agent acknowledges (R140). -/
def State.invalDrained (s : State) (a : Nat) : State :=
  match s.inval with
  | none => s
  | some v =>
    if v.got.contains a && !v.acked.contains a && s.drained a then { s with inval := some { v with acked := setInsert v.acked a } } else s

/-- INVALIDATION_COMPLETE: every agent has acknowledged, which is reported as a release at device scope; the next invalidation begins (R139 to
R141). -/
def State.invalComplete (s : State) : State :=
  match s.inval with
  | none => s
  | some v =>
    if !invalAgents.all v.acked.contains then s
    else
      let s := { s.closeEpoch s.dunesh with inval := none }.emit (.invalidated v.i)
      match s.invals with
      | [] => s
      | i :: rest => { s with invals := rest }.invalStart i

/-- INVALIDATION_BROADCAST (R139). -/
def execInvalidationBroadcast (i : Inval) (s : State) : Host.Outcome State Fault Refusal := .next (s.invalBegin i)
/-- INVALIDATION_RECEIPT (R140). -/
def execInvalidationReceipt (agent : Nat) (s : State) : Host.Outcome State Fault Refusal := .next (s.invalReceipt agent)
/-- INVALIDATION_DRAINED (R140). -/
def execInvalidationDrained (agent : Nat) (s : State) : Host.Outcome State Fault Refusal := .next (s.invalDrained agent)
/-- INVALIDATION_COMPLETE (R140). -/
def execInvalidationComplete (s : State) : Host.Outcome State Fault Refusal := .next s.invalComplete

/-! ### Window writes and the hold (R131, R132) -/

/-- REGISTER_WINDOW_WRITE: the k-th write kept at a core's port is performed, once its room's hold is off and no earlier one for that
room waits. -/
def State.portApply (s : State) (c k : Nat) : State :=
  let port := (s.core c).port
  match port[k]? with
  | none => s
  | some p =>
    if (s.room c p.room).hold ≠ .off || (port.take k).any (fun q => q.room = p.room) then s
    else (s.chipWrite p.owner c p.off p.bytes p.poison p.stamp).modCore c fun x => { x with port := x.port.eraseIdx k }

/-- REGISTER_WINDOW_WRITE (R131). -/
def execRegisterWindowWrite (core k : Nat) (s : State) : Host.Outcome State Fault Refusal := .next (s.portApply core k)

/-- WINDOW_HOLD_SET (R132). -/
def execWindowHoldSet (core room : Nat) (s : State) : Host.Outcome State Fault Refusal :=
  .next (s.modRoom core room fun x => if x.hold = .off then { x with hold := .requested } else x)
/-- WINDOW_HOLD_ACK: no write past the port is unapplied (R132). -/
def execWindowHoldAck (core room : Nat) (s : State) : Host.Outcome State Fault Refusal :=
  .next (s.modRoom core room fun x => if x.hold = .requested then { x with hold := .acked } else x)
/-- WINDOW_HOLD_RELEASE: the waiting writes may be performed, in arrival order (R132). -/
def execWindowHoldRelease (core room : Nat) (s : State) : Host.Outcome State Fault Refusal :=
  .next (s.modRoom core room fun x => { x with hold := .off })

/-! ### The debugger (R132, R226, R360, R361) -/

/-- DEBUGGER_WRITE: the storage of a stopped resident group, written as its tenant's owner; no hold keeps it back (R132, R362). -/
def execDebuggerWrite (core room off : Nat) (data : List Byte) (s : State) : Host.Outcome State Fault Refusal :=
  let g := s.group core room
  .next (if (s.room core room).group.isSome && g.stopped && g.phase.onCore && s.roomAt core off = some room then
      s.chipWrite (some g.owner) core off data false
    else s)

/-- BREAKPOINT_ARM (R226). -/
def execBreakpointArm (core room : Nat) (set : Bool) (s : State) : Host.Outcome State Fault Refusal :=
  .next (s.modRoom core room fun x => { x with bkpt := set })

/-- STOP_REQUEST: the group comes to rest, and the debugger is told (R360). -/
def execStopRequest (core room : Nat) (s : State) : Host.Outcome State Fault Refusal :=
  let g := s.group core room
  .next (if (s.room core room).group.isSome && g.phase = .resident && !g.stopped then
      (s.stopGroup core room).emit (.innkeeper 3 core room 0 0)
    else s)

/-- A split that stands at the `bkpt` that stopped its group goes on behind it, unless the debugger has written its PC (R226). -/
def State.passBkpt (s : State) (c n : Nat) : State :=
  match (s.group c n).bkptAt with
  | none => s
  | some (num, i, pc) =>
    let slot := at_ none (s.group c n).warps num
    let s := s.modGroup c n fun g => { g with bkptAt := none }
    match slot with
    | none => s
    | some slot => s.modWarp c slot fun w =>
        { w with splits := modifyAt w.splits i (Option.map fun x => if x.pc = pc then { x with pc := pc + 8 } else x) }

/-- SINGLE_STEP: one split of a stopped group may issue one instruction (R361). -/
def State.singleStep (s : State) (r : SplitRef) : State :=
  let n := (s.warp r.core r.slot).room
  let g := s.group r.core n
  if (s.split? r).isNone || !g.stopped || g.phase ≠ .resident then s
  else
    let s := if g.bkptAt.map (fun b => (b.1, b.2.1)) = some ((s.warp r.core r.slot).num, r.split) then s.passBkpt r.core n else s
    (s.modWarp r.core r.slot fun w => { w with stepArmed := true }).modGroup r.core n fun g => { g with stepping := some (r.slot, r.split) }

/-- SINGLE_STEP (R361). -/
def execSingleStep (r : SplitRef) (s : State) : Host.Outcome State Fault Refusal := .next (s.singleStep r)

/-! ### Privileged accesses (R17, R18, R21, R38) -/

/-- A tenant that nothing is known of on a cluster (R331): its weight and default slice are those that it has on every other. -/
def State.freshShare (s : State) (cluster part : Nat) : Share :=
  match s.shares.find? fun x => x.part = part with
  | some x => { cluster := cluster, part := part, weight := x.weight, slice := x.slice }
  | none => { cluster := cluster, part := part }

/-- A tenant's weight, from 1 to 255, and its default slice in µs, on every cluster (R331; log entry 110). -/
def State.setShare (s : State) (part weight slice : Nat) : State :=
  if weight = 0 then s
  else
    let new := ((List.range 16).filter fun k => !s.shares.any fun x => x.cluster = k && x.part = part).map fun k => s.freshShare k part
    { s with
      shares := (s.shares ++ new).map fun (x : Share) => if x.part = part then { x with weight := weight, slice := slice } else x
      paced := if s.shares = [] then s.gtime / 100000 else s.paced }

/-- Housekeeping registers of control space by which the Innkeeper sets the tables of R24, R29, R35, R37, R64, R331 and R332 (R18 names the
registers and gives no address; log entries 18 and 110): the ASID table's base, partition maps, key maps, key slots, tenants' owner keys,
the partitions of functions, the owners of clusters and of ports, bandwidth buckets, tenants' weights and slices, quotas of the waiting pool and sizes
of the ready queues. -/
def State.housekeep (s : State) (pa : Nat) (data : List Byte) : State :=
  let x := ofBytes (data.take 8)
  let o := pa - 0x90000000
  if pa < 0x90000000 || data.length ≠ 8 || pa % 8 ≠ 0 then s
  else if o = 0 then { s with asidBase := x }
  else if 0x1000 ≤ o && o < 0x1200 then { s with pmap := put 0 s.pmap ((o - 0x1000) / 8) x }
  else if 0x10000 ≤ o && o < 0x20000 then { s with keyMap := put none s.keyMap ((o - 0x10000) / 8) (if x < 128 then some x else none) }
  else if 0x20000 ≤ o && o < 0x20400 then
    { s with keySlots := modifyAt s.keySlots ((o - 0x20000) / 8) fun k => if k = KeySlot.empty then .live else k }
  else if 0x21000 ≤ o && o < 0x21200 then { s with tenantKey := put 0 s.tenantKey ((o - 0x21000) / 8) x }
  else if 0x23000 ≤ o && o < 0x23080 then { s with clusters := s.clusters.set ((o - 0x23000) / 8) (if x < 64 then some x else none) }
  else if 0x23080 ≤ o && o < 0x23100 then
    { s with ports := modifyAt s.ports ((o - 0x23080) / 8) fun p => { p with owner := if x < 64 then some x else none } }
  else if 0x22000 ≤ o && o < 0x22208 then { s with fnPart := put 0 s.fnPart ((o - 0x22000) / 8) x }
  else if 0x24000 ≤ o && o < 0x24200 then s.setShare ((o - 0x24000) / 8) (x % 256) (field x 47 16)
  else if 0x25000 ≤ o && o < 0x25200 then { s with quota := put 16384 s.quota ((o - 0x25000) / 8) x }
  else if 0x40000 ≤ o && o < 0x48000 then
    if 6 ≤ x % 32 && x % 32 ≤ 16 then { s with queueCap := put 6 s.queueCap ((o - 0x40000) / 8) (x % 32) } else s
  else if 0x30000 ≤ o && o < 0x34000 then s.bucketWrite ((o - 0x30000) / 1024) ((o - 0x30000) / 8 % 128) (BitVec.ofNat 64 x)
  else s

/-- A byte of control space as the Innkeeper reads it: bucket entries show what is in force, LEVEL with it (R64; log entry 110). -/
def State.controlByte (s : State) (pa : Nat) (b : Byte) : Byte :=
  let o := pa - 0x90030000
  if pa < 0x90030000 || 0x4000 ≤ o then b
  else (get ({} : Bucket) s.buckets (o / 8)).word.extractLsb' (o % 8 * 8) 8

/-- A privileged write into a core window: on another die it is a remote write (R107, R109, R131). -/
def State.privChip (s : State) (d : Nat) (owner : Option Nat) (pa : Nat) (data : List Byte) : State :=
  let c := (pa - 0xF00000000) / 2 ^ 24
  if dieOf c = d then s.farWrite owner c ((pa - 0xF00000000) % 2 ^ 24) data false
  else
    let bs := data.zipIdx.map fun p => (pa + p.2, p.1)
    (sectorsOf (bs.map (·.1))).foldl (fun s k =>
      s.sendWrite d {} {} k ((bs.filter fun b => b.1 / 64 = k).map fun b => (b.1 % 64, b.2)) false owner) s

/-- Bytes of a core window as the Dunesh core's die reads them: its own writes on their way above what the window holds (R89, R131). -/
def State.chipSeen (s : State) (d : Nat) (owner : Option Nat) (pa n : Nat) : List Byte × Bool :=
  let r := s.chipRead owner ((pa - 0xF00000000) / 2 ^ 24) ((pa - 0xF00000000) % 2 ^ 24) n
  (r.1.zipIdx.map fun b => (s.ownWrites d ((pa + b.2) / 64)).foldl (fun x w =>
      ((w.bytes.filter fun p => p.1 = (pa + b.2) % 64).getLast?.map (·.2)).getD x) b.1, r.2)

/-- PRIVILEGED_ACCESS: a physical access of the Dunesh core, for itself or as a tenant's owner; a read is answered with its bytes, or with
none where it fails (R18, R22, R403). -/
def State.privileged (s : State) (write : Bool) (owner : Option Nat) (pa : Nat) (data : List Byte) : State :=
  let d := s.dunesh
  let n := data.length
  match paKind pa, write with
  | .reserved, true => s
  | .reserved, false => s.emit (.readData d none)
  | .onchip, _ =>
    let c := (pa - 0xF00000000) / 2 ^ 24
    let off := (pa - 0xF00000000) % 2 ^ 24
    let p := Place.chip c off true
    let crosses := off < 0x200000 && off % 128 + n > 128
    if crosses then (if write then s else s.emit (.readData d none))
    else if write then s.privChip d owner pa data
    else
      let r := s.chipSeen d owner pa n
      { s with misses := s.misses + s.readMisses [p] }.emit (.readData d (if r.2 then none else some r.1))
  | .control, true =>
    s.writeAll d (fun _ => {}) {} (data.zipIdx.map fun p => { pa := pa + p.2, val := p.1 }) |>.housekeep pa data
  | .control, false =>
    let r := s.readAt d {} pa n
    s.emit (.readData d (if r.2 then none else some (r.1.zipIdx.map fun b => s.controlByte (pa + b.2) b.1)))
  | _, true => s.writeAll d (fun _ => {}) {} (data.zipIdx.map fun p => { pa := pa + p.2, val := p.1 })
  | _, false =>
    let r := s.readAt d {} pa n
    s.emit (.readData d (if r.2 then none else some r.1))

/-- PRIVILEGED_ACCESS. -/
def execPrivilegedAccess (write : Bool) (owner : Option Nat) (pa : Nat) (data : List Byte) (s : State) :
    Host.Outcome State Fault Refusal :=
  .next (s.privileged write owner pa data)

end Sys2Proof.Machine
end

