-- ==== Sys2Proof/Machine/Context.lean ====
section
/-! DEFINITION. The context record (R353 to R358): what a save writes at CTXADDR, and what a restore checks and takes back. -/

namespace Sys2Proof.Machine

/-! ### Layout (R353) -/

/-- OFFSP. -/
def KHdr.offSp (h : KHdr) : Nat := h.offVreg + h.warps * h.vs
/-- OFFTILE. -/
def KHdr.offTile (h : KHdr) : Nat := h.offSp + roundUp h.scratch 4096
/-- OFFSLOT. -/
def KHdr.offSlot (h : KHdr) : Nat := h.offTile + h.tiles * 24576
/-- OFFACT. -/
def KHdr.offAct (h : KHdr) : Nat := h.offSlot + 16384
/-- OFFJOB. -/
def KHdr.offJob (h : KHdr) : Nat := h.offAct + 12288
/-- OFFSPILL. -/
def KHdr.offSpill (h : KHdr) : Nat := h.offJob + 8192
/-- The bytes of a record. -/
def KHdr.ctxBytes (h : KHdr) : Nat := h.offSpill + h.warps * 131072

/-- The section offsets and VS in the order of the header (R354). -/
def KHdr.sections (h : KHdr) : List Nat := [h.offVreg, h.vs, h.offSp, h.offTile, h.offSlot, h.offAct, h.offJob, h.offSpill]

/-- A piece of a record: its offset and its bytes. -/
abbrev Chunk := Nat × List Byte

/-- A code offset in 32 bits; 0xFFFF_FFFF for NONE (R151, R355). -/
def offs32 (x : Option W64) : List Byte := leBytes 4 ((x.map fun (p : W64) => p.toNat % 2 ^ 32).getD 0xFFFFFFFF)

/-- A code offset or NONE from 32 bits. -/
def ofOffs32 (x : Nat) : Option W64 := if x = 0xFFFFFFFF then none else some (BitVec.ofNat 64 x)

/-! ### What a save writes (R354 to R357) -/

/-- An entry of the reconvergence stack (R151). -/
def StackEntry.image (e : StackEntry) : List Byte :=
  [BitVec.ofNat 8 (if e.join then 2 else 1), BitVec.ofNat 8 e.nest] ++ List.replicate 6 0 ++ leBytes 4 e.mask.toNat
    ++ leBytes 4 e.arrived.toNat ++ leBytes 4 (e.pc.toNat % 2 ^ 32) ++ offs32 e.ra ++ List.replicate 8 0

/-- The warp control block of warp w, and its spilled stack entries (R355, R357). -/
def Warp.image (x : Warp) (h : KHdr) (w : Nat) (wtimer : W64) : List Chunk :=
  let b := 0x1000 + w * 8192
  let old := x.stack.reverse
  let n := old.length
  let splits := (List.range 4).flatMap fun i => match x.split i with
    | some y => leBytes 4 (y.pc.toNat % 2 ^ 32) ++ leBytes 4 y.mask.toNat ++ offs32 y.ra ++ offs32 y.pend
    | none => List.replicate 16 0
  let t := x.trap
  [ (b, splits)
  , (b + 0x40, x.nest.map (BitVec.ofNat 8))
  , (b + 0x60, (x.masks.drop 1).flatMap fun (m : LaneMask) => leBytes 4 m.toNat)
  , (b + 0x80, x.ix.flatMap fun (v : W32) => leBytes 4 v.toNat)
  , (b + 0x100, leBytes 4 x.wflags.toNat ++ leBytes 2 n
      ++ leBytes 2 ((if x.live then 1 else 0) + (if x.handler then 2 else 0) + (if x.stepArmed then 4 else 0)))
  , (b + 0x108, leBytes 8 wtimer.toNat ++ leBytes 8 x.wtcmp.toNat ++ leBytes 8 x.satchel.toNat)
  , (b + 0x120, [t.cause, t.pc, t.op, t.d, t.a, t.b, t.c, t.e, t.imm].flatMap fun (v : W64) => leBytes 8 v.toNat)
  , (b + 0x168, if x.handler then offs32 x.hsave.ra ++ offs32 x.hsave.pend ++ leBytes 4 x.hsave.mask.toNat ++ leBytes 1 x.hsave.split
      else List.replicate 13 0)
  , (b + 0x180, leBytes 8 ((List.range 64).foldl (fun acc i => if (at_ {} x.uni i).poison then acc + 2 ^ i else acc) 0))
  , (b + 0x200, x.uni.flatMap fun (k : KReg) => leBytes 8 k.data.toNat)
  , (b + 0x400, (old.drop (n - 32)).flatMap StackEntry.image)
  , (b + 0x800, x.block.flatMap fun (k : Block) => leBytes 8 k.kind ++ leBytes 8 k.addr.toNat ++ leBytes 8 k.value.toNat ++ leBytes 8 k.aux.toNat)
  , (h.offSpill + w * 131072, (old.take (n - 32)).flatMap StackEntry.image) ]

/-- The vector image of warp w (R357). -/
def State.vectorImage (s : State) (c slot w : Nat) (h : KHdr) : List Chunk :=
  let b := h.offVreg + w * h.vs
  let row := fun (n : Nat) => lanes.map fun l => s.vreg c slot n l
  [ (b, (List.range h.allot).flatMap fun n => (row n).flatMap fun (x : LaneWord) => leBytes 4 x.data.toNat)
  , (b + h.allot * 128, (List.range h.allot).flatMap fun n =>
      leBytes 4 (maskOf fun l => (s.vreg c slot n l).poison).toNat) ]

/-- The codebooks of a core that a gang holds, by number (R294). -/
def State.heldBooks (s : State) (c : Nat) (g : Group) : List (Option Codebook) :=
  (s.core c).books.map fun b => if b.holder = some (g.launch, g.gang) then some b else none

/-- The group header of a record (R354). -/
def State.headerImage (s : State) (c n st : Nat) (jobs : List Job) : List Chunk :=
  let g := s.group c n
  let x := s.room c n
  let o := some g.owner
  let books := if g.member = 0 then s.heldBooks c g else []
  let bits := fun (p : Nat → Bool) (k : Nat) => (List.range k).foldl (fun acc i => if p i then acc + 2 ^ i else acc) 0
  let tpsn := bits (fun t => ((s.core c).acc.read accGrain o ((g.atbase + t) * 24576) 1).2) g.hdr.tiles
  let slotfl := bits (fun h => (g.handles.getD h none).isSome) 4
    + 16 * bits (fun h => match g.handles.getD h none with
        | some b => (s.slotBytes c o b.slot 1).2
        | none => false) 4
  [ (0x00, leBytes 4 0x52435853 ++ leBytes 2 1 ++ leBytes 1 st)
  , (0x08, leBytes 2 g.stay)
  , (0x0C, leBytes 4 g.groupid ++ leBytes 8 g.lrec.khdr ++ leBytes 8 g.lpa)
  , (0x20, leBytes 1 g.fault.1 ++ leBytes 1 g.fault.2)
  , (0x28, leBytes 8 (if st = 6 then g.pageaddr else 0))
  , (0x40, leBytes 8 g.depcnt.toNat ++ leBytes 4 g.relaunch)
  , (0x50, leBytes 4 x.ring.base ++ leBytes 2 x.ring.size ++ leBytes 1 (if x.ring.halt then 1 else 0) ++ leBytes 1 0
      ++ leBytes 4 x.ring.qcnt.toNat ++ leBytes 4 x.ring.dcnt.toNat)
  , (0x60, (x.acts.flatMap fun (t : ActTable) => leBytes 4 t.count) ++ leBytes 1 (bits (fun i => (at_ {} x.acts i).sel) 4)
      ++ leBytes 1 (bits (fun i => (at_ {} x.acts i).loaded) 4))
  , (0x78, leBytes 8 tpsn)
  , (0x80, g.handles.flatMap fun (h : Option Binding) => leBytes 16 ((h.map (·.desc.toNat)).getD 0))
  , (0xC0, leBytes 1 slotfl ++ leBytes 1 (bits (fun i => (books.getD i none).isSome) 8) ++ leBytes 1 jobs.length)
  , (0xC4, match g.join with
      | some (id, inc) => leBytes 2 id ++ leBytes 2 1 ++ leBytes 8 inc.toNat
      | none => List.replicate 12 0)
  , (0xD0, g.jchk.flatMap fun (j : Nat × Nat) => leBytes 2 j.1 ++ leBytes 1 j.2 ++ leBytes 1 0)
  , (0xE0, g.hdr.sections.flatMap (leBytes 4))
  , (0x100, books.flatMap fun (b : Option Codebook) => (b.map (·.bytes)).getD (List.replicate 32 0)) ]

/-- Everything that a save writes (R353): bytes that no piece covers are zero. -/
def State.recordImage (s : State) (c n st : Nat) (jobs : List Job) : List Chunk :=
  let g := s.group c n
  let h := g.hdr
  let o := some g.owner
  let x := s.room c n
  s.headerImage c n st jobs
  ++ (g.warps.zipIdx.flatMap fun (p : Option Nat × Nat) => match p.1 with
      | some slot => let y := s.warp c slot
        if y.live then y.image h p.2 g.wtimer ++ s.vectorImage c slot p.2 h else []
      | none => [])
  ++ [ (h.offSp, ((s.core c).sp.read spGrain o g.spbase g.spbytes).1)
     , (h.offTile, ((s.core c).acc.read accGrain o (g.atbase * 24576) (h.tiles * 24576)).1)
     , (h.offJob, jobs.flatMap (·.bytes)) ]
  ++ (g.handles.zipIdx.flatMap fun (p : Option Binding × Nat) => match p.1 with
      | some b => [(h.offSlot + p.2 * 4096, (s.slotBytes c o b.slot 4096).1)]
      | none => [])
  ++ (x.acts.zipIdx.flatMap fun (p : ActTable × Nat) =>
      [(h.offAct + 2 * p.2 * 1088, p.1.bank0.bytes), (h.offAct + (2 * p.2 + 1) * 1088, p.1.bank1.bytes)])

/-- A range of memory written whole by the dispatch hardware: `len` zero bytes, then pieces of it. No slice keeps a sector of it. -/
def State.blit (s : State) (pa len : Nat) (cs : List Chunk) : State :=
  let inside := fun (k : Nat) => pa ≤ k * 64 && k * 64 < pa + len
  { s with
    mem := cs.foldl (fun m c => putBytes m (pa + c.1) c.2) (eraseCells s.mem pa len)
    l2 := s.l2.filter fun x => !inside x.sector
    memPoison := s.memPoison.filter fun k => !inside k
    memKey := s.memKey.filter fun p => !inside p.1
    memHdr := s.memHdr.filter fun p => !inside p.1 }

/-! ### What a restore reads -/

/-- A little-endian number in a record. -/
def State.recNum (s : State) (pa off n : Nat) : Nat := ofBytes ((List.range n).map fun i => s.homeByte none (pa + off + i))
/-- Bytes of a record. -/
def State.recBytes (s : State) (pa off n : Nat) : List Byte := (List.range n).map fun i => s.homeByte none (pa + off + i)
/-- Whether bytes of a record are poisoned. -/
def State.recPoison (s : State) (pa off n : Nat) : Bool := (spanOf (pa + off) n 64).any fun k => s.homePoison (k * 64)

/-- The stack entry at an offset of a record; `pend` is what the saved stack held in that place. -/
def State.recEntry (s : State) (pa off : Nat) (pend : Option W64) : StackEntry :=
  let f := fun (a n : Nat) => s.recNum pa (off + a) n
  { join := f 0 1 % 4 = 2, pc := BitVec.ofNat 64 (f 16 4), mask := BitVec.ofNat 32 (f 8 4), arrived := BitVec.ofNat 32 (f 12 4),
    ra := ofOffs32 (f 20 4), nest := f 1 1, pend := pend }

/-- The offset of stack entry j, counted from the oldest, of n entries of warp w (R357). -/
def KHdr.entryOff (h : KHdr) (w n j : Nat) : Nat :=
  if j < n - 32 then h.offSpill + w * 131072 + 32 * j else 0x1000 + w * 8192 + 0x400 + 32 * (j - (n - 32))

/-- A warp as its control block gives it (R355); what R215 marks read-only keeps its saved value, sr.wtcmp apart (R362), and reserved bits of
sr.wflags read zero (R8). A split whose load from the host or a peer has been completed in the record goes on past it; one that waits for such a load
issues it again, and takes what has come (R337, R356). -/
def State.recWarp (s : State) (pa : Nat) (h : KHdr) (w : Nat) (old : Warp) : Warp :=
  let f := fun (a n : Nat) => s.recNum pa (0x1000 + w * 8192 + a) n
  let wfl := f 0x106 2
  let n := f 0x104 2
  let handler := tbit wfl 1
  let slot := f 0x174 1
  let landed := (List.range 4).filter fun i => f (0x800 + 32 * i) 1 = 8 && f (0x818 + 32 * i) 8 ≠ 0 && (at_ {} old.block i).plan.isSome
  let past := fun (i : Nat) => if landed.contains i then (((at_ {} old.block i).plan).map (·.len)).getD 0 else 0
  let splits := (List.range 4).map fun i =>
    let m := f (16 * i + 4) 4
    if m = 0 then none
    else some ({ pc := BitVec.ofNat 64 (f (16 * i) 4 + past i), mask := BitVec.ofNat 32 m, ra := ofOffs32 (f (16 * i + 8) 4),
                 pend := ofOffs32 (f (16 * i + 12) 4) } : Split)
  let w : Warp := { old with
    live := tbit wfl 0
    splits := splits
    came := landed.foldl (fun cs i => cs.set i (BitVec.ofNat 64 (f (16 * i) 4))) old.came
    masks := -1 :: (List.range 7).map fun i => BitVec.ofNat 32 (f (0x60 + 4 * i) 4)
    ix := (List.range 32).map fun i => BitVec.ofNat 32 (f (0x80 + 4 * i) 4)
    wflags := wflagsOf (BitVec.ofNat 32 (f 0x100 4))
    wtcmp := BitVec.ofNat 64 (f 0x110 8)
    handler := handler
    hsave := if handler then { ra := ofOffs32 (f 0x168 4), pend := ofOffs32 (f 0x16C 4), mask := BitVec.ofNat 32 (f 0x170 4), split := slot }
      else {}
    stepArmed := tbit wfl 2
    uni := (List.range 64).map fun i => KReg.of (BitVec.ofNat 64 (f (0x200 + 8 * i) 8)) (tbit (f 0x180 8) i)
    stack := ((List.range n).map fun j =>
      s.recEntry pa (h.entryOff w n j) (((old.stack.reverse)[j]?).bind (·.pend))).reverse
    block := (List.range 4).map fun i =>
      if f (0x800 + 32 * i) 1 = 8 then {} else
      { kind := f (0x800 + 32 * i) 1, addr := BitVec.ofNat 64 (f (0x808 + 32 * i) 8), value := BitVec.ofNat 64 (f (0x810 + 32 * i) 8),
        aux := BitVec.ofNat 64 (f (0x818 + 32 * i) 8) }
    pend := []
    age := [0, 0, 0, 0]
    stopped := (List.range 4).map fun i => handler && i ≠ slot && (splits.getD i none).isSome }
  match landed.head? with
  | some i => w.settle (BitVec.ofNat 64 (f (16 * i) 4))
  | none => w

/-! ### The checks of a restore (R358) -/

/-- Byte ranges of the group header that are reserved (R354). -/
def reservedHeader : List (Nat × Nat) :=
  [(0x07, 1), (0x0A, 2), (0x22, 6), (0x30, 16), (0x4C, 4), (0x57, 1), (0x72, 6), (0xC3, 1), (0xD3, 1), (0xD7, 1), (0xDB, 1), (0xDF, 1),
   (0x200, 0xE00)]

/-- Byte ranges of a warp control block that are reserved (R355). -/
def reservedBlock : List (Nat × Nat) :=
  [(0x7C, 4), (0x175, 11), (0x188, 0x78), (0x801, 7), (0x821, 7), (0x841, 7), (0x861, 7), (0x880, 0x1780)]

/-- The offset of the first byte of some ranges that is not zero. -/
def State.firstNonzero (s : State) (pa base : Nat) (rs : List (Nat × Nat)) : Option Nat :=
  (rs.flatMap fun r => (List.range r.2).map fun i => base + r.1 + i).find? fun o => s.recNum pa o 1 ≠ 0

/-- Masks that share no lane. -/
def disjoint (ms : List LaneMask) : Bool :=
  (ms.foldl (fun (acc : Bool × LaneMask) m => (acc.1 && acc.2 &&& m = 0, acc.2 ||| m)) (true, 0)).1

/-- The offset at which a warp control block fails, if it does: `old` is the warp as it was saved. -/
def State.blockBad (s : State) (pa : Nat) (h : KHdr) (w : Nat) (old : Warp) : Option Nat :=
  let b := 0x1000 + w * 8192
  let x := s.recWarp pa h w old
  let f := fun (a n : Nat) => s.recNum pa (b + a) n
  let ms := (List.range 4).map fun i => BitVec.ofNat 32 (f (16 * i + 4) 4)
  let n := f 0x104 2
  if !x.live then none
  else if 4096 < n then some (b + 0x104)
  else
    match (List.range 4).find? fun i => (at_ 0 ms i : LaneMask) ≠ 0 && f (16 * i) 4 % 4 ≠ 0 with
    | some i => some (b + 16 * i)
    | none =>
      if !disjoint ms || x.liveLanes ≠ old.liveLanes then some (b + 4)
      else
        match (List.range 4).findSome? fun i =>
            let ls := lanesOf (at_ 0 ms i)
            ls.find? fun l => f (0x40 + l) 1 ≠ f (0x40 + ls.headD 0) 1 with
        | some l => some (b + 0x40 + l)
        | none =>
          match (List.range n).find? fun j =>
              let o := h.entryOff w n j
              (s.recNum pa o 1 ≠ 1 && s.recNum pa o 1 ≠ 2) || s.recNum pa (o + 2) 6 ≠ 0 || s.recNum pa (o + 24) 8 ≠ 0 with
          | some j => some (h.entryOff w n j)
          | none => s.firstNonzero pa b reservedBlock

/-- The offset at which a record fails R358, if it does. -/
def State.recordBad (s : State) (v : Saved) (h : KHdr) : Option Nat :=
  let pa := v.ctx
  if s.recPoison pa 0 h.offVreg then some 0
  else if s.recNum pa 0 4 ≠ 0x52435853 then some 0
  else if s.recNum pa 4 2 ≠ 1 then some 4
  else
    match (h.sections.zipIdx).find? fun p => s.recNum pa (0xE0 + 4 * p.2) 4 ≠ p.1 with
    | some p => some (0xE0 + 4 * p.2)
    | none =>
      match s.firstNonzero pa 0 reservedHeader with
      | some o => some o
      | none => v.warps.findSome? fun p => s.blockBad pa h p.1 p.2

end Sys2Proof.Machine
end

