-- ==== Sys2Proof/Machine/Rooms.lean ====
section
/-! DEFINITION. Rooms: cards, placing, residence, saving and restoring (R20, R41, R42, R154 to R160, R175, R323 to R326, R337, R352), slices,
discard and relaunch (R331, R338, R376). Which group goes to which room is the Innkeeper's choice (R404) and comes with its card. -/

namespace Sys2Proof.Machine

/-! ### Room cards (R323 to R326) -/

/-- The address of a room's card. -/
def cardAddr (c n : Nat) : Nat := 0x80000000 + c * 0x200 + n * 32

/-- A room card. -/
structure RoomCard where
  bits : Nat
  deriving DecidableEq, Repr

/-- V. -/
def RoomCard.v (k : RoomCard) : Bool := tbit k.bits 0
/-- START: restore. -/
def RoomCard.restore (k : RoomCard) : Bool := tbit k.bits 1
/-- PRIO. -/
def RoomCard.prio (k : RoomCard) : Nat := field k.bits 3 2
/-- QUADS. -/
def RoomCard.quads (k : RoomCard) : Nat := field k.bits 35 32
/-- STAY. -/
def RoomCard.stay (k : RoomCard) : Nat := field k.bits 95 80
/-- GROUPID. -/
def RoomCard.groupid (k : RoomCard) : Nat := field k.bits 127 96
/-- LAUNCH. -/
def RoomCard.launch (k : RoomCard) : Nat := field k.bits 191 128
/-- CTXADDR. -/
def RoomCard.ctx (k : RoomCard) : Nat := field k.bits 255 192

/-- The lowest bit of the first field at fault in a card (R325), if any. -/
def State.cardFault (s : State) (c : Nat) (k : RoomCard) : Option Nat :=
  let checks : List (Nat × Bool) :=
    [ (4, field k.bits 23 4 = 0), (30, field k.bits 31 30 = 0), (36, field k.bits 79 36 = 0)
    , (24, field k.bits 29 24 = c)
    , (32, k.quads ≠ 0 && (List.range 4).all fun q => !tbit k.quads q || at_ (0 : BitVec 16) (s.core c).maps q ≠ 0)
    , (128, k.launch % 64 = 0), (192, k.ctx % 4096 = 0) ]
  (checks.find? fun x => !x.2).map (·.1)

/-- Key of a group's stay counter. -/
def stayKey (launch groupid : Nat) : Nat := launch * 2 ^ 20 + groupid

/-- Whether a stay of a group has a page request or a wake notification outstanding (R326). -/
def State.stayBusy (s : State) (launch groupid stay : Nat) : Bool :=
  (s.fns.any fun f => f.pages.any fun p => p.launch = launch && p.groupid = groupid && p.stay = stay)
    || s.saved.any fun v => v.launch = launch && v.groupid = groupid && v.stay = stay && !v.eligible && v.wake.isSome

/-- The stay that a group's next assignment takes; none for its first (R326). -/
def State.nextStay (s : State) (launch groupid : Nat) : Option Nat :=
  (get none (s.stays.map fun p => (p.1, some p.2)) (stayKey launch groupid)).bind fun last =>
    ((List.range 513).map fun i => (last + 1 + i) % 65536).find? fun x => !s.stayBusy launch groupid x

/-- The launch that a card names: the first that runs from its record with the card's group still to start, or saved for a restore. -/
def State.cardLaunch (s : State) (k : RoomCard) : Option Nat :=
  (List.range s.launches.length).find? fun i =>
    let l := s.launches.getD i {}
    l.lpa = k.launch && l.begun && !l.complete && !l.abandoned && !l.aborted &&
      (if k.restore then (s.savedOf i k.groupid).isSome
       else
         let g := l.gangInfo (k.groupid / max 1 l.hdr.gang)
         k.groupid < l.lrec.gangs * max 1 l.hdr.gang && !g.started.contains (k.groupid % max 1 l.hdr.gang) && !g.waiting && !g.stopped)

/-- Whether a saved load from host memory may return (R337, R389): no request for the translation of its page is out. -/
def State.loadBack (s : State) (v : Saved) (va : Nat) : Bool :=
  match (s.walk (dieOf v.core) v.core ((v.room.group.map (·.lrec.asid)).getD 0) va).1 with
  | .found t => !s.ats.any fun a => 0x80000000000 + a.2.2 * 4096 = (t.pa + (va - t.va)) / 4096 * 4096
  | .fault _ | .poison => true

/-- Free map slots of a core (R296). -/
def State.slotsFree (s : State) (c : Nat) : Nat :=
  16 - ((s.core c).rooms.flatMap fun r => ((r.group.map (·.handles)).getD []).filter (·.isSome)).length

/-- Whether the wake condition of a saved group holds (R337, R366). -/
def State.wakes (s : State) (v : Saved) : Bool :=
  let part := (v.room.group.map (·.part)).getD 0
  v.eligible || v.state = 5 || (v.state = 1 && v.warps.any fun w => w.2.block.zipIdx.any fun (p : Block × Nat) =>
    let b := p.1
    match b.kind with
    | 4 => (let k := get {} s.counters (counterKey part b.addr.toNat)
            b.value.toNat ≤ k.value.toNat || (b.aux ≠ noDeadline && b.aux.toNat < s.gtime))
    | 5 => !(get [] s.queues (queueKey part (b.addr.toNat % 64))).isEmpty
    | 6 => (List.range 64).any fun c => (s.core c).service &&
        (((v.room.group.map (·.handles)).getD []).filter (·.isSome)).length < s.slotsFree c
    | 7 => (List.range 64).any fun c => (s.core c).service && (s.core c).jobs.length < 64
    | 8 => if b.plan.isSome then b.aux ≠ 0 else !v.loadsOut w.1 p.2 && s.loadBack v b.addr.toNat
    | 9 | 10 | 12 => true
    | _ => false)

/-- Whether a launch waits for a room: a gang of its has members to start, or a saved group may be restored (R331). -/
def State.launchWaits (s : State) (i : Nat) : Bool :=
  let l := s.launches.getD i {}
  l.begun && !l.complete && !l.abandoned && !l.aborted &&
    ((List.range l.lrec.gangs).any (fun k => let y := l.gangInfo k
        !y.stopped && !y.waiting && y.started.length < max 1 l.hdr.gang)
     || s.saved.any fun v => v.launch = i && s.wakes v)

/-- A launch's priority: one level more for each eight slices that it has waited (R331). -/
def State.rank (s : State) (l : Launch) : Nat :=
  min 3 (l.lrec.prio + (s.gtime - l.since) / (8000 * (if l.lrec.slice = 0 then 2000 else l.lrec.slice)))

/-- Whether a partition may use a cluster: it owns it, or nobody does (R384). -/
def State.mayUse (s : State) (cluster part : Nat) : Bool :=
  match at_ none s.clusters cluster with
  | some p => p = part
  | none => true

/-- The launches that wait for a room of a cluster (R331, R384). -/
def State.waitingFor (s : State) (cluster : Nat) : List Launch :=
  ((List.range s.launches.length).filter fun i => s.mayUse cluster (s.launches.getD i {}).part && s.launchWaits i).map fun i => s.launches.getD i {}

/-- A tenant's deficit on a cluster (R331). -/
def State.deficitOf (s : State) (cluster part : Nat) : Int :=
  ((s.shares.find? fun x => x.cluster = cluster && x.part = part).map (·.deficit)).getD 0

/-- Whether another launch that waits for a cluster comes first: it has a higher priority, or its tenant a larger deficit (R331). -/
def State.outranked (s : State) (cluster i : Nat) : Bool :=
  let l := s.launches.getD i {}
  (List.range s.launches.length).any fun j =>
    let k := s.launches.getD j {}
    j ≠ i && s.mayUse cluster k.part && s.launchWaits j &&
      (s.rank l < s.rank k || (s.rank l = s.rank k && s.deficitOf cluster l.part < s.deficitOf cluster k.part))

/-- Whether the tenant of a partition drains on a cluster (R338). -/
def State.drains (s : State) (cluster part : Nat) : Bool := s.shares.any fun x => x.cluster = cluster && x.part = part && x.draining

/-- Whether the Innkeeper may write a card (R160, R326, R331, R338, R384): a first stay or the counter's next, the tenant's own cluster and no
drain of its there, no launch that comes first, and for a restore the wake condition of a member of the gang, and of every member that was saved
otherwise than Blocked (log entry 115). A card that names no launch is the Innkeeper's own to write. -/
def State.mayAssign (s : State) (c : Nat) (k : RoomCard) : Bool :=
  match s.cardLaunch k with
  | none => !s.launches.any fun l => l.lpa = k.launch && !l.complete
  | some i =>
    let l := s.launches.getD i {}
    !s.drains (clusterOf c) l.part && s.mayUse (clusterOf c) l.part && !s.outranked (clusterOf c) i
    && (match s.nextStay i k.groupid with
        | some x => k.stay = x
        | none => true)
    -- a group that Lantern had evicted is restored on another core (R368)
    && !(k.restore && s.lantern.evict = 2 && s.lantern.launch = some i && ((s.savedOf i k.groupid).map (·.core)) = some c)
    && (!k.restore ||
          (let gang := s.saved.filter fun v => v.launch = i && v.groupid / max 1 l.hdr.gang = k.groupid / max 1 l.hdr.gang
           gang.any s.wakes && gang.all fun v => v.state = 1 || s.wakes v))

/-- ROOM_CARD_WRITE: the card with V = 0, and then the 8 bytes that hold V, a release at device scope (R325). -/
def State.cardWrite (s : State) (c n : Nat) (card : BitVec 256) : State :=
  if !s.mayAssign c ⟨card.toNat⟩ || 64 ≤ c || 16 ≤ n then s
  else
    let s := s.privWrite s.dunesh (cardAddr c n) 32 (card.toNat / 2 * 2)
    (s.closeEpoch s.dunesh).privWrite s.dunesh (cardAddr c n) 8 (card.toNat % 2 ^ 64)

/-- The card in a room's table. -/
def State.cardAt (s : State) (c n : Nat) : RoomCard := ⟨ofBytes ((List.range 32).map fun i => get unwritten s.mem (cardAddr c n + i))⟩

/-- V cleared in a room's card. -/
def State.clearV (s : State) (c n : Nat) : State :=
  { s with mem := put unwritten s.mem (cardAddr c n) (get unwritten s.mem (cardAddr c n) &&& 0xFE) }

/-- What a fresh start reads (R325): the launch record that a card names and the kernel header that it leads to, where the record is one that the
function and the partition may launch; the launch's own priority stands. -/
def State.readLaunch (s : State) (c : Nat) (k : RoomCard) (fn part : Nat) : State × Option (LaunchRec × KHdr) :=
  let bs := s.readAt (dieOf c) {} k.launch 64
  let r := LaunchRec.of bs.1
  if bs.2 then (s, none)
  else
    match s.checkLaunch fn part none r with
    | (s, .ok h) => (s, some (r, h))
    | (s, .error _) => (s, none)

/-- The launch that a card starts: the one it names, or one that it begins itself, where no launch of the device runs from its record. -/
def State.cardStart (s : State) (c : Nat) (k : RoomCard) : State × Option Nat :=
  match s.cardLaunch k with
  | some i => (s, some i)
  | none =>
    let part := (s.asidPart (LaunchRec.of (s.readAt (dieOf c) {} k.launch 64).1).asid).getD 64
    if k.restore || s.launches.any fun l => l.lpa = k.launch && !l.complete then (s, none)
    else
      match s.readLaunch c k (s.fnOf part) part with
      | (s, none) => (s, none)
      | (s, some (r, h)) =>
        (s.addLaunch { fn := s.fnOf part, lpa := k.launch, lrec := r, hdr := h, part := part, host := false }, some s.launches.length)

/-- The group that a card binds (R155, R324, R325): as it was saved, its slots apart, or fresh. -/
def State.boundGroup (s : State) (k : RoomCard) (i : Nat) (r : LaunchRec) (h : KHdr) : Group :=
  let l := s.launches.getD i {}
  match (if k.restore then s.savedOf i k.groupid else none) with
  | some v => { (v.room.group.getD {}) with phase := .bound, restore := true, ctx := k.ctx, stay := k.stay, prio := k.prio, quads := k.quads,
                                            warps := List.replicate 32 none, spbytes := 0, handles := [none, none, none, none] }
  | none =>
    { phase := .bound, ctx := k.ctx, launch := i, lrec := { r with prio := l.lrec.prio }, lpa := k.launch, hdr := h, groupid := k.groupid,
      stay := k.stay, prio := k.prio, quads := k.quads, part := l.part, owner := get 0 s.tenantKey l.part,
      relaunch := (l.gangInfo (k.groupid / max 1 l.hdr.gang)).relaunch }

/-- Vectors that a start acquires: the Innkeeper's, the launch's, and for a restore that of the die that saved the group (log entry 124) and the join
counter's of a forked parent (R277, R325). -/
def State.startVec (s : State) (k : RoomCard) (i : Nat) : List Nat :=
  let l := s.launches.getD i {}
  let w := match s.savedOf i k.groupid with
    | some v => joinVec v.vec (match v.wake with
        | some (id, _) => (get {} s.counters (counterKey l.part id)).vec
        | none => [])
    | none => []
  joinVec (joinVec (s.closedVec s.dunesh) l.vec) w

/-- A card's group bound in a room (R160, R325). -/
def State.bindCard (s : State) (c n : Nat) (k : RoomCard) (i : Nat) (r : LaunchRec) (h : KHdr) : State :=
  let g := s.boundGroup k i r h
  let s := (s.clearV c n).modRoom c n fun x => { hold := x.hold, stale := x.stale, group := some g, bkpt := s.lantern.launch = some i }
  let s := { s with stays := insertAt (without s.stays (stayKey i k.groupid)) (stayKey i k.groupid) k.stay }
  s.modLaunch i fun l => { l.modGang g.gang fun y => { y with started := setInsert y.started g.member } with since := s.gtime }

/-- ROOM_CARD_TAKE_UP: a valid card of a free room; a malformed one is reported, another binds its group (R160, R325). DESIGN CHOICE: a card
whose launch record or context record is none that it may start is reported too, with the bit of its LAUNCH or CTXADDR (log entry 116). -/
def State.takeCard (s : State) (c n : Nat) : State :=
  let k := s.cardAt c n
  if !k.v || (s.room c n).group.isSome || !(s.core c).service then s
  else
    match s.cardFault c k with
    | some f => (s.clearV c n).emit (.refused c n f)
    | none =>
      match s.cardStart c k with
      | (s, none) => (s.clearV c n).emit (.refused c n (if k.restore then 192 else 128))
      | (s, some i) =>
        match s.acquireVec (dieOf c) (s.startVec k i) with
        | (false, s) => s
        | (true, s) =>
          let l := s.launches.getD i {}
          if k.restore then s.bindCard c n k i l.lrec l.hdr
          else
            match s.readLaunch c k l.fn l.part with
            | (s, none) => (s.clearV c n).emit (.refused c n 128)
            | (s, some (r, h)) => s.bindCard c n k i r h

/-- ROOM_CARD_WRITE (R325). -/
def execRoomCardWrite (core room : Nat) (card : BitVec 256) (s : State) : Host.Outcome State Fault Refusal :=
  .next (s.cardWrite core room card)
/-- ROOM_CARD_TAKE_UP (R325). -/
def execRoomCardTakeUp (core room : Nat) (s : State) : Host.Outcome State Fault Refusal := .next (s.takeCard core room)

/-! ### Placing (R41, R42, R47, R154, R297) -/

/-- The first place of a length, on a granule, among used ranges below a limit. DESIGN CHOICE: the manual leaves to the hardware which free place
a group gets (log entry 106). -/
def firstFit (used : List (Nat × Nat)) (len limit : Nat) : Option Nat :=
  let ok := fun (b : Nat) => b + len ≤ limit && used.all fun u => u.1 + u.2 ≤ b || b + len ≤ u.1
  ((0 :: used.map fun u => u.1 + u.2).filter ok).foldl (fun (best : Option Nat) b => some (min b (best.getD b))) none

/-- The groups that hold storage of a core. -/
def State.holders (s : State) (c : Nat) : List Group :=
  ((s.core c).rooms.filterMap (·.group)).filter fun g => g.phase ≠ .bound

/-- The warp slot for a warp of an allotment in a quadrant, if it fits (R41). DESIGN CHOICE: the lowest free one (log entry 106). -/
def State.seat (s : State) (c q allot : Nat) : Option Nat :=
  let ws := (s.core c).warps.filter fun p => p.1 / 16 = q && p.2.isSome
  let rows := ws.foldl (fun acc p => acc + (s.groupOf c p.1).hdr.allot) 0
  if 16 ≤ ws.length || 1024 < rows + allot then none
  else ((List.range 16).map fun i => q * 16 + i).find? fun sl => (s.warp? c sl).isNone

/-- Warps placed in the quadrants of the set, warp w in the (w mod n)-th (R154). -/
def State.seatWarps (s : State) (c n : Nat) (ws : List (Nat × Warp)) : Option State :=
  let g := s.group c n
  let qs := (List.range 4).filter fun q => tbit g.quads q
  ws.foldlM (fun s w =>
    (s.seat c (at_ 0 qs (w.1 % max 1 qs.length)) g.hdr.allot).map fun sl =>
      (s.setWarp c sl { w.2 with room := n, num := w.1 }).modGroup c n fun g => { g with warps := g.warps.set w.1 (some sl) }) s

/-- A group's warps, scratchpad and tiles placed on its core, each in the first place that is free (log entry 106); none where something does not
fit (R154). -/
def State.placeGroup (s : State) (c n : Nat) (ws : List (Nat × Warp)) : Option State := do
  let g := s.group c n
  let len := roundUp g.hdr.scratch 256
  let sp ← firstFit ((s.holders c).map fun h => (h.spbase, h.spbytes)) len 0x1F0000
  let at' ← firstFit ((s.holders c).map fun h => (h.atbase, h.hdr.tiles)) g.hdr.tiles 64
  let s := s.modGroup c n fun g => { g with phase := .resident, spbase := sp, spbytes := len, atbase := at' }
  s.seatWarps c n ws

/-! ### Fresh starts (R42, R157, R175) -/

/-- A warp at a fresh start: one split with every lane at the entry point. -/
def freshWarp : Warp := { splits := [some { pc := 0, mask := -1 }, none, none, none] }

/-- Registers of a fresh warp that may hold its owner's leftovers: which ones appear is not specified, so each is a free value (R42). -/
def State.leftovers (s : State) (c slot : Nat) : State :=
  let g := s.groupOf c slot
  let a := g.hdr.allot
  let k := s.draws
  let v := fun (i : Nat) => (Config.leftover (k + i), Config.leftoverPoison (k + i))
  let s := (List.range a).foldl (fun s n => s.modCore c fun x => { x with
    rows := put {} x.rows (rowOf slot n)
      { owner := some g.owner, lanes := lanes.map fun l => LaneWord.of ((v (n * 32 + l)).1.setWidth 32) (v (n * 32 + l)).2 } }) s
  let s := s.modWarp c slot fun w => { w with
    uni := w.uni.zipIdx.map fun (p : KReg × Nat) =>
      if p.2 < g.hdr.unif then KReg.of (v (a * 32 + p.2)).1 (v (a * 32 + p.2)).2 else p.1 }
  { s with draws := k + a * 32 + 64 }

/-- One byte of the launch's arguments, with its poison: a free byte where the address cannot be read (R175). -/
def State.argByte (s : State) (c : Nat) (g : Group) (i : Nat) : State × Byte × Bool :=
  match s.innAt g.lrec.asid (g.lrec.args + i) with
  | (s, some (_, pa, a)) => (s, s.dieByte (dieOf c) a pa, a.psn || s.diePoison (dieOf c) a pa)
  | (s, none) => ({ s with draws := s.draws + 1 }, (Config.openValue s.draws).setWidth 8, false)

/-- The scratchpad that the dispatch hardware writes, word by word: the data segment's base, then the argument bytes (R51, R175). -/
def State.startPad (s : State) (c n : Nat) : State :=
  let g := s.group c n
  let s := s.spWrite c n 0 (leBytes 8 g.lrec.data)
  (List.range (g.hdr.args / 4)).foldl (fun s w =>
    let r := (List.range 4).foldl (fun (acc : State × List (Byte × Bool)) i =>
      let b := acc.1.argByte c g (4 * w + i)
      (b.1, acc.2 ++ [b.2])) (s, [])
    r.1.spWrite c n (8 + 4 * w) (r.2.map (·.1)) (r.2.any (·.2))) s

/-- A tenant's time on a cluster starts with its first group resident there; it ends a drain or save of the others (R331, R338). -/
def State.beginSlice (s : State) (cluster part : Nat) : State :=
  let here := (List.range 4).any fun i => (s.holders (cluster * 4 + i)).any fun g => g.part = part
  let s := { s with shares := s.shares.map fun (x : Share) =>
    if x.cluster = cluster && x.part ≠ part then { x with draining := false } else x }
  if here then s
  else if s.shares.any fun x => x.cluster = cluster && x.part = part then
    { s with shares := s.shares.map fun (x : Share) =>
        if x.cluster = cluster && x.part = part then { x with since := s.gtime, draining := false, saving := none, late := false } else x }
  else { s with
    shares := s.shares ++ [{ s.freshShare cluster part with since := s.gtime }]
    paced := if s.shares = [] then s.gtime / 100000 else s.paced }

/-- The members of a gang that stand bound in rooms of a core's cluster, every member once; none while one is missing. -/
def State.boundGang (s : State) (c n : Nat) (restore : Bool) : Option (List (Nat × Nat)) :=
  match (s.room c n).group with
  | none => none
  | some g =>
    let ms := (s.members g.launch g.gang).filter fun r =>
      clusterOf r.1 = clusterOf c && (s.group r.1 r.2).phase = .bound && (s.group r.1 r.2).restore = restore
    if g.phase = .bound && g.restore = restore && ms.length = max 1 g.hdr.gang then some ms else none

/-- A member's fresh start after it is placed. -/
def State.freshStart (s : State) (c n : Nat) : State :=
  let g := s.group c n
  let s := if (s.core c).wrote.contains g.owner then g.slots.foldl (fun s sl => s.leftovers c sl) s else s
  (s.startPad c n).modCore c fun k => { k with wrote := setInsert k.wrote g.owner }

/-- What a launch knows of the cores that ran it (R380): the tag T of a core is SEQ while they ran. -/
def State.noteCore (s : State) (launch c : Nat) : State :=
  s.modLaunch launch fun l => { l with cores := put 0 l.cores c (max (get 0 l.cores c) (at_ 0 s.scan.seq c + 1)) }

/-- GROUP_MAKE_RESIDENT: every member of a fresh gang at once (R154, R155). -/
def State.makeResident (s : State) (c n : Nat) : State :=
  match s.boundGang c n false with
  | none => s
  | some ms =>
    let g := s.group c n
    let s0 := s.beginSlice (clusterOf c) g.part
    match ms.foldlM (fun s r => s.placeGroup r.1 r.2 ((List.range (s.group r.1 r.2).hdr.warps).map fun w => (w, freshWarp))) s0 with
    | none => s
    | some s => ms.foldl (fun s r => (s.freshStart r.1 r.2).noteCore g.launch r.1) s

/-- GROUP_MAKE_RESIDENT (R154). -/
def execGroupMakeResident (core room : Nat) (s : State) : Host.Outcome State Fault Refusal := .next (s.makeResident core room)

/-! ### Saving (R159, R337, R351, R352) -/

/-- Whether every split of a warp waits: at a blocking point, or held by a handler (R160, R346). -/
def Warp.waits (w : Warp) : Bool :=
  !w.live || (List.range 4).all fun i => (w.split i).isNone || (at_ {} w.block i).kind ≠ 0 || at_ false w.stopped i

/-- Whether a group may leave its room (R160, R337, R351, R360). -/
def State.mayLeave (s : State) (c n : Nat) : Bool :=
  let g := s.group c n
  match g.phase with
  | .bound => false
  | .resident => g.stopped || g.slots.all fun sl => (s.warp c sl).waits
  | .suspended | .faulted | .doubleFaulted | .paging | .ended => true

/-- STATE of the record (R354). -/
def Group.saveState (g : Group) : Nat :=
  match g.phase with
  | .paging => 6
  | .doubleFaulted => 4
  | .faulted => 3
  | .suspended => 2
  | _ => if g.stopped then 5 else 1

/-- Whether a wait whose condition no longer changes after the save holds already (R337). -/
def State.waitOver (s : State) (c : Nat) (sl i : Nat) : Bool :=
  let r : SplitRef := ⟨c, sl, i⟩
  let isOver := fun (t : State) => (t.blockOf r).kind = 0
  match (s.blockOf r).kind with
  | 1 => isOver (barrierWaitEnd r s)
  | 2 => isOver (syncWaitEnd r s)
  | 11 => isOver (arriveRetry r s)
  | _ => false

/-- The saved group of a member that leaves its room. -/
def State.savedFrom (s : State) (c n st : Nat) (jobs : List Job) : Saved :=
  let g := s.group c n
  let x := s.room c n
  let ws := (g.warps.zipIdx.filterMap fun (p : Option Nat × Nat) => p.1.map fun sl => (p.2, s.warp c sl))
  { launch := g.launch, groupid := g.groupid, ctx := g.ctx, state := st, stay := g.stay, core := c, room := x, warps := ws, jobs := jobs
    wake := g.wake
    eligible := st = 1 && (!jobs.isEmpty || x.ring.pending
      || g.slots.any fun sl => (List.range 4).any fun i => s.waitOver c sl i)
    reqs := s.reqs.filterMap fun q => match q.who with
      | .split r => if r.core = c && g.slots.contains r.slot then some { q with who := .split ⟨0, (s.warp c r.slot).num, r.split⟩ } else none
      | .job _ _ | .mx _ _ | .host _ => none
    spPoison := (List.range (g.spbytes / 4)).filter fun w => (s.core c).sp.poison.contains (g.spbase / 4 + w)
    books := if g.member = 0 then s.heldBooks c g else []
    vec := s.closedVec (dieOf c) }

/-- One member of a gang leaves its room for its record. -/
def State.saveMember (s : State) (c n : Nat) : State :=
  let g := s.group c n
  let st := g.saveState
  let x := s.room c n
  let s := match x.ring.run with
    | some q => if q.started && !q.arrive then (s.setStatus c n x.ring.dcnt.toNat 1).setProgress c n x.ring.dcnt.toNat q.step else s
    | none => s
  let s := s.modRing c n fun r => { r with run := none, held := [] }
  let jobs := ((s.core c).jobs.filter fun j => j.room = n).map fun (j : Job) =>
    { j with slot := (s.warp c j.slot).num, accepted := false, started := false, edges := [] }
  let s := s.closeEpoch (dieOf c)
  let s := { s with saved := s.saved ++ [s.savedFrom c n st jobs] }
  let s := s.blit g.ctx g.hdr.ctxBytes (s.recordImage c n st jobs)
  let fn := (s.launches.getD g.launch {}).fn
  let s := if st = 6 then
      (match (s.fns.getD fn {}).pages.find? fun p => p.launch = g.launch && p.groupid = g.groupid && p.stay = g.stay with
       | some p => s.emit (.pageRequest fn p.idx g.lrec.asid p.page)
       | none => s)
    else s
  (s.modCore c fun k => { (k.dropBooks g.launch g.gang) with jobs := k.jobs.filter fun j => j.room ≠ n }).releaseRoom c n

/-- GROUP_SAVE: the gang of a room leaves its cores once all its members are Blocked, no job of theirs that performed an access is left, and
no window access of theirs stands at a port (R14, R337, R352). -/
def State.saveGang (s : State) (c n : Nat) : State :=
  match (s.room c n).group with
  | none => s
  | some g =>
    let ms := s.members g.launch g.gang
    let s := ms.foldl (fun s r => (s.group r.1 r.2).slots.foldl (fun s sl => s.drain r.1 sl fun _ => true) s) s
    if ms.all fun r => s.mayLeave r.1 r.2 && !(s.core r.1).jobs.any (fun j => j.room = r.2 && (j.performed || j.ended.isSome))
        && s.cores.all fun k => k.port.all fun p => p.owner ≠ some g.owner then
      ms.foldl (fun s r => s.saveMember r.1 r.2) s
    else s

/-- GROUP_SAVE (R352). -/
def execGroupSave (core room : Nat) (s : State) : Host.Outcome State Fault Refusal := .next (s.saveGang core room)

/-! ### Restoring (R352, R358) -/

/-- Storage of a member rewritten from its record, with the tenant's owner (R38, R352, R357). -/
def State.restoreStorage (s : State) (c n : Nat) (v : Saved) : State :=
  let g := s.group c n
  let h := g.hdr
  let pa := v.ctx
  let o := some g.owner
  let s := g.warps.zipIdx.foldl (fun (s : State) (p : Option Nat × Nat) => match p.1 with
    | none => s
    | some sl =>
      let b := h.offVreg + p.2 * h.vs
      (List.range h.allot).foldl (fun s r => lanes.foldl (fun s l =>
        let bad := tbit (s.recNum pa (b + h.allot * 128 + 4 * r) 4) l || s.recPoison pa (b + r * 128 + 4 * l) 4
        s.setVreg c sl r l (LaneWord.of (BitVec.ofNat 32 (s.recNum pa (b + r * 128 + 4 * l) 4)) bad)) s) s) s
  let s := s.modCore c fun k => { k with sp := k.sp.write spGrain o g.spbase (s.recBytes pa h.offSp g.spbytes) false }
  let s := (List.range (g.spbytes / 4)).foldl (fun s w =>
    if v.spPoison.contains w || s.recPoison pa (h.offSp + 4 * w) 4 then s.modCore c fun k => { k with sp := k.sp.strike (g.spbase / 4 + w) }
    else s) s
  (List.range h.tiles).foldl (fun s t =>
    let bad := tbit (s.recNum pa 0x78 8) t || s.recPoison pa (h.offTile + t * 24576) 24576
    let bs := s.recBytes pa (h.offTile + t * 24576) 24576
    (s.modCore c fun k => { k with acc := k.acc.write accGrain o ((g.atbase + t) * 24576) bs false }).setTilePoison c (g.atbase + t)
      bad) s

/-- The handles of a member bound to the lowest free slots of its core, each with its matrix and poison (R297); none where slots are
missing. -/
def State.restoreSlots (s : State) (c n : Nat) (v : Saved) : Option State :=
  let g := s.group c n
  let fl := s.recNum v.ctx 0xC0 1
  (List.range 4).foldlM (fun s h =>
    if !tbit fl h then some (s.modGroup c n fun g => { g with handles := g.handles.set h none })
    else
      (s.freeSlot c).map fun m =>
        let d := BitVec.ofNat 128 (s.recNum v.ctx (0x80 + 16 * h) 16)
        let s := s.modGroup c n fun g => { g with handles := g.handles.set h (some { slot := m, desc := d }) }
        let bad := tbit fl (4 + h) || s.recPoison v.ctx (g.hdr.offSlot + h * 4096) 4096
        s.loadSlot c (some g.owner) m (s.recBytes v.ctx (g.hdr.offSlot + h * 4096) 4096) bad)
    (s.modGroup c n fun g => { g with handles := [none, none, none, none] })

/-- The codebooks of member 0's record on every core of the gang (R294); none where another gang holds one of those numbers. -/
def State.restoreBooks (s : State) (cs : List Nat) (v : Saved) (holder : Nat × Nat) : Option State :=
  let held := s.recNum v.ctx 0xC1 1
  cs.foldlM (fun s c =>
    let ks : List Codebook := (s.core c).books
    let free : Bool := (List.range 8).all fun j =>
      !tbit held j || (ks.getD j {}).holder == none || (ks.getD j {}).holder == some holder
    if free then
      let put : Codebook × Nat → Codebook := fun p =>
        let strike : Bool := ((v.books.getD p.2 none).map (·.poison)).getD false
        if tbit held p.2 then ⟨some holder, s.recBytes v.ctx (0x100 + 32 * p.2) 32, strike⟩ else p.1
      some (s.modCore c fun k => { k with books := k.books.zipIdx.map put })
    else none) s

/-- The activation tables of a member (R241, R352). -/
def State.recActs (s : State) (h : KHdr) (v : Saved) : List ActTable :=
  (List.range 4).map fun i =>
    let old := at_ {} v.room.acts i
    let bank := fun (b : Nat) (x : ActBank) => { x with bytes := s.recBytes v.ctx (h.offAct + (2 * i + b) * 1088) 1056 }
    { bank0 := bank 0 old.bank0, bank1 := bank 1 old.bank1, sel := tbit (s.recNum v.ctx 0x70 1) i, count := s.recNum v.ctx (0x60 + 4 * i) 4,
      loaded := tbit (s.recNum v.ctx 0x71 1) i }

/-- The ring of a member: a record that had started goes on from where it stood, with the codebooks of its start (R75, R291; log entry 17). -/
def State.recRing (s : State) (v : Saved) : Ring :=
  let f := fun (a k : Nat) => s.recNum v.ctx a k
  let old := v.room.ring
  let r : Ring := { base := f 0x50 4, size := f 0x54 2, halt := f 0x56 1 ≠ 0, qcnt := BitVec.ofNat 32 (f 0x58 4), dcnt := BitVec.ofNat 32 (f 0x5C 4),
                    how := old.how, books := old.books }
  match old.run with
  | some q => if q.started then { r with how := .restore, books := some q.books } else { r with how := q.how, books := none }
  | none => r

/-- Withdrawn jobs submitted again in their order (R118, R352, R356). -/
def State.resubmit (s : State) (c n : Nat) (v : Saved) : State :=
  let g := s.group c n
  (List.range (s.recNum v.ctx 0xC2 1)).foldl (fun s i =>
    match v.jobs[i]? with
    | none => s
    | some j =>
      let bs := s.recBytes v.ctx (g.hdr.offJob + 128 * i) 128
      s.modCore c fun k => { k with
        jobSeq := k.jobSeq + 1
        jobs := k.jobs ++ [{ j with id := k.jobSeq, room := n, slot := (g.warps.getD j.slot none).getD 64, bytes := bs, card := Card.of bs }] }) s

/-- A member's group and room taken back from its record, after its storage (R352, R354). -/
def State.restoreRoom (s : State) (c n : Nat) (v : Saved) : State :=
  let f := fun (a k : Nat) => s.recNum v.ctx a k
  let ended := (v.room.group.map (·.phase)) = some .ended
  let live := (List.range 32).find? fun w => tbit (f (0x1106 + w * 8192) 2) 0 && v.warps.any fun p => p.1 = w
  let s := s.modGroup c n fun g => { g with
    phase := if ended then .ended else .resident
    restore := false
    stopped := v.state = 5
    stepping := none
    fault := (255, 255)
    pageaddr := 0
    wake := none
    wtimer := match live with
      | some w => BitVec.ofNat 64 (f (0x1108 + w * 8192) 8)
      | none => g.wtimer
    join := if f 0xC6 2 % 2 = 1 then some (f 0xC4 2, BitVec.ofNat 64 (f 0xC8 8)) else none
    jchk := (List.range 4).map fun i => (f (0xD0 + 4 * i) 2, f (0xD2 + 4 * i) 1) }
  let s := s.modRoom c n fun x => { x with acts := s.recActs (s.group c n).hdr v, ring := s.recRing v }
  let s := s.resubmit c n v
  let s := s.privWrite (dieOf c) (v.ctx + 8) 2 (s.group c n).stay
  { s with
    saved := s.saved.filter fun x => !(x.launch = v.launch && x.groupid = v.groupid)
    reqs := s.reqs ++ v.reqs.filterMap fun (q : MemReq) => match q.who with
      | .split r => some { q with who := .split ⟨c, ((s.group c n).warps.getD r.slot none).getD 64, r.split⟩ }
      | .job _ _ | .mx _ _ | .host _ => none }.modCore c fun k => { k with wrote := setInsert k.wrote (s.group c n).owner }

/-- GROUP_RESTORE: the gang's records are checked; one that fails stays saved with STATE 3 and its offset is reported, and the gang's rooms
are free again. Otherwise every member comes back at once, where everything fits (R352, R358). -/
def State.restoreGang (s : State) (c n : Nat) : State :=
  match s.boundGang c n true with
  | none => s
  | some ms =>
    let g := s.group c n
    let vs := ms.filterMap fun r => (s.savedOf g.launch (s.group r.1 r.2).groupid).map fun v => (r, { v with ctx := (s.group r.1 r.2).ctx })
    let bad := vs.filterMap fun p => (s.recordBad p.2 g.hdr).map fun o => (p.1, p.2, o)
    if !bad.isEmpty then
      let s := bad.foldl (fun s (b : (Nat × Nat) × Saved × Nat) =>
        { s with saved := s.saved.map fun (v : Saved) => if v.launch = b.2.1.launch && v.groupid = b.2.1.groupid then { v with state := 3, eligible := false } else v }.emit
          (.badRecord b.1.1 b.1.2 b.2.2)) s
      ms.foldl (fun s r => s.modRoom r.1 r.2 fun x => { x with group := none }) s
    else
      let s0 := s.beginSlice (clusterOf c) g.part
      let cs := (ms.map (·.1)).eraseDups
      let placed : Option State := do
        let s ← vs.foldlM (fun (s : State) (p : (Nat × Nat) × Saved) =>
          s.placeGroup p.1.1 p.1.2 ((p.2.warps.map fun w => (w.1, s.recWarp p.2.ctx g.hdr w.1 w.2)).filter fun w => w.2.live)) s0
        let s := vs.foldl (fun (s : State) (p : (Nat × Nat) × Saved) => s.restoreStorage p.1.1 p.1.2 p.2) s
        let s ← vs.foldlM (fun (s : State) (p : (Nat × Nat) × Saved) => s.restoreSlots p.1.1 p.1.2 p.2) s
        match vs.find? fun p => p.2.groupid % max 1 g.hdr.gang = 0 with
        | some p => s.restoreBooks cs p.2 (g.launch, g.gang)
        | none => some s
      match placed with
      | none => s
      | some s => vs.foldl (fun (s : State) (p : (Nat × Nat) × Saved) => (s.restoreRoom p.1.1 p.1.2 p.2).noteCore g.launch p.1.1) s

/-- GROUP_RESTORE (R352). -/
def execGroupRestore (core room : Nat) (s : State) : Host.Outcome State Fault Refusal := .next (s.restoreGang core room)

/-! ### Slices, discard, relaunch (R331, R338, R376) -/

/-- The rooms of a cluster that hold resident groups of a partition. -/
def State.tenantRooms (s : State) (cluster part : Nat) : List (Nat × Nat) :=
  ((List.range 4).flatMap fun i => (List.range 16).map fun n => (cluster * 4 + i, n)).filter fun r =>
    match (s.room r.1 r.2).group with
    | some g => g.part = part && g.phase ≠ .bound
    | none => false

/-- A group's resident time in ns (R338): sr.wtimer counts core clocks. -/
def State.residentNs (s : State) (wtimer : Nat) : Nat := wtimer * 1000 / max 1 s.mhz

/-- Save estimate of groups, in ns (R338). -/
def Group.saveBytes (g : Group) : Nat :=
  g.hdr.allot * g.hdr.warps * 128 + g.spbytes + g.hdr.tiles * 24576 + (g.handles.filter (·.isSome)).length * 4096

/-- The deadline of the launch that owns the most of some groups (R338). -/
def State.deadlineOf (s : State) (gs : List Group) : Nat :=
  let count := fun (l : Nat) => (gs.filter fun g => g.launch = l).length
  let best := gs.foldl (fun (b : Option Nat) g => match b with
    | none => some g.launch
    | some x => if count x < count g.launch then some g.launch else b) none
  match best with
  | some l => (let d := (s.launches.getD l {}).lrec.deadline
               if d = 0 then 100000 else d)
  | none => 100000

/-- Drain estimate in ns; none where it is unbounded (R338). -/
def State.drainNs (s : State) (gs : List Group) : Option Nat :=
  gs.foldl (fun (m : Option Nat) g =>
    let l := s.launches.getD g.launch {}
    match m with
    | none => none
    | some m => if l.ended = 0 then none
        else some (max m (s.residentNs (l.endTime / l.ended) - s.residentNs g.wtimer.toNat))) (some 0)

/-- A gang discarded as a restartable kernel: killed without save, and due to start afresh; sr.relaunch is unchanged (R338). -/
def State.discardGang (s : State) (launch gang : Nat) : State :=
  (s.dropGang launch gang).modLaunch launch fun l => l.modGang gang fun i => { i with started := [], ended := [] }

/-- Whether a group is of a restartable kernel (R173). -/
def Group.restartable (g : Group) : Bool := tbit g.hdr.flags 4

/-- A share changed. -/
def State.modShare (s : State) (cluster part : Nat) (f : Share → Share) : State :=
  { s with shares := s.shares.map fun (x : Share) => if x.cluster = cluster && x.part = part then f x else x }

/-- The slice of a tenant on a cluster in ns: that of its launches there, or its default (R327, R331). -/
def State.sliceNs (s : State) (x : Share) (gs : List Group) : Nat :=
  let named := (gs.map fun g => (s.launches.getD g.launch {}).lrec.slice).filter (· ≠ 0)
  named.foldl max 0 * 1000 + (if named.isEmpty then x.slice * 1000 else 0)

/-- The choice of R338 for a tenant's groups on a cluster: the first row that fits. -/
def State.preempt (s : State) (x : Share) : State :=
  let rs := s.tenantRooms x.cluster x.part
  let gs := rs.map fun r => s.group r.1 r.2
  let d := s.deadlineOf gs
  let save := (gs.map Group.saveBytes).foldl (· + ·) 0 / 256
  let spent := (gs.map fun g => s.residentNs g.wtimer.toNat).foldl (· + ·) 0
  let gangs := (gs.map fun g => (g.launch, g.gang)).eraseDups
  match s.drainNs gs with
  | some e =>
    if e ≤ d then s.modShare x.cluster x.part fun y => { y with draining := true }
    else if gs.all Group.restartable && spent < save then gangs.foldl (fun s p => s.discardGang p.1 p.2) s
    else s.modShare x.cluster x.part fun y => { y with saving := some (s.gtime + d) }
  | none =>
    if gs.all Group.restartable && spent < save then gangs.foldl (fun s p => s.discardGang p.1 p.2) s
    else s.modShare x.cluster x.part fun y => { y with saving := some (s.gtime + d) }

/-- SLICE_END: a tenant's slice on the cluster is over while another waits, or a launch of higher priority waits (R331). -/
def State.sliceEnd (s : State) (cluster : Nat) : State :=
  let due := fun (x : Share) =>
    let gs := (s.tenantRooms cluster x.part).map fun r => s.group r.1 r.2
    let prio := (gs.map (·.prio)).foldl max 0
    x.cluster = cluster && !gs.isEmpty && !x.draining && x.saving.isNone && !x.late &&
      ((x.since + s.sliceNs x gs ≤ s.gtime && (s.waitingFor cluster).any fun l => l.part ≠ x.part)
       || (s.waitingFor cluster).any fun l => prio < s.rank l)
  match s.shares.find? due with
  | some x => s.preempt x
  | none => s

/-- SLICE_END (R331). -/
def execSliceEnd (cluster : Nat) (s : State) : Host.Outcome State Fault Refusal := .next (s.sliceEnd cluster)

/-- PREEMPT_DEADLINE: gangs of restartable kernels that are still unsaved are discarded; a miss is logged for the others, which are saved
at their next blocking point (R338). -/
def State.preemptDeadline (s : State) (cluster : Nat) : State :=
  match s.shares.find? fun x => x.cluster = cluster && (match x.saving with
      | some t => t ≤ s.gtime
      | none => false) with
  | none => s
  | some x =>
    let gs := (s.tenantRooms cluster x.part).map fun r => s.group r.1 r.2
    let gangs := ((gs.filter Group.restartable).map fun g => (g.launch, g.gang)).eraseDups
    let s := gangs.foldl (fun s p => s.discardGang p.1 p.2) s
    let s := s.modShare cluster x.part fun y => { y with saving := none, late := !gs.all Group.restartable }
    if gs.all Group.restartable then s else s.emit (.missed cluster x.part)

/-- PREEMPT_DEADLINE (R338). -/
def execPreemptDeadline (cluster : Nat) (s : State) : Host.Outcome State Fault Refusal := .next (s.preemptDeadline cluster)

/-- GANG_RELAUNCH: a killed gang may start again from its record (R376). -/
def execGangRelaunch (launch gang : Nat) (s : State) : Host.Outcome State Fault Refusal :=
  .next (s.modLaunch launch fun l => if (l.gangInfo gang).waiting && !l.complete then l.modGang gang fun i => { i with waiting := false } else l)

/-- DEFICIT_UPDATE: a tenant that waits gains its weight for each 100 µs, one that holds cores loses one for each core-µs (R331). -/
def State.deficitUpdate (s : State) : State :=
  if s.gtime / 100000 ≤ s.paced then s
  else
    let waits := fun (k : Nat) => ((s.waitingFor k).map (·.part)).eraseDups
    -- a tenant that waits for a cluster and has held none of it is counted from now on
    let new := (List.range 16).flatMap fun k =>
      ((waits k).filter fun p => !s.shares.any fun x => x.cluster = k && x.part = p).map fun p => s.freshShare k p
    { s with
      paced := s.paced + 1
      shares := (s.shares ++ new).map fun (x : Share) =>
        let cores := ((s.tenantRooms x.cluster x.part).map (·.1)).eraseDups.length
        let grow := if (waits x.cluster).contains x.part then x.weight else 0
        { x with deficit := x.deficit + grow - 100 * cores } }

/-- DEFICIT_UPDATE (R331). -/
def execDeficitUpdate (s : State) : Host.Outcome State Fault Refusal := .next s.deficitUpdate

/-- PARTITION_START: the partition's counters are zero, its pool and queues empty, and the launches of its persistent kernels begin (R157,
R158, R332). -/
def State.partitionStart (s : State) (part : Nat) : State :=
  if s.started.contains part then s
  else { s with
    started := setInsert s.started part
    counters := s.counters.filter fun p => p.1 / 65536 ≠ part
    tasks := s.tasks.filter fun t => t.part ≠ part
    queues := s.queues.filter fun p => p.1 / 64 ≠ part
    launches := s.launches.map fun (l : Launch) => if l.part = part then { l with begun := true } else l }

/-- PARTITION_START (R157). -/
def execPartitionStart (part : Nat) (s : State) : Host.Outcome State Fault Refusal := .next (s.partitionStart part)

end Sys2Proof.Machine
end

