-- ==== Sys2Proof/Machine/Fabric.lean ====
section
/-! DEFINITION. Packets between dies and between devices: waystations and flows (R133 to R138), what packets carry (R35, R108, R113, R114), the
host's accesses (R113, R403), and CXL.cache requests (R112). -/

namespace Sys2Proof.Machine

/-! ### Writes that come from outside (R113, R114) -/

/-- A write from outside: one remote write for each sector, stamped with the receiving die's open epoch, which a flow takes on to a line that is
homed on another die (R107, R113, R114, R138). -/
def State.remoteIn (s : State) (d tag : Nat) (key : Option Nat) (ws : List ByteWrite) : State :=
  (sectorsOf (ws.map (·.pa))).foldl (fun s k =>
    let mine := ws.filter fun w => w.pa / 64 = k
    let h := homeDie (k * 64)
    let r : Remote := { src := d, dst := h, stamp := (s.die d).vc, sector := k, bytes := mine.map fun w => (w.pa % 64, w.val),
                        poison := mine.any (·.poison), key := key, desc := false, inval := false, id := s.netSeq, ext := true, tag := tag,
                        here := h = d }
    let t := { s with net := s.net ++ [r], netSeq := s.netSeq + 1 }.modDie d fun x => { x with first := some (x.first.getD s.gtime) }
    if h = d then t else t.sendOut d { dev := none, die := h, p := packetOf (.remote r.id false) 0 [] false 0 0 }) s

/-- Whether an access from outside may go to an address: memory, and neither control space nor a core window (R18, R21). -/
def outsideMay (pa : Nat) : Bool :=
  match paKind pa with
  | .hbm | .host | .peer => true
  | .control | .onchip | .reserved => false

/-- How a packet from a peer reaches memory: this device's key map decides on its KEY (R35), and none where it refuses. -/
def State.packetAttr (s : State) (p : Packet) : Option Attr :=
  match s.keyOf p.part p.key p.pa with
  | .ok k => if outsideMay p.pa then some { key := k } else none
  | .error _ => none

/-- A peer's write enters the device. DESIGN CHOICE: one that the key map or the physical map refuses is discarded (log entry 113). -/
def State.peerWrite (s : State) (d tag : Nat) (p : Packet) : State :=
  match s.packetAttr p with
  | some a => s.remoteIn d tag a.key (p.data.zipIdx.map fun b => { pa := p.pa + b.2, val := b.1, poison := p.poison })
  | none => s

/-- A peer's read is answered from the line's home; one that is refused, with poison (log entry 113). -/
def State.peerRead (s : State) (d : Nat) (p : Packet) (len tag : Nat) : State :=
  let r := match s.packetAttr p with
    | some a => s.readAt (homeDie p.pa) a p.pa len
    | none => (List.replicate len 0, true)
  s.sendOut d { dev := some p.sdev, die := p.sdie, ordered := p.mode = 1, p := packetOf (.answer tag) p.pa r.1 r.2 p.key p.part }

/-- The answer to a read of a peer: the sector's bytes, for those who asked (R138, R161). -/
def State.peerAnswer (s : State) (tag : Nat) (p : Packet) : State :=
  match s.reqs.find? fun q => q.tag = tag && !q.done && paKind (q.sector * 64) = .peer with
  | none => s
  | some q =>
    { s with
      mem := putBytes s.mem (q.sector * 64) p.data
      memPoison := if p.poison then setInsert s.memPoison q.sector else setErase s.memPoison q.sector }.came fun x => x.tag = tag && x.sector = q.sector

/-! ### Waystations (R134, R135) -/

/-- Whether a delivered packet still waits to be handed to the memory system (R134). -/
def State.inHand (s : State) (tag : Nat) : Bool := s.net.any fun r => 65 ≤ tag && r.tag = tag && !r.applied

/-- General and reserve slots in use at a die's waystation. -/
def State.slotsUsed (s : State) (d : Nat) : Nat × Nat :=
  let x := s.die d
  let all_ := ((x.ways.filter fun w => s.inHand w.1).map (·.2)) ++ x.rx.flatMap fun f => f.held.map (·.2)
  ((all_.filter (!·)).length, (all_.filter id).length)

/-- Whether a general slot is free: 512 of the 16,384 slots are the reserve. -/
def State.generalFree (s : State) (d : Nat) : Bool := (s.slotsUsed d).1 < 16384 - 512
/-- Whether a reserve slot is free. -/
def State.reserveFree (s : State) (d : Nat) : Bool := (s.slotsUsed d).2 < 512

/-- How far a sequence number lies after another, modulo 2^24 (R133). -/
def seqAfter (a b : Nat) : Nat := (b + 2 ^ 24 - a) % 2 ^ 24

/-- The flow that a packet belongs to (R133). -/
def FlowRx.takes (f : FlowRx) (p : Packet) : Bool := f.sdev = p.sdev && f.sdie = p.sdie && f.flow = p.flow

/-- A flow's state at its destination put in its place. -/
def State.setRx (s : State) (d : Nat) (f : FlowRx) : State :=
  s.modDie d fun x =>
    let mine := fun (g : FlowRx) => g.sdev = f.sdev && g.sdie = f.sdie && g.flow = f.flow
    { x with rx := if x.rx.any mine then x.rx.map fun g => if mine g then f else g else x.rx ++ [f] }

/-- What a delivered packet carries is handed on, under a number by which its slot is held (R108, R114, R134, R138). -/
def State.handOn (s : State) (d tag : Nat) (p : Packet) : State :=
  match p.op with
  | .write => s.peerWrite d tag p
  | .read len n => s.peerRead d p len n
  | .answer n => s.peerAnswer n p
  | .remote id inval =>
    { s with net := s.net.map fun (r : Remote) =>
        if r.id = id && r.inval = inval && r.dst = d then { r with here := true, tag := if r.ext then r.tag else tag } else r }
  | .mark n => { s with msgs := s.msgs ++ [{ src := p.sdie, dst := d, mark := true, n := n }] }
  | .askClose n => { s with msgs := s.msgs ++ [{ src := p.sdie, dst := d, mark := false, n := n }] }

/-- A packet delivered: its slot is held until its access is applied (R134). -/
def State.deliver (s : State) (d : Nat) (f : FlowRx) (p : Packet) (reserve : Bool) : State :=
  let tag := 65 + s.netSeq
  let t := { s with netSeq := s.netSeq + 1 }.handOn d tag p
  (t.modDie d fun x => { x with ways := (x.ways.filter fun w => t.inHand w.1) ++ [(tag, reserve)] }).setRx d { f with last := tag }

/-- An ACK of a packet. -/
def State.ackPacket (s : State) (d : Nat) (p : Packet) : State :=
  if p.sdev = 128 then { s with wire := s.wire ++ [.ack p.sdie p.flow p.seq] } else s.emit (.ack d p.sdev p.sdie p.flow p.seq)
/-- A NAK of a packet. -/
def State.nakPacket (s : State) (d : Nat) (p : Packet) : State :=
  if p.sdev = 128 then { s with wire := s.wire ++ [.nak p.sdie p.flow p.seq] } else s.emit (.nak d p.sdev p.sdie p.flow p.seq)

/-- A packet of an ordered flow (R134, R135). DESIGN CHOICE: one that lies 1,024 or more numbers after NEXT counts as a duplicate (log entry
104). -/
def State.arriveOrdered (s : State) (d : Nat) (f : FlowRx) (p : Packet) : State :=
  let dist := seqAfter f.next p.seq
  if 1024 ≤ dist || f.held.any (fun h => h.1.seq = p.seq) then s.ackPacket d p
  else if dist = 0 then
    if !s.generalFree d && !s.reserveFree d then s.nakPacket d p
    else
      let reserve := !s.generalFree d
      let s := s.ackPacket d p
      if s.inHand f.last then s.setRx d { f with held := f.held ++ [(p, reserve)] }
      else s.deliver d { f with next := (f.next + 1) % 2 ^ 24 } p reserve
  else if s.generalFree d then (s.ackPacket d p).setRx d { f with held := f.held ++ [(p, false)] }
  else s.nakPacket d p

/-- A packet of an unordered flow (R134): `next` follows the newest number seen, and the window is the 1,024 numbers before it. -/
def State.arriveUnordered (s : State) (d : Nat) (f : FlowRx) (p : Packet) : State :=
  let ahead := seqAfter f.next p.seq < 2 ^ 23
  if !ahead && (1024 < seqAfter p.seq f.next || f.seen.contains p.seq) then s.ackPacket d p
  else if s.generalFree d then
    let next := if ahead then (p.seq + 1) % 2 ^ 24 else f.next
    (s.ackPacket d p).deliver d { f with next := next, seen := (p.seq :: f.seen).filter fun n => seqAfter n next ≤ 1024 } p false
  else s.nakPacket d p

/-- Whether a packet carries what only the dies of one device send to one another (R138). -/
def innerOp (o : PktOp) : Bool :=
  match o with
  | .remote _ _ | .mark _ | .askClose _ => true
  | .write | .read _ _ | .answer _ => false

/-- A data packet handled at a die's waystation (R134). MODE 1x is discarded (R133). DESIGN CHOICE: a packet of more than 256 payload bytes is
discarded without a NAK (log entry 105). -/
def State.receive (s : State) (d : Nat) (p : Packet) : State :=
  let go := fun (s : State) (f : FlowRx) => if f.ordered then s.arriveOrdered d f p else s.arriveUnordered d f p
  if 256 < p.data.length || 2 ≤ p.mode then s
  else
    match (s.die d).rx.find? fun f => f.takes p with
    | some f => go s f
    | none =>
      if p.seq ≠ 0 || 8192 ≤ (s.die d).rx.length then s.nakPacket d p
      else
        let f : FlowRx := { sdev := p.sdev, sdie := p.sdie, flow := p.flow, ordered := p.mode = 1, next := 0 }
        go (s.setRx d f) f

/-- PACKET_ARRIVAL (R134): a packet of a peer, or one that is on its way between two dies of the device. -/
def State.arrive (s : State) (d : Nat) (p : Packet) : State :=
  if p.sdev = 128 then
    if s.wire.contains (.data d p) then { s with wire := s.wire.erase (.data d p) }.receive d p else s
  else if innerOp p.op then s
  else s.receive d p

/-- ORDERED_DELIVERY: the k-th flow of a waystation delivers NEXT once the access before it is performed (R135). -/
def State.deliverNext (s : State) (d k : Nat) : State :=
  match (s.die d).rx[k]? with
  | none => s
  | some f =>
    if s.inHand f.last then s
    else
      match f.held.find? fun h => h.1.seq = f.next with
      | some h => s.deliver d { f with next := (f.next + 1) % 2 ^ 24, held := f.held.erase h } h.1 h.2
      | none => s

/-- CLOSE: the flow's state is freed; its source closes after every acknowledgement, so what is still buffered is delivered first
(R133). -/
def State.closeFlow (s : State) (d sdev sdie flow : Nat) : State :=
  let item := Wire.close d sdie flow
  let busy := (s.die d).rx.any fun f => f.sdev = sdev && f.sdie = sdie && f.flow = flow && !(f.held = [] && !s.inHand f.last)
  if busy || (sdev = 128 && !s.wire.contains item) then s
  else
    { s with wire := if sdev = 128 then s.wire.erase item else s.wire }.modDie d fun x =>
      { x with rx := x.rx.filter fun f => !(f.sdev = sdev && f.sdie = sdie && f.flow = flow) }

/-- PACKET_ARRIVAL (R134). -/
def execPacketArrival (die : Nat) (p : Packet) (s : State) : Host.Outcome State Fault Refusal := .next (s.arrive die p)
/-- ORDERED_DELIVERY (R135). -/
def execOrderedDelivery (die flow : Nat) (s : State) : Host.Outcome State Fault Refusal := .next (s.deliverNext die flow)
/-- CLOSE (R133). -/
def execClose (die sdev sdie flow : Nat) (s : State) : Host.Outcome State Fault Refusal := .next (s.closeFlow die sdev sdie flow)

/-- LINK_FRAME_RECEIVE: a frame whose errors cannot be corrected is discarded, and its packets are lost; the packets of another arrive in order
(R137). -/
def State.frame (s : State) (die : Nat) (ok : Bool) (ps : List Packet) : State :=
  if ok then ps.foldl (fun s p => s.arrive die p) s else { s with wire := ps.foldl (fun w p => w.erase (.data die p)) s.wire }

/-- LINK_FRAME_RECEIVE (R137). -/
def execLinkFrameReceive (die : Nat) (ok : Bool) (ps : List Packet) (s : State) : Host.Outcome State Fault Refusal := .next (s.frame die ok ps)

/-! ### Sources (R136) -/

/-- A flow of a source changed. -/
def State.modTx (s : State) (d flow : Nat) (f : FlowTx → FlowTx) : State :=
  s.modDie d fun x => { x with tx := x.tx.map fun y => if y.flow = flow then f y else y }

/-- The backoff after n refusals in a row, in ns (R136). -/
def backoff (n : Nat) : Nat := 128 * 2 ^ min n 6

/-- Whether a die sees an answer to a packet of a flow: from a peer, or one on its way between two dies of the device. -/
def State.hears (s : State) (d flow : Nat) (w : Wire) : Bool :=
  s.wire.contains w || !(s.die d).tx.any fun f => f.flow = flow && f.dev.isNone

/-- What waits at a die for a flow number is sent, as far as numbers are free (R133). -/
def State.flushTx (s : State) (d : Nat) : State :=
  ((s.die d).txq).foldl (fun s o => s.sendOut d o) (s.modDie d fun x => { x with txq := [] })

/-- ACK: the packet leaves the replay buffer, n is 0 again, and packets that waited may go (R136). -/
def State.acked (s : State) (d flow seq : Nat) : State :=
  if !s.hears d flow (.ack d flow seq) then s
  else
    let t := { s with wire := s.wire.erase (.ack d flow seq) }.modTx d flow fun f => { f with
      buf := f.buf.filter fun r => !(r.sent && r.p.seq = seq)
      naks := 0
      hold := f.hold.filter (· ≠ seq) }
    ((t.pump d flow).flushTx d).sendIrqs

/-- NAK: one more refusal in a row, and the packet goes again after the backoff; an ordered flow holds its new packets back (R136). -/
def State.naked (s : State) (d flow seq : Nat) : State :=
  if !s.hears d flow (.nak d flow seq) then s
  else
    { s with wire := s.wire.erase (.nak d flow seq) }.modTx d flow fun f =>
      if !f.buf.any fun r => r.sent && r.p.seq = seq then f
      else { f with
        naks := f.naks + 1
        hold := if f.ordered then setInsert f.hold seq else f.hold
        buf := f.buf.map fun (r : Replay) =>
          if r.sent && r.p.seq = seq then { r with due := s.gtime + backoff (f.naks + 1), timed := false } else r }

/-- Whether a packet in a replay buffer is to be sent again (R136). -/
def Replay.ready (r : Replay) (naks now : Nat) : Bool := r.sent && r.due + (if r.timed then backoff naks else 0) ≤ now

/-- PACKET_RESEND (R136). -/
def State.resend (s : State) (d flow seq : Nat) : State :=
  match (s.die d).tx.find? fun f => f.flow = flow with
  | none => s
  | some f =>
    match f.buf.find? fun r => r.p.seq = seq && r.ready f.naks s.gtime with
    | none => s
    | some r =>
      if f.dev.isSome && !s.mayTransmit d r.p.part then s
      else
        (s.modTx d flow fun f => { f with
          buf := f.buf.map fun (x : Replay) => if x = r then { x with due := s.gtime + 50000, timed := true } else x }).launch_ d f r.p

/-- ACK (R136). -/
def execAck (die flow seq : Nat) (s : State) : Host.Outcome State Fault Refusal := .next (s.acked die flow seq)
/-- NAK (R136). -/
def execNak (die flow seq : Nat) (s : State) : Host.Outcome State Fault Refusal := .next (s.naked die flow seq)
/-- PACKET_RESEND (R136). -/
def execPacketResend (die flow seq : Nat) (s : State) : Host.Outcome State Fault Refusal := .next (s.resend die flow seq)

/-- The oldest of what is on its way between the dies reaches its die. -/
def State.wireNext (s : State) : State :=
  match s.wire with
  | [] => s
  | .data d p :: _ => s.arrive d p
  | .ack d flow seq :: _ => s.acked d flow seq
  | .nak d flow seq :: _ => s.naked d flow seq
  | .close d sdie flow :: _ => s.closeFlow d 128 sdie flow

/-- A port that has retrained: it resumes, and packets that waited go (R383). -/
def State.trained (s : State) (port : Nat) : State :=
  let t := { s with ports := modifyAt s.ports port fun p => if p.training then { p with training := false, rate := p.target } else p }
  (List.range 8).foldl (fun t d => ((t.die d).tx.map (·.flow)).foldl (fun t f => t.pump d f) t) t

/-! ### The host's accesses (R112, R113, R403) -/

/-- The partition of a function; the PF belongs to none (R384). -/
def State.partOf (s : State) (fn : Nat) : Nat := if fn = 0 then 64 else get 0 s.fnPart fn

/-- The physical address behind an address that a function's host gives, as a die looks it up: an IPA of the VF's partition, which has to permit a
write (R30), or for the PF a physical address (log entry 21). -/
def State.hostPa (s : State) (d fn a : Nat) (write : Bool) : Option Nat :=
  if 65 ≤ fn || !(s.fns.getD fn {}).enabled then none
  else
    let pa := if fn = 0 then some a else s.ipaToPa d (s.partOf fn) a write
    pa.filter outsideMay

/-- The log of lookups of a function's addresses that met a poisoned entry (R403). -/
def State.logLookup (s : State) (d agent fn a n : Nat) : State :=
  match (List.range n).find? fun i => fn ≠ 0 && fn < 65 && s.ipaPoison d (s.partOf fn) (a + i) with
  | some i => s.emit (.poisonedWalk agent 0 (a + i))
  | none => s

/-- Whether every posted write of a function has been applied (R113). -/
def State.postedClear (s : State) (fn : Nat) : Bool := !s.net.any fun r => r.ext && r.tag = fn && !r.applied

/-- A host's posted write: a remote write of the receiving die (R113); one that cannot be translated is dropped (R403). -/
def State.postedWrite (s : State) (die fn pa : Nat) (data : List Byte) : State :=
  match data.zipIdx.mapM fun b => (s.hostPa die fn (pa + b.2) true).map fun a => ({ pa := a, val := b.1 } : ByteWrite) with
  | some ws => s.remoteIn die fn none ws
  | none => s.logLookup die (hostAgent die) fn pa data.length

/-- HOST_POSTED_WRITE (R113). -/
def execHostPostedWrite (die fn pa : Nat) (data : List Byte) (s : State) : Host.Outcome State Fault Refusal :=
  .next (s.postedWrite die fn pa data)

/-- Bytes at a function's addresses as an agent of a die reads them, none where one cannot be translated or is poisoned. -/
def State.fnBytes (s : State) (die fn a n : Nat) : Option (List Byte) :=
  (List.range n).mapM fun i => (s.hostPa die fn (a + i) false).bind fun pa => if s.diePoison die {} pa then none else some (s.dieByte die {} pa)

/-- Bytes at a function's addresses as the Innkeeper reads them; a lookup that meets a poisoned entry is logged (R403). -/
def State.innBytes (s : State) (fn a n : Nat) : State × Option (List Byte) :=
  (s.logLookup s.dunesh (hostAgent s.dunesh) fn a n, s.fnBytes s.dunesh fn a n)

/-- Bytes written by the Innkeeper at a function's address; nothing where it cannot be translated (R403). -/
def State.fnWrite (s : State) (fn a : Nat) (bs : List Byte) : State :=
  match bs.zipIdx.mapM fun b => (s.hostPa s.dunesh fn (a + b.2) true).map fun pa => ({ pa := pa, val := b.1 } : ByteWrite) with
  | some ws => s.writeAll s.dunesh (fun _ => {}) {} ws
  | none => s.logLookup s.dunesh (hostAgent s.dunesh) fn a bs.length

/-- The function whose host sends a request; none for one that concerns every function. -/
def Request.fn : Request → Option Nat
  | .doorbell fn _ _ | .admin fn _ | .flr fn | .read _ fn _ _ | .page fn _ _ | .register fn _ _ => some fn
  | .vfClear => none

/-- Whether two requests concern one function: they take effect in the order in which they came. -/
def Request.sameFn (a b : Request) : Bool :=
  match a.fn, b.fn with
  | some x, some y => x = y
  | _, _ => true

/-- Whether the firmware lets a request take effect (R393, R399). -/
def State.servedNow (s : State) (i : Request) : Bool :=
  match i with
  | .read _ _ _ _ | .register _ _ _ => true
  | .page _ _ _ => s.fw.phase ≠ .handover
  | _ => s.fw.phase = .running

/-- Whether a host request may take effect: after the firmware's update, the earlier posted writes of its function, and the requests that
wait before it (R113, R399). -/
def State.mayServe (s : State) (i : Request) : Bool :=
  s.servedNow i && s.postedClear (i.fn.getD 0) && !(s.held.takeWhile (· ≠ i)).any i.sameFn

/-- A host request takes effect, or waits its turn (R113, R399). -/
def State.serve (s : State) (i : Request) (f : State → State) : State :=
  if s.mayServe i then f { s with held := s.held.erase i }
  else if s.held.contains i then s else { s with held := s.held ++ [i] }

/-- A read of the host answered with data, or with CXL data poison (R403). -/
def State.answerRead (s : State) (die fn pa len : Nat) : State :=
  let at' := (List.range len).filterMap fun i => s.hostPa die fn (pa + i) false
  let ans := s.fnBytes die fn pa len
  let s := s.logLookup die (hostAgent die) fn pa len
  (s.mergeAll die (s.stampsOf die [.mem (at'.map fun a => (a, {}))] len)).emit (.readData die ans)

/-- HOST_READ (R403). -/
def execHostRead (die fn pa len : Nat) (s : State) : Host.Outcome State Fault Refusal :=
  .next (s.serve (.read die fn pa len) fun s => s.answerRead die fn pa len)

/-- CXL_CACHE_SNOOP: the home slice gives up a host-memory line, or keeps it clean; either way it may no longer write it without asking
(R112). -/
def State.snoop (s : State) (d sector : Nat) (inval : Bool) : State :=
  if paKind (sector * 64) ≠ PaKind.host || homeDie (sector * 64) ≠ d || (s.sec d sector).isNone then s
  else
    let bs := (List.range 64).map fun i => s.homeByte none (sector * 64 + i)
    let t := if inval then s.evictSec sector else s.cleanSec sector
    { t with l2 := t.l2.map fun (x : L2Sec) => if x.die = d && x.sector = sector then { x with owned := false } else x }.emit (.cacheState d sector bs)

/-- CXL_CACHE_SNOOP (R112). -/
def execCxlCacheSnoop (die sector : Nat) (inval : Bool) (s : State) : Host.Outcome State Fault Refusal := .next (s.snoop die sector inval)

end Sys2Proof.Machine
end

