-- ==== Sys2Proof/Machine/HostQueue.lean ====
section
/-! DEFINITION. Submission queues and completions (R328 to R330, R380, R382), function registers (R390), page responses (R392, R393) and
ATS (R389). -/

namespace Sys2Proof.Machine

/-! ### Completions (R330) -/

/-- The 16 bytes of a completion entry. -/
def completion (status tag detail : Nat) (phase : Bool) : List Byte :=
  leBytes 16 (detail % 2 ^ 64 * 2 ^ 64 + tag * 2 ^ 32 + status * 2 ^ 24 + (if phase then 1 else 0))

/-- A ring after one entry is written into it: PHASE flips with each wrap. -/
def HostRing.next (r : HostRing) : HostRing :=
  { r with tail := (r.tail + 1) % r.size, phase := if r.tail + 1 = r.size then !r.phase else r.phase }

/-- A completion of a submission queue, with its interrupt; without a registered ring there is none. -/
def State.post (s : State) (fn status tag detail : Nat) : State :=
  let r := (s.fns.getD fn {}).cq
  if r.size = 0 then s
  else
    ((s.fnWrite fn (r.base + 16 * r.tail) (completion status tag detail r.phase)).modFn fn fun f => { f with cq := r.next }).interrupt fn r.vec s.netSeq

/-- A confirmation entry (R382). -/
def State.postConf (s : State) (fn status tag : Nat) : State :=
  let r := (s.fns.getD fn {}).conf
  if r.size = 0 then s
  else
    ((s.fnWrite fn (r.base + 16 * r.tail) (completion status tag 0 r.phase)).modFn fn fun f => { f with conf := r.next }).interrupt fn r.vec s.netSeq

/-- Whether a completed launch is confirmed: every core it ran on has passed a scan since (R380). -/
def State.scanned (s : State) (l : Launch) : Bool := l.cores.all fun p => p.2 ≤ at_ 0 s.scan.seq p.1

/-- LAUNCH_CONFIRM: STATUS 4 for every completed launch whose tags have all passed (R380, R382). -/
def State.confirmAll (s : State) : State :=
  (List.range s.launches.length).foldl (fun s n =>
    let l := s.launches.getD n {}
    if l.host && l.complete && !l.confirmed && !l.abandoned && !l.aborted && s.scanned l then
      (s.modLaunch n fun l => { l with confirmed := true }).postConf l.fn 4 l.tag
    else s) s

/-! ### Submission queues (R328, R329) -/

/-- A submission ring changed. -/
def State.modSq (s : State) (fn q : Nat) (f : HostRing → HostRing) : State := s.modFn fn fun x => { x with sqs := modifyAt x.sqs q f }

/-- SQ_DOORBELL: the tail moves (R113, R328). -/
def State.ring (s : State) (fn q tail : Nat) : State :=
  s.modSq fn q fun r => if r.size = 0 then r else { r with tail := tail % r.size }

/-- SQ_DOORBELL. -/
def execSqDoorbell (fn q tail : Nat) (s : State) : Host.Outcome State Fault Refusal :=
  .next (s.serve (.doorbell fn q tail) fun s => s.ring fn q tail)

/-- The entry of a queue that may begin: in ring order, not behind a CWAIT, with SERIAL only when every earlier entry has completed, and not
while the firmware is updated or the partition reset (R328, R329, R385, R399). An entry that cannot be read has no command. -/
def State.sqEntry (s : State) (fn q : Nat) : Option Nat :=
  let f := s.fns.getD fn {}
  let r := at_ {} f.sqs q
  if r.size = 0 || r.head = r.tail || (at_ none f.cwait q).isSome || s.fw.phase ≠ .running || f.resetting || !f.enabled || 16 ≤ q then none
  else
    let e := ((s.fnBytes s.dunesh fn (r.base + 64 * r.head) 64).map ofBytes).getD 0
    if tbit e 8 && at_ 0 f.open_ q ≠ 0 then none else some e

/-- The entry has begun. -/
def State.sqTake (s : State) (fn q : Nat) : State := s.modSq fn q fun r => { r with head := (r.head + 1) % r.size }

/-- Entries begun and not completed. -/
def State.modOpen (s : State) (fn q : Nat) (f : Nat → Nat) : State := s.modFn fn fun x => { x with open_ := modifyAt x.open_ q f }

/-- CMD of an entry. -/
def sqCmd (e : Nat) : Nat := e % 256
/-- TAG of an entry. -/
def sqTag (e : Nat) : Nat := field e 63 32
/-- Whether an entry's reserved bits are zero. -/
def sqClean (e : Nat) : Bool := field e 511 448 = 0 && field e 303 64 = 0 && field e 31 9 = 0

/-- An entry of a command begins: refused with STATUS 1, or with its effect. -/
def State.sqBegin (s : State) (fn q cmd : Nat) (f : State → Nat → State) : State :=
  match s.sqEntry fn q with
  | none => s
  | some e =>
    let r := at_ {} (s.fns.getD fn {}).sqs q
    let s := s.logLookup s.dunesh (hostAgent s.dunesh) fn (r.base + 64 * r.head) 64
    let known := 1 ≤ sqCmd e && sqCmd e ≤ 4
    if !known && cmd = 4 then (s.sqTake fn q).post fn 1 (sqTag e) 0
    else if sqCmd e ≠ cmd then s
    else if !sqClean e then (s.sqTake fn q).post fn 1 (sqTag e) 0
    else f (s.sqTake fn q) e

/-- A launch recorded, after its record and header passed. A launch of a persistent kernel begins at its partition's start-up (R157, R158). -/
def State.hostLaunch (s : State) (fn q tag pa : Nat) (r : LaunchRec) (h : KHdr) : State :=
  let part := s.partOf fn
  s.addLaunch { fn := fn, queue := q, tag := tag, lpa := pa, lrec := r, hdr := h, part := part, host := true,
                begun := !tbit h.flags 2 }

/-- LAUNCH: the record is read and checked, and the launch starts (R327, R329). -/
def State.sqLaunch (s : State) (fn q e : Nat) : State :=
  let a := field e 447 384
  match (if a % 64 = 0 then s.hostPa s.dunesh fn a false else none), s.fnBytes s.dunesh fn a 64 with
  | some pa, some bs =>
    let r := LaunchRec.of bs
    match s.admitLaunch fn (s.partOf fn) none r with
    | (s, .error n) => s.post fn 2 (sqTag e) n
    | (s, .ok h) => (s.hostLaunch fn q (sqTag e) pa r h).modOpen fn q (· + 1)
  | _, _ => (s.logLookup s.dunesh (hostAgent s.dunesh) fn a 64).post fn 1 (sqTag e) 0

/-- LAUNCH (R329). -/
def execLaunch (fn q : Nat) (s : State) : Host.Outcome State Fault Refusal := .next (s.sqBegin fn q 1 fun s e => s.sqLaunch fn q e)

/-- Whether every write that the device's work has made is performed at system scope, as a completion asks (R113, R330). -/
def State.quiet (s : State) : Bool :=
  !s.net.any (fun r => !r.ext) && s.dies.all (fun d => d.tx.all fun f => f.buf = []) && s.cores.all fun k => k.port = []

/-- Whether every group of a launch has ended and left, with its `joinc` increments applied (R329). -/
def State.launchOver (s : State) (n : Nat) : Bool :=
  let l := s.launches.getD n {}
  let gone := allRooms.all fun r => match (s.room r.1 r.2).group with
    | some g => g.launch ≠ n
    | none => true
  gone && (l.abandoned || (List.range l.lrec.gangs).all fun k =>
    let i := l.gangInfo k
    !i.waiting && (List.range (max 1 l.hdr.gang)).all fun m => i.ended.contains m)

/-- LAUNCH_COMPLETE: the completion entry, STATUS 6 for an abandoned launch (R329, R330, R391). -/
def State.launchComplete (s : State) (n : Nat) : State :=
  let l := s.launches.getD n {}
  if s.launches.length ≤ n || l.complete || l.aborted || !l.begun || !s.launchOver n || !s.quiet || s.fw.phase ≠ .running then s
  else
    let s := s.modLaunch n fun l => { l with complete := true }
    if !l.host then s
    else ((s.modOpen l.fn l.queue (· - 1)).post l.fn (if l.abandoned then 6 else 0) l.tag 0).confirmAll

/-- LAUNCH_COMPLETE. -/
def execLaunchComplete (launch : Nat) (s : State) : Host.Outcome State Fault Refusal := .next (s.launchComplete launch)

/-- CINC_ENTRY: acts as `cinc` does, as a release of what the queue completed before it (R273, R329). -/
def State.sqCinc (s : State) (fn q e : Nat) : State :=
  if fn = 0 || 16 ≤ q then s.post fn 1 (sqTag e) 0
  else
    let d := s.dunesh
    let s := s.closeEpoch d
    (s.counterAdd (s.partOf fn) (field e 319 304) (BitVec.ofNat 64 (field e 383 320)) (s.closedVec d)).post fn 0 (sqTag e) 0

/-- CINC_ENTRY (R329). -/
def execCincEntry (fn q : Nat) (s : State) : Host.Outcome State Fault Refusal := .next (s.sqBegin fn q 2 fun s e => s.sqCinc fn q e)

/-- CWAIT: the queue's later entries wait (R329). -/
def State.sqCwait (s : State) (fn q e : Nat) : State :=
  if fn = 0 then s.post fn 1 (sqTag e) 0
  else (s.modOpen fn q (· + 1)).modFn fn fun f =>
    { f with cwait := f.cwait.set q (some (field e 319 304, BitVec.ofNat 64 (field e 383 320), sqTag e)) }

/-- CWAIT. -/
def execCwait (fn q : Nat) (s : State) : Host.Outcome State Fault Refusal := .next (s.sqBegin fn q 3 fun s e => s.sqCwait fn q e)

/-- CWAIT_SATISFIED: the counter has reached VALUE (R329). -/
def State.cwaitMet (s : State) (fn q : Nat) : State :=
  match at_ none (s.fns.getD fn {}).cwait q with
  | none => s
  | some (id, v, tag) =>
    if (get {} s.counters (counterKey (s.partOf fn) id)).value.toNat < v.toNat then s
    else ((s.modFn fn fun f => { f with cwait := f.cwait.set q none }).modOpen fn q (· - 1)).post fn 0 tag 0

/-- CWAIT_SATISFIED. -/
def execCwaitSatisfied (fn q : Nat) (s : State) : Host.Outcome State Fault Refusal := .next (s.cwaitMet fn q)

/-- NOP_ENTRY: completes at once (R329). An entry of an unknown command is refused in its place (R328). -/
def execNopEntry (fn q : Nat) (s : State) : Host.Outcome State Fault Refusal := .next (s.sqBegin fn q 4 fun s e => s.post fn 0 (sqTag e) 0)

/-! ### Function registers (R390) -/

/-- ADMIN_DOORBELL (R390, R399). -/
def execAdminDoorbell (fn tail : Nat) (s : State) : Host.Outcome State Fault Refusal :=
  .next (s.serve (.admin fn tail) fun s => s.modFn fn fun f => { f with admindb := tail })

/-- STALEPR_WRITE (R390). -/
def execStaleprWrite (fn : Nat) (s : State) : Host.Outcome State Fault Refusal := .next (s.modFn fn fun f => { f with stalepr := 0 })

/-- A register of a function written: ADMINQ and ADMINCQ take the value, and begin at their first entry; every other offset ignores it (R390). -/
def State.setRegister (s : State) (fn off : Nat) (val : W64) : State :=
  s.modFn fn fun f =>
    if off = 0x008 then { f with adminq := val, adminHead := 0, admindb := 0 }
    else if off = 0x018 then { f with admincq := val, admincqTail := 0, admincqPhase := true }
    else f

/-- REGISTER_WRITE: after the function's earlier posted writes (R113, R390). -/
def execRegisterWrite (fn off : Nat) (val : W64) (s : State) : Host.Outcome State Fault Refusal :=
  .next (s.serve (.register fn off val) fun s => s.setRegister fn off val)

/-! ### ATS and page requests (R389, R392, R393) -/

/-- Loads that wait for host memory run again (R356 kind 8). -/
def State.wakeLoads (s : State) : State :=
  { s with cores := s.cores.map fun (k : Core) => { k with
      warps := k.warps.map fun p => (p.1, p.2.map fun (w : Warp) => { w with
        block := w.block.map fun b => if b.kind = 8 then {} else b }) } }

/-- ATS_TRANSLATION_REPLY: the ATC takes what the host grants, and the accesses that wait go on or fault (R389). -/
def State.atsReply (s : State) (d off : Nat) (r w : Bool) (addr : Nat) : State :=
  let page := off / 4096
  match s.ats.find? fun a => a.1 = d && a.2.2 = page with
  | none => s
  | some a =>
    let e : Atc := { die := d, fn := a.2.1, page := page, addr := addr, r := r, w := w }
    let mine := s.atc.filter fun x => x.die = d && !(x.fn = a.2.1 && x.page = page)
    let others := s.atc.filter fun x => x.die ≠ d
    -- 4,096 entries: the oldest makes room
    { s with ats := s.ats.erase a, atc := others ++ (if mine.length < 4096 then mine else mine.drop 1) ++ [e] }.wakeLoads

/-- ATS_TRANSLATION_REPLY. -/
def execAtsTranslationReply (die off : Nat) (r w : Bool) (addr : Nat) (s : State) : Host.Outcome State Fault Refusal :=
  .next (s.atsReply die off r w addr)

/-- Whether every access to host memory has been performed (R140, R389). -/
def State.hostDrained (s : State) : Bool := !s.net.any fun r => !r.inval && paKind (r.sector * 64) = .host

/-- ATS_INVALIDATION_REQUEST: matching entries go, the accesses through them drain, and then the completion is sent (R140, R389). -/
def State.atsInval (s : State) (fn lo len : Nat) : State :=
  let s := { s with atc := s.atc.filter fun a => !(a.fn = fn && a.page * 4096 < lo + len && lo < a.page * 4096 + 4096) }
  if s.hostDrained then { s with atcDrain := s.atcDrain.erase (fn, lo, len) }.emit (.invalDone fn)
  else if s.atcDrain.contains (fn, lo, len) then s else { s with atcDrain := s.atcDrain ++ [(fn, lo, len)] }

/-- ATS_INVALIDATION_REQUEST. -/
def execAtsInvalidationRequest (fn lo len : Nat) (s : State) : Host.Outcome State Fault Refusal := .next (s.atsInval fn lo len)

/-- A page response: stale ones are counted and change nothing; Success and failure make the group eligible (R326, R351, R392, R393). -/
def State.pageAnswer (s : State) (fn idx code : Nat) : State :=
  let f := s.fns.getD fn {}
  let stale := s.modFn fn fun f => { f with stalepr := min (f.stalepr + 1) (2 ^ 32 - 1) }
  match f.pages.find? fun p => p.idx = idx with
  | none => stale
  | some p =>
    if get 65536 s.stays (stayKey p.launch p.groupid) ≠ p.stay then stale
    else
      let mine := fun (t : PageTry) => t.launch = p.launch && t.groupid = p.groupid && t.lane = p.lane && t.page = p.page
      let good := ((s.tries.find? mine).map (·.good)).getD 0
      let t : PageTry := { launch := p.launch, groupid := p.groupid, lane := p.lane, page := p.page,
                           good := if code = 0 then good + 1 else 0, declined := code ≠ 0 }
      let s := s.modFn fn fun f => { f with pages := f.pages.erase p }
      { s with
        tries := s.tries.filter (fun t => !mine t) ++ [t]
        saved := s.saved.map fun (v : Saved) => if v.launch = p.launch && v.groupid = p.groupid && v.stay = p.stay then { v with eligible := true } else v }

/-- PAGE_REQUEST_GROUP_RESPONSE: held while the firmware is in handover (R393). -/
def execPageRequestGroupResponse (fn idx code : Nat) (s : State) : Host.Outcome State Fault Refusal :=
  .next (s.serve (.page fn idx code) fun s => s.pageAnswer fn idx code)

end Sys2Proof.Machine
end

