-- ==== Sys2Proof/Machine/Image.lean ====
section
/-! DEFINITION. Objects (R176), their signature (R394), and what the translator accepts (R174, R177, R396). The layout of an ELF64 file is
that of the ELF standard (log entry 22). -/

namespace Sys2Proof.Machine

/-- A section of an ELF64 file. -/
structure Sec where
  name : List Byte
  typ : Nat
  addr : Nat
  off : Nat
  size : Nat
  deriving DecidableEq, Repr

/-- The contents of a range of a file. -/
def slice (f : List Byte) (off n : Nat) : List Byte := (f.drop off).take n

/-- A zero-terminated name in a string table. -/
def nameAt (tab : List Byte) (off : Nat) : List Byte := (tab.drop off).takeWhile (· ≠ 0)

/-- The bytes of an ASCII name. -/
def ascii (t : String) : List Byte := t.toList.map fun c => BitVec.ofNat 8 c.toNat

/-- The sections of a file, where its section table lies in it. -/
def elfSections (f : List Byte) : Option (List Sec) :=
  let shoff := num f 0x28 8
  let n := num f 0x3C 2
  if num f 0x3A 2 ≠ 64 || f.length < shoff + 64 * n || n ≤ num f 0x3E 2 then none
  else
    let h := fun (i : Nat) => slice f (shoff + 64 * i) 64
    let names := h (num f 0x3E 2)
    let tab := slice f (num names 24 8) (num names 32 8)
    let secs := (List.range n).map fun i =>
      ({ name := nameAt tab (num (h i) 0 4), typ := num (h i) 4 4, addr := num (h i) 16 8, off := num (h i) 24 8,
         size := num (h i) 32 8 } : Sec)
    if secs.all fun x => x.typ = 8 || x.off + x.size ≤ f.length then some secs else none

/-- The address that each STT_FUNC symbol of `.symtab` gives a kernel header, with the symbol's size; none where the file has no `.symtab` or no
`.strtab` (R176). -/
def functionsOf (f : List Byte) (secs : List Sec) : Option (List (Nat × Nat)) :=
  match secs.find? (fun x => x.name = ascii ".symtab" && x.typ = 2), secs.any fun x => x.name = ascii ".strtab" && x.typ = 3 with
  | some t, true => some ((List.range (t.size / 24)).filterMap fun i =>
      let y := slice f (t.off + 24 * i) 24
      if num y 4 1 % 16 = 2 then some (num y 8 8, num y 16 8) else none)
  | _, _ => none

/-- The kernels of a code section as offset and size of header and code, where the functions are exactly these: each at a header that lies at a
multiple of 64, with size 64 + CODESIZE, no two at one, and no header outside them (R176). DESIGN CHOICE: what stands at a multiple of 64
outside every function is a header if it begins with MAGIC (log entry 118). -/
def kernelsOf (text : Sec) (code : List Byte) (fs : List (Nat × Nat)) : Option (List (Nat × Nat)) :=
  let ks := fs.map fun y => (y.1 - text.addr, y.2)
  let fits := fs.all fun y =>
    text.addr ≤ y.1 && (y.1 - text.addr) % 64 = 0 && y.1 - text.addr + 64 ≤ code.length
      && y.2 = 64 + (KHdr.of (slice code (y.1 - text.addr) 64)).codesize && y.1 - text.addr + y.2 ≤ code.length
  let stray := (List.range (code.length / 64)).any fun i =>
    num code (64 * i) 4 = 0x484B5853 && !ks.any fun k => k.1 ≤ 64 * i && 64 * i < k.1 + k.2
  if fits && (ks.map (·.1)).eraseDups.length = ks.length && !stray then some ks else none

/-- Step 1 of R394: the ELF rules of R176; the code section and its kernels. -/
def elfRules (f : List Byte) : Option (List Sec × Sec × List (Nat × Nat)) :=
  if slice f 0 6 ≠ [0x7F, 0x45, 0x4C, 0x46, 2, 1] || num f 0x10 2 ≠ 3 || num f 0x12 2 ≠ 0xA880 || tbit (num f 0x30 4) 0 then none
  else
    match elfSections f with
    | none => none
    | some secs =>
      match secs.find? fun x => x.name = ascii ".sx.text" with
      | none => none
      | some text =>
        if secs.all fun x => x.typ ≠ 4 && x.typ ≠ 9 && (x.name ≠ ascii ".sx.data" || x.addr % 4096 = 0) then do
          let fs ← functionsOf f secs
          let ks ← kernelsOf text (slice f text.off text.size) fs
          return (secs, text, ks)
        else none

/-- The Vernus version that introduced an instruction (R396). -/
def introducedIn (x : Words) : Nat :=
  let g := Base.unpack x.w
  let op := (x.w.setWidth 8).toNat
  let mapped := !isI (x.w.setWidth 8) && (g.A.mapped || g.B.mapped || g.C.mapped || 4 ≤ (Words.pfx x).em.toNat)
  if op = 0x99 || op = 0x9A then 5
  else if 0xD0 ≤ op && op ≤ 0xD8 then 4
  else if (0xC5 ≤ op && op ≤ 0xC9) || mapped then 3
  else if op = 0x79 || op = 0x7A then 2
  else 1

/-- Whether code is that of a Vernus kernel of a version: every LA is zero, and no instruction is newer (R177). -/
def vernusCode (fuel : Nat) (bs : List Byte) (version : Nat) : Bool :=
  match fuel with
  | 0 => true
  | n + 1 =>
    if bs.length < 8 then true
    else
      match wordsOf bs with
      | none => true
      | some x =>
        (x.w.extractLsb' 8 4 = 0) && introducedIn x ≤ version && vernusCode n (bs.drop x.bytes) version

/-- Steps 1 to 5 of R394: the code section, or the number of the first step that fails. -/
def verifyObject (keys : List (Option (List Byte))) (f : List Byte) : Except Nat (List Byte) :=
  match elfRules f with
  | none => .error 1
  | some (secs, text, ks) =>
    match secs.find? fun x => x.name = ascii ".sx.sig" with
    | none => .error 2
    | some sg =>
      let b := slice f sg.off sg.size
      let id := num b 6 2
      match (if id < 4 then keys.getD id none else none) with
      | none => .error 2
      | some key =>
        if sg.size ≠ 112 || num b 0 4 ≠ 0x47535853 || num b 4 2 ≠ 1 || num b 8 8 ≠ 0 then .error 2
        else
          let digest := Config.sha256 (f.take sg.off ++ f.drop (sg.off + 112))
          -- DIGEST holds the hash's bytes in their order
          if slice b 0x10 32 ≠ (leBytes 32 digest.toNat).reverse then .error 3
          else if !Config.ecdsaVerify key digest (slice b 0x30 32) (slice b 0x50 32) then .error 4
          else
            let code := slice f text.off text.size
            let ok := ks.all fun k =>
              let h := KHdr.of (slice code k.1 64)
              h.bad.isNone && vernusCode h.codesize (slice code (k.1 + 64) h.codesize) h.vernus
            if ok then .ok code else .error 5

end Sys2Proof.Machine
end

