-- ==== Sys2Proof/Machine/Admin.lean ====
section
/-! DEFINITION. The admin queue and its commands (R391), firmware staging and live update (R398, R399). -/

namespace Sys2Proof.Machine

/-! ### The admin queue -/

/-- An admin entry's fields (R391), with the function that sent it and the one it concerns. -/
structure AdminCmd where
  fn : Nat
  target : Nat
  tag : Nat
  addr : Nat
  arg1 : Nat
  arg2 : Nat
  deriving DecidableEq, Repr

/-- log2 of the admin ring's entries. -/
def Fn.adminLog (f : Fn) : Nat := f.adminq.toNat % 16
/-- Base of a ring register: its low four bits are a count. -/
def ringBase (r : W64) : Nat := r.toNat / 16 * 16

/-- The admin entry that may begin (R391, R399). -/
def State.adminEntry (s : State) (fn : Nat) : Option Nat :=
  let f := s.fns.getD fn {}
  let k := f.adminLog
  if k < 4 || 12 < k || f.adminHead = f.admindb % 2 ^ k || s.fw.phase ≠ .running || f.resetting || !f.enabled || 65 ≤ fn then none
  else some (((s.fnBytes s.dunesh fn (ringBase f.adminq + 64 * f.adminHead) 64).map ofBytes).getD 0)

/-- An admin entry completes: the ring goes on, and the completion stands in the admin completion ring, which has as many entries as the
admin ring (log entry 23). -/
def State.adminDone (s : State) (fn status tag detail : Nat) : State :=
  let f := s.fns.getD fn {}
  let n := 2 ^ f.adminLog
  let s := s.fnWrite fn (ringBase f.admincq + 16 * f.admincqTail) (completion status tag detail f.admincqPhase)
  s.modFn fn fun f => { f with
    adminHead := (f.adminHead + 1) % n
    admincqTail := (f.admincqTail + 1) % n
    admincqPhase := if f.admincqTail + 1 = n then !f.admincqPhase else f.admincqPhase }

/-- The byte offset at fault in an admin entry, if any (R391). -/
def adminBad (fn e : Nat) : Option Nat :=
  let cmd := e % 256
  let target := field e 15 8
  if !([1, 2, 3, 4, 5, 6, 7, 8, 9, 0x20, 0x21].contains cmd) || (0x20 ≤ cmd && fn ≠ 0) then some 0
  else if (fn ≠ 0 && target ≠ 0) || 64 < target then some 1
  else if field e 31 16 ≠ 0 then some 2
  else if field e 127 64 ≠ 0 then some 8
  else if field e 511 320 ≠ 0 then some 40
  else none

/-- An entry of a command begins. The command answers the state and its completion as STATUS and DETAIL, or none while it goes on. An entry
of no known command is refused in QREG's place. -/
def State.adminBegin (s : State) (fn cmd : Nat) (f : AdminCmd → State → State × Option (Nat × Nat)) : State :=
  match s.adminEntry fn with
  | none => s
  | some e =>
    let known := [1, 2, 3, 4, 5, 6, 7, 8, 9, 0x20, 0x21].contains (e % 256)
    if e % 256 ≠ cmd && (known || cmd ≠ 1) then s
    else
      match adminBad fn e with
      | some o => s.adminDone fn 1 (field e 63 32) o
      | none =>
        let c : AdminCmd := { fn := fn, target := if fn = 0 then field e 15 8 else fn, tag := field e 63 32, addr := field e 191 128,
                              arg1 := field e 255 192, arg2 := field e 319 256 }
        match f c s with
        | (s, some (st, d)) => s.adminDone fn st c.tag d
        | (s, none) => s

/-- A refusal: nothing changed, the byte offset at fault. -/
def refuseAt (s : State) (off : Nat) : State × Option (Nat × Nat) := (s, some (1, off))
/-- A command done. -/
def doneWith (s : State) (detail : Nat := 0) : State × Option (Nat × Nat) := (s, some (0, detail))

/-! ### Rings, keys, ranges, launches (R391) -/

/-- QREG (R328, R382, R391). -/
def State.qreg (c : AdminCmd) (s : State) : State × Option (Nat × Nat) :=
  let n := field c.arg1 4 0
  let k := field c.arg1 11 8
  if 17 < n || k < 4 then refuseAt s 24
  else
    let r : HostRing := { base := c.addr, size := 2 ^ k, vec := c.arg2, phase := true }
    doneWith (s.modFn c.target fun f =>
      if n = 16 then { f with cq := r } else if n = 17 then { f with conf := r } else { f with sqs := f.sqs.set n r })

/-- QREG. -/
def execQreg (fn : Nat) (s : State) : Host.Outcome State Fault Refusal := .next (s.adminBegin fn 1 State.qreg)

/-- CODELOAD: verified, written, and complete once the invalidation of R142 is over (R394). -/
def State.codeload (c : AdminCmd) (s : State) : State × Option (Nat × Nat) :=
  let f := s.fns.getD c.target {}
  match f.loading with
  | some (base, len) =>
    if s.inval.isSome then (s, none)
    else doneWith (s.modFn c.target fun f => { f with loading := none, images := f.images ++ [(base, len)] }) base
  | none =>
    if 2 ^ 26 < c.arg1 then refuseAt s 24
    else
      match s.innBytes c.target c.addr c.arg1 with
      | (s, none) => refuseAt s 16
      | (s, some obj) =>
        match verifyObject f.keys obj with
        | .error n => (s, some (7, n))
        | .ok code =>
          if s.inval.isSome then (s, none)
          else
            -- where the image goes in the partition is not stated: a free place (log entry 24)
            let base := (Config.openValue s.draws).toNat % 2 ^ 48 / 4096 * 4096
            let s := { s with draws := s.draws + 1 }.fnWrite c.target base code
            ((s.modFn c.target fun f => { f with loading := some (base, code.length) }).invalBegin (.ipa (s.partOf c.target) base code.length), none)

/-- CODELOAD (R394). -/
def execCodeload (fn : Nat) (s : State) : Host.Outcome State Fault Refusal := .next (s.adminBegin fn 2 State.codeload)

/-- Whether an incomplete launch uses an image: its header lies there, or can no longer be found (R391). -/
def State.usesImage (s : State) (fn : Nat) (im : Nat × Nat) : Bool :=
  s.launches.any fun l => l.fn = fn && !l.complete && !l.aborted &&
    (match (s.innAt l.lrec.asid l.lrec.khdr).2 with
     | some (ipa, _, _) => im.1 ≤ ipa && ipa < im.1 + im.2
     | none => true)

/-- CODEFREE: waits while an incomplete launch uses the image (R391). -/
def State.codefree (c : AdminCmd) (s : State) : State × Option (Nat × Nat) :=
  match ((s.fns.getD c.target {}).images).find? fun i => i.1 = c.addr with
  | none => refuseAt s 16
  | some im => if s.usesImage c.target im then (s, none)
      else doneWith (s.modFn c.target fun f => { f with images := f.images.erase im })

/-- CODEFREE. -/
def execCodefree (fn : Nat) (s : State) : Host.Outcome State Fault Refusal := .next (s.adminBegin fn 3 State.codefree)

/-- KEYREG (R391). -/
def State.keyreg (c : AdminCmd) (s : State) : State × Option (Nat × Nat) :=
  if 3 < c.arg1 then refuseAt s 24
  else if c.addr = 0 then doneWith (s.modFn c.target fun f => { f with keys := f.keys.set c.arg1 none })
  else
    match s.innBytes c.target c.addr 64 with
    | (s, none) => refuseAt s 16
    | (s, some k) => doneWith (s.modFn c.target fun f => { f with keys := f.keys.set c.arg1 (some k) })

/-- KEYREG. -/
def execKeyreg (fn : Nat) (s : State) : Host.Outcome State Fault Refusal := .next (s.adminBegin fn 4 State.keyreg)

/-- PAGEREG (R351, R391). -/
def State.pagereg (c : AdminCmd) (s : State) : State × Option (Nat × Nat) :=
  if c.addr % 4096 ≠ 0 then refuseAt s 16
  else if c.arg1 % 4096 ≠ 0 then refuseAt s 24
  else if s.asidPart c.arg2 ≠ some (s.partOf c.target) then refuseAt s 32
  else if 16 ≤ (s.fns.getD c.target {}).pageable.length then refuseAt s 0
  else doneWith (s.modFn c.target fun f => { f with pageable := f.pageable ++ [(c.addr, c.arg1, c.arg2)] })

/-- PAGEREG. -/
def execPagereg (fn : Nat) (s : State) : Host.Outcome State Fault Refusal := .next (s.adminBegin fn 5 State.pagereg)

/-- The incomplete launch of a function that runs from a record. -/
def State.launchAt (s : State) (fn addr : Nat) : Option Nat :=
  (s.hostPa s.dunesh fn addr false).bind fun pa =>
    (List.range s.launches.length).find? fun i =>
      let l := s.launches.getD i {}
      l.fn = fn && l.lpa = pa && !l.complete && !l.aborted

/-- RESUME: a group saved with STATE 3 or 4 may be restored (R351, R391). -/
def State.resumeGroup (c : AdminCmd) (s : State) : State × Option (Nat × Nat) :=
  match s.launchAt c.target c.addr with
  | none => refuseAt s 16
  | some i =>
    match s.savedOf i c.arg1 with
    | some v =>
      if v.state = 3 || v.state = 4 then
        doneWith { s with saved := s.saved.map fun (x : Saved) => if x = v then { x with eligible := true } else x }
      else refuseAt s 24
    | none => refuseAt s 24

/-- RESUME. -/
def execResume (fn : Nat) (s : State) : Host.Outcome State Fault Refusal := .next (s.adminBegin fn 6 State.resumeGroup)

/-- Every gang of a launch leaves its cores, without relaunch (R375, R391). -/
def State.dropLaunch (s : State) (i : Nat) : State :=
  let gangs := (List.range ((s.launches.getD i {}).lrec.gangs)).filter fun k =>
    !(s.members i k).isEmpty || s.saved.any fun v => v.launch = i
  let s := gangs.foldl (fun s k => s.dropGang i k) s
  { s with
    saved := s.saved.filter fun v => v.launch ≠ i
    fns := s.fns.map fun (f : Fn) => { f with pages := f.pages.filter fun p => p.launch ≠ i } }

/-- ABANDON: the LAUNCH completion follows with STATUS 6 (R391). -/
def State.abandonLaunch (c : AdminCmd) (s : State) : State × Option (Nat × Nat) :=
  match s.launchAt c.target c.addr with
  | none => refuseAt s 16
  | some i => doneWith ((s.dropLaunch i).modLaunch i fun l => { l with abandoned := true })

/-- ABANDON. -/
def execAbandon (fn : Nat) (s : State) : Host.Outcome State Fault Refusal := .next (s.adminBegin fn 7 State.abandonLaunch)

/-- DEPTHR (R207, R391). -/
def State.setDepthr (c : AdminCmd) (s : State) : State × Option (Nat × Nat) :=
  match s.launchAt c.target c.addr with
  | none => refuseAt s 16
  | some i => doneWith (s.modLaunch i fun l => { l with depThr := BitVec.ofNat 64 c.arg1, depVec := c.arg2 })

/-- DEPTHR. -/
def execDepthr (fn : Nat) (s : State) : Host.Outcome State Fault Refusal := .next (s.adminBegin fn 8 State.setDepthr)

/-- TRACE (R225, R391). -/
def State.setTrace (c : AdminCmd) (s : State) : State × Option (Nat × Nat) :=
  if c.arg1 % 64 ≠ 0 then refuseAt s 24
  else doneWith (s.modFn c.target fun f => { f with traceBuf := (c.addr, c.arg1, 0) })

/-- TRACE. -/
def execTrace (fn : Nat) (s : State) : Host.Outcome State Fault Refusal := .next (s.adminBegin fn 9 State.setTrace)

/-! ### Firmware (R398, R399) -/

/-- The slot that does not run. -/
def Firmware.other (f : Firmware) : FwSlot := if f.active then f.slotA else f.slotB
/-- The inactive slot put in its place. -/
def Firmware.setOther (f : Firmware) (x : FwSlot) : Firmware := if f.active then { f with slotA := x } else { f with slotB := x }

/-- Pages of host memory without a translation for the PF (R389). -/
def State.hostGaps (s : State) (addr len : Nat) : List (Nat × Nat × Nat) :=
  (((List.range len).map fun i => (addr + i) / 4096).eraseDups).filterMap fun p =>
    let d := homeDie (0x80000000000 + p * 4096)
    if s.atc.any fun a => a.die = d && a.fn = 0 && a.page = p then none else some (d, 0, p)

/-- FWSTAGE: copied from host memory and checked; a failed check leaves the slot empty (R398). -/
def State.fwstage (c : AdminCmd) (s : State) : State × Option (Nat × Nat) :=
  let gaps := s.hostGaps c.addr c.arg1
  if 2 ^ 43 < c.addr + c.arg1 then refuseAt s 16
  else if !gaps.isEmpty then
    (gaps.foldl (fun s g => if s.ats.contains g then s else { s with ats := s.ats ++ [g] }.emit (.atsRequest g.1 0 g.2.2)) s, none)
  else if (List.range c.arg1).any fun i => !s.atc.any fun a => a.fn = 0 && a.page = (c.addr + i) / 4096 && a.r then refuseAt s 16
  else
    let r := s.readAt s.dunesh {} (0x80000000000 + c.addr) c.arg1
    let x := Config.fwImage r.1
    if r.2 || !x.2.2 || x.2.1 < Config.fusedMinimum then ({ s with fw := s.fw.setOther {} }, some (7, 0))
    else doneWith { s with fw := s.fw.setOther { bytes := r.1, version := x.1, secver := x.2.1, staged := true } }

/-- FWSTAGE. -/
def execFwstage (fn : Nat) (s : State) : Host.Outcome State Fault Refusal := .next (s.adminBegin fn 0x20 State.fwstage)

/-- FWACT: quiescing, with the completion to come; nothing staged is STATUS 1 (R399). -/
def State.fwact (c : AdminCmd) (s : State) : State × Option (Nat × Nat) :=
  if !s.fw.other.staged then refuseAt s 0
  else
    ({ s with
        fw := { s.fw with phase := .quiescing, since := s.gtime, fn := c.fn, tag := c.tag }
        fns := s.fns.map fun (f : Fn) => { f with updating := true } }, none)

/-- FWACT. -/
def execFwact (fn : Nat) (s : State) : Host.Outcome State Fault Refusal := .next (s.adminBegin fn 0x21 State.fwact)

/-- Every queue stands at an entry boundary, since no entry begins while quiescing; the new slot starts (R399). -/
def State.fwStart (s : State) : State :=
  if s.fw.phase = .quiescing then { s with fw := { s.fw with phase := .handover, since := s.gtime } } else s

/-- FW_HANDOVER (R399). -/
def execFwHandover (s : State) : Host.Outcome State Fault Refusal := .next s.fwStart

/-- The update ends: firmware runs, and FWACT completes (R399). -/
def State.fwEnd (s : State) (active : Bool) (status : Nat) : State :=
  let tag := s.fw.tag
  let fn := s.fw.fn
  { s with
    fw := { s.fw with phase := .running, active := active, since := s.gtime }
    fns := s.fns.map fun (f : Fn) => { f with updating := false } }.adminDone fn status tag 0

/-- 50 ms, in ns. -/
def beat : Nat := 50000000

/-- FW_HEARTBEAT: in time and accepting the structure, the new slot runs; one that refuses it is rolled back (R399). -/
def execFwHeartbeat (accepts : Bool) (s : State) : Host.Outcome State Fault Refusal :=
  .next (if s.fw.phase ≠ .handover || s.fw.since + beat < s.gtime then s
    else if accepts then s.fwEnd (!s.fw.active) 0 else s.fwEnd s.fw.active 9)

/-- 50 ms without a heartbeat: the old slot runs again (R399). -/
def State.fwBack (s : State) : State :=
  if s.fw.phase = .handover && s.fw.since + beat ≤ s.gtime then s.fwEnd s.fw.active 9 else s

/-- FW_ROLLBACK (R399). -/
def execFwRollback (s : State) : Host.Outcome State Fault Refusal := .next s.fwBack

/-- The next step of an update that needs no heartbeat. -/
def State.fwNext (s : State) : State := if s.fw.phase = .quiescing then s.fwStart else s.fwBack

/-- DUNESH_FAILOVER: outside an update, the spare core takes over from the journal, which holds what die 0's core knew (R399). -/
def execDuneshFailover (s : State) : Host.Outcome State Fault Refusal :=
  .next (if s.fw.phase = .running then { s with fw := { s.fw with spare := true } } else s)

/-! ### Attestation (R398) -/

/-- An SPDM answer: request code, body, and its signature where the request asks for one. -/
def State.spdm (s : State) (req arg : Nat) (signed : Bool) (extra : List Byte) : State :=
  let body := Config.spdmBody (req * 256 + arg) ++ extra
  s.emit (.spdm req body (if signed then Config.identitySign body else []))

/-- GET_VERSION. -/
def execGetVersion (s : State) : Host.Outcome State Fault Refusal := .next (s.spdm 0 0 false [])
/-- GET_CAPABILITIES. -/
def execGetCapabilities (s : State) : Host.Outcome State Fault Refusal := .next (s.spdm 1 0 false [])
/-- NEGOTIATE_ALGORITHMS. -/
def execNegotiateAlgorithms (s : State) : Host.Outcome State Fault Refusal := .next (s.spdm 2 0 false [])
/-- GET_DIGESTS. -/
def execGetDigests (s : State) : Host.Outcome State Fault Refusal := .next (s.spdm 3 0 false [])
/-- GET_CERTIFICATE. -/
def execGetCertificate (s : State) : Host.Outcome State Fault Refusal := .next (s.spdm 4 0 false [])
/-- CHALLENGE: signed, over the host's nonce. -/
def execChallenge (nonce : BitVec 256) (s : State) : Host.Outcome State Fault Refusal :=
  .next (s.spdm 5 0 true (leBytes 32 nonce.toNat))

/-- The bytes of the slot that runs. -/
def Firmware.running (f : Firmware) : FwSlot := if f.active then f.slotB else f.slotA

/-- What a measurement index measures, where the device's state holds it (R398): the running image, its slot and versions, the lane
maps. -/
def State.measured (s : State) (idx : Nat) : List Byte :=
  match idx with
  | 3 => (leBytes 32 (Config.sha256 s.fw.running.bytes).toNat).reverse
  | 4 => [if s.fw.active then 1 else 0] ++ leBytes 8 s.fw.running.version ++ leBytes 8 s.fw.running.secver
  | 6 => s.cores.flatMap fun k => k.maps.flatMap fun m => leBytes 2 m.toNat
  | _ => []

/-- GET_MEASUREMENTS: index 1 to 6, signed by the identity key. -/
def execGetMeasurements (idx : Nat) (s : State) : Host.Outcome State Fault Refusal := .next (s.spdm 6 idx true (s.measured idx))

end Sys2Proof.Machine
end

