-- ==== Sys2Proof/Machine/CrossLane.lean ====
section
/-! DEFINITION. Cross-lane instructions (opcodes 0x70 to 0x7E, R247 to R252), the fused sequence (R253, R254), and the landing of
long-latency results (R189). -/

namespace Sys2Proof.Machine

/-! ### Shuffles (R248) -/

/-- The source lane of a shuffle; none when it lies outside 0 to 31. -/
def shSource (m : ShMode) (l : Nat) (b : W32) : Option Nat :=
  match m with
  | .lane => some (b.toNat % 32)
  | .rel =>
    let j := (l : Int) + b.toInt
    if 0 ≤ j ∧ j ≤ 31 then some j.toNat else none
  | .rot => some (((l : Int) + b.toInt) % 32).toNat
  | .bfly => some (l ^^^ (b.toNat % 32))

/-- A shuffle (R247, R248): `fill` is what a lane gets from a source outside the warp, `away` from an unavailable lane (none: its own
value). -/
def Ctx.shuffle (c : Ctx) (s : State) (m : ShMode) (d : Dst) (a : BitVec 8) (b : Src) (fillNeed : List Need)
    (fill : Nat → LaneWord) (away : Option LaneWord) : Act State := do
  c.guard s c.act (dstNeed 1 d ++ [.v 1 a.toNat false 1] ++ srcNeed 2 1 b ++ fillNeed)
  let vb := c.vec s c.act b .i32
  let own := fun (l : Nat) => c.vlane s a.toNat l
  c.writeLanes s true d 1 ((lanesOf c.act).map fun l =>
    let b := at_ {} vb l
    let y := match shSource m l b.data with
      | none => fill l
      | some j => if lane c.x.mask j then own j else away.getD (own l)
    (l, [LaneWord.of y.data (y.poison || b.poison)])) ([], [])

/-- `shfl` (R248). -/
def execShfl (x : Ctl) (m : ShMode) (d : Dst) (a : BitVec 8) (b e : Src) (s : State) : Host.Outcome State Fault Refusal :=
  run (.shfl x m d a b e) s fun c s =>
    if m = .rel then c.shuffle s m d a b (srcNeed 3 1 e) (fun l => at_ {} (c.vec s c.act e .bits) l) none
    else c.shuffle s m d a b [] (fun _ => {}) none

/-- `bcast` (R248). -/
def execBcast (x : Ctl) (d : Dst) (a : BitVec 8) (b : Src) (s : State) : Host.Outcome State Fault Refusal :=
  run (.bcast x d a b) s fun c s => c.shuffle s .lane d a b [] (fun _ => {}) none

/-- `shflo` (R206, R248). -/
def execShflo (x : Ctl) (m : ShMode) (d : Dst) (a : BitVec 8) (b : Src) (s : State) : Host.Outcome State Fault Refusal :=
  run (.shflo x m d a b) s fun c s => do
    let s ← c.shuffle s m d a b [] (fun _ => {}) (some {})
    return c.deprecated s

/-! ### Combining (R247, R249 to R252) -/

/-- E and the flags of a combining instruction: names pending and results (R247). -/
def Ctx.emptyFlag (c : Ctx) (flags : Option FFlags) : List RegName × List RegWrite :=
  let g := match flags with
    | some f => flagWrites f
    | none => ([], [])
  (.empty :: g.1, .empty (decide (c.act = 0)) :: g.2)

/-- A warp-wide result: the same word into every lane of the split's MASK (R247). -/
def Ctx.wide (c : Ctx) (s : State) (d : Dst) (y : LaneWord) (flags : Option FFlags) : Act State :=
  c.writeLanes s true d 1 ((lanesOf c.x.mask).map fun l => (l, [y])) (c.emptyFlag flags)

/-- The checks of a warp-wide instruction: D in every lane of the MASK, the sources in the active lanes. -/
def Ctx.wideGuard (c : Ctx) (s : State) (d : Dst) (a : Src) (fm : OpFmt) : Act Unit := do
  match (dstNeed 1 d).findSome? (c.regb1 c.x.mask) with
  | some t => stop (.trap t) s
  | none => do
    c.guard s c.act (srcNeed 1 1 a) [(a, fm)]
    match c.lav c.x.mask (.empty :: dstNeed 1 d) with
    | some t => stop (.trap t) s
    | none => return ()

/-- `poll` on the active lanes' values (R249). -/
def pollWord (op : PollOp) (t : List (Nat × W32)) : W32 :=
  let yes := t.filter fun p => p.2 ≠ 0
  match op with
  | .set => maskOf fun l => yes.any fun p => p.1 = l
  | .cnt => BitVec.ofNat 32 yes.length
  | .first => BitVec.ofNat 32 ((yes.head?.map (·.1)).getD 32)
  | .last => BitVec.ofNat 32 ((yes.getLast?.map (·.1)).getD 32)
  | .all => if t.all fun p => p.2 ≠ 0 then 1 else 0
  | .any => if yes.isEmpty then 0 else 1
  | .same => if t.all fun p => some p.2 = t.head?.map (·.2) then 1 else 0

/-- `poll` (R249). -/
def execPoll (x : Ctl) (op : PollOp) (d : Dst) (a : Src) (s : State) : Host.Outcome State Fault Refusal :=
  run (.poll x op d a) s fun c s => do
    c.wideGuard s d a .i32
    let v := c.vec s c.act a .i32
    let t := (lanesOf c.act).map fun l => (l, at_ {} v l)
    c.wide s d (LaneWord.of (pollWord op (t.map fun p => (p.1, p.2.data))) (t.any fun p => p.2.poison)) none

/-- `match` (R249). -/
def execMatchLanes (x : Ctl) (d : Dst) (a : Src) (s : State) : Host.Outcome State Fault Refusal :=
  run (.matchLanes x d a) s fun c s => do
    c.guard s c.act (dstNeed 1 d ++ srcNeed 1 1 a ++ [.empty])
    let v := c.vec s c.act a .bits
    c.writeLanes s true d 1 ((lanesOf c.act).map fun l =>
      let y := at_ {} v l
      (l, [LaneWord.of (maskOf fun k => lane c.act k && !(at_ {} v k).poison && (at_ {} v k).data = y.data) y.poison]))
      (c.emptyFlag none)

/-- A lane's running value with the flags of its applications. -/
abbrev Running2 := LaneWord × FFlags

/-- One application of a combining operator: poison passes through and raises no flag (R229, R250). -/
def applyOp (op : W32 → W32 → W32 × FFlags) (a b : Running2) : Running2 :=
  let f := a.2 ||| b.2
  if a.1.poison || b.1.poison then (LaneWord.of 0 true, f)
  else
    let r := op a.1.data b.1.data
    (LaneWord.of r.1 false, f ||| r.2)

/-- TreeReduce of R82. -/
def treeReduce (op : W32 → W32 → W32 × FFlags) (x : List Running2) : Running2 :=
  let d : Running2 := ({}, 0)
  let y := [1, 2, 4, 8, 16].foldl (fun (x : List Running2) st =>
    lanes.map fun i => if i % (2 * st) = 0 then applyOp op (at_ d x i) (at_ d x (i + st)) else at_ d x i) x
  at_ d y 0

/-- TreeScan of R251 and R252: `h` marks the heads of segments. -/
def treeScan (op : W32 → W32 → W32 × FFlags) (x : List Running2) (h : List Bool) : List Running2 :=
  let d : Running2 := ({}, 0)
  ([1, 2, 4, 8, 16].foldl (fun (acc : List Running2 × List Bool) st =>
    (lanes.map fun i =>
        if st ≤ i && !at_ false acc.2 i then applyOp op (at_ d acc.1 (i - st)) (at_ d acc.1 i) else at_ d acc.1 i,
     lanes.map fun i => at_ false acc.2 i || (decide (st ≤ i) && at_ false acc.2 (i - st)))) (x, h)).1

/-- A combining operator with its identity (R250). -/
structure Combine where
  op : W32 → W32 → W32 × FFlags
  unit : W32

/-- The integer operators (R198, R250). -/
def combineI (op : IRed) : Combine :=
  match op with
  | .add => ⟨fun a b => (a + b, 0), 0⟩
  | .min => ⟨fun a b => (if below false b a then b else a, 0), 0x7FFFFFFF⟩
  | .max => ⟨fun a b => (if below false a b then b else a, 0), 0x80000000⟩
  | .umin => ⟨fun a b => (if below true b a then b else a, 0), 0xFFFFFFFF⟩
  | .umax => ⟨fun a b => (if below true a b then b else a, 0), 0⟩
  | .and => ⟨fun a b => (a &&& b, 0), 0xFFFFFFFF⟩
  | .or => ⟨fun a b => (a ||| b, 0), 0⟩
  | .xor => ⟨fun a b => (a ^^^ b, 0), 0⟩

/-- The floating-point operators (R198, R250). -/
def Ctx.combineF (c : Ctx) (op : FRed) : Combine :=
  match op with
  | .add => ⟨fun a b => fword (addF .f32 c.cplv c.rm c.sat a.toNat b.toNat), 0x80000000⟩
  | .max => ⟨fun a b => fword (minmaxF .f32 c.cplv true a.toNat b.toNat), 0xFF800000⟩
  | .min => ⟨fun a b => fword (minmaxF .f32 c.cplv false a.toNat b.toNat), 0x7F800000⟩

/-- The lanes of a combining instruction: active ones, the identity elsewhere (R250). -/
def Ctx.contrib (c : Ctx) (v : List LaneWord) (unit : W32) : List Running2 :=
  lanes.map fun l => (if lane c.act l then at_ {} v l else { data := unit }, 0)

/-- A reduction (R250). -/
def Ctx.reduce (c : Ctx) (s : State) (d : Dst) (a : Src) (fm : OpFmt) (k : Combine) (flags : Bool) : Act State := do
  c.wideGuard s d a fm
  let r := treeReduce k.op (c.contrib (c.vec s c.act a fm) k.unit)
  c.wide s d r.1 (if flags then some r.2 else none)

/-- A scan (R251, R252): `b` marks heads. -/
def Ctx.scan (c : Ctx) (s : State) (d : Dst) (a : Src) (b : Option Src) (excl : Bool) (fm : OpFmt) (k : Combine) (flags : Bool) :
    Act State := do
  let bs := match b with
    | some b => [(b, OpFmt.i32)]
    | none => []
  c.guard s c.act (dstNeed 1 d ++ srcNeed 1 1 a ++ bs.flatMap (fun p => srcNeed 2 1 p.1) ++ [.empty]) ((a, fm) :: bs)
  let x := c.contrib (c.vec s c.act a fm) k.unit
  let heads := match b with
    | some b =>
      let vb := c.vec s c.act b .i32
      lanes.map fun l => if lane c.act l then at_ {} vb l else {}
    | none => List.replicate 32 {}
  -- a poisoned head poisons its lane; lane 0 always starts a segment
  let x := (x.zip heads).map fun p => if p.2.poison then (LaneWord.of 0 true, p.1.2) else p.1
  let h := heads.zipIdx.map fun (p : LaneWord × Nat) =>
    b.isSome && (decide (p.2 = 0) || (!p.1.poison && p.1.data ≠ 0))
  let y := treeScan k.op x h
  let fl := y.foldl (fun (acc : FFlags) r => acc ||| r.2) 0
  let out := fun (l : Nat) =>
    if excl then (if l = 0 then ({ data := k.unit } : LaneWord) else (at_ ({}, 0) y (l - 1)).1) else (at_ ({}, 0) y l).1
  c.writeLanes s true d 1 ((lanesOf c.act).map fun l => (l, [out l])) (c.emptyFlag (if flags then some fl else none))

/-- `raddf` (R250). -/
def execRaddf (x : Ctl) (d : Dst) (a : Src) (s : State) : Host.Outcome State Fault Refusal :=
  run (.raddf x d a) s fun c s => c.reduce s d a (.flt .f32) (c.combineF .add) true

/-- `rmaxf` (R250). -/
def execRmaxf (x : Ctl) (d : Dst) (a : Src) (s : State) : Host.Outcome State Fault Refusal :=
  run (.rmaxf x d a) s fun c s => c.reduce s d a (.flt .f32) (c.combineF .max) true

/-- `rminf` (R250). -/
def execRminf (x : Ctl) (d : Dst) (a : Src) (s : State) : Host.Outcome State Fault Refusal :=
  run (.rminf x d a) s fun c s => c.reduce s d a (.flt .f32) (c.combineF .min) true

/-- `rint` (R250). -/
def execRint (x : Ctl) (op : IRed) (d : Dst) (a : Src) (s : State) : Host.Outcome State Fault Refusal :=
  run (.rint x op d a) s fun c s => c.reduce s d a .i32 (combineI op) false

/-- `scanf` (R251). -/
def execScanf (x : Ctl) (op : FRed) (excl : Bool) (d : Dst) (a : Src) (s : State) : Host.Outcome State Fault Refusal :=
  run (.scanf x op excl d a) s fun c s => c.scan s d a none excl (.flt .f32) (c.combineF op) true

/-- `scani` (R251). -/
def execScani (x : Ctl) (op : IRed) (excl : Bool) (d : Dst) (a : Src) (s : State) : Host.Outcome State Fault Refusal :=
  run (.scani x op excl d a) s fun c s => c.scan s d a none excl .i32 (combineI op) false

/-- `segf` (R252). -/
def execSegf (x : Ctl) (op : FRed) (d : Dst) (a b : Src) (s : State) : Host.Outcome State Fault Refusal :=
  run (.segf x op d a b) s fun c s => c.scan s d a (some b) false (.flt .f32) (c.combineF op) true

/-- `segi` (R252). -/
def execSegi (x : Ctl) (op : IRed) (d : Dst) (a b : Src) (s : State) : Host.Outcome State Fault Refusal :=
  run (.segi x op d a b) s fun c s => c.scan s d a (some b) false .i32 (combineI op) false

/-! ### The fused sequence (R253, R254) -/

/-- The context of the instruction k words on, as the issuing split stands in a state. -/
def Ctx.part (c : Ctx) (s : State) (k : Nat) (i : Instr) : Ctx :=
  let ws := ((s.peek c.ref).map (·.2)).getD (wordsFor i)
  let d := ctxOf s ws
  { d with x := { d.x with pc := c.x.pc + BitVec.ofNat 64 (8 * k) } }

/-- One part of the fused sequence: its trap is reported for the whole, with its position (R254); the results of a part that is not the
last are written at once. -/
def Ctx.fusedPart (c : Ctx) (s0 : State) (k : Nat) (i : Instr) (last : Bool) (body : Ctx → State → Act State) (s : State) :
    Act State :=
  let s := { s with cur := c.ref }.drainFor (wordsFor i)
  let p := c.part s k i
  match body p s with
  | .ok s =>
    let s := if last then s else s.drain p.core p.slot fun q => q.split = p.sp && q.pc = p.x.pc
    .ok (s.modWarp p.core p.slot fun w => { w with
      splits := modifyAt w.splits p.sp (Option.map fun x => { x with pc := p.x.pc + 8 })
      came := w.came.set p.sp p.x.pc
      pend := w.pend.map fun q => if q.split = p.sp && q.pc ≠ p.x.pc then { q with pos := q.pos + 1 } else q })
  | .error (.trap t, _) => .error (.trap { t with imm := some (BitVec.ofNat 64 (k + 1)), words := some p.words }, s0)
  | .error (e, _) => .error (e, s0)

/-- FUSED_SOFTMAX: the four instructions as one (R253, R254). -/
def execFusedSoftmax (la : BitVec 4) (m v t e r : BitVec 8) (s : State) : Host.Outcome State Fault Refusal :=
  run (.fusedSoftmax la m v t e r) s fun c s => do
    let x : Ctl := { la := 0, ru := false, pfx := none }
    let y : Ctl := { x with la := la }
    let d := fun (n : BitVec 8) => ({ ix := false, n := n } : Dst)
    let s1 ← c.fusedPart s 0 (.rmaxf x (d m) (.v v)) false
      (fun c s => c.reduce s (d m) (.v v) (.flt .f32) (c.combineF .max) true) s
    let s2 ← c.fusedPart s 1 (.fsub x (d t) (.v v) (.v m)) false (fun c s => c.fsub s (d t) (.v v) (.v m)) s1
    let s3 ← c.fusedPart s 2 (.fexp x (d e) (.v t)) false (fun c s => c.special1 s .exp (d e) (.v t)) s2
    let s4 ← c.fusedPart s 3 (.raddf y (d r) (.v e)) true
      (fun c s => c.reduce s (d r) (.v e) (.flt .f32) (c.combineF .add) true) s3
    stop .moved s4

/-! ### Long-latency results (R189) -/

/-- LONG_LATENCY_RESULT: the oldest results pending in a split are written; the window of their instruction stays open (R190). -/
def execLongLatencyResult (r : SplitRef) (s : State) : Host.Outcome State Fault Refusal :=
  .next (match (s.warp r.core r.slot).pend.find? fun p => p.split = r.split && p.unwritten with
    | some p => s.land r.core r.slot fun q => q = p
    | none => s)

end Sys2Proof.Machine
end

