-- ==== Sys2Proof/Machine/Reliability.lean ====
section
/-! DEFINITION. Scans (R379 to R382), links (R383, R386), engine resets (R386), partition resets (R385, R387), bring-up, power and cooling
(R400, R401). -/

namespace Sys2Proof.Machine

/-! ### Scans (R379 to R381) -/

/-- Whether a core is empty. -/
def State.coreEmpty (s : State) (c : Nat) : Bool := (s.core c).rooms.all fun x => x.group.isNone

/-- The next core in service from a number on, in the fixed rotation. -/
def State.nextScanned (s : State) (c : Nat) : Nat :=
  (((List.range 64).map fun i => (c + i) % 64).find? fun k => (s.core k).service).getD c

/-- SCAN_SLOT_START: no new card binds to the core; none starts while the firmware is updated (R379, R399). -/
def State.scanStart (s : State) : State :=
  if s.scan.active || s.gtime < s.scan.next || s.fw.phase ≠ .running then s
  else
    let c := s.nextScanned s.scan.core
    { s with scan := { s.scan with core := c, active := true, running := false, second := false, since := s.gtime, next := s.gtime + 10000000 } }.modCore
      c fun k => { k with service := false }

/-- A core whose storage the patterns have written: nothing in it has an owner any more, and every granule reads zero (R38, R42, R379). -/
def Core.scrubbed (k : Core) : Core := { k with rows := [], sp := {}, acc := {}, slots := {}, wrote := [], stamps := [] }

/-- SCAN_RUN: the core is empty, and the patterns run over its storage (R38, R379). -/
def State.scanRun (s : State) : State :=
  if s.scan.active && !s.scan.running && s.coreEmpty s.scan.core then
    { s with scan := { s.scan with running := true, since := s.gtime } }.modCore s.scan.core Core.scrubbed
  else s

/-- SCAN_DEFER: not empty 1 ms into its slot; the core keeps its turn (R379). -/
def State.scanDefer (s : State) : State :=
  if s.scan.active && !s.scan.running && !s.coreEmpty s.scan.core && s.scan.since + 1000000 ≤ s.gtime then
    { s with scan := { s.scan with active := false, log := s.scan.log + 1 } }.modCore s.scan.core fun k => { k with service := true }
  else s

/-- A gang killed and due to be relaunched (R375, R376), wherever it stands. -/
def State.killGangOf (s : State) (n k : Nat) : State :=
  (s.dropGang n k).modLaunch n fun l => l.modGang k fun i =>
    if 4 ≤ i.relaunch then { i with started := [], ended := [], waiting := false, stopped := true }
    else { i with started := [], ended := [], waiting := true, relaunch := i.relaunch + 1 }

/-- A failed scan makes the launches suspect that ran on the core since its last passed one: a running one has its gangs killed and
relaunched, a completed one runs again in full (R381, R382). -/
def State.suspect (s : State) (c : Nat) : State :=
  (List.range s.launches.length).foldl (fun s n =>
    let l := s.launches.getD n {}
    if get 0 l.cores c ≠ at_ 0 s.scan.seq c + 1 || l.abandoned || l.aborted || l.confirmed then s
    else if l.complete then
      let s := s.modLaunch n fun l => { l with complete := false, suspect := true, gangs := [], cores := [], ended := 0, endTime := 0 }
      if l.host then (s.modOpen l.fn l.queue (· + 1)).postConf l.fn 5 l.tag else s
    else
      let ran := (List.range l.lrec.gangs).filter fun k => (l.gangInfo k).started ≠ []
      (ran.foldl (fun s k => s.killGangOf n k) s).modLaunch n fun l => { l with suspect := true, cores := [] }) s

/-- The slot is over and the rotation goes on. -/
def State.scanEnd (s : State) : State := { s with scan := { s.scan with active := false, running := false, second := false, core := (s.scan.core + 1) % 64 } }

/-- The lane maps of a core without one lane, if its quadrant keeps eleven good ones (R4, R381). -/
def Core.retireLane (k : Core) (q b : Nat) : Option Core :=
  let m : BitVec 16 := at_ 0 k.maps q
  let m' := m &&& ~~~(1#16 <<< b)
  if q < 4 && b < 16 && m ≠ m' && 11 ≤ ((List.range 16).filter fun i => m'.getLsbD i).length then some { k with maps := k.maps.set q m' } else none

/-- SCAN_RESULT: `lane` is the quadrant and physical lane to which a failure is confined (R381). -/
def State.scanResult (s : State) (pass : Bool) (lane : Option (Nat × Nat)) : State :=
  let c := s.scan.core
  if !s.scan.active || !s.scan.running then s
  else if pass then
    (({ s with scan := { s.scan with seq := modifyAt s.scan.seq c fun n => (n + 1) % 2 ^ 32 } }.modCore c fun k =>
      { k with service := true }).scanEnd).confirmAll
  else if !s.scan.second then { s.suspect c with scan := { s.scan with second := true, since := s.gtime } }
  else
    match lane.bind fun x => (s.core c).retireLane x.1 x.2 with
    | some k => (s.modCore c fun _ => { k with service := true }).scanEnd
    | none => s.scanEnd

/-- SCAN_SLOT_START (R379). -/
def execScanSlotStart (s : State) : Host.Outcome State Fault Refusal := .next s.scanStart
/-- SCAN_RUN (R379). -/
def execScanRun (s : State) : Host.Outcome State Fault Refusal := .next s.scanRun
/-- SCAN_DEFER (R379). -/
def execScanDefer (s : State) : Host.Outcome State Fault Refusal := .next s.scanDefer
/-- SCAN_RESULT (R381). -/
def execScanResult (pass : Bool) (lane : Option (Nat × Nat)) (s : State) : Host.Outcome State Fault Refusal := .next (s.scanResult pass lane)

/-! ### Links (R383, R386) -/

/-- A port changed. -/
def State.modPort (s : State) (n : Nat) (f : Port → Port) : State := { s with ports := modifyAt s.ports n f }

/-- EYE_MARGIN_WINDOW: over the threshold, the port stops sending and retrains one step lower; below 56 Gb/s it goes down (R383). -/
def execEyeMarginWindow (port : Nat) (above : Bool) (s : State) : Host.Outcome State Fault Refusal :=
  .next (s.modPort port fun p =>
    if !above || !p.up || p.training then p
    else if p.rate < 3 then { p with training := true, target := p.rate + 1 }
    else { p with up := false })
/-- LINK_RETRAIN_DONE: the port resumes (R383). -/
def execLinkRetrainDone (port : Nat) (s : State) : Host.Outcome State Fault Refusal :=
  .next (s.trained port)
/-- LINK_RATE_RAISE: the Innkeeper's retrain at a higher step (R383). -/
def execLinkRateRaise (port : Nat) (s : State) : Host.Outcome State Fault Refusal :=
  .next (s.modPort port fun p => if p.up && !p.training && 0 < p.rate then { p with training := true, target := p.rate - 1 } else p)
/-- LINK_RESET: a retrain at the current rate (R386). -/
def execLinkReset (port : Nat) (s : State) : Host.Outcome State Fault Refusal :=
  .next (s.modPort port fun p => if p.up && !p.training then { p with training := true, target := p.rate } else p)

/-! ### Engine resets (R386) -/

/-- The rooms with a job in a core's scheduler, or a record in its matrix engine. -/
def State.engineRooms (s : State) (c : Nat) (mx : Bool) : List Nat :=
  if mx then (List.range 16).filter fun n => (s.room c n).ring.run.isSome || (s.room c n).ring.pending
  else ((s.core c).jobs.map (·.room)).eraseDups

/-- ENGINE_RESET: the gangs in the engine are killed, and then it is reset (R386). -/
def State.engineReset (s : State) (c : Nat) (mx : Bool) : State :=
  let s := (s.engineRooms c mx).foldl (fun s n => s.killGang c n) s
  s.modCore c fun k => if mx then { k with mxTurn := 0 } else { k with jobs := [] }

/-- ENGINE_RESET (R386). -/
def execEngineReset (core : Nat) (mx : Bool) (s : State) : Host.Outcome State Fault Refusal := .next (s.engineReset core mx)

/-! ### Partition resets (R385, R387) -/

/-- Whether a partition's map grants a physical address (R29). -/
def State.ownsFrame (s : State) (part pa : Nat) : Bool :=
  (List.range (2 ^ 18)).any fun i =>
    let e := (s.entryAt (get 0 s.pmap part + i * 8)).1
    tbit e 0 && field e 51 30 = pa / 2 ^ 30

/-- Steps 1 to 6 of a partition reset on this device (R385). -/
def State.resetPartition (s : State) (part : Nat) : State :=
  if s.resets.contains part then s
  else
    let asid := fun (n : Nat) => s.asidPart n = some part
    let slots := ((List.range 128).filterMap fun j => get none s.keyMap (part * 128 + j)).eraseDups
    let mine := (List.range s.launches.length).filter fun i => (s.launches.getD i {}).part = part
    let fn := s.fnOf part
    -- 1: queues stop, and entries not begun are flushed
    let s := if fn = 0 then s else s.modFn fn fun f => { f with
      resetting := true, sqs := f.sqs.map fun r => { r with head := r.tail }, adminHead := f.admindb % 2 ^ f.adminLog
      cwait := List.replicate 16 none, pages := [], loading := none }
    -- 2: groups are killed without save
    let s := mine.foldl (fun s i => s.dropLaunch i) s
    let s := { s with launches := s.launches.map fun (l : Launch) => if l.part = part && !l.complete then { l with aborted := true } else l }
    -- 3: packets are discarded
    let s := { s with dies := s.dies.map fun (x : Die) => { x with
      tx := x.tx.map fun (f : FlowTx) => { f with buf := f.buf.filter fun r => match f.dev with
        | some dev => !s.ownsFrame part (0x8000000000000 + dev * 2 ^ 44 + r.p.pa)
        | none => true }
      rx := x.rx.map fun (f : FlowRx) => { f with held := f.held.filter fun h => !s.ownsFrame part h.1.pa } } }
    -- 4: no agent keeps a translation of the partition's ASIDs
    let s := { s with tlb := s.tlb.filter fun t => t.part ≠ part, walked := s.walked.filter fun w => !asid w.asid, atc := s.atc.filter fun a => fn = 0 || a.fn ≠ fn }
    -- 5, 6: keys, counters, pool and queues
    { s with
      keySlots := slots.foldl (fun ks k => modifyAt ks k fun x => if x = KeySlot.live then .destroying else x) s.keySlots
      counters := s.counters.filter fun p => p.1 / 65536 ≠ part
      tasks := s.tasks.filter fun t => t.part ≠ part
      queues := s.queues.filter fun p => p.1 / 64 ≠ part
      started := setErase s.started part
      resets := setInsert s.resets part }

/-- PARTITION_RESET (R385). -/
def execPartitionReset (part : Nat) (s : State) : Host.Outcome State Fault Refusal := .next (if part < 64 then s.resetPartition part else s)

/-- PARTITION_RESET_COMPLETE: every device has reported; incomplete launches receive STATUS 3, at the PF where VF Enable was cleared (R385,
R387). -/
def State.resetDone (s : State) (part : Nat) : State :=
  let slots := (List.range 128).filterMap fun j => get none s.keyMap (part * 128 + j)
  let busy := slots.any fun k => s.keySlots.getD k .empty = KeySlot.destroying
  if !s.resets.contains part || busy || !s.quiet then s
  else
    let s := { s with resets := setErase s.resets part }
    let s := (List.range s.launches.length).foldl (fun s i =>
      let l := s.launches.getD i {}
      if l.part = part && l.aborted && !l.complete then
        let s := s.modLaunch i fun l => { l with complete := true }
        if l.host then s.post (if (s.fns.getD l.fn {}).enabled then l.fn else 0) 3 l.tag 0 else s
      else s) s
    s.modFn (s.fnOf part) fun f => { f with resetting := false, open_ := List.replicate 16 0 }

/-- PARTITION_RESET_COMPLETE (R385). -/
def execPartitionResetComplete (part : Nat) (s : State) : Host.Outcome State Fault Refusal := .next (s.resetDone part)

/-- The reset of a VF's partition; the PF belongs to none (R384, R385). -/
def State.flr (s : State) (fn : Nat) : State := if fn = 0 || 64 < fn then s else s.resetPartition (s.partOf fn)

/-- FUNCTION_LEVEL_RESET (R385, R399). -/
def execFunctionLevelReset (fn : Nat) (s : State) : Host.Outcome State Fault Refusal := .next (s.serve (.flr fn) fun s => s.flr fn)

/-- Every VF goes at once (R387). -/
def State.clearVfs (s : State) : State :=
  let vfs := ((List.range 65).drop 1).filter fun n => (s.fns.getD n {}).enabled
  let s := vfs.foldl (fun s n => s.flr n) s
  { s with fns := s.fns.zipIdx.map fun (p : Fn × Nat) => if p.2 = 0 then p.1 else { p.1 with enabled := false } }

/-- VF_ENABLE_CLEAR (R387, R399). -/
def execVfEnableClear (s : State) : Host.Outcome State Fault Refusal := .next (s.serve .vfClear State.clearVfs)

/-! ### Bring-up, power and cooling (R400, R401) -/

/-- Firmware at power-on: the active slot, or the other if the active one fails verification (R400). -/
def State.boot (s : State) : State :=
  let ok := fun (x : FwSlot) => x.bytes = [] || (Config.fwImage x.bytes).2.2
  if !ok s.fw.running && s.fw.other.staged && ok s.fw.other then { s with fw := { s.fw with active := !s.fw.active } } else s

/-- POWER_ON: firmware, links, one scan of every core, READY (R400). -/
def State.powerOn (s : State) : State :=
  let s := s.boot
  { s with
    tripped := false
    ports := s.ports.map fun _ => {}
    scan := { s.scan with seq := List.replicate 64 1, next := s.gtime + 10000000 }
    fns := modifyAt s.fns 0 fun f => { f with ready := true } }

/-- POWER_ON (R400). -/
def execPowerOn (s : State) : Host.Outcome State Fault Refusal := .next s.powerOn

/-- THERMAL_THROTTLE: the core clock goes down by 100 MHz (R401). -/
def execThermalThrottle (s : State) : Host.Outcome State Fault Refusal := .next { s with mhz := if 200 ≤ s.mhz then s.mhz - 100 else s.mhz }

/-- THERMAL_TRIP: nothing is saved, every gang is killed, every clock stops, and the trip is reported (R401). -/
def State.thermalTrip (s : State) : State :=
  let s := (List.range s.launches.length).foldl (fun s i => s.dropLaunch i) s
  { s with tripped := true, launches := s.launches.map fun (l : Launch) => if l.complete then l else { l with aborted := true } }.emit .thermalTrip

/-- THERMAL_TRIP (R401). -/
def execThermalTrip (s : State) : Host.Outcome State Fault Refusal := .next s.thermalTrip

end Sys2Proof.Machine
end

