-- ==== Sys2Proof/Machine/Lantern.lean ====
section
/-! DEFINITION. Lantern's commands (R363, R368, R373) and the reports it makes between them. -/

namespace Sys2Proof.Machine

/-! ### The group examined -/

/-- The room of the group that Lantern examines. -/
def State.examined (s : State) : Option (Nat × Nat) :=
  s.lantern.launch.bind fun n => allRooms.find? fun r => match (s.room r.1 r.2).group with
    | some g => g.launch = n && g.phase ≠ .bound
    | none => false

/-- Its splits, by warp slot and split slot. -/
def State.itsSplits (s : State) (c n : Nat) : List SplitRef :=
  (s.group c n).slots.flatMap fun sl => (((List.range 4).map fun i => (⟨c, sl, i⟩ : SplitRef))).filter fun r =>
    (s.warp c sl).live && (s.split? r).isSome

/-- What Lantern shows of a stop: core, room, and for each split its warp, its offset and whether it waits. -/
def State.stopReport (s : State) (c n : Nat) : List W64 :=
  BitVec.ofNat 64 c :: BitVec.ofNat 64 n :: (s.itsSplits c n).flatMap fun r =>
    [ BitVec.ofNat 64 (s.warp c r.slot).num, ((s.split? r).map (·.pc)).getD 0, BitVec.ofNat 64 (s.blockOf r).kind ]

/-- Whether a stop is to be reported: every live split of the group stands before an armed instruction or waits, and one of them stands
(R363). -/
def State.stopDue (s : State) (c n : Nat) : Bool :=
  let rs := s.itsSplits c n
  s.lantern.goals ≠ 0 && (s.group c n).phase = .resident && !(s.group c n).stopped && rs.any s.atStop
    && rs.all fun r => s.atStop r || (s.blockOf r).kind ≠ 0 || at_ false (s.warp c r.slot).stopped r.split

/-- The group examined goes on from its stop, behind a `bkpt` that stopped it (R226), with its splits free to leave the armed
instructions at which they stand. -/
def State.lanternGoOn (s : State) (c n : Nat) : State :=
  let s := (s.passBkpt c n).modGroup c n fun g => { g with stopped := false, stepping := none }
  { s with lantern := { s.lantern with left := (s.itsSplits c n).filter s.atStop } }

/-- Lantern's own step, where it has one: a launch that ended, an armed `bkpt` that stopped the group (R226), or a stop reached (R363). A
`bkpt` of which the debugger is told counts among the stops of a `cont n` (log entry 94). -/
def State.lanternOwn (s : State) : Option State :=
  match s.lantern.launch with
  | none => none
  | some l =>
    if (s.launches.getD l {}).complete then
      some ({ s with lantern := { s.lantern with launch := none, goals := 0, left := [], evict := 0 } }.emit (.lantern [1, BitVec.ofNat 64 l]))
    else
      match s.examined with
      | none => none
      | some (c, n) =>
        let g := s.group c n
        if s.lantern.goals ≠ 0 && g.stopped && g.bkptAt.isSome then
          some (if s.lantern.goals = 1 then
              ({ s with lantern := { s.lantern with goals := 0, left := [] } }).emit (.lantern (0 :: s.stopReport c n))
            else { s with lantern := { s.lantern with goals := s.lantern.goals - 1 } }.lanternGoOn c n)
        else if !s.stopDue c n then none
        else if s.lantern.goals = 1 then
          some (({ s.stopGroup c n with lantern := { s.lantern with goals := 0, left := [] } }).emit (.lantern (0 :: s.stopReport c n)))
        else some { s with lantern := { s.lantern with goals := s.lantern.goals - 1, left := (s.itsSplits c n).filter s.atStop } }

/-! ### Objects, stops, launches (R363) -/

/-- Kernel headers in an image, each at a multiple of 64 (R176). -/
def State.headersIn (s : State) (fn base len : Nat) : List Known :=
  (List.range (len / 64)).filterMap fun i =>
    match s.fnBytes s.dunesh fn (base + 64 * i) 64 with
    | some bs => if (KHdr.of bs).bad.isNone then some { hdr := base + 64 * i } else none
    | none => none

/-- `load`: the object's kernels become known: those of the function's image number `obj`. -/
def execLanternLoad (obj : Nat) (s : State) : Host.Outcome State Fault Refusal :=
  .next (match ((s.fns.getD s.lantern.fn {}).images)[obj]? with
    | none => s
    | some im => { s with lantern := { s.lantern with kernels := s.lantern.kernels ++ s.headersIn s.lantern.fn im.1 im.2 } })

/-- `break` (R363). -/
def execLanternBreak (kernel off : Nat) (s : State) : Host.Outcome State Fault Refusal :=
  .next (if kernel < s.lantern.kernels.length && !s.lantern.stops.contains (kernel, off) then
      { s with lantern := { s.lantern with stops := s.lantern.stops ++ [(kernel, off)] } }
    else s)

/-- `delete all` (R363). -/
def execLanternDeleteAll (s : State) : Host.Outcome State Fault Refusal := .next { s with lantern := { s.lantern with stops := [] } }

/-- The argument bytes of a run: the words given, then zeros, up to ARGS (R363). -/
def runArgs (args : List W32) (n : Nat) : List Byte :=
  ((args.flatMap fun (w : W32) => leBytes 4 w.toNat) ++ List.replicate n 0).take n

/-- `run`: a launch of one group, whose rooms have their breakpoint arm set (R226, R363). Where its record and arguments lie is the
driver's affair: in Lantern's workspace. -/
def State.lanternRun (s : State) (kernel : Nat) (args : List W32) : State :=
  match s.lantern.kernels[kernel]? with
  | none => s
  | some k =>
    let l := s.lantern
    let at' := l.space + l.seq * 0x1000000
    match s.fnBytes s.dunesh l.fn k.hdr 64, s.hostPa s.dunesh l.fn at' true with
    | some bs, some pa =>
      let r : LaunchRec := { data := l.data, args := at' + 64, priv := at' + 0x10000, khdr := k.hdr, gangs := 1, asid := l.asid }
      let s := (s.fnWrite l.fn at' (leBytes 64 (r.data * 2 ^ 448 + r.args * 2 ^ 384 + r.priv * 2 ^ 320 + r.khdr * 2 ^ 256 + 2 ^ 224
        + r.asid * 2 ^ 212))).fnWrite l.fn (at' + 64) (runArgs args (KHdr.of bs).args)
      match s.admitLaunch l.fn (s.partOf l.fn) none r with
      | (s, .error n) => s.emit (.lantern [2, BitVec.ofNat 64 n])
      | (s, .ok h) =>
        { s.addLaunch { fn := l.fn, lpa := pa, lrec := r, hdr := h, part := s.partOf l.fn, host := false } with
          lantern := { l with launch := some s.launches.length, goals := 1, left := [], evict := 0, seq := l.seq + 1 } }
    | _, _ => s

/-- `run` (R363). -/
def execLanternRun (kernel : Nat) (args : List W32) (s : State) : Host.Outcome State Fault Refusal := .next (s.lanternRun kernel args)

/-- `cont`: resumes until the n-th next reported stop or the end (R226, R363). -/
def State.lanternCont (s : State) (n : Nat) : State :=
  let s := { s with lantern := { s.lantern with goals := max 1 n } }
  match s.examined with
  | none => s
  | some (c, r) => s.lanternGoOn c r

/-- `cont` (R363). -/
def execLanternCont (n : Nat) (s : State) : Host.Outcome State Fault Refusal := .next (s.lanternCont n)

/-- `evict`: the group is saved once it is Blocked, and restored on another core (R368). -/
def execLanternEvict (s : State) : Host.Outcome State Fault Refusal := .next { s with lantern := { s.lantern with evict := 1 } }

/-- The save that an `evict` asks for, once the group is Blocked and not stopped; the `cont` in progress returns with it (R337, R368). -/
def State.evictNow (s : State) : Option State :=
  match s.examined with
  | none => none
  | some (c, n) =>
    if s.lantern.evict ≠ 1 || (s.group c n).stopped || !s.mayLeave c n then none
    else
      let t := s.saveGang c n
      if (t.room c n).group.isSome then none
      else some ({ t with lantern := { t.lantern with evict := 2, goals := 0, left := [] } }.emit (.lantern (3 :: s.stopReport c n)))

/-- `cinc`: an entry for the tenant's submission queue 0, and its doorbell (R328, R368). -/
def State.lanternCinc (s : State) (id : Nat) (n : W64) : State :=
  let fn := s.lantern.fn
  let r := at_ {} (s.fns.getD fn {}).sqs 0
  if r.size = 0 then s
  else (s.fnWrite fn (r.base + 64 * r.tail) (leBytes 64 (n.toNat * 2 ^ 320 + id % 65536 * 2 ^ 304 + 2))).ring fn 0 (r.tail + 1)

/-- `cinc` (R368). -/
def execLanternCinc (id : Nat) (n : W64) (s : State) : Host.Outcome State Fault Refusal := .next (s.lanternCinc id n)

/-! ### What Lantern shows (R179, R363, R373) -/

/-- The words of a register that `print` names: kind 0 a lane of a vector register, 1 a uniform, 2 a mask, 3 a special register. -/
def State.printItem (s : State) (c slot l : Nat) (kind n : Nat) : W64 :=
  let w := s.warp c slot
  match kind with
  | 0 => ((s.core c).lane (some (s.groupOf c slot).owner) (rowOf slot n) l).data.setWidth 64
  | 1 => (at_ {} w.uni n).data
  | 2 => (at_ (0 : LaneMask) w.masks n).setWidth 64
  | _ => (ctxOf { s with cur := ⟨c, slot, 0⟩ } { w := 0 }).special s n l

/-- `print` (R363). -/
def execLanternPrint (warp lane : Nat) (items : List (BitVec 8 × BitVec 8)) (s : State) : Host.Outcome State Fault Refusal :=
  .next (match s.examined with
    | none => s
    | some (c, n) =>
      match at_ none (s.group c n).warps warp with
      | none => s
      | some sl => s.emit (.lantern (items.map fun i => s.printItem c sl lane i.1.toNat i.2.toNat)))

/-- A word of a space of the group examined: 1 the scratchpad, 3 its accumulator space, else global memory (R363, R373). -/
def State.showWord (s : State) (c n space a : Nat) : W64 :=
  let g := s.group c n
  match space with
  | 1 => BitVec.ofNat 64 (ofBytes (s.spRead c n a 4).1)
  | 3 => BitVec.ofNat 64 (ofBytes ((s.core c).acc.read accGrain (some g.owner) (g.atbase * 24576 + a) 4).1)
  | _ =>
    match (s.innAt s.lantern.asid a).2 with
    | some (_, pa, at') => BitVec.ofNat 64 (ofBytes (s.readAt s.dunesh at' pa 4).1)
    | none => 0

/-- `mem`: n words (R363, R373). -/
def execLanternMem (space addr n : Nat) (s : State) : Host.Outcome State Fault Refusal :=
  .next (match s.examined with
    | some (c, r) => s.emit (.lantern ((List.range n).map fun i => s.showWord c r space (addr + 4 * i)))
    | none =>
      if space = 1 || space = 3 then s
      else s.emit (.lantern ((List.range n).map fun i => s.showWord 0 0 0 (addr + 4 * i))))

/-- The bytes from an address on that Lantern can read, twelve at most, each through its own translation. -/
def State.codeBytes (s : State) (va : Nat) : List Byte :=
  (((List.range 12).map fun i => (s.innAt s.lantern.asid (va + i)).2.map fun p => s.dieByte s.dunesh p.2.2 p.2.1).takeWhile (·.isSome)).filterMap id

/-- One native instruction at an offset of the kernel examined: its words and what they decode to. -/
def State.showCode (s : State) (khdr off : Nat) : Option (List W32 × Option Instr × Nat) :=
  let bs := s.codeBytes (khdr + 64 + off)
  (wordsOf bs).map fun x =>
    let ws := (List.range (x.bytes / 4)).map fun i => BitVec.ofNat 32 (num bs (4 * i) 4)
    (ws, (match decodeWords x with
      | .ok i => some i
      | .error _ => none), x.bytes)

/-- `dis`: n instructions from an offset (R179, R363). -/
def State.disassemble (s : State) (khdr off n : Nat) : State :=
  match n with
  | 0 => s
  | k + 1 =>
    match s.showCode khdr off with
    | none => s
    | some (ws, i, b) => State.disassemble (s.emit (.code off ws i)) khdr (off + b) k

/-- `dis` (R363). -/
def execLanternDis (addr n : Nat) (s : State) : Host.Outcome State Fault Refusal :=
  .next (match s.examined with
    | some (c, r) => s.disassemble (s.group c r).lrec.khdr addr n
    | none => s)

end Sys2Proof.Machine
end

