-- ==== Sys2Proof/Machine/Dispatch.lean ====
section
/-! DEFINITION. The one dispatch from an instruction or a step of another agent to its meaning. -/

namespace Sys2Proof.Machine

/-- Execute: one arm for each row of the table. -/
def exec (i : Instr) (s : State) : Host.Outcome State Fault Refusal :=
  match i with
  | .illegal pw w => Sys2Proof.Machine.execIllegal pw w s
  | .nop x => Sys2Proof.Machine.execNop x s
  | .bra x imm => Sys2Proof.Machine.execBra x imm s
  | .brc x a imm => Sys2Proof.Machine.execBrc x a imm s
  | .brx x a => Sys2Proof.Machine.execBrx x a s
  | .call x d imm => Sys2Proof.Machine.execCall x d imm s
  | .calli x d a => Sys2Proof.Machine.execCalli x d a s
  | .ret x a => Sys2Proof.Machine.execRet x a s
  | .rcv x off => Sys2Proof.Machine.execRcv x off s
  | .waitj x d a imm => Sys2Proof.Machine.execWaitj x d a imm s
  | .waitjArrival r => Sys2Proof.Machine.execWaitjArrival r s
  | .waitjTimeout r => Sys2Proof.Machine.execWaitjTimeout r s
  | .exit x => Sys2Proof.Machine.execExit x s
  | .endGroup x => Sys2Proof.Machine.execEndGroup x s
  | .trap x imm => Sys2Proof.Machine.execTrap x imm s
  | .trapReturn x imm => Sys2Proof.Machine.execTrapReturn x imm s
  | .sysc x d a imm => Sys2Proof.Machine.execSysc x d a imm s
  | .bkpt x => Sys2Proof.Machine.execBkpt x s
  | .yield x => Sys2Proof.Machine.execYield x s
  | .iadd x d a b => Sys2Proof.Machine.execIadd x d a b s
  | .isub x d a b => Sys2Proof.Machine.execIsub x d a b s
  | .imul x d a b => Sys2Proof.Machine.execImul x d a b s
  | .imulh x u d a b => Sys2Proof.Machine.execImulh x u d a b s
  | .imad x d a b c => Sys2Proof.Machine.execImad x d a b c s
  | .idiv x u d a b => Sys2Proof.Machine.execIdiv x u d a b s
  | .irem x u d a b => Sys2Proof.Machine.execIrem x u d a b s
  | .imin x u d a b => Sys2Proof.Machine.execImin x u d a b s
  | .imax x u d a b => Sys2Proof.Machine.execImax x u d a b s
  | .iabs x d a => Sys2Proof.Machine.execIabs x d a s
  | .and x d a b => Sys2Proof.Machine.execAnd x d a b s
  | .or x d a b => Sys2Proof.Machine.execOr x d a b s
  | .xor x d a b => Sys2Proof.Machine.execXor x d a b s
  | .shl x d a b => Sys2Proof.Machine.execShl x d a b s
  | .shr x d a b => Sys2Proof.Machine.execShr x d a b s
  | .sra x d a b => Sys2Proof.Machine.execSra x d a b s
  | .popc x d a => Sys2Proof.Machine.execPopc x d a s
  | .clz x d a => Sys2Proof.Machine.execClz x d a s
  | .brev x d a => Sys2Proof.Machine.execBrev x d a s
  | .bfe x d a b => Sys2Proof.Machine.execBfe x d a b s
  | .bfi x d a b c => Sys2Proof.Machine.execBfi x d a b c s
  | .icmp x cc tomask d a b => Sys2Proof.Machine.execIcmp x cc tomask d a b s
  | .sel x d a b c => Sys2Proof.Machine.execSel x d a b c s
  | .mov x d a => Sys2Proof.Machine.execMov x d a s
  | .movi x d imm => Sys2Proof.Machine.execMovi x d imm s
  | .lea x d a b c => Sys2Proof.Machine.execLea x d a b c s
  | .iadd64 x d a b => Sys2Proof.Machine.execIadd64 x d a b s
  | .setix x a => Sys2Proof.Machine.execSetix x a s
  | .bsel x d a b c => Sys2Proof.Machine.execBsel x d a b c s
  | .ishf x d a b c => Sys2Proof.Machine.execIshf x d a b c s
  | .imads x d a b c => Sys2Proof.Machine.execImads x d a b c s
  | .imul64 x d a b => Sys2Proof.Machine.execImul64 x d a b s
  | .kadd x d a b => Sys2Proof.Machine.execKadd x d a b s
  | .ksub x d a b => Sys2Proof.Machine.execKsub x d a b s
  | .kmul x d a b => Sys2Proof.Machine.execKmul x d a b s
  | .kand x d a b => Sys2Proof.Machine.execKand x d a b s
  | .kor x d a b => Sys2Proof.Machine.execKor x d a b s
  | .kxor x d a b => Sys2Proof.Machine.execKxor x d a b s
  | .kshl x d a b => Sys2Proof.Machine.execKshl x d a b s
  | .kshr x d a b => Sys2Proof.Machine.execKshr x d a b s
  | .kmov x d a => Sys2Proof.Machine.execKmov x d a s
  | .kmovi x d imm => Sys2Proof.Machine.execKmovi x d imm s
  | .kcmp x cc d a b => Sys2Proof.Machine.execKcmp x cc d a b s
  | .rdsr x d n => Sys2Proof.Machine.execRdsr x d n s
  | .wrsr x n a => Sys2Proof.Machine.execWrsr x n a s
  | .vtok x d a b => Sys2Proof.Machine.execVtok x d a b s
  | .mmov x d a => Sys2Proof.Machine.execMmov x d a s
  | .kld x sp d a b => Sys2Proof.Machine.execKld x sp d a b s
  | .fadd x d a b => Sys2Proof.Machine.execFadd x d a b s
  | .fsub x d a b => Sys2Proof.Machine.execFsub x d a b s
  | .fmul x d a b => Sys2Proof.Machine.execFmul x d a b s
  | .ffma x d a b c => Sys2Proof.Machine.execFfma x d a b c s
  | .fdiv x d a b => Sys2Proof.Machine.execFdiv x d a b s
  | .fmin x d a b => Sys2Proof.Machine.execFmin x d a b s
  | .fmax x d a b => Sys2Proof.Machine.execFmax x d a b s
  | .fcmp x cc tomask d a b => Sys2Proof.Machine.execFcmp x cc tomask d a b s
  | .fclass x d a => Sys2Proof.Machine.execFclass x d a s
  | .fscale x d a b => Sys2Proof.Machine.execFscale x d a b s
  | .frnd x d a => Sys2Proof.Machine.execFrnd x d a s
  | .hadd2 x d a b => Sys2Proof.Machine.execHadd2 x d a b s
  | .hmul2 x d a b => Sys2Proof.Machine.execHmul2 x d a b s
  | .hfma2 x d a b c => Sys2Proof.Machine.execHfma2 x d a b c s
  | .hmnx2 x mx d a b => Sys2Proof.Machine.execHmnx2 x mx d a b s
  | .hcmp2 x cc tomask d a b => Sys2Proof.Machine.execHcmp2 x cc tomask d a b s
  | .badd2 x d a b => Sys2Proof.Machine.execBadd2 x d a b s
  | .bmul2 x d a b => Sys2Proof.Machine.execBmul2 x d a b s
  | .bfma2 x d a b c => Sys2Proof.Machine.execBfma2 x d a b c s
  | .fdot2 x d a b c => Sys2Proof.Machine.execFdot2 x d a b c s
  | .cvt x dst src d a => Sys2Proof.Machine.execCvt x dst src d a s
  | .cvtp x dst src d a b c => Sys2Proof.Machine.execCvtp x dst src d a b c s
  | .cvti x dst src d a => Sys2Proof.Machine.execCvti x dst src d a s
  | .cvtf x dst src d a => Sys2Proof.Machine.execCvtf x dst src d a s
  | .fabs x neg d a => Sys2Proof.Machine.execFabs x neg d a s
  | .fexp x d a => Sys2Proof.Machine.execFexp x d a s
  | .fexp2 x d a => Sys2Proof.Machine.execFexp2 x d a s
  | .flog2 x d a => Sys2Proof.Machine.execFlog2 x d a s
  | .frcp x d a => Sys2Proof.Machine.execFrcp x d a s
  | .frsq x d a => Sys2Proof.Machine.execFrsq x d a s
  | .fsqrt x d a => Sys2Proof.Machine.execFsqrt x d a s
  | .fsin x d a => Sys2Proof.Machine.execFsin x d a s
  | .fcos x d a => Sys2Proof.Machine.execFcos x d a s
  | .ftanh x d a => Sys2Proof.Machine.execFtanh x d a s
  | .fsig x d a => Sys2Proof.Machine.execFsig x d a s
  | .actld x d a n => Sys2Proof.Machine.execActld x d a n s
  | .actev x d a n => Sys2Proof.Machine.execActev x d a n s
  | .actinfo x d n => Sys2Proof.Machine.execActinfo x d n s
  | .shfl x m d a b c => Sys2Proof.Machine.execShfl x m d a b c s
  | .poll x op d a => Sys2Proof.Machine.execPoll x op d a s
  | .matchLanes x d a => Sys2Proof.Machine.execMatchLanes x d a s
  | .raddf x d a => Sys2Proof.Machine.execRaddf x d a s
  | .rmaxf x d a => Sys2Proof.Machine.execRmaxf x d a s
  | .rminf x d a => Sys2Proof.Machine.execRminf x d a s
  | .rint x op d a => Sys2Proof.Machine.execRint x op d a s
  | .scanf x op excl d a => Sys2Proof.Machine.execScanf x op excl d a s
  | .scani x op excl d a => Sys2Proof.Machine.execScani x op excl d a s
  | .segf x op d a b => Sys2Proof.Machine.execSegf x op d a b s
  | .segi x op d a b => Sys2Proof.Machine.execSegi x op d a b s
  | .bcast x d a b => Sys2Proof.Machine.execBcast x d a b s
  | .shflo x m d a b => Sys2Proof.Machine.execShflo x m d a b s
  | .fusedSoftmax la m v t e r => Sys2Proof.Machine.execFusedSoftmax la m v t e r s
  | .longLatencyResult r => Sys2Proof.Machine.execLongLatencyResult r s
  | .ld x d ua sz a off => Sys2Proof.Machine.execLd x d ua sz a off s
  | .st x d ua sz a off => Sys2Proof.Machine.execSt x d ua sz a off s
  | .ldl x d ua sz a off => Sys2Proof.Machine.execLdl x d ua sz a off s
  | .stl x d ua sz a off => Sys2Proof.Machine.execStl x d ua sz a off s
  | .lds x d ua sz a off => Sys2Proof.Machine.execLds x d ua sz a off s
  | .sts x d ua sz a off => Sys2Proof.Machine.execSts x d ua sz a off s
  | .ldw x d ua sz a off => Sys2Proof.Machine.execLdw x d ua sz a off s
  | .stw x d ua sz a off => Sys2Proof.Machine.execStw x d ua sz a off s
  | .ldt x d ua sz a off => Sys2Proof.Machine.execLdt x d ua sz a off s
  | .stt x d ua sz a off => Sys2Proof.Machine.execStt x d ua sz a off s
  | .ldx x d ua sz a off => Sys2Proof.Machine.execLdx x d ua sz a off s
  | .stx x d ua sz a off => Sys2Proof.Machine.execStx x d ua sz a off s
  | .orderedLoad x g d a b => Sys2Proof.Machine.execOrderedLoad x g d a b s
  | .orderedStore x g d a b => Sys2Proof.Machine.execOrderedStore x g d a b s
  | .atomAdd x g d a b => Sys2Proof.Machine.execAtomAdd x g d a b s
  | .atomSub x g d a b => Sys2Proof.Machine.execAtomSub x g d a b s
  | .atomMin x g d a b => Sys2Proof.Machine.execAtomMin x g d a b s
  | .atomMax x g d a b => Sys2Proof.Machine.execAtomMax x g d a b s
  | .atomUmin x g d a b => Sys2Proof.Machine.execAtomUmin x g d a b s
  | .atomUmax x g d a b => Sys2Proof.Machine.execAtomUmax x g d a b s
  | .atomAnd x g d a b => Sys2Proof.Machine.execAtomAnd x g d a b s
  | .atomOr x g d a b => Sys2Proof.Machine.execAtomOr x g d a b s
  | .atomXor x g d a b => Sys2Proof.Machine.execAtomXor x g d a b s
  | .atomExch x g d a b => Sys2Proof.Machine.execAtomExch x g d a b s
  | .atomCas x g d a b => Sys2Proof.Machine.execAtomCas x g d a b s
  | .atomFadd x g d a b => Sys2Proof.Machine.execAtomFadd x g d a b s
  | .fence x sc => Sys2Proof.Machine.execFence x sc s
  | .ldd x sp hdr f d a b => Sys2Proof.Machine.execLdd x sp hdr f d a b s
  | .std x sp f d a b => Sys2Proof.Machine.execStd x sp f d a b s
  | .cctlPrefetch x a b => Sys2Proof.Machine.execCctlPrefetch x a b s
  | .cctlClean x a b => Sys2Proof.Machine.execCctlClean x a b s
  | .cctlEvict x a b => Sys2Proof.Machine.execCctlEvict x a b s
  | .cctlDiscard x a b => Sys2Proof.Machine.execCctlDiscard x a b s
  | .barr x c a b => Sys2Proof.Machine.execBarr x c a b s
  | .barw x c a b => Sys2Proof.Machine.execBarw x c a b s
  | .barrw x c a b => Sys2Proof.Machine.execBarrw x c a b s
  | .barrierWaitEnd r => Sys2Proof.Machine.execBarrierWaitEnd r s
  | .arriveRetry r => Sys2Proof.Machine.execArriveRetry r s
  | .swwait x c a b => Sys2Proof.Machine.execSwwait x c a b s
  | .syncWaitEnd r => Sys2Proof.Machine.execSyncWaitEnd r s
  | .cinc x a b => Sys2Proof.Machine.execCinc x a b s
  | .crd x d a => Sys2Proof.Machine.execCrd x d a s
  | .tqpush x d a b n => Sys2Proof.Machine.execTqpush x d a b n s
  | .tqpop x d a => Sys2Proof.Machine.execTqpop x d a s
  | .tqpopWake r => Sys2Proof.Machine.execTqpopWake r s
  | .fork x d a b => Sys2Proof.Machine.execFork x d a b s
  | .forkResume launch groupid => Sys2Proof.Machine.execForkResume launch groupid s
  | .joinc x a b => Sys2Proof.Machine.execJoinc x a b s
  | .joincApply core room => Sys2Proof.Machine.execJoincApply core room s
  | .gbar x sc => Sys2Proof.Machine.execGbar x sc s
  | .gbarComplete core room gang => Sys2Proof.Machine.execGbarComplete core room gang s
  | .jsub x a => Sys2Proof.Machine.execJsub x a s
  | .jwait x m => Sys2Proof.Machine.execJwait x m s
  | .jwaitEnd r => Sys2Proof.Machine.execJwaitEnd r s
  | .jchk x d s0 => Sys2Proof.Machine.execJchk x d s0 s
  | .jcan x m => Sys2Proof.Machine.execJcan x m s
  | .jobAccept core => Sys2Proof.Machine.execJobAccept core s
  | .jobStart core id => Sys2Proof.Machine.execJobStart core id s
  | .porterRow core id => Sys2Proof.Machine.execPorterRow core id s
  | .courierElement core id => Sys2Proof.Machine.execCourierElement core id s
  | .collectiveElement core id => Sys2Proof.Machine.execCollectiveElement core id s
  | .requantiseGroup core id => Sys2Proof.Machine.execRequantiseGroup core id s
  | .jobComplete core id => Sys2Proof.Machine.execJobComplete core id s
  | .syncRaise core id => Sys2Proof.Machine.execSyncRaise core id s
  | .barrierCountdown core id => Sys2Proof.Machine.execBarrierCountdown core id s
  | .mxq x d a => Sys2Proof.Machine.execMxq x d a s
  | .mxrunResume x => Sys2Proof.Machine.execMxrunResume x s
  | .mxrunSkip x => Sys2Proof.Machine.execMxrunSkip x s
  | .mxrunAbort x => Sys2Proof.Machine.execMxrunAbort x s
  | .mxcfg x a e => Sys2Proof.Machine.execMxcfg x a e s
  | .mxcb x a sp j => Sys2Proof.Machine.execMxcb x a sp j s
  | .mxwait x d a => Sys2Proof.Machine.execMxwait x d a s
  | .engineWaitEnd r => Sys2Proof.Machine.execEngineWaitEnd r s
  | .mxRecordFetch core room => Sys2Proof.Machine.execMxRecordFetch core room s
  | .mxRecordStart core room => Sys2Proof.Machine.execMxRecordStart core room s
  | .mxKblock core room => Sys2Proof.Machine.execMxKblock core room s
  | .mapbind x h a sp => Sys2Proof.Machine.execMapbind x h a sp s
  | .mapld x h a sp => Sys2Proof.Machine.execMapld x h a sp s
  | .mapst x h a sp => Sys2Proof.Machine.execMapst x h a sp s
  | .maprel x h => Sys2Proof.Machine.execMaprel x h s
  | .mapinfo x d h => Sys2Proof.Machine.execMapinfo x d h s
  | .blockedWaitEnd r => Sys2Proof.Machine.execBlockedWaitEnd r s
  | .srchbeg x u off => Sys2Proof.Machine.execSrchbeg x u off s
  | .srchend x => Sys2Proof.Machine.execSrchend x s
  | .trye x d a b => Sys2Proof.Machine.execTrye x d a b s
  | .fail x => Sys2Proof.Machine.execFail x s
  | .cut x a => Sys2Proof.Machine.execCut x a s
  | .cpmark x d => Sys2Proof.Machine.execCpmark x d s
  | .cpchk x d => Sys2Proof.Machine.execCpchk x d s
  | .trst x b64 d a b => Sys2Proof.Machine.execTrst x b64 d a b s
  | .steal x d => Sys2Proof.Machine.execSteal x d s
  | .timerTrap r => Sys2Proof.Machine.execTimerTrap r s
  | .storageError l => Sys2Proof.Machine.execStorageError l s
  | .pageTableWalk die => Sys2Proof.Machine.execPageTableWalk die s
  | .l2SectorFill die sector => Sys2Proof.Machine.execL2SectorFill die sector s
  | .l2Writeback die sector => Sys2Proof.Machine.execL2Writeback die sector s
  | .hbmSectorTransfer ctl tenant => Sys2Proof.Machine.execHbmSectorTransfer ctl tenant s
  | .bucketRefill => Sys2Proof.Machine.execBucketRefill s
  | .bucketEntryWrite ctl tenant entry => Sys2Proof.Machine.execBucketEntryWrite ctl tenant entry s
  | .hbmScrub sector => Sys2Proof.Machine.execHbmScrub sector s
  | .keySlotDestroy slot => Sys2Proof.Machine.execKeySlotDestroy slot s
  | .keySlotDestroyComplete slot => Sys2Proof.Machine.execKeySlotDestroyComplete slot s
  | .remoteWriteApply die k => Sys2Proof.Machine.execRemoteWriteApply die k s
  | .remoteWriteAck die k => Sys2Proof.Machine.execRemoteWriteAck die k s
  | .markReceive dst src => Sys2Proof.Machine.execMarkReceive dst src s
  | .closeRequest dst src => Sys2Proof.Machine.execCloseRequest dst src s
  | .epochTimeout die => Sys2Proof.Machine.execEpochTimeout die s
  | .hostPostedWrite die fn pa data => Sys2Proof.Machine.execHostPostedWrite die fn pa data s
  | .packetArrival die p => Sys2Proof.Machine.execPacketArrival die p s
  | .orderedDelivery die flow => Sys2Proof.Machine.execOrderedDelivery die flow s
  | .ack die flow seq => Sys2Proof.Machine.execAck die flow seq s
  | .nak die flow seq => Sys2Proof.Machine.execNak die flow seq s
  | .close die sdev sdie flow => Sys2Proof.Machine.execClose die sdev sdie flow s
  | .packetResend die flow seq => Sys2Proof.Machine.execPacketResend die flow seq s
  | .linkFrameReceive die ok ps => Sys2Proof.Machine.execLinkFrameReceive die ok ps s
  | .invalidationBroadcast i0 => Sys2Proof.Machine.execInvalidationBroadcast i0 s
  | .invalidationReceipt agent => Sys2Proof.Machine.execInvalidationReceipt agent s
  | .invalidationDrained agent => Sys2Proof.Machine.execInvalidationDrained agent s
  | .invalidationComplete => Sys2Proof.Machine.execInvalidationComplete s
  | .registerWindowWrite core k => Sys2Proof.Machine.execRegisterWindowWrite core k s
  | .debuggerWrite core room off data => Sys2Proof.Machine.execDebuggerWrite core room off data s
  | .windowHoldSet core room => Sys2Proof.Machine.execWindowHoldSet core room s
  | .windowHoldAck core room => Sys2Proof.Machine.execWindowHoldAck core room s
  | .windowHoldRelease core room => Sys2Proof.Machine.execWindowHoldRelease core room s
  | .breakpointArm core room set => Sys2Proof.Machine.execBreakpointArm core room set s
  | .stopRequest core room => Sys2Proof.Machine.execStopRequest core room s
  | .singleStep r => Sys2Proof.Machine.execSingleStep r s
  | .roomCardWrite core room card => Sys2Proof.Machine.execRoomCardWrite core room card s
  | .roomCardTakeUp core room => Sys2Proof.Machine.execRoomCardTakeUp core room s
  | .groupMakeResident core room => Sys2Proof.Machine.execGroupMakeResident core room s
  | .groupSave core room => Sys2Proof.Machine.execGroupSave core room s
  | .groupRestore core room => Sys2Proof.Machine.execGroupRestore core room s
  | .sliceEnd cluster => Sys2Proof.Machine.execSliceEnd cluster s
  | .preemptDeadline cluster => Sys2Proof.Machine.execPreemptDeadline cluster s
  | .gangRelaunch launch gang => Sys2Proof.Machine.execGangRelaunch launch gang s
  | .deficitUpdate => Sys2Proof.Machine.execDeficitUpdate s
  | .scanSlotStart => Sys2Proof.Machine.execScanSlotStart s
  | .scanRun => Sys2Proof.Machine.execScanRun s
  | .scanDefer => Sys2Proof.Machine.execScanDefer s
  | .scanResult pass lane => Sys2Proof.Machine.execScanResult pass lane s
  | .eyeMarginWindow port above => Sys2Proof.Machine.execEyeMarginWindow port above s
  | .linkRetrainDone port => Sys2Proof.Machine.execLinkRetrainDone port s
  | .linkRateRaise port => Sys2Proof.Machine.execLinkRateRaise port s
  | .linkReset port => Sys2Proof.Machine.execLinkReset port s
  | .engineReset core mx => Sys2Proof.Machine.execEngineReset core mx s
  | .partitionReset part => Sys2Proof.Machine.execPartitionReset part s
  | .partitionResetComplete part => Sys2Proof.Machine.execPartitionResetComplete part s
  | .functionLevelReset fn => Sys2Proof.Machine.execFunctionLevelReset fn s
  | .vfEnableClear => Sys2Proof.Machine.execVfEnableClear s
  | .sqDoorbell fn q tail => Sys2Proof.Machine.execSqDoorbell fn q tail s
  | .launch fn q => Sys2Proof.Machine.execLaunch fn q s
  | .launchComplete launch => Sys2Proof.Machine.execLaunchComplete launch s
  | .cincEntry fn q => Sys2Proof.Machine.execCincEntry fn q s
  | .cwait fn q => Sys2Proof.Machine.execCwait fn q s
  | .cwaitSatisfied fn q => Sys2Proof.Machine.execCwaitSatisfied fn q s
  | .nopEntry fn q => Sys2Proof.Machine.execNopEntry fn q s
  | .adminDoorbell fn tail => Sys2Proof.Machine.execAdminDoorbell fn tail s
  | .qreg fn => Sys2Proof.Machine.execQreg fn s
  | .codeload fn => Sys2Proof.Machine.execCodeload fn s
  | .codefree fn => Sys2Proof.Machine.execCodefree fn s
  | .keyreg fn => Sys2Proof.Machine.execKeyreg fn s
  | .pagereg fn => Sys2Proof.Machine.execPagereg fn s
  | .resume fn => Sys2Proof.Machine.execResume fn s
  | .abandon fn => Sys2Proof.Machine.execAbandon fn s
  | .depthr fn => Sys2Proof.Machine.execDepthr fn s
  | .trace fn => Sys2Proof.Machine.execTrace fn s
  | .fwstage fn => Sys2Proof.Machine.execFwstage fn s
  | .fwact fn => Sys2Proof.Machine.execFwact fn s
  | .fwHandover => Sys2Proof.Machine.execFwHandover s
  | .fwHeartbeat accepts => Sys2Proof.Machine.execFwHeartbeat accepts s
  | .fwRollback => Sys2Proof.Machine.execFwRollback s
  | .duneshFailover => Sys2Proof.Machine.execDuneshFailover s
  | .staleprWrite fn => Sys2Proof.Machine.execStaleprWrite fn s
  | .registerWrite fn off val => Sys2Proof.Machine.execRegisterWrite fn off val s
  | .atsTranslationReply die off r w addr => Sys2Proof.Machine.execAtsTranslationReply die off r w addr s
  | .atsInvalidationRequest fn lo len => Sys2Proof.Machine.execAtsInvalidationRequest fn lo len s
  | .pageRequestGroupResponse fn idx code => Sys2Proof.Machine.execPageRequestGroupResponse fn idx code s
  | .getVersion => Sys2Proof.Machine.execGetVersion s
  | .getCapabilities => Sys2Proof.Machine.execGetCapabilities s
  | .negotiateAlgorithms => Sys2Proof.Machine.execNegotiateAlgorithms s
  | .getDigests => Sys2Proof.Machine.execGetDigests s
  | .getCertificate => Sys2Proof.Machine.execGetCertificate s
  | .challenge nonce => Sys2Proof.Machine.execChallenge nonce s
  | .getMeasurements idx => Sys2Proof.Machine.execGetMeasurements idx s
  | .powerOn => Sys2Proof.Machine.execPowerOn s
  | .thermalThrottle => Sys2Proof.Machine.execThermalThrottle s
  | .thermalTrip => Sys2Proof.Machine.execThermalTrip s
  | .lanternLoad obj => Sys2Proof.Machine.execLanternLoad obj s
  | .lanternBreak kernel off => Sys2Proof.Machine.execLanternBreak kernel off s
  | .lanternDeleteAll => Sys2Proof.Machine.execLanternDeleteAll s
  | .lanternRun kernel args => Sys2Proof.Machine.execLanternRun kernel args s
  | .lanternCont n => Sys2Proof.Machine.execLanternCont n s
  | .lanternPrint warp lane items => Sys2Proof.Machine.execLanternPrint warp lane items s
  | .lanternMem space addr n => Sys2Proof.Machine.execLanternMem space addr n s
  | .lanternDis addr n => Sys2Proof.Machine.execLanternDis addr n s
  | .lanternEvict => Sys2Proof.Machine.execLanternEvict s
  | .lanternCinc id n => Sys2Proof.Machine.execLanternCinc id n s
  | .hostRead die fn pa len => Sys2Proof.Machine.execHostRead die fn pa len s
  | .cxlCacheSnoop die sector inval => Sys2Proof.Machine.execCxlCacheSnoop die sector inval s
  | .privilegedAccess write owner pa data => Sys2Proof.Machine.execPrivilegedAccess write owner pa data s
  | .partitionStart part => Sys2Proof.Machine.execPartitionStart part s

end Sys2Proof.Machine
end

