-- ==== Sys2Proof/Machine/Own.lean ====
section
/-! DEFINITION. The steps that the machine's agents take on their own where the agenda is silent (log entry 2): each is the meaning of a row
of the table, and the first of a fixed order that changes anything is taken. Which group goes to which room, and whatever comes from outside,
is never chosen here. -/

namespace Sys2Proof.Machine

/-- The first of some steps that changes the state. -/
def State.firstStep (s : State) (fs : List (State → State)) : Option State :=
  fs.findSome? fun f => let t := f s
    if t = s then none else some t

/-- Walks, sectors that agents wait for, buckets and deficits (R33, R65, R161, R331). -/
def State.ownTables (s : State) : List (State → State) :=
  ((List.range 8).filter fun d => (s.die d).missq ≠ []).map (fun d t => t.pageWalk d) ++
  (((s.reqs ++ s.saved.flatMap (·.reqs)).filter fun q => !q.done).map fun q t =>
    match paKind (q.sector * 64) with
    | .hbm => t.sectorTransfer (ctlOf (q.sector * 64)) q.tenant
    | .host => t.l2Fill (homeDie (q.sector * 64)) q.sector
    | .control | .onchip | .peer | .reserved => t) ++
  (if s.buckets = [] then [] else [State.bucketRefill]) ++ (if s.shares = [] then [] else [State.deficitUpdate])

/-- What is on its way between the dies, marks, acknowledgements, remote writes, close requests, epochs (R108, R109, R133). A close request is made
only where its receiver has not closed the epoch yet. -/
def State.ownNetwork (s : State) : List (State → State) :=
  let asks := fun (r : Remote) => r.here && (List.range 8).any fun k => k ≠ r.dst && vcAt (s.die k).vc k ≤ vcAt r.stamp k &&
    vcAt (s.die r.dst).marks k < (if k = r.src then vcAt r.stamp k - 1 else vcAt r.stamp k)
  (if s.wire = [] then [] else [State.wireNext]) ++
  (s.msgs.filter (·.mark)).map (fun m t => t.markReceive m.dst m.src) ++
  (List.range 8).flatMap (fun d => (List.range (s.net.filter fun r => r.src = d && r.applied && r.copies = []).length).map fun k t => t.remoteAck d k) ++
  (List.range 8).flatMap (fun d => ((s.waitingAt d).zipIdx.filter fun p => s.applyOk p.1).map fun p t => t.remoteApply d p.2) ++
  (List.range 8).flatMap (fun d => ((s.waitingAt d).zipIdx.filter fun p => asks p.1).map fun p t => t.remoteApply d p.2) ++
  (s.msgs.filter (!·.mark)).map (fun m t => t.closeRequest m.dst m.src) ++
  (List.range 8).map (fun d t => t.epochTimeout d)

/-- Waystations, replay buffers, ports, key slots, invalidations, links (R36, R131, R135, R136, R140, R383). -/
def State.ownFabric (s : State) : List (State → State) :=
  (List.range 8).flatMap (fun d => (List.range (s.die d).rx.length).map fun k t => t.deliverNext d k) ++
  (List.range 8).flatMap (fun d => (s.die d).tx.flatMap fun f => (f.buf.filter fun r => r.ready f.naks s.gtime).map fun r t => t.resend d f.flow r.p.seq) ++
  (List.range 64).flatMap (fun c => (List.range (s.core c).port.length).map fun k t => t.portApply c k) ++
  ((List.range 128).filter fun k => s.keySlots.getD k .empty = KeySlot.destroying).map (fun k t => t.keyDestroyed k) ++
  (match s.inval with
   | none => []
   | some _ => invalAgents.map (fun a t => t.invalReceipt a) ++ invalAgents.map (fun a t => t.invalDrained a) ++ [State.invalComplete]) ++
  s.atcDrain.map (fun x t => t.atsInval x.1 x.2.1 x.2.2) ++
  ((List.range 16).filter fun p => (at_ {} s.ports p).training).map fun p t => t.trained p

/-- A request of the host that waits and may now take effect (R113, R393, R399). -/
def State.serveHeld (s : State) (i : Request) : State :=
  s.serve i fun s => match i with
    | .doorbell fn q tail => s.ring fn q tail
    | .admin fn tail => s.modFn fn fun f => { f with admindb := tail }
    | .flr fn => s.flr fn
    | .vfClear => s.clearVfs
    | .read die fn pa len => s.answerRead die fn pa len
    | .page fn idx code => s.pageAnswer fn idx code
    | .register fn off val => s.setRegister fn off val

/-- The ends of waits (R356). -/
def waitEnds (r : SplitRef) (kind : Nat) : List (State → State) :=
  match kind with
  | 1 => [barrierWaitEnd r]
  | 2 => [syncWaitEnd r]
  | 4 => [waitjArrival r, waitjTimeout r]
  | 5 => [tqpopWake r]
  | 6 | 7 => [blockedWaitEnd r]
  | 9 | 10 => [engineWaitEnd r]
  | 11 => [arriveRetry r]
  | 12 => [jwaitEnd r]
  | _ => []

/-- The ends of the waits of resident splits, and group barriers (R161, R272). -/
def State.ownWaits (s : State) : List (State → State) :=
  (List.range 64).flatMap fun c => (s.core c).warps.flatMap fun p =>
    match p.2 with
    | none => []
    | some w => (List.range 4).flatMap fun i =>
        let b : Block := at_ {} w.block i
        if (w.split i).isNone then []
        else if b.kind = 3 then [fun t => t.gbarComplete c w.room (b.value = 3)]
        else waitEnds ⟨c, p.1, i⟩ b.kind

/-- Steps of a core's job scheduler (R118 to R129). -/
def State.ownJobs (s : State) : List (State → State) :=
  (List.range 64).flatMap fun c => if (s.core c).jobs = [] then [] else
    (fun t => t.jobAccept c) :: (s.core c).jobs.flatMap fun j =>
      [ fun t => t.jobStart c j.id, fun t => t.syncRaiseJob c j.id, fun t => t.barrierCountdown c j.id, fun t => t.jobComplete c j.id,
        fun t => match j.card.kind with
          | 1 => t.porterRow c j.id
          | 2 => t.courierElement c j.id
          | 3 => t.collectiveElement c j.id
          | _ => t.requantiseGroup c j.id ]

/-- Steps of the matrix engines, a core's rooms in turn (R291, R292). -/
def State.ownMatrix (s : State) : List (State → State) :=
  (List.range 64).flatMap fun c => (List.range 16).flatMap fun i =>
    let n := ((s.core c).mxTurn + 1 + i) % 16
    let ring := (s.room c n).ring
    if ring.run.isSome then [fun t => t.mxStart c n, fun t => t.mxKblock c n] else if ring.pending then [fun t => t.mxFetch c n] else []

/-- Whether a Blocked or otherwise parked group is to leave its room (R331, R338, R351, R379). -/
def State.mustLeave (s : State) (c : Nat) (g : Group) : Bool :=
  match g.phase with
  | .suspended | .faulted | .doubleFaulted | .paging => true
  | .resident => (s.shares.any fun x => x.cluster = clusterOf c && x.part = g.part && (x.saving.isSome || x.late)) || (s.scan.active && s.scan.core = c)
  | .bound | .ended => false

/-- Rooms: cards, residence, restores, saves, ends (R160, R278, R325, R337, R352). -/
def State.ownRooms (s : State) : List (State → State) :=
  let cards := s.mem.filter fun p => 0x80000000 ≤ p.1 && p.1 < 0x80008000 && tbit p.2.toNat 0
  allRooms.flatMap fun r =>
    match (s.room r.1 r.2).group with
    | none => if cards.any fun p => p.1 = cardAddr r.1 r.2 then [fun t => t.takeCard r.1 r.2] else []
    | some g =>
      match g.phase with
      | .bound => if g.restore then [fun t => t.restoreGang r.1 r.2] else [fun t => t.makeResident r.1 r.2]
      | .ended => [fun t => t.joincApply r.1 r.2, fun t => t.reap r.1 r.2]
      | _ => if s.mustLeave r.1 g && s.mayLeave r.1 r.2 then [fun t => t.saveGang r.1 r.2] else []

/-- Host queues, admin queues, and launches (R329, R375, R391). -/
def State.ownHost (s : State) : List (State → State) :=
  s.held.map (fun i t => t.serveHeld i) ++
  (s.saved.filter fun v => v.wake.isSome).map (fun v t => t.forkResume v.launch v.groupid) ++
  (List.range s.launches.length).flatMap (fun n =>
    let l := s.launches.getD n {}
    if l.complete then [] else
    (l.gangs.filter fun p => p.2.waiting).map (fun p t => t.modLaunch n fun l => l.modGang p.1 fun i => { i with waiting := false }) ++
      [fun t => t.launchComplete n]) ++
  (List.range 65).flatMap fun fn =>
    let f := s.fns.getD fn {}
    ((List.range 16).filter fun q => (at_ {} f.sqs q).head ≠ (at_ {} f.sqs q).tail || (at_ none f.cwait q).isSome).flatMap (fun q =>
      [ fun t => t.cwaitMet fn q,
        fun t => t.sqBegin fn q 1 fun t e => t.sqLaunch fn q e,
        fun t => t.sqBegin fn q 2 fun t e => t.sqCinc fn q e,
        fun t => t.sqBegin fn q 3 fun t e => t.sqCwait fn q e,
        fun t => t.sqBegin fn q 4 fun t e => t.post fn 0 (sqTag e) 0 ]) ++
    (if (s.adminEntry fn).isNone then [] else
      [ fun t => t.adminBegin fn 1 State.qreg, fun t => t.adminBegin fn 2 State.codeload, fun t => t.adminBegin fn 3 State.codefree,
        fun t => t.adminBegin fn 4 State.keyreg, fun t => t.adminBegin fn 5 State.pagereg, fun t => t.adminBegin fn 6 State.resumeGroup,
        fun t => t.adminBegin fn 7 State.abandonLaunch, fun t => t.adminBegin fn 8 State.setDepthr, fun t => t.adminBegin fn 9 State.setTrace,
        fun t => t.adminBegin fn 0x20 State.fwstage, fun t => t.adminBegin fn 0x21 State.fwact ])

/-- Slices, deadlines, firmware, scans, resets (R331, R338, R379, R385, R399). -/
def State.ownInnkeeper (s : State) : List (State → State) :=
  ((s.shares.map (·.cluster)).eraseDups).flatMap (fun c => [fun t => t.sliceEnd c, fun t => t.preemptDeadline c]) ++
  (if s.fw.phase = .running then [] else [State.fwNext]) ++
  (if (s.fns.getD 0 {}).ready then [State.scanStart, State.scanDefer, State.scanRun] else []) ++
  -- the patterns run for about 2 ms, and a sound core passes
  (if s.scan.running && s.scan.since + 2000000 ≤ s.gtime then [fun t => t.scanResult true none] else []) ++
  s.resets.map fun p t => t.resetDone p

/-- The machine's own next step, if there is one. -/
def State.own (s : State) : Option State :=
  (s.firstStep s.ownTables).or <| (s.firstStep s.ownNetwork).or <| (s.firstStep s.ownFabric).or <| (s.firstStep s.ownWaits).or <|
    (s.firstStep s.ownJobs).or <| (s.firstStep s.ownMatrix).or <| (s.lanternOwn).or <| (s.evictNow).or <| (s.firstStep s.ownRooms).or <|
    (s.firstStep s.ownHost).or (s.firstStep s.ownInnkeeper)

end Sys2Proof.Machine
end

