-- ==== Sys2Proof/Machine/Issue.lean ====
section
/-! DEFINITION. What the machine does next: the issue choice of a quadrant (R335), TIMER before an instruction (R350), the fused
sequence (R253), time (R350, R359), and the machine's own order of steps where the agenda is silent (log entry 2). -/

namespace Sys2Proof.Machine

/-- Whether a row of the table is a step of another agent, and not an instruction that a split issues. -/
def isEvent (i : Instr) : Bool :=
  match i with
  | .trapReturn _ _ | .fusedSoftmax _ _ _ _ _ _ => false
  | i => (encode i).isNone

/-! ### The issue choice -/

/-- The score of a ready split (R335). -/
def State.score (s : State) (r : SplitRef) : Nat :=
  let w := s.warp r.core r.slot
  let g := s.group r.core w.room
  let age := at_ 0 w.age r.split
  let role := Group.role g w.num
  if 63 ≤ age then 256 + age else age + 8 * g.prio + (if role = 2 then 4 else if role = 1 then 2 else 0)

/-- The ready splits of a quadrant, by warp slot and split slot. -/
def State.readySplits (s : State) (c q : Nat) : List SplitRef :=
  ((s.core c).warps.filter fun p => p.1 / 16 = q).flatMap fun p =>
    ((List.range 4).map fun i => (⟨c, p.1, i⟩ : SplitRef)).filter s.ready

/-- The split that a quadrant issues: the highest score, ties to the lower slots (R335). -/
def State.choice (s : State) (c q : Nat) : Option SplitRef :=
  ((s.readySplits c q).foldl (fun (b : Option (SplitRef × Nat)) r =>
    match b with
    | none => some (r, s.score r)
    | some x => if x.2 < s.score r then some (r, s.score r) else b) none).map (·.1)

/-- The other ready splits of the quadrant grow older by one issue interval; one that is not ready has no age, which begins when it
becomes ready (R335). -/
def State.ageOthers (s : State) (r : SplitRef) : State :=
  let ready := s.readySplits r.core (r.slot / 16)
  ((s.core r.core).warps.filter fun p => p.1 / 16 = r.slot / 16).foldl (fun t p =>
    t.modWarp r.core p.1 fun w => { w with
      age := (List.range 4).map fun i =>
        if (⟨r.core, p.1, i⟩ : SplitRef) = r then at_ 0 w.age i
        else if ready.contains ⟨r.core, p.1, i⟩ then at_ 0 w.age i + 1 else 0 }) s

/-! ### Before an instruction -/

/-- An operand field of the fused sequence: mode 000. -/
def plainV (a : Src) : Option (BitVec 8) :=
  match a with
  | .v n => some n
  | _ => none

/-- The registers of a fused sequence that starts with an instruction, if the next three complete it (R253). -/
def fusedOf (i0 i1 i2 i3 : Instr) : Option Instr :=
  match i0, i1, i2, i3 with
  | .rmaxf x0 d0 a0, .fsub x1 d1 a1 b1, .fexp x2 d2 a2, .raddf x3 d3 a3 =>
    if d0.ix || d1.ix || d2.ix || d3.ix || x0.pfx.isSome || x1.pfx.isSome || x2.pfx.isSome || x3.pfx.isSome then none
    else if x0.la ≠ 0 || x1.la ≠ 0 || x2.la ≠ 0 then none
    else if plainV a0 ≠ plainV a1 || plainV b1 ≠ some d0.n || plainV a2 ≠ some d1.n || plainV a3 ≠ some d2.n then none
    else
      match plainV a0 with
      | some v => if d0.n = v then none else some (.fusedSoftmax x3.la d0.n v d1.n d2.n d3.n)
      | none => none
  | _, _, _, _ => none

/-- What the decoder sees at a split's PC: one instruction, the fused sequence, or words that are not translated yet. -/
inductive Front where
  | one
  | fused (i : Instr)
  | miss (va : Nat)
  deriving DecidableEq, Repr

/-- Whether an `rmaxf` may begin a fused sequence (R253). -/
def mayFuse (i : Instr) : Bool :=
  match i with
  | .rmaxf x d a => !d.ix && x.pfx.isNone && x.la = 0 && (match plainV a with
    | some v => d.n ≠ v
    | none => false)
  | _ => false

/-- The fused sequence at a split's PC (R253): four unprefixed instructions, no RA inside, no armed breakpoint or single step on them. -/
def State.fusedAt (s : State) (r : SplitRef) (i : Instr) : Front :=
  let w := s.warp r.core r.slot
  let g := s.group r.core w.room
  match w.split r.split with
  | none => .one
  | some x =>
    let armed := fun (k : Nat) => x.ra = some (x.pc + BitVec.ofNat 64 k) || s.stopsAt g (x.pc.toNat + k)
    if !mayFuse i || g.stepping.isSome || w.stepArmed || s.stopsAt g x.pc.toNat || armed 8 || armed 16 || armed 24 then .one
    else
      match s.fetchAt r 8 with
      | .miss va => .miss va
      | .instr i1 _ =>
        match s.fetchAt r 16 with
        | .miss va => .miss va
        | .instr i2 _ =>
          match s.fetchAt r 24 with
          | .miss va => .miss va
          | .instr i3 _ => ((fusedOf i i1 i2 i3).map Front.fused).getD .one
          | _ => .one
        | _ => .one
      | _ => .one

/-- An instruction of n bytes executes, once its code stands in the core's instruction cache (R65, R142). -/
def State.issueCode (s : State) (r : SplitRef) (n : Nat) (i : Instr) : Host.Outcome State Fault Refusal :=
  match s.keepCode r n with
  | (.ready, s) => exec i s
  | (_, s) => .next s

/-- A split issues: TIMER, or the instruction at its PC (R180, R202, R219, R335, R350). -/
def State.issue (s : State) (r : SplitRef) : Host.Outcome State Fault Refusal :=
  let s := { s.ageOthers r with cur := r }
  if s.timerDue r then exec (.timerTrap r) s
  else
    match s.fetch r with
    | .miss va => .next (s.askWalk (fetchWanted r) (s.groupOf r.core r.slot).lrec.asid va)
    | .trap t =>
      let c := ctxOf s { w := 0 }
      .next (State.finish c (.trap t, s))
    | .kill => .next (s.killGang r.core (s.warp r.core r.slot).room)
    | .instr i x =>
      match s.fusedAt r i with
      | .one => s.issueCode r x.bytes i
      | .fused f => s.issueCode r 32 f
      | .miss va => .next (s.askWalk (fetchWanted r) (s.groupOf r.core r.slot).lrec.asid va)

/-- Time passes (R215, R350, R359): sr.gtime, the cores' clocks, and sr.wtimer of every group that runs. -/
def State.pass (s : State) (ns cclk : Nat) : State :=
  { s with
    gtime := (s.gtime + ns) % 2 ^ 64
    cores := s.cores.map fun k => { k with
      clock := k.clock + BitVec.ofNat 64 cclk
      rooms := k.rooms.map fun (x : Room) => { x with
        group := x.group.map fun (g : Group) =>
          if g.runs then { g with wtimer := g.wtimer + BitVec.ofNat 64 cclk } else g } } }

/-! ### The machine's own order -/

/-- The first quadrant from `turn` on with a ready split. -/
def State.nextQuad (s : State) : Option Nat :=
  (List.range 256).find? fun i => s.turn ≤ i && !(s.readySplits (i / 4) (i % 4)).isEmpty

/-- The oldest results pending in every warp are written. -/
def State.writeOldest (s : State) : State :=
  (List.range 64).foldl (fun s c => (s.core c).warps.foldl (fun s p =>
    match (p.2.getD {}).pend.find? (·.unwritten) with
    | some q => s.land c p.1 fun x => x = q
    | none => s) s) s

/-- What happens when the agenda is silent: an agent's step, else the instruction of a quadrant in turn; when every quadrant has had its turn,
pending results are written and time passes. -/
def State.idleStep (s : State) : Host.Outcome State Fault Refusal :=
  match s.own with
  | some t => .next t
  | none =>
    match s.nextQuad with
    | some k =>
      match s.choice (k / 4) (k % 4) with
      | some r => { s with turn := k + 1 }.issue r
      | none => .next s
    | none => .next ({ s with turn := 0 }.writeOldest.pass 1 3)

/-- One step of the device. After a thermal trip every clock has stopped, and only power-on starts it (R401). -/
def State.stepOnce (s : State) : Host.Outcome State Fault Refusal :=
  match s.agenda with
  | .issue c q :: rest =>
    let s := { s with agenda := rest }
    match (if s.tripped then none else s.choice c q) with
    | some r => s.issue r
    | none => .next s
  | .event i :: rest =>
    let s := { s with agenda := rest }
    if isEvent i && (!s.tripped || i = .powerOn) then exec i s else .next s
  | .time ns cclk :: rest => .next (if s.tripped then { s with agenda := rest } else { s with agenda := rest }.pass ns cclk)
  | [] => if s.tripped then .next s else s.idleStep

/-! ### Placing one instruction -/

/-- Bytes of an instruction as the code segment holds them (R180): bit 0 of the number is bit 0 of the first word, bits above nbits
zero. -/
def tableBytes (nbits w : Nat) : List Byte := leBytes 12 (w % 2 ^ nbits)

/-- The group in which a placed instruction runs (log entry 4): one warp with every register, code of 12 bytes. -/
def placedGroup : Group :=
  { phase := .resident
    lrec := { asid := 1, gangs := 1 }
    hdr := { codesize := 12, allot := 256, unif := 64, warps := 1, gang := 1, handler := 0xFFFFFFFF }
    warps := (List.replicate 32 none).set 0 (some 0) }

/-- The translation of the page that holds a placed instruction. -/
def placedTlb : Tlb :=
  { agent := 0, asid := 1, va := 0, size := 4096, pte := 0, entry := 0x1F, ipa := 0, pa := 0x1000000000, part := 0, w2 := true,
    x2 := true, m := true }

/-- The device about to issue one instruction: a resident group with one warp on core 0, whose code is that instruction. -/
def State.placeWord (s : State) (nbits w : Nat) : State :=
  { s with
    agenda := [.issue 0 0]
    mem := putBytes s.mem 0x1000000040 (tableBytes nbits w)
    -- nothing stands between the fetch and these bytes
    l2 := s.l2.filter fun x => x.sector ≠ 0x40000001
    net := s.net.filter fun r => r.sector ≠ 0x40000001
    memPoison := setErase s.memPoison 0x40000001
    memKey := without s.memKey 0x40000001
    buckets := []
    tlb := placedTlb :: s.tlb
    keyMap := (0, some 0) :: s.keyMap
    keySlots := s.keySlots.set 0 .live
    cores := modifyAt s.cores 0 fun k => { k with
      rooms := k.rooms.set 0 { group := some placedGroup }
      code := []
      warps := put none k.warps 0 (some { splits := [some { pc := 0, mask := -1 }, none, none, none] }) } }

end Sys2Proof.Machine
end

