-- ==== Sys2Proof/Machine/Step.lean ====
section
/-! DEFINITION. The step: the next move of the agenda, or the machine's own next step (log entry 2). -/

namespace Sys2Proof.Machine

/-- One step of the device. -/
def step (s : State) : Host.Outcome State Fault Refusal := s.stepOnce

/-- The state with one instruction placed where the next step fetches (log entry 4). -/
def State.withFetchWord (s : State) (nbits w : Nat) : State := s.placeWord nbits w

end Sys2Proof.Machine
end

