-- ==== Sys2Proof/Safety.lean ====
section
/-! DEFINITION. What counts as a safe step and a safe run, and the words in which statements about instructions are written. -/

namespace Sys2Proof.Machine

/-- An instruction or step of an agent answers a next state. -/
def Completes (i : Instr) (s : State) : Prop := ∃ t, exec i s = .next t

/-- The machine's step answers a next state. -/
def SafeStep (s : State) : Prop := ∃ t, step s = .next t

/-- The step answers a next state for n steps on end. -/
def SafeRun : Nat → State → Prop
  | 0, _ => True
  | n + 1, s => ∃ t, step s = .next t ∧ SafeRun n t

/-- A property that every step keeps. -/
def Kept (p : State → Prop) : Prop := ∀ s t, p s → step s = .next t → p t

/-! ### An instruction of the issuing split -/

/-- The issuing split is a live split of a resident warp. -/
def State.Issues (s : State) : Prop := (s.split? s.cur).isSome = true

/-- The state in which an instruction reads its operands: the results it waits for are written first (R190, R191). -/
def State.entering (s : State) (i : Instr) : State := s.drainFor (wordsFor i)

/-- What an instruction sees of its split there. -/
def State.seen (s : State) (i : Instr) : Ctx := ctxOf (s.entering i) (wordsFor i)

/-- The state once an instruction is done, after its effect gave t: the split stands at the next instruction (R180, R149). -/
def Ctx.done (c : Ctx) (t : State) : State := (t.retire c).issued c

/-- The state once an instruction that moved its split itself is done (R148). -/
def Ctx.jumped (c : Ctx) (t : State) : State := (t.settleWarp c.core c.slot c.x.pc).issued c

/-- The state once an instruction waits at a blocking point with a record (R161, R356). -/
def Ctx.blocked (c : Ctx) (t : State) (b : Block) : State :=
  { (t.modWarp c.core c.slot fun w => { w with block := w.block.set c.sp b }).issued c with lantern := t.lantern, reqs := t.reqs }

/-- The state once an instruction has trapped (R339, R344). -/
def Ctx.trapped (c : Ctx) (s : State) (t : Trap) : State := (s.takeTrap c.ref c.words t).issued c

/-- No fault of lookahead, register numbers or mapped operands stands before the instruction (R45, R190, R203). -/
structure Ctx.Usable (c : Ctx) (ls : LaneMask) (ns : List Need) (maps : List (Src × OpFmt) := []) : Prop where
  /-- Every register number is inside the allotment, and suits a pair or a quad. -/
  inRange : ns.findSome? (c.regb1 ls) = none
  /-- Every handle named is bound to a slot whose format suits. -/
  slots : c.slotFault ls maps = none
  /-- No register named is pending in the split. -/
  ready : c.lav ls ns = none


/-! ### Results, lane by lane -/

/-- The result words of a vector destination of n registers: the active lanes' words, then zero in the lanes that a zeroing mask clears
(R43, R45, R86). -/
def Ctx.laneWrites (c : Ctx) (d : Dst) (n : Nat) (res : List (Nat × List LaneWord)) : List RegWrite :=
  (res.flatMap fun r => r.2.zipIdx.map fun x => RegWrite.v ((c.number d.n.toNat d.ix r.1).toNat + x.2) r.1 x.1) ++
  ((c.zeroed d n).flatMap fun z => (List.range n).map fun i => RegWrite.v (z.2 + i) z.1 {})

/-- The vector registers that results are written to. -/
def namesOf (ws : List RegWrite) : List RegName :=
  (ws.filterMap fun w => match w with
    | .v n _ _ => some (RegName.v n)
    | _ => none).eraseDups

/-- The lanes and registers of vector results, in order. -/
def lanesWritten (ws : List RegWrite) : List (Nat × Nat) :=
  ws.filterMap fun w => match w with
    | .v n l _ => some (l, n)
    | _ => none

/-- The trail takes what it must of the registers that results overwrite, and leaves a state: that same one where no search region is open,
or none of the registers is trailed (R305). -/
def Ctx.Trails (c : Ctx) (e : State) (ws : List RegWrite) (e' : State) : Prop := c.trail e (lanesWritten ws) = .ok e'

/-- The words of a lane's operands. -/
abbrev laneArgs (vals : List (List LaneWord)) (l : Nat) : List LaneWord := vals.map fun v => at_ {} v l

/-- A lane's result: poison where an operand is poison, else a function of the operands' data (R209, R229). -/
def laneResult (f : List W32 → W32) (vals : List (List LaneWord)) (l : Nat) : LaneWord :=
  if (laneArgs vals l).any (·.poison) then { data := 0, poison := true } else { data := f ((laneArgs vals l).map (·.data)) }

/-- The flags that the lanes of an instruction record together (R230): a lane with a poisoned operand records none. -/
def laneFlags (f : List W32 → FFlags) (vals : List (List LaneWord)) (ls : List Nat) : FFlags :=
  ls.foldl (fun (acc : FFlags) l => acc ||| (if (laneArgs vals l).any (·.poison) then 0 else f ((laneArgs vals l).map (·.data)))) 0

/-! ### What stays as it was -/

/-- Nothing differs but cores. -/
def State.OnlyCores (s t : State) : Prop := t = { s with cores := t.cores }

/-- Nothing differs but cores and what the issue of an instruction clears: refusals of walks, what its split had asked memory for, and the
stop that Lantern lets a split leave. -/
def State.OnlyIssue (s t : State) : Prop := t = { s with cores := t.cores, walked := t.walked, reqs := t.reqs, lantern := t.lantern }

/-- Memory reads the same for every agent: no byte, no poison, no write on its way and no copy differs. -/
def State.SameMemory (s t : State) : Prop :=
  (∀ e at' pa, t.dieByte e at' pa = s.dieByte e at' pa) ∧ (∀ e at' pa, t.diePoison e at' pa = s.diePoison e at' pa) ∧ t.mem = s.mem ∧ t.net = s.net ∧
    t.l2 = s.l2

end Sys2Proof.Machine
end

