-- ==== Sys2Proof/WellFormed.lean ====
section
/-! DEFINITION. Well-formed instructions: those that some legal words spell (R181 to R202). The legality of the words is Decode's, so
that one table of the manual says both what is encoded and what is well formed. -/

namespace Sys2Proof

/-- Whether the 64-bit word of an instruction keeps its reuse hint: the I-format has no RU (R182). -/
def Word64.keepsRu : Word64 → Ctl → Bool
  | .base _, _ => true
  | .iform _, x => !x.ru

/-- Whether the words of an instruction keep everything it carries. A field that the words cannot hold (a code above its width, a
count above its field) makes them those of another instruction. -/
def Instr.keeps (i : Instr) : Bool :=
  match i.word64, i.ctl? with
  | some w, some x => w.keepsRu x
  | _, _ => true

/-- Well-formed: an instruction of the program whose words are legal and hold all of it; the illegal instruction with OP 0x00 and,
where a word stands in front, one marked 0xF0; the fused sequence with vM other than vX (R253). Every step of another agent is well formed
as it stands: what numbers it may carry is for its meaning to judge. -/
def Instr.wf (i : Instr) : Bool :=
  match i with
  | .illegal pw w => w.extractLsb' 0 8 = 0 && (match pw with
      | some p => p.extractLsb' 0 8 = 0xF0
      | none => true)
  | .fusedSoftmax _ m v _ _ _ => m ≠ v
  | _ =>
    match encode i with
    | some x => (ill x).isNone && i.keeps
    | none => true

/-- Well-formed, as a proposition. -/
abbrev Instr.WellFormed (i : Instr) : Prop := i.wf = true

end Sys2Proof
end

