-- ==== Sys2Proof/Certificates/Slice0/Obligations.lean ====
section
/-! DEFINITION. The statements for the provers. -/

namespace Sys2Proof.Machine

/-! ### Lane-wise integer instructions (R209, R210) -/

/-- A lane-wise instruction of 32-bit operands: whether its results are long-latency, its destination, its operands by number, and its
result from SAT and the operands. -/
structure LaneRule where
  long : Bool
  d : Dst
  ops : List (Nat × Src)
  f : Bool → List W32 → W32

/-- Operand i of a rule's operands. -/
def arg (x : List W32) (i : Nat) : W32 := at_ 0 x i

/-- An exact integer as a 32-bit result: wrapped, or with SAT clamped to the signed range (R210). -/
def narrow (sat : Bool) (x : Int) : W32 :=
  if sat then (if x < -2 ^ 31 then 0x80000000 else if 2 ^ 31 ≤ x then 0x7FFFFFFF else BitVec.ofInt 32 x) else BitVec.ofInt 32 x

/-- The table of R210 on exact integers, for every lane-wise instruction that writes one word a lane. -/
def intRule (i : Instr) : Option LaneRule :=
  match i with
  | .iadd _ d a b => some ⟨false, d, [(1, a), (2, b)], fun t x => narrow t ((arg x 0).toInt + (arg x 1).toInt)⟩
  | .isub _ d a b => some ⟨false, d, [(1, a), (2, b)], fun t x => narrow t ((arg x 0).toInt - (arg x 1).toInt)⟩
  | .imul _ d a b => some ⟨false, d, [(1, a), (2, b)], fun _ x => narrow false ((arg x 0).toInt * (arg x 1).toInt)⟩
  | .imulh _ u d a b => some ⟨false, d, [(1, a), (2, b)], fun _ x =>
      if u then BitVec.ofNat 32 ((arg x 0).toNat * (arg x 1).toNat / 2 ^ 32) else BitVec.ofInt 32 ((arg x 0).toInt * (arg x 1).toInt / 2 ^ 32)⟩
  | .imad _ d a b c => some ⟨false, d, [(1, a), (2, b), (3, c)], fun t x =>
      narrow t ((arg x 0).toInt * (arg x 1).toInt + (arg x 2).toInt)⟩
  | .idiv _ u d a b => some ⟨true, d, [(1, a), (2, b)], fun _ x =>
      if arg x 1 = 0 then 0xFFFFFFFF
      else if u then BitVec.ofNat 32 ((arg x 0).toNat / (arg x 1).toNat) else narrow false ((arg x 0).toInt.tdiv (arg x 1).toInt)⟩
  | .irem _ u d a b => some ⟨true, d, [(1, a), (2, b)], fun _ x =>
      if arg x 1 = 0 then arg x 0
      else if u then BitVec.ofNat 32 ((arg x 0).toNat % (arg x 1).toNat) else narrow false ((arg x 0).toInt.tmod (arg x 1).toInt)⟩
  | .imin _ u d a b => some ⟨false, d, [(1, a), (2, b)], fun _ x =>
      if u then BitVec.ofNat 32 (min (arg x 0).toNat (arg x 1).toNat) else BitVec.ofInt 32 (min (arg x 0).toInt (arg x 1).toInt)⟩
  | .imax _ u d a b => some ⟨false, d, [(1, a), (2, b)], fun _ x =>
      if u then BitVec.ofNat 32 (max (arg x 0).toNat (arg x 1).toNat) else BitVec.ofInt 32 (max (arg x 0).toInt (arg x 1).toInt)⟩
  | .iabs _ d a => some ⟨false, d, [(1, a)], fun t x => narrow t ((arg x 0).toInt.natAbs : Int)⟩
  | .and _ d a b => some ⟨false, d, [(1, a), (2, b)], fun _ x => arg x 0 &&& arg x 1⟩
  | .or _ d a b => some ⟨false, d, [(1, a), (2, b)], fun _ x => arg x 0 ||| arg x 1⟩
  | .xor _ d a b => some ⟨false, d, [(1, a), (2, b)], fun _ x => arg x 0 ^^^ arg x 1⟩
  | .shl _ d a b => some ⟨false, d, [(1, a), (2, b)], fun _ x => BitVec.ofNat 32 ((arg x 0).toNat * 2 ^ ((arg x 1).toNat % 256))⟩
  | .shr _ d a b => some ⟨false, d, [(1, a), (2, b)], fun _ x => BitVec.ofNat 32 ((arg x 0).toNat / 2 ^ ((arg x 1).toNat % 256))⟩
  | .sra _ d a b => some ⟨false, d, [(1, a), (2, b)], fun _ x => BitVec.ofInt 32 ((arg x 0).toInt / 2 ^ ((arg x 1).toNat % 256))⟩
  | .popc _ d a => some ⟨false, d, [(1, a)], fun _ x => BitVec.ofNat 32 ((List.range 32).countP fun i => (arg x 0).getLsbD i)⟩
  | .clz _ d a => some ⟨false, d, [(1, a)], fun _ x => BitVec.ofNat 32 (if arg x 0 = 0 then 32 else 31 - Nat.log2 (arg x 0).toNat)⟩
  | .brev _ d a => some ⟨false, d, [(1, a)], fun _ x => (arg x 0).reverse⟩
  | .bfe _ d a b => some ⟨false, d, [(1, a), (2, b)], fun _ x =>
      BitVec.ofNat 32 ((arg x 0).toNat / 2 ^ ((arg x 1).toNat % 256) % 2 ^ ((arg x 1).toNat / 256 % 256))⟩
  | .bfi _ d a b c => some ⟨false, d, [(1, a), (2, b), (3, c)], fun _ x => bfiWord (arg x 0) (arg x 1) (arg x 2)⟩
  | .icmp _ cc tomask d a b =>
      if tomask then none else some ⟨false, d, [(1, a), (2, b)], fun _ x => if condI cc (arg x 0) (arg x 1) then 1 else 0⟩
  | .sel _ d a b c => some ⟨false, d, [(1, a), (2, b), (3, c)], fun _ x => if arg x 2 ≠ 0 then arg x 0 else arg x 1⟩
  | .mov _ d a => some ⟨false, d, [(1, a)], fun _ x => arg x 0⟩
  | .movi _ d imm => some ⟨false, ⟨false, d⟩, [], fun _ _ => imm⟩
  | .bsel _ d a b c => some ⟨false, d, [(1, a), (2, b), (3, c)], fun _ x => bselWord (arg x 0) (arg x 1) (arg x 2)⟩
  | .ishf _ d a b c => some ⟨false, d, [(1, a), (2, b), (3, c)], fun _ x =>
      BitVec.ofNat 32 (((arg x 1).toNat * 2 ^ 32 + (arg x 0).toNat) / 2 ^ ((arg x 2).toNat % 64))⟩
  | _ => none

/-- What the operands of a rule touch. -/
def LaneRule.needs (r : LaneRule) : List Need := dstNeed 1 r.d ++ r.ops.flatMap fun o => srcNeed o.1 1 o.2

end Sys2Proof.Machine

section

open Sys2Proof.Machine Sys2Proof

/-- R209, R210: a lane-wise integer instruction writes each active lane's result, poison from poison, and zero to the lanes that a zeroing
mask clears; then the split goes on at the next instruction. -/
def Obligations.IntegerLaneResults : Prop :=
  ∀ (i : Instr) (r : LaneRule) (s e' : State), intRule i = some r → s.Issues →
    let c := s.seen i
    let e := s.entering i
    let vals := r.ops.map fun o => c.vec e c.act o.2 .i32
    let ws := c.laneWrites r.d 1 ((lanesOf c.act).map fun l => (l, [laneResult (r.f c.sat) vals l]))
    c.Usable c.act r.needs (r.ops.map fun o => (o.2, OpFmt.i32)) → c.Trails e ws e' →
    exec i s = .next (c.done (c.commit e' r.long (namesOf ws) ws))

end

namespace Sys2Proof.Machine

/-! ### Pairs, masks, index registers and uniforms (R210 to R216) -/

/-- A 64-bit lane result as the two words of a pair (R43). -/
def pairWords (x : W64) (poison : Bool) : List LaneWord :=
  if poison then [{ data := 0, poison := true }, { data := 0, poison := true }]
  else [{ data := x.setWidth 32 }, { data := x.extractLsb' 32 32 }]

/-- An instruction that writes a pair of registers: destination, what its operands touch, mapped operands, and each lane's result. -/
structure PairRule where
  d : Dst
  needs : List Need
  maps : List (Src × OpFmt)
  res : Ctx → State → Nat → W64 × Bool

/-- `lea`, `iadd64` and `imul64` on exact integers (R210). -/
def pairRule (i : Instr) : Option PairRule :=
  match i with
  | .lea _ d a b e => some
      { d := d, needs := dstNeed 2 d ++ srcNeed 1 2 a ++ srcNeed 2 1 b ++ srcNeed 3 1 e, maps := [(b, .i32), (e, .i32)]
        res := fun c s l =>
          let x := at_ {} (c.wvec s c.act a) l
          let y := at_ {} (c.vec s c.act b .i32) l
          let z := at_ {} (c.vec s c.act e .i32) l
          (BitVec.ofInt 64 (x.data.toInt + y.data.toInt * 2 ^ (z.data.toNat % 8)), x.poison || y.poison || z.poison) }
  | .iadd64 _ d a b => some
      { d := d, needs := dstNeed 2 d ++ srcNeed 1 2 a ++ srcNeed 2 2 b, maps := []
        res := fun c s l =>
          let x := at_ {} (c.wvec s c.act a) l
          let y := at_ {} (c.wvec s c.act b) l
          (BitVec.ofNat 64 (x.data.toNat + y.data.toNat), x.poison || y.poison) }
  | .imul64 _ d a b => some
      { d := d, needs := dstNeed 2 d ++ srcNeed 1 1 a ++ srcNeed 2 1 b, maps := [(a, .i32), (b, .i32)]
        res := fun c s l =>
          let x := at_ {} (c.vec s c.act a .i32) l
          let y := at_ {} (c.vec s c.act b .i32) l
          (BitVec.ofInt 64 (x.data.toInt * y.data.toInt), x.poison || y.poison) }
  | _ => none

/-- A compare that writes a mask: destination, operands in a format, the condition of two words, and the flags; the last says whether the
instruction records flags and is long-latency. -/
structure MaskRule where
  d : Dst
  a : Src
  b : Src
  fm : OpFmt
  holds : Ctx → W32 → W32 → Bool
  flags : Ctx → W32 → W32 → FFlags
  float : Bool

/-- The compares with F[4] = 1 (R211, R234, R236). -/
def maskRule (i : Instr) : Option MaskRule :=
  match i with
  | .icmp _ cc tomask d a b => if tomask then some ⟨d, a, b, .i32, fun _ x y => condI cc x y, fun _ _ _ => 0, false⟩ else none
  | .fcmp _ cc tomask d a b => if tomask then some
      ⟨d, a, b, .flt .f32, fun c x y => (condF .f32 c.cplv cc x.toNat y.toNat).1, fun c x y => (condF .f32 c.cplv cc x.toNat y.toNat).2, true⟩
      else none
  | .hcmp2 _ cc tomask d a b => if tomask then some
      ⟨d, a, b, .pair .f16,
        fun c x y => (condF .f16 c.cplv cc (x.toNat % 65536) (y.toNat % 65536)).1 && (condF .f16 c.cplv cc (x.toNat / 65536) (y.toNat / 65536)).1,
        fun c x y => (condF .f16 c.cplv cc (x.toNat % 65536) (y.toNat % 65536)).2 ||| (condF .f16 c.cplv cc (x.toNat / 65536) (y.toNat / 65536)).2,
        true⟩
      else none
  | _ => none

/-- What a compare that writes a mask touches. -/
def MaskRule.needs (r : MaskRule) : List Need := .m r.d.n.toNat :: (srcNeed 1 1 r.a ++ srcNeed 2 1 r.b)

/-- Whether an active lane of two operands is poisoned. -/
def Ctx.anyPoison (c : Ctx) (x y : List LaneWord) : Bool := (lanesOf c.act).any fun l => (at_ {} x l).poison || (at_ {} y l).poison

/-- A mask's bits: the condition in each active lane, 0 in the lanes that a zeroing mask clears (R211). -/
def MaskRule.bits (r : MaskRule) (c : Ctx) (x y : List LaneWord) : List RegWrite :=
  ((lanesOf c.act).map fun l => .mbit r.d.n.toNat l (r.holds c (at_ {} x l).data (at_ {} y l).data)) ++
  (lanesOf c.zero).map fun l => .mbit r.d.n.toNat l false

/-- An operand of a uniform instruction (R212): value and poison. -/
def Ctx.uniform (c : Ctx) (x : Src) : W64 × Bool :=
  match x with
  | .k n => ((at_ {} c.w.uni n.toNat).data, (at_ {} c.w.uni n.toNat).poison)
  | .imm i => (i.signExtend 64, false)
  | .v _ | .ix _ | .map _ _ => (0, false)

/-- The arithmetic of R213 modulo 2^64: destination, operands and result. -/
def uniformRule (i : Instr) : Option (BitVec 8 × Src × Src × (W64 → W64 → W64)) :=
  match i with
  | .kadd _ d a b => some (d, a, b, fun x y => BitVec.ofNat 64 (x.toNat + y.toNat))
  | .ksub _ d a b => some (d, a, b, fun x y => BitVec.ofInt 64 ((x.toNat : Int) - y.toNat))
  | .kmul _ d a b => some (d, a, b, fun x y => BitVec.ofNat 64 (x.toNat * y.toNat))
  | .kand _ d a b => some (d, a, b, fun x y => x &&& y)
  | .kor _ d a b => some (d, a, b, fun x y => x ||| y)
  | .kxor _ d a b => some (d, a, b, fun x y => x ^^^ y)
  | .kshl _ d a b => some (d, a, b, fun x y => if y.toNat % 256 < 64 then BitVec.ofNat 64 (x.toNat * 2 ^ (y.toNat % 256)) else 0)
  | .kshr _ d a b => some (d, a, b, fun x y => if y.toNat % 256 < 64 then BitVec.ofNat 64 (x.toNat / 2 ^ (y.toNat % 256)) else 0)
  | .kcmp _ cc d a b => some (d, a, b, fun x y => if condI cc x y then 1 else 0)
  | _ => none

/-- A uniform result: a poisoned one has zero data (R212). -/
def uniformWord (x : W64) (poison : Bool) : KReg := if poison then { data := 0, poison := true } else { data := x }

/-- The special registers that the machine's own fields hold, as R215 lists them for a split. -/
def specialRule (s : State) (c : Ctx) (n : Nat) : Option W64 :=
  let w := s.warp c.core c.slot
  let g := s.group c.core w.room
  match n with
  | 0x01 => some (BitVec.ofNat 64 w.num)
  | 0x02 => some (BitVec.ofNat 64 g.groupid)
  | 0x05 => some (BitVec.ofNat 64 c.core)
  | 0x0A => some (s.core c.core).clock
  | 0x0B => some (BitVec.ofNat 64 s.gtime)
  | 0x0C => some g.wtimer
  | 0x0D => some w.wtcmp
  | 0x0E => some (w.wflags.setWidth 64)
  | 0x0F => some g.depcnt
  | 0x10 => some (BitVec.ofNat 64 g.hdr.cplv)
  | 0x11 => some (BitVec.ofNat 64 g.relaunch)
  | 0x12 => some (BitVec.ofNat 64 g.hdr.trailbase)
  | 0x13 => some (BitVec.ofNat 64 g.hdr.trailtop)
  | 0x14 => some w.satchel
  | 0x20 => some w.trap.cause
  | 0x21 => some w.trap.pc
  | 0x22 => some w.trap.op
  | 0x23 => some w.trap.d
  | 0x24 => some w.trap.a
  | 0x25 => some w.trap.b
  | 0x26 => some w.trap.c
  | 0x27 => some w.trap.e
  | 0x28 => some w.trap.imm
  | _ => none

/-- The special registers read lane by lane (R215): sr.laneid, sr.ix and sr.nest. -/
def laneSpecialRule (s : State) (c : Ctx) (n l : Nat) : Option W32 :=
  let w := s.warp c.core c.slot
  match n with
  | 0x00 => some (BitVec.ofNat 32 l)
  | 0x08 => some (at_ 0 w.ix l)
  | 0x09 => some (BitVec.ofNat 32 (at_ 0 w.nest l))
  | _ => none

end Sys2Proof.Machine

section

open Sys2Proof.Machine Sys2Proof

/-- R209, R210: `lea`, `iadd64` and `imul64` write each active lane's 64-bit result into a pair, poison from poison. -/
def Sys2Proof.Machine.PairResults : Prop :=
  ∀ (i : Instr) (r : PairRule) (s e' : State), pairRule i = some r → s.Issues →
    let c := s.seen i
    let e := s.entering i
    let ws := c.laneWrites r.d 2 ((lanesOf c.act).map fun l => (l, pairWords (r.res c e l).1 (r.res c e l).2))
    c.Usable c.act r.needs r.maps → c.Trails e ws e' →
    exec i s = .next (c.done (c.commit e' false (namesOf ws) ws))

/-- R211: a compare with F[4] = 1 writes bit L of its mask for every active lane, keeps or clears the bits of inactive lanes, records flags
if it is a floating-point one, and on a poisoned operand of an active lane writes nothing and is uncorrectable consumption. -/
def Sys2Proof.Machine.MaskCompareResults : Prop :=
  ∀ (i : Instr) (r : MaskRule) (s : State), maskRule i = some r → s.Issues →
    let c := s.seen i
    let e := s.entering i
    let x := c.vec e c.act r.a r.fm
    let y := c.vec e c.act r.b r.fm
    let fl := (lanesOf c.act).foldl (fun (acc : FFlags) l => acc ||| r.flags c (at_ {} x l).data (at_ {} y l).data) 0
    let extra := if r.float then flagWrites fl else ([], [])
    c.Usable c.act r.needs [(r.a, r.fm), (r.b, r.fm)] →
    (c.anyPoison x y = false →
      exec i s = .next (c.done (c.commit e r.float (.m r.d.n.toNat :: extra.1) (r.bits c x y ++ extra.2)))) ∧
    (c.anyPoison x y = true → exec i s = .next ((e.killGang c.core c.room).issued c))

/-- R210, R211, R215: `setix` and `wrsr sr.ix` write the index register of each active lane at once, and a poisoned operand of `setix` is
uncorrectable consumption; `wrsr` of sr.wtcmp replaces it, and of sr.wflags keeps its defined bits. -/
def Sys2Proof.Machine.IndexAndSpecialWrites : Prop :=
  ∀ (s : State) (x : Ctl) (a : Src), s.Issues →
    (let c := s.seen (.setix x a)
     let e := s.entering (.setix x a)
     let v := c.vec e c.act a .i32
     c.Usable c.act (srcNeed 1 1 a) [(a, .i32)] → c.anyPoison v v = false →
     exec (.setix x a) s = .next (c.done (e.writeRegs c.core c.slot ((lanesOf c.act).map fun l => .ix l (at_ {} v l).data)))) ∧
    (let c := s.seen (.setix x a)
     let e := s.entering (.setix x a)
     let v := c.vec e c.act a .i32
     c.Usable c.act (srcNeed 1 1 a) [(a, .i32)] → c.anyPoison v v = true →
     exec (.setix x a) s = .next ((e.killGang c.core c.room).issued c)) ∧
    (let c := s.seen (.wrsr x 0x08 a)
     let e := s.entering (.wrsr x 0x08 a)
     let v := c.vec e c.x.mask a .i32
     c.Usable c.x.mask (srcNeed 1 1 a) → ((lanesOf c.x.mask).any fun l => (at_ {} v l).poison) = false →
     exec (.wrsr x 0x08 a) s = .next (c.done (e.writeRegs c.core c.slot ((lanesOf c.x.mask).map fun l => .ix l (at_ {} v l).data)))) ∧
    (let c := s.seen (.wrsr x 0x0D a)
     let e := s.entering (.wrsr x 0x0D a)
     c.Usable c.x.mask (srcNeed 1 1 a) → (c.uniform a).2 = false →
     exec (.wrsr x 0x0D a) s = .next (c.done (e.modWarp c.core c.slot fun w => { w with wtcmp := (c.uniform a).1 }))) ∧
    (let c := s.seen (.wrsr x 0x0E a)
     let e := s.entering (.wrsr x 0x0E a)
     c.Usable c.x.mask (srcNeed 1 1 a ++ [.wflags]) → (c.uniform a).2 = false →
     ∃ f : W32, exec (.wrsr x 0x0E a) s = .next (c.done (e.modWarp c.core c.slot fun w => { w with wflags := f })) ∧
       f.extractLsb' 0 6 = (c.uniform a).1.extractLsb' 0 6 ∧ f.extractLsb' 6 2 = 0 ∧ f.extractLsb' 11 21 = 0 ∧
       f.extractLsb' 8 3 = (let drm := (c.uniform a).1.extractLsb' 8 3; if drm = 0 ∨ drm = 7 then 1 else drm))

/-- Compares that write a mask, setix and wrsr: what they write, and that a poisoned operand is uncorrectable consumption -/
def Obligations.MaskAndIndexWrites : Prop := MaskCompareResults ∧ IndexAndSpecialWrites

/-- R212, R213: a uniform instruction writes its result modulo 2^64 into kD, poison from poison. -/
def Sys2Proof.Machine.UniformResults : Prop :=
  (∀ (i : Instr) (d : BitVec 8) (a b : Src) (f : W64 → W64 → W64) (s : State), uniformRule i = some (d, a, b, f) → s.Issues →
    let c := s.seen i
    let e := s.entering i
    c.Usable c.x.mask (.k 0 d.toNat :: (srcNeed 1 1 a ++ srcNeed 2 1 b)) →
    exec i s = .next (c.done (e.writeRegs c.core c.slot
      [.k d.toNat (uniformWord (f (c.uniform a).1 (c.uniform b).1) ((c.uniform a).2 || (c.uniform b).2))]))) ∧
  (∀ (x : Ctl) (d : BitVec 8) (imm : W32) (s : State), s.Issues →
    let c := s.seen (.kmovi x d imm)
    c.Usable c.x.mask [.k 0 d.toNat] →
    exec (.kmovi x d imm) s = .next (c.done ((s.entering (.kmovi x d imm)).writeRegs c.core c.slot
      [.k d.toNat { data := BitVec.ofInt 64 imm.toInt }])))

/-- R213: `kmov`, `mmov` and `vtok` move a uniform, a mask or one lane of a vector register. -/
def Sys2Proof.Machine.UniformMoves : Prop :=
  ∀ (x : Ctl) (d : BitVec 8) (s : State), s.Issues →
    (∀ n : BitVec 8,
      let c := s.seen (.kmov x d (.v n))
      c.Usable c.x.mask [.k 0 d.toNat, .m n.toNat] →
      exec (.kmov x d (.v n)) s = .next (c.done ((s.entering (.kmov x d (.v n))).writeRegs c.core c.slot
        [.k d.toNat { data := (at_ 0 c.w.masks n.toNat).setWidth 64 }]))) ∧
    (∀ a : Src, (∀ n, a ≠ .v n) →
      let c := s.seen (.kmov x d a)
      c.Usable c.x.mask (.k 0 d.toNat :: srcNeed 1 1 a) →
      exec (.kmov x d a) s = .next (c.done ((s.entering (.kmov x d a)).writeRegs c.core c.slot
        [.k d.toNat (uniformWord (c.uniform a).1 (c.uniform a).2)]))) ∧
    (∀ n : BitVec 8,
      let c := s.seen (.mmov x d (.v n))
      c.Usable c.x.mask [.m d.toNat, .m n.toNat] →
      exec (.mmov x d (.v n)) s = .next (c.done ((s.entering (.mmov x d (.v n))).writeRegs c.core c.slot
        [.m d.toNat (at_ 0 c.w.masks n.toNat)]))) ∧
    (∀ a : Src, (∀ n, a ≠ .v n) →
      let c := s.seen (.mmov x d a)
      let e := s.entering (.mmov x d a)
      c.Usable c.x.mask (.m d.toNat :: srcNeed 1 1 a) →
      exec (.mmov x d a) s = .next (if (c.uniform a).2 then (e.killGang c.core c.room).issued c
        else c.done (e.writeRegs c.core c.slot [.m d.toNat ((c.uniform a).1.setWidth 32)]))) ∧
    (∀ n (b : Src),
      let i := Instr.vtok x d (.v n) b
      let c := s.seen i
      let e := s.entering i
      let j := (c.uniform b).1.toNat % 32
      c.Usable c.x.mask (.k 0 d.toNat :: srcNeed 2 1 b) → c.Usable (bitOf j) (.k 0 d.toNat :: .v 1 n.toNat false 1 :: srcNeed 2 1 b) →
      exec i s = .next (c.done (e.writeRegs c.core c.slot
        [.k d.toNat (uniformWord ((c.vlane e n.toNat j).data.setWidth 64) ((c.vlane e n.toNat j).poison || (c.uniform b).2))])))

/-- R215: `rdsr` writes a special register into kD, or lane by lane into vD. -/
def Sys2Proof.Machine.SpecialRegisterReads : Prop :=
  ∀ (x : Ctl) (d : Dst) (n : BitVec 8) (s : State), s.Issues →
    let i := Instr.rdsr x d n
    let c := s.seen i
    let e := s.entering i
    (∀ v, specialRule e c n.toNat = some v → c.Usable c.x.mask (.k 0 d.n.toNat :: if n = 0x0E then [.wflags] else []) →
      exec i s = .next (c.done (e.writeRegs c.core c.slot [.k d.n.toNat { data := v }]))) ∧
    (∀ (f : Nat → W32) e', (∀ l, laneSpecialRule e c n.toNat l = some (f l)) →
      let ws := c.laneWrites d 1 ((lanesOf c.x.mask).map fun l => (l, [{ data := f l }]))
      c.Usable c.x.mask (dstNeed 1 d) → c.Trails e ws e' → exec i s = .next (c.done (e'.writeRegs c.core c.slot ws)))

/-- Pair results, uniform arithmetic, uniform moves and reads of special registers -/
def Obligations.PairAndUniformResults : Prop := PairResults ∧ UniformResults ∧ UniformMoves ∧ SpecialRegisterReads

end

namespace Sys2Proof.Machine

/-! ### Floating point, conversions, special functions, activation tables (R228 to R246) -/

/-- A lane-wise floating-point instruction: destination, operands by number and format, its result and flags on encodings, and whether it
records its flags. -/
structure FloatRule where
  d : Dst
  ops : List (Nat × Src × OpFmt)
  f : Ctx → List Nat → Nat × FFlags
  records : Bool

/-- The table of R232 to R240, on the operations of the formats chapter. -/
def floatRule (i : Instr) : Option FloatRule :=
  match i with
  | .fadd _ d a b => some ⟨d, ops2 (.flt .f32) a b, fun c x => addF .f32 c.cplv c.rm c.sat (opd x 0) (opd x 1), true⟩
  | .fsub _ d a b => some ⟨d, ops2 (.flt .f32) a b, fun c x => subF .f32 c.cplv c.rm c.sat (opd x 0) (opd x 1), true⟩
  | .fmul _ d a b => some ⟨d, ops2 (.flt .f32) a b, fun c x => mulF .f32 c.cplv c.rm c.sat (opd x 0) (opd x 1), true⟩
  | .ffma _ d a b e => some ⟨d, ops3 (.flt .f32) a b e, fun c x => fmaF .f32 c.cplv c.rm c.sat (opd x 0) (opd x 1) (opd x 2), true⟩
  | .fdiv _ d a b => some ⟨d, ops2 (.flt .f32) a b, fun c x => divF c.cplv c.rm c.sat (opd x 0) (opd x 1), true⟩
  | .fmin _ d a b => some ⟨d, ops2 (.flt .f32) a b, fun c x => minmaxF .f32 c.cplv false (opd x 0) (opd x 1), true⟩
  | .fmax _ d a b => some ⟨d, ops2 (.flt .f32) a b, fun c x => minmaxF .f32 c.cplv true (opd x 0) (opd x 1), true⟩
  | .fcmp _ cc tomask d a b => if tomask then none else some ⟨d, ops2 (.flt .f32) a b, fun c x =>
      let r := condF .f32 c.cplv cc (opd x 0) (opd x 1)
      (if r.1 then 1 else 0, r.2), true⟩
  | .fclass _ d a => some ⟨d, [(1, a, .flt .f32)], fun _ x => (classF (opd x 0), 0), false⟩
  | .fscale _ d a b => some ⟨d, [(1, a, .flt .f32), (2, b, .i32)], fun c x => scaleF c.cplv c.rm c.sat (opd x 0) (signed 32 (opd x 1)), true⟩
  | .frnd _ d a => some ⟨d, [(1, a, .flt .f32)], fun c x => frndF c.cplv c.rm (opd x 0), true⟩
  | .fdot2 _ d a b e => some ⟨d, [(1, a, .pair .f16), (2, b, .pair .f16), (3, e, .flt .f32)],
      fun c x => dot2F c.cplv c.rm c.sat (opd x 0) (opd x 1) (opd x 2), true⟩
  | .fabs _ neg d a => some ⟨d, [(1, a, .bits)], fun c x => (absF c.cplv neg (opd x 0), 0), false⟩
  | .hadd2 _ d a b => some ⟨d, ops2 (.pair .f16) a b, fun c => pack2 fun x => addF .f16 c.cplv c.rm c.sat (opd x 0) (opd x 1), true⟩
  | .hmul2 _ d a b => some ⟨d, ops2 (.pair .f16) a b, fun c => pack2 fun x => mulF .f16 c.cplv c.rm c.sat (opd x 0) (opd x 1), true⟩
  | .hfma2 _ d a b e => some ⟨d, ops3 (.pair .f16) a b e,
      fun c => pack2 fun x => fmaF .f16 c.cplv c.rm c.sat (opd x 0) (opd x 1) (opd x 2), true⟩
  | .hmnx2 _ mx d a b => some ⟨d, ops2 (.pair .f16) a b,
      fun c => pack2 fun x => flushOut .f16 c.cplv (minmaxF .f16 c.cplv mx (opd x 0) (opd x 1)), true⟩
  | .hcmp2 _ cc tomask d a b => if tomask then none else some ⟨d, ops2 (.pair .f16) a b, fun c x =>
      let lo := condF .f16 c.cplv cc (opd x 0 % 65536) (opd x 1 % 65536)
      let hi := condF .f16 c.cplv cc (opd x 0 / 65536) (opd x 1 / 65536)
      ((if hi.1 then 0xFFFF0000 else 0) + (if lo.1 then 0xFFFF else 0), lo.2 ||| hi.2), true⟩
  | .badd2 _ d a b => some ⟨d, ops2 (.pair .bf16) a b, fun c => pack2 fun x => addF .bf16 c.cplv c.rm c.sat (opd x 0) (opd x 1), true⟩
  | .bmul2 _ d a b => some ⟨d, ops2 (.pair .bf16) a b, fun c => pack2 fun x => mulF .bf16 c.cplv c.rm c.sat (opd x 0) (opd x 1), true⟩
  | .bfma2 _ d a b e => some ⟨d, ops3 (.pair .bf16) a b e,
      fun c => pack2 fun x => fmaF .bf16 c.cplv c.rm c.sat (opd x 0) (opd x 1) (opd x 2), true⟩
  | .cvt _ dst src d a => some ⟨d, [(1, a, .flt src)], fun c x => cvtFF dst src c.cplv c.rm c.sat (opd x 0), true⟩
  | .cvtp x dst src d a b e => some
      ⟨d, ops2 (wordFmt src) a b ++ (if (FFmt.spec src).bits = 4 * (FFmt.spec dst).bits then
          [(3, e, wordFmt src), (4, ((x.pfx.map (·.e)).getD e), wordFmt src)] else []),
        fun c x => cvtpWords dst src c.cplv c.rm c.sat x, true⟩
  | .cvti _ dst src d a => some ⟨d, [(1, a, .flt src)], fun c x => cvtFI dst src c.cplv c.rm (opd x 0), true⟩
  | .cvtf _ dst src d a => some ⟨d, [(1, a, srcFmt src)], fun c x => cvtIF dst src c.cplv c.rm c.sat (opd x 0), true⟩
  | .fexp _ d a => some ⟨d, [(1, a, .flt .f32)], fun c x => specialF .exp c.rm c.sat (opd x 0), true⟩
  | .fexp2 _ d a => some ⟨d, [(1, a, .flt .f32)], fun c x => specialF .exp2 c.rm c.sat (opd x 0), true⟩
  | .flog2 _ d a => some ⟨d, [(1, a, .flt .f32)], fun c x => specialF .log2 c.rm c.sat (opd x 0), true⟩
  | .frcp _ d a => some ⟨d, [(1, a, .flt .f32)], fun c x => specialF .rcp c.rm c.sat (opd x 0), true⟩
  | .frsq _ d a => some ⟨d, [(1, a, .flt .f32)], fun c x => specialF .rsq c.rm c.sat (opd x 0), true⟩
  | .fsqrt _ d a => some ⟨d, [(1, a, .flt .f32)], fun c x => specialF .sqrt c.rm c.sat (opd x 0), true⟩
  | .fsin _ d a => some ⟨d, [(1, a, .flt .f32)], fun c x => specialF .sin c.rm c.sat (opd x 0), true⟩
  | .fcos _ d a => some ⟨d, [(1, a, .flt .f32)], fun c x => specialF .cos c.rm c.sat (opd x 0), true⟩
  | .ftanh _ d a => some ⟨d, [(1, a, .flt .f32)], fun c x => specialF .tanh c.rm c.sat (opd x 0), true⟩
  | .fsig _ d a => some ⟨d, [(1, a, .flt .f32)], fun c x => specialF .sig c.rm c.sat (opd x 0), true⟩
  | _ => none

/-- The encoding of FP32 1.0. -/
def one32 : Nat := 0x3F800000
/-- The encoding of FP32 infinity of a sign. -/
def inf32 (neg : Bool) : Nat := if neg then 0xFF800000 else 0x7F800000
/-- The encoding of an FP32 zero of a sign. -/
def zero32 (neg : Bool) : Nat := if neg then 0x80000000 else 0

end Sys2Proof.Machine

section

open Sys2Proof.Machine Sys2Proof

/-- R229 to R240: a lane-wise floating-point instruction gives each active lane the operation of its operands' encodings, poison from
poison without a flag, and records the flags of the lanes together (R230); its results are long-latency (R189). -/
def Obligations.FloatLaneResults : Prop :=
  ∀ (i : Instr) (r : FloatRule) (s e' : State), floatRule i = some r → s.Issues →
    let c := s.seen i
    let e := s.entering i
    let vals := r.ops.map fun o => c.vec e c.act o.2.1 o.2.2
    let ws := c.laneWrites r.d 1 ((lanesOf c.act).map fun l =>
      (l, [laneResult (fun x => BitVec.ofNat 32 (r.f c (x.map (·.toNat))).1) vals l]))
    let extra := if r.records then flagWrites (laneFlags (fun x => (r.f c (x.map (·.toNat))).2) vals (lanesOf c.act)) else ([], [])
    c.Usable c.act (dstNeed 1 r.d ++ r.ops.flatMap fun o => srcNeed o.1 1 o.2.1) (r.ops.map (·.2)) → c.Trails e ws e' →
    exec i s = .next (c.done (c.commit e' true (namesOf ws ++ extra.1) (ws ++ extra.2)))

/-- R68, R69: rounding the exact value of a finite encoding into its own format gives the encoding back in every mode, saturating or not,
and raises no flag. -/
def Obligations.RoundingKeepsEncodings : Prop :=
  ∀ (f : FFmt) (rm : RM) (sat : Bool) (x : Nat), x < 2 ^ (FFmt.spec f).bits → isNaN f x = false → (decodeF f x).isInf = false →
    roundX f rm sat (decodeF f x) = (x, flNone)

/-- R70, R85, R233: a NaN operand of `fadd` decides the result: the first NaN made quiet, the default NaN at level 1, NV for a signalling
one; the sum of opposite infinities is an invalid operation. -/
def Sys2Proof.Machine.FaddSpecialOperands : Prop :=
  ∀ (cplv : Nat) (rm : RM) (sat : Bool) (a b : Nat), a < 2 ^ 32 → b < 2 ^ 32 →
    (isNaN .f32 a = true → addF .f32 cplv rm sat a b =
      (if cplv = 1 then 0x7FC00000 else if isSNaN .f32 a then a + 0x400000 else a,
       if isSNaN .f32 a ∨ isSNaN .f32 b then flNV else flNone)) ∧
    (isNaN .f32 a = false → isNaN .f32 b = true → addF .f32 cplv rm sat a b =
      (if cplv = 1 then 0x7FC00000 else if isSNaN .f32 b then b + 0x400000 else b, if isSNaN .f32 b then flNV else flNone)) ∧
    (∀ s, addF .f32 cplv rm sat (inf32 s) (inf32 (!s)) = (0x7FC00000, flNV))

/-- R240: the special functions of the special values. -/
def Sys2Proof.Machine.SpecialFunctionCorners : Prop :=
  ∀ (rm : RM) (neg : Bool),
    specialF .exp rm false (zero32 neg) = (one32, flNone) ∧ specialF .exp2 rm false (zero32 neg) = (one32, flNone) ∧
    specialF .cos rm false (zero32 neg) = (one32, flNone) ∧ specialF .sin rm false (zero32 neg) = (zero32 neg, flNone) ∧
    specialF .tanh rm false (zero32 neg) = (zero32 neg, flNone) ∧ specialF .sqrt rm false (zero32 neg) = (zero32 neg, flNone) ∧
    specialF .log2 rm false (zero32 neg) = (inf32 true, flDZ) ∧ specialF .rcp rm false (zero32 neg) = (inf32 neg, flDZ) ∧
    specialF .rcp rm false (inf32 neg) = (zero32 neg, flNone) ∧ specialF .sin rm false (inf32 neg) = (0x7FC00000, flNV) ∧
    specialF .exp rm false (inf32 true) = (0, flNone) ∧ specialF .exp rm false (inf32 false) = (inf32 false, flNone) ∧
    specialF .rsq rm false (inf32 false) = (0, flNone) ∧ specialF .sqrt rm false (inf32 true) = (0x7FC00000, flNV) ∧
    specialF .sig rm false (inf32 true) = (0, flNone) ∧ specialF .sig rm false (inf32 false) = (one32, flNone) ∧
    specialF .log2 rm false one32 = (0, flNone) ∧ specialF .rcp rm false one32 = (one32, flNone)

/-- fadd of NaNs and opposite infinities, and the special functions of special values -/
def Obligations.FloatCorners : Prop := FaddSpecialOperands ∧ SpecialFunctionCorners

/-- A table after a load of an image: it goes into the bank that is not current, which becomes current, and the load is counted (R243). -/
def Sys2Proof.Machine.ActTable.flipped (t : ActTable) (b : ActBank) : ActTable :=
  if t.sel then { bank0 := b, bank1 := t.bank1, sel := false, count := t.count + 1, loaded := true }
  else { bank0 := t.bank0, bank1 := b, sel := true, count := t.count + 1, loaded := true }

/-- Table n as a split finds it: the room's, after the loads of the split that are not written yet (R89, R246). -/
def Sys2Proof.Machine.Ctx.found (c : Ctx) (e : State) (n : Nat) : ActTable :=
  (((e.warp c.core c.slot).pend.filter (·.split = c.sp)).flatMap (·.writes)).filterMap (fun w => match w with
    | .act k b _ => if k = n then some b else none
    | _ => none) |>.foldl ActTable.flipped (at_ {} (e.room c.core c.room).acts n)

/-- R241 to R246: `actld` takes the image at the address in kA; once its result is written, the image stands in the bank that was not current,
which is then current, the load is counted, and kD holds the count and the bank; `actev` evaluates in each active lane the bank that is
current for the split; `actinfo` reads the count and the bank. -/
def Obligations.ActivationTables : Prop :=
  (∀ (x : Ctl) (d a : BitVec 8) (n : BitVec 2) (ps : List Place) (s : State), s.Issues →
    let i := Instr.actld x d a n
    let c := s.seen i
    let e := s.entering i
    let k := at_ {} c.w.uni a.toNat
    c.Usable c.x.mask [.k 0 d.toNat, .k 1 a.toNat] → k.poison = false →
    c.range e .glob .read ((lowest c.x.mask).getD 0) k.data.toNat 1056 32 = .ok ps →
    ∀ e1, c.observe e none ps 32 (some k.data) = .ok e1 →
      let img := c.readRange e1 ps 32
      let b : ActBank := { bytes := img.1, poison := img.2 }
      b.bad = false → exec i s = .next (c.done (c.commit e1 true [.k d.toNat] [.act n.toNat b d.toNat]))) ∧
  (∀ (s : State) (c slot n d : Nat) (b : ActBank),
    let room := (s.warp c slot).room
    let t := at_ {} (s.room c room).acts n
    s.writeReg c slot (.act n b d) =
      (s.modRoom c room fun r => { r with acts := r.acts.set n (t.flipped b) }).modWarp c slot fun w => { w with
        uni := w.uni.set d { data := BitVec.ofNat 64 ((t.count + 1) % 2 ^ 32 * 2 ^ 32 + if t.sel then 0 else 1) } }) ∧
  (∀ (x : Ctl) (d : Dst) (a : Src) (n : BitVec 2) (s e' : State), s.Issues →
    let i := Instr.actev x d a n
    let c := s.seen i
    let e := s.entering i
    let t := c.found e n.toNat
    let b := if t.sel then t.bank1 else t.bank0
    let v := c.vec e c.act a (.flt .f32)
    let ws := c.laneWrites d 1 ((lanesOf c.act).map fun l =>
      (l, [if (at_ {} v l).poison || b.poison then { data := 0, poison := true }
           else { data := BitVec.ofNat 32 (b.eval c.rm c.sat (at_ {} v l).data.toNat).1 }]))
    let fl := (lanesOf c.act).foldl (fun (acc : FFlags) l => acc |||
      if (at_ {} v l).poison || b.poison then 0 else (b.eval c.rm c.sat (at_ {} v l).data.toNat).2) 0
    c.Usable c.act (dstNeed 1 d ++ srcNeed 1 1 a) [(a, .flt .f32)] → c.Trails e ws e' →
    exec i s = .next (c.done (c.commit e' true (namesOf ws ++ (flagWrites fl).1) (ws ++ (flagWrites fl).2)))) ∧
  (∀ (x : Ctl) (d : BitVec 8) (n : BitVec 2) (s : State), s.Issues →
    let i := Instr.actinfo x d n
    let c := s.seen i
    let e := s.entering i
    let t := c.found e n.toNat
    c.Usable c.x.mask [.k 0 d.toNat] →
    exec i s = .next (c.done (c.commit e true [.k d.toNat] [.k d.toNat
      { data := BitVec.ofNat 64 (t.count % 2 ^ 32 * 2 ^ 32 + (if t.loaded then 2 else 0) + if t.sel then 1 else 0) }])))

end

namespace Sys2Proof.Machine

/-! ### Cross-lane instructions (R247 to R254) -/

/-- A shuffle: mode, destination, the register shuffled, its second operand, what fills a lane whose source lies outside the warp, and whether
an unavailable lane gives zero. -/
structure ShuffleRule where
  m : ShMode
  d : Dst
  a : BitVec 8
  b : Src
  fill : Option Src
  zero : Bool

/-- The shuffles (R248). -/
def shuffleRule (i : Instr) : Option ShuffleRule :=
  match i with
  | .shfl _ m d a b e => some ⟨m, d, a, b, if m = .rel then some e else none, false⟩
  | .bcast _ d a b => some ⟨.lane, d, a, b, none, false⟩
  | .shflo _ m d a b => some ⟨m, d, a, b, none, true⟩
  | _ => none

/-- What a shuffle touches. -/
def ShuffleRule.needs (r : ShuffleRule) : List Need :=
  dstNeed 1 r.d ++ [.v 1 r.a.toNat false 1] ++ srcNeed 2 1 r.b ++ (r.fill.map (srcNeed 3 1)).getD []

/-- The lane that a lane reads, as a number that may lie outside 0 to 31 (R248). -/
def ShuffleRule.source (r : ShuffleRule) (l : Nat) (b : W32) : Int :=
  match r.m with
  | .lane => b.toNat % 32
  | .rel => l + b.toInt
  | .rot => (l + b.toInt) % 32
  | .bfly => Nat.xor l (b.toNat % 32)

/-- What a lane gets (R248): the source lane's word where that lane is in the split; its own word, or zero, where the source is not; the
fill where the source lies outside the warp; poison from a poisoned second operand. -/
def ShuffleRule.word (r : ShuffleRule) (c : Ctx) (e : State) (l : Nat) : LaneWord :=
  let b := at_ {} (c.vec e c.act r.b .i32) l
  let j := r.source l b.data
  let y : LaneWord :=
    if j < 0 ∨ 31 < j then (match r.fill with
      | some x => at_ {} (c.vec e c.act x .bits) l
      | none => {})
    else if lane c.x.mask j.toNat then c.vlane e r.a.toNat j.toNat
    else if r.zero then {} else c.vlane e r.a.toNat l
  if y.poison || b.poison then { data := 0, poison := true } else { data := y.data }

/-- `poll` on the active lanes and their words (R249). -/
def pollRule (op : PollOp) (ls : List Nat) (v : Nat → W32) : W32 :=
  let yes := ls.filter fun l => v l ≠ 0
  match op with
  | .set => maskOf fun l => yes.contains l
  | .cnt => BitVec.ofNat 32 yes.length
  | .first => BitVec.ofNat 32 (yes.headD 32)
  | .last => BitVec.ofNat 32 (yes.getLastD 32)
  | .all => if yes.length = ls.length then 1 else 0
  | .any => if yes = [] then 0 else 1
  | .same => if ls.all fun l => ls.all fun k => v l = v k then 1 else 0

/-- A reduction: destination, operand, format, operator with its identity, and whether it records flags (R250). -/
structure ReduceRule where
  d : Dst
  a : Src
  fm : OpFmt
  k : Combine
  flags : Bool

/-- The reductions (R250). -/
def reduceRule (c : Ctx) (i : Instr) : Option ReduceRule :=
  match i with
  | .raddf _ d a => some ⟨d, a, .flt .f32, c.combineF .add, true⟩
  | .rmaxf _ d a => some ⟨d, a, .flt .f32, c.combineF .max, true⟩
  | .rminf _ d a => some ⟨d, a, .flt .f32, c.combineF .min, true⟩
  | .rint _ op d a => some ⟨d, a, .i32, combineI op, false⟩
  | _ => none

/-- A scan: as a reduction, with the operand that marks segments, and whether it is exclusive (R251, R252). -/
structure ScanRule extends ReduceRule where
  heads : Option Src
  excl : Bool

/-- The scans (R251, R252). -/
def scanRule (c : Ctx) (i : Instr) : Option ScanRule :=
  match i with
  | .scanf _ op excl d a => some ⟨⟨d, a, .flt .f32, c.combineF op, true⟩, none, excl⟩
  | .scani _ op excl d a => some ⟨⟨d, a, .i32, combineI op, false⟩, none, excl⟩
  | .segf _ op d a b => some ⟨⟨d, a, .flt .f32, c.combineF op, true⟩, some b, false⟩
  | .segi _ op d a b => some ⟨⟨d, a, .i32, combineI op, false⟩, some b, false⟩
  | _ => none

/-- The operand that marks segments, as lanes read it: the active lanes' words. -/
def ScanRule.marks (r : ScanRule) (c : Ctx) (e : State) : List LaneWord :=
  match r.heads with
  | some b => lanes.map fun l => if lane c.act l then at_ {} (c.vec e c.act b .i32) l else {}
  | none => List.replicate 32 {}

/-- The scan of every lane (R251, R252): a lane whose head is poisoned is poison; lane 0 starts a segment. -/
def ScanRule.values (r : ScanRule) (c : Ctx) (e : State) : List Running2 :=
  treeScan r.k.op
    (((c.contrib (c.vec e c.act r.a r.fm) r.k.unit).zip (r.marks c e)).map fun p => if p.2.poison then ({ data := 0, poison := true }, p.1.2) else p.1)
    ((r.marks c e).zipIdx.map fun (p : LaneWord × Nat) => r.heads.isSome && (decide (p.2 = 0) || (!p.1.poison && decide (p.1.data ≠ 0))))

/-- What a scan writes into a lane: with an exclusive one the value of the lane below, and the identity into lane 0. -/
def ScanRule.word (r : ScanRule) (c : Ctx) (e : State) (l : Nat) : LaneWord :=
  if r.excl then (if l = 0 then { data := r.k.unit } else (at_ ({}, 0) (r.values c e) (l - 1)).1) else (at_ ({}, 0) (r.values c e) l).1

/-- What a scan touches and reads. -/
def ScanRule.needs (r : ScanRule) : List Need :=
  dstNeed 1 r.d ++ srcNeed 1 1 r.a ++ (match r.heads with
    | some b => srcNeed 2 1 b
    | none => []) ++ [.empty]
/-- The operands of a scan that a slot may feed. -/
def ScanRule.maps (r : ScanRule) : List (Src × OpFmt) :=
  (r.a, r.fm) :: (match r.heads with
    | some b => [(b, OpFmt.i32)]
    | none => [])

end Sys2Proof.Machine

section

open Sys2Proof.Machine Sys2Proof

/-- R247, R248: a shuffle gives each active lane the word of the lane it names; `shflo` also counts in sr.depcnt (R206). -/
def Sys2Proof.Machine.ShuffleResults : Prop :=
  ∀ (i : Instr) (r : ShuffleRule) (s e' : State), shuffleRule i = some r → s.Issues →
    let c := s.seen i
    let e := s.entering i
    let ws := c.laneWrites r.d 1 ((lanesOf c.act).map fun l => (l, [r.word c e l]))
    let t := c.commit e' true (namesOf ws) ws
    c.Usable c.act r.needs → c.Trails e ws e' →
    exec i s = .next (c.done (if r.zero then c.deprecated t else t))

/-- R206, R210: `imads` is `imad` with saturation and, like every deprecated instruction, adds one to sr.depcnt; the count that reaches the
launch's threshold raises its advisory once (R207), which leaves at once or follows the writes it waits for (R113). -/
def Obligations.DeprecatedInstructions : Prop :=
  (∀ (x : Ctl) (d : Dst) (a b k : Src) (s e' : State), s.Issues →
    let i := Instr.imads x d a b k
    let c := s.seen i
    let e := s.entering i
    let vals := [a, b, k].map fun o => c.vec e c.act o .i32
    let ws := c.laneWrites d 1 ((lanesOf c.act).map fun l =>
      (l, [laneResult (fun v => narrow true ((arg v 0).toInt * (arg v 1).toInt + (arg v 2).toInt)) vals l]))
    c.Usable c.act (dstNeed 1 d ++ (srcNeed 1 1 a ++ srcNeed 2 1 b ++ srcNeed 3 1 k)) [(a, .i32), (b, .i32), (k, .i32)] → c.Trails e ws e' →
    exec i s = .next (c.done (c.deprecated (e'.writeRegs c.core c.slot ws)))) ∧
  (∀ (c : Ctx) (s : State) (g : Group), (s.room c.core c.room).group = some g →
    ((c.deprecated s).group c.core c.room).depcnt = g.depcnt + 1 ∧
    (let l := s.launches.getD c.g.launch {}
     let told := fun (x : State) => x.out ++ x.irqs.map fun r => Out.msix r.fn r.vec
     told (c.deprecated s) = told s ++ if l.depThr ≠ 0 ∧ g.depcnt + 1 = l.depThr ∧ l.advised = false then [.msix l.fn l.depVec] else []))

/-- R247, R249: `poll` writes one word, computed from the active lanes, into every lane of the split, and E tells whether there was none; its
eighth operator is illegal with detail 4; `match` writes the set of active lanes with a lane's own word. -/
def Obligations.PollAndMatchResults : Prop :=
  (∀ (x : Ctl) (op : PollOp) (d : Dst) (a : Src) (s e' : State), s.Issues →
    let i := Instr.poll x op d a
    let c := s.seen i
    let e := s.entering i
    let v := c.vec e c.act a .i32
    let y : LaneWord := if (lanesOf c.act).any fun l => (at_ {} v l).poison then { data := 0, poison := true }
      else { data := pollRule op (lanesOf c.act) fun l => (at_ {} v l).data }
    let ws := c.laneWrites d 1 ((lanesOf c.x.mask).map fun l => (l, [y]))
    c.Usable c.x.mask (.empty :: dstNeed 1 d) → c.Usable c.act (srcNeed 1 1 a) [(a, .i32)] → c.Trails e ws e' →
    exec i s = .next (c.done (c.commit e' true (namesOf ws ++ [.empty]) (ws ++ [.empty (decide (c.act = 0))])))) ∧
  (∀ (x : Ctl) (d : Dst) (a : Src) (s e' : State), s.Issues →
    let i := Instr.matchLanes x d a
    let c := s.seen i
    let e := s.entering i
    let v := c.vec e c.act a .bits
    let ws := c.laneWrites d 1 ((lanesOf c.act).map fun l =>
      (l, [if (at_ {} v l).poison then { data := 0, poison := true }
           else { data := maskOf fun k => lane c.act k && !(at_ {} v k).poison && (at_ {} v k).data = (at_ {} v l).data }]))
    c.Usable c.act (dstNeed 1 d ++ srcNeed 1 1 a ++ [.empty]) → c.Trails e ws e' →
    exec i s = .next (c.done (c.commit e' true (namesOf ws ++ [.empty]) (ws ++ [.empty (decide (c.act = 0))])))) ∧
  (∀ (p : Option (BitVec 32)) (g : Base), g.op = 0x71 → g.f = 0 → ill { pw := p, w := g.pack } = none →
    ill { pw := p, w := { g with f := 7 }.pack } = some 4)

/-- R247, R250: a reduction writes the tree reduction of the active lanes, the identity standing for the others, into every lane of the
split, and E. -/
def Sys2Proof.Machine.ReductionResults : Prop :=
  ∀ (i : Instr) (r : ReduceRule) (s e' : State), s.Issues →
    let c := s.seen i
    let e := s.entering i
    reduceRule c i = some r →
    let y := treeReduce r.k.op (lanes.map fun l => (if lane c.act l then at_ {} (c.vec e c.act r.a r.fm) l else { data := r.k.unit }, 0))
    let ws := c.laneWrites r.d 1 ((lanesOf c.x.mask).map fun l => (l, [y.1]))
    let extra := if r.flags then flagWrites y.2 else ([], [])
    c.Usable c.x.mask (.empty :: dstNeed 1 r.d) → c.Usable c.act (srcNeed 1 1 r.a) [(r.a, r.fm)] → c.Trails e ws e' →
    exec i s = .next (c.done (c.commit e' true (namesOf ws ++ .empty :: extra.1) (ws ++ .empty (decide (c.act = 0)) :: extra.2)))

/-- R247, R251, R252: a scan writes each active lane's prefix, of its segment where heads are marked, and E. -/
def Sys2Proof.Machine.ScanResults : Prop :=
  ∀ (i : Instr) (r : ScanRule) (s e' : State), s.Issues →
    let c := s.seen i
    let e := s.entering i
    scanRule c i = some r →
    let ws := c.laneWrites r.d 1 ((lanesOf c.act).map fun l => (l, [r.word c e l]))
    let extra := if r.flags then flagWrites ((r.values c e).foldl (fun (acc : FFlags) y => acc ||| y.2) 0) else ([], [])
    c.Usable c.act r.needs r.maps → c.Trails e ws e' →
    exec i s = .next (c.done (c.commit e' true (namesOf ws ++ .empty :: extra.1) (ws ++ .empty (decide (c.act = 0)) :: extra.2)))

/-- Shuffles, reductions and scans -/
def Obligations.CrossLaneResults : Prop := ShuffleResults ∧ ReductionResults ∧ ScanResults

/-- R82, R250, R251: for the integer operators the tree is the fold of the active lanes in ascending order, and lane l of a scan the fold of
the active lanes up to l. -/
def Obligations.IntegerTreesAreFolds : Prop :=
  ∀ (op : IRed) (act : LaneMask) (v : Nat → W32),
    let k := combineI op
    let x : List Running2 := lanes.map fun l => (if lane act l then { data := v l } else { data := k.unit }, 0)
    let fold := fun (ls : List Nat) => ls.foldl (fun acc l => (k.op acc (v l)).1) k.unit
    (treeReduce k.op x).1 = { data := fold (lanesOf act) } ∧
    ∀ l < 32, (at_ ({}, 0) (treeScan k.op x (List.replicate 32 false)) l).1 = { data := fold ((lanesOf act).filter (· ≤ l)) }

/-- The four instructions of a fused sequence, run in order from a state, and the states after each (R253, R254). -/
structure Sys2Proof.Machine.Ctx.Fuses (c : Ctx) (s : State) (la : BitVec 4) (m v t e r : BitVec 8) (s1 s2 s3 s4 : State) : Prop where
  max : c.fusedPart s 0 (.rmaxf { la := 0, ru := false, pfx := none } { ix := false, n := m } (.v v)) false
    (fun c s => c.reduce s { ix := false, n := m } (.v v) (.flt .f32) (c.combineF .max) true) s = .ok s1
  sub : c.fusedPart s 1 (.fsub { la := 0, ru := false, pfx := none } { ix := false, n := t } (.v v) (.v m)) false
    (fun c s => c.fsub s { ix := false, n := t } (.v v) (.v m)) s1 = .ok s2
  exp : c.fusedPart s 2 (.fexp { la := 0, ru := false, pfx := none } { ix := false, n := e } (.v t)) false
    (fun c s => c.special1 s .exp { ix := false, n := e } (.v t)) s2 = .ok s3
  add : c.fusedPart s 3 (.raddf { la := la, ru := false, pfx := none } { ix := false, n := r } (.v e)) true
    (fun c s => c.reduce s { ix := false, n := r } (.v e) (.flt .f32) (c.combineF .add) true) s3 = .ok s4

/-- R253, R254: the fused sequence runs its four instructions in order, the results of each before the next, and the split stands behind
the fourth. None of the four stops it where its registers lie inside the allotment, no result pends and no search region trails. -/
def Obligations.FusedSequence : Prop :=
  (∀ (la : BitVec 4) (m v t e r : BitVec 8) (s s1 s2 s3 s4 : State), s.Issues →
    let i := Instr.fusedSoftmax la m v t e r
    (s.seen i).Fuses (s.entering i) la m v t e r s1 s2 s3 s4 → exec i s = .next ((s.seen i).jumped s4)) ∧
  (∀ (la : BitVec 4) (m v t e r : BitVec 8) (s : State), s.Issues →
    let i := Instr.fusedSoftmax la m v t e r
    (s.seen i).w.pend = [] → (s.seen i).w.regionOpen = false → (∀ n ∈ [m, v, t, e, r], n.toNat < (s.seen i).g.hdr.allot) →
    ∃ s1 s2 s3 s4, (s.seen i).Fuses (s.entering i) la m v t e r s1 s2 s3 s4 ∧ exec i s = .next ((s.seen i).jumped s4))

end

namespace Sys2Proof.Machine

/-! ### Memory instructions (R256 to R268) -/

/-- A per-lane load or store: space, size, data register, address, offset, and the scope of an acquire or a release. -/
structure MemRule where
  sp : Space
  z : Size
  d : Dst
  a : Src
  o : Off
  ord : Option Scope

/-- An I-format access (R258). -/
def plainRule (sp : Space) (z : Size) (d : BitVec 8) (ua : Bool) (a : BitVec 8) (off : W32) : Option MemRule :=
  some ⟨sp, z, ⟨false, d⟩, if ua then .k a else .v a, .imm off, none⟩

/-- The loads (R258, R259, R260). -/
def loadRule (i : Instr) : Option MemRule :=
  match i with
  | .ld _ d ua z a off => plainRule .glob z d ua a off
  | .ldl _ d ua z a off => plainRule .priv z d ua a off
  | .lds _ d ua z a off => plainRule .scratch z d ua a off
  | .ldw _ d ua z a off => plainRule .window z d ua a off
  | .ldt _ d ua z a off => plainRule .acc z d ua a off
  | .ldx _ d ua z a off => plainRule .onchip z d ua a off
  | .orderedLoad _ g d a b => some ⟨g.space, g.size, d, a, .src b, if g.ord = .acq then some g.scope else none⟩
  | _ => none

/-- The stores (R258, R259, R260). -/
def storeRule (i : Instr) : Option MemRule :=
  match i with
  | .st _ d ua z a off => plainRule .glob z d ua a off
  | .stl _ d ua z a off => plainRule .priv z d ua a off
  | .sts _ d ua z a off => plainRule .scratch z d ua a off
  | .stw _ d ua z a off => plainRule .window z d ua a off
  | .stt _ d ua z a off => plainRule .acc z d ua a off
  | .stx _ d ua z a off => plainRule .onchip z d ua a off
  | .orderedStore _ g d a b => some ⟨g.space, g.size, d, a, .src b, if g.ord = .rel then some g.scope else none⟩
  | _ => none

/-- What a load or store touches. -/
def MemRule.needs (r : MemRule) : List Need := dstNeed (Size.regs r.z) r.d ++ addrNeeds r.sp r.a r.o

/-- The words of the data registers of lane l of a store. -/
def MemRule.data (r : MemRule) (c : Ctx) (e : State) (l : Nat) : List LaneWord :=
  (List.range (Size.regs r.z)).map fun i => c.vlane e ((c.number r.d.n.toNat r.d.ix l).toNat + i) l

/-- An atomic: access, operands, format of E, whether it records flags, whether it reads D, and the new value and flags from the old value, E
and D (R265, R266). -/
structure AtomRule where
  g : Access
  d : Dst
  a : Src
  b : Src
  fm : OpFmt
  flags : Bool
  useD : Bool
  f : Ctx → Nat → Nat → Nat → Nat × FFlags

/-- The bits of an atomic's access. -/
def atomBits (g : Access) : Nat := if g.wide then 64 else 32

/-- A value of an atomic's access as a signed number. -/
def atomInt (g : Access) (x : Nat) : Int := (BitVec.ofNat (atomBits g) x).toInt

/-- An integer atomic's rule. -/
def atomIRule (g : Access) (d : Dst) (a b : Src) (f : Nat → Nat → Nat) : Option AtomRule :=
  some ⟨g, d, a, b, .i32, false, false, fun _ o e _ => (f o e, 0)⟩

/-- The table of R265. -/
def atomRule (i : Instr) : Option AtomRule :=
  match i with
  | .atomAdd _ g d a b => atomIRule g d a b fun o e => (o + e) % 2 ^ atomBits g
  | .atomSub _ g d a b => atomIRule g d a b fun o e => (o + 2 ^ atomBits g - e) % 2 ^ atomBits g
  | .atomMin _ g d a b => atomIRule g d a b fun o e => if atomInt g e < atomInt g o then e else o
  | .atomMax _ g d a b => atomIRule g d a b fun o e => if atomInt g o < atomInt g e then e else o
  | .atomUmin _ g d a b => atomIRule g d a b min
  | .atomUmax _ g d a b => atomIRule g d a b max
  | .atomAnd _ g d a b => atomIRule g d a b fun o e => o &&& e
  | .atomOr _ g d a b => atomIRule g d a b fun o e => o ||| e
  | .atomXor _ g d a b => atomIRule g d a b fun o e => o ^^^ e
  | .atomExch _ g d a b => atomIRule g d a b fun _ e => e
  | .atomCas _ g d a b => some ⟨g, d, a, b, .i32, false, true, fun _ o e y => (if o = e then y else o, 0)⟩
  | .atomFadd _ g d a b => some ⟨g, d, a, b, .flt .f32, true, false, fun c o e _ => addF .f32 c.cplv c.rm false o e⟩
  | _ => none

/-- Registers of an atomic's operands. -/
def AtomRule.n (r : AtomRule) : Nat := if r.g.wide then 2 else 1

/-- What an atomic touches. -/
def AtomRule.needs (r : AtomRule) (c : Ctx) : List Need :=
  dstNeed r.n r.d ++ addrNeeds r.g.space r.a (.src r.b) ++ srcNeed 4 r.n (Src.of c.pfx.em c.pfx.e)

/-- Operand E of lane l. -/
def AtomRule.opE (r : AtomRule) (c : Ctx) (e : State) (l : Nat) : KReg :=
  if r.g.wide then at_ {} (c.wvec e c.act (Src.of c.pfx.em c.pfx.e)) l
  else { data := (at_ {} (c.vec e c.act (Src.of c.pfx.em c.pfx.e) r.fm) l).data.setWidth 64
         poison := (at_ {} (c.vec e c.act (Src.of c.pfx.em c.pfx.e) r.fm) l).poison }

/-- The data of D in lane l, zero where the atomic does not read D. -/
def AtomRule.opD (r : AtomRule) (c : Ctx) (e : State) (l : Nat) : KReg :=
  let n := (c.number r.d.n.toNat r.d.ix l).toNat
  let lo := c.vlane e n l
  let hi := c.vlane e (n + 1) l
  if !r.useD then {}
  else if r.g.wide then { data := hi.data ++ lo.data, poison := lo.poison || hi.poison }
  else { data := lo.data.setWidth 64, poison := lo.poison }

/-- The lanes of an atomic, one after another in ascending order: each reads its location and writes the new value there; poison of the old
value or of an operand poisons the location and the result (R265, R266). `e` is the state in which operands are read. -/
def AtomRule.lanesRun (r : AtomRule) (c : Ctx) (e : State) : List (Nat × Place) → State → State × List (Nat × Nat × Bool) × FFlags
  | [], s => (s, [], 0)
  | p :: rest, s =>
    let o := s.readPlace c.die c.owner p.2 (4 * r.n)
    let bad := o.2 || (r.opE c e p.1).poison || (r.opD c e p.1).poison
    let z := r.f c (ofBytes o.1) (r.opE c e p.1).data.toNat (r.opD c e p.1).data.toNat
    let rel := (r.g.ord = .rel || r.g.ord = .ar) && wideScope r.g.scope
    let s' := c.rmwWrite s rel p.2 (if bad then List.replicate (4 * r.n) 0 else leBytes (4 * r.n) z.1) bad
    let y := AtomRule.lanesRun r c e rest s'
    (y.1, (p.1, ofBytes o.1, bad) :: y.2.1, (if bad then 0 else z.2) ||| y.2.2)

/-- The result words of an atomic's lanes: the old values. -/
def AtomRule.words (r : AtomRule) (old : List (Nat × Nat × Bool)) : List (Nat × List LaneWord) :=
  old.map fun x => (x.1, (List.range r.n).map fun i =>
    if x.2.2 then { data := 0, poison := true } else { data := BitVec.ofNat 32 (x.2.1 / 2 ^ (32 * i)) })

/-- The address of a uniform access: a sum modulo 2^64 in global memory, a 32-bit base and a signed offset in the scratchpad (R214,
R256). -/
def uniformAddr (sp : Bool) (a b : W64) : Int := if sp then (a.toNat % 2 ^ 32 : Int) + b.toInt else ((a.toNat + b.toNat) % 2 ^ 64 : Nat)

/-- What `ldd` gives lane l for a block (R263): the header word, or an element and its flags. -/
def lddWord (c : Ctx) (e : State) (hdr : Bool) (f : LddFmt) (blk : List Byte × Bool) (i : LaneWord) : LaneWord × FFlags :=
  if hdr then ({ data := lddHeader blk.1 blk.2 }, 0)
  else
    match lddElement (e.core c.core).books (c.g.launch, c.g.gang) (LddFmt.fmt f) c.rm c.sat blk.1 blk.2 i with
    | none => ({ data := 0, poison := true }, 0)
    | some y => ({ data := BitVec.ofNat 32 y.1 }, y.2)

/-- Whether a sector may be written back now: it is clean, or its tenant holds a token for that (R58, R65). -/
def State.backNow (s : State) (q : Nat) : Bool :=
  match s.sec (homeDie (q * 64)) q with
  | some x => x.dirty = 0 || s.tokenFree q x.key
  | none => true

/-- Cache control: operands, the access it is checked as, and what it does to a sector, none where it has to wait for a token (R60, R65,
R268). -/
def cctlRule (i : Instr) : Option (Src × Src × AccKind × (Ctx → State → Nat × Attr → Option State)) :=
  match i with
  | .cctlPrefetch _ a b => some (a, b, .read, fun c s q =>
      let h := homeDie (q.1 * 64)
      if distant q.1 ∨ s.mustFetch h q.2 q.1 allBytes = false then some s
      else
        let o := s.obtain (.split c.ref) q.2 c.g.owner q.1
        if o.1 then some (o.2.fillSec h q.2 q.1 allBytes) else none)
  | .cctlClean _ a b => some (a, b, .read, fun _ s q => if s.backNow q.1 then some (s.cleanSec q.1) else none)
  | .cctlEvict _ a b => some (a, b, .read, fun _ s q => if s.backNow q.1 then some (s.evictSec q.1) else none)
  | .cctlDiscard _ a b => some (a, b, .write, fun _ s q => some (s.discardSec q.1))
  | _ => none

/-- The 256-byte lines that a cache-control instruction names, for its lowest active lane. -/
def linesOf (l : Nat) (a b : W64) : List (Nat × Int) :=
  (List.range b.toNat).map fun j => (l, (((a.toNat / 256 + j) * 256 % 2 ^ 64 : Nat) : Int))

/-- The sectors of lines, four each, with how they are reached. -/
def lineSectors (ps : List (Nat × Place)) : List (Nat × Attr) := ps.flatMap fun p => match p.2 with
  | .mem (x :: _) => (List.range 4).map fun q => (x.1 / 64 + q, x.2)
  | _ => []

end Sys2Proof.Machine

section

open Sys2Proof.Machine Sys2Proof

/-- R256: the effective address of an active lane is the sum modulo 2^64 of a 64-bit base and a sign-extended offset in the global and on-chip
spaces; in the others a 32-bit base and a signed offset, summed as integers. -/
def Sys2Proof.Machine.EffectiveAddresses : Prop :=
  ∀ (c : Ctx) (e : State) (sp : Space) (n : BitVec 8) (off : W32) (accs : List (Nat × Int)),
    c.addresses e sp (.v n) (.imm off) = some accs →
    accs.map (·.1) = lanesOf c.act ∧
    ∀ l ea, (l, ea) ∈ accs →
      let lo := (c.vlane e n.toNat l).data
      let hi := (c.vlane e (n.toNat + 1) l).data
      ea = if sp = .glob ∨ sp = .onchip then (((hi.toNat * 2 ^ 32 + lo.toNat : Int) + off.toInt) % 2 ^ 64) else lo.toNat + off.toInt

/-- R259, R261: a load gives each active lane the bytes at its address, extended to the register, poison from a poisoned location; one
without an active lane accesses nothing; it is long-latency (R189). -/
def Obligations.LoadResults : Prop :=
  ∀ (i : Instr) (r : MemRule) (s : State), loadRule i = some r → s.Issues →
    let c := s.seen i
    let e := s.entering i
    let z := Size.bytes r.z
    (c.act = 0 → c.Usable 0 [] → exec i s = .next (c.done e)) ∧
    ∀ accs ps e1 e', c.act ≠ 0 → c.Usable c.act r.needs → c.addresses e r.sp r.a r.o = some accs → c.places e r.sp .read .any z z none accs = .ok ps →
      let at' := ps.map (·.2)
      let ws := c.laneWrites r.d (Size.regs r.z) (ps.map fun p =>
        (p.1, loadWords r.z (e1.readPlace c.die c.owner p.2 z).1 (e1.readPlace c.die c.owner p.2 z).2))
      let t := c.commit e' true (namesOf ws) ws
      e.keptPlaces at' z = false → c.observe e r.ord at' z (some (BitVec.ofInt 64 ((accs.head?.map (·.2)).getD 0))) = .ok e1 → c.Trails e1 ws e' →
      exec i s = .next (c.done { t with misses := t.misses + e1.readMisses at' })

/-- R49, R91, R259, R261: a store writes each active lane's bytes at its address, one write operation for all lanes, poison from poisoned
data; one without an active lane accesses nothing. -/
def Obligations.StoreResults : Prop :=
  ∀ (i : Instr) (r : MemRule) (s : State), storeRule i = some r → s.Issues →
    let c := s.seen i
    let e := s.entering i
    (c.act = 0 → c.Usable 0 [] → exec i s = .next (c.done e)) ∧
    ∀ accs ps e1, c.act ≠ 0 → c.Usable c.act r.needs → c.addresses e r.sp r.a r.o = some accs → c.storePlaces e r.sp .write (Size.bytes r.z) accs = .ok ps →
      (match r.ord with
        | some sc => c.releaseNow e sc = .ok e1
        | none => e1 = e) →
      exec i s = .next (c.done (e1.writePlaces c.die c.owner ((r.ord.map wideScope).getD false)
        (ps.map fun p => (p.2, storeBytes r.z (r.data c e p.1), (r.data c e p.1).any (·.poison)))))

/-- R201, R259: the bytes that a store writes load back as they were: the low bytes of narrow ones, sign-extended or not, whole words in the
order of their registers. -/
def Obligations.StoredWordsLoadBack : Prop :=
  (∀ (w : LaneWord) (p : Bool),
    loadWords .w32 (storeBytes .w32 [w]) p = [LaneWord.of w.data p] ∧
    loadWords .u8 (storeBytes .u8 [w]) p = [LaneWord.of (w.data &&& 0xFF) p] ∧
    loadWords .u16 (storeBytes .u16 [w]) p = [LaneWord.of (w.data &&& 0xFFFF) p] ∧
    loadWords .s8 (storeBytes .s8 [w]) p = [LaneWord.of (BitVec.ofInt 32 (w.data.setWidth 8).toInt) p] ∧
    loadWords .s16 (storeBytes .s16 [w]) p = [LaneWord.of (BitVec.ofInt 32 (w.data.setWidth 16).toInt) p]) ∧
  (∀ (w x : LaneWord) (p : Bool), loadWords .w64 (storeBytes .w64 [w, x]) p = [LaneWord.of w.data p, LaneWord.of x.data p]) ∧
  (∀ (w x y z : LaneWord) (p : Bool), loadWords .w128 (storeBytes .w128 [w, x, y, z]) p =
    [LaneWord.of w.data p, LaneWord.of x.data p, LaneWord.of y.data p, LaneWord.of z.data p])

/-- R214, R263, R264, R268: the accesses of one lane or of whole blocks: `kld`, `ldd` and its header form, `std`, and cache control. -/
def Obligations.BlockAndUniformAccesses : Prop :=
  (∀ (x : Ctl) (sp : Bool) (d : BitVec 8) (a b : Src) (s : State), s.Issues →
    let i := Instr.kld x sp d a b
    let c := s.seen i
    let e := s.entering i
    let ea := uniformAddr sp (c.uniform a).1 (c.uniform b).1
    c.Usable c.x.mask (.k 0 d.toNat :: (srcNeed 1 1 a ++ srcNeed 2 1 b)) → (c.uniform a).2 = false → (c.uniform b).2 = false →
    ∀ ps, c.places e (if sp then .scratch else .glob) .read .any 8 8 none [((lowest c.x.mask).getD 0, ea)] = .ok ps →
      e.keptPlaces (ps.map (·.2)) 8 = false → ∀ e1, c.observe e none (ps.map (·.2)) 8 (some (BitVec.ofInt 64 ea)) = .ok e1 →
      let r := c.readRange e1 (ps.map (·.2)) 8
      exec i s = .next (c.done (c.commit e1 true [.k d.toNat] [.k d.toNat (uniformWord (BitVec.ofNat 64 (ofBytes r.1)) r.2)]))) ∧
  (∀ (x : Ctl) (sp hdr : Bool) (f : LddFmt) (d : Dst) (a b : Src) (s : State), s.Issues →
    let i := Instr.ldd x sp hdr f d a b
    let c := s.seen i
    let e := s.entering i
    let space : Space := if sp then .scratch else .glob
    (c.act = 0 → c.Usable 0 [] → exec i s = .next (c.done e)) ∧
    ∀ accs ps e', c.act ≠ 0 → c.Usable c.act (dstNeed 1 d ++ addrNeeds space a (.imm 0) ++ if hdr then [] else srcNeed 2 1 b) →
      c.addresses e space a (.imm 0) = some accs → c.places e space .read .described 64 64 none accs = .ok ps →
      e.keptPlaces (ps.map (·.2)) 64 = false →
      ∀ e1, c.observe e none (ps.map (·.2)) 64 (some (BitVec.ofInt 64 ((accs.head?.map (·.2)).getD 0))) = .ok e1 →
      let res := ps.map fun p => (p.1, lddWord c e1 hdr f (e1.readPlace c.die c.owner p.2 64) (at_ {} (c.vec e1 c.act b .i32) p.1))
      let fl := res.foldl (fun (acc : FFlags) r => acc ||| r.2.2) 0
      let ws := c.laneWrites d 1 (res.map fun r => (r.1, [r.2.1]))
      c.Trails e1 ws e' →
      exec i s = .next (c.done (c.commit e' true (namesOf ws ++ (flagWrites fl).1) (ws ++ (flagWrites fl).2)))) ∧
  (∀ (x : Ctl) (sp : Bool) (f : BitVec 5) (d : BitVec 8) (a b : Src) (s : State), s.Issues →
    let i := Instr.std x sp f d a b
    let c := s.seen i
    let e := s.entering i
    let el := (Elem.of f.toNat).getD .int8
    let regs := (Elem.count el + 31) / 32
    (c.act = 0 → c.Usable 0 [] → exec i s = .next (c.done e)) ∧
    ∀ l ps, lowest c.act = some l →
      c.Usable c.act (((List.range regs).map fun j => Need.v 0 (d.toNat + j) false 1) ++ srcNeed 1 1 a ++ srcNeed 2 1 b) → (c.uniform a).2 = false → (c.uniform b).2 = false →
      c.places e (if sp then .scratch else .glob) .write .described 64 64 none
        [(l, uniformAddr sp (c.uniform a).1 (c.uniform b).1)] = .ok ps →
      let v : List (Option XVal) := (List.range (Elem.count el)).map fun j =>
        let w := c.vlane e (d.toNat + j / 32) (j % 32)
        if lane c.act (j % 32) then (if w.poison then none else some (decodeF .f32 w.data.toNat)) else some XVal.zero
      let book := match el with
        | .cb j => (List.range 16).map fun q => (at_ ({} : Codebook) (e.core c.core).books j).entry (c.g.launch, c.g.gang) q
        | .flt _ | .int8 => []
      exec i s = .next (c.done (e.writePlaces c.die c.owner false
        (ps.map fun p => (p.2, requantiseBlock el book c.rm v, false))))) ∧
  (∀ (i : Instr) (a b : Src) (k : AccKind) (f : Ctx → State → Nat × Attr → Option State) (s : State), cctlRule i = some (a, b, k, f) → s.Issues →
    let c := s.seen i
    let e := s.entering i
    (c.act = 0 → c.Usable 0 [] → exec i s = .next (c.done e)) ∧
    ∀ l ps, lowest c.act = some l → c.Usable c.act (srcNeed 1 1 a ++ srcNeed 2 1 b) → (c.uniform a).2 = false → (c.uniform b).2 = false →
      c.places e .glob k .any 1 1 none (linesOf l (c.uniform a).1 (c.uniform b).1) = .ok ps →
      (∀ q ∈ lineSectors ps, e.ownWrites c.die q.1 = []) →
      ∀ t, (lineSectors ps).foldlM (f c) e = some t → exec i s = .next (c.done t))

/-- R265, R266: an atomic reads and writes each active lane's location, lane after lane, and gives it the old value; `atom.fadd` records its
flags; one without an active lane accesses nothing. -/
def Sys2Proof.Machine.AtomicResults : Prop :=
  ∀ (i : Instr) (r : AtomRule) (s : State), atomRule i = some r → s.Issues →
    let c := s.seen i
    let e := s.entering i
    (c.act = 0 → c.Usable 0 [] → exec i s = .next (c.done e)) ∧
    ∀ accs ps e1 e2 e3 e', c.act ≠ 0 → c.Usable c.act (r.needs c) [(Src.of c.pfx.em c.pfx.e, r.fm)] → c.addresses e r.g.space r.a (.src r.b) = some accs →
      c.storePlaces e r.g.space .rmw (4 * r.n) accs = .ok ps →
      let at' := ps.map (·.2)
      e1 = ((homesOf at').filter fun h => homeDie (h.1 * 64) ≠ c.die).foldl (fun s h => s.dropLine c.die h.1) e → e1.keptPlaces at' (4 * r.n) = false →
      c.observe e1 (if r.g.ord = .acq ∨ r.g.ord = .ar then some r.g.scope else none) at' (4 * r.n) none = .ok e2 →
      (if r.g.ord = .rel ∨ r.g.ord = .ar then c.rmwRelease e2 r.g.scope else .ok e2) = .ok e3 → c.rmwReady e3 at' = true →
      let y := r.lanesRun c e3 ps e3
      let ws := c.laneWrites r.d r.n (r.words y.2.1)
      let extra := if r.flags then flagWrites y.2.2 else ([], [])
      (∃ e'', c.Trails e3 ws e'') → c.Trails y.1 ws e' →
      exec i s = .next (c.done (c.commit e' true (namesOf ws ++ extra.1) (ws ++ extra.2)))

/-- R95, R110, R267: a fence of lane or warp scope only advances; a wider one advances once what it waits for is done, closing the die's
epoch at device and system scope, and asks for what is missing otherwise. -/
def Sys2Proof.Machine.FenceResults : Prop :=
  ∀ (x : Ctl) (sc : Scope) (s : State), s.Issues →
    let i := Instr.fence x sc
    let c := s.seen i
    let e := s.entering i
    (sc = .lane ∨ sc = .warp → exec i s = .next (c.done e)) ∧
    (sc = .group ∨ sc = .gang ∨ sc = .die → e.portsClear c.owner = true → e.homeBusy c.die = false → exec i s = .next (c.done e)) ∧
    (sc = .dev ∨ sc = .sys → e.allMarks c.die = true → e.portsClear c.owner = true → e.homeBusy c.die = false →
      (sc = .sys → e.peerBusy = false ∧ e.hostBusy c.die = false) → exec i s = .next (c.done (e.closeEpoch c.die))) ∧
    (sc = .dev ∨ sc = .sys → e.allMarks c.die = false → exec i s = .next (e.askAll c.die))

/-- Atomics read and write lane after lane and give the old values; fences order what went before -/
def Obligations.AtomicAndFenceResults : Prop := AtomicResults ∧ FenceResults

end

namespace Sys2Proof.Machine

/-! ### Control flow, waits, ends, hints (R217 to R227) -/

/-- A split with its next instruction and no PEND, as a branch of one path leaves it (R148). -/
def Ctx.sent (c : Ctx) (e : State) (pc : W64) : State :=
  e.setWarp c.core c.slot { c.w with splits := c.w.splits.set c.sp (some { c.x with pc := pc, pend := none }), came := c.w.came.set c.sp c.x.pc }

/-- The byte offset that a signed word offset names (R182). -/
def Ctx.dest (c : Ctx) (imm : W32) : W64 := BitVec.ofInt 64 (c.x.pc.toInt + 4 * imm.toInt)

/-- A branch by operand A or by constant: what it touches, the operand, and each lane's next PC from the lane's word (R218). -/
structure BranchRule where
  needs : List Need
  a : Src
  next : Ctx → W32 → W64

/-- The branches that read a register (R218). -/
def branchRule (i : Instr) : Option BranchRule :=
  match i with
  | .brc _ a imm => some ⟨srcNeed 1 1 (.v a), .v a, fun c v => if v = 0 then c.after else c.dest imm⟩
  | .brx _ a => some ⟨srcNeed 1 1 a, a, fun _ v => v.setWidth 64⟩
  | .ret _ a => some ⟨srcNeed 1 1 a, a, fun _ v => v.setWidth 64⟩
  | _ => none

/-- A waiting split whose instruction can go on: live, with a blocking record of a kind, in a group that runs, its words at hand (R161,
R356). -/
structure State.Waiting (s : State) (r : SplitRef) (kind : Nat) (i : Instr) (x : Words) : Prop where
  live : (s.split? r).isSome = true
  kind : (s.blockOf r).kind = kind
  runs : (s.groupOf r.core r.slot).runs = true
  words : s.fetch r = .instr i x

/-- What the waiting instruction sees. -/
def State.waiter (s : State) (r : SplitRef) (x : Words) : Ctx := ctxOf { s with cur := r } x

/-- The state once the wait is over and the instruction done, after its effect gave t. -/
def State.resumed (s : State) (r : SplitRef) (x : Words) (t : State) : State := { (s.waiter r x).done (t.unblock r) with cur := s.cur }

/-- The counter that an ID names for the group (R273, R332). -/
def Ctx.counter (c : Ctx) (e : State) (id : Nat) : Counter := get {} e.counters (c.g.part * 65536 + id % 65536)

/-- A uniform written at once. -/
def Ctx.putK (c : Ctx) (e : State) (d : BitVec 8) (v : W64) : State := e.writeRegs c.core c.slot [.k d.toNat { data := v }]

/-- A warp that has entered its handler from split i (R346). -/
def Warp.entered (w : Warp) (i : Nat) (x : Split) (handler : Nat) (t : TrapRegs) : Warp :=
  { w with
    trap := t
    handler := true
    hsave := { ra := x.ra, pend := x.pend, mask := x.mask, split := i }
    splits := w.splits.set i (some { x with pc := BitVec.ofNat 64 handler, ra := none, pend := none })
    came := w.came.set i x.pc
    stopped := (List.range 4).map fun j => j ≠ i && (w.split j).isSome }

end Sys2Proof.Machine

section

open Sys2Proof.Machine Sys2Proof

/-- R148, R217, R218: `bra` sends its split to the target; `brc`, `brx` and `ret` send each lane to its own next PC, one path for each distinct
one, and a split whose lanes agree does not divide. PEND is consumed. -/
def Sys2Proof.Machine.BranchResults : Prop :=
  (∀ (x : Ctl) (imm : W32) (s : State), s.Issues →
    let c := s.seen (.bra x imm)
    c.x.mask ≠ 0 → exec (.bra x imm) s = .next (c.jumped (c.sent (s.entering (.bra x imm)) (c.dest imm)))) ∧
  (∀ (i : Instr) (r : BranchRule) (s : State), branchRule i = some r → s.Issues →
    let c := s.seen i
    let e := s.entering i
    let v := c.vec e c.x.mask r.a .bits
    c.Usable c.x.mask r.needs → (∀ l ∈ lanesOf c.x.mask, (at_ {} v l).poison = false) →
    (∀ pc, c.x.mask ≠ 0 → (∀ l ∈ lanesOf c.x.mask, r.next c (at_ {} v l).data = pc) → exec i s = .next (c.jumped (c.sent e pc))) ∧
    ∀ w, c.w.diverge c.sp (pathsOf c.x.mask fun l => r.next c (at_ {} v l).data) true c.x.pc = .ok w →
      exec i s = .next (c.jumped (e.setWarp c.core c.slot w)))

/-- R148, R218, R220: `call` and `calli` write the offset of the next instruction into vD in every active lane and go to the target. -/
def Sys2Proof.Machine.CallResults : Prop :=
  (∀ (x : Ctl) (d : BitVec 8) (imm : W32) (s e' : State), s.Issues →
    let i := Instr.call x d imm
    let c := s.seen i
    let ws := c.laneWrites ⟨false, d⟩ 1 ((lanesOf c.x.mask).map fun l => (l, [{ data := c.after.setWidth 32 }]))
    c.Usable c.x.mask (dstNeed 1 ⟨false, d⟩) → c.x.mask ≠ 0 → c.Trails (s.entering i) ws e' →
    exec i s = .next (c.jumped (c.sent (e'.writeRegs c.core c.slot ws) (c.dest imm)))) ∧
  (∀ (x : Ctl) (d : Dst) (a : Src) (w : Warp) (s e' : State), s.Issues →
    let i := Instr.calli x d a
    let c := s.seen i
    let e := s.entering i
    let v := c.vec e c.x.mask a .bits
    let ws := c.laneWrites d 1 ((lanesOf c.x.mask).map fun l => (l, [{ data := c.after.setWidth 32 }]))
    c.Usable c.x.mask (dstNeed 1 d ++ srcNeed 1 1 a) → (∀ l ∈ lanesOf c.x.mask, (at_ {} v l).poison = false) →
    c.w.diverge c.sp (pathsOf c.x.mask fun l => (at_ {} v l).data.setWidth 64) true c.x.pc = .ok w → c.Trails e ws e' →
    exec i s = .next (c.jumped ((e'.writeRegs c.core c.slot ws).setWarp c.core c.slot w)))

/-- Branches and calls send each lane to its next PC -/
def Obligations.BranchAndCallResults : Prop := BranchResults ∧ CallResults

/-- R148: a branch of two paths. The path of the lower target keeps the split's slot, the other takes the lowest free slot. With a PEND both get
it as their RA, a JOIN entry for it is pushed, and the lanes' nesting counters rise by one; without, RA stays. -/
def Obligations.TwoPathDivergence : Prop :=
  ∀ (w : Warp) (i j : Nat) (x : Split) (p q : Path) (came : W64) (free : List Nat),
    w.split i = some x → w.freeSlots = j :: free → w.stack.length < 4096 → w.splits.length = 4 → q.lanes ≠ 0 →
    (∀ pend, x.pend = some pend → (∀ l < 32, lane x.mask l = true → at_ 0 w.nest l ≠ 255) →
      ∃ v, w.diverge i [p, q] true came = .ok v ∧
        v.split i = some { pc := p.target, mask := p.lanes, ra := some pend, pend := none } ∧
        v.split j = some { pc := q.target, mask := q.lanes, ra := some pend, pend := none } ∧
        v.stack = { join := true, pc := pend, mask := x.mask, arrived := 0, ra := x.ra, nest := w.nestOf x.mask + 1 } :: w.stack ∧
        v.nest = nestMap w.nest x.mask (· + 1)) ∧
    (x.pend = none →
      ∃ v, w.diverge i [p, q] true came = .ok v ∧
        v.split i = some { pc := p.target, mask := p.lanes, ra := x.ra, pend := none } ∧
        v.split j = some { pc := q.target, mask := q.lanes, ra := x.ra, pend := none } ∧ v.stack = w.stack ∧ v.nest = w.nest)

/-- R148 to R150, R152: neither a branch nor what settles after it loses or makes a lane of the warp. -/
def Obligations.BranchesKeepLanes : Prop :=
  (∀ (w v : Warp) (i : Nat) (x : Split) (f : Nat → W64) (came : W64), w.splits.length = 4 → w.split i = some x → x.mask ≠ 0 →
    w.diverge i (pathsOf x.mask f) true came = .ok v → v.liveLanes = w.liveLanes ∧ v.splits.length = 4) ∧
  (∀ (w : Warp) (came : W64), w.splits.length = 4 → (w.settle came).liveLanes = w.liveLanes ∧ (w.settle came).splits.length = 4)

/-- R226, R227, R148: `nop` and `yield` only advance; `rcv` sets PEND; `bkpt` only advances where no breakpoint is armed in the room, else its
group comes to rest before it and the Innkeeper is told. -/
def Sys2Proof.Machine.HintResults : Prop :=
  ∀ (x : Ctl) (off : BitVec 24) (s : State), s.Issues →
    exec (.nop x) s = .next ((s.seen (.nop x)).done (s.entering (.nop x))) ∧
    exec (.yield x) s = .next ((s.seen (.yield x)).done (s.entering (.yield x))) ∧
    (let c := s.seen (.rcv x off)
     exec (.rcv x off) s = .next (c.done ((s.entering (.rcv x off)).modWarp c.core c.slot fun w => { w with
       splits := modifyAt w.splits c.sp (Option.map fun y => { y with pend := some (BitVec.ofInt 64 (c.x.pc.toInt + 4 * off.toInt)) }) }))) ∧
    (let c := s.seen (.bkpt x)
     let e := s.entering (.bkpt x)
     ((e.room c.core c.room).bkpt = false → exec (.bkpt x) s = .next (c.done e)) ∧
     ((e.room c.core c.room).bkpt = true → exec (.bkpt x) s = .next (c.jumped
       (((e.stopGroup c.core c.room).modGroup c.core c.room fun g => { g with bkptAt := some (c.w.num, c.sp, c.x.pc) }).emit
         (.innkeeper 3 c.core c.room 0 0)))))

/-- R152, R222, R223: `exit` takes its split's lanes from the warp, and the group ends with its last warp; `end` ends the group at once. -/
def Sys2Proof.Machine.EndResults : Prop :=
  ∀ (x : Ctl) (s : State), s.Issues →
    (let c := s.seen (.exit x)
     exec (.exit x) s = .next (c.jumped (((s.entering (.exit x)).modWarp c.core c.slot fun w => w.exitLanes c.x.mask c.x.pc).checkWarp
       c.core c.slot))) ∧
    (let c := s.seen (.endGroup x)
     exec (.endGroup x) s = .next (c.jumped ((s.entering (.endGroup x)).endGroup c.core c.room)))

/-- R221: `waitj` gives 1 once the counter has reached the threshold, and waits with a deadline otherwise; a waiting one gives 1 for a threshold
reached by its deadline, and 0 when the deadline's tick has passed without. -/
def Obligations.CounterWaits : Prop :=
  (∀ (x : Ctl) (d a : BitVec 8) (imm : W32) (s : State), s.Issues →
    let i := Instr.waitj x d a imm
    let c := s.seen i
    let e := s.entering i
    let id := at_ {} c.w.uni a.toNat
    let thr := at_ {} c.w.uni (a.toNat + 1)
    let k := c.counter e id.data.toNat
    c.Usable c.x.mask (.k 0 d.toNat :: .k 1 a.toNat :: impliedK a.toNat 1) → id.poison = false → thr.poison = false →
    (thr.data.toNat ≤ k.value.toNat → e.vecOk c.die k.vec = true → exec i s = .next (c.done (c.putK (e.mergeStamp c.die k.vec) d 1))) ∧
    (k.value.toNat < thr.data.toNat → exec i s = .next (c.blocked e
      { kind := 4, addr := BitVec.ofNat 64 (id.data.toNat % 65536), value := thr.data,
        aux := if imm = 0 then noDeadline else BitVec.ofNat 64 (e.gtime + imm.toNat) }))) ∧
  (∀ (r : SplitRef) (y : Ctl) (d a : BitVec 8) (imm : W32) (x : Words) (s : State), s.Waiting r 4 (.waitj y d a imm) x →
    let c := s.waiter r x
    let b := s.blockOf r
    let k := c.counter s b.addr.toNat
    (∀ t, k.reached b.value = some t → b.aux = noDeadline ∨ t ≤ b.aux.toNat → s.vecOk c.die k.vec = true →
      exec (.waitjArrival r) s = .next (s.resumed r x (c.putK (({ s with cur := r } : State).mergeStamp c.die k.vec) d 1))) ∧
    (b.aux ≠ noDeadline → b.aux.toNat < s.gtime → (∀ t, k.reached b.value = some t → b.aux.toNat < t) →
      exec (.waitjTimeout r) s = .next (s.resumed r x (c.putK ({ s with cur := r } : State) d 0))))

/-- R225: `sysc` is a device fence and a call: service 0 gives 0, service 1 a trace record, every other −1. -/
def Sys2Proof.Machine.ServiceCalls : Prop :=
  ∀ (x : Ctl) (d a : BitVec 8) (imm : W32) (s : State), s.Issues →
    let i := Instr.sysc x d a imm
    let c := s.seen i
    let e := s.entering i
    let args := (List.range 4).map fun n => at_ {} c.w.uni (a.toNat + n)
    let t := e.closeEpoch c.die
    let r := t.traceRecord c.die (t.launches.getD c.g.launch {}).fn c.g.part (args.map (·.data))
    c.Usable c.x.mask (.k 0 d.toNat :: .k 1 a.toNat :: impliedK a.toNat 3) → (∀ n ∈ args, n.poison = false) →
    e.allMarks c.die = true → e.portsClear c.owner = true → e.homeBusy c.die = false →
    exec i s = .next (c.done (if imm = 0 then c.putK t d 0 else if imm = 1 then c.putK r.1 d r.2 else c.putK t d (-1)))

/-- nop, yield, rcv, bkpt, exit, end and sysc -/
def Obligations.HintsEndsAndServiceCalls : Prop := HintResults ∧ EndResults ∧ ServiceCalls

/-- R202, R204, R224, R343, R347: an illegal encoding raises ILL with its detail, and `trap` TRAP with its code, in all lanes of the split; in
handler mode, from the saved mask and with a code of at most 3, `trap` returns. -/
def Sys2Proof.Machine.TrapResults : Prop :=
  (∀ (pw : Option (BitVec 32)) (w : BitVec 64) (n : Nat) (s : State), s.Issues → ill { pw := pw, w := w } = some n →
    let c := s.seen (.illegal pw w)
    exec (.illegal pw w) s = .next (c.trapped (s.entering (.illegal pw w)) { cause := 0x01, lanes := c.x.mask, detail := n })) ∧
  (∀ (i : Instr) (x : Ctl) (imm : W32) (s : State), (i = .trap x imm ∨ i = .trapReturn x imm) → s.Issues →
    let c := s.seen i
    let e := s.entering i
    (c.w.returns c.sp imm = false → exec i s = .next (c.trapped e
      { cause := 0x02, lanes := c.x.mask, imm := some (BitVec.ofInt 64 imm.toInt) })) ∧
    (c.w.returns c.sp imm = true → exec i s = .next (c.jumped (e.modWarp c.core c.slot fun w => w.trapReturn c.sp imm.toNat))))

/-- R342 to R346, R348: a trap that no pager takes enters the kernel's handler where one is named and the cause's class enabled; otherwise the
group faults, and in handler mode it is a double fault; sr.trapcause names the lanes, class, detail and cause. -/
def Obligations.TrapDelivery : Prop :=
  ∀ (s : State) (r : SplitRef) (ws : Words) (t : Trap) (w : Warp) (x : Split) (g : Group),
    s.warp? r.core r.slot = some w → w.split r.split = some x → (s.room r.core w.room).group = some g → w.pend = [] →
    (t.cause ≠ 0x12 ∧ t.cause ≠ 0x14 ∧ t.cause ≠ 0x16) →
    let s' := s.takeTrap r ws t
    let w' := s'.warp r.core r.slot
    let g' := s'.group r.core w.room
    let regs := t.regs ws x.pc
    regs.cause = BitVec.ofNat 64 (t.lanes.toNat * 2 ^ 32 + trapClass t.cause * 2 ^ 16 + t.detail * 2 ^ 8 + t.cause) ∧
    (w.handler = false → g.hdr.handler ≠ 0xFFFFFFFF → tbit g.hdr.trapmask (trapClass t.cause) = true →
      w' = w.entered r.split x g.hdr.handler regs ∧ g' = g) ∧
    (w.handler = false → (g.hdr.handler = 0xFFFFFFFF ∨ tbit g.hdr.trapmask (trapClass t.cause) = false) →
      w' = { w with trap := regs } ∧ g' = { g with phase := .faulted, fault := (w.num, r.split) } ∧
      s'.out = s.out ++ [.innkeeper 1 r.core w.room t.word 0]) ∧
    (w.handler = true → w' = w ∧ g' = { g with phase := .doubleFaulted, fault := (w.num, r.split) } ∧
      s'.out = s.out ++ [.innkeeper 2 r.core w.room t.word w.trap.cause])

/-- R346, R347: the return from a handler undoes its entry: the split goes on n words behind the trapped instruction with its own RA and PEND,
and the warp's other splits run again. -/
def Sys2Proof.Machine.HandlerReturns : Prop :=
  ∀ (w : Warp) (i n handler : Nat) (x : Split) (t : TrapRegs), w.handler = false → w.hsave = {} → w.stopped = [false, false, false, false] →
    w.splits.length = 4 → w.split i = some x → t.pc = x.pc →
    (w.entered i x handler t).returns i (BitVec.ofNat 32 n) = decide (n % 2 ^ 32 ≤ 3) ∧
    (w.entered i x handler t).trapReturn i n =
      ({ w with trap := t, splits := w.splits.set i (some { x with pc := x.pc + BitVec.ofNat 64 (4 * n) }),
                came := w.came.set i (BitVec.ofNat 64 handler) } : Warp).settle (BitVec.ofNat 64 handler)

/-- Illegal encodings and trap raise their causes; trap in a handler returns; the return undoes the entry -/
def Obligations.TrapsAndReturns : Prop := TrapResults ∧ HandlerReturns

end

namespace Sys2Proof.Machine

/-! ### Barriers, counters, tasks, fork (R124 to R129, R269 to R278) -/

/-- The state with an arrival's update of an object (R126, R128, R129, R405): `t` is the state after the release at the instruction's scope. -/
def Ctx.arrived (c : Ctx) (t : State) (sc : Scope) (p : Place) (b : Barrier) : State :=
  (if wideScope sc then t else t.closeEpoch c.die).writePlaces c.die c.owner true [(p, b.bytes, false)]

/-- What an arriving instruction does at its object (R128, R269, R270): it waits where PEND = 0, raises BARF where the object is no barrier or a
transaction count overflows, and else updates the object; `ends` is how it ends once the object is updated. -/
def Ctx.arrives (c : Ctx) (e t : State) (x : BarCtl) (l addr : Nat) (tin tout : W32) (p : Place) (bs : List Byte) (ends : State → State) :
    State → Prop := fun z =>
  c.object e x.win .rmw l addr 16 = .ok p ∧ c.readObject e p 16 = .ok bs ∧
    match (Barrier.of bs).arrive tin.toInt tout.toInt with
    | .barf => z = c.trapped e { cause := 0x21, lanes := bitOf l, d := BitVec.ofNat 64 addr }
    | .wait => z = c.blocked e { kind := 11, addr := BitVec.ofNat 64 addr, value := tin.setWidth 64, aux := tout.setWidth 64 }
    | .ok b => c.releaseNow e x.scope = .ok t ∧ z = ends (c.arrived t x.scope p b)

/-- What a barrier instruction touches: A, B and, where TE is set, E. -/
def arriveNeeds (c : Ctx) (x : BarCtl) (a b : Src) : List Need :=
  srcNeed 1 1 a ++ srcNeed 2 1 b ++ if x.te then srcNeed 4 1 (Src.of c.pfx.em c.pfx.e) else []

/-- The operand of a barrier instruction that a slot may feed: E, where TE is set (R185, R270). -/
def arriveMaps (c : Ctx) (x : BarCtl) : List (Src × OpFmt) := if x.te then [(Src.of c.pfx.em c.pfx.e, .i32)] else []

/-- A 32-bit operand of lane l. -/
def Ctx.word (c : Ctx) (e : State) (l : Nat) (x : Src) : LaneWord := at_ {} (c.vec e (bitOf l) x .i32) l

/-- The transaction count that E gives, zero without TE. -/
def Ctx.outWord (c : Ctx) (e : State) (l : Nat) (x : BarCtl) : LaneWord := if x.te then c.word e l (Src.of c.pfx.em c.pfx.e) else {}

/-- GEN of an object's bytes: byte 7 of a sync word, bits 3..0 of a barrier (R124, R127). -/
def genOf (sync : Bool) (bs : List Byte) : Nat := if sync then (at_ (0 : Byte) bs 7).toNat else (at_ (0 : Byte) bs 0).toNat % 16

/-- The waits on an object's GEN: control byte, operands, and whether the object is a sync word (R270, R271). -/
def genRule (i : Instr) : Option (BarCtl × Src × Src × Bool) :=
  match i with
  | .barw _ x a b => some (x, a, b, false)
  | .swwait _ x a b => some (x, a, b, true)
  | _ => none

/-- The record of a wait on GEN (R356). -/
def genBlock (sync : Bool) (addr v aux : Nat) : Block :=
  { kind := if sync then 2 else 1, addr := BitVec.ofNat 64 addr, value := BitVec.ofNat 64 v, aux := BitVec.ofNat 64 aux }

/-- n arrivals one after another, each with no transaction bytes. -/
def Barrier.arrivals : Nat → Barrier → Option Barrier
  | 0, b => some b
  | n + 1, b => match b.arrive 0 0 with
    | .ok b' => Barrier.arrivals n b'
    | _ => none

/-- A uniform instruction that acts once for its lowest active lane, without which it does nothing. -/
structure Once (c : Ctx) (l : Nat) (ns : List Need) (maps : List (Src × OpFmt) := []) : Prop where
  lane : lowest c.act = some l
  usable : c.Usable (bitOf l) ns maps

/-- The four uniforms of a task entry as 256 bits (R274). -/
def Ctx.entry (c : Ctx) (a : Nat) : BitVec 256 :=
  (at_ ({} : KReg) c.w.uni (a + 3)).data ++ (at_ ({} : KReg) c.w.uni (a + 2)).data ++ (at_ ({} : KReg) c.w.uni (a + 1)).data ++
    (at_ ({} : KReg) c.w.uni a).data

/-- A popped entry in kD to k(D+3) (R276). -/
def Ctx.popped (c : Ctx) (e : State) (d : BitVec 8) (x : BitVec 256) : State :=
  e.writeRegs c.core c.slot ((List.range 4).map fun i => .k (d.toNat + i) { data := x.extractLsb' (64 * i) 64 })

end Sys2Proof.Machine

section

open Sys2Proof.Machine Sys2Proof

/-- R128, R269, R270: `barr` arrives at a barrier object for the lowest active lane; `barrw` then waits for the generation to change, or goes on
where it has. Without an active lane both do nothing. -/
def Sys2Proof.Machine.BarrierArrivals : Prop :=
  ∀ (i : Instr) (x : Ctl) (k : BarCtl) (a b : Src) (s : State), (i = .barr x k a b ∨ i = .barrw x k a b) → s.Issues →
    let c := s.seen i
    let e := s.entering i
    (c.act = 0 → exec i s = .next (c.done e)) ∧
    ∀ l t p bs z, Once c l (arriveNeeds c k a b) (arriveMaps c k) → (c.word e l a).poison = false → (c.word e l b).poison = false →
      (c.outWord e l k).poison = false →
      let addr := (c.word e l a).data.toNat
      (i = .barr x k a b → c.arrives e t k l addr (c.word e l b).data (c.outWord e l k).data p bs (fun u => c.done u) z → exec i s = .next z) ∧
      (i = .barrw x k a b →
        c.arrives e t k l addr (c.word e l b).data (c.outWord e l k).data p bs (fun u =>
          State.finish c (c.genWait u k l addr (genOf false bs) false true (genBlock false addr (genOf false bs) 1)).ends) z →
        exec i s = .next z)

/-- R270, R271: a wait on an object goes on when GEN reads as asked, with an acquire; otherwise the split waits with a record. Without an active
lane it does nothing. -/
def Sys2Proof.Machine.GenerationWaits : Prop :=
  ∀ (i : Instr) (k : BarCtl) (a b : Src) (sync : Bool) (s : State), genRule i = some (k, a, b, sync) → s.Issues →
    let c := s.seen i
    let e := s.entering i
    (c.act = 0 → exec i s = .next (c.done e)) ∧
    ∀ l p bs, Once c l (srcNeed 1 1 a ++ srcNeed 2 1 b) [(b, .i32)] → (c.word e l a).poison = false → (c.word e l b).poison = false →
      let addr := (c.word e l a).data.toNat
      let v := (c.word e l b).data.toNat % if sync then 256 else 16
      c.object e k.win .read l addr (if sync then 8 else 16) = .ok p → c.readObject e p (if sync then 8 else 16) = .ok bs →
      (genOf sync bs ≠ v → exec i s = .next (c.blocked e (genBlock sync addr v 0))) ∧
      (∀ t, genOf sync bs = v → c.acquireNow e k.scope (e.stampsOf c.die [p] (if sync then 8 else 16)) = .ok t → exec i s = .next (c.done t))

/-- Arrivals at barrier objects and waits for a generation -/
def Obligations.BarrierArrivalsAndWaits : Prop := BarrierArrivals ∧ GenerationWaits

/-- R128, R270, R271, R356: the waits at objects end when GEN reads as they ask; an arrival that found PEND = 0 is made again. -/
def Sys2Proof.Machine.ObjectWaitsEnd : Prop :=
  ∀ (r : SplitRef) (i : Instr) (x : Words) (k : BarCtl) (s t : State) (p : Place) (bs : List Byte),
    let u : State := { s with cur := r }
    let c := s.waiter r x
    let b := s.blockOf r
    (∀ y a d, (i = .barw y k a d ∨ i = .barrw y k a d) → s.Waiting r 1 i x → c.object u k.win .read c.first b.addr.toNat 16 = .ok p →
      c.readObject u p 16 = .ok bs → (if b.aux = 1 then genOf false bs ≠ b.value.toNat else genOf false bs = b.value.toNat) →
      c.acquireNow u k.scope (u.stampsOf c.die [p] 16) = .ok t → exec (.barrierWaitEnd r) s = .next (s.resumed r x t)) ∧
    (∀ y a d, i = .swwait y k a d → s.Waiting r 2 i x → c.object u k.win .read c.first b.addr.toNat 8 = .ok p →
      c.readObject u p 8 = .ok bs → genOf true bs = b.value.toNat → c.acquireNow u k.scope (u.stampsOf c.die [p] 8) = .ok t →
      exec (.syncWaitEnd r) s = .next (s.resumed r x t)) ∧
    (∀ y a d o, i = .barr y k a d → s.Waiting r 11 i x → c.object u k.win .rmw c.first b.addr.toNat 16 = .ok p →
      c.readObject u p 16 = .ok bs → (Barrier.of bs).arrive (b.value.setWidth 32).toInt (b.aux.setWidth 32).toInt = .ok o →
      c.releaseNow u k.scope = .ok t → exec (.arriveRetry r) s = .next (s.resumed r x (c.arrived t k.scope p o)))

/-- R128: EXPECT arrivals without transaction bytes complete a phase: the generation rises by one modulo 16 and PEND is EXPECT again; fewer
leave the generation. -/
def Sys2Proof.Machine.BarrierPhases : Prop :=
  ∀ (b : Barrier) (n : Nat), b.expect ≠ 0 → b.res = 0 → b.inb = 0 → b.outb = 0 → b.pend = b.expect →
    (n < b.expect → b.arrivals n = some { b with pend := b.expect - n }) ∧
    b.arrivals b.expect = some { b with gen := (b.gen + 1) % 16 }

/-- R127: a barrier object is 16 bytes that read back as it was. -/
def Sys2Proof.Machine.BarrierBytes : Prop :=
  ∀ (b : Barrier), b.gen < 16 → b.expect < 4096 → b.pend < 4096 → b.res < 2 ^ 36 → -2 ^ 31 ≤ b.inb → b.inb < 2 ^ 31 → -2 ^ 31 ≤ b.outb →
    b.outb < 2 ^ 31 → Barrier.of b.bytes = b ∧ b.bytes.length = 16

/-- R125: two raises of a sync word with a target are one raise of their sum. -/
def Sys2Proof.Machine.SyncRaisesAdd : Prop :=
  ∀ (w n m : Nat), field w 27 0 ≠ 0 → syncRaise (syncRaise w n) m = syncRaise w (n + m)

/-- Barrier phases, barrier bytes and raises of sync words -/
def Obligations.SynchronisationObjects : Prop := BarrierPhases ∧ BarrierBytes ∧ SyncRaisesAdd

/-- R272: `gbar` releases and waits; when every lane of the group, or of the gang, that has not exited waits, the waiting splits go on. -/
def Sys2Proof.Machine.GroupBarriers : Prop :=
  (∀ (x : Ctl) (sc : Scope) (s : State), s.Issues →
    let c := s.seen (.gbar x sc)
    let e := s.entering (.gbar x sc)
    (c.act = 0 → exec (.gbar x sc) s = .next (c.done e)) ∧
    ∀ t, c.act ≠ 0 → c.releaseNow e sc = .ok t →
      exec (.gbar x sc) s = .next (c.blocked t { kind := 3, value := (Scope.code sc).setWidth 64 })) ∧
  (∀ (core n slot : Nat) (g : Group) (i : Instr) (x : Words) (s : State),
    (s.room core n).group = some g → g.slots = [slot] → (s.warp core slot).live = true → g.runs = true →
    (s.warp core slot).atGbar 2 = [0] → (s.warp core slot).allAtGbar 2 = true → s.Waiting ⟨core, slot, 0⟩ 3 i x →
    exec (.gbarComplete core n false) s = .next (s.resumed ⟨core, slot, 0⟩ x { s with cur := ⟨core, slot, 0⟩ }))

/-- How waits at objects end, and gbar -/
def Obligations.WaitsEndAndGroupBarriers : Prop := ObjectWaitsEnd ∧ GroupBarriers

/-- R273, R278, R405: `cinc` adds to a counter after a release at device scope and `crd` reads one after an acquire; `joinc` registers one
increment with the group, applied once it has ended and its work is done. Without an active lane they do nothing. -/
def Sys2Proof.Machine.CounterInstructions : Prop :=
  (∀ (x : Ctl) (a b : Src) (s : State), s.Issues →
    let c := s.seen (.cinc x a b)
    let e := s.entering (.cinc x a b)
    (c.act = 0 → exec (.cinc x a b) s = .next (c.done e)) ∧
    ∀ l, Once c l (srcNeed 1 1 a ++ srcNeed 2 1 b) → (c.uniform a).2 = false → (c.uniform b).2 = false → e.portsClear c.owner = true →
      e.homeBusy c.die = false →
      let t := e.closeEpoch c.die
      exec (.cinc x a b) s = .next (c.done (t.counterAdd c.g.part ((c.uniform a).1.toNat % 65536) (c.uniform b).1 (t.closedVec c.die)))) ∧
  (∀ (x : Ctl) (d : BitVec 8) (a : Src) (s : State), s.Issues →
    let c := s.seen (.crd x d a)
    let e := s.entering (.crd x d a)
    (c.act = 0 → exec (.crd x d a) s = .next (c.done e)) ∧
    let id : KReg := match a with
      | .k n => at_ {} c.w.uni n.toNat
      | .imm m => { data := m.signExtend 64 }
      | _ => { data := (c.word e ((lowest c.act).getD 0) a).data.setWidth 64, poison := (c.word e ((lowest c.act).getD 0) a).poison }
    ∀ l, Once c l (.k 0 d.toNat :: srcNeed 1 1 a) [(a, .i32)] → id.poison = false →
      let k := c.counter e id.data.toNat
      e.vecOk c.die k.vec = true →
      exec (.crd x d a) s = .next (c.done (c.commit (e.mergeStamp c.die k.vec) true [.k d.toNat] [.k d.toNat { data := k.value }]))) ∧
  (∀ (x : Ctl) (a b : Src) (s : State), s.Issues →
    let c := s.seen (.joinc x a b)
    let e := s.entering (.joinc x a b)
    (c.act = 0 → exec (.joinc x a b) s = .next (c.done e)) ∧
    ∀ l, Once c l (srcNeed 1 1 a ++ srcNeed 2 1 b) → (c.uniform a).2 = false → (c.uniform b).2 = false →
      exec (.joinc x a b) s = .next (c.done (e.modGroup c.core c.room fun g =>
        { g with join := some ((c.uniform a).1.toNat % 65536, (c.uniform b).1) }))) ∧
  (∀ (core n id : Nat) (k : W64) (g : Group) (s : State), (s.room core n).group = some g → g.phase = .ended → g.join = some (id, k) →
    (∀ j ∈ (s.core core).jobs, j.room ≠ n) → s.portsClear (some g.owner) = true → (∀ r ∈ s.net, r.src ≠ dieOf core) →
    let t := s.closeEpoch (dieOf core)
    exec (.joincApply core n) s = .next
      (((t.counterAdd g.part id k (t.closedVec (dieOf core))).modGroup core n fun g => { g with join := none }).reap core n))

/-- R273, R275: an update of a counter saturates it, and changes no other counter of any partition. -/
def Sys2Proof.Machine.CounterUpdates : Prop :=
  ∀ (s : State) (part id : Nat) (n : W64) (vec : List Nat), id < 65536 →
    (get ({} : Counter) (s.counterAdd part id n vec).counters (part * 65536 + id)).value.toNat =
      min ((get ({} : Counter) s.counters (part * 65536 + id)).value.toNat + n.toNat) (2 ^ 64 - 1) ∧
    ∀ k, k ≠ part * 65536 + id → get ({} : Counter) (s.counterAdd part id n vec).counters k = get {} s.counters k

/-- cinc, crd and joinc; an update saturates one counter and changes no other -/
def Obligations.CounterResults : Prop := CounterInstructions ∧ CounterUpdates

/-- R274 to R276, R334: `tqpush` pushes a task and tells what became of it, TQF for a queue that is none; `tqpop` takes the head entry of its
queue or waits; a waiting one takes the entry that comes. -/
def Sys2Proof.Machine.TaskResults : Prop :=
  (∀ (x : Ctl) (d a b n : BitVec 8) (s : State), s.Issues →
    let i := Instr.tqpush x d a b n
    let c := s.seen i
    let e := s.entering i
    let ids := at_ ({} : KReg) c.w.uni b.toNat
    let thr := (List.range n.toNat).map fun j => at_ ({} : KReg) c.w.uni (b.toNat + 1 + j)
    let words := (List.range 4).map fun j => at_ ({} : KReg) c.w.uni (a.toNat + j)
    let x := c.entry a.toNat
    (c.act = 0 → exec i s = .next (c.done e)) ∧
    ∀ l, Once c l (.k 0 d.toNat :: .k 1 a.toNat :: impliedK a.toNat 3 ++ if n.toNat = 0 then [] else .k 2 b.toNat :: impliedK b.toNat n.toNat) →
      (∀ w ∈ words, w.poison = false) → (n.toNat ≠ 0 → ids.poison = false) → (∀ w ∈ thr, w.poison = false) →
      (64 ≤ taskQueue x ∨ x.extractLsb' 25 7 ≠ 0 → exec i s = .next (c.trapped e
        { cause := 0x24, lanes := bitOf l, d := BitVec.ofNat 64 (taskQueue x) })) ∧
      (taskQueue x < 64 → x.extractLsb' 25 7 = 0 → e.portsClear c.owner = true → e.homeBusy c.die = false →
        let t := e.closeEpoch c.die
        let r := t.pushTask c.g.part x (thr.zipIdx.map fun p => ((ids.data.extractLsb' (16 * p.2) 16).toNat, p.1.data)) (t.closedVec c.die)
        exec i s = .next (c.done (c.putK r.1 d (BitVec.ofNat 64 r.2))))) ∧
  (∀ (x : Ctl) (d : BitVec 8) (a : Src) (s : State), s.Issues →
    let i := Instr.tqpop x d a
    let c := s.seen i
    let e := s.entering i
    let q := (c.uniform a).1.toNat
    (c.act = 0 → exec i s = .next (c.done e)) ∧
    ∀ l, Once c l (.k 0 d.toNat :: impliedK d.toNat 3 ++ srcNeed 1 1 a) → (c.uniform a).2 = false →
      (64 ≤ q → exec i s = .next (c.trapped e { cause := 0x24, lanes := bitOf l, d := (c.uniform a).1 })) ∧
      (q < 64 → e.popTask c.g.part q = none → exec i s = .next (c.blocked e { kind := 5, addr := BitVec.ofNat 64 q })) ∧
      (∀ y t, q < 64 → e.popTask c.g.part q = some (y, t) → e.vecOk c.die y.vec = true → t.vecOk c.die y.vec = true →
        exec i s = .next (c.done (c.popped (t.mergeStamp c.die y.vec) d y.entry)))) ∧
  (∀ (r : SplitRef) (z : Ctl) (d : BitVec 8) (a : Src) (x : Words) (y : Ready) (s t : State), s.Waiting r 5 (.tqpop z d a) x →
    let c := s.waiter r x
    let u : State := { s with cur := r }
    u.popTask c.g.part (s.blockOf r).addr.toNat = some (y, t) → u.vecOk c.die y.vec = true → t.vecOk c.die y.vec = true →
    exec (.tqpopWake r) s = .next (s.resumed r x (c.popped (t.mergeStamp c.die y.vec) d y.entry)))

/-- R159, R277: `fork` without an active lane does nothing; a single lane's record that is refused gives 1 and launches nothing; one that is
accepted gives 0, is launched with its parent's priority at most, and the parent is suspended on the counter that B names. FORK_RESUME makes
a parent whose counter has reached its threshold eligible. -/
def Sys2Proof.Machine.ForkResults : Prop :=
  (∀ (x : Ctl) (d : Dst) (a : Src) (b : BitVec 8) (s : State), s.Issues →
    let i := Instr.fork x d a b
    let c := s.seen i
    let e := s.entering i
    let id := at_ ({} : KReg) c.w.uni b.toNat
    let thr := at_ ({} : KReg) c.w.uni (b.toNat + 1)
    c.Usable c.act (dstNeed 1 d ++ srcNeed 1 2 a ++ (Need.k 2 b.toNat :: impliedK b.toNat 1)) →
    (c.act = 0 → exec i s = .next (c.done e)) ∧
    ∀ accs l bs, c.act ≠ 0 → id.poison = false → thr.poison = false → c.addresses e .glob a (.imm 0) = some accs →
      c.places e .glob .read .any 64 64 none accs = .ok [(l, .mem bs)] →
      ∀ e1, c.observe e none [.mem bs] 64 (some (BitVec.ofInt 64 ((accs.head?.map (·.2)).getD 0))) = .ok e1 →
      let rec_ := e1.readPlace c.die c.owner (.mem bs) 64
      let t := e1.closeEpoch c.die
      let lr := LaunchRec.of rec_.1
      let fn := (t.launches.getD c.g.launch {}).fn
      rec_.2 = false → e1.portsClear c.owner = true → e1.homeBusy c.die = false →
      (∀ t1 n t2, t.admitLaunch fn c.g.part (some c.g.lrec.asid) lr = (t1, .error n) →
        let ws := c.laneWrites d 1 [(l, [{ data := 1 }])]
        c.Trails t1 ws t2 → exec i s = .next (c.done (t2.writeRegs c.core c.slot ws))) ∧
      (∀ t1 h t2 p r, t.admitLaunch fn c.g.part (some c.g.lrec.asid) lr = (t1, .ok h) → bs = p :: r →
        let ws := c.laneWrites d 1 [(l, [{ data := 0 }])]
        c.Trails t1 ws t2 →
        let t3 := t2.writeRegs c.core c.slot ws
        let new : Launch :=
          { fn := fn, lpa := p.1, lrec := { lr with prio := min lr.prio c.g.prio }, hdr := h, part := c.g.part, host := false
            vec := t3.closedVec c.die }
        exec i s = .next (c.done ((t3.addLaunch new).modGroup c.core c.room fun g =>
          { g with phase := .suspended, wake := some (id.data.toNat % 65536, thr.data) })))) ∧
  (∀ (launch groupid id : Nat) (thr : W64) (v : Saved) (s : State), s.saved = [v] → v.launch = launch → v.groupid = groupid →
    v.wake = some (id, thr) →
    thr.toNat ≤ (get ({} : Counter) s.counters (counterKey (s.launches.getD launch {}).part id)).value.toNat →
    exec (.forkResume launch groupid) s = .next { s with saved := [{ v with eligible := true }] })

/-- tqpush, tqpop and fork -/
def Obligations.TaskAndForkResults : Prop := TaskResults ∧ ForkResults

end

namespace Sys2Proof.Machine

/-! ### Engine jobs (R115 to R129, R279 to R284) -/

/-- A job that has started, of a kind, with units left, none of which has failed (R117, R281). -/
structure Job.Runs (j : Job) (kind : Nat) : Prop where
  kind : j.card.kind = kind
  started : j.started = true
  going : j.ended = none
  left : j.next < j.card.units

/-- A job's engine. -/
def State.engineOf (s : State) (c : Nat) (j : Job) : Engine :=
  { core := c, room := j.room, who := .job c j.id, g := s.group c j.room, ord := j.card.ordered, priv := j.priv }

/-- A unit of a job is done, after its accesses gave t: it counts, owes its raise and countdowns, and its refusals are forgotten (R125, R128,
R129, R281). -/
def State.unitDone (t : State) (c id rd wr : Nat) : State := ((t.touched c id).owe c id rd wr).forget (.job c id)

/-- The element size of a courier or collective job (R281). -/
def Card.esize (c : Card) : Nat :=
  if c.kind = 2 then 4 * 2 ^ c.f0 3 2 else if c.f0 3 2 = 1 then 2 else 4

/-- The numbers of the last jobs submitted on the streams of a mask, packed as the record of a wait (R283, R356). -/
def lastJobs (subs : List Nat) (m : Nat) : Nat :=
  (List.range 4).foldl (fun (acc : Nat) st => if tbit m st then acc + (at_ 0 subs st + 65535) % 65536 * 2 ^ (16 * st) else acc) 0

/-! ### The matrix engine and map slots (R285 to R299) -/

/-- A ring that has a record to run, and none running (R291). -/
structure State.RingReady (s : State) (c n : Nat) : Prop where
  runs : s.mxRuns c n = true
  size : (s.room c n).ring.size ≠ 0
  go : (s.room c n).ring.halt = false
  more : (s.room c n).ring.dcnt ≠ (s.room c n).ring.qcnt
  idle : (s.room c n).ring.run = none

/-- A room's ring before an instruction. -/
def Ctx.ring (c : Ctx) (e : State) : Ring := (e.room c.core c.room).ring

/-- A ring with a field changed. -/
def Ctx.setRing (c : Ctx) (e : State) (f : Ring → Ring) : State := e.modRoom c.core c.room fun x => { x with ring := f x.ring }

/-- An address in a uniform, of the scratchpad or of global memory (R256, R296). -/
def Ctx.uniAddr (c : Ctx) (sp : Bool) (a : BitVec 8) : Nat :=
  if sp then (at_ ({} : KReg) c.w.uni a.toNat).data.toNat % 2 ^ 32 else (at_ ({} : KReg) c.w.uni a.toNat).data.toNat

/-- The space that `.sp` selects. -/
def spSpace (sp : Bool) : Space := if sp then .scratch else .glob

end Sys2Proof.Machine

section

open Sys2Proof.Machine Sys2Proof

/-- R118, R280, R282, R283: `jsub` takes the card as it stands, refuses a bad one with JCARD, and waits at a full scheduler or behind a submission
that waits; `jwait` waits for the warp's jobs of its streams, and acquires what their completions released; `jchk` gives the jobs in flight and what completed other than done, and clears that; `jcan` cancels what has performed
no access. Without an active lane they do nothing. -/
def Obligations.JobInstructions : Prop :=
  (∀ (x : Ctl) (a : BitVec 8) (s : State), s.Issues →
    let i := Instr.jsub x a
    let c := s.seen i
    let e := s.entering i
    let addr := c.uniAddr true a
    (c.act = 0 → exec i s = .next (c.done e)) ∧
    ∀ l, Once c l [.k 1 a.toNat] → (at_ ({} : KReg) c.w.uni a.toNat).poison = false →
      let q := e.submitters c.core
      (64 ≤ (e.core c.core).jobs.length ∨ (∃ w, q.head? = some w ∧ w ≠ (c.slot, c.sp)) →
        exec i s = .next (c.blocked (e.modCore c.core fun z => { z with jsubs := if (c.slot, c.sp) ∈ q then q else q ++ [(c.slot, c.sp)] })
          { kind := 7, addr := BitVec.ofNat 64 addr })) ∧
      ∀ ps, (e.core c.core).jobs.length < 64 → q = [] → c.range e .scratch .read l addr 128 128 = .ok ps →
        let bs := c.readRange e ps 64
        bs.2 = false →
        (∀ off, e.cardBad c.core c.g bs.1 = some off → exec i s = .next (c.trapped e
          { cause := 0x20, lanes := bitOf l, d := BitVec.ofNat 64 addr, a := BitVec.ofNat 64 off })) ∧
        (e.cardBad c.core c.g bs.1 = none →
          let k := Card.of bs.1
          let n := at_ 0 (e.warp c.core c.slot).subs k.stream
          let t := e.modWarp c.core c.slot fun w => { w with subs := w.subs.set k.stream ((n + 1) % 65536) }
          exec i s = .next (c.done (t.modCore c.core fun z => { z with
            jobSeq := z.jobSeq + 1
            jobs := z.jobs ++
              [{ id := z.jobSeq, room := c.room, slot := c.slot, num := n, cardAddr := addr, bytes := bs.1, card := k }] })))) ∧
  (∀ (x : Ctl) (m : BitVec 8) (s : State), s.Issues →
    let i := Instr.jwait x m
    let c := s.seen i
    let e := s.entering i
    let aux := lastJobs (e.warp c.core c.slot).subs m.toNat
    let mine := e.awaited c.core c.slot m.toNat aux
    (c.act = 0 → exec i s = .next (c.done e)) ∧
    let v := (e.warp c.core c.slot).jvec
    let b : Block := { kind := 12, value := m.setWidth 64, aux := BitVec.ofNat 64 aux }
    (c.act ≠ 0 → mine = [] → e.vecOk c.die v = true → exec i s = .next (c.done (e.mergeStamp c.die v))) ∧
    (c.act ≠ 0 → mine = [] → e.vecOk c.die v = false → exec i s = .next (c.blocked (e.askClose c.die c.die v) b)) ∧
    (c.act ≠ 0 → mine ≠ [] → exec i s = .next (c.blocked e b))) ∧
  (∀ (x : Ctl) (d st : BitVec 8) (s : State), s.Issues →
    let i := Instr.jchk x d st
    let c := s.seen i
    let e := s.entering i
    let n := ((e.core c.core).jobs.filter fun j => j.slot = c.slot && j.card.stream = st.toNat).length
    let p := at_ (0, 0) (e.group c.core c.room).jchk st.toNat
    (c.act = 0 → exec i s = .next (c.done e)) ∧
    ∀ l, Once c l [.k 0 d.toNat] →
      exec i s = .next (c.done (c.putK (e.modGroup c.core c.room fun g => { g with jchk := g.jchk.set st.toNat (0, 0) }) d
        (BitVec.ofNat 64 (n % 65536 + p.1 * 2 ^ 16 + p.2 % 256 * 2 ^ 32))))) ∧
  (∀ (x : Ctl) (m : BitVec 8) (s : State), s.Issues →
    let i := Instr.jcan x m
    let c := s.seen i
    let e := s.entering i
    (c.act = 0 → exec i s = .next (c.done e)) ∧
    (c.act ≠ 0 → exec i s = .next (c.done
      (((e.core c.core).jobs.filter fun j => j.slot = c.slot && tbit m.toNat j.card.stream && !j.performed).foldl
        (fun t j => t.finishJob c.core j.id 4) e)))) ∧
  (∀ (r : SplitRef) (i : Instr) (x : Words) (s : State), s.Waiting r 12 i x →
    let c := s.waiter r x
    let b := s.blockOf r
    let u : State := { s with cur := r }
    let v := (u.warp c.core c.slot).jvec
    u.awaited c.core c.slot b.value.toNat b.aux.toNat = [] → u.vecOk c.die v = true →
    exec (.jwaitEnd r) s = .next (s.resumed r x (u.mergeStamp c.die v)))

/-- R118, R119, R121 to R123: the scheduler, while it holds fewer than 64 jobs, accepts one, ordering it behind the earlier ones of its stream
that conflict with it; starts it once it is behind none and its start condition holds; and completes it, in a release, once all its units are
done, or one failed, and its updates made. -/
def Sys2Proof.Machine.JobScheduling : Prop :=
  (∀ (c : Nat) (j : Job) (s : State), (s.core c).jobs.find? (fun j => !j.accepted) = some j →
    ((s.core c).jobs.filter (·.accepted)).length < 64 →
    let g := s.group c j.room
    exec (.jobAccept c) s = .next (s.modJob c j.id fun y => { y with
      accepted := true
      edges := ((s.core c).jobs.filter fun k =>
        k.accepted && k.room = j.room && k.card.stream = j.card.stream && g.edge k.card j.card).map (·.id) })) ∧
  (∀ (c id : Nat) (j : Job) (s t : State), s.job? c id = some j → j.accepted = true → j.started = false → j.ended = none → j.edges = [] →
    (s.engineOf c j).start s j.card.startK j.card.startAddr j.card.startGen = .ok t →
    exec (.jobStart c id) s = .next ((t.modJob c id fun j => { j with started := true }).forget (.job c id))) ∧
  (∀ (c id : Nat) (j : Job) (s : State), s.job? c id = some j → ((j.started = true ∧ j.card.units ≤ j.next) ∨ j.ended.isSome = true) →
    j.owed = [] → s.portsClear (some (s.group c j.room).owner) = true → s.homeBusy (dieOf c) = false →
    let t := s.closeEpoch (dieOf c)
    let told := t.modWarp c j.slot fun w => { w with jvec := joinVec w.jvec (t.closedVec (dieOf c)) }
    (wideScope j.card.completion = false → exec (.jobComplete c id) s = .next (s.finishJob c id (j.ended.getD 0))) ∧
    (wideScope j.card.completion = true → s.settled c (some (s.group c j.room).owner) j.seq = true →
      exec (.jobComplete c id) s = .next (told.finishJob c id (j.ended.getD 0))))

/-- R117, R281: a unit of each kind of job: a porter's row, a courier's element, a collective's element and a requantiser's group. -/
def Sys2Proof.Machine.JobUnits : Prop :=
  (∀ (c id : Nat) (j : Job) (s s1 s2 : State) (bs : List (Byte × Bool)), s.job? c id = some j → j.Runs 1 →
    let x := s.engineOf c j
    let n := field j.card.p0.toNat 31 0
    j.read x s 0 ((j.card.region 0).base + j.next * j.card.p1.toInt) n = .ok (bs, s1) →
    j.write x s1 1 ((j.card.region 1).base + j.next * j.card.p2.toInt) bs = .ok s2 →
    exec (.porterRow c id) s = .next (s2.unitDone c id n n)) ∧
  (∀ (c id : Nat) (j : Job) (s s1 s2 s3 : State) (ib bs : List (Byte × Bool)), s.job? c id = some j → j.Runs 2 →
    let x := s.engineOf c j
    let es := j.card.esize
    let ia : Int := (j.card.region 2).base + 4 * j.next
    let k := ofBytes (ib.map (·.1))
    let gather := field j.card.p0.toNat 1 0 = 0
    let a : Int := (j.card.region 0).base + (if gather then k else j.next) * es
    let b : Int := (j.card.region 1).base + (if gather then j.next else k) * es
    ia % 4 = 0 → j.read x s 2 ia 4 = .ok (ib, s1) → (∀ y ∈ ib, y.2 = false) → a % es = 0 → j.read x s1 0 a es = .ok (bs, s2) → b % es = 0 →
    j.write x s2 1 b bs = .ok s3 → exec (.courierElement c id) s = .next (s3.unitDone c id es es)) ∧
  (∀ (c id : Nat) (j : Job) (s s1 s2 : State) (v : Option (Nat × Bool)), s.job? c id = some j → j.Runs 3 →
    let x := s.engineOf c j
    let es := j.card.esize
    let ks := (if field j.card.p0.toNat 4 4 = 1 then [0] else []) ++ (List.range (field j.card.p0.toNat 6 5)).map (· + 1)
    let a : Int := (j.card.region 0).base + j.next * es
    let y := v.getD (0, false)
    j.gather x es ks none s = .ok (v, s1) → a % es = 0 →
    j.write x s1 0 a ((leBytes es (if y.2 then 0 else y.1)).map fun b => (b, y.2)) = .ok s2 →
    exec (.collectiveElement c id) s = .next (s2.unitDone c id (es * ks.length) es)) ∧
  (∀ (c id : Nat) (j : Job) (q : Requant) (t : Taken) (s s1 : State), s.job? c id = some j → j.Runs 4 → j.card.requant = some q →
    q.tdesc = true →
    let x := s.engineOf c j
    let n := Elem.count q.dst
    let per := (q.dcols + n - 1) / n
    let row := j.next / per
    let grp := j.next % per
    j.elements x q row ((List.range n).map fun i => grp * n + i) { s := s, rd := [], vals := [] } = .ok t →
    let es := match q.dst with
      | .cb b => (List.range 16).map fun i => (at_ ({} : Codebook) (t.s.core c).books b).entry (x.g.launch, x.g.gang) i
      | .flt _ | .int8 => []
    j.write x t.s 1 ((j.card.region 1).base + row * rowBytes q.dst true q.dcols + grp * 64)
      ((requantiseBlock q.dst es (RM.of j.card.rm) t.vals).map fun b => (b, false)) = .ok s1 →
    exec (.requantiseGroup c id) s = .next (s1.unitDone c id t.rd.length 64))

/-- R125, R126, R128, R129, R405: a job's sync word is raised by the bytes of a unit once they are performed, and its barrier counted down. -/
def Sys2Proof.Machine.JobUpdates : Prop :=
  (∀ (c id : Nat) (j k : Job) (o : Count) (p : Place) (bs : List Byte) (s : State), s.job? c id = some j →
    let x := s.engineOf c j
    j.takeOwed (fun o => o.kind = 0) = some (o, k) → s.settled c x.owner o.seq = true → x.object s .rmw j.card.swAddr 8 = .ok (p, bs) →
    exec (.syncRaise c id) s = .next
      (((x.update s p (leBytes 8 (syncRaise (ofBytes bs) o.bytes))).modJob c id fun _ => k).forget (.job c id))) ∧
  (∀ (c id : Nat) (j k : Job) (o : Count) (p : Place) (bs : List Byte) (b : Barrier) (s : State), s.job? c id = some j →
    let x := s.engineOf c j
    j.takeOwed (fun o => o.kind ≠ 0 && (o.kind = 2 || s.settled c x.owner o.seq)) = some (o, k) →
    x.object s .rmw j.card.barAddr 16 = .ok (p, bs) → (Barrier.of bs).countDown (o.kind = 2) o.bytes = some b →
    exec (.barrierCountdown c id) s = .next (((x.update s p b.bytes).modJob c id fun _ => k).forget (.job c id)))

/-- Accepting, starting, running and completing jobs, and their updates of objects -/
def Obligations.JobSteps : Prop := JobScheduling ∧ JobUnits ∧ JobUpdates

/-- R290: `mxq` queues records and gives QCNT, waits for room, and raises MXR for a count that the ring cannot hold; `mxrun` resumes, skips or
aborts a halted record; `mxcfg` places an idle ring; `mxwait` gives DCNT once it is reached, raises MXH at a halt, and waits otherwise. -/
def Sys2Proof.Machine.MatrixRingInstructions : Prop :=
  (∀ (x : Ctl) (d : BitVec 8) (a : Src) (s : State), s.Issues →
    let i := Instr.mxq x d a
    let c := s.seen i
    let e := s.entering i
    let r := c.ring e
    let n := (c.uniform a).1.toNat
    (c.act = 0 → exec i s = .next (c.done e)) ∧
    ∀ l, Once c l (.k 0 d.toNat :: srcNeed 1 1 a) → (c.uniform a).2 = false →
      (r.size = 0 ∨ n = 0 ∨ r.size < n → exec i s = .next (c.trapped e
        { cause := 0x22, lanes := bitOf l, d := BitVec.ofNat 64 n, a := BitVec.ofNat 64 r.size })) ∧
      (n ≠ 0 → n ≤ r.size → e.portsClear c.owner = true → e.homeBusy c.die = false → (r.qcnt - r.dcnt).toNat + n ≤ r.size →
        exec i s = .next (c.done (c.putK (c.setRing e fun r => { r with qcnt := (c.ring e).qcnt + BitVec.ofNat 32 n }) d
          ((r.qcnt + BitVec.ofNat 32 n).setWidth 64)))) ∧
      (n ≠ 0 → n ≤ r.size → e.portsClear c.owner = true → e.homeBusy c.die = false → r.size < (r.qcnt - r.dcnt).toNat + n →
        exec i s = .next (c.blocked e { kind := 9, value := BitVec.ofNat 64 n }))) ∧
  (∀ (i : Instr) (x : Ctl) (s : State), (i = .mxrunResume x ∨ i = .mxrunSkip x ∨ i = .mxrunAbort x) → s.Issues →
    let c := s.seen i
    let e := s.entering i
    let r := c.ring e
    (c.act = 0 → exec i s = .next (c.done e)) ∧
    (c.act ≠ 0 → e.portsClear c.owner = true → e.homeBusy c.die = false →
      (r.halt = false → exec i s = .next (c.done e)) ∧
      (r.halt = true → i = .mxrunResume x → exec i s = .next (c.done (c.setRing e fun r => { r with halt := false, how := .resume }))) ∧
      (r.halt = true → i = .mxrunSkip x → exec i s = .next (c.done (c.setRing (e.setStatus c.core c.room r.dcnt.toNat 6) fun r =>
        { r with halt := false, dcnt := r.dcnt + 1 }))) ∧
      (r.halt = true → i = .mxrunAbort x → exec i s = .next (c.done (c.setRing
        ((List.range (r.qcnt - r.dcnt).toNat).foldl (fun t n => t.setStatus c.core c.room (r.dcnt + BitVec.ofNat 32 n).toNat 7) e)
        fun z => { z with halt := false, dcnt := r.qcnt }))))) ∧
  (∀ (x : Ctl) (a ex : BitVec 8) (s : State), s.Issues →
    let i := Instr.mxcfg x a ex
    let c := s.seen i
    let e := s.entering i
    let r := c.ring e
    let addr := c.uniAddr true a
    (c.act = 0 → exec i s = .next (c.done e)) ∧
    ∀ l ps, Once c l [.k 1 a.toNat] → (at_ ({} : KReg) c.w.uni a.toNat).poison = false →
      c.range e .scratch .read l addr (64 * 2 ^ ex.toNat) 64 = .ok ps →
      (r.qcnt = r.dcnt → r.halt = false →
        exec i s = .next (c.done (c.setRing e fun r => { r with base := addr, size := 2 ^ ex.toNat, held := [] }))) ∧
      (r.qcnt ≠ r.dcnt ∨ r.halt = true → exec i s = .next (c.blocked e { kind := 9, value := BitVec.ofNat 64 addr }))) ∧
  (∀ (x : Ctl) (d : BitVec 8) (a : Src) (s : State), s.Issues →
    let i := Instr.mxwait x d a
    let c := s.seen i
    let e := s.entering i
    let r := c.ring e
    let n : W32 := (c.uniform a).1.setWidth 32
    (c.act = 0 → exec i s = .next (c.done e)) ∧
    ∀ l, Once c l (.k 0 d.toNat :: srcNeed 1 1 a) → (c.uniform a).2 = false →
      ((r.dcnt - n).toNat < 2 ^ 31 → exec i s = .next (c.done (c.putK e d (r.dcnt.setWidth 64)))) ∧
      (2 ^ 31 ≤ (r.dcnt - n).toNat → r.halt = true → exec i s = .next (c.trapped e
        { cause := 0x23, lanes := bitOf l
          d := BitVec.ofNat 64 (((e.spRead c.core c.room (r.addr r.dcnt.toNat + 2) 1).1.headD 0).toNat / 16)
          imm := some (r.dcnt.setWidth 64) })) ∧
      (2 ^ 31 ≤ (r.dcnt - n).toNat → r.halt = false → exec i s = .next (c.blocked e { kind := 9, value := n.setWidth 64 })))

/-- R294: `mxcb` gives a codebook to its gang, on every core of the gang, and waits while another gang holds it. -/
def Sys2Proof.Machine.CodebookLoads : Prop :=
  ∀ (x : Ctl) (a : BitVec 8) (sp : Bool) (j : BitVec 3) (s : State), s.Issues →
    let i := Instr.mxcb x a sp j
    let c := s.seen i
    let e := s.entering i
    let cores := e.gangCores c.g
    let mine := (c.g.launch, c.g.gang)
    let addr := c.uniAddr sp a
    (c.act = 0 → exec i s = .next (c.done e)) ∧
    ∀ l, Once c l [.k 1 a.toNat] → (at_ ({} : KReg) c.w.uni a.toNat).poison = false →
      ((∃ k ∈ cores, ∃ h, (at_ ({} : Codebook) (e.core k).books j.toNat).holder = some h ∧ h ≠ mine) →
        exec i s = .next (c.blocked e { kind := 10, addr := BitVec.ofNat 64 addr, value := BitVec.ofNat 64 j.toNat })) ∧
      ∀ ps, (∀ k ∈ cores, ∀ h, (at_ ({} : Codebook) (e.core k).books j.toNat).holder = some h → h = mine) →
        c.range e (spSpace sp) .read l addr 32 2 = .ok ps →
        ∀ e1, c.observe e none ps 2 (some (BitVec.ofNat 64 addr)) = .ok e1 →
        let book : Codebook := { holder := some mine, bytes := (c.readRange e1 ps 2).1, poison := (c.readRange e1 ps 2).2 }
        exec i s = .next (c.done (cores.foldl (fun t k => t.modCore k fun y => { y with books := y.books.set j.toNat book }) e1))

/-- R290, R294: a blocked `mxq`, `mxcfg`, `mxwait` or `mxcb` goes on once the ring or the codebook lets it. -/
def Sys2Proof.Machine.EngineWaitsEnd : Prop :=
  ∀ (r : SplitRef) (x : Words) (s : State) (y : Ctl),
    let c := s.waiter r x
    let u : State := { s with cur := r }
    let b := s.blockOf r
    let q := c.ring u
    (∀ d a, s.Waiting r 9 (.mxq y d a) x → (q.qcnt - q.dcnt).toNat + b.value.toNat ≤ q.size →
      exec (.engineWaitEnd r) s = .next (s.resumed r x (c.putK (c.setRing u fun z => { z with qcnt := q.qcnt + BitVec.ofNat 32 b.value.toNat }) d
        ((q.qcnt + BitVec.ofNat 32 b.value.toNat).setWidth 64)))) ∧
    (∀ a ex, s.Waiting r 9 (.mxcfg y a ex) x → q.qcnt = q.dcnt → q.halt = false →
      exec (.engineWaitEnd r) s = .next (s.resumed r x (c.setRing u fun z =>
        { z with base := b.value.toNat, size := 2 ^ ex.toNat, held := [] }))) ∧
    (∀ d a, s.Waiting r 9 (.mxwait y d a) x → (q.dcnt - b.value.setWidth 32).toNat < 2 ^ 31 →
      exec (.engineWaitEnd r) s = .next (s.resumed r x (c.putK u d (q.dcnt.setWidth 64)))) ∧
    (∀ a sp j t, s.Waiting r 10 (.mxcb y a sp j) x → c.loadBook u c.first sp j.toNat b.addr.toNat = .ok t →
      exec (.engineWaitEnd r) s = .next (s.resumed r x t))

/-- mxq, mxrun, mxcfg, mxwait and mxcb, and how their waits end -/
def Obligations.MatrixInstructions : Prop := MatrixRingInstructions ∧ CodebookLoads ∧ EngineWaitsEnd

/-- R75, R80, R121, R291, R292: the matrix engine fetches a well-formed record, and halts its ring at a malformed one with STATUS 3; starts it once
its condition holds, with the codebooks of that moment, an initialise record clearing its tile's poison; in the turn of its room, when no room
before it has work, it runs a zero fill in one step, and K-blocks one by one, and completes the record after the last. -/
def Obligations.MatrixSteps : Prop :=
  (∀ (c n : Nat) (bs : List Byte) (s : State), s.RingReady c n → s.spRead c n ((s.room c n).ring.addr (s.room c n).ring.dcnt.toNat) 64 = (bs, false) →
    (s.room c n).ring.how = .fetch →
    let r : BitVec 512 := BitVec.ofNat 512 (ofBytes bs)
    let t := s.modRing c n fun r => { r with how := .fetch, books := none }
    (t.malformed (s.mxEngine c n) r = true → exec (.mxRecordFetch c n) s = .next (t.haltRing c n 3 none)) ∧
    let q : Running := { rec_ := r, how := .fetch, started := false, step := recProgress r, books := (t.core c).books }
    (t.malformed (s.mxEngine c n) r = false → exec (.mxRecordFetch c n) s = .next (t.modRing c n fun x => { x with run := some q }))) ∧
  (∀ (c n : Nat) (q : Running) (s t : State), (s.room c n).ring.run = some q → q.started = false → s.mxRuns c n = true →
    (s.mxEngine c n).start s (recField q.rec_ 9 8) (recField q.rec_ 127 96) (recField q.rec_ 31 24) = .ok t →
    let u := if recOp q.rec_ = 2 ∧ recProgress q.rec_ = 0 then t.setTilePoison c (t.tileOf (s.mxEngine c n) q.rec_) false else t
    exec (.mxRecordStart c n) s = .next (u.modRing c n fun r => { r with run := some { q with started := true, books := (t.core c).books } })) ∧
  (∀ (c n : Nat) (q : Running) (s : State), (s.room c n).ring.run = some q → q.started = true → s.mxRuns c n = true → q.arrive = false →
    (∀ m ∈ (s.core c).asksBefore n, (s.mxTry c m).1 = false) →
    let x := s.mxEngine c n
    let s1 := s.modCore c fun k => { k with mxTurn := n }
    (∀ t, recOp q.rec_ = 3 →
      let a := s1.tileOf x q.rec_
      let s2 := s1.modCore c fun k => { k with acc := k.acc.write accGrain x.owner (a * 24576) (List.replicate 24576 0) false }
      (s2.setTilePoison c a false).mxComplete x q = .ok t → exec (.mxKblock c n) s = .next t) ∧
    (∀ t u, recOp q.rec_ ≠ 3 → s1.kblock x q = .ok (some t, u) →
      let q' := { q with step := q.step + 8 }
      let v := (t.modRing c n fun r => { r with run := some q' }).forget (.mx c n)
      (q'.step < recSteps q.rec_ → exec (.mxKblock c n) s = .next v) ∧
      (∀ z, recSteps q.rec_ ≤ q'.step → v.mxComplete x q' = .ok z → exec (.mxKblock c n) s = .next z)))

/-- R55, R56, R295, R296: `mapbind` reads a descriptor and loads its matrix into the handle's slot, or the lowest free one, and waits where none is
free; `mapld` and `mapst` move the matrix of a bound handle; `maprel` frees it; `mapinfo` tells of it. SLOTD and SLOTU stand for what is
refused. -/
def Obligations.MapSlotResults : Prop :=
  (∀ (i : Instr) (x : Ctl) (h : BitVec 2) (a : BitVec 8) (sp : Bool) (s : State),
    (i = .mapbind x h a sp ∨ i = .mapld x h a sp ∨ i = .mapst x h a sp) → s.Issues →
    let c := s.seen i
    let e := s.entering i
    let addr := c.uniAddr sp a
    (c.act = 0 → exec i s = .next (c.done e)) ∧
    ∀ l, Once c l [.k 1 a.toNat] →
      (c.g.hdr.slots ≤ h.toNat → exec i s = .next (c.trapped e { cause := 0x2A, lanes := bitOf l, d := h.setWidth 64 })) ∧
      (h.toNat < c.g.hdr.slots → (at_ ({} : KReg) c.w.uni a.toNat).poison = false →
        (i = .mapbind x h a sp →
          ∀ ps e1, c.range e (spSpace sp) .read l addr 16 16 = .ok ps → c.observe e none ps 16 (some (BitVec.ofNat 64 addr)) = .ok e1 →
            (c.readRange e1 ps 16).2 = false →
            let d : BitVec 128 := BitVec.ofNat 128 (ofBytes (c.readRange e1 ps 16).1)
            let m : Int := addr + (d.extractLsb' 64 64).toInt
            let slot := match c.binding e1 h with
              | some b => some b.slot
              | none => e1.freeSlot c.core
            ((descOk d = false ∨ m % descEsize d ≠ 0) →
              exec i s = .next (c.trapped e1 { cause := 0x2A, lanes := bitOf l, d := h.setWidth 64 })) ∧
            (descOk d = true → m % descEsize d = 0 →
              (slot = none → exec i s = .next (c.blocked e1
                { kind := 6, addr := BitVec.ofNat 64 addr, value := h.setWidth 64 })) ∧
              ∀ k qs e2, slot = some k →
                c.range e1 (spSpace sp) .read l (if sp then (if m < 0 then 2 ^ 32 else m.toNat) else (m % 2 ^ 64).toNat) (descBytes d)
                  (descEsize d) = .ok qs →
                c.observe e1 none qs (descEsize d) (some (BitVec.ofNat 64 addr)) = .ok e2 →
                let r := c.readRange e2 qs (descEsize d)
                exec i s = .next (c.done ((e2.loadSlot c.core c.owner k r.1 r.2).modGroup c.core c.room fun g =>
                  { g with handles := g.handles.set h.toNat (some { slot := k, desc := d }) })))) ∧
        (i ≠ .mapbind x h a sp → c.binding e h = none →
          exec i s = .next (c.trapped e { cause := 0x28, lanes := bitOf l, d := h.setWidth 64 })) ∧
        (∀ b ps e1, i = .mapld x h a sp → c.binding e h = some b →
          c.range e (spSpace sp) .read l addr (descBytes b.desc) (descEsize b.desc) = .ok ps →
          c.observe e none ps (descEsize b.desc) (some (BitVec.ofNat 64 addr)) = .ok e1 →
          let r := c.readRange e1 ps (descEsize b.desc)
          exec i s = .next (c.done (e1.loadSlot c.core c.owner b.slot r.1 r.2))) ∧
        (∀ b ps, i = .mapst x h a sp → c.binding e h = some b →
          c.range e (spSpace sp) .write l addr (descBytes b.desc) (descEsize b.desc) = .ok ps →
          let r := e.slotBytes c.core c.owner b.slot (descBytes b.desc)
          let n := descEsize b.desc
          exec i s = .next (c.done (e.writePlaces c.die c.owner false (ps.zipIdx.map fun p => (p.1, (r.1.drop (n * p.2)).take n, r.2))))))) ∧
  (∀ (x : Ctl) (h : BitVec 2) (s : State), s.Issues →
    let i := Instr.maprel x h
    let c := s.seen i
    let e := s.entering i
    (c.act = 0 → exec i s = .next (c.done e)) ∧
    ∀ l, Once c l [] → h.toNat < c.g.hdr.slots →
      exec i s = .next (c.done (e.modGroup c.core c.room fun g => { g with handles := g.handles.set h.toNat none }))) ∧
  (∀ (x : Ctl) (d : BitVec 8) (h : BitVec 2) (s : State), s.Issues →
    let i := Instr.mapinfo x d h
    let c := s.seen i
    let e := s.entering i
    (c.act = 0 → exec i s = .next (c.done e)) ∧
    ∀ l, Once c l [.k 0 d.toNat] →
      (c.binding e h = none → exec i s = .next (c.done (c.putK e d 0x00FF0000))) ∧
      ∀ b, c.binding e h = some b →
        exec i s = .next (c.done (c.putK e d (BitVec.ofNat 64 (b.desc.toNat % 2 ^ 16 + b.slot * 2 ^ 16 + 2 ^ 24 +
          if (e.slotBytes c.core c.owner b.slot 1).2 then 2 ^ 25 else 0))))) ∧
  (∀ (r : SplitRef) (i : Instr) (x : Words) (y : Ctl) (s t : State),
    let c := s.waiter r x
    let u : State := { s with cur := r }
    let b := s.blockOf r
    (∀ h a sp, i = .mapbind y h a sp → s.Waiting r 6 i x → c.bind u c.first h sp b.addr.toNat = .ok t →
      exec (.blockedWaitEnd r) s = .next (s.resumed r x t)) ∧
    (∀ a, i = .jsub y a → s.Waiting r 7 i x → c.submit u c.first b.addr.toNat = .ok t →
      exec (.blockedWaitEnd r) s = .next (s.resumed r x t)))

end

namespace Sys2Proof.Machine

/-! ### Search (R300 to R321) -/

/-- A search instruction that scatters its lanes: what it touches, and what a lane does (R314 to R316). -/
structure SearchRule where
  needs : List Need
  /-- Operands of which a poisoned one is uncorrectable consumption, lane by lane. -/
  clean : Ctx → State → Nat → Bool
  big : Ctx → State → LaneMask
  /-- The access that a lane makes even where its headers cannot be read. -/
  pre : Ctx → State → Nat → Lane Unit := fun _ _ _ => pure ()
  lane : Ctx → State → Work2 → Nat → Lane (Work2 × W64)

/-- `trye`, `fail` and `cpchk`: each lane makes a choice point, backtracks, or counts its choice points (R314 to R316, R319). -/
def searchRule (i : Instr) : Option SearchRule :=
  match i with
  | .trye _ d a b => some
      { needs := dstNeed 1 d ++ srcNeed 1 2 a ++ srcNeed 2 1 b
        clean := fun c e l => !((at_ {} (c.wvec e c.act a) l).poison || (at_ {} (c.vec e c.act b .i32) l).poison)
        big := fun c e => maskOf fun l => lane c.act l && 65535 < (at_ {} (c.vec e c.act b .i32) l).data.toNat
        pre := fun c e l => c.firstAlt e l (at_ {} (c.wvec e c.act a) l).data.toNat (at_ {} (c.vec e c.act b .i32) l).data.toNat
        lane := fun c e w l => c.tryLane d (at_ {} (c.wvec e c.act a) l).data.toNat (at_ {} (c.vec e c.act b .i32) l).data.toNat w l }
  | .fail _ => some { needs := [], clean := fun _ _ _ => true, big := fun _ _ => 0, lane := fun c _ w l => c.backtrack w l }
  | .cpchk _ d => some
      { needs := dstNeed 1 d, clean := fun _ _ _ => true, big := fun _ _ => 0
        lane := fun c _ w l => do
          let o ← c.oldest w.s l
          if (o.map (·.revoked)).getD false then c.backtrack w l
          else
            let h ← c.header w.s l
            let w ← c.putLane w l (c.number d.n.toNat d.ix l).toNat { data := BitVec.ofNat 32 ((h.cptop - h.base) / 32) }
            return (w, c.after) }
  | _ => none

/-- A lane that holds no choice point is given an empty header (R312). -/
def freshHeader (units level satchel : Nat) : SHdr :=
  { cptop := 0x20 + 32 * units, trtop := satchel, serial := 1, units := units, level := level, exhausted := false, thefts := 0, given := 0 }

/-- The next PCs of lanes, by lane. -/
def pcOf (pcs : List (Nat × W64)) (l : Nat) : W64 := ((pcs.find? fun p => p.1 = l).map (·.2)).getD 0

end Sys2Proof.Machine

section

open Sys2Proof.Machine Sys2Proof

/-- R310, R312, R313: `srchbeg` opens a region: an empty header for each lane, a JOIN entry from PEND, and sr.satchel; `srchend` by exactly the
region's lanes closes it, and headers stay. -/
def Sys2Proof.Machine.SearchRegions : Prop :=
  (∀ (x : Ctl) (u : BitVec 8) (off : BitVec 24) (pend : W64) (t : State) (pcs : List (Nat × W64)) (s : State), s.Issues →
    let i := Instr.srchbeg x u off
    let c := s.seen i
    let e := s.entering i
    let n := c.w.nestOf c.x.mask + 1
    let exh := (c.x.pc + BitVec.ofInt 64 (4 * off.toInt)).toNat % 2 ^ 32
    tbit c.g.hdr.flags 1 = true → c.w.handler = false → c.w.regionOpen = false → c.x.pend = some pend →
    0x20 + 32 * u.toNat + 48 ≤ c.g.hdr.satchel → (∀ l ∈ lanesOf c.x.mask, at_ 0 c.w.nest l ≠ 255) → c.w.stack.length < 4096 →
    c.perLane e e (fun w l => do return ({ w with s := ← c.setHeader w.s l (freshHeader u.toNat n c.g.hdr.satchel) }, c.after)) = .ok (t, pcs) →
    exec i s = .next (c.done (t.modWarp c.core c.slot fun w => { w with
      stack := { join := true, pc := pend, mask := c.x.mask, arrived := 0, ra := c.x.ra, nest := n } :: w.stack
      nest := nestMap w.nest c.x.mask (· + 1)
      splits := modifyAt w.splits c.sp (Option.map fun y => { y with ra := some pend, pend := none })
      satchel := BitVec.ofNat 64 (c.x.mask.toNat * 2 ^ 32 + exh / 4 * 4 + 1) }))) ∧
  (∀ (x : Ctl) (s : State), s.Issues →
    let i := Instr.srchend x
    let c := s.seen i
    let e := s.entering i
    tbit c.g.hdr.flags 1 = true → c.w.handler = false → c.w.regionOpen = true → c.x.mask = c.w.rmask →
    exec i s = .next (c.done (e.modWarp c.core c.slot fun w => { w with satchel := w.satchel &&& 0xFFFFFFFC })))

/-- R310, R314 to R316, R319: `trye`, `fail` and `cpchk` do each lane's part in ascending order and send the lanes to their next PCs, with no JOIN
pushed. -/
def Sys2Proof.Machine.SearchScatters : Prop :=
  ∀ (i : Instr) (r : SearchRule) (s t : State) (hs : List (Nat × SHdr)) (pcs : List (Nat × W64)) (w : Warp), searchRule i = some r → s.Issues →
    let c := s.seen i
    let e := s.entering i
    c.Usable c.act r.needs → (∀ l ∈ lanesOf c.act, r.clean c e l = true) → c.searchEnter e = .ok () → c.searchCheck e (r.big c e) = .ok hs →
    c.perLane e e (r.lane c e) (r.pre c e) = .ok (t, pcs) →
    (t.warp c.core c.slot).diverge c.sp (pathsOf c.x.mask (pcOf pcs)) false c.x.pc = .ok w →
    exec i s = .next (c.jumped (t.setWarp c.core c.slot w))

/-- srchbeg and srchend; trye, fail and cpchk -/
def Obligations.SearchRegionsAndScatters : Prop := SearchRegions ∧ SearchScatters

/-- R316, R317: `cut` discards each lane's choice points from its mark on, `cpmark` gives each lane its SERIAL, and `trst` stores in the satchel
after recording the old bytes. -/
def Sys2Proof.Machine.SearchUpdates : Prop :=
  ∀ (s t : State) (hs : List (Nat × SHdr)) (pcs : List (Nat × W64)) (x : Ctl), s.Issues →
    (∀ a : Src,
      let i := Instr.cut x a
      let c := s.seen i
      let e := s.entering i
      let mark := c.vec e c.act a .i32
      c.Usable c.act (srcNeed 1 1 a) → (∀ l ∈ lanesOf c.act, (at_ {} mark l).poison = false) → c.searchEnter e = .ok () →
      c.searchCheck e = .ok hs →
      c.perLane e e (fun w l => do
        let s ← c.discard c.depth w.s l fun k => (at_ {} mark l).data.toNat ≤ k.serial
        return ({ w with s := s }, c.after)) = .ok (t, pcs) →
      exec i s = .next (c.done t)) ∧
    (∀ d : Dst,
      let i := Instr.cpmark x d
      let c := s.seen i
      let e := s.entering i
      c.Usable c.act (dstNeed 1 d) → c.searchCheck e = .ok hs →
      c.perLane e e (fun w l => do
        let h ← c.header w.s l
        let w ← c.putLane w l (c.number d.n.toNat d.ix l).toNat { data := BitVec.ofNat 32 h.serial }
        return (w, c.after)) = .ok (t, pcs) →
      exec i s = .next (c.done t)) ∧
    (∀ (b64 : Bool) (d : Dst) (a b : Src),
      let i := Instr.trst x b64 d a b
      let c := s.seen i
      let e := s.entering i
      let va := c.vec e c.act a .i32
      let vb := c.offsets e (.src b)
      let k := if b64 then 2 else 1
      let ea := fun (l : Nat) => ((at_ {} va l).data.toNat : Int) + (at_ {} vb l).data.toInt
      c.Usable c.act (dstNeed k d ++ srcNeed 1 1 a ++ srcNeed 2 1 b) →
      (∀ l ∈ lanesOf c.act, (at_ {} va l).poison = false ∧ (at_ {} vb l).poison = false) → c.searchEnter e = .ok () →
      c.searchCheck e 0 (fun l h => decide (ea l < 0x20 ∨ ((h.map fun h => 0x20 + 32 * h.units).getD c.g.hdr.satchel : Nat) < ea l + 4 * k)) = .ok hs →
      c.perLane e e (fun w l => do
        let ws := (List.range k).map fun j => c.vlane e ((c.number d.n.toNat d.ix l).toNat + j) l
        return (← c.storeTrailed (4 * k) ws (ea l) w l, c.after)) = .ok (t, pcs) →
      exec i s = .next (c.done t))

/-- R318: `steal` lets each lane without a choice point, in ascending order, take an alternative of the next lane that has one; the lanes that stole
nothing learn whether work is left. -/
def Sys2Proof.Machine.Thefts : Prop :=
  ∀ (x : Ctl) (d : Dst) (s t u : State) (hs : List (Nat × SHdr)) (got asked : List (Nat × W64)) (w : Warp), s.Issues →
    let i := Instr.steal x d
    let c := s.seen i
    let e := s.entering i
    let idle := got.filter fun p => p.2 = -1
    let c' := { c with act := maskOf fun l => idle.any fun p => p.1 = l }
    c.Usable c.act (dstNeed 1 d) → c.searchCheck e = .ok hs →
    c.perLane e e (fun w l => do
      let q ← c.stealLane w l
      return (q.1, q.2.getD (-1))) = .ok (t, got) →
    c'.perLane e t (fun w l => do
      let yes ← c.working w.s (lanesOf c.w.rmask)
      let w ← c.putLane w l (c.number d.n.toNat d.ix l).toNat { data := if yes then 1 else 0 }
      return (w, c.after)) = .ok (u, asked) →
    (u.warp c.core c.slot).diverge c.sp (pathsOf c.x.mask (pcOf (got.map fun p => if p.2 = -1 then (p.1, c.after) else p))) false c.x.pc = .ok w →
    exec i s = .next (c.jumped (u.setWarp c.core c.slot w))

/-- cut, cpmark, trst and steal -/
def Obligations.SearchUpdatesAndThefts : Prop := SearchUpdates ∧ Thefts

/-- R302, R306, R308: satchel headers, choice points and trail entries are 32, 32 and 16 bytes that read back as they were. -/
def Obligations.SearchRecords : Prop :=
  (∀ h : SHdr, h.cptop < 2 ^ 32 → h.trtop < 2 ^ 32 → h.serial < 2 ^ 32 → h.units < 256 → h.level < 256 → h.thefts < 2 ^ 32 → h.given < 2 ^ 32 →
    SHdr.of h.bytes = h ∧ h.bytes.length = 32) ∧
  (∀ k : Choice, k.alts < 2 ^ 64 → k.count < 65536 → k.next < 65536 → k.tmark < 2 ^ 32 → k.resume < 2 ^ 32 → k.dreg < 256 → k.origin < 32 →
    k.serial < 2 ^ 32 → Choice.of k.bytes = k ∧ k.bytes.length = 32) ∧
  (∀ (kind place old : Nat) (oldp : Bool), kind < 4 → place < 2 ^ 60 → old < 2 ^ 64 →
    let bs := trailEntry kind oldp place old
    let lo := ofBytes (bs.take 8)
    bs.length = 16 ∧ lo % 4 = kind ∧ lo / 8 = place ∧ tbit lo 2 = oldp ∧ ofBytes (bs.drop 8) = old)

end

/-! ### Steps of the device's other agents -/

namespace Sys2Proof.Machine

/-- The saved groups that the rooms of a gang restore, each from the record that its card names. -/
def State.savedMembers (s : State) (c n : Nat) (ms : List (Nat × Nat)) : List ((Nat × Nat) × Saved) :=
  ms.filterMap fun r => (s.savedOf (s.group c n).launch (s.group r.1 r.2).groupid).map fun v => (r, { v with ctx := (s.group r.1 r.2).ctx })

/-- The members of a gang placed, their storage and map slots rewritten, and member 0's codebooks restored (R352). -/
def State.gangBack (s : State) (c n : Nat) (ms : List (Nat × Nat)) (vs : List ((Nat × Nat) × Saved)) : Option State := do
  let g := s.group c n
  let s ← vs.foldlM (fun s p => s.placeGroup p.1.1 p.1.2
    ((p.2.warps.map fun w => (w.1, s.recWarp p.2.ctx g.hdr w.1 w.2)).filter fun w => w.2.live)) (s.beginSlice (clusterOf c) g.part)
  let s ← vs.foldlM (fun s p => s.restoreSlots p.1.1 p.1.2 p.2) (vs.foldl (fun s p => s.restoreStorage p.1.1 p.1.2 p.2) s)
  match vs.find? fun p => p.2.groupid % max 1 g.hdr.gang = 0 with
  | some p => s.restoreBooks ((ms.map (·.1)).eraseDups) p.2 (g.launch, g.gang)
  | none => some s

/-- R331: a tenant's groups are on a cluster, it neither drains nor saves nor is late with a save, and its slice is over while another tenant waits for the cluster, or a
launch of higher priority, with what it gains by waiting, does. -/
def State.sliceOver (s : State) (cl : Nat) (x : Share) : Prop :=
  let gs := (s.tenantRooms cl x.part).map fun r => s.group r.1 r.2
  x.cluster = cl ∧ gs ≠ [] ∧ x.draining = false ∧ x.saving = none ∧ x.late = false ∧
    ((x.since + s.sliceNs x gs ≤ s.gtime ∧ ∃ l ∈ s.waitingFor cl, l.part ≠ x.part) ∨
     ∃ l ∈ s.waitingFor cl, (gs.map (·.prio)).foldl max 0 < s.rank l)

/-- R65, R87, R89, R109, R113, R134: a write that waits at a die was delivered, the die's marks admit its stamp, no earlier write of its origin to
the same bytes waits, its home can take it, and earlier posted writes of the same function are applied. -/
def State.Admits (s : State) (r : Remote) : Prop :=
  r.here = true ∧
  ((r.src = r.dst ∧ r.ext = false ∧ r.inval = false) ∨
    ((r.src ≠ r.dst → vcAt r.stamp r.src - 1 ≤ vcAt (s.die r.dst).marks r.src) ∧
      ∀ j < 8, j ≠ r.src → j ≠ r.dst → vcAt r.stamp j ≤ vcAt (s.die r.dst).marks j)) ∧
  (r.inval = false → s.homeFree r.attr true r.sector = true ∧ ∀ q ∈ s.net.takeWhile (· ≠ r),
    q.src = r.src → q.inval = false → q.applied = false → q.sector = r.sector → offsMask q.bytes &&& offsMask r.bytes = 0) ∧
  (r.ext = true → r.tag < 65 → ∀ q ∈ s.net.takeWhile (· ≠ r), q.ext = true → q.tag < 65 → q.src = r.src → q.applied = true)

/-- The key under which a slice takes a sector in for itself: that of the line at its home, or of the stored bytes. -/
def State.heldAs (s : State) (sector : Nat) : Attr :=
  { key := match s.sec (homeDie (sector * 64)) sector with
      | some x => lineKey x.key none
      | none => lineKey (s.storedKey sector) none }

end Sys2Proof.Machine

section

open Sys2Proof.Machine Sys2Proof

/-- R87, R89, R106 to R111, R131: a remote write is applied when the die admits it, with the other parts of its operation, and sends its copy
holders their invalidations; one that only its stamp keeps back asks for the epochs it waits on. An invalidation takes the die's copy of the
line. Acknowledgement, marks, close requests and the 2,000 ns limit move epochs on. -/
def Sys2Proof.Machine.RemoteWrites : Prop :=
  (∀ (e k : Nat) (r : Remote) (s : State), (s.waitingAt e)[k]? = some r → r.inval = false → r.op = none →
    let s1 : State := { s with net := s.net.map fun x => if x = r then { x with applied := true, copies := s.copyDies r.sector } else x }
    (s.Admits r → paKind (r.sector * 64) ≠ .onchip → exec (.remoteWriteApply e k) s =
      .next ((s1.homeWrite r.attr r.sector r.bytes r.poison { die := r.src, v := r.stamp, rel := r.rel }).sendInvals r.sector r.src r.stamp r.id)) ∧
    (s.Admits r → paKind (r.sector * 64) = .onchip → exec (.remoteWriteApply e k) s = .next (s1.applyChip r)) ∧
    (¬ s.Admits r → exec (.remoteWriteApply e k) s = .next (if r.here then s.askClose e r.src r.stamp else s))) ∧
  (∀ (e k n : Nat) (r : Remote) (s : State), (s.waitingAt e)[k]? = some r → r.inval = false → r.op = some n →
    let parts := s.net.filter fun q => q.op = some n && !q.inval && !q.applied
    ((∀ q ∈ parts, s.Admits q) → exec (.remoteWriteApply e k) s = .next (parts.foldl State.applyPart s)) ∧
    (¬ (∀ q ∈ parts, s.Admits q) → exec (.remoteWriteApply e k) s = .next (if r.here then s.askClose e r.src r.stamp else s))) ∧
  (∀ (e k : Nat) (r : Remote) (s : State), (s.waitingAt e)[k]? = some r → r.inval = true →
    (s.Admits r → ∃ t, exec (.remoteWriteApply e k) s = .next t ∧ t.l2 = s.l2.filter (fun x => !(x.die = e && x.sector / 4 = r.sector / 4)) ∧
      t.net = (s.net.erase r).map fun x => if x.id = r.id && !x.inval then { x with copies := x.copies.filter (· ≠ e) } else x) ∧
    (¬ s.Admits r → exec (.remoteWriteApply e k) s = .next (if r.here then s.askClose e r.src r.stamp else s))) ∧
  (∀ (d k : Nat) (r : Remote) (s : State), (s.net.filter fun r => r.src = d && r.applied && r.copies = [])[k]? = some r →
    exec (.remoteWriteAck d k) s = .next ({ s with net := s.net.erase r }.sendMarks d).sendIrqs) ∧
  (∀ (dst src : Nat) (m : DieMsg) (s : State), (s.msgs.find? fun m => m.src = src && m.dst = dst) = some m → m.mark = true →
    exec (.markReceive dst src) s = .next ({ s with msgs := s.msgs.erase m }.modDie dst fun x => { x with marks := x.marks.set src m.n }) ∧
    exec (.closeRequest dst src) s = .next s) ∧
  (∀ (dst src : Nat) (m : DieMsg) (s : State), (s.msgs.find? fun m => m.src = src && m.dst = dst) = some m → m.mark = false →
    exec (.markReceive dst src) s = .next s ∧
    (vcAt (s.die dst).vc dst ≤ m.n → exec (.closeRequest dst src) s = .next ({ s with msgs := s.msgs.erase m }.closeEpoch dst)) ∧
    (m.n < vcAt (s.die dst).vc dst → exec (.closeRequest dst src) s = .next { s with msgs := s.msgs.erase m })) ∧
  (∀ (e t : Nat) (s : State), (s.die e).first = some t →
    exec (.epochTimeout e) s = .next (if t + 2000 ≤ s.gtime then s.closeEpoch e else s))

/-- R107, R108: closing an epoch raises a die's own entry by one, and a merge never lowers an entry of any die's vector. -/
def Sys2Proof.Machine.EpochsRise : Prop :=
  (∀ (d : Nat) (s : State), d < s.dies.length → d < (s.die d).vc.length →
    vcAt ((s.closeEpoch d).die d).vc d = vcAt (s.die d).vc d + 1 ∧ ((s.closeEpoch d).die d).first = none) ∧
  (∀ (e d k : Nat) (v : List Nat) (s : State), (s.die d).vc.length = 8 → k < 8 →
    vcAt (s.die d).vc k ≤ vcAt ((s.mergeStamp e v).die d).vc k) ∧
  (∀ (e k : Nat) (v : List Nat) (s : State), e < s.dies.length → (s.die e).vc.length = 8 → k < 8 → k ≠ e →
    vcAt ((s.mergeStamp e v).die e).vc k = max (vcAt (s.die e).vc k) (vcAt v k))

/-- Remote writes, their acknowledgement, marks, close requests; epochs rise -/
def Obligations.RemoteWritesAndEpochs : Prop := RemoteWrites ∧ EpochsRise

/-- R58, R59, R65, R111, R161: a home slice fills a sector of HBM with the stored bytes, for a token, and a slice of another die takes a copy of
what the home holds; a sector of host memory answers those who asked for it. A sector leaves its home's slice, a dirty one after its bytes went
to memory, for a token, and nowhere else; a copy does not leave so. -/
def Sys2Proof.Machine.SliceSteps : Prop :=
  (∀ (e sector : Nat) (s : State), homeDie (sector * 64) = e → paKind (sector * 64) = .hbm → s.sec e sector = none →
    (s.tokenFree sector (s.heldAs sector).key = true → ∃ t x, exec (.l2SectorFill e sector) s = .next t ∧ t.sec e sector = some x ∧
      x.have_ = allBytes ∧ x.dirty = 0 ∧ (s.hasRoom e sector = true → t.mem = s.mem) ∧
      ∀ i < 64, at_ 0 x.data i = s.storedByte (lineKey (s.storedKey sector) none) (sector * 64 + i)) ∧
    (s.tokenFree sector (s.heldAs sector).key = false → exec (.l2SectorFill e sector) s = .next s)) ∧
  (∀ (e sector : Nat) (x : L2Sec) (s : State), homeDie (sector * 64) ≠ e → paKind (sector * 64) = .hbm → s.sec e sector = none →
    s.sec (homeDie (sector * 64)) sector = some x → x.have_ = allBytes → lineKey x.key none = x.key →
    (∀ r ∈ s.net, r.src = e → r.inval = false → r.ext = false → r.sector / 4 ≠ sector / 4) → s.hasRoom e sector = true →
    ∃ t y, exec (.l2SectorFill e sector) s = .next t ∧ t.sec e sector = some y ∧ y.have_ = allBytes ∧ y.dirty = 0 ∧ y.key = x.key ∧
      y.poison = x.poison ∧ t.mem = s.mem ∧ ∀ i < 64, at_ 0 y.data i = at_ 0 x.data i) ∧
  (∀ (e sector : Nat) (s : State), (e = homeDie (sector * 64) ∨ s.mayCopy e (s.heldAs sector) sector = true) → paKind (sector * 64) = .host →
    exec (.l2SectorFill e sector) s = .next ((s.fillSec e (s.heldAs sector) sector allBytes).came fun q => q.sector = sector)) ∧
  (∀ (e sector : Nat) (s : State), (paKind (sector * 64) ≠ .hbm ∧ paKind (sector * 64) ≠ .host) ∨
      (e ≠ homeDie (sector * 64) ∧ s.mayCopy e (s.heldAs sector) sector = false) → exec (.l2SectorFill e sector) s = .next s) ∧
  (∀ (e sector : Nat) (x : L2Sec) (s : State), homeDie (sector * 64) = e → s.sec e sector = some x →
    (x.dirty ≠ 0 → s.tokenFree sector x.key = true → ∃ t, exec (.l2Writeback e sector) s = .next t ∧
      t.mem = putBytes s.mem (sector * 64) (s.backBytes x) ∧ ∀ y, t.sec e sector = some y → y.have_ = 0 ∧ y.dirty = 0) ∧
    (x.dirty ≠ 0 → s.tokenFree sector x.key = false → exec (.l2Writeback e sector) s = .next s) ∧
    (x.dirty = 0 → ∃ t, exec (.l2Writeback e sector) s = .next t ∧ t.mem = s.mem ∧ ∀ y, t.sec e sector = some y → y.have_ = 0 ∧ y.dirty = 0)) ∧
  (∀ (e sector : Nat) (s : State), homeDie (sector * 64) ≠ e ∨ s.sec e sector = none → exec (.l2Writeback e sector) s = .next s)

/-- R32, R33, R403: the walkers of a die take the next miss off its queue, keep the partition-map entries that they met, and give everyone who waits
for it a translation or a refusal. -/
def Sys2Proof.Machine.WalkSteps : Prop :=
  (∀ (d : Nat) (s : State), (s.die d).nextMiss = none → exec (.pageTableWalk d) s = .next s) ∧
  (∀ (d : Nat) (m : Miss) (w : Walk) (part : Nat) (seen : List Nat) (s : State), (s.die d).nextMiss = some m →
    let u := s.modDie d fun x => { x with missq := x.missq.erase m, served := m.turn }
    let v := seen.foldl (fun v ipa => v.keepMap d part ipa) u
    u.walk d ((m.who.head?.map (·.who.agent)).getD 0) m.asid (m.va * 4096) = (w, part, seen) →
    (∀ t, w = .found t → exec (.pageTableWalk d) s = .next (v.answerWalk m t)) ∧
    (∀ f, w = .fault f → exec (.pageTableWalk d) s = .next { v with walked := v.walked ++ m.who.map fun x =>
      { who := x.who, asid := m.asid, va := m.va, write := x.write, fetch := x.fetch, cause := f.cause, level := f.level, s2 := f.s2, key := f.key,
        rank := f.rank, poison := false } }) ∧
    (w = .poison → exec (.pageTableWalk d) s = .next { v with walked := v.walked ++ m.who.map fun x =>
      { who := x.who, asid := m.asid, va := m.va, write := x.write, fetch := x.fetch, cause := 0, level := 0, s2 := false, key := 0, rank := 0,
        poison := true } })) ∧
  (∀ (m : Miss) (t : Tlb) (w : Wanted) (a : Attr) (s : State), m.who = [w] → s.leafCheck t w.kind w.leaf w.user (t.pa + (m.va * 4096 - t.va)) = .ok a →
    s.answerWalk m t = (s.markLeaf t w.write).1.keepTlb { (s.markLeaf t w.write).2 with agent := w.who.agent })

/-- R44, R51, R54, R56, R62: an uncorrectable error poisons the data that it strikes, a corrected one is logged and changes nothing; a scrub writes
back what the sector holds. -/
def Sys2Proof.Machine.StorageErrors : Prop :=
  (∀ (l : StorageLoc) (s : State), exec (.storageError ⟨l, true⟩) s = .next (s.emit (.corrected l))) ∧
  (∀ (c slot n lane : Nat) (s : State), exec (.storageError ⟨.reg c slot n lane, false⟩) s = .next (s.modCore c fun k =>
    let r : Row := get {} k.rows (rowOf slot n)
    { k with rows := put {} k.rows (rowOf slot n) { r with lanes := r.lanes.set lane { poison := true } } })) ∧
  (∀ (c w : Nat) (s : State), exec (.storageError ⟨.scratch c w, false⟩) s = .next (s.modCore c fun k => { k with sp := k.sp.strike w }) ∧
    exec (.storageError ⟨.tile c w, false⟩) s = .next (s.modCore c fun k => { k with acc := k.acc.strike w }) ∧
    exec (.storageError ⟨.slot c w, false⟩) s = .next (s.modCore c fun k => { k with slots := k.slots.strike w })) ∧
  (∀ (pa : Nat) (s : State), exec (.storageError ⟨.sector pa, false⟩) s = .next { s with
    memPoison := setInsert s.memPoison (pa / 64)
    l2 := s.l2.map fun x => if x.sector = pa / 64 ∧ x.have_ ≠ allBytes then { x with poison := true } else x }) ∧
  (∀ (sector : Nat) (s : State), exec (.hbmScrub sector) s = .next s)

/-- Sector fills, write-backs, walks off the queue, storage errors and scrubs -/
def Obligations.CacheAndStorage : Prop := SliceSteps ∧ WalkSteps ∧ StorageErrors

/-- R66: a bucket's new entry waits for the next window, the level and the entry staying as they are until then; at the window LEVEL becomes
the smaller of itself and the new DEPTH, and the refill follows. R65: at a window each enforced bucket gains REFILL up to DEPTH; of the requests
that wait at a controller the tenants that hold tokens are served first, and a sector costs one token. R61: a line's controller is one of the
two of its stack, by PA[8] XOR PA[16]. -/
def Obligations.Buckets : Prop :=
  (∀ (ctl tenant : Nat) (entry : W64) (s : State), ctl < 16 → tenant < 128 →
    let b : Bucket := get {} s.buckets (bucketKey ctl tenant)
    ∃ t, exec (.bucketEntryWrite ctl tenant entry) s = .next t ∧
      get ({} : Bucket) t.buckets (bucketKey ctl tenant) = { b with pending := some (entry &&& 0x0000FFFF1FFF0003) } ∧
      ∀ k, k ≠ bucketKey ctl tenant → get ({} : Bucket) t.buckets k = get {} s.buckets k) ∧
  (∀ (ctl tenant : Nat) (entry : W64) (s : State), 16 ≤ ctl ∨ 128 ≤ tenant → exec (.bucketEntryWrite ctl tenant entry) s = .next s) ∧
  (∀ s : State, s.window < s.gtime / 256 → exec .bucketRefill s =
    .next { s with window := s.window + 1, buckets := s.buckets.map fun p => (p.1, p.2.refill) }) ∧
  (∀ s : State, s.gtime / 256 ≤ s.window → exec .bucketRefill s = .next s) ∧
  (∀ (b : Bucket) (new : W64), b.pending = some new →
    let depth := field new.toNat 47 32
    b.refill.pending = none ∧ b.refill.entry = new ∧
    b.refill.level = if tbit new.toNat 0 then min depth (min b.level depth + field new.toNat 28 16) else min b.level depth) ∧
  (∀ b : Bucket, b.pending = none → b.refill.entry = b.entry ∧ b.refill.level =
    if tbit b.entry.toNat 0 then min (field b.entry.toNat 47 32) (b.level + field b.entry.toNat 28 16) else b.level) ∧
  (∀ (ctl tenant : Nat) (q : MemReq) (s : State), s.nextTenant ctl = some tenant → ((s.waitingSectors ctl).find? fun q => q.tenant = tenant) = some q →
    exec (.hbmSectorTransfer ctl tenant) s =
      .next ({ s.spend q.sector (some tenant) with served := put 127 s.served ctl tenant }.came fun x => x = q)) ∧
  (∀ (ctl tenant : Nat) (s : State), s.nextTenant ctl ≠ some tenant → exec (.hbmSectorTransfer ctl tenant) s = .next s) ∧
  (∀ (ctl tenant : Nat) (s : State), s.nextTenant ctl = some tenant →
    let held := fun t => (get ({} : Bucket) s.buckets (bucketKey ctl t)).entry.getLsbD 0 = false ∨ (get ({} : Bucket) s.buckets (bucketKey ctl t)).level ≠ 0
    (∃ q ∈ s.waitingSectors ctl, q.tenant = tenant) ∧
    (¬ held tenant → (get ({} : Bucket) s.buckets (bucketKey ctl tenant)).entry.getLsbD 1 = true ∧
      ∀ q ∈ s.waitingSectors ctl, q.tenant < 128 → ¬ held q.tenant)) ∧
  (∀ (sector tenant : Nat) (s : State), paKind (sector * 64) = .hbm →
    let k := bucketKey (ctlOf (sector * 64)) tenant
    let b : Bucket := get {} s.buckets k
    s.spend sector (some tenant) = if tbit b.entry.toNat 0 then { s with buckets := put {} s.buckets k { b with level := b.level - 1 } } else s) ∧
  (∀ pa : Nat, paKind pa = .hbm →
    ctlOf pa / 2 = homeDie pa ∧ ctlOf pa < 16 ∧ (ctlOf pa % 2 = 1 ↔ pa / 256 % 2 ≠ pa / 65536 % 2) ∧ ctlOf (pa / 256 * 256) = ctlOf pa)

/-- R36, R131, R132, R139 to R142: key slots are destroyed in two steps; an invalidation follows a release of the Dunesh core, or the invalidation
in progress; it reaches every agent, which forgets what matches, the instruction cache's lines and the partition-map cache's entries too, drains
and acknowledges; its end is a release. A window write waits for its room's hold. -/
def Obligations.Changes : Prop :=
  (∀ (k : Nat) (s : State), s.keySlots.getD k .empty = .live →
    exec (.keySlotDestroy k) s = .next { s with keySlots := s.keySlots.set k .destroying }) ∧
  (∀ (k : Nat) (s : State), s.keySlots.getD k .empty = .destroying → (∀ r ∈ s.net, r.key ≠ some k) →
    ∃ t, exec (.keySlotDestroyComplete k) s = .next t ∧ t.keySlots = s.keySlots.set k .empty) ∧
  (∀ (i : Inval) (s : State), s.inval = none → exec (.invalidationBroadcast i) s = .next { s.closeEpoch s.dunesh with
    inval := some { i := i, die := s.dunesh, epoch := vcAt (s.die s.dunesh).vc s.dunesh, got := [], acked := [] } }) ∧
  (∀ (i : Inval) (v : InvalRun) (s : State), s.inval = some v → exec (.invalidationBroadcast i) s = .next { s with invals := s.invals ++ [i] }) ∧
  (∀ (a : Nat) (v : InvalRun) (s : State), s.inval = some v → a < 144 → a ∉ v.got →
    (v.epoch ≤ s.ackedEpoch v.die → ∃ t, exec (.invalidationReceipt a) s = .next t ∧
      t.tlb = s.tlb.filter (fun x => !(x.agent = a && invalHits v.i x)) ∧ t.inval = some { v with got := setInsert v.got a } ∧
      (a < 64 → a < s.cores.length → (t.core a).code = (s.core a).code.filter fun l => !invalHitsCode v.i l) ∧
      (136 ≤ a → a - 136 < s.dies.length → (t.die (a - 136)).maps = (s.die (a - 136)).maps.filter fun m => !invalHitsMap v.i m)) ∧
    (s.ackedEpoch v.die < v.epoch → exec (.invalidationReceipt a) s = .next s)) ∧
  (∀ (a : Nat) (v : InvalRun) (s : State), s.inval = some v → a ∈ v.got → a ∉ v.acked → s.drained a = true →
    exec (.invalidationDrained a) s = .next { s with inval := some { v with acked := setInsert v.acked a } }) ∧
  (∀ (v : InvalRun) (s : State), s.inval = some v → (∀ a < 144, a ∈ v.acked) →
    let u := { s.closeEpoch s.dunesh with inval := none }.emit (.invalidated v.i)
    (s.invals = [] → exec .invalidationComplete s = .next u) ∧
    (∀ i rest, s.invals = i :: rest → exec .invalidationComplete s = .next ({ u with invals := rest }.invalStart i))) ∧
  (∀ (c k : Nat) (p : PortWrite) (s : State), (s.core c).port[k]? = some p → (s.room c p.room).hold = .off →
    (∀ q ∈ (s.core c).port.take k, q.room ≠ p.room) → exec (.registerWindowWrite c k) s =
      .next ((s.chipWrite p.owner c p.off p.bytes p.poison p.stamp).modCore c fun x => { x with port := x.port.eraseIdx k })) ∧
  (∀ (c n : Nat) (s : State),
    exec (.windowHoldSet c n) s = .next (s.modRoom c n fun x => if x.hold = .off then { x with hold := .requested } else x) ∧
    exec (.windowHoldAck c n) s = .next (s.modRoom c n fun x => if x.hold = .requested then { x with hold := .acked } else x) ∧
    exec (.windowHoldRelease c n) s = .next (s.modRoom c n fun x => { x with hold := .off }))

/-- R189, R350: the oldest result pending in a split is written; TIMER is taken before an instruction of a warp whose sr.wtimer has reached
sr.wtcmp, which then reads 0. -/
def Sys2Proof.Machine.TimerAndResults : Prop :=
  (∀ (r : SplitRef) (p : Pending) (s : State), ((s.warp r.core r.slot).pend.find? fun p => p.split = r.split && p.unwritten) = some p →
    exec (.longLatencyResult r) s = .next (s.land r.core r.slot fun q => q = p)) ∧
  (∀ (r : SplitRef) (s : State), s.ready r = true → s.timerDue r = true →
    let g := s.groupOf r.core r.slot
    (g.hdr.handler = 0xFFFFFFFF ∨ tbit g.hdr.trapmask 9 = false →
      exec (.timerTrap r) s = .next (s.modWarp r.core r.slot fun w => { w with wtcmp := 0 })) ∧
    (g.hdr.handler ≠ 0xFFFFFFFF → tbit g.hdr.trapmask 9 = true → ∀ i x, s.fetch r = .instr i x →
      exec (.timerTrap r) s = .next (s.presentTimer r x true)))

/-- R17, R18, R22, R132, R226, R360 to R362, R403: the debugger stops a group, arms breakpoints, steps a split and writes a stopped group's storage;
the Dunesh core reads and writes physical addresses. -/
def Sys2Proof.Machine.DebuggerAndPrivilege : Prop :=
  (∀ (c n : Nat) (set : Bool) (s : State), exec (.breakpointArm c n set) s = .next (s.modRoom c n fun x => { x with bkpt := set })) ∧
  (∀ (c n : Nat) (s : State), (s.room c n).group.isSome = true → (s.group c n).phase = .resident → (s.group c n).stopped = false →
    exec (.stopRequest c n) s = .next ((s.stopGroup c n).emit (.innkeeper 3 c n 0 0))) ∧
  (∀ (r : SplitRef) (s : State), (s.split? r).isSome = true → (s.groupOf r.core r.slot).stopped = true → (s.groupOf r.core r.slot).phase = .resident →
    (s.groupOf r.core r.slot).bkptAt = none →
    let n := (s.warp r.core r.slot).room
    exec (.singleStep r) s =
      .next ((s.modWarp r.core r.slot fun w => { w with stepArmed := true }).modGroup r.core n fun g => { g with stepping := some (r.slot, r.split) })) ∧
  (∀ (c n off : Nat) (data : List Byte) (s : State), (s.room c n).group.isSome = true → (s.group c n).stopped = true →
    (s.group c n).phase.onCore = true → s.roomAt c off = some n →
    exec (.debuggerWrite c n off data) s = .next (s.chipWrite (some (s.group c n).owner) c off data false)) ∧
  (∀ (owner : Option Nat) (pa : Nat) (data : List Byte) (s : State), paKind pa = .hbm →
    exec (.privilegedAccess true owner pa data) s =
      .next (s.writeAll s.dunesh (fun _ => {}) {} (data.zipIdx.map fun p => { pa := pa + p.2, val := p.1 })) ∧
    exec (.privilegedAccess false owner pa data) s = .next (s.emit (.readData s.dunesh
      (if (s.readAt s.dunesh {} pa data.length).2 then none else some (s.readAt s.dunesh {} pa data.length).1)))) ∧
  (∀ (owner : Option Nat) (pa : Nat) (data : List Byte) (s : State), paKind pa = .reserved →
    exec (.privilegedAccess true owner pa data) s = .next s ∧
    exec (.privilegedAccess false owner pa data) s = .next (s.emit (.readData s.dunesh none)))

/-- Results written oldest first, TIMER, the debugger's steps and the Dunesh core's accesses -/
def Obligations.TimersAndDebugger : Prop := TimerAndResults ∧ DebuggerAndPrivilege

/-- R154 to R158, R325, R337, R352, R331, R338, R376: room cards, placing, saving and restoring gangs, slices, and launches that start again. -/
def Obligations.RoomSteps : Prop :=
  (∀ (c n : Nat) (card : BitVec 256) (s : State), c < 64 → n < 16 → s.mayAssign c ⟨card.toNat⟩ = true →
    let u := s.privWrite s.dunesh (cardAddr c n) 32 (card.toNat / 2 * 2)
    exec (.roomCardWrite c n card) s = .next ((u.closeEpoch u.dunesh).privWrite u.dunesh (cardAddr c n) 8 (card.toNat % 2 ^ 64))) ∧
  (∀ (c n f : Nat) (s : State), (s.cardAt c n).v = true → (s.room c n).group = none → (s.core c).service = true →
    s.cardFault c (s.cardAt c n) = some f → exec (.roomCardTakeUp c n) s = .next ((s.clearV c n).emit (.refused c n f))) ∧
  (∀ (c n i : Nat) (r : LaunchRec) (h : KHdr) (u v : State) (s : State), (s.cardAt c n).v = true → (s.room c n).group = none →
    (s.core c).service = true → s.cardFault c (s.cardAt c n) = none → s.cardLaunch (s.cardAt c n) = some i →
    s.acquireVec (dieOf c) (s.startVec (s.cardAt c n) i) = (true, u) →
    (let l := u.launches.getD i {}
     if (s.cardAt c n).restore then (u, some (l.lrec, l.hdr)) else u.readLaunch c (s.cardAt c n) l.fn l.part) = (v, some (r, h)) →
    c < v.cores.length → n < (v.core c).rooms.length →
    ∃ t, exec (.roomCardTakeUp c n) s = .next t ∧ (t.room c n).group = some (v.boundGroup (s.cardAt c n) i r h)) ∧
  (∀ (c n : Nat) (u : State) (s : State), (s.cardAt c n).v = true → (s.room c n).group = none → (s.core c).service = true →
    s.cardFault c (s.cardAt c n) = none → s.cardStart c (s.cardAt c n) = (u, none) → exec (.roomCardTakeUp c n) s =
      .next ((u.clearV c n).emit (.refused c n (if (s.cardAt c n).restore then 192 else 128)))) ∧
  (∀ (c n : Nat) (ms : List (Nat × Nat)) (t s : State), s.boundGang c n false = some ms →
    (ms.foldlM (fun u r => u.placeGroup r.1 r.2 ((List.range (u.group r.1 r.2).hdr.warps).map fun w => (w, freshWarp)))
      (s.beginSlice (clusterOf c) (s.group c n).part)) = some t →
    exec (.groupMakeResident c n) s = .next (ms.foldl (fun u r => (u.freshStart r.1 r.2).noteCore (s.group c n).launch r.1) t)) ∧
  (∀ (c n : Nat) (g : Group) (s : State), (s.room c n).group = some g →
    let ms := s.members g.launch g.gang
    let u := ms.foldl (fun s r => (s.group r.1 r.2).slots.foldl (fun s sl => s.drain r.1 sl fun _ => true) s) s
    (∀ r ∈ ms, u.mayLeave r.1 r.2 = true ∧ (∀ j ∈ (u.core r.1).jobs, j.room = r.2 → j.performed = false ∧ j.ended = none) ∧
      ∀ k ∈ u.cores, ∀ p ∈ k.port, p.owner ≠ some g.owner) →
    exec (.groupSave c n) s = .next (ms.foldl (fun s r => s.saveMember r.1 r.2) u)) ∧
  (∀ (c n : Nat) (ms : List (Nat × Nat)) (t s : State), s.boundGang c n true = some ms → (∀ p ∈ s.savedMembers c n ms, s.recordBad p.2 (s.group c n).hdr = none) →
    s.gangBack c n ms (s.savedMembers c n ms) = some t →
    exec (.groupRestore c n) s = .next ((s.savedMembers c n ms).foldl (fun u p => (u.restoreRoom p.1.1 p.1.2 p.2).noteCore (s.group c n).launch p.1.1) t)) ∧
  (∀ (cl : Nat) (x : Share) (before after : List Share) (s : State), s.shares = before ++ x :: after → (∀ y ∈ before, ¬ s.sliceOver cl y) →
    s.sliceOver cl x → exec (.sliceEnd cl) s = .next (s.preempt x)) ∧
  (∀ (cl : Nat) (s : State), (∀ y ∈ s.shares, ¬ s.sliceOver cl y) → exec (.sliceEnd cl) s = .next s) ∧
  (∀ (cl d : Nat) (x : Share) (s : State), (s.shares.find? fun y => y.cluster = cl && (y.saving.map fun t => decide (t ≤ s.gtime)).getD false) = some x →
    x.saving = some d →
    let gs := (s.tenantRooms cl x.part).map fun r => s.group r.1 r.2
    let gangs := ((gs.filter fun g => tbit g.hdr.flags 4).map fun g => (g.launch, g.gang)).eraseDups
    let u := (gangs.foldl (fun s p => (s.dropGang p.1 p.2).modLaunch p.1 fun l => l.modGang p.2 fun i => { i with started := [], ended := [] }) s).modShare
      cl x.part fun y => { y with saving := none, late := !gs.all fun g => tbit g.hdr.flags 4 }
    exec (.preemptDeadline cl) s = .next (if gs.all fun g => tbit g.hdr.flags 4 then u else u.emit (.missed cl x.part))) ∧
  (∀ (cl : Nat) (s : State), (∀ x ∈ s.shares, x.cluster = cl → ∀ d, x.saving = some d → s.gtime < d) → exec (.preemptDeadline cl) s = .next s) ∧
  (∀ (l k : Nat) (s : State), ((s.launches.getD l {}).gangInfo k).waiting = true → (s.launches.getD l {}).complete = false →
    exec (.gangRelaunch l k) s = .next (s.modLaunch l fun l => l.modGang k fun i => { i with waiting := false })) ∧
  (∀ s : State, s.paced < s.gtime / 100000 → ∃ t, exec .deficitUpdate s = .next t ∧ t.paced = s.paced + 1 ∧
    (∀ x ∈ s.shares, { x with deficit := x.deficit + (if x.part ∈ (s.waitingFor x.cluster).map (·.part) then (x.weight : Int) else 0) -
      100 * (((s.tenantRooms x.cluster x.part).map (·.1)).eraseDups.length : Int) } ∈ t.shares) ∧
    ∀ k < 16, ∀ l ∈ s.waitingFor k, ∃ x ∈ t.shares, x.cluster = k ∧ x.part = l.part) ∧
  (∀ s : State, s.gtime / 100000 ≤ s.paced → exec .deficitUpdate s = .next s) ∧
  (∀ (p : Nat) (s : State), p ∉ s.started → ∃ t, exec (.partitionStart p) s = .next t ∧ t.started = setInsert s.started p ∧
    t.counters = s.counters.filter (fun x => x.1 / 65536 ≠ p) ∧ t.tasks = s.tasks.filter (fun x => x.part ≠ p) ∧
    t.queues = s.queues.filter (fun x => x.1 / 64 ≠ p))

/-! ### The host, the links, the firmware and Lantern -/

/-- R30, R112 to R114, R403: a posted write of the host becomes a remote write of the die that receives it, and one that stage 2 does not permit is
dropped; a read of the host is answered; a CXL.cache request makes the home slice give up a host line or keep it clean, and either way the
slice may no longer write it without asking. -/
def Sys2Proof.Machine.HostAccesses : Prop :=
  (∀ (d fn pa : Nat) (data : List Byte) (s : State),
    let ws := data.zipIdx.mapM fun b => (s.hostPa d fn (pa + b.2) true).map fun a => ({ pa := a, val := b.1 } : ByteWrite)
    (∀ l, ws = some l → exec (.hostPostedWrite d fn pa data) s = .next (s.remoteIn d fn none l)) ∧
    (ws = none → exec (.hostPostedWrite d fn pa data) s = .next (s.logLookup d (128 + d) fn pa data.length))) ∧
  (∀ (d fn pa len : Nat) (s : State), s.mayServe (.read d fn pa len) = true →
    exec (.hostRead d fn pa len) s = .next ({ s with held := s.held.erase (.read d fn pa len) }.answerRead d fn pa len)) ∧
  (∀ (d sector : Nat) (inval : Bool) (s : State), paKind (sector * 64) = .host → homeDie (sector * 64) = d → (s.sec d sector).isSome = true →
    let u := if inval then s.evictSec sector else s.cleanSec sector
    exec (.cxlCacheSnoop d sector inval) s =
      .next ({ u with l2 := u.l2.map fun (x : L2Sec) => if x.die = d && x.sector = sector then { x with owned := false } else x }.emit
        (.cacheState d sector ((List.range 64).map fun i => s.homeByte none (sector * 64 + i))))) ∧
  (∀ (d sector : Nat) (inval : Bool) (s : State), paKind (sector * 64) ≠ .host ∨ homeDie (sector * 64) ≠ d ∨ s.sec d sector = none →
    exec (.cxlCacheSnoop d sector inval) s = .next s)

/-- R133, R138: a packet reaches a die: one of a peer as it comes, one of the device's own dies when it is on its way there, which it then no
longer is. -/
def Sys2Proof.Machine.State.Reaches (s : State) (d : Nat) (p : Packet) (u : State) : Prop :=
  (p.sdev ≠ 128 ∧ innerOp p.op = false ∧ u = s) ∨ (p.sdev = 128 ∧ .data d p ∈ s.wire ∧ u = { s with wire := s.wire.erase (.data d p) })

/-- R133, R134, R135, R137: a waystation acknowledges and delivers the next packet of an ordered flow, keeps a later one, acknowledges a duplicate,
refuses what it has no room or no flow for, and discards what R133 and log entry 105 let it discard; a kept packet is delivered in its turn. -/
def Sys2Proof.Machine.WaystationSteps : Prop :=
  (∀ (d : Nat) (p : Packet) (u s : State), s.Reaches d p u → (256 < p.data.length ∨ 2 ≤ p.mode) → exec (.packetArrival d p) s = .next u) ∧
  (∀ (d : Nat) (p : Packet) (f : FlowRx) (u s : State), s.Reaches d p u → p.data.length ≤ 256 → p.mode < 2 →
    ((u.die d).rx.find? fun f => f.takes p) = some f → f.ordered = true →
    let dist := seqAfter f.next p.seq
    let new := ∀ h ∈ f.held, h.1.seq ≠ p.seq
    (1024 ≤ dist ∨ ¬ new → exec (.packetArrival d p) s = .next (u.ackPacket d p)) ∧
    (dist = 0 → new → u.generalFree d = true → u.inHand f.last = false →
      exec (.packetArrival d p) s = .next ((u.ackPacket d p).deliver d { f with next := (f.next + 1) % 2 ^ 24 } p false)) ∧
    (dist = 0 → new → u.generalFree d = false → u.reserveFree d = false → exec (.packetArrival d p) s = .next (u.nakPacket d p)) ∧
    (0 < dist → dist < 1024 → new → u.generalFree d = true →
      exec (.packetArrival d p) s = .next ((u.ackPacket d p).setRx d { f with held := f.held ++ [(p, false)] })) ∧
    (0 < dist → dist < 1024 → new → u.generalFree d = false → exec (.packetArrival d p) s = .next (u.nakPacket d p))) ∧
  (∀ (d : Nat) (p : Packet) (f : FlowRx) (u s : State), s.Reaches d p u → p.data.length ≤ 256 → p.mode < 2 →
    ((u.die d).rx.find? fun f => f.takes p) = some f → f.ordered = false → seqAfter f.next p.seq < 2 ^ 23 → u.generalFree d = true →
    exec (.packetArrival d p) s = .next ((u.ackPacket d p).deliver d { f with
      next := (p.seq + 1) % 2 ^ 24
      seen := (p.seq :: f.seen).filter fun n => seqAfter n ((p.seq + 1) % 2 ^ 24) ≤ 1024 } p false)) ∧
  (∀ (d : Nat) (p : Packet) (u s : State), s.Reaches d p u → p.data.length ≤ 256 → p.mode < 2 → ((u.die d).rx.find? fun f => f.takes p) = none →
    (p.seq ≠ 0 ∨ 8192 ≤ (u.die d).rx.length) → exec (.packetArrival d p) s = .next (u.nakPacket d p)) ∧
  (∀ (d k : Nat) (f : FlowRx) (h : Packet × Bool) (s : State), (s.die d).rx[k]? = some f → s.inHand f.last = false →
    (f.held.find? fun h => h.1.seq = f.next) = some h → exec (.orderedDelivery d k) s =
      .next (s.deliver d { f with next := (f.next + 1) % 2 ^ 24, held := f.held.erase h } h.1 h.2)) ∧
  (∀ (d sd sdie fl : Nat) (s : State), (sd = 128 → .close d sdie fl ∈ s.wire) →
    (∀ f ∈ (s.die d).rx, f.sdev = sd → f.sdie = sdie → f.flow = fl → f.held = [] ∧ s.inHand f.last = false) →
    exec (.close d sd sdie fl) s = .next ({ s with wire := if sd = 128 then s.wire.erase (.close d sdie fl) else s.wire }.modDie d fun x =>
      { x with rx := x.rx.filter fun f => !(f.sdev = sd && f.sdie = sdie && f.flow = fl) })) ∧
  (∀ (d : Nat) (ps : List Packet) (s : State),
    exec (.linkFrameReceive d false ps) s = .next { s with wire := ps.foldl (fun w p => w.erase (.data d p)) s.wire } ∧
    exec (.linkFrameReceive d true ps) s = .next (ps.foldl (fun s p => s.arrive d p) s))

/-- R133, R136, R383: a source drops what is acknowledged, sends what waited, and sends what is refused again after its backoff; an ordered flow
holds its new packets back until every refused packet is acknowledged. An answer counts for a flow between two dies of the device once it is
on its way. -/
def Sys2Proof.Machine.SourceSteps : Prop :=
  (∀ (d fl seq : Nat) (s : State), s.hears d fl (.ack d fl seq) = true → exec (.ack d fl seq) s =
    .next (((({ s with wire := s.wire.erase (.ack d fl seq) }.modTx d fl fun f => { f with
      buf := f.buf.filter fun r => !(r.sent && r.p.seq = seq), naks := 0, hold := f.hold.filter (· ≠ seq) }).pump d fl).flushTx d).sendIrqs)) ∧
  (∀ (d fl seq : Nat) (s : State), s.hears d fl (.nak d fl seq) = true →
    exec (.nak d fl seq) s = .next ({ s with wire := s.wire.erase (.nak d fl seq) }.modTx d fl fun f =>
    if f.buf.any fun r => r.sent && r.p.seq = seq then
      { f with
        naks := f.naks + 1
        hold := if f.ordered then setInsert f.hold seq else f.hold
        buf := f.buf.map fun (r : Replay) => if r.sent && r.p.seq = seq then { r with due := s.gtime + 128 * 2 ^ min (f.naks + 1) 6, timed := false } else r }
    else f)) ∧
  (∀ (d fl seq : Nat) (s : State),
    (s.hears d fl (.ack d fl seq) = false → exec (.ack d fl seq) s = .next s) ∧ (s.hears d fl (.nak d fl seq) = false → exec (.nak d fl seq) s = .next s)) ∧
  (∀ (d fl seq : Nat) (f : FlowTx) (r : Replay) (s : State), ((s.die d).tx.find? fun f => f.flow = fl) = some f →
    (f.buf.find? fun r => r.p.seq = seq && r.ready f.naks s.gtime) = some r → (f.dev.isSome = true → s.mayTransmit d r.p.part = true) →
    exec (.packetResend d fl seq) s = .next ((s.modTx d fl fun f => { f with
      buf := f.buf.map fun x => if x = r then { x with due := s.gtime + 50000, timed := true } else x }).launch_ d f r.p)) ∧
  (∀ (d dev : Nat) (f : FlowTx) (p : Packet) (s : State), (f.dev = some dev → s.launch_ d f p = s.emit (.packet d dev p)) ∧
    (f.dev = none → s.launch_ d f p = { s with wire := s.wire ++ [.data f.die p] }))

/-- Host accesses and the packets of the fabric -/
def Obligations.HostAndPackets : Prop := HostAccesses ∧ WaystationSteps ∧ SourceSteps

/-- R328 to R330, R273, R277: an entry of a submission queue begins in ring order and has its effect: LAUNCH, CINC, CWAIT, NOP; a launch completes
once its groups have ended. -/
def Sys2Proof.Machine.QueueEntries : Prop :=
  (∀ (fn q tail : Nat) (s : State), s.mayServe (.doorbell fn q tail) = true → exec (.sqDoorbell fn q tail) s =
    .next ({ s with held := s.held.erase (.doorbell fn q tail) }.modSq fn q fun r => if r.size = 0 then r else { r with tail := tail % r.size })) ∧
  (∀ (fn q e : Nat) (s : State), s.sqEntry fn q = some e →
    let u := (s.logLookup s.dunesh (128 + s.dunesh) fn ((at_ {} (s.fns.getD fn {}).sqs q).base + 64 * (at_ {} (s.fns.getD fn {}).sqs q).head) 64).sqTake fn q
    (sqClean e = true →
      (sqCmd e = 1 → exec (.launch fn q) s = .next (u.sqLaunch fn q e)) ∧
      (sqCmd e = 2 → 0 < fn → q < 16 → exec (.cincEntry fn q) s =
        .next (((u.closeEpoch u.dunesh).counterAdd ((u.closeEpoch u.dunesh).partOf fn) (field e 319 304) (BitVec.ofNat 64 (field e 383 320))
          ((u.closeEpoch u.dunesh).closedVec u.dunesh)).post fn 0 (sqTag e) 0)) ∧
      (sqCmd e = 3 → 0 < fn → exec (.cwait fn q) s = .next ((u.modOpen fn q (· + 1)).modFn fn fun f =>
        { f with cwait := f.cwait.set q (some (field e 319 304, BitVec.ofNat 64 (field e 383 320), sqTag e)) })) ∧
      (sqCmd e = 4 → exec (.nopEntry fn q) s = .next (u.post fn 0 (sqTag e) 0))) ∧
    (sqClean e = false → sqCmd e = 4 → exec (.nopEntry fn q) s = .next (u.post fn 1 (sqTag e) 0)) ∧
    (sqCmd e = 0 ∨ 4 < sqCmd e → exec (.nopEntry fn q) s = .next (u.post fn 1 (sqTag e) 0))) ∧
  (∀ (fn q id : Nat) (v : W64) (tag : Nat) (s : State), at_ none (s.fns.getD fn {}).cwait q = some (id, v, tag) →
    v.toNat ≤ (get {} s.counters (counterKey (s.partOf fn) id)).value.toNat → exec (.cwaitSatisfied fn q) s =
      .next (((s.modFn fn fun f => { f with cwait := f.cwait.set q none }).modOpen fn q (· - 1)).post fn 0 tag 0)) ∧
  (∀ (n : Nat) (s : State), n < s.launches.length → s.launchOver n = true → s.quiet = true → s.fw.phase = .running →
    let l := s.launches.getD n {}
    let u := s.modLaunch n fun l => { l with complete := true }
    l.complete = false → l.aborted = false → l.begun = true → exec (.launchComplete n) s =
      .next (if l.host then ((u.modOpen l.fn l.queue (· - 1)).post l.fn (if l.abandoned then 6 else 0) l.tag 0).confirmAll else u))

/-- R113, R351, R389, R390, R392, R393: what writes to a function's registers, translation replies, translation invalidations and page responses
do, and that a request whose turn has not come waits. -/
def Sys2Proof.Machine.FunctionRegisters : Prop :=
  (∀ (fn tail : Nat) (s : State), s.mayServe (.admin fn tail) = true → exec (.adminDoorbell fn tail) s =
    .next ({ s with held := s.held.erase (.admin fn tail) }.modFn fn fun f => { f with admindb := tail })) ∧
  (∀ (fn : Nat) (s : State), exec (.staleprWrite fn) s = .next (s.modFn fn fun f => { f with stalepr := 0 })) ∧
  (∀ (fn off : Nat) (v : W64) (s : State), s.mayServe (.register fn off v) = true → exec (.registerWrite fn off v) s =
    .next ({ s with held := s.held.erase (.register fn off v) }.modFn fn fun f =>
    if off = 0x008 then { f with adminq := v, adminHead := 0, admindb := 0 }
    else if off = 0x018 then { f with admincq := v, admincqTail := 0, admincqPhase := true }
    else f)) ∧
  (∀ (d off addr : Nat) (r w : Bool) (a : Nat × Nat × Nat) (s : State), (s.ats.find? fun a => a.1 = d && a.2.2 = off / 4096) = some a →
    ∃ t, exec (.atsTranslationReply d off r w addr) s = .next t ∧ t.ats = s.ats.erase a ∧
      { die := d, fn := a.2.1, page := off / 4096, addr := addr, r := r, w := w } ∈ t.atc) ∧
  (∀ (fn lo len : Nat) (s : State), ∃ t, exec (.atsInvalidationRequest fn lo len) s = .next t ∧
    t.atc = s.atc.filter (fun a => !(a.fn = fn && a.page * 4096 < lo + len && lo < a.page * 4096 + 4096)) ∧
    (s.hostDrained = true → t.out = s.out ++ [.invalDone fn])) ∧
  (∀ (fn idx code : Nat) (s : State), s.mayServe (.page fn idx code) = true → (∀ p ∈ (s.fns.getD fn {}).pages, p.idx ≠ idx) →
    exec (.pageRequestGroupResponse fn idx code) s = .next ({ s with held := s.held.erase (.page fn idx code) }.modFn fn fun f =>
      { f with stalepr := min (f.stalepr + 1) (2 ^ 32 - 1) })) ∧
  (∀ (i : Request) (f : State → State) (s : State), s.mayServe i = false →
    s.serve i f = if i ∈ s.held then s else { s with held := s.held ++ [i] })

/-- Entries of submission queues and writes to function registers -/
def Obligations.QueuesAndRegisters : Prop := QueueEntries ∧ FunctionRegisters

end

namespace Sys2Proof.Machine

/-- The admin commands: the function, CMD, and what the command does. -/
def adminRule (i : Instr) : Option (Nat × Nat × (AdminCmd → State → State × Option (Nat × Nat))) :=
  match i with
  | .qreg fn => some (fn, 1, State.qreg)
  | .codeload fn => some (fn, 2, State.codeload)
  | .codefree fn => some (fn, 3, State.codefree)
  | .keyreg fn => some (fn, 4, State.keyreg)
  | .pagereg fn => some (fn, 5, State.pagereg)
  | .resume fn => some (fn, 6, State.resumeGroup)
  | .abandon fn => some (fn, 7, State.abandonLaunch)
  | .depthr fn => some (fn, 8, State.setDepthr)
  | .trace fn => some (fn, 9, State.setTrace)
  | .fwstage fn => some (fn, 0x20, State.fwstage)
  | .fwact fn => some (fn, 0x21, State.fwact)
  | _ => none

/-- An admin entry's fields. -/
def adminOf (fn e : Nat) : AdminCmd :=
  { fn := fn, target := if fn = 0 then field e 15 8 else fn, tag := field e 63 32, addr := field e 191 128, arg1 := field e 255 192,
    arg2 := field e 319 256 }

end Sys2Proof.Machine

section

open Sys2Proof.Machine Sys2Proof

/-- R207, R225, R328, R351, R382, R391, R398, R399: an admin entry without a fault has its command's effect and completes, one at fault completes
with STATUS 1 and the offset; what each command does to its function. -/
def Obligations.AdminCommands : Prop :=
  (∀ (i : Instr) (fn cmd e : Nat) (f : AdminCmd → State → State × Option (Nat × Nat)) (s : State), adminRule i = some (fn, cmd, f) →
    s.adminEntry fn = some e → e % 256 = cmd →
    (∀ o, adminBad fn e = some o → exec i s = .next (s.adminDone fn 1 (field e 63 32) o)) ∧
    (adminBad fn e = none → ∀ t st d, f (adminOf fn e) s = (t, some (st, d)) → exec i s = .next (t.adminDone fn st (field e 63 32) d)) ∧
    (adminBad fn e = none → ∀ t, f (adminOf fn e) s = (t, none) → exec i s = .next t)) ∧
  (∀ (c : AdminCmd) (s : State), c.arg1 % 32 ≤ 15 → 4 ≤ field c.arg1 11 8 → State.qreg c s = (s.modFn c.target fun f =>
    { f with sqs := f.sqs.set (c.arg1 % 32) { base := c.addr, size := 2 ^ field c.arg1 11 8, vec := c.arg2, phase := true } }, some (0, 0))) ∧
  (∀ (c : AdminCmd) (s : State), c.arg1 ≤ 3 → c.addr = 0 →
    State.keyreg c s = (s.modFn c.target fun f => { f with keys := f.keys.set c.arg1 none }, some (0, 0))) ∧
  (∀ (c : AdminCmd) (s : State), c.addr % 4096 = 0 → c.arg1 % 4096 = 0 → s.asidPart c.arg2 = some (s.partOf c.target) →
    (s.fns.getD c.target {}).pageable.length < 16 →
    State.pagereg c s = (s.modFn c.target fun f => { f with pageable := f.pageable ++ [(c.addr, c.arg1, c.arg2)] }, some (0, 0))) ∧
  (∀ (c : AdminCmd) (i : Nat) (s : State), s.launchAt c.target c.addr = some i →
    State.abandonLaunch c s = ((s.dropLaunch i).modLaunch i fun l => { l with abandoned := true }, some (0, 0)) ∧
    State.setDepthr c s = (s.modLaunch i fun l => { l with depThr := BitVec.ofNat 64 c.arg1, depVec := c.arg2 }, some (0, 0)) ∧
    ∀ v, s.savedOf i c.arg1 = some v → v.state = 3 ∨ v.state = 4 → State.resumeGroup c s =
      ({ s with saved := s.saved.map fun x => if x = v then { x with eligible := true } else x }, some (0, 0))) ∧
  (∀ (c : AdminCmd) (s : State), c.arg1 % 64 = 0 →
    State.setTrace c s = (s.modFn c.target fun f => { f with traceBuf := (c.addr, c.arg1, 0) }, some (0, 0))) ∧
  (∀ (c : AdminCmd) (im : Nat × Nat) (s : State), (((s.fns.getD c.target {}).images).find? fun i => i.1 = c.addr) = some im →
    s.usesImage c.target im = false →
    State.codefree c s = (s.modFn c.target fun f => { f with images := f.images.erase im }, some (0, 0))) ∧
  (∀ (c : AdminCmd) (u : State) (k : List Byte) (s : State), c.arg1 ≤ 3 → c.addr ≠ 0 → s.innBytes c.target c.addr 64 = (u, some k) →
    State.keyreg c s = (u.modFn c.target fun f => { f with keys := f.keys.set c.arg1 (some k) }, some (0, 0))) ∧
  (∀ (c : AdminCmd) (u : State) (obj code : List Byte) (s : State), (s.fns.getD c.target {}).loading = none → c.arg1 ≤ 2 ^ 26 →
    s.innBytes c.target c.addr c.arg1 = (u, some obj) →
    (∀ n, verifyObject (s.fns.getD c.target {}).keys obj = .error n → State.codeload c s = (u, some (7, n))) ∧
    (verifyObject (s.fns.getD c.target {}).keys obj = .ok code → u.inval = none →
      let base := (Config.openValue u.draws).toNat % 2 ^ 48 / 4096 * 4096
      State.codeload c s = (((({ u with draws := u.draws + 1 }.fnWrite c.target base code).modFn c.target fun f =>
        { f with loading := some (base, code.length) })).invalBegin
          (.ipa (({ u with draws := u.draws + 1 }.fnWrite c.target base code).partOf c.target) base code.length), none))) ∧
  (∀ (c : AdminCmd) (base len : Nat) (s : State), (s.fns.getD c.target {}).loading = some (base, len) → s.inval = none →
    State.codeload c s = (s.modFn c.target fun f => { f with loading := none, images := f.images ++ [(base, len)] }, some (0, base))) ∧
  (∀ (c : AdminCmd) (s : State),
    let r := s.readAt s.dunesh {} (0x80000000000 + c.addr) c.arg1
    let x := Config.fwImage r.1
    c.addr + c.arg1 ≤ 2 ^ 43 → s.hostGaps c.addr c.arg1 = [] →
    (∀ i < c.arg1, ∃ a ∈ s.atc, a.fn = 0 ∧ a.page = (c.addr + i) / 4096 ∧ a.r = true) →
    (r.2 = false → x.2.2 = true → Config.fusedMinimum ≤ x.2.1 → State.fwstage c s =
      ({ s with fw := s.fw.setOther { bytes := r.1, version := x.1, secver := x.2.1, staged := true } }, some (0, 0))) ∧
    (r.2 = true ∨ x.2.2 = false ∨ x.2.1 < Config.fusedMinimum → State.fwstage c s = ({ s with fw := s.fw.setOther {} }, some (7, 0)))) ∧
  (∀ (c : AdminCmd) (s : State), s.fw.other.staged = true → State.fwact c s = ({ s with
    fw := { s.fw with phase := .quiescing, since := s.gtime, fn := c.fn, tag := c.tag }
    fns := s.fns.map fun f => { f with updating := true } }, none)) ∧
  (∀ (c : AdminCmd) (s : State), s.fw.other.staged = false → State.fwact c s = (s, some (1, 0)))

/-- R398 to R401: a live update hands over and ends with the new slot or the old; attestation answers, signed where it must be; power-on,
throttling, and the thermal trip, after which nothing runs until power comes on. -/
def Obligations.FirmwareAndPower : Prop :=
  (∀ s : State, s.fw.phase = .quiescing → exec .fwHandover s = .next { s with fw := { s.fw with phase := .handover, since := s.gtime } }) ∧
  (∀ s : State, s.fw.phase = .handover → s.gtime ≤ s.fw.since + 50000000 →
    exec (.fwHeartbeat true) s = .next (s.fwEnd (!s.fw.active) 0) ∧ exec (.fwHeartbeat false) s = .next (s.fwEnd s.fw.active 9)) ∧
  (∀ s : State, s.fw.phase = .handover → s.fw.since + 50000000 ≤ s.gtime → exec .fwRollback s = .next (s.fwEnd s.fw.active 9)) ∧
  (∀ s : State, s.fw.phase = .running → exec .duneshFailover s = .next { s with fw := { s.fw with spare := true } }) ∧
  (∀ s : State, exec .getVersion s = .next (s.emit (.spdm 0 (Config.spdmBody 0 ++ []) [])) ∧
    exec .getCapabilities s = .next (s.emit (.spdm 1 (Config.spdmBody 256 ++ []) [])) ∧
    exec .negotiateAlgorithms s = .next (s.emit (.spdm 2 (Config.spdmBody 512 ++ []) [])) ∧
    exec .getDigests s = .next (s.emit (.spdm 3 (Config.spdmBody 768 ++ []) [])) ∧
    exec .getCertificate s = .next (s.emit (.spdm 4 (Config.spdmBody 1024 ++ []) [])) ∧
    (∀ nonce : BitVec 256, ∃ b, exec (.challenge nonce) s = .next (s.emit (.spdm 5 b (Config.identitySign b)))) ∧
    ∀ idx, ∃ b, exec (.getMeasurements idx) s = .next (s.emit (.spdm 6 b (Config.identitySign b)))) ∧
  (∀ s : State, ∃ t, exec .powerOn s = .next t ∧ t.tripped = false ∧ t.scan.seq = List.replicate 64 1 ∧
    (0 < s.fns.length → (t.fns.getD 0 {}).ready = true)) ∧
  (∀ s : State, 200 ≤ s.mhz → exec .thermalThrottle s = .next { s with mhz := s.mhz - 100 }) ∧
  (∀ s : State, ∃ t, exec .thermalTrip s = .next t ∧ t.tripped = true ∧ ∀ l ∈ t.launches, l.complete = true ∨ l.aborted = true)

/-- R379 to R381, R383, R386: scans, links and engine resets. -/
def Sys2Proof.Machine.ScansAndLinks : Prop :=
  (∀ s : State, s.scan.active = false → s.scan.next ≤ s.gtime → s.fw.phase = .running →
    let c := s.nextScanned s.scan.core
    let u : Scan := { s.scan with core := c, active := true, running := false, second := false, since := s.gtime, next := s.gtime + 10000000 }
    exec .scanSlotStart s = .next ({ s with scan := u }.modCore c fun k => { k with service := false })) ∧
  (∀ s : State, s.scan.active = true → s.scan.running = false →
    (s.coreEmpty s.scan.core = true → exec .scanRun s = .next ({ s with scan := { s.scan with running := true, since := s.gtime } }.modCore
      s.scan.core fun k => { k with rows := [], sp := {}, acc := {}, slots := {}, wrote := [], stamps := [] })) ∧
    (s.coreEmpty s.scan.core = false → s.scan.since + 1000000 ≤ s.gtime → exec .scanDefer s =
      .next ({ s with scan := { s.scan with active := false, log := s.scan.log + 1 } }.modCore s.scan.core fun k => { k with service := true }))) ∧
  (∀ (lane : Option (Nat × Nat)) (s : State), s.scan.active = true → s.scan.running = true →
    let c := s.scan.core
    exec (.scanResult true lane) s = .next (({ s with scan := { s.scan with seq := modifyAt s.scan.seq c fun n => (n + 1) % 2 ^ 32 } }.modCore c
      fun k => { k with service := true }).scanEnd).confirmAll ∧
    (s.scan.second = false → ∃ t, exec (.scanResult false lane) s = .next t ∧ t.scan.second = true ∧ t.scan.since = s.gtime) ∧
    (s.scan.second = true → ∀ q b k, lane = some (q, b) → (s.core c).retireLane q b = some k →
      exec (.scanResult false lane) s = .next (s.modCore c fun _ => { k with service := true }).scanEnd)) ∧
  (∀ (q b : Nat) (k k' : Core), k.retireLane q b = some k' →
    at_ 0 k'.maps q = at_ (0 : BitVec 16) k.maps q &&& ~~~(1#16 <<< b) ∧ 11 ≤ ((List.range 16).filter fun i => (at_ (0 : BitVec 16) k'.maps q).getLsbD i).length) ∧
  (∀ (n : Nat) (s : State),
    exec (.eyeMarginWindow n true) s = .next (s.modPort n fun p => if !p.up || p.training then p
      else if p.rate < 3 then { p with training := true, target := p.rate + 1 } else { p with up := false }) ∧
    exec (.eyeMarginWindow n false) s = .next (s.modPort n id) ∧
    (∃ t, exec (.linkRetrainDone n) s = .next t ∧ t.ports = (s.modPort n fun p => if p.training then { p with training := false, rate := p.target } else p).ports ∧
      t.mem = s.mem) ∧
    exec (.linkRateRaise n) s = .next (s.modPort n fun p => if p.up && !p.training && 0 < p.rate then { p with training := true, target := p.rate - 1 } else p) ∧
    exec (.linkReset n) s = .next (s.modPort n fun p => if p.up && !p.training then { p with training := true, target := p.rate } else p)) ∧
  (∀ (c : Nat) (s : State),
    exec (.engineReset c false) s = .next (((((s.core c).jobs.map (·.room)).eraseDups).foldl (fun s n => s.killGang c n) s).modCore c fun k =>
      { k with jobs := [] }) ∧
    exec (.engineReset c true) s = .next (((((List.range 16).filter fun n => (s.room c n).ring.run.isSome || (s.room c n).ring.pending).foldl
      (fun s n => s.killGang c n) s).modCore c fun k => { k with mxTurn := 0 })))

/-- R36, R385, R387: a partition's reset flushes its counters, tasks and queues, aborts its launches and destroys its keys; when every device has
reported, each aborted launch completes with STATUS 3. -/
def Sys2Proof.Machine.PartitionResets : Prop :=
  (∀ (p : Nat) (s : State), p < 64 → p ∉ s.resets → ∃ t, exec (.partitionReset p) s = .next t ∧ t.resets = setInsert s.resets p ∧
    t.counters = s.counters.filter (fun x => x.1 / 65536 ≠ p) ∧ t.tasks = s.tasks.filter (fun x => x.part ≠ p) ∧
    t.queues = s.queues.filter (fun x => x.1 / 64 ≠ p) ∧ (∀ l ∈ t.launches, l.part = p → l.complete = true ∨ l.aborted = true) ∧
    (∀ x ∈ t.tlb, x.part ≠ p)) ∧
  (∀ (p : Nat) (s : State), p ∈ s.resets → s.quiet = true →
    (∀ j < 128, ∀ k, get none s.keyMap (p * 128 + j) = some k → s.keySlots.getD k .empty ≠ .destroying) →
    ∃ t, exec (.partitionResetComplete p) s = .next t ∧ ∀ l ∈ t.launches, l.part = p → l.aborted = true → l.complete = true) ∧
  (∀ (fn : Nat) (s : State), s.mayServe (.flr fn) = true → 0 < fn → fn ≤ 64 → exec (.functionLevelReset fn) s =
    .next ({ s with held := s.held.erase (.flr fn) }.resetPartition (s.partOf fn))) ∧
  (∀ s : State, s.mayServe .vfClear = true → ∃ t, exec .vfEnableClear s = .next t ∧ ∀ n, 0 < n → n < t.fns.length → (t.fns.getD n {}).enabled = false)

/-- Scans, links, engine resets and partition resets -/
def Obligations.ScansLinksAndResets : Prop := ScansAndLinks ∧ PartitionResets

/-- R226, R363, R368, R373: what Lantern's commands do. -/
def Obligations.LanternCommands : Prop :=
  (∀ (obj : Nat) (im : Nat × Nat) (s : State), ((s.fns.getD s.lantern.fn {}).images)[obj]? = some im → exec (.lanternLoad obj) s =
    .next { s with lantern := { s.lantern with kernels := s.lantern.kernels ++ s.headersIn s.lantern.fn im.1 im.2 } }) ∧
  (∀ (k off : Nat) (s : State), k < s.lantern.kernels.length → (k, off) ∉ s.lantern.stops → exec (.lanternBreak k off) s =
    .next { s with lantern := { s.lantern with stops := s.lantern.stops ++ [(k, off)] } }) ∧
  (∀ s : State, exec .lanternDeleteAll s = .next { s with lantern := { s.lantern with stops := [] } } ∧
    exec .lanternEvict s = .next { s with lantern := { s.lantern with evict := 1 } }) ∧
  (∀ (k : Nat) (x : Known) (args : List W32) (bs : List Byte) (pa : Nat) (h : KHdr) (u s : State),
    let l := s.lantern
    let at' := l.space + l.seq * 0x1000000
    let r : LaunchRec := { data := l.data, args := at' + 64, priv := at' + 0x10000, khdr := x.hdr, gangs := 1, asid := l.asid }
    l.kernels[k]? = some x → s.fnBytes s.dunesh l.fn x.hdr 64 = some bs → s.hostPa s.dunesh l.fn at' true = some pa →
    ((s.fnWrite l.fn at' (leBytes 64 (r.data * 2 ^ 448 + r.args * 2 ^ 384 + r.priv * 2 ^ 320 + r.khdr * 2 ^ 256 + 2 ^ 224 + r.asid * 2 ^ 212))).fnWrite
      l.fn (at' + 64) (runArgs args (KHdr.of bs).args)).admitLaunch l.fn (s.partOf l.fn) none r = (u, .ok h) →
    ∃ t, exec (.lanternRun k args) s = .next t ∧ t.lantern = { l with launch := some u.launches.length, goals := 1, left := [], evict := 0, seq := l.seq + 1 }) ∧
  (∀ (n c r : Nat) (s : State), s.examined = some (c, r) → ∃ t, exec (.lanternCont n) s = .next t ∧ t.lantern.goals = max 1 n ∧
    t.lantern.stops = s.lantern.stops ∧ (t.group c r).stopped = false) ∧
  (∀ (warp lane : Nat) (items : List (BitVec 8 × BitVec 8)) (c n sl : Nat) (s : State), s.examined = some (c, n) →
    at_ none (s.group c n).warps warp = some sl → exec (.lanternPrint warp lane items) s =
      .next (s.emit (.lantern (items.map fun i => s.printItem c sl lane i.1.toNat i.2.toNat)))) ∧
  (∀ (space a n c r : Nat) (s : State), s.examined = some (c, r) → exec (.lanternMem space a n) s =
    .next (s.emit (.lantern ((List.range n).map fun i => s.showWord c r space (a + 4 * i))))) ∧
  (∀ (a n c r : Nat) (s : State), s.examined = some (c, r) →
    exec (.lanternDis a n) s = .next (s.disassemble (s.group c r).lrec.khdr a n)) ∧
  (∀ (id : Nat) (n : W64) (s : State),
    let r := at_ {} (s.fns.getD s.lantern.fn {}).sqs 0
    r.size ≠ 0 → exec (.lanternCinc id n) s = .next ((s.fnWrite s.lantern.fn (r.base + 64 * r.tail)
      (leBytes 64 (n.toNat * 2 ^ 320 + id % 65536 * 2 ^ 304 + 2))).ring s.lantern.fn 0 (r.tail + 1)))

end

/-! ### Steps, decoding, frames -/

namespace Sys2Proof.Machine

/-- Whether a place lies in the register view of a core (R19). -/
def Place.onRegisters (p : Place) : Bool :=
  match p with
  | .mem _ => false
  | .chip _ off _ => match chipLoc off with
    | .reg _ _ _ _ => true
    | .sp _ | .slot _ | .acc _ | .dir _ _ | .reserved => false

end Sys2Proof.Machine

section

open Sys2Proof.Machine Sys2Proof

/-- R142, R180, R202, R219, R253: when a quadrant's issue slot is offered and its choice is due no TIMER, the step runs the instruction at the choice's
PC, the one that its words decode to, or the fused sequence that starts there, once its code stands in the core's instruction cache; the same
step takes it in where nothing has to wait. -/
def Sys2Proof.Machine.IssueRunsDecoded : Prop :=
  (∀ (s : State) (c q : Nat) (r : SplitRef) (rest : List Move) (i : Instr) (x : Words), s.agenda = .issue c q :: rest → s.tripped = false →
    { s with agenda := rest }.choice c q = some r →
    let u : State := { { s with agenda := rest }.ageOthers r with cur := r }
    u.timerDue r = false → u.fetch r = .instr i x →
      (∀ v, u.fusedAt r i = .one → u.keepCode r x.bytes = (.ready, v) → step s = exec i v) ∧
      (∀ f v, u.fusedAt r i = .fused f → u.keepCode r 32 = (.ready, v) → step s = exec f v) ∧
      (∀ c v, c ≠ .ready → u.fusedAt r i = .one → u.keepCode r x.bytes = (c, v) → step s = .next v)) ∧
  (∀ (s : State) (r : SplitRef) (x : Split) (n : Nat), s.split? r = some x →
    let g := s.groupOf r.core r.slot
    (∀ k ∈ spanOf (g.lrec.khdr + 64 + x.pc.toNat) n 64, ((s.core r.core).codeAt g.lrec.asid (k * 64)).isSome = true) → s.keepCode r n = (.ready, s)) ∧
  (∀ (s : State) (r : SplitRef) (x : Split) (a b : BitVec 32) (i : Instr), (s.warp r.core r.slot).split r.split = some x →
    let g := s.groupOf r.core r.slot
    let pc := x.pc.toNat
    let word := s.codeWord r g.lrec.asid x.mask
    pc % 4 = 0 → 0 ≤ x.pc.toInt → g.lrec.khdr + 64 + pc + 13 ≤ 2 ^ 56 → word (g.lrec.khdr + 64 + pc) = .ok a → word (g.lrec.khdr + 64 + pc + 4) = .ok b →
    (a.extractLsb' 0 8 ≠ 0xF0 → pc + 8 ≤ g.hdr.codesize → decodeWords { w := b ++ a } = .ok i → s.fetch r = .instr i { w := b ++ a }) ∧
    (∀ d, a.extractLsb' 0 8 = 0xF0 → pc + 12 ≤ g.hdr.codesize → word (g.lrec.khdr + 64 + pc + 8) = .ok d →
      decodeWords { pw := some a, w := d ++ b } = .ok i → s.fetch r = .instr i { pw := some a, w := d ++ b }))

/-- R335, R359, R350: what the agenda's other moves are: an agent's step is its row's meaning, and time adds to sr.gtime, the core clocks and the
sr.wtimer of running groups. -/
def Sys2Proof.Machine.AgentsRun : Prop :=
  (∀ (s : State) (i : Instr) (rest : List Move), s.agenda = .event i :: rest → s.tripped = false → isEvent i = true →
    step s = exec i { s with agenda := rest }) ∧
  (∀ (s : State) (ns cclk : Nat) (rest : List Move), s.agenda = .time ns cclk :: rest → s.tripped = false →
    ∃ t, step s = .next t ∧ t.gtime = (s.gtime + ns) % 2 ^ 64 ∧ t.mem = s.mem ∧
      ∀ c, c < s.cores.length → (t.core c).clock = (s.core c).clock + BitVec.ofNat 64 cclk)

/-- A step runs the instruction that the words at the choice's PC decode to; other moves run their agent's row -/
def Obligations.StepRunsDecoded : Prop := IssueRunsDecoded ∧ AgentsRun

/-- R401: after a thermal trip every clock has stopped: nothing but power-on changes anything. -/
def Obligations.TrippedDeviceStandsStill : Prop :=
  ∀ s : State, s.tripped = true → s.agenda.head? ≠ some (.event .powerOn) → step s = .next { s with agenda := s.agenda.tail }

/-- R106, R157, R273, R400: the device right after reset: every die's vectors zero but its own open epoch 1, no room holds a group, no counter, task or
remote write exists, memory lists nothing; and a fresh warp has one split with every lane at its kernel's entry. -/
def Obligations.ResetValues : Prop :=
  (∀ d < 8, (State.reset.die d).vc = (List.replicate 8 0).set d 1 ∧ (State.reset.die d).marks = List.replicate 8 0) ∧
  (∀ c < 64, ∀ n < 16, (State.reset.room c n).group = none) ∧
  State.reset.counters = [] ∧ State.reset.tasks = [] ∧ State.reset.net = [] ∧ State.reset.msgs = [] ∧ State.reset.mem = [] ∧
  Memory.wf State.reset.mem = true ∧
  freshWarp.splits = [some { pc := 0, mask := 0xFFFFFFFF, ra := none, pend := none }, none, none, none] ∧ freshWarp.nest = List.replicate 32 0 ∧
  freshWarp.stack = [] ∧ freshWarp.handler = false ∧ freshWarp.masks.head? = some 0xFFFFFFFF

/-- R180 to R206: words written out from the encoding tables decode to the instructions they stand for. -/
def Obligations.DecodedWords : Prop :=
  let plain : Ctl := { la := 0, ru := false, pfx := none }
  decodeTableWord 64 0x0080000040909010 = some (.iadd plain ⟨false, 9⟩ (.v 9) (.k 4)) ∧
  decodeTableWord 64 0x00C0100070605415 = some (.idiv { plain with la := 4 } true ⟨false, 5⟩ (.v 6) (.imm 7)) ∧
  decodeTableWord 64 0x0000000020103040 = some (.fadd plain ⟨false, 3⟩ (.v 1) (.v 2)) ∧
  decodeTableWord 64 0x000000404020A280 = some (.ld { plain with la := 2 } 10 false .w32 2 0x40) ∧
  decodeTableWord 64 0x0000003000000002 = some (.bra plain 0x30) ∧
  decodeTableWord 64 0x000000070000000C = some (.trap plain 7) ∧
  decodeTableWord 64 0x06D00020107000A1 = some (.barw plain { te := false, win := false, scope := .group } (.k 7) (.imm 1)) ∧
  decodeTableWord 64 0x00100000006000B0 = some (.jsub plain 6) ∧
  decodeTableWord 64 0x00D00000002010C5 = some (.mapbind plain 1 2 false) ∧
  decodeTableWord 64 0x00D80000200050D2 = some (.trye plain ⟨false, 5⟩ (.imm 0) (.imm 2))

/-- R180 to R202: decoding the bytes of an encoded well-formed instruction gives it back, with the bytes that follow it. -/
def Obligations.EncodingRoundTrip : Prop :=
  ∀ (i : Instr) (x : Words) (rest : List Byte), i.WellFormed → encode i = some x → decode (x.toBytes ++ rest) = .ok (i, rest)

/-- R180: decoding looks at an instruction's own bytes alone, and takes exactly them: what follows changes nothing. -/
def Obligations.DecodeIsLocal : Prop :=
  ∀ (bs more rest : List Byte) (i : Instr), decode bs = .ok (i, rest) → decode (bs ++ more) = .ok (i, rest ++ more) ∧
    ∃ n, (n = 8 ∨ n = 12) ∧ rest = bs.drop n ∧ n ≤ bs.length

/-- Every step keeps memory in its one form: addresses strictly rising, and no byte listed that reads the same unlisted (log entry 1). -/
def Obligations.MemoryStaysCanonical : Prop :=
  ∀ s t : State, Memory.wf s.mem = true → step s = .next t → Memory.wf t.mem = true

/-- R43, R189, R209, R229, R259: what a register instruction leaves alone when no earlier result is pending. Its results and sticky flags
aside, no register, mask, index or special register of the
warp differs, no other warp and no other core differs, and every byte of memory reads as before. -/
def Obligations.RegisterFrame : Prop :=
  ∀ (i : Instr) (ops : List (Nat × Src × OpFmt)) (d : Dst) (s : State),
    (∃ r, intRule i = some r ∧ ops = r.ops.map (fun o => (o.1, o.2, OpFmt.i32)) ∧ d = r.d) ∨ (∃ r, floatRule i = some r ∧ ops = r.ops ∧ d = r.d) →
    s.Issues →
    let c := s.seen i
    let e := s.entering i
    c.Usable c.act (dstNeed 1 d ++ ops.flatMap fun o => srcNeed o.1 1 o.2.1) (ops.map (·.2)) → c.w.regionOpen = false → c.w.pend = [] →
    ∃ t, exec i s = .next t ∧ s.SameMemory t ∧
      (∀ k, k ≠ c.core → t.core k = s.core k) ∧
      (∀ j, j ≠ c.slot → t.warp? c.core j = s.warp? c.core j) ∧
      (∀ n l, (∀ k ∈ lanesOf (c.act ||| c.zero), l ≠ k ∨ n ≠ (c.number d.n.toNat d.ix k).toNat) → t.vreg c.core c.slot n l = e.vreg c.core c.slot n l) ∧
      (t.warp c.core c.slot).masks = c.w.masks ∧ (t.warp c.core c.slot).uni = c.w.uni ∧ (t.warp c.core c.slot).ix = c.w.ix ∧
      (t.warp c.core c.slot).wflags &&& 0xFFFFFFE0 = c.w.wflags &&& 0xFFFFFFE0 ∧ (t.warp c.core c.slot).satchel = c.w.satchel ∧ (t.warp c.core c.slot).trap = c.w.trap ∧
      (t.warp c.core c.slot).handler = c.w.handler

/-- R43, R58, R91, R111, R259: what a store leaves alone where no slice has to make room for it: no byte of memory differs outside the lines of
the bytes it stores to (a store takes the die's copies of those lines away), for any reader; and, unless it stores into the register view,
no register of any kind differs from what it was once the results that the store waits for were written. -/
def Sys2Proof.Machine.StoreEffects : Prop :=
  ∀ (i : Instr) (r : MemRule) (s : State), storeRule i = some r → s.Issues →
    let c := s.seen i
    let e := s.entering i
    c.Usable c.act r.needs → c.act ≠ 0 → r.ord = none → c.w.pend = [] →
    ∀ accs ps, c.addresses e r.sp r.a r.o = some accs → c.storePlaces e r.sp .write (Size.bytes r.z) accs = .ok ps →
      s.l2.length + (sectorsOf ((memBytes (ps.map (·.2))).map (·.1))).length ≤ sliceLines →
      ∃ t, exec i s = .next t ∧
        (∀ die a pa, (∀ p ∈ ps, ∀ bs, p.2 = .mem bs → ∀ b ∈ bs, b.1 / 256 ≠ pa / 256) →
          t.dieByte die a pa = s.dieByte die a pa ∧ t.diePoison die a pa = s.diePoison die a pa) ∧
        ((∀ p ∈ ps, p.2.onRegisters = false) →
          (∀ k slot n l, t.vreg k slot n l = e.vreg k slot n l) ∧
          (∀ k j, (k, j) ≠ (c.core, c.slot) → t.warp? k j = e.warp? k j) ∧
          let w := t.warp c.core c.slot
          w.masks = c.w.masks ∧ w.uni = c.w.uni ∧ w.ix = c.w.ix ∧ w.wflags = c.w.wflags ∧ w.satchel = c.w.satchel ∧ w.trap = c.w.trap ∧
            w.handler = c.w.handler ∧ w.wtcmp = c.w.wtcmp)

/-- R58, R91: a write into a sector that its home slice holds under the writer's key changes the bytes it names to the last value given, and no
other byte of the sector. -/
def Sys2Proof.Machine.SectorBytes : Prop :=
  ∀ (s : State) (e sector : Nat) (at' : Attr) (w : Doing) (bs : List (Nat × Byte)) (poison : Bool) (x : L2Sec),
    paKind (sector * 64) = .hbm → homeDie (sector * 64) = e → s.sec e sector = some x → x.key = at'.key → x.have_ ≠ 0 → x.data.length = 64 →
    at'.cp ≠ 2 → w.op = none → s.ownWrites e sector = [] → (∀ b ∈ bs, b.1 < 64) →
    ∀ i < 64, (s.writeSector e at' w sector bs poison).dieByte e at' (sector * 64 + i) =
      match (bs.filter fun b => b.1 = i).getLast? with
      | some b => b.2
      | none => s.dieByte e at' (sector * 64 + i)

/-- What a store leaves alone -/
def Obligations.StoreFrame : Prop := StoreEffects ∧ SectorBytes

/-- R10, R257, R343: a load or store with a misaligned lane traps with the alignment cause before any lane accesses memory: the lanes are the misaligned
ones, the address the lowest lane's. -/
def Sys2Proof.Machine.MisalignedAccesses : Prop :=
  ∀ (i : Instr) (r : MemRule) (k : AccKind) (s : State), (loadRule i = some r ∧ k = .read) ∨ (storeRule i = some r ∧ k = .write) → s.Issues →
    let c := s.seen i
    let e := s.entering i
    let z := Size.bytes r.z
    c.Usable c.act r.needs → c.act ≠ 0 → c.w.regionOpen = false →
    ∀ accs l ea, c.addresses e r.sp r.a r.o = some accs → (accs.find? fun (p : Nat × Int) => p.2 % (z : Int) ≠ 0) = some (l, ea) →
      let lanes := maskOf fun j => accs.any fun (p : Nat × Int) => p.2 % (z : Int) ≠ 0 && p.1 = j
      let va := if r.sp = .glob then some (ea.toNat % 2 ^ 64) else none
      exec i s = .next (c.trapped e { cause := 0x0A, lanes := lanes, d := BitVec.ofInt 64 ea, a := accessWord 0 false k r.sp, va := va })

/-- Effective addresses of lanes, and the alignment trap before any access -/
def Obligations.EffectiveAndMisalignedAddresses : Prop := EffectiveAddresses ∧ MisalignedAccesses

/-- R30, R31: a stage-2 lookup refuses by the first row that matches, and a walk then faults with that cause; a write or a fetch that a leaf
forbids is PERM, one that the leaf allows and its stage-2 entry forbids is S2PERM, and what is permitted is permitted by both stages. -/
def Obligations.TranslationPermissions : Prop :=
  (∀ (s : State) (d part ipa : Nat), (s.die d).maps = [] → s.mapEntry d part ipa = s.entryAt (get 0 s.pmap part + ipa / 2 ^ 30 % 2 ^ 18 * 8)) ∧
  (∀ (s : State) (d part ipa : Nat) (e : Nat), s.mapEntry d part ipa = (e, false) →
    let frame := e / 2 ^ 30 % 2 ^ 22 * 2 ^ 30
    (e % 2 = 0 → s.stage2 d part ipa = .error (some 0x16)) ∧
    (e % 2 = 1 → (e / 2 ^ 52 % 2 ^ 12 ≠ 0 ∨ e / 2 ^ 3 % 2 ^ 27 ≠ 0) → s.stage2 d part ipa = .error (some 0x17)) ∧
    (e % 2 = 1 → e / 2 ^ 52 % 2 ^ 12 = 0 → e / 2 ^ 3 % 2 ^ 27 = 0 →
      (paKind frame = .control ∨ paKind frame = .onchip ∨ paKind frame = .reserved) → s.stage2 d part ipa = .error (some 0x18)) ∧
    (e % 2 = 1 → e / 2 ^ 52 % 2 ^ 12 = 0 → e / 2 ^ 3 % 2 ^ 27 = 0 →
      (paKind frame = .hbm ∨ paKind frame = .host ∨ paKind frame = .peer) →
      s.stage2 d part ipa = .ok (frame + ipa % 2 ^ 30, decide (e / 2 % 2 = 1), decide (e / 4 % 2 = 1)))) ∧
  (∀ (s : State) (d agent asid va part ipa l c : Nat) (ls seen : List Nat), s.stage2 d part ipa = .error (some c) →
    ∃ f, s.walkFrom d agent asid va part (l :: ls) ipa seen = (.fault f, seen ++ [ipa]) ∧ f.cause = c ∧ f.s2 = true ∧ f.level = l) ∧
  (∀ (s : State) (t : Tlb) (k : AccKind) (user : Bool) (pa : Nat),
    (user = true → t.entry.getLsbD 4 = true) →
    ((k.writes = true ∧ t.entry.getLsbD 2 = false) ∨ (k = .fetch ∧ t.entry.getLsbD 3 = false) →
      ∃ f, s.leafCheck t k .any user pa = .error f ∧ f.cause = 0x14 ∧ f.s2 = false) ∧
    ((k.writes = true → t.entry.getLsbD 2 = true) → (k = .fetch → t.entry.getLsbD 3 = true) →
      (k.writes = true ∧ t.w2 = false) ∨ (k = .fetch ∧ t.x2 = false) →
      ∃ f, s.leafCheck t k .any user pa = .error f ∧ f.cause = 0x19 ∧ f.s2 = true)) ∧
  (∀ (s : State) (t : Tlb) (k : AccKind) (u : LeafUse) (user : Bool) (pa : Nat) (at' : Attr), s.leafCheck t k u user pa = .ok at' →
    (k.writes = true → t.entry.getLsbD 2 = true ∧ t.w2 = true) ∧ (k = .fetch → t.entry.getLsbD 3 = true ∧ t.x2 = true) ∧
    (user = true → t.entry.getLsbD 4 = true))

end
end

