-- ==== Sys2Proof/Laws/Run.lean ====
section
/-! SUPPORT. How one instruction of the issuing split runs: its checks passed, its body, and how it ended. -/

namespace Sys2Proof.Machine

/-! ### An instruction of a live split -/

theorem run_ok {i : Instr} {s : State} {body : Ctx → State → Act State} (h : s.Issues) :
    run i s body = .next (State.finish (s.seen i) (body (s.seen i) (s.entering i)).ends) := by
  unfold run
  unfold State.Issues at h
  cases hs : s.split? s.cur with
  | none => simp [hs] at h
  | some x => rfl

theorem guard_ok {c : Ctx} {s : State} {ls : LaneMask} {ns : List Need} {maps : List (Src × OpFmt)} (h : c.Usable ls ns maps) :
    c.guard s ls ns maps = .ok () := by
  simp [Ctx.guard, h.inRange, h.slots, h.ready]

theorem memGuard_ok {c : Ctx} {s : State} {ns : List Need} {maps : List (Src × OpFmt)} (h : c.Usable c.act ns maps) (ha : c.act ≠ 0) :
    c.memGuard s ns maps = .ok () := by
  rw [Ctx.memGuard, if_neg ha, guard_ok h]

theorem memGuard_none {c : Ctx} {s : State} {ns : List Need} {maps : List (Src × OpFmt)} (h : c.Usable 0 []) (ha : c.act = 0) :
    c.memGuard s ns maps = .ok () := by
  rw [Ctx.memGuard, if_pos ha, guard_ok h]

theorem writeLanes_ok {c : Ctx} {s s' : State} {long : Bool} {d : Dst} {n : Nat} {res : List (Nat × List LaneWord)}
    {extra : List RegName × List RegWrite} (h : c.Trails s (c.laneWrites d n res) s') :
    c.writeLanes s long d n res extra =
      .ok (c.commit s' long (namesOf (c.laneWrites d n res) ++ extra.1) (c.laneWrites d n res ++ extra.2)) := by
  have e1 : ∀ (ws : List (Nat × Nat × LaneWord)), lanesWritten (ws.map fun w => RegWrite.v w.2.1 w.1 w.2.2) = ws.map fun w => (w.1, w.2.1) := by
    intro ws; induction ws with
    | nil => rfl
    | cons w r ih => simp [lanesWritten] at *
  have e2 : ∀ (ws : List (Nat × Nat × LaneWord)), namesOf (ws.map fun w => RegWrite.v w.2.1 w.1 w.2.2) = (ws.map fun w => RegName.v w.2.1).eraseDups := by
    intro ws; unfold namesOf; congr 1; induction ws with
    | nil => rfl
    | cons w r ih => simp at *
  have e3 : c.laneWrites d n res = ((((res.map fun r => (r.1, (c.number d.n.toNat d.ix r.1).toNat, r.2)).flatMap fun h => h.2.2.zipIdx.map fun x => (h.1, h.2.1 + x.2, x.1)) ++
    ((c.zeroed d n).flatMap fun z => (List.range n).map fun i => (z.1, z.2 + i, ({} : LaneWord)))).map fun w => RegWrite.v w.2.1 w.1 w.2.2) := by
    simp [Ctx.laneWrites, List.map_flatMap, List.flatMap_map, Function.comp_def]
  unfold Ctx.Trails at h
  rw [e3, e1] at h
  rw [e3, e2]
  simp only [Ctx.writeLanes]
  erw [h]
  rfl

/-! ### Parts of an instruction, and how it ends -/

@[simp] theorem act_ok_bind {α β : Type} (a : α) (f : α → Act β) : ((Except.ok a : Act α) >>= f) = f a := rfl
@[simp] theorem act_error_bind {α β : Type} (e : End × State) (f : α → Act β) : ((Except.error e : Act α) >>= f) = .error e := rfl
@[simp] theorem act_pure {α : Type} (a : α) : (pure a : Act α) = .ok a := rfl
@[simp] theorem finish_ok (c : Ctx) (t : State) : State.finish c (Act.ends (.ok t)) = c.done t := rfl
@[simp] theorem finish_moved (c : Ctx) (t : State) : State.finish c (Act.ends (stop .moved t)) = c.jumped t := rfl
@[simp] theorem finish_wait (c : Ctx) (t : State) (b : Block) : State.finish c (Act.ends (stop (.wait b) t)) = c.blocked t b := rfl
@[simp] theorem finish_again (c : Ctx) (t : State) : State.finish c (Act.ends (stop .again t)) = t := rfl
@[simp] theorem finish_trap (c : Ctx) (s : State) (t : Trap) : State.finish c (Act.ends (stop (.trap t) s)) = c.trapped s t := rfl
@[simp] theorem finish_kill (c : Ctx) (s : State) : State.finish c (Act.ends (stop .kill s)) = (s.killGang c.core c.room).issued c := rfl

/-! ### Lane-wise results -/

theorem laneWise_ok {c : Ctx} {s s' : State} {long flags : Bool} {d : Dst} {ops : List (Nat × Src × OpFmt)} {f : List W32 → W32 × FFlags}
    (hu : c.Usable c.act (dstNeed 1 d ++ ops.flatMap fun o => srcNeed o.1 1 o.2.1) (ops.map (·.2)))
    (ht : c.Trails s (c.laneWrites d 1 ((lanesOf c.act).map fun l =>
      (l, [laneResult (fun x => (f x).1) (ops.map fun o => c.vec s c.act o.2.1 o.2.2) l]))) s') :
    let vals := ops.map fun o => c.vec s c.act o.2.1 o.2.2
    let ws := c.laneWrites d 1 ((lanesOf c.act).map fun l => (l, [laneResult (fun x => (f x).1) vals l]))
    let ex := if flags then flagWrites (laneFlags (fun x => (f x).2) vals (lanesOf c.act)) else ([], [])
    c.laneWise s long flags d ops f = .ok (c.commit s' long (namesOf ws ++ ex.1) (ws ++ ex.2)) := by
  simp only [Ctx.laneWise, guard_ok hu]
  generalize ops.map (fun o => c.vec s c.act o.2.1 o.2.2) = vals at *
  have e1 : ((lanesOf c.act).map fun l => (l, [laneResult (fun x => (f x).1) vals l])) =
    (((lanesOf c.act).map fun l =>
    if (vals.map fun v => at_ {} v l).any (·.poison) then (l, LaneWord.of 0 true, (0 : FFlags))
    else (l, LaneWord.of (f ((vals.map fun v => at_ {} v l).map (·.data))).1 false, (f ((vals.map fun v => at_ {} v l).map (·.data))).2)).map
      fun r => (r.1, [r.2.1])) := by
    rw [List.map_map]; apply List.map_congr_left; intro l _
    simp only [laneResult, laneArgs, Function.comp]
    by_cases h : (vals.map fun v => at_ {} v l).any (·.poison) = true
    · rw [if_pos h, if_pos h]; rfl
    · rw [if_neg h, if_neg h]; rfl
  have e2 : (((lanesOf c.act).map fun l =>
    if (vals.map fun v => at_ {} v l).any (·.poison) then (l, LaneWord.of 0 true, (0 : FFlags))
    else (l, LaneWord.of (f ((vals.map fun v => at_ {} v l).map (·.data))).1 false, (f ((vals.map fun v => at_ {} v l).map (·.data))).2)).foldl
      (fun (acc : FFlags) r => acc ||| r.2.2) 0) = laneFlags (fun x => (f x).2) vals (lanesOf c.act) := by
    rw [List.foldl_map, laneFlags]; congr 1; funext acc l
    simp only [laneArgs]; 
    by_cases h : (vals.map fun v => at_ {} v l).any (·.poison) = true
    · rw [if_pos h, if_pos h]
    · rw [if_neg h, if_neg h]
  rw [e1] at ht ⊢
  erw [writeLanes_ok ht, e2]
  rfl

end Sys2Proof.Machine
end

