-- ==== Sys2Proof/Laws/Access.lean ====
section
/-! SUPPORT. What the shared parts of memory, synchronisation and control instructions answer, in the words of the statements. -/

namespace Sys2Proof.Machine

theorem ksrc_eq (c : Ctx) (a : Src) : c.ksrc a = ⟨(c.uniform a).1, (c.uniform a).2⟩ := by
  cases a <;> rfl

@[simp] theorem planned_ok {α : Type} (x : α) (p : Option LoadPlan) : Act.planned (.ok x) p = .ok x := rfl

theorem load_none {c : Ctx} {e : State} {sp : Space} {z : Size} {d : Dst} {a : Src} {o : Off} {q : Option Scope}
    (hu : c.Usable 0 []) (h : c.act = 0) : c.load e sp z d a o q = .ok e := by
  simp only [Ctx.load, memGuard_none hu h, h, act_ok_bind, if_true, act_pure]

theorem load_ok {c : Ctx} {e e1 e' : State} {sp : Space} {z : Size} {d : Dst} {a : Src} {o : Off} {q : Option Scope}
    {accs : List (Nat × Int)} {ps : List (Nat × Place)}
    (hu : c.Usable c.act (dstNeed (Size.regs z) d ++ addrNeeds sp a o)) (h : c.act ≠ 0) (ha : c.addresses e sp a o = some accs)
    (hp : c.places e sp .read .any (Size.bytes z) (Size.bytes z) none accs = .ok ps)
    (hk : e.keptPlaces (ps.map (·.2)) (Size.bytes z) = false) 
    (ho : c.observe e q (ps.map (·.2)) (Size.bytes z) (some (firstAddr accs)) = .ok e1)
    (ht : c.Trails e1 (c.laneWrites d (Size.regs z) (ps.map fun p => (p.1, loadWords z (e1.readPlace c.die c.owner p.2 (Size.bytes z)).1 (e1.readPlace c.die c.owner p.2 (Size.bytes z)).2))) e') :
    let ws := c.laneWrites d (Size.regs z) (ps.map fun p => (p.1, loadWords z (e1.readPlace c.die c.owner p.2 (Size.bytes z)).1 (e1.readPlace c.die c.owner p.2 (Size.bytes z)).2))
    c.load e sp z d a o q = .ok { c.commit e' true (namesOf ws) ws with
      misses := (c.commit e' true (namesOf ws) ws).misses + e1.readMisses (ps.map (·.2)) } := by
  intro ws
  simp only [Ctx.load, memGuard_ok hu h, act_ok_bind, h, if_false, ha, hp, hk, ho, planned_ok, Bool.false_eq_true]
  erw [writeLanes_ok ht]
  simp only [List.append_nil]; rfl

theorem store_none {c : Ctx} {e : State} {sp : Space} {z : Size} {d : Dst} {a : Src} {o : Off} {q : Option Scope}
    (hu : c.Usable 0 []) (h : c.act = 0) : c.store e sp z d a o q = .ok e := by
  simp only [Ctx.store, memGuard_none hu h, h, act_ok_bind, if_true, act_pure]

theorem store_ok {c : Ctx} {e e1 : State} {sp : Space} {z : Size} {d : Dst} {a : Src} {o : Off} {q : Option Scope}
    {accs : List (Nat × Int)} {ps : List (Nat × Place)}
    (hu : c.Usable c.act (dstNeed (Size.regs z) d ++ addrNeeds sp a o)) (h : c.act ≠ 0) (ha : c.addresses e sp a o = some accs)
    (hp : c.storePlaces e sp .write (Size.bytes z) accs = .ok ps)
    (ho : match q with
      | some sc => c.releaseNow e sc = .ok e1
      | none => e1 = e) :
    let data := fun l => (List.range (Size.regs z)).map fun i => c.vlane e ((c.number d.n.toNat d.ix l).toNat + i) l
    c.store e sp z d a o q = .ok (e1.writePlaces c.die c.owner ((q.map wideScope).getD false)
        (ps.map fun p => (p.2, storeBytes z (data p.1), (data p.1).any (·.poison)))) := by
  intro data
  simp only [Ctx.store, memGuard_ok hu h, act_ok_bind, h, if_false, ha, hp]
  cases q with
  | none => subst ho; rfl
  | some sc => simp only at ho; simp only [ho]; rfl

theorem atomic_none {c : Ctx} {e : State} {g : Access} {d : Dst} {a b : Src} {fm : OpFmt} {fl useD : Bool} {f : Nat → Nat → Nat → Nat × FFlags}
    (hu : c.Usable 0 []) (h : c.act = 0) : c.atomic e g d a b fm fl useD f = .ok e := by
  simp only [Ctx.atomic, memGuard_none hu h, h, act_ok_bind, if_true, act_pure]

theorem lanesRun_fold (r : AtomRule) (c : Ctx) (e : State) (ps : List (Nat × Place)) (s : State) (res : List (Nat × Nat × Bool)) (fl : FFlags)
    (E D : Nat → KReg) (hE : ∀ l, E l = r.opE c e l) (hD : ∀ l, (if r.useD then D l else {}) = r.opD c e l) :
   ps.foldl (fun (m : Rmw × FFlags) p =>
            let o := m.1.s.readPlace c.die c.owner p.2 (4 * r.n)
            let x := E p.1
            let y : KReg := if r.useD then D p.1 else {}
            let bad := o.2 || x.poison || y.poison
            let z := r.f c (ofBytes o.1) x.data.toNat y.data.toNat
            let bs := if bad then List.replicate (4 * r.n) 0 else leBytes (4 * r.n) z.1
            ({ s := c.rmwWrite m.1.s ((r.g.ord = .rel || r.g.ord = .ar) && wideScope r.g.scope) p.2 bs bad
               res := m.1.res ++ [(p.1, ofBytes o.1, bad)] }, if bad then m.2 else m.2 ||| z.2))
            (({ s := s, res := res } : Rmw), fl) = ({ s := (r.lanesRun c e ps s).1, res := res ++ (r.lanesRun c e ps s).2.1 }, fl ||| (r.lanesRun c e ps s).2.2) := by
  induction ps generalizing s res fl with
  | nil => simp [AtomRule.lanesRun]
  | cons p rest ih =>
    simp only [List.foldl_cons]
    rw [ih]
    simp only [hE, hD]
    simp only [AtomRule.lanesRun]
    refine Prod.ext ?_ ?_
    · simp [List.append_assoc]
    · simp only
      split <;> simp [BitVec.or_assoc]

theorem lowest_zero : lowest (0 : LaneMask) = none := by decide

theorem resume_ok {r : SplitRef} {s : State} {kinds : List Nat} {k : Nat} {i : Instr} {x : Words} {body : Ctx → Instr → Block → State → Act State}
    (h : s.Waiting r k i x) (hk : k ∈ kinds) {t : State} (hb : body (s.waiter r x) i (s.blockOf r) { s with cur := r } = .ok t) :
   resume r s kinds body = s.resumed r x t := by
  obtain ⟨h1, h2, h3, h4⟩ := h
  unfold resume
  cases hs : s.split? r with
  | none => simp [hs] at h1
  | some y =>
    simp only [h2, h3, h4]
    rw [if_neg (by simpa using hk)]
    unfold State.waiter at hb
    rw [hb]; rfl

theorem arrive_eq {c : Ctx} {e t : State} {x : BarCtl} {l addr : Nat} {tin tout : W32} {p : Place} {bs : List Byte} {z : State} {w : Bool}
    (h : c.arrives e t x l addr tin tout p bs (fun u => State.finish c (Act.ends (if w then c.genWait u x l addr (Barrier.of bs).gen false true (barBlock addr (Barrier.of bs).gen true) else .ok u))) z) :
   State.finish c (c.arrive e x l addr tin tout w).ends = z := by
  obtain ⟨h1, h2, h3⟩ := h
  unfold Ctx.arrive
  simp only [h1, h2, act_ok_bind]
  generalize (Barrier.of bs).arrive tin.toInt tout.toInt = q at h3
  cases q with
  | barf => simp only at h3; rw [h3]; rfl
  | wait => simp only at h3; rw [h3]; rfl
  | ok b =>
    simp only at h3
    simp only [h3.1, act_ok_bind]
    rw [h3.2]
    unfold Ctx.arrived
    cases w <;> rfl

theorem addLane_single (t : W64) (m : LaneMask) (l : Nat) : addLane [⟨t, m⟩] t l = [⟨t, m ||| bitOf l⟩] := by simp [addLane]

theorem pathsOf_const (m : LaneMask) (f : Nat → W64) (pc : W64) (hm : m ≠ 0) (hf : ∀ l ∈ lanesOf m, f l = pc) : ∃ q, pathsOf m f = [⟨pc, q⟩] := by
  have aux : ∀ (ls : List Nat) (q : LaneMask), (∀ l ∈ ls, f l = pc) → ∃ q', ls.foldl (fun ps l => addLane ps (f l) l) [⟨pc, q⟩] = [⟨pc, q'⟩] := by
    intro ls
    induction ls with
    | nil => intro q _; exact ⟨q, rfl⟩
    | cons l r ih =>
      intro q h
      simp only [List.foldl_cons, h l (by simp), addLane_single]
      exact ih _ fun l hl => h l (by simp [hl])
  have hne : lanesOf m ≠ [] := by
    intro h
    apply hm
    simp only [lanesOf, List.filter_eq_nil_iff] at h
    apply BitVec.eq_of_getLsbD_eq
    intro i hi
    have := h i (by simp [lanes]; omega)
    simpa [lane] using this
  unfold pathsOf
  cases hl : lanesOf m with
  | nil => exact absurd hl hne
  | cons l r =>
    simp only [List.foldl_cons]
    rw [hf l (by simp [hl])]
    exact aux r _ fun k hk => hf k (by simp [hl, hk])

theorem dest_eq (c : Ctx) (imm : W32) : c.target imm = c.dest imm := by
  unfold Ctx.target Ctx.dest
  rw [BitVec.ofInt_add, BitVec.ofInt_toInt]
  congr 1
  rw [BitVec.ofInt_mul, BitVec.mul_comm]
  congr 1

/-- The least rank of refused accesses is 0 just where one of them has it. -/
theorem fold_min (cs : Checks) (f : (Nat × Int × Check) → Option Nat) (b : Option Nat) :
   cs.foldl (fun (b : Option Nat) c => match f c, b with | some r, some b => some (min r b) | some r, none => some r | none, b => b) b = some 0 ↔
     (b = some 0 ∨ ∃ c ∈ cs, f c = some 0) := by
  induction cs generalizing b with
  | nil => simp
  | cons c r ih =>
    rw [List.foldl_cons, ih]
    simp only [List.mem_cons, exists_eq_or_imp]
    rw [← or_assoc]
    apply or_congr_left
    cases hf : f c <;> cases b <;> simp
    omega

theorem tbit_toNat (e : BitVec 64) (n : Nat) : tbit e.toNat n = e.getLsbD n := by
  unfold tbit
  rw [BitVec.getLsbD, Nat.testBit_eq_decide_div_mod_eq]

end Sys2Proof.Machine
end

