-- ==== Sys2Proof/Laws/Decode.lean ====
section
/-! SUPPORT. The round trip of the encoding: what packing and reading the fields of a word give back, and from that the round trip of
one instruction. -/

namespace Sys2Proof

/-- R181: no bit of a Base word is lost by packing its fields. -/
theorem Base.unpack_pack (g : Base) : Base.unpack g.pack = g := by
  obtain ⟨rsv, ru, cm, bm, am, dx, f, c, b, a, d, la, op⟩ := g
  simp only [Base.unpack, Base.pack, Base.mk.injEq]
  refine ⟨?_, ?_, ?_, ?_, ?_, ?_, ?_, ?_, ?_, ?_, ?_, ?_, ?_⟩ <;>
  · apply BitVec.eq_of_getElem_eq
    intro i hi
    simp only [BitVec.getElem_extractLsb', BitVec.getLsbD_append]
    interval_cases i <;> simp [BitVec.getLsbD_eq_getElem]

/-- R182: no bit of an I-format word is lost by packing its fields. -/
theorem IWord.unpack_pack (g : IWord) : IWord.unpack g.pack = g := by
  obtain ⟨imm, f4, a, d, la, op⟩ := g
  simp only [IWord.unpack, IWord.pack, IWord.mk.injEq]
  refine ⟨?_, ?_, ?_, ?_, ?_, ?_⟩ <;>
  · apply BitVec.eq_of_getElem_eq
    intro i hi
    simp only [BitVec.getElem_extractLsb', BitVec.getLsbD_append]
    interval_cases i <;> simp [BitVec.getLsbD_eq_getElem]

/-- R183: no bit of a prefix word is lost by packing its fields. -/
theorem PWord.unpack_pack (g : PWord) : PWord.unpack g.pack = g := by
  obtain ⟨rsv, sat, em, e, rm, mz, mn, mreg, op⟩ := g
  simp only [PWord.unpack, PWord.pack, PWord.mk.injEq]
  refine ⟨?_, ?_, ?_, ?_, ?_, ?_, ?_, ?_, ?_⟩ <;>
  · apply BitVec.eq_of_getElem_eq
    intro i hi
    simp only [BitVec.getElem_extractLsb', BitVec.getLsbD_append]
    interval_cases i <;> simp [BitVec.getLsbD_eq_getElem]

/-- The operand that a source's own mode and field spell is that source. -/
theorem Src.of_mode_field (s : Src) : Src.of s.mode s.field = s := by
  cases s with
  | map h n =>
    have : ∀ h : BitVec 2, ∀ n, Src.of ((1 : BitVec 1) ++ h) n = .map h n := by
      intro h n
      have : ∀ h : BitVec 2, ((1 : BitVec 1) ++ h).toNat ≠ 0 ∧ ((1 : BitVec 1) ++ h).toNat ≠ 1 ∧ ((1 : BitVec 1) ++ h).toNat ≠ 2 ∧ ((1 : BitVec 1) ++ h).toNat ≠ 3 ∧ ((1 : BitVec 1) ++ h).extractLsb' 0 2 = h := by decide
      obtain ⟨a,b,c,d,e⟩ := this h
      unfold Src.of
      split <;> simp_all
    exact this h n
  | _ => rfl

theorem RMode.of_code (m : RMode) : RMode.of m.code = some m := by cases m <;> rfl

theorem Pfx.toPfx_toPWord (x : Pfx) : x.toPWord.toPfx = some x := by
  obtain ⟨m, mn, mz, rm, e, sat⟩ := x
  cases mn <;> cases mz <;> cases sat <;> simp [Pfx.toPWord, PWord.toPfx, RMode.of_code, Src.of_mode_field]

theorem Base.ctl_eq (x : Ctl) (g : Base) (h1 : g.la = x.la) (h2 : g.ru = if x.ru then 1 else 0) : g.ctl (x.pfx.map Pfx.toPWord) = x := by
  obtain ⟨la, ru, pfx⟩ := x
  simp only [Base.ctl, h1, h2, Ctl.mk.injEq, true_and]
  refine ⟨by cases ru <;> rfl, by cases pfx <;> simp [Pfx.toPfx_toPWord]⟩

theorem IWord.ctl_eq (x : Ctl) (g : IWord) (h1 : g.la = x.la) (h2 : x.ru = false) : g.ctl (x.pfx.map Pfx.toPWord) = x := by
  obtain ⟨la, ru, pfx⟩ := x
  simp only [IWord.ctl, h1, Ctl.mk.injEq, true_and]
  refine ⟨h2.symm, by cases pfx <;> simp [Pfx.toPfx_toPWord]⟩

theorem decode_base {p : Option Pfx} {g : Base} {i : Instr} (h0 : g.op ≠ 0) (hi : isI g.op = false)
   (hl : ill { pw := p.map fun p => p.toPWord.pack, w := g.pack } = none) (h : g.instr (p.map Pfx.toPWord) = some i) :
    decodeWords { pw := p.map fun p => p.toPWord.pack, w := g.pack } = .ok i := by
  have ho : g.pack.extractLsb' 0 8 = g.op := congrArg Base.op (Base.unpack_pack g)
  have hp : (p.map fun p => p.toPWord.pack).map PWord.unpack = p.map Pfx.toPWord := by cases p <;> simp [PWord.unpack_pack]
  unfold decodeWords
  rw [if_neg (by rw [ho]; exact h0), hl]
  simp only [ho, hi, hp, Base.unpack_pack, h]
  rfl

theorem decode_iform {p : Option Pfx} {g : IWord} {i : Instr} (h0 : g.op ≠ 0) (hi : isI g.op = true)
   (hl : ill { pw := p.map fun p => p.toPWord.pack, w := g.pack } = none) (h : g.instr (p.map Pfx.toPWord) = some i) :
    decodeWords { pw := p.map fun p => p.toPWord.pack, w := g.pack } = .ok i := by
  have ho : g.pack.extractLsb' 0 8 = g.op := congrArg IWord.op (IWord.unpack_pack g)
  have hp : (p.map fun p => p.toPWord.pack).map PWord.unpack = p.map Pfx.toPWord := by cases p <;> simp [PWord.unpack_pack]
  unfold decodeWords
  rw [if_neg (by rw [ho]; exact h0), hl]
  simp only [ho, hi, hp, IWord.unpack_pack, h]
  rfl

theorem A_eq (g : Base) (s : Src) (h : g.am = s.mode) (h2 : g.a = s.field) : g.A = s := by rw [Base.A, h, h2, Src.of_mode_field]

theorem B_eq (g : Base) (s : Src) (h : g.bm = s.mode) (h2 : g.b = s.field) : g.B = s := by rw [Base.B, h, h2, Src.of_mode_field]

theorem C_eq (g : Base) (s : Src) (h : g.cm = s.mode) (h2 : g.c = s.field) : g.C = s := by rw [Base.C, h, h2, Src.of_mode_field]

theorem D_eq (g : Base) (d : Dst) (h : g.dx = if d.ix then 1 else 0) (h2 : g.d = d.n) : g.D = d := by
  obtain ⟨ix, n⟩ := d
  cases ix <;> simp_all [Base.D]

theorem f0_f0F (g : Base) (b : Bool) (h : g.f = f0F b) : g.f0 = b := by rw [Base.f0, h]; cases b <;> rfl

theorem f4_cmpF (t : Bool) (c : BitVec 4) : (cmpF t c).getLsbD 4 = t := by revert c; cases t <;> decide

theorem cc_cmpF (t : Bool) (c : BitVec 4) : (cmpF t c).extractLsb' 0 4 = c := by revert c; cases t <;> decide

theorem ICond.of_code (c : ICond) : ICond.of c.code = some c := by cases c <;> rfl

theorem FCond.of_code (c : FCond) : FCond.of c.code = some c := by cases c <;> rfl

theorem Size.of_code (c : Size) : Size.of c.code = some c := by cases c <;> rfl

theorem sizeF_eq (b : Bool) (sz : Size) : Size.of ((bit1 b ++ sz.code).extractLsb' 0 3) = some sz := by cases b <;> cases sz <;> rfl

theorem updateF_eq (b : Bool) (sz : Size) : (bit1 b ++ sz.code).getLsbD 3 = b := by cases b <;> cases sz <;> rfl

set_option maxHeartbeats 1000000 in
/-- The words of an instruction are those of its fields, packed. -/
theorem encode_eq (i : Instr) (x : Ctl) (w : Word64) (h1 : i.word64 = some w) (h : i.ctl? = some x) : encode i = some { pw := x.pfx.map fun p => p.toPWord.pack, w := w.pack } := by
  have : encode i = match i.word64, i.ctl? with
    | some w, some x => some { pw := x.pfx.map fun p => p.toPWord.pack, w := w.pack }
    | _, _ => none := by
    cases i
    case illegal => exact nomatch (show (none : Option Ctl) = some x from h)
    all_goals rfl
  rw [this, h1, h]

set_option maxHeartbeats 1000000 in
/-- A well-formed instruction, the low2_eq with a check of their own apart, is flag_eq that legal words spell. -/
theorem wf_eq (i : Instr) (x : Ctl) (h : i.ctl? = some x) : i.wf = match encode i with
    | some x => (ill x).isNone && i.keeps
    | none => true := by
  cases i
  case illegal => exact nomatch (show (none : Option Ctl) = some x from h)
  case fusedSoftmax => exact nomatch (show (none : Option Ctl) = some x from h)
  all_goals rfl

/-- What it says of an instruction that its words are those of a well-formed flag_eq: they are legal, and keep its reuse hint. -/
theorem roundTrip_parts {i : Instr} {x : Ctl} {w : Word64} {z : Words} (h1 : i.word64 = some w) (h2 : i.ctl? = some x) (hw : i.WellFormed) (he : encode i = some z) :
    z = { pw := x.pfx.map fun p => p.toPWord.pack, w := w.pack } ∧ ill z = none ∧ w.keepsRu x = true := by
  have hk : i.keeps = w.keepsRu x := by unfold Instr.keeps; rw [h1, h2]
  constructor
  · rw [encode_eq i x w h1 h2] at he; exact (Option.some.inj he).symm
  · unfold Instr.WellFormed at hw
    rw [wf_eq i x h2, he] at hw
    simp only [Bool.and_eq_true, Option.isNone_iff_eq_none, hk] at hw
    exact hw

/-- The round trip of a Base instruction, from that of its fields. -/
theorem roundTrip_base {i : Instr} {x : Ctl} {g : Base} {z : Words} (o : BitVec 8) (h1 : i.word64 = some (.base g)) (h2 : i.ctl? = some x) (hw : i.WellFormed) (he : encode i = some z)
    (ho : g.op = o) (h0 : o ≠ 0) (hi : isI o = false) (h : g.instr (x.pfx.map Pfx.toPWord) = some i) : decodeWords z = .ok i := by
  obtain ⟨rfl, a, _⟩ := roundTrip_parts h1 h2 hw he
  exact decode_base (ho ▸ h0) (ho ▸ hi) a h

/-- The round trip of an I-format instruction, from that of its fields. -/
theorem roundTrip_iform {i : Instr} {x : Ctl} {g : IWord} {z : Words} (o : BitVec 8) (h1 : i.word64 = some (.iform g)) (h2 : i.ctl? = some x) (hw : i.WellFormed) (he : encode i = some z)
    (ho : g.op = o) (h0 : o ≠ 0) (hi : isI o = true) (h : x.ru = false → g.instr (x.pfx.map Pfx.toPWord) = some i) : decodeWords z = .ok i := by
  obtain ⟨rfl, a, b⟩ := roundTrip_parts h1 h2 hw he
  exact decode_iform (ho ▸ h0) (ho ▸ hi) a (h (by simpa [Word64.keepsRu] using b))

/-- Which family of OP reads a Base word: by its high four bits. -/
theorem family_eq (p : Option PWord) (g : Base) (o : BitVec 8) (h : g.op = o) :
   (o.toNat / 16 = 0 ∨ o.toNat / 16 = 1 ∨ o.toNat / 16 = 2 → g.instr p = g.instr0 p) ∧ (o.toNat / 16 = 3 → g.instr p = g.instr3 p) ∧
   (o.toNat / 16 = 4 ∨ o.toNat / 16 = 5 → g.instr p = g.instr4 p) ∧ (o.toNat / 16 = 6 ∨ o.toNat / 16 = 7 → g.instr p = g.instr6 p) ∧
   (o.toNat / 16 = 8 ∨ o.toNat / 16 = 9 → g.instr p = g.instr8 p) ∧ (o.toNat / 16 = 10 ∨ o.toNat / 16 = 11 → g.instr p = g.instrA p) ∧
   (o.toNat / 16 = 12 ∨ o.toNat / 16 = 13 → g.instr p = g.instrC p) := by
  unfold Base.instr
  rw [h]
  refine ⟨?_, ?_, ?_, ?_, ?_, ?_, ?_⟩
  · rintro (h | h | h) <;> simp only [h]
  · intro h; simp only [h]
  all_goals rintro (h | h) <;> simp only [h]

theorem f0_eq (g : Base) (b : Bool) (h : g.f = f0F b) : g.f0 = b := by rw [Base.f0, h]; cases b <;> rfl

theorem n2_low (n : BitVec 2) : (n2 n).extractLsb' 0 2 = n := by revert n; decide

theorem off_eq (off : BitVec 24) : off.extractLsb' 16 8 ++ off.extractLsb' 8 8 ++ off.extractLsb' 0 8 = off := by
  apply BitVec.eq_of_getElem_eq
  intro i hi
  simp only [BitVec.getElem_append, BitVec.getElem_extractLsb']
  interval_cases i <;> simp [BitVec.getLsbD_eq_getElem]

theorem stdC_eq (sp : Bool) (f : BitVec 5) : ((0 : BitVec 1) ++ bit1 sp ++ (0 : BitVec 1) ++ f).getLsbD 6 = sp ∧ ((0 : BitVec 1) ++ bit1 sp ++ (0 : BitVec 1) ++ f).extractLsb' 0 5 = f := by
  revert f; cases sp <;> decide

theorem cbankF_eq (sp : Bool) (j : BitVec 3) : ((0 : BitVec 4) ++ bit1 sp ++ j).getLsbD 3 = sp ∧ ((0 : BitVec 4) ++ bit1 sp ++ j).extractLsb' 0 3 = j := by
  revert j; cases sp <;> decide

theorem access_eq (G : Base) (g : Access) (hf : G.f = g.orderF) (hc : G.c = g.descC) : G.access = some g := by
  obtain ⟨sp, sz, o, sc, w⟩ := g
  have h1 : Space.of (((0 : BitVec 1) ++ sp.code ++ (0 : BitVec 1) ++ sz.code).extractLsb' 4 3) = some sp ∧ Size.of (((0 : BitVec 1) ++ sp.code ++ (0 : BitVec 1) ++ sz.code).extractLsb' 0 3) = some sz := by
    cases sp <;> cases sz <;> decide
  have h2 : Scope.of ((o.code ++ sc.code ++ bit1 w).extractLsb' 1 3) = some sc ∧ Order.of ((o.code ++ sc.code ++ bit1 w).extractLsb' 4 2) = o ∧ (o.code ++ sc.code ++ bit1 w).getLsbD 0 = w := by
    cases o <;> cases sc <;> cases w <;> decide
  unfold Access.descC at hc
  unfold Access.orderF at hf
  simp only [Base.access, hf, hc, h1, h2]; rfl

theorem bar_eq (G : Base) (g : BarCtl) (hc : G.c = g.byte) : G.bar = some g := by
  obtain ⟨te, w, sc⟩ := g
  have h2 : Scope.of (((0 : BitVec 3) ++ bit1 te ++ bit1 w ++ sc.code).extractLsb' 0 3) = some sc ∧ ((0 : BitVec 3) ++ bit1 te ++ bit1 w ++ sc.code).getLsbD 4 = te ∧ ((0 : BitVec 3) ++ bit1 te ++ bit1 w ++ sc.code).getLsbD 3 = w := by
    cases te <;> cases sc <;> cases w <;> decide
  unfold BarCtl.byte at hc
  simp only [Base.bar, hc, h2]; rfl

theorem icondF_eq (t : Bool) (c : ICond) : ICond.of ((cmpF t c.code).extractLsb' 0 4) = some c := by rw [cc_cmpF, ICond.of_code]

theorem fcondF_eq (t : Bool) (c : FCond) : FCond.of ((cmpF t c.code).extractLsb' 0 4) = some c := by rw [cc_cmpF, FCond.of_code]

theorem halves_eq (a b : BitVec 3) : (a ++ b).extractLsb' 3 3 = a ∧ (a ++ b).extractLsb' 0 3 = b := by revert a b; decide

theorem FFmt.of_code (c : FFmt) : FFmt.of c.code = some c := by cases c <;> decide

theorem IFmt.of_code (c : IFmt) : IFmt.of c.code = some c := by cases c <;> decide

theorem IRed.of_code (c : IRed) : IRed.of c.code = c := by cases c <;> decide

theorem FRed.of_code (c : FRed) : FRed.of c.code = some c := by cases c <;> decide

theorem PollOp.of_code (c : PollOp) : PollOp.of c.code = some c := by cases c <;> decide

theorem ShMode.of_code (c : ShMode) : ShMode.of c.code = c := by cases c <;> decide

theorem Scope.of_code (c : Scope) : Scope.of c.code = some c := by cases c <;> decide

theorem low3_eq (b : BitVec 3) : ((0 : BitVec 3) ++ b).extractLsb' 0 3 = b := by revert b; decide

theorem low2_eq (b : BitVec 2) : ((0 : BitVec 4) ++ b).extractLsb' 0 2 = b := by revert b; decide

theorem scanF_eq (e : Bool) (b : BitVec 3) : ((0 : BitVec 2) ++ bit1 e ++ b).extractLsb' 0 3 = b ∧ ((0 : BitVec 2) ++ bit1 e ++ b).getLsbD 3 = e := by revert b; cases e <;> decide

theorem fenceC_eq (c : Scope) : Scope.of (((3 : BitVec 2) ++ c.code ++ (0 : BitVec 1)).extractLsb' 1 3) = some c := by cases c <;> decide

theorem gbarC_eq (c : Scope) : Scope.of (((0 : BitVec 5) ++ c.code).extractLsb' 0 3) = some c := by cases c <;> decide

theorem flag_eq (b : Bool) : decide ((if b then 1 else 0 : BitVec 8) = 1) = b := by cases b <;> decide

theorem lddC_eq (sp hdr : Bool) (f : LddFmt) :
    ((0 : BitVec 1) ++ bit1 sp ++ (0 : BitVec 2) ++ bit1 hdr ++ (0 : BitVec 1) ++ f.code).getLsbD 6 = sp ∧
    ((0 : BitVec 1) ++ bit1 sp ++ (0 : BitVec 2) ++ bit1 hdr ++ (0 : BitVec 1) ++ f.code).getLsbD 3 = hdr ∧
    LddFmt.of (((0 : BitVec 1) ++ bit1 sp ++ (0 : BitVec 2) ++ bit1 hdr ++ (0 : BitVec 1) ++ f.code).extractLsb' 0 2) = some f := by
  cases sp <;> cases hdr <;> cases f <;> decide

end Sys2Proof
end

