-- ==== Sys2Proof/Laws/Tables.lean ====
section
/-! SUPPORT. Sparse tables: what a read gives after a write, and that every operation on a table keeps its canonical form. -/

namespace Sys2Proof.Machine

variable {α : Type}

@[simp] theorem get_nil (d : α) (k : Nat) : get d [] k = d := rfl

@[simp] theorem get_cons_self (d x : α) (r : List (Nat × α)) (k : Nat) : get d ((k, x) :: r) k = x := by simp [get]

theorem get_cons_ne (d x : α) (r : List (Nat × α)) {i k : Nat} (h : i ≠ k) : get d ((i, x) :: r) k = get d r k := by simp [get, h]

/-! ### Reads after writes -/

theorem get_insertAt_self (d : α) (t : List (Nat × α)) (k : Nat) (v : α) (h : ∀ p ∈ t, p.1 ≠ k) : get d (insertAt t k v) k = v := by
  induction t with
  | nil => simp [insertAt]
  | cons p r ih =>
    obtain ⟨i, x⟩ := p
    have hi : i ≠ k := h (i, x) (by simp)
    rw [insertAt]
    split
    · simp
    · rw [get_cons_ne _ _ _ hi]; exact ih fun p hp => h p (by simp [hp])

theorem get_insertAt_ne (d : α) (t : List (Nat × α)) {k j : Nat} (v : α) (h : j ≠ k) : get d (insertAt t k v) j = get d t j := by
  induction t with
  | nil => simp [insertAt, get, Ne.symm h]
  | cons p r ih =>
    obtain ⟨i, x⟩ := p
    rw [insertAt]
    split
    · simp [get, Ne.symm h]
    · by_cases hi : i = j <;> simp [get, hi, ih]

theorem get_without_ne (d : α) (t : List (Nat × α)) {k j : Nat} (h : j ≠ k) : get d (without t k) j = get d t j := by
  induction t with
  | nil => rfl
  | cons p r ih =>
    obtain ⟨i, x⟩ := p
    by_cases hi : i = k
    · have : i ≠ j := by omega
      simp [without, hi, get, Ne.symm h] at *; exact ih
    · by_cases hj : i = j <;> simp_all [without, get]

theorem get_without_self (d : α) (t : List (Nat × α)) (k : Nat) : get d (without t k) k = d := by
  induction t with
  | nil => rfl
  | cons p r ih =>
    obtain ⟨i, x⟩ := p
    by_cases hi : i = k
    · simpa [without, hi] using ih
    · simp_all [without, get]

theorem without_ne (t : List (Nat × α)) (k : Nat) : ∀ p ∈ without t k, p.1 ≠ k := by simp [without]

/-- Reading a key after writing it gives the value written. -/
@[simp] theorem get_put_self [DecidableEq α] (d : α) (t : List (Nat × α)) (k : Nat) (v : α) : get d (put d t k v) k = v := by
  rw [put]
  split
  · rename_i h; rw [get_without_self, h]
  · exact get_insertAt_self d _ k v (without_ne t k)

/-- Writing a key leaves every other key alone. -/
theorem get_put_ne [DecidableEq α] (d : α) (t : List (Nat × α)) {k j : Nat} (v : α) (h : j ≠ k) :
    get d (put d t k v) j = get d t j := by
  rw [put]
  split
  · exact get_without_ne d t h
  · rw [get_insertAt_ne d _ v h, get_without_ne d t h]

/-- Writing bytes leaves every address outside them alone. -/
theorem get_putBytes_out (t : List (Nat × Byte)) (bs : List Byte) {a j : Nat} (h : j < a ∨ a + bs.length ≤ j) :
    get unwritten (putBytes t a bs) j = get unwritten t j := by
  induction bs generalizing t a with
  | nil => rfl
  | cons b r ih =>
    simp only [List.length_cons] at h
    rw [putBytes, ih _ (by omega), get_put_ne _ _ _ (by omega)]

/-- Bytes written read back. -/
theorem get_putBytes_in (t : List (Nat × Byte)) (bs : List Byte) (a i : Nat) (h : i < bs.length) :
    get unwritten (putBytes t a bs) (a + i) = bs[i] := by
  induction bs generalizing t a i with
  | nil => simp at h
  | cons b r ih =>
    rw [putBytes]
    cases i with
    | zero => rw [get_putBytes_out _ _ (by omega)]; simp
    | succ i =>
      have := ih (put unwritten t a b) (a + 1) i (by simpa using h)
      simpa [Nat.add_assoc, Nat.add_comm 1] using this

theorem get_eraseCells (t : List Host.Cell) {a n j : Nat} (h : j < a ∨ a + n ≤ j) :
    get unwritten (eraseCells t a n) j = get unwritten t j := by
  induction t with
  | nil => rfl
  | cons p r ih =>
    obtain ⟨i, x⟩ := p
    by_cases hi : i = j
    · simp [eraseCells, hi, h, get]
    · by_cases hp : i < a ∨ a + n ≤ i <;> simp_all [eraseCells, get]

/-! ### The canonical form -/

theorem risingFrom_mono {b c : Nat} {t : List (Nat × α)} (hbc : c ≤ b) (h : risingFrom b t = true) : risingFrom c t = true := by
  cases t with
  | nil => rfl
  | cons p r => obtain ⟨i, x⟩ := p; simp only [risingFrom, Bool.and_eq_true, decide_eq_true_eq] at *; exact ⟨by omega, h.2⟩

theorem risingFrom_filter (q : Nat × α → Bool) {b : Nat} {t : List (Nat × α)} (h : risingFrom b t = true) :
    risingFrom b (t.filter q) = true := by
  induction t generalizing b with
  | nil => rfl
  | cons p r ih =>
    obtain ⟨i, x⟩ := p
    simp only [risingFrom, Bool.and_eq_true, decide_eq_true_eq] at h
    rw [List.filter_cons]
    split
    · simp [risingFrom, h.1, ih h.2]
    · exact risingFrom_mono (by omega) (ih h.2)

theorem risingFrom_insertAt {b : Nat} {t : List (Nat × α)} (k : Nat) (v : α) (hk : b ≤ k) (hn : ∀ p ∈ t, p.1 ≠ k)
    (h : risingFrom b t = true) : risingFrom b (insertAt t k v) = true := by
  induction t generalizing b with
  | nil => simp [insertAt, risingFrom, hk]
  | cons p r ih =>
    obtain ⟨i, x⟩ := p
    simp only [risingFrom, Bool.and_eq_true, decide_eq_true_eq] at h
    have hi : i ≠ k := hn (i, x) (by simp)
    rw [insertAt]
    split
    · simp [risingFrom, hk, h.2]; omega
    · have := ih (b := i + 1) (by omega) (fun p hp => hn p (by simp [hp])) h.2
      simp [risingFrom, h.1, this]

theorem mem_insertAt {t : List (Nat × α)} {k : Nat} {v : α} {p : Nat × α} (h : p ∈ insertAt t k v) : p = (k, v) ∨ p ∈ t := by
  induction t with
  | nil => simp_all [insertAt]
  | cons q r ih =>
    rw [insertAt] at h
    split at h
    · simpa using h
    · rcases List.mem_cons.1 h with h | h
      · exact .inr (by simp [h])
      · rcases ih h with h | h
        · exact .inl h
        · exact .inr (by simp [h])

theorem tableWf_filter [DecidableEq α] {d : α} (q : Nat × α → Bool) {t : List (Nat × α)} (h : tableWf d t = true) :
    tableWf d (t.filter q) = true := by
  simp only [tableWf, Bool.and_eq_true, List.all_eq_true] at *
  exact ⟨risingFrom_filter q h.1, fun p hp => h.2 p (List.mem_filter.1 hp).1⟩

/-- A write keeps the canonical form: the default is not listed, and keys stay in order. -/
theorem tableWf_put [DecidableEq α] {d : α} {t : List (Nat × α)} (k : Nat) (v : α) (h : tableWf d t = true) :
    tableWf d (put d t k v) = true := by
  have hw : tableWf d (without t k) = true := tableWf_filter _ h
  rw [put]
  split
  · exact hw
  · rename_i hv
    simp only [tableWf, Bool.and_eq_true, List.all_eq_true] at *
    refine ⟨risingFrom_insertAt k v (by omega) (without_ne t k) hw.1, fun p hp => ?_⟩
    rcases mem_insertAt hp with rfl | hp
    · simpa using hv
    · exact hw.2 p hp

theorem tableWf_putBytes {t : List (Nat × Byte)} (a : Nat) (bs : List Byte) (h : tableWf unwritten t = true) :
    tableWf unwritten (putBytes t a bs) = true := by
  induction bs generalizing t a with
  | nil => exact h
  | cons b r ih => exact ih _ (tableWf_put a b h)

theorem tableWf_eraseCells {t : List Host.Cell} (a n : Nat) (h : tableWf unwritten t = true) :
    tableWf unwritten (eraseCells t a n) = true := tableWf_filter _ h

theorem tableWf_foldl {β : Type} {f : List Host.Cell → β → List Host.Cell} (hf : ∀ m b, tableWf unwritten m → tableWf unwritten (f m b))
    (l : List β) {t : List Host.Cell} (h : tableWf unwritten t = true) : tableWf unwritten (l.foldl f t) = true := by
  induction l generalizing t with
  | nil => exact h
  | cons b r ih => exact ih (hf _ _ h)

/-! ### Lists with one entry changed -/

theorem modifyAt_length (t : List α) (k : Nat) (f : α → α) : (modifyAt t k f).length = t.length := by
  induction t generalizing k with
  | nil => rfl
  | cons x r ih => cases k <;> simp [modifyAt, ih]

theorem getD_modifyAt_self (t : List α) (k : Nat) (f : α → α) (d : α) (h : k < t.length) :
    (modifyAt t k f).getD k d = f (t.getD k d) := by
  induction t generalizing k with
  | nil => simp at h
  | cons x r ih => cases k <;> simp_all [modifyAt]

theorem getD_modifyAt_ne (t : List α) {k j : Nat} (f : α → α) (d : α) (h : j ≠ k) : (modifyAt t k f).getD j d = t.getD j d := by
  induction t generalizing k j with
  | nil => rfl
  | cons x r ih => cases k <;> cases j <;> simp_all [modifyAt]

end Sys2Proof.Machine
end

