-- ==== Sys2Proof/Laws/State.lean ====
section
/-! SUPPORT. What each update of the state leaves alone, one lemma a field, and what it changes. -/

namespace Sys2Proof.Machine

/-! ### A core -/

section
variable (s : State) (c : Nat) (f : Core → Core)

@[simp] theorem State.modCore_agenda : (s.modCore c f).agenda = s.agenda := rfl
@[simp] theorem State.modCore_turn : (s.modCore c f).turn = s.turn := rfl
@[simp] theorem State.modCore_cur : (s.modCore c f).cur = s.cur := rfl
@[simp] theorem State.modCore_draws : (s.modCore c f).draws = s.draws := rfl
@[simp] theorem State.modCore_gtime : (s.modCore c f).gtime = s.gtime := rfl
@[simp] theorem State.modCore_mem : (s.modCore c f).mem = s.mem := rfl
@[simp] theorem State.modCore_memPoison : (s.modCore c f).memPoison = s.memPoison := rfl
@[simp] theorem State.modCore_memKey : (s.modCore c f).memKey = s.memKey := rfl
@[simp] theorem State.modCore_memHdr : (s.modCore c f).memHdr = s.memHdr := rfl
@[simp] theorem State.modCore_l2 : (s.modCore c f).l2 = s.l2 := rfl
@[simp] theorem State.modCore_dies : (s.modCore c f).dies = s.dies := rfl
@[simp] theorem State.modCore_net : (s.modCore c f).net = s.net := rfl
@[simp] theorem State.modCore_netSeq : (s.modCore c f).netSeq = s.netSeq := rfl
@[simp] theorem State.modCore_msgs : (s.modCore c f).msgs = s.msgs := rfl
@[simp] theorem State.modCore_asidBase : (s.modCore c f).asidBase = s.asidBase := rfl
@[simp] theorem State.modCore_pmap : (s.modCore c f).pmap = s.pmap := rfl
@[simp] theorem State.modCore_keyMap : (s.modCore c f).keyMap = s.keyMap := rfl
@[simp] theorem State.modCore_keySlots : (s.modCore c f).keySlots = s.keySlots := rfl
@[simp] theorem State.modCore_tenantKey : (s.modCore c f).tenantKey = s.tenantKey := rfl
@[simp] theorem State.modCore_tlb : (s.modCore c f).tlb = s.tlb := rfl
@[simp] theorem State.modCore_walked : (s.modCore c f).walked = s.walked := rfl
@[simp] theorem State.modCore_atc : (s.modCore c f).atc = s.atc := rfl
@[simp] theorem State.modCore_ats : (s.modCore c f).ats = s.ats := rfl
@[simp] theorem State.modCore_atcDrain : (s.modCore c f).atcDrain = s.atcDrain := rfl
@[simp] theorem State.modCore_inval : (s.modCore c f).inval = s.inval := rfl
@[simp] theorem State.modCore_invals : (s.modCore c f).invals = s.invals := rfl
@[simp] theorem State.modCore_buckets : (s.modCore c f).buckets = s.buckets := rfl
@[simp] theorem State.modCore_reqs : (s.modCore c f).reqs = s.reqs := rfl
@[simp] theorem State.modCore_served : (s.modCore c f).served = s.served := rfl
@[simp] theorem State.modCore_wire : (s.modCore c f).wire = s.wire := rfl
@[simp] theorem State.modCore_window : (s.modCore c f).window = s.window := rfl
@[simp] theorem State.modCore_paced : (s.modCore c f).paced = s.paced := rfl
@[simp] theorem State.modCore_counters : (s.modCore c f).counters = s.counters := rfl
@[simp] theorem State.modCore_tasks : (s.modCore c f).tasks = s.tasks := rfl
@[simp] theorem State.modCore_queues : (s.modCore c f).queues = s.queues := rfl
@[simp] theorem State.modCore_queueCap : (s.modCore c f).queueCap = s.queueCap := rfl
@[simp] theorem State.modCore_quota : (s.modCore c f).quota = s.quota := rfl
@[simp] theorem State.modCore_launches : (s.modCore c f).launches = s.launches := rfl
@[simp] theorem State.modCore_saved : (s.modCore c f).saved = s.saved := rfl
@[simp] theorem State.modCore_stays : (s.modCore c f).stays = s.stays := rfl
@[simp] theorem State.modCore_started : (s.modCore c f).started = s.started := rfl
@[simp] theorem State.modCore_shares : (s.modCore c f).shares = s.shares := rfl
@[simp] theorem State.modCore_misses : (s.modCore c f).misses = s.misses := rfl
@[simp] theorem State.modCore_tries : (s.modCore c f).tries = s.tries := rfl
@[simp] theorem State.modCore_fns : (s.modCore c f).fns = s.fns := rfl
@[simp] theorem State.modCore_fnPart : (s.modCore c f).fnPart = s.fnPart := rfl
@[simp] theorem State.modCore_clusters : (s.modCore c f).clusters = s.clusters := rfl
@[simp] theorem State.modCore_resets : (s.modCore c f).resets = s.resets := rfl
@[simp] theorem State.modCore_irqs : (s.modCore c f).irqs = s.irqs := rfl
@[simp] theorem State.modCore_held : (s.modCore c f).held = s.held := rfl
@[simp] theorem State.modCore_fw : (s.modCore c f).fw = s.fw := rfl
@[simp] theorem State.modCore_ports : (s.modCore c f).ports = s.ports := rfl
@[simp] theorem State.modCore_scan : (s.modCore c f).scan = s.scan := rfl
@[simp] theorem State.modCore_mhz : (s.modCore c f).mhz = s.mhz := rfl
@[simp] theorem State.modCore_tripped : (s.modCore c f).tripped = s.tripped := rfl
@[simp] theorem State.modCore_lantern : (s.modCore c f).lantern = s.lantern := rfl
@[simp] theorem State.modCore_doe : (s.modCore c f).doe = s.doe := rfl
@[simp] theorem State.modCore_out : (s.modCore c f).out = s.out := rfl

end

/-! ### A die -/

section
variable (s : State) (e : Nat) (f : Die → Die)

@[simp] theorem State.modDie_agenda : (s.modDie e f).agenda = s.agenda := rfl
@[simp] theorem State.modDie_turn : (s.modDie e f).turn = s.turn := rfl
@[simp] theorem State.modDie_cur : (s.modDie e f).cur = s.cur := rfl
@[simp] theorem State.modDie_draws : (s.modDie e f).draws = s.draws := rfl
@[simp] theorem State.modDie_gtime : (s.modDie e f).gtime = s.gtime := rfl
@[simp] theorem State.modDie_cores : (s.modDie e f).cores = s.cores := rfl
@[simp] theorem State.modDie_mem : (s.modDie e f).mem = s.mem := rfl
@[simp] theorem State.modDie_memPoison : (s.modDie e f).memPoison = s.memPoison := rfl
@[simp] theorem State.modDie_memKey : (s.modDie e f).memKey = s.memKey := rfl
@[simp] theorem State.modDie_memHdr : (s.modDie e f).memHdr = s.memHdr := rfl
@[simp] theorem State.modDie_l2 : (s.modDie e f).l2 = s.l2 := rfl
@[simp] theorem State.modDie_net : (s.modDie e f).net = s.net := rfl
@[simp] theorem State.modDie_netSeq : (s.modDie e f).netSeq = s.netSeq := rfl
@[simp] theorem State.modDie_msgs : (s.modDie e f).msgs = s.msgs := rfl
@[simp] theorem State.modDie_asidBase : (s.modDie e f).asidBase = s.asidBase := rfl
@[simp] theorem State.modDie_pmap : (s.modDie e f).pmap = s.pmap := rfl
@[simp] theorem State.modDie_keyMap : (s.modDie e f).keyMap = s.keyMap := rfl
@[simp] theorem State.modDie_keySlots : (s.modDie e f).keySlots = s.keySlots := rfl
@[simp] theorem State.modDie_tenantKey : (s.modDie e f).tenantKey = s.tenantKey := rfl
@[simp] theorem State.modDie_tlb : (s.modDie e f).tlb = s.tlb := rfl
@[simp] theorem State.modDie_walked : (s.modDie e f).walked = s.walked := rfl
@[simp] theorem State.modDie_atc : (s.modDie e f).atc = s.atc := rfl
@[simp] theorem State.modDie_ats : (s.modDie e f).ats = s.ats := rfl
@[simp] theorem State.modDie_atcDrain : (s.modDie e f).atcDrain = s.atcDrain := rfl
@[simp] theorem State.modDie_inval : (s.modDie e f).inval = s.inval := rfl
@[simp] theorem State.modDie_invals : (s.modDie e f).invals = s.invals := rfl
@[simp] theorem State.modDie_buckets : (s.modDie e f).buckets = s.buckets := rfl
@[simp] theorem State.modDie_reqs : (s.modDie e f).reqs = s.reqs := rfl
@[simp] theorem State.modDie_served : (s.modDie e f).served = s.served := rfl
@[simp] theorem State.modDie_wire : (s.modDie e f).wire = s.wire := rfl
@[simp] theorem State.modDie_window : (s.modDie e f).window = s.window := rfl
@[simp] theorem State.modDie_paced : (s.modDie e f).paced = s.paced := rfl
@[simp] theorem State.modDie_counters : (s.modDie e f).counters = s.counters := rfl
@[simp] theorem State.modDie_tasks : (s.modDie e f).tasks = s.tasks := rfl
@[simp] theorem State.modDie_queues : (s.modDie e f).queues = s.queues := rfl
@[simp] theorem State.modDie_queueCap : (s.modDie e f).queueCap = s.queueCap := rfl
@[simp] theorem State.modDie_quota : (s.modDie e f).quota = s.quota := rfl
@[simp] theorem State.modDie_launches : (s.modDie e f).launches = s.launches := rfl
@[simp] theorem State.modDie_saved : (s.modDie e f).saved = s.saved := rfl
@[simp] theorem State.modDie_stays : (s.modDie e f).stays = s.stays := rfl
@[simp] theorem State.modDie_started : (s.modDie e f).started = s.started := rfl
@[simp] theorem State.modDie_shares : (s.modDie e f).shares = s.shares := rfl
@[simp] theorem State.modDie_misses : (s.modDie e f).misses = s.misses := rfl
@[simp] theorem State.modDie_tries : (s.modDie e f).tries = s.tries := rfl
@[simp] theorem State.modDie_fns : (s.modDie e f).fns = s.fns := rfl
@[simp] theorem State.modDie_fnPart : (s.modDie e f).fnPart = s.fnPart := rfl
@[simp] theorem State.modDie_clusters : (s.modDie e f).clusters = s.clusters := rfl
@[simp] theorem State.modDie_resets : (s.modDie e f).resets = s.resets := rfl
@[simp] theorem State.modDie_irqs : (s.modDie e f).irqs = s.irqs := rfl
@[simp] theorem State.modDie_held : (s.modDie e f).held = s.held := rfl
@[simp] theorem State.modDie_fw : (s.modDie e f).fw = s.fw := rfl
@[simp] theorem State.modDie_ports : (s.modDie e f).ports = s.ports := rfl
@[simp] theorem State.modDie_scan : (s.modDie e f).scan = s.scan := rfl
@[simp] theorem State.modDie_mhz : (s.modDie e f).mhz = s.mhz := rfl
@[simp] theorem State.modDie_tripped : (s.modDie e f).tripped = s.tripped := rfl
@[simp] theorem State.modDie_lantern : (s.modDie e f).lantern = s.lantern := rfl
@[simp] theorem State.modDie_doe : (s.modDie e f).doe = s.doe := rfl
@[simp] theorem State.modDie_out : (s.modDie e f).out = s.out := rfl

end

/-! ### What is sent out -/

section
variable (s : State) (o : Out)

@[simp] theorem State.emit_agenda : (s.emit o).agenda = s.agenda := rfl
@[simp] theorem State.emit_turn : (s.emit o).turn = s.turn := rfl
@[simp] theorem State.emit_cur : (s.emit o).cur = s.cur := rfl
@[simp] theorem State.emit_draws : (s.emit o).draws = s.draws := rfl
@[simp] theorem State.emit_gtime : (s.emit o).gtime = s.gtime := rfl
@[simp] theorem State.emit_cores : (s.emit o).cores = s.cores := rfl
@[simp] theorem State.emit_mem : (s.emit o).mem = s.mem := rfl
@[simp] theorem State.emit_memPoison : (s.emit o).memPoison = s.memPoison := rfl
@[simp] theorem State.emit_memKey : (s.emit o).memKey = s.memKey := rfl
@[simp] theorem State.emit_memHdr : (s.emit o).memHdr = s.memHdr := rfl
@[simp] theorem State.emit_l2 : (s.emit o).l2 = s.l2 := rfl
@[simp] theorem State.emit_dies : (s.emit o).dies = s.dies := rfl
@[simp] theorem State.emit_net : (s.emit o).net = s.net := rfl
@[simp] theorem State.emit_netSeq : (s.emit o).netSeq = s.netSeq := rfl
@[simp] theorem State.emit_msgs : (s.emit o).msgs = s.msgs := rfl
@[simp] theorem State.emit_asidBase : (s.emit o).asidBase = s.asidBase := rfl
@[simp] theorem State.emit_pmap : (s.emit o).pmap = s.pmap := rfl
@[simp] theorem State.emit_keyMap : (s.emit o).keyMap = s.keyMap := rfl
@[simp] theorem State.emit_keySlots : (s.emit o).keySlots = s.keySlots := rfl
@[simp] theorem State.emit_tenantKey : (s.emit o).tenantKey = s.tenantKey := rfl
@[simp] theorem State.emit_tlb : (s.emit o).tlb = s.tlb := rfl
@[simp] theorem State.emit_walked : (s.emit o).walked = s.walked := rfl
@[simp] theorem State.emit_atc : (s.emit o).atc = s.atc := rfl
@[simp] theorem State.emit_ats : (s.emit o).ats = s.ats := rfl
@[simp] theorem State.emit_atcDrain : (s.emit o).atcDrain = s.atcDrain := rfl
@[simp] theorem State.emit_inval : (s.emit o).inval = s.inval := rfl
@[simp] theorem State.emit_invals : (s.emit o).invals = s.invals := rfl
@[simp] theorem State.emit_buckets : (s.emit o).buckets = s.buckets := rfl
@[simp] theorem State.emit_reqs : (s.emit o).reqs = s.reqs := rfl
@[simp] theorem State.emit_served : (s.emit o).served = s.served := rfl
@[simp] theorem State.emit_wire : (s.emit o).wire = s.wire := rfl
@[simp] theorem State.emit_window : (s.emit o).window = s.window := rfl
@[simp] theorem State.emit_paced : (s.emit o).paced = s.paced := rfl
@[simp] theorem State.emit_counters : (s.emit o).counters = s.counters := rfl
@[simp] theorem State.emit_tasks : (s.emit o).tasks = s.tasks := rfl
@[simp] theorem State.emit_queues : (s.emit o).queues = s.queues := rfl
@[simp] theorem State.emit_queueCap : (s.emit o).queueCap = s.queueCap := rfl
@[simp] theorem State.emit_quota : (s.emit o).quota = s.quota := rfl
@[simp] theorem State.emit_launches : (s.emit o).launches = s.launches := rfl
@[simp] theorem State.emit_saved : (s.emit o).saved = s.saved := rfl
@[simp] theorem State.emit_stays : (s.emit o).stays = s.stays := rfl
@[simp] theorem State.emit_started : (s.emit o).started = s.started := rfl
@[simp] theorem State.emit_shares : (s.emit o).shares = s.shares := rfl
@[simp] theorem State.emit_misses : (s.emit o).misses = s.misses := rfl
@[simp] theorem State.emit_tries : (s.emit o).tries = s.tries := rfl
@[simp] theorem State.emit_fns : (s.emit o).fns = s.fns := rfl
@[simp] theorem State.emit_fnPart : (s.emit o).fnPart = s.fnPart := rfl
@[simp] theorem State.emit_clusters : (s.emit o).clusters = s.clusters := rfl
@[simp] theorem State.emit_resets : (s.emit o).resets = s.resets := rfl
@[simp] theorem State.emit_irqs : (s.emit o).irqs = s.irqs := rfl
@[simp] theorem State.emit_held : (s.emit o).held = s.held := rfl
@[simp] theorem State.emit_fw : (s.emit o).fw = s.fw := rfl
@[simp] theorem State.emit_ports : (s.emit o).ports = s.ports := rfl
@[simp] theorem State.emit_scan : (s.emit o).scan = s.scan := rfl
@[simp] theorem State.emit_mhz : (s.emit o).mhz = s.mhz := rfl
@[simp] theorem State.emit_tripped : (s.emit o).tripped = s.tripped := rfl
@[simp] theorem State.emit_lantern : (s.emit o).lantern = s.lantern := rfl
@[simp] theorem State.emit_doe : (s.emit o).doe = s.doe := rfl

end

/-! ### A function -/

section
variable (s : State) (n : Nat) (f : Fn → Fn)

@[simp] theorem State.modFn_agenda : (s.modFn n f).agenda = s.agenda := rfl
@[simp] theorem State.modFn_turn : (s.modFn n f).turn = s.turn := rfl
@[simp] theorem State.modFn_cur : (s.modFn n f).cur = s.cur := rfl
@[simp] theorem State.modFn_draws : (s.modFn n f).draws = s.draws := rfl
@[simp] theorem State.modFn_gtime : (s.modFn n f).gtime = s.gtime := rfl
@[simp] theorem State.modFn_cores : (s.modFn n f).cores = s.cores := rfl
@[simp] theorem State.modFn_mem : (s.modFn n f).mem = s.mem := rfl
@[simp] theorem State.modFn_memPoison : (s.modFn n f).memPoison = s.memPoison := rfl
@[simp] theorem State.modFn_memKey : (s.modFn n f).memKey = s.memKey := rfl
@[simp] theorem State.modFn_memHdr : (s.modFn n f).memHdr = s.memHdr := rfl
@[simp] theorem State.modFn_l2 : (s.modFn n f).l2 = s.l2 := rfl
@[simp] theorem State.modFn_dies : (s.modFn n f).dies = s.dies := rfl
@[simp] theorem State.modFn_net : (s.modFn n f).net = s.net := rfl
@[simp] theorem State.modFn_netSeq : (s.modFn n f).netSeq = s.netSeq := rfl
@[simp] theorem State.modFn_msgs : (s.modFn n f).msgs = s.msgs := rfl
@[simp] theorem State.modFn_asidBase : (s.modFn n f).asidBase = s.asidBase := rfl
@[simp] theorem State.modFn_pmap : (s.modFn n f).pmap = s.pmap := rfl
@[simp] theorem State.modFn_keyMap : (s.modFn n f).keyMap = s.keyMap := rfl
@[simp] theorem State.modFn_keySlots : (s.modFn n f).keySlots = s.keySlots := rfl
@[simp] theorem State.modFn_tenantKey : (s.modFn n f).tenantKey = s.tenantKey := rfl
@[simp] theorem State.modFn_tlb : (s.modFn n f).tlb = s.tlb := rfl
@[simp] theorem State.modFn_walked : (s.modFn n f).walked = s.walked := rfl
@[simp] theorem State.modFn_atc : (s.modFn n f).atc = s.atc := rfl
@[simp] theorem State.modFn_ats : (s.modFn n f).ats = s.ats := rfl
@[simp] theorem State.modFn_atcDrain : (s.modFn n f).atcDrain = s.atcDrain := rfl
@[simp] theorem State.modFn_inval : (s.modFn n f).inval = s.inval := rfl
@[simp] theorem State.modFn_invals : (s.modFn n f).invals = s.invals := rfl
@[simp] theorem State.modFn_buckets : (s.modFn n f).buckets = s.buckets := rfl
@[simp] theorem State.modFn_reqs : (s.modFn n f).reqs = s.reqs := rfl
@[simp] theorem State.modFn_served : (s.modFn n f).served = s.served := rfl
@[simp] theorem State.modFn_wire : (s.modFn n f).wire = s.wire := rfl
@[simp] theorem State.modFn_window : (s.modFn n f).window = s.window := rfl
@[simp] theorem State.modFn_paced : (s.modFn n f).paced = s.paced := rfl
@[simp] theorem State.modFn_counters : (s.modFn n f).counters = s.counters := rfl
@[simp] theorem State.modFn_tasks : (s.modFn n f).tasks = s.tasks := rfl
@[simp] theorem State.modFn_queues : (s.modFn n f).queues = s.queues := rfl
@[simp] theorem State.modFn_queueCap : (s.modFn n f).queueCap = s.queueCap := rfl
@[simp] theorem State.modFn_quota : (s.modFn n f).quota = s.quota := rfl
@[simp] theorem State.modFn_launches : (s.modFn n f).launches = s.launches := rfl
@[simp] theorem State.modFn_saved : (s.modFn n f).saved = s.saved := rfl
@[simp] theorem State.modFn_stays : (s.modFn n f).stays = s.stays := rfl
@[simp] theorem State.modFn_started : (s.modFn n f).started = s.started := rfl
@[simp] theorem State.modFn_shares : (s.modFn n f).shares = s.shares := rfl
@[simp] theorem State.modFn_misses : (s.modFn n f).misses = s.misses := rfl
@[simp] theorem State.modFn_tries : (s.modFn n f).tries = s.tries := rfl
@[simp] theorem State.modFn_fnPart : (s.modFn n f).fnPart = s.fnPart := rfl
@[simp] theorem State.modFn_clusters : (s.modFn n f).clusters = s.clusters := rfl
@[simp] theorem State.modFn_resets : (s.modFn n f).resets = s.resets := rfl
@[simp] theorem State.modFn_irqs : (s.modFn n f).irqs = s.irqs := rfl
@[simp] theorem State.modFn_held : (s.modFn n f).held = s.held := rfl
@[simp] theorem State.modFn_fw : (s.modFn n f).fw = s.fw := rfl
@[simp] theorem State.modFn_ports : (s.modFn n f).ports = s.ports := rfl
@[simp] theorem State.modFn_scan : (s.modFn n f).scan = s.scan := rfl
@[simp] theorem State.modFn_mhz : (s.modFn n f).mhz = s.mhz := rfl
@[simp] theorem State.modFn_tripped : (s.modFn n f).tripped = s.tripped := rfl
@[simp] theorem State.modFn_lantern : (s.modFn n f).lantern = s.lantern := rfl
@[simp] theorem State.modFn_doe : (s.modFn n f).doe = s.doe := rfl
@[simp] theorem State.modFn_out : (s.modFn n f).out = s.out := rfl

end

/-! ### A launch -/

section
variable (s : State) (l : Nat) (f : Launch → Launch)

@[simp] theorem State.modLaunch_agenda : (s.modLaunch l f).agenda = s.agenda := rfl
@[simp] theorem State.modLaunch_turn : (s.modLaunch l f).turn = s.turn := rfl
@[simp] theorem State.modLaunch_cur : (s.modLaunch l f).cur = s.cur := rfl
@[simp] theorem State.modLaunch_draws : (s.modLaunch l f).draws = s.draws := rfl
@[simp] theorem State.modLaunch_gtime : (s.modLaunch l f).gtime = s.gtime := rfl
@[simp] theorem State.modLaunch_cores : (s.modLaunch l f).cores = s.cores := rfl
@[simp] theorem State.modLaunch_mem : (s.modLaunch l f).mem = s.mem := rfl
@[simp] theorem State.modLaunch_memPoison : (s.modLaunch l f).memPoison = s.memPoison := rfl
@[simp] theorem State.modLaunch_memKey : (s.modLaunch l f).memKey = s.memKey := rfl
@[simp] theorem State.modLaunch_memHdr : (s.modLaunch l f).memHdr = s.memHdr := rfl
@[simp] theorem State.modLaunch_l2 : (s.modLaunch l f).l2 = s.l2 := rfl
@[simp] theorem State.modLaunch_dies : (s.modLaunch l f).dies = s.dies := rfl
@[simp] theorem State.modLaunch_net : (s.modLaunch l f).net = s.net := rfl
@[simp] theorem State.modLaunch_netSeq : (s.modLaunch l f).netSeq = s.netSeq := rfl
@[simp] theorem State.modLaunch_msgs : (s.modLaunch l f).msgs = s.msgs := rfl
@[simp] theorem State.modLaunch_asidBase : (s.modLaunch l f).asidBase = s.asidBase := rfl
@[simp] theorem State.modLaunch_pmap : (s.modLaunch l f).pmap = s.pmap := rfl
@[simp] theorem State.modLaunch_keyMap : (s.modLaunch l f).keyMap = s.keyMap := rfl
@[simp] theorem State.modLaunch_keySlots : (s.modLaunch l f).keySlots = s.keySlots := rfl
@[simp] theorem State.modLaunch_tenantKey : (s.modLaunch l f).tenantKey = s.tenantKey := rfl
@[simp] theorem State.modLaunch_tlb : (s.modLaunch l f).tlb = s.tlb := rfl
@[simp] theorem State.modLaunch_walked : (s.modLaunch l f).walked = s.walked := rfl
@[simp] theorem State.modLaunch_atc : (s.modLaunch l f).atc = s.atc := rfl
@[simp] theorem State.modLaunch_ats : (s.modLaunch l f).ats = s.ats := rfl
@[simp] theorem State.modLaunch_atcDrain : (s.modLaunch l f).atcDrain = s.atcDrain := rfl
@[simp] theorem State.modLaunch_inval : (s.modLaunch l f).inval = s.inval := rfl
@[simp] theorem State.modLaunch_invals : (s.modLaunch l f).invals = s.invals := rfl
@[simp] theorem State.modLaunch_buckets : (s.modLaunch l f).buckets = s.buckets := rfl
@[simp] theorem State.modLaunch_reqs : (s.modLaunch l f).reqs = s.reqs := rfl
@[simp] theorem State.modLaunch_served : (s.modLaunch l f).served = s.served := rfl
@[simp] theorem State.modLaunch_wire : (s.modLaunch l f).wire = s.wire := rfl
@[simp] theorem State.modLaunch_window : (s.modLaunch l f).window = s.window := rfl
@[simp] theorem State.modLaunch_paced : (s.modLaunch l f).paced = s.paced := rfl
@[simp] theorem State.modLaunch_counters : (s.modLaunch l f).counters = s.counters := rfl
@[simp] theorem State.modLaunch_tasks : (s.modLaunch l f).tasks = s.tasks := rfl
@[simp] theorem State.modLaunch_queues : (s.modLaunch l f).queues = s.queues := rfl
@[simp] theorem State.modLaunch_queueCap : (s.modLaunch l f).queueCap = s.queueCap := rfl
@[simp] theorem State.modLaunch_quota : (s.modLaunch l f).quota = s.quota := rfl
@[simp] theorem State.modLaunch_saved : (s.modLaunch l f).saved = s.saved := rfl
@[simp] theorem State.modLaunch_stays : (s.modLaunch l f).stays = s.stays := rfl
@[simp] theorem State.modLaunch_started : (s.modLaunch l f).started = s.started := rfl
@[simp] theorem State.modLaunch_shares : (s.modLaunch l f).shares = s.shares := rfl
@[simp] theorem State.modLaunch_misses : (s.modLaunch l f).misses = s.misses := rfl
@[simp] theorem State.modLaunch_tries : (s.modLaunch l f).tries = s.tries := rfl
@[simp] theorem State.modLaunch_fns : (s.modLaunch l f).fns = s.fns := rfl
@[simp] theorem State.modLaunch_fnPart : (s.modLaunch l f).fnPart = s.fnPart := rfl
@[simp] theorem State.modLaunch_clusters : (s.modLaunch l f).clusters = s.clusters := rfl
@[simp] theorem State.modLaunch_resets : (s.modLaunch l f).resets = s.resets := rfl
@[simp] theorem State.modLaunch_irqs : (s.modLaunch l f).irqs = s.irqs := rfl
@[simp] theorem State.modLaunch_held : (s.modLaunch l f).held = s.held := rfl
@[simp] theorem State.modLaunch_fw : (s.modLaunch l f).fw = s.fw := rfl
@[simp] theorem State.modLaunch_ports : (s.modLaunch l f).ports = s.ports := rfl
@[simp] theorem State.modLaunch_scan : (s.modLaunch l f).scan = s.scan := rfl
@[simp] theorem State.modLaunch_mhz : (s.modLaunch l f).mhz = s.mhz := rfl
@[simp] theorem State.modLaunch_tripped : (s.modLaunch l f).tripped = s.tripped := rfl
@[simp] theorem State.modLaunch_lantern : (s.modLaunch l f).lantern = s.lantern := rfl
@[simp] theorem State.modLaunch_doe : (s.modLaunch l f).doe = s.doe := rfl
@[simp] theorem State.modLaunch_out : (s.modLaunch l f).out = s.out := rfl

end
/-! ### What an update changes -/

theorem State.core_modCore_self (s : State) (c : Nat) (f : Core → Core) (h : c < s.cores.length) : (s.modCore c f).core c = f (s.core c) :=
  getD_modifyAt_self _ _ _ _ h

@[simp] theorem State.core_modCore_ne (s : State) {c k : Nat} (f : Core → Core) (h : k ≠ c) : (s.modCore c f).core k = s.core k :=
  getD_modifyAt_ne _ _ _ h

@[simp] theorem State.cores_length_modCore (s : State) (c : Nat) (f : Core → Core) : (s.modCore c f).cores.length = s.cores.length :=
  modifyAt_length _ _ _

theorem State.die_modDie_self (s : State) (e : Nat) (f : Die → Die) (h : e < s.dies.length) : (s.modDie e f).die e = f (s.die e) :=
  getD_modifyAt_self _ _ _ _ h

@[simp] theorem State.die_modDie_ne (s : State) {e k : Nat} (f : Die → Die) (h : k ≠ e) : (s.modDie e f).die k = s.die k :=
  getD_modifyAt_ne _ _ _ h

@[simp] theorem State.dies_length_modDie (s : State) (e : Nat) (f : Die → Die) : (s.modDie e f).dies.length = s.dies.length :=
  modifyAt_length _ _ _

@[simp] theorem State.core_modDie (s : State) (e : Nat) (f : Die → Die) (c : Nat) : (s.modDie e f).core c = s.core c := rfl
@[simp] theorem State.core_emit (s : State) (o : Out) (c : Nat) : (s.emit o).core c = s.core c := rfl
@[simp] theorem State.core_modFn (s : State) (n : Nat) (f : Fn → Fn) (c : Nat) : (s.modFn n f).core c = s.core c := rfl
@[simp] theorem State.core_modLaunch (s : State) (l : Nat) (f : Launch → Launch) (c : Nat) : (s.modLaunch l f).core c = s.core c := rfl
@[simp] theorem State.die_modCore (s : State) (c : Nat) (f : Core → Core) (e : Nat) : (s.modCore c f).die e = s.die e := rfl
@[simp] theorem State.die_emit (s : State) (o : Out) (e : Nat) : (s.emit o).die e = s.die e := rfl
@[simp] theorem State.die_modFn (s : State) (n : Nat) (f : Fn → Fn) (e : Nat) : (s.modFn n f).die e = s.die e := rfl
@[simp] theorem State.die_modLaunch (s : State) (l : Nat) (f : Launch → Launch) (e : Nat) : (s.modLaunch l f).die e = s.die e := rfl

theorem State.room_modRoom_self (s : State) (c n : Nat) (f : Room → Room) (h : c < s.cores.length) (hn : n < (s.core c).rooms.length) :
    (s.modRoom c n f).room c n = f (s.room c n) := by
  simp only [State.room, State.modRoom, State.core_modCore_self _ _ _ h]
  exact getD_modifyAt_self _ _ _ _ hn

theorem State.room_modRoom_ne (s : State) {c n k j : Nat} (f : Room → Room) (h : k ≠ c ∨ j ≠ n) : (s.modRoom c n f).room k j = s.room k j := by
  simp only [State.room, State.modRoom]
  by_cases hc : k = c
  · subst hc
    have hj : j ≠ n := h.resolve_left (fun g => g rfl)
    by_cases hk : k < s.cores.length
    · rw [State.core_modCore_self _ _ _ hk]
      exact getD_modifyAt_ne _ _ _ hj
    · simp [State.core, State.modCore, modifyAt_length, Nat.not_lt.mp hk]
  · rw [State.core_modCore_ne _ _ hc]

theorem State.warp?_setWarp_self (s : State) (c slot : Nat) (w : Warp) (h : c < s.cores.length) : (s.setWarp c slot w).warp? c slot = some w := by
  simp only [State.warp?, State.setWarp, State.core_modCore_self _ _ _ h, get_put_self]

theorem State.warp?_setWarp_ne (s : State) {c slot k j : Nat} (w : Warp) (h : k ≠ c ∨ j ≠ slot) : (s.setWarp c slot w).warp? k j = s.warp? k j := by
  simp only [State.warp?, State.setWarp]
  by_cases hc : k = c
  · subst hc
    have hj : j ≠ slot := h.resolve_left (fun g => g rfl)
    by_cases hk : k < s.cores.length
    · rw [State.core_modCore_self _ _ _ hk]
      exact get_put_ne (α := Option Warp) none (s.core k).warps (some w) hj
    · simp [State.core, State.modCore, modifyAt_length, Nat.not_lt.mp hk]
  · rw [State.core_modCore_ne _ _ hc]

theorem State.core_modWarp_ne (s : State) {c slot k : Nat} (f : Warp → Warp) (h : k ≠ c) : (s.modWarp c slot f).core k = s.core k := by
  unfold State.modWarp
  split
  · exact State.core_modCore_ne _ _ h
  · rfl

/-! ### Updates that touch cores alone -/

theorem State.OnlyCores.refl (s : State) : s.OnlyCores s := rfl

theorem State.OnlyCores.trans {s t u : State} (h : s.OnlyCores t) (g : t.OnlyCores u) : s.OnlyCores u := by
  unfold State.OnlyCores at *
  rw [g, h]

theorem State.OnlyCores.foldl {β : Type} {f : State → β → State} (h : ∀ (s : State) b, s.OnlyCores (f s b)) (l : List β) (s : State) :
    s.OnlyCores (l.foldl f s) := by
  induction l generalizing s with
  | nil => exact .refl s
  | cons b r ih => exact (h s b).trans (ih _)

theorem State.OnlyCores.mem {s t : State} (h : s.OnlyCores t) : t.mem = s.mem := by rw [h]
theorem State.OnlyCores.l2 {s t : State} (h : s.OnlyCores t) : t.l2 = s.l2 := by rw [h]
theorem State.OnlyCores.net {s t : State} (h : s.OnlyCores t) : t.net = s.net := by rw [h]
theorem State.OnlyCores.dies {s t : State} (h : s.OnlyCores t) : t.dies = s.dies := by rw [h]
theorem State.OnlyCores.counters {s t : State} (h : s.OnlyCores t) : t.counters = s.counters := by rw [h]
theorem State.OnlyCores.launches {s t : State} (h : s.OnlyCores t) : t.launches = s.launches := by rw [h]

theorem State.onlyCores_modCore (s : State) (c : Nat) (f : Core → Core) : s.OnlyCores (s.modCore c f) := rfl
theorem State.onlyCores_modRoom (s : State) (c n : Nat) (f : Room → Room) : s.OnlyCores (s.modRoom c n f) := rfl
theorem State.onlyCores_modGroup (s : State) (c n : Nat) (f : Group → Group) : s.OnlyCores (s.modGroup c n f) := rfl
theorem State.onlyCores_setWarp (s : State) (c slot : Nat) (w : Warp) : s.OnlyCores (s.setWarp c slot w) := rfl
theorem State.onlyCores_setVreg (s : State) (c slot n l : Nat) (x : LaneWord) : s.OnlyCores (s.setVreg c slot n l x) := rfl
theorem State.onlyCores_spWrite (s : State) (c n a : Nat) (bs : List Byte) (poison : Bool) : s.OnlyCores (s.spWrite c n a bs poison) := rfl

theorem State.onlyCores_modWarp (s : State) (c slot : Nat) (f : Warp → Warp) : s.OnlyCores (s.modWarp c slot f) := by
  unfold State.modWarp
  split
  · exact s.onlyCores_setWarp _ _ _
  · exact .refl s

theorem State.onlyCores_flipTable (s : State) (c slot n : Nat) (b : ActBank) (d : Nat) : s.OnlyCores (s.flipTable c slot n b d) := by
  unfold State.flipTable
  exact (s.onlyCores_modRoom _ _ _).trans (State.onlyCores_modWarp _ _ _ _)

theorem State.onlyCores_writeReg (s : State) (c slot : Nat) (r : RegWrite) : s.OnlyCores (s.writeReg c slot r) := by
  unfold State.writeReg
  split
  · exact s.onlyCores_setVreg _ _ _ _ _
  · exact s.onlyCores_flipTable _ _ _ _ _
  · exact s.onlyCores_modWarp _ _ _

theorem State.onlyCores_writeRegs (s : State) (c slot : Nat) (rs : List RegWrite) : s.OnlyCores (s.writeRegs c slot rs) :=
  .foldl (fun s r => s.onlyCores_writeReg c slot r) rs s

theorem State.onlyCores_drain (s : State) (c slot : Nat) (p : Pending → Bool) : s.OnlyCores (s.drain c slot p) :=
  (s.onlyCores_writeRegs _ _ _).trans (State.onlyCores_modWarp _ _ _ _)

theorem State.onlyCores_drainFor (s : State) (x : Words) : s.OnlyCores (s.drainFor x) := s.onlyCores_drain _ _ _

theorem State.onlyCores_settleWarp (s : State) (c slot : Nat) (came : W64) : s.OnlyCores (s.settleWarp c slot came) := by
  unfold State.settleWarp
  dsimp only
  refine State.OnlyCores.trans ?_ (State.onlyCores_modWarp _ _ _ _)
  split
  · exact .refl s
  · exact s.onlyCores_drain _ _ _

theorem State.onlyCores_retire (s : State) (c : Ctx) : s.OnlyCores (s.retire c) :=
  (s.onlyCores_modWarp _ _ _).trans (State.onlyCores_settleWarp _ _ _ _)

/-! ### What the issue of an instruction leaves alone -/

theorem State.OnlyCores.onlyIssue {s t : State} (h : s.OnlyCores t) : s.OnlyIssue t := by
  unfold State.OnlyCores State.OnlyIssue at *
  rw [h]

theorem State.OnlyIssue.trans {s t u : State} (h : s.OnlyIssue t) (g : t.OnlyIssue u) : s.OnlyIssue u := by
  unfold State.OnlyIssue at *
  rw [g, h]

theorem State.OnlyIssue.mem {s t : State} (h : s.OnlyIssue t) : t.mem = s.mem := by rw [h]
theorem State.OnlyIssue.net {s t : State} (h : s.OnlyIssue t) : t.net = s.net := by rw [h]
theorem State.OnlyIssue.l2 {s t : State} (h : s.OnlyIssue t) : t.l2 = s.l2 := by rw [h]

theorem State.onlyIssue_issued (s : State) (c : Ctx) : s.OnlyIssue (s.issued c) := by
  unfold State.issued
  dsimp only
  have h : s.OnlyIssue { s.forget (.split c.ref) with lantern := { (s.forget (.split c.ref)).lantern with
      left := (s.forget (.split c.ref)).lantern.left.erase c.ref } } := rfl
  have g := h.trans (State.onlyCores_modWarp _ c.core c.slot fun w => { w with age := w.age.set c.sp 0, closed := w.closed.set c.sp false }).onlyIssue
  split
  · exact g.trans ((State.onlyCores_modGroup _ _ _ _).trans (State.onlyCores_modWarp _ _ _ _)).onlyIssue
  · exact g

/-- What stands once an instruction is done differs from its effect in cores and in what its issue clears. -/
theorem Ctx.onlyIssue_done (c : Ctx) (t : State) : t.OnlyIssue (c.done t) :=
  (t.onlyCores_retire c).onlyIssue.trans (State.onlyIssue_issued _ c)

theorem Ctx.onlyIssue_jumped (c : Ctx) (t : State) : t.OnlyIssue (c.jumped t) :=
  (t.onlyCores_settleWarp _ _ _).onlyIssue.trans (State.onlyIssue_issued _ c)

end Sys2Proof.Machine
end

