-- ==== Sys2Proof/Laws/Traffic.lean ====
section
/-! SUPPORT. What a die sends out changes nothing but traffic (R133, R136, R138): its flows, the links, what leaves the device, and how far
its marks are sent. -/

namespace Sys2Proof.Machine

/-- What a die knows of epochs: its vector, the marks that came and whether the open epoch holds remote writes (R106 to R108). -/
def Die.epochs (x : Die) : List Nat × List Nat × Option Nat := (x.vc, x.marks, x.first)

/-- Nothing differs but traffic. -/
structure State.OnlyTraffic (s t : State) : Prop where
  /-- Nothing outside dies, links and output differs. -/
  rest : t = { s with dies := t.dies, wire := t.wire, out := t.out }
  /-- There are as many dies. -/
  count : t.dies.length = s.dies.length
  /-- No die's epochs differ. -/
  epochs : ∀ e, (t.die e).epochs = (s.die e).epochs

namespace State.OnlyTraffic

theorem refl (s : State) : s.OnlyTraffic s := ⟨rfl, rfl, fun _ => rfl⟩

theorem trans {s t u : State} (h : s.OnlyTraffic t) (g : t.OnlyTraffic u) : s.OnlyTraffic u :=
  ⟨by rw [g.rest, h.rest], g.count.trans h.count, fun e => (g.epochs e).trans (h.epochs e)⟩

theorem foldl {β : Type} {f : State → β → State} (h : ∀ (s : State) b, s.OnlyTraffic (f s b)) (l : List β) (s : State) :
    s.OnlyTraffic (l.foldl f s) := by
  induction l generalizing s with
  | nil => exact refl s
  | cons b r ih => exact (h s b).trans (ih _)

theorem mem {s t : State} (h : s.OnlyTraffic t) : t.mem = s.mem := by rw [h.rest]
theorem l2 {s t : State} (h : s.OnlyTraffic t) : t.l2 = s.l2 := by rw [h.rest]
theorem net {s t : State} (h : s.OnlyTraffic t) : t.net = s.net := by rw [h.rest]
theorem vc {s t : State} (h : s.OnlyTraffic t) (e : Nat) : (t.die e).vc = (s.die e).vc := congrArg (·.1) (h.epochs e)
theorem first {s t : State} (h : s.OnlyTraffic t) (e : Nat) : (t.die e).first = (s.die e).first := congrArg (·.2.2) (h.epochs e)

/-- A change of a die that keeps its epochs. -/
theorem modDie (s : State) (d : Nat) {f : Die → Die} (h : ∀ x, (f x).epochs = x.epochs := by intro x; rfl) :
    s.OnlyTraffic (s.modDie d f) := by
  refine ⟨rfl, s.dies_length_modDie d f, fun e => ?_⟩
  by_cases g : e = d
  · subst g
    by_cases k : e < s.dies.length
    · rw [s.die_modDie_self _ _ k, h]
    · simp [State.die, State.modDie, modifyAt_length, Nat.not_lt.mp k]
  · rw [s.die_modDie_ne _ g]

theorem links (s : State) (w : List Wire) : s.OnlyTraffic { s with wire := w } := ⟨rfl, rfl, fun _ => rfl⟩
theorem emit (s : State) (o : Out) : s.OnlyTraffic (s.emit o) := ⟨rfl, rfl, fun _ => rfl⟩

theorem launch_ (s : State) (d : Nat) (f : FlowTx) (p : Packet) : s.OnlyTraffic (s.launch_ d f p) := by
  unfold State.launch_
  split
  · exact links s _
  · exact emit s _

theorem closeTx (s : State) (d : Nat) (f : FlowTx) : s.OnlyTraffic (s.closeTx d f) := by
  unfold State.closeTx
  dsimp only
  split
  · exact (modDie s d).trans (links _ _)
  · exact (modDie s d).trans (emit _ _)

theorem pump (s : State) (d flow : Nat) : s.OnlyTraffic (s.pump d flow) := by
  unfold State.pump
  split
  · exact refl s
  · exact (modDie s d).trans (foldl (fun t _ => launch_ t _ _ _) _ _)

theorem sendOut (s : State) (d : Nat) (o : Outgoing) : s.OnlyTraffic (s.sendOut d o) := by
  unfold State.sendOut
  split
  · exact modDie s d
  · dsimp only
    split
    · exact (closeTx s d _).trans ((modDie _ d).trans (pump _ _ _))
    · exact (modDie s d).trans (pump _ _ _)

theorem sendMarks (s : State) (d : Nat) : s.OnlyTraffic (s.sendMarks d) := by
  unfold State.sendMarks
  dsimp only
  split
  · exact refl s
  · exact (modDie s d).trans (foldl (fun t _ => sendOut t _ _) _ _)

theorem sendPacket (s : State) (d pa : Nat) (at' : Attr) (bs : List Byte) (poison : Bool) :
    s.OnlyTraffic (s.sendPacket d pa at' bs poison) := sendOut s d _

theorem sendHome (s : State) (at' : Attr) (sector : Nat) (bs : List (Nat × Byte)) (poison owned : Bool) :
    s.OnlyTraffic (s.sendHome at' sector bs poison owned) := by
  unfold State.sendHome
  split
  · exact foldl (fun t _ => sendPacket t _ _ _ _ _) _ _
  · split
    · exact refl s
    · exact emit s _
  all_goals exact refl s

end State.OnlyTraffic

end Sys2Proof.Machine
end

