-- ==== Sys2Proof/Laws/Epochs.lean ====
section
/-! SUPPORT. Epochs, stamps and marks (R106 to R110): what closing an epoch, sending marks and checking a stamp do. -/

namespace Sys2Proof.Machine

theorem die_modDie (s : State) (e d : Nat) (f : Die → Die) (h : d < s.dies.length) :
    (s.modDie d f).die e = if e = d then f (s.die e) else s.die e := by
  split
  · rename_i g
    rw [g]
    exact State.die_modDie_self _ _ _ h
  · rename_i g
    exact State.die_modDie_ne _ _ g

theorem die_modDie_big (s : State) (e d : Nat) (f : Die → Die) (h : s.dies.length ≤ d): (s.modDie d f).die e = s.die e := by
  have : modifyAt s.dies d f = s.dies := by
    generalize s.dies = l at *
    induction l generalizing d with
    | nil => rfl
    | cons x r ih => cases d with
      | zero => simp at h
      | succ n => simp only [modifyAt]; rw [ih n (by simpa using h)]
  simp [State.die, State.modDie, this]

theorem marksOk_iff {x : Die} {e d : Nat} {v : List Nat} : marksOk x e d v = true ↔
   ((d ≠ e → vcAt v d - 1 ≤ vcAt x.marks d) ∧ ∀ j < 8, j ≠ d → j ≠ e → vcAt v j ≤ vcAt x.marks j) := by
  simp [marksOk]
  refine ⟨fun ⟨h1,h2⟩ => ⟨by grind, fun j hj a b => by have := h2 j hj; grind⟩, fun ⟨h1,h2⟩ => ⟨by grind, fun j hj => by have := h2 j hj; grind⟩⟩

theorem sendMarks_l2 (s : State) (d : Nat) : (s.sendMarks d).l2 = s.l2 := (State.OnlyTraffic.sendMarks s d).l2

theorem sendMarks_vc (s : State) (d e : Nat) : ((s.sendMarks d).die e).vc = (s.die e).vc ∧ ((s.sendMarks d).die e).first = (s.die e).first :=
  have h := State.OnlyTraffic.sendMarks s d
  ⟨h.vc e, h.first e⟩

theorem close_vc (s : State) (d e : Nat) (h : d < s.dies.length): ((s.closeEpoch d).die e).vc = if e = d then (s.die d).vc.set d (vcAt (s.die d).vc d + 1) else (s.die e).vc := by
  unfold State.closeEpoch
  dsimp only
  rw [(sendMarks_vc _ _ _).1, die_modDie _ _ _ _ h]
  split
  · subst e; rfl
  · rfl

theorem close_big (s : State) (d e : Nat) (h : s.dies.length ≤ d) : ((s.closeEpoch d).die e).vc = (s.die e).vc := by
  unfold State.closeEpoch
  dsimp only
  rw [(sendMarks_vc _ _ _).1, die_modDie_big _ _ _ _ h]

theorem vcAt_set (v : List Nat) (d k x : Nat) (h : d < v.length) : vcAt (v.set d x) k = if k = d then x else vcAt v k := by
  simp [vcAt, at_, List.getD, List.getElem?_set]
  grind

theorem vcAt_set_le (v : List Nat) (d k : Nat) : vcAt v k ≤ vcAt (v.set d (vcAt v d + 1)) k := by
  by_cases h : d < v.length
  · rw [vcAt_set _ _ _ _ h]
    grind
  · rw [List.set_eq_of_length_le (by omega)]

theorem vcAt_range (f : Nat → Nat) (k : Nat) (h : k < 8) : vcAt ((List.range 8).map f) k = f k := by
  simp [vcAt, at_, List.getD, h]

end Sys2Proof.Machine
end

