-- ==== Sys2Proof/Laws/Host.lean ====
section
/-! SUPPORT. Host requests, queue and admin entries, and slices: how their shared parts answer. -/

namespace Sys2Proof.Machine

theorem serve_ok {s : State} {i : Request} {f : State → State} (h : s.mayServe i = true) : s.serve i f = f { s with held := s.held.erase i } := by
  simp only [State.serve, h, if_true]

/-- The state in which an entry of a queue begins: its lookup logged where that met poison, and the ring moved on. -/
theorem sqBegin_ok {s : State} {fn q e : Nat} {f} (cmd) (h : s.sqEntry fn q = some e) (hc : sqCmd e = cmd) (h4 : 1 ≤ cmd ∧ cmd ≤ 4)
    (hk : sqClean e = true) :
    s.sqBegin fn q cmd f = f ((s.logLookup s.dunesh (hostAgent s.dunesh) fn
      ((at_ {} (s.fns.getD fn {}).sqs q).base + 64 * (at_ {} (s.fns.getD fn {}).sqs q).head) 64).sqTake fn q) e := by
  simp only [State.sqBegin, h, hk, hc, h4]
  simp

theorem adminBegin_bad {s : State} {fn e o cmd : Nat} {f} (h : s.adminEntry fn = some e) (hc : e % 256 = cmd) (hb : adminBad fn e = some o) :
    s.adminBegin fn cmd f = s.adminDone fn 1 (field e 63 32) o := by
  simp only [State.adminBegin, h, hc, hb]; rw [if_neg (by simp)]

theorem adminBegin_some {s t : State} {fn e st d cmd : Nat} {f} (h : s.adminEntry fn = some e) (hc : e % 256 = cmd) (hb : adminBad fn e = none)
   (hf : f (adminOf fn e) s = (t, some (st, d))) :
    s.adminBegin fn cmd f = t.adminDone fn st (field e 63 32) d := by
  unfold adminOf at hf
  simp only [State.adminBegin, h, hc, hb]; rw [if_neg (by simp), hf]

theorem adminBegin_none {s t : State} {fn e cmd : Nat} {f} (h : s.adminEntry fn = some e) (hc : e % 256 = cmd) (hb : adminBad fn e = none)
   (hf : f (adminOf fn e) s = (t, none)) :
    s.adminBegin fn cmd f = t := by
  unfold adminOf at hf
  simp only [State.adminBegin, h, hc, hb]; rw [if_neg (by simp), hf]

theorem sec_setSec (s : State) (x : L2Sec) : (s.setSec x).sec x.die x.sector = some x := by
  simp only [State.setSec, State.sec, List.find?_append]
  rw [List.find?_eq_none.2]
  · simp
  · intro y hy; simp at hy ⊢; grind

end Sys2Proof.Machine
end

