-- ==== Sys2Proof/Laws/Memory.lean ====
section
/-! SUPPORT. Memory keeps its one form: every operation that writes memory, and what the others leave of it. -/

namespace Sys2Proof.Machine

theorem reset_memory_wf : Memory.wf State.reset.mem = true := rfl

/-! ### Parts that leave memory alone -/

@[simp] theorem State.sendOut_mem (s : State) (d : Nat) (o : Outgoing) : (s.sendOut d o).mem = s.mem := (OnlyTraffic.sendOut s d o).mem

@[simp] theorem State.sendMarks_mem (s : State) (d : Nat) : (s.sendMarks d).mem = s.mem := (OnlyTraffic.sendMarks s d).mem

@[simp] theorem State.sendHome_mem (s : State) (at' : Attr) (sector : Nat) (bs : List (Nat × Byte)) (poison owned : Bool) :
    (s.sendHome at' sector bs poison owned).mem = s.mem := (OnlyTraffic.sendHome s at' sector bs poison owned).mem

@[simp] theorem State.closeEpoch_mem (s : State) (d : Nat) : (s.closeEpoch d).mem = s.mem := by
  unfold State.closeEpoch
  exact State.sendMarks_mem _ _

@[simp] theorem State.mergeStamp_mem (s : State) (e : Nat) (v : List Nat) : (s.mergeStamp e v).mem = s.mem := by
  unfold State.mergeStamp
  dsimp only
  split
  · rfl
  · exact State.closeEpoch_mem _ _

theorem foldl_mem {β : Type} {f : State → β → State} (h : ∀ s b, (f s b).mem = s.mem) (l : List β) (s : State) : (l.foldl f s).mem = s.mem := by
  induction l generalizing s with
  | nil => rfl
  | cons b r ih => rw [List.foldl_cons, ih, h]

@[simp] theorem State.mergeAll_mem (s : State) (e : Nat) (v : List Stamp) : (s.mergeAll e v).mem = s.mem :=
  foldl_mem (f := fun s (x : Stamp) => s.mergeStamp e x.v) (fun s x => s.mergeStamp_mem e x.v) v s

@[simp] theorem State.sendInvals_mem (s : State) (sector origin : Nat) (v : List Nat) (parent : Nat) :
    (s.sendInvals sector origin v parent).mem = s.mem := by
  unfold State.sendInvals
  dsimp only
  split
  · exact foldl_mem (fun s d => s.sendOut_mem _ _) _ _
  · exact foldl_mem (fun s d => s.sendOut_mem _ _) _ _

@[simp] theorem State.sendWrite_mem (s : State) (e : Nat) (at' : Attr) (w : Doing) (sector : Nat) (bs : List (Nat × Byte)) (poison : Bool)
    (owner : Option Nat) : (s.sendWrite e at' w sector bs poison owner).mem = s.mem := by
  unfold State.sendWrite
  dsimp only
  split
  · rfl
  · exact State.sendOut_mem _ _ _

@[simp] theorem State.spend_mem (s : State) (sector : Nat) (tenant : Option Nat) : (s.spend sector tenant).mem = s.mem := by
  unfold State.spend
  split
  · rfl
  · dsimp only
    split <;> rfl

@[simp] theorem State.forgetSec_mem (s : State) (x : L2Sec) : (s.forgetSec x).mem = s.mem := by
  unfold State.forgetSec
  split <;> rfl

/-! ### Operations that write it -/

theorem foldl_wf {β : Type} {f : State → β → State} (h : ∀ s b, Memory.wf s.mem = true → Memory.wf (f s b).mem = true) (l : List β) (s : State)
    (hs : Memory.wf s.mem = true) : Memory.wf (l.foldl f s).mem = true := by
  induction l generalizing s with
  | nil => exact hs
  | cons b r ih => exact ih _ (h s b hs)

theorem State.writeBack_wf {s : State} (x : L2Sec) (h : Memory.wf s.mem = true) : Memory.wf (s.writeBack x).mem = true := by
  unfold State.writeBack
  split
  · exact h
  · simp only [State.spend_mem]
    exact tableWf_putBytes _ _ h

theorem State.evictHome_wf {s : State} (x : L2Sec) (h : Memory.wf s.mem = true) : Memory.wf (s.evictHome x).mem = true := by
  unfold State.evictHome
  dsimp only
  split
  · rw [State.forgetSec_mem]
    exact State.writeBack_wf x h
  · exact State.writeBack_wf x h

theorem State.makeRoom_wf {s : State} (e sector : Nat) (h : Memory.wf s.mem = true) : Memory.wf (s.makeRoom e sector).mem = true := by
  unfold State.makeRoom
  split
  · exact h
  · split
    · exact h
    · exact foldl_wf (fun _ x ht => State.evictHome_wf x ht) _ _ h

theorem State.tagged_wf {s : State} (at' : Attr) (sector : Nat) (h : Memory.wf s.mem = true) :
    Memory.wf (s.tagged at' sector).1.mem = true := by
  unfold State.tagged
  dsimp only
  split
  · exact h
  · split
    · exact State.writeBack_wf _ h
    · exact h

theorem State.homeWrite_wf {s : State} (at' : Attr) (sector : Nat) (bs : List (Nat × Byte)) (poison : Bool) (st : Stamp)
    (h : Memory.wf s.mem = true) : Memory.wf (s.homeWrite at' sector bs poison st).mem = true := by
  have ht := State.tagged_wf at' sector h
  unfold State.homeWrite
  dsimp only
  generalize s.tagged at' sector = q at ht
  obtain ⟨t, x, present⟩ := q
  have hu : ∀ t' : State, Memory.wf t'.mem = true →
      Memory.wf ((t'.setSec (x.wrote at' bs poison st)).sendHome at' sector bs poison x.owned).mem = true := by
    intro t' g
    rw [State.sendHome_mem]
    exact g
  dsimp only
  by_cases hc : at'.cp = 2
  · simp only [hc, if_true]
    split
    · exact State.writeBack_wf _ (by simpa [hc] using hu t ht)
    · exact State.evictHome_wf _ (by simpa [hc] using hu t ht)
  · simp only [hc, if_false]
    split
    · exact hu _ (State.makeRoom_wf _ _ ht)
    · exact State.evictHome_wf _ (hu _ (State.makeRoom_wf _ _ ht))

theorem State.fillSec_wf {s : State} (e : Nat) (at' : Attr) (sector : Nat) (m : BitVec 64) (h : Memory.wf s.mem = true) :
    Memory.wf (s.fillSec e at' sector m).mem = true := by
  have ht := State.tagged_wf at' sector h
  unfold State.fillSec
  dsimp only
  split
  · exact h
  · generalize s.tagged at' sector = q at ht
    obtain ⟨t, x, present⟩ := q
    dsimp only
    split
    · split <;> exact ht
    · have hr : Memory.wf (t.makeRoom (homeDie (sector * 64)) sector).mem = true := State.makeRoom_wf _ _ ht
      split <;> split <;> assumption

theorem State.writeSector_wf {s : State} (e : Nat) (at' : Attr) (w : Doing) (sector : Nat) (bs : List (Nat × Byte)) (poison : Bool)
    (h : Memory.wf s.mem = true) : Memory.wf (s.writeSector e at' w sector bs poison).mem = true := by
  unfold State.writeSector
  dsimp only
  split
  · exact tableWf_foldl (fun m p hm => tableWf_put _ _ hm) _ h
  · split
    · split
      · rw [State.sendWrite_mem]
        exact h
      · rw [State.sendInvals_mem]
        exact State.homeWrite_wf _ _ _ _ _ h
    · rw [State.sendWrite_mem]
      exact h

theorem State.writeAll_wf {s : State} (e : Nat) (at' : Nat → Attr) (w : Doing) (ws : List ByteWrite) (h : Memory.wf s.mem = true) :
    Memory.wf (s.writeAll e at' w ws).mem = true := by
  unfold State.writeAll
  refine foldl_wf (fun t k ht => ?_) _ _ h
  exact State.writeSector_wf _ _ _ _ _ _ ht

theorem State.privWrite_wf {s : State} (e pa n x : Nat) (h : Memory.wf s.mem = true) : Memory.wf (s.privWrite e pa n x).mem = true :=
  State.writeAll_wf _ _ _ _ h

theorem State.fnWrite_wf {s : State} (fn a : Nat) (bs : List Byte) (h : Memory.wf s.mem = true) : Memory.wf (s.fnWrite fn a bs).mem = true := by
  unfold State.fnWrite
  split
  · exact State.writeAll_wf _ _ _ _ h
  · unfold State.logLookup
    split <;> exact h

theorem State.clearV_wf {s : State} (c n : Nat) (h : Memory.wf s.mem = true) : Memory.wf (s.clearV c n).mem = true := tableWf_put _ _ h

theorem State.blit_wf {s : State} (pa len : Nat) (cs : List Chunk) (h : Memory.wf s.mem = true) : Memory.wf (s.blit pa len cs).mem = true :=
  tableWf_foldl (fun _ _ hm => tableWf_putBytes _ _ hm) _ (tableWf_eraseCells _ _ h)

theorem State.placeWord_wf {s : State} (nbits w : Nat) (h : Memory.wf s.mem = true) : Memory.wf (s.placeWord nbits w).mem = true :=
  tableWf_putBytes _ _ h

/-! ### Places on the chip -/

@[simp] theorem State.viewWrite_mem (s : State) (o : Option Nat) (c slot n l : Nat) (x : LaneWord) : (s.viewWrite o c slot n l x).mem = s.mem := by
  unfold State.viewWrite
  split
  · rfl
  · split <;> rfl

@[simp] theorem State.viewBytes_mem (s : State) (o : Option Nat) (c off : Nat) (bs : List Byte) (poison : Bool) :
    (s.viewBytes o c off bs poison).mem = s.mem := by
  unfold State.viewBytes
  exact foldl_mem (fun t k => State.viewWrite_mem _ _ _ _ _ _ _) _ _

@[simp] theorem State.chipPut_mem (s : State) (o : Option Nat) (c off : Nat) (bs : List Byte) (poison : Bool) :
    (s.chipPut o c off bs poison).mem = s.mem := by
  unfold State.chipPut
  split
  · exact State.viewBytes_mem _ _ _ _ _ _
  all_goals rfl

@[simp] theorem State.chipWrite_mem (s : State) (o : Option Nat) (c off : Nat) (bs : List Byte) (poison : Bool) (st : Option Stamp) :
    (s.chipWrite o c off bs poison st).mem = s.mem := by
  unfold State.chipWrite State.stampChip
  split <;> exact State.chipPut_mem s o c off bs poison

@[simp] theorem State.farWrite_mem (s : State) (o : Option Nat) (c off : Nat) (bs : List Byte) (poison : Bool) (st : Option Stamp) :
    (s.farWrite o c off bs poison st).mem = s.mem := by
  unfold State.farWrite
  split
  · rfl
  · exact State.chipWrite_mem _ _ _ _ _ _ _

theorem State.writePlaces_wf {s : State} (e : Nat) (o : Option Nat) (rel : Bool) (ws : List (Place × List Byte × Bool))
    (h : Memory.wf s.mem = true) : Memory.wf (s.writePlaces e o rel ws).mem = true := by
  unfold State.writePlaces
  refine foldl_wf (fun t w ht => ?_) _ _ (State.writeAll_wf _ _ _ _ h)
  split
  · exact ht
  · split
    · rw [State.farWrite_mem]
      exact ht
    · rw [State.chipWrite_mem]
      exact ht

end Sys2Proof.Machine
end

