-- ==== Sys2Proof/Laws/PerInstr.lean ====
section
/-! SUPPORT. One lemma per instruction: the words of a well-formed instruction decode to it (R180 to R202). An instruction that the
program does not hold (a step of another agent) has no words. -/

namespace Sys2Proof.Laws.RoundTrip

/-- The words of a well-formed instruction are read as that instruction. -/
def Statement (i : Instr) : Prop := ∀ z, i.WellFormed → encode i = some z → decodeWords z = .ok i

theorem illegal {pw w} : Statement (.illegal pw w) := by
  intro z hw he
  cases he
  simp only [Instr.WellFormed, Instr.wf, Bool.and_eq_true, decide_eq_true_eq] at hw
  unfold decodeWords
  rw [if_pos hw.1]

theorem nop {x} : Statement (.nop x) := fun _ hw he =>
  roundTrip_base (i := .nop x) 0x01 rfl rfl hw he rfl (by decide) (by decide) (by
    rw [(family_eq _ (x.base 0x01) 0x01 rfl).1 (by decide)]
    unfold Base.instr0
    simp only [Base.ctl_eq x (x.base 0x01) rfl rfl]
    simp only [Base.f4, Ctl.base]
    rfl)

theorem bra {x imm} : Statement (.bra x imm) := fun _ hw he =>
  roundTrip_iform (i := .bra x imm) 0x02 rfl rfl hw he rfl (by decide) (by decide) fun h => by
    simp only [IWord.instr, IWord.ctl_eq x ({ op := 0x02, la := x.la, imm := imm }) rfl h]
    rfl

theorem brc {x a imm} : Statement (.brc x a imm) := fun _ hw he =>
  roundTrip_iform (i := .brc x a imm) 0x03 rfl rfl hw he rfl (by decide) (by decide) fun h => by
    simp only [IWord.instr, IWord.ctl_eq x ({ op := 0x03, la := x.la, a := a, imm := imm }) rfl h]
    rfl

theorem brx {x a} : Statement (.brx x a) := fun _ hw he =>
  roundTrip_base (i := .brx x a) 0x04 rfl rfl hw he rfl (by decide) (by decide) (by
    rw [(family_eq _ ((x.base 0x04).setA a) 0x04 rfl).1 (by decide)]
    unfold Base.instr0
    simp only [Base.ctl_eq x ((x.base 0x04).setA a) rfl rfl, A_eq ((x.base 0x04).setA a) a rfl rfl]
    simp only [Base.f4, Base.setA, Ctl.base]
    rfl)

theorem call {x d imm} : Statement (.call x d imm) := fun _ hw he =>
  roundTrip_iform (i := .call x d imm) 0x05 rfl rfl hw he rfl (by decide) (by decide) fun h => by
    simp only [IWord.instr, IWord.ctl_eq x ({ op := 0x05, la := x.la, d := d, imm := imm }) rfl h]
    rfl

theorem calli {x d a} : Statement (.calli x d a) := fun _ hw he =>
  roundTrip_base (i := .calli x d a) 0x06 rfl rfl hw he rfl (by decide) (by decide) (by
    rw [(family_eq _ ((x.dst 0x06 d).setA a) 0x06 rfl).1 (by decide)]
    unfold Base.instr0
    simp only [Base.ctl_eq x ((x.dst 0x06 d).setA a) rfl rfl, A_eq ((x.dst 0x06 d).setA a) a rfl rfl,
      D_eq ((x.dst 0x06 d).setA a) d rfl rfl]
    simp only [Base.f4, Base.setA, Ctl.dst, Ctl.base]
    rfl)

theorem ret {x a} : Statement (.ret x a) := fun _ hw he =>
  roundTrip_base (i := .ret x a) 0x07 rfl rfl hw he rfl (by decide) (by decide) (by
    rw [(family_eq _ ((x.base 0x07).setA a) 0x07 rfl).1 (by decide)]
    unfold Base.instr0
    simp only [Base.ctl_eq x ((x.base 0x07).setA a) rfl rfl, A_eq ((x.base 0x07).setA a) a rfl rfl]
    simp only [Base.f4, Base.setA, Ctl.base]
    rfl)

theorem rcv {x off} : Statement (.rcv x off) := fun _ hw he =>
  roundTrip_base (i := .rcv x off) 0x08 rfl rfl hw he rfl (by decide) (by decide) (by
    rw [(family_eq _ ((x.base 0x08).setOff off) 0x08 rfl).1 (by decide)]
    unfold Base.instr0
    simp only [Base.ctl_eq x ((x.base 0x08).setOff off) rfl rfl]
    simp only [Base.f4, Base.setOff, Ctl.base, off_eq]
    rfl)

theorem waitj {x d a imm} : Statement (.waitj x d a imm) := fun _ hw he =>
  roundTrip_iform (i := .waitj x d a imm) 0x09 rfl rfl hw he rfl (by decide) (by decide) fun h => by
    simp only [IWord.instr, IWord.ctl_eq x ({ op := 0x09, la := x.la, d := d, a := a, imm := imm }) rfl h]
    rfl

theorem waitjArrival {a0} : Statement (.waitjArrival a0) := fun _ _ he => nomatch he

theorem waitjTimeout {a0} : Statement (.waitjTimeout a0) := fun _ _ he => nomatch he

theorem exit {x} : Statement (.exit x) := fun _ hw he =>
  roundTrip_base (i := .exit x) 0x0A rfl rfl hw he rfl (by decide) (by decide) (by
    rw [(family_eq _ (x.base 0x0A) 0x0A rfl).1 (by decide)]
    unfold Base.instr0
    simp only [Base.ctl_eq x (x.base 0x0A) rfl rfl]
    simp only [Base.f4, Ctl.base]
    rfl)

theorem endGroup {x} : Statement (.endGroup x) := fun _ hw he =>
  roundTrip_base (i := .endGroup x) 0x0B rfl rfl hw he rfl (by decide) (by decide) (by
    rw [(family_eq _ (x.base 0x0B) 0x0B rfl).1 (by decide)]
    unfold Base.instr0
    simp only [Base.ctl_eq x (x.base 0x0B) rfl rfl]
    simp only [Base.f4, Ctl.base]
    rfl)

theorem trap {x imm} : Statement (.trap x imm) := fun _ hw he =>
  roundTrip_iform (i := .trap x imm) 0x0C rfl rfl hw he rfl (by decide) (by decide) fun h => by
    simp only [IWord.instr, IWord.ctl_eq x ({ op := 0x0C, la := x.la, imm := imm }) rfl h]
    rfl

theorem trapReturn {a0 a1} : Statement (.trapReturn a0 a1) := fun _ _ he => nomatch he

theorem sysc {x d a imm} : Statement (.sysc x d a imm) := fun _ hw he =>
  roundTrip_iform (i := .sysc x d a imm) 0x0D rfl rfl hw he rfl (by decide) (by decide) fun h => by
    simp only [IWord.instr, IWord.ctl_eq x ({ op := 0x0D, la := x.la, d := d, a := a, imm := imm }) rfl h]
    rfl

theorem bkpt {x} : Statement (.bkpt x) := fun _ hw he =>
  roundTrip_base (i := .bkpt x) 0x0E rfl rfl hw he rfl (by decide) (by decide) (by
    rw [(family_eq _ (x.base 0x0E) 0x0E rfl).1 (by decide)]
    unfold Base.instr0
    simp only [Base.ctl_eq x (x.base 0x0E) rfl rfl]
    simp only [Base.f4, Ctl.base]
    rfl)

theorem yield {x} : Statement (.yield x) := fun _ hw he =>
  roundTrip_base (i := .yield x) 0x0F rfl rfl hw he rfl (by decide) (by decide) (by
    rw [(family_eq _ (x.base 0x0F) 0x0F rfl).1 (by decide)]
    unfold Base.instr0
    simp only [Base.ctl_eq x (x.base 0x0F) rfl rfl]
    simp only [Base.f4, Ctl.base]
    rfl)

theorem iadd {x d a b} : Statement (.iadd x d a b) := fun _ hw he =>
  roundTrip_base (i := .iadd x d a b) 0x10 rfl rfl hw he rfl (by decide) (by decide) (by
    rw [(family_eq _ (((x.dst 0x10 d).setA a).setB b) 0x10 rfl).1 (by decide)]
    unfold Base.instr0
    simp only [Base.ctl_eq x (((x.dst 0x10 d).setA a).setB b) rfl rfl, A_eq (((x.dst 0x10 d).setA a).setB b) a rfl rfl,
      B_eq (((x.dst 0x10 d).setA a).setB b) b rfl rfl, D_eq (((x.dst 0x10 d).setA a).setB b) d rfl rfl]
    simp only [Base.f4, Base.setA, Base.setB, Ctl.dst, Ctl.base]
    rfl)

theorem isub {x d a b} : Statement (.isub x d a b) := fun _ hw he =>
  roundTrip_base (i := .isub x d a b) 0x11 rfl rfl hw he rfl (by decide) (by decide) (by
    rw [(family_eq _ (((x.dst 0x11 d).setA a).setB b) 0x11 rfl).1 (by decide)]
    unfold Base.instr0
    simp only [Base.ctl_eq x (((x.dst 0x11 d).setA a).setB b) rfl rfl, A_eq (((x.dst 0x11 d).setA a).setB b) a rfl rfl,
      B_eq (((x.dst 0x11 d).setA a).setB b) b rfl rfl, D_eq (((x.dst 0x11 d).setA a).setB b) d rfl rfl]
    simp only [Base.f4, Base.setA, Base.setB, Ctl.dst, Ctl.base]
    rfl)

theorem imul {x d a b} : Statement (.imul x d a b) := fun _ hw he =>
  roundTrip_base (i := .imul x d a b) 0x12 rfl rfl hw he rfl (by decide) (by decide) (by
    rw [(family_eq _ (((x.dst 0x12 d).setA a).setB b) 0x12 rfl).1 (by decide)]
    unfold Base.instr0
    simp only [Base.ctl_eq x (((x.dst 0x12 d).setA a).setB b) rfl rfl, A_eq (((x.dst 0x12 d).setA a).setB b) a rfl rfl,
      B_eq (((x.dst 0x12 d).setA a).setB b) b rfl rfl, D_eq (((x.dst 0x12 d).setA a).setB b) d rfl rfl]
    simp only [Base.f4, Base.setA, Base.setB, Ctl.dst, Ctl.base]
    rfl)

theorem imulh {x u d a b} : Statement (.imulh x u d a b) := fun _ hw he =>
  roundTrip_base (i := .imulh x u d a b) 0x13 rfl rfl hw he rfl (by decide) (by decide) (by
    rw [(family_eq _ ((((x.dst 0x13 d).setA a).setB b).setF (f0F u)) 0x13 rfl).1 (by decide)]
    unfold Base.instr0
    simp only [Base.ctl_eq x ((((x.dst 0x13 d).setA a).setB b).setF (f0F u)) rfl rfl,
      A_eq ((((x.dst 0x13 d).setA a).setB b).setF (f0F u)) a rfl rfl, B_eq ((((x.dst 0x13 d).setA a).setB b).setF (f0F u)) b rfl rfl,
      D_eq ((((x.dst 0x13 d).setA a).setB b).setF (f0F u)) d rfl rfl, f0_eq ((((x.dst 0x13 d).setA a).setB b).setF (f0F u)) u rfl]
    simp only [Base.f4, Base.setF, Base.setA, Base.setB, Ctl.dst, Ctl.base]
    rfl)

theorem imad {x d a b c} : Statement (.imad x d a b c) := fun _ hw he =>
  roundTrip_base (i := .imad x d a b c) 0x14 rfl rfl hw he rfl (by decide) (by decide) (by
    rw [(family_eq _ ((((x.dst 0x14 d).setA a).setB b).setC c) 0x14 rfl).1 (by decide)]
    unfold Base.instr0
    simp only [Base.ctl_eq x ((((x.dst 0x14 d).setA a).setB b).setC c) rfl rfl,
      A_eq ((((x.dst 0x14 d).setA a).setB b).setC c) a rfl rfl, B_eq ((((x.dst 0x14 d).setA a).setB b).setC c) b rfl rfl,
      C_eq ((((x.dst 0x14 d).setA a).setB b).setC c) c rfl rfl, D_eq ((((x.dst 0x14 d).setA a).setB b).setC c) d rfl rfl]
    simp only [Base.f4, Base.setA, Base.setB, Base.setC, Ctl.dst, Ctl.base]
    rfl)

theorem idiv {x u d a b} : Statement (.idiv x u d a b) := fun _ hw he =>
  roundTrip_base (i := .idiv x u d a b) 0x15 rfl rfl hw he rfl (by decide) (by decide) (by
    rw [(family_eq _ ((((x.dst 0x15 d).setA a).setB b).setF (f0F u)) 0x15 rfl).1 (by decide)]
    unfold Base.instr0
    simp only [Base.ctl_eq x ((((x.dst 0x15 d).setA a).setB b).setF (f0F u)) rfl rfl,
      A_eq ((((x.dst 0x15 d).setA a).setB b).setF (f0F u)) a rfl rfl, B_eq ((((x.dst 0x15 d).setA a).setB b).setF (f0F u)) b rfl rfl,
      D_eq ((((x.dst 0x15 d).setA a).setB b).setF (f0F u)) d rfl rfl, f0_eq ((((x.dst 0x15 d).setA a).setB b).setF (f0F u)) u rfl]
    simp only [Base.f4, Base.setF, Base.setA, Base.setB, Ctl.dst, Ctl.base]
    rfl)

theorem irem {x u d a b} : Statement (.irem x u d a b) := fun _ hw he =>
  roundTrip_base (i := .irem x u d a b) 0x16 rfl rfl hw he rfl (by decide) (by decide) (by
    rw [(family_eq _ ((((x.dst 0x16 d).setA a).setB b).setF (f0F u)) 0x16 rfl).1 (by decide)]
    unfold Base.instr0
    simp only [Base.ctl_eq x ((((x.dst 0x16 d).setA a).setB b).setF (f0F u)) rfl rfl,
      A_eq ((((x.dst 0x16 d).setA a).setB b).setF (f0F u)) a rfl rfl, B_eq ((((x.dst 0x16 d).setA a).setB b).setF (f0F u)) b rfl rfl,
      D_eq ((((x.dst 0x16 d).setA a).setB b).setF (f0F u)) d rfl rfl, f0_eq ((((x.dst 0x16 d).setA a).setB b).setF (f0F u)) u rfl]
    simp only [Base.f4, Base.setF, Base.setA, Base.setB, Ctl.dst, Ctl.base]
    rfl)

theorem imin {x u d a b} : Statement (.imin x u d a b) := fun _ hw he =>
  roundTrip_base (i := .imin x u d a b) 0x17 rfl rfl hw he rfl (by decide) (by decide) (by
    rw [(family_eq _ ((((x.dst 0x17 d).setA a).setB b).setF (f0F u)) 0x17 rfl).1 (by decide)]
    unfold Base.instr0
    simp only [Base.ctl_eq x ((((x.dst 0x17 d).setA a).setB b).setF (f0F u)) rfl rfl,
      A_eq ((((x.dst 0x17 d).setA a).setB b).setF (f0F u)) a rfl rfl, B_eq ((((x.dst 0x17 d).setA a).setB b).setF (f0F u)) b rfl rfl,
      D_eq ((((x.dst 0x17 d).setA a).setB b).setF (f0F u)) d rfl rfl, f0_eq ((((x.dst 0x17 d).setA a).setB b).setF (f0F u)) u rfl]
    simp only [Base.f4, Base.setF, Base.setA, Base.setB, Ctl.dst, Ctl.base]
    rfl)

theorem imax {x u d a b} : Statement (.imax x u d a b) := fun _ hw he =>
  roundTrip_base (i := .imax x u d a b) 0x18 rfl rfl hw he rfl (by decide) (by decide) (by
    rw [(family_eq _ ((((x.dst 0x18 d).setA a).setB b).setF (f0F u)) 0x18 rfl).1 (by decide)]
    unfold Base.instr0
    simp only [Base.ctl_eq x ((((x.dst 0x18 d).setA a).setB b).setF (f0F u)) rfl rfl,
      A_eq ((((x.dst 0x18 d).setA a).setB b).setF (f0F u)) a rfl rfl, B_eq ((((x.dst 0x18 d).setA a).setB b).setF (f0F u)) b rfl rfl,
      D_eq ((((x.dst 0x18 d).setA a).setB b).setF (f0F u)) d rfl rfl, f0_eq ((((x.dst 0x18 d).setA a).setB b).setF (f0F u)) u rfl]
    simp only [Base.f4, Base.setF, Base.setA, Base.setB, Ctl.dst, Ctl.base]
    rfl)

theorem iabs {x d a} : Statement (.iabs x d a) := fun _ hw he =>
  roundTrip_base (i := .iabs x d a) 0x19 rfl rfl hw he rfl (by decide) (by decide) (by
    rw [(family_eq _ ((x.dst 0x19 d).setA a) 0x19 rfl).1 (by decide)]
    unfold Base.instr0
    simp only [Base.ctl_eq x ((x.dst 0x19 d).setA a) rfl rfl, A_eq ((x.dst 0x19 d).setA a) a rfl rfl,
      D_eq ((x.dst 0x19 d).setA a) d rfl rfl]
    simp only [Base.f4, Base.setA, Ctl.dst, Ctl.base]
    rfl)

theorem and {x d a b} : Statement (.and x d a b) := fun _ hw he =>
  roundTrip_base (i := .and x d a b) 0x1A rfl rfl hw he rfl (by decide) (by decide) (by
    rw [(family_eq _ (((x.dst 0x1A d).setA a).setB b) 0x1A rfl).1 (by decide)]
    unfold Base.instr0
    simp only [Base.ctl_eq x (((x.dst 0x1A d).setA a).setB b) rfl rfl, A_eq (((x.dst 0x1A d).setA a).setB b) a rfl rfl,
      B_eq (((x.dst 0x1A d).setA a).setB b) b rfl rfl, D_eq (((x.dst 0x1A d).setA a).setB b) d rfl rfl]
    simp only [Base.f4, Base.setA, Base.setB, Ctl.dst, Ctl.base]
    rfl)

theorem or {x d a b} : Statement (.or x d a b) := fun _ hw he =>
  roundTrip_base (i := .or x d a b) 0x1B rfl rfl hw he rfl (by decide) (by decide) (by
    rw [(family_eq _ (((x.dst 0x1B d).setA a).setB b) 0x1B rfl).1 (by decide)]
    unfold Base.instr0
    simp only [Base.ctl_eq x (((x.dst 0x1B d).setA a).setB b) rfl rfl, A_eq (((x.dst 0x1B d).setA a).setB b) a rfl rfl,
      B_eq (((x.dst 0x1B d).setA a).setB b) b rfl rfl, D_eq (((x.dst 0x1B d).setA a).setB b) d rfl rfl]
    simp only [Base.f4, Base.setA, Base.setB, Ctl.dst, Ctl.base]
    rfl)

theorem xor {x d a b} : Statement (.xor x d a b) := fun _ hw he =>
  roundTrip_base (i := .xor x d a b) 0x1C rfl rfl hw he rfl (by decide) (by decide) (by
    rw [(family_eq _ (((x.dst 0x1C d).setA a).setB b) 0x1C rfl).1 (by decide)]
    unfold Base.instr0
    simp only [Base.ctl_eq x (((x.dst 0x1C d).setA a).setB b) rfl rfl, A_eq (((x.dst 0x1C d).setA a).setB b) a rfl rfl,
      B_eq (((x.dst 0x1C d).setA a).setB b) b rfl rfl, D_eq (((x.dst 0x1C d).setA a).setB b) d rfl rfl]
    simp only [Base.f4, Base.setA, Base.setB, Ctl.dst, Ctl.base]
    rfl)

theorem shl {x d a b} : Statement (.shl x d a b) := fun _ hw he =>
  roundTrip_base (i := .shl x d a b) 0x1D rfl rfl hw he rfl (by decide) (by decide) (by
    rw [(family_eq _ (((x.dst 0x1D d).setA a).setB b) 0x1D rfl).1 (by decide)]
    unfold Base.instr0
    simp only [Base.ctl_eq x (((x.dst 0x1D d).setA a).setB b) rfl rfl, A_eq (((x.dst 0x1D d).setA a).setB b) a rfl rfl,
      B_eq (((x.dst 0x1D d).setA a).setB b) b rfl rfl, D_eq (((x.dst 0x1D d).setA a).setB b) d rfl rfl]
    simp only [Base.f4, Base.setA, Base.setB, Ctl.dst, Ctl.base]
    rfl)

theorem shr {x d a b} : Statement (.shr x d a b) := fun _ hw he =>
  roundTrip_base (i := .shr x d a b) 0x1E rfl rfl hw he rfl (by decide) (by decide) (by
    rw [(family_eq _ (((x.dst 0x1E d).setA a).setB b) 0x1E rfl).1 (by decide)]
    unfold Base.instr0
    simp only [Base.ctl_eq x (((x.dst 0x1E d).setA a).setB b) rfl rfl, A_eq (((x.dst 0x1E d).setA a).setB b) a rfl rfl,
      B_eq (((x.dst 0x1E d).setA a).setB b) b rfl rfl, D_eq (((x.dst 0x1E d).setA a).setB b) d rfl rfl]
    simp only [Base.f4, Base.setA, Base.setB, Ctl.dst, Ctl.base]
    rfl)

theorem sra {x d a b} : Statement (.sra x d a b) := fun _ hw he =>
  roundTrip_base (i := .sra x d a b) 0x1F rfl rfl hw he rfl (by decide) (by decide) (by
    rw [(family_eq _ (((x.dst 0x1F d).setA a).setB b) 0x1F rfl).1 (by decide)]
    unfold Base.instr0
    simp only [Base.ctl_eq x (((x.dst 0x1F d).setA a).setB b) rfl rfl, A_eq (((x.dst 0x1F d).setA a).setB b) a rfl rfl,
      B_eq (((x.dst 0x1F d).setA a).setB b) b rfl rfl, D_eq (((x.dst 0x1F d).setA a).setB b) d rfl rfl]
    simp only [Base.f4, Base.setA, Base.setB, Ctl.dst, Ctl.base]
    rfl)

theorem popc {x d a} : Statement (.popc x d a) := fun _ hw he =>
  roundTrip_base (i := .popc x d a) 0x20 rfl rfl hw he rfl (by decide) (by decide) (by
    rw [(family_eq _ ((x.dst 0x20 d).setA a) 0x20 rfl).1 (by decide)]
    unfold Base.instr0
    simp only [Base.ctl_eq x ((x.dst 0x20 d).setA a) rfl rfl, A_eq ((x.dst 0x20 d).setA a) a rfl rfl,
      D_eq ((x.dst 0x20 d).setA a) d rfl rfl]
    simp only [Base.f4, Base.setA, Ctl.dst, Ctl.base]
    rfl)

theorem clz {x d a} : Statement (.clz x d a) := fun _ hw he =>
  roundTrip_base (i := .clz x d a) 0x21 rfl rfl hw he rfl (by decide) (by decide) (by
    rw [(family_eq _ ((x.dst 0x21 d).setA a) 0x21 rfl).1 (by decide)]
    unfold Base.instr0
    simp only [Base.ctl_eq x ((x.dst 0x21 d).setA a) rfl rfl, A_eq ((x.dst 0x21 d).setA a) a rfl rfl,
      D_eq ((x.dst 0x21 d).setA a) d rfl rfl]
    simp only [Base.f4, Base.setA, Ctl.dst, Ctl.base]
    rfl)

theorem brev {x d a} : Statement (.brev x d a) := fun _ hw he =>
  roundTrip_base (i := .brev x d a) 0x22 rfl rfl hw he rfl (by decide) (by decide) (by
    rw [(family_eq _ ((x.dst 0x22 d).setA a) 0x22 rfl).1 (by decide)]
    unfold Base.instr0
    simp only [Base.ctl_eq x ((x.dst 0x22 d).setA a) rfl rfl, A_eq ((x.dst 0x22 d).setA a) a rfl rfl,
      D_eq ((x.dst 0x22 d).setA a) d rfl rfl]
    simp only [Base.f4, Base.setA, Ctl.dst, Ctl.base]
    rfl)

theorem bfe {x d a b} : Statement (.bfe x d a b) := fun _ hw he =>
  roundTrip_base (i := .bfe x d a b) 0x23 rfl rfl hw he rfl (by decide) (by decide) (by
    rw [(family_eq _ (((x.dst 0x23 d).setA a).setB b) 0x23 rfl).1 (by decide)]
    unfold Base.instr0
    simp only [Base.ctl_eq x (((x.dst 0x23 d).setA a).setB b) rfl rfl, A_eq (((x.dst 0x23 d).setA a).setB b) a rfl rfl,
      B_eq (((x.dst 0x23 d).setA a).setB b) b rfl rfl, D_eq (((x.dst 0x23 d).setA a).setB b) d rfl rfl]
    simp only [Base.f4, Base.setA, Base.setB, Ctl.dst, Ctl.base]
    rfl)

theorem bfi {x d a b c} : Statement (.bfi x d a b c) := fun _ hw he =>
  roundTrip_base (i := .bfi x d a b c) 0x24 rfl rfl hw he rfl (by decide) (by decide) (by
    rw [(family_eq _ ((((x.dst 0x24 d).setA a).setB b).setC c) 0x24 rfl).1 (by decide)]
    unfold Base.instr0
    simp only [Base.ctl_eq x ((((x.dst 0x24 d).setA a).setB b).setC c) rfl rfl,
      A_eq ((((x.dst 0x24 d).setA a).setB b).setC c) a rfl rfl, B_eq ((((x.dst 0x24 d).setA a).setB b).setC c) b rfl rfl,
      C_eq ((((x.dst 0x24 d).setA a).setB b).setC c) c rfl rfl, D_eq ((((x.dst 0x24 d).setA a).setB b).setC c) d rfl rfl]
    simp only [Base.f4, Base.setA, Base.setB, Base.setC, Ctl.dst, Ctl.base]
    rfl)

theorem icmp {x cc t d a b} : Statement (.icmp x cc t d a b) := fun _ hw he =>
  roundTrip_base (i := .icmp x cc t d a b) 0x25 rfl rfl hw he rfl (by decide) (by decide) (by
    rw [(family_eq _ ((((x.dst 0x25 d).setA a).setB b).setF (cmpF t cc.code)) 0x25 rfl).1 (by decide)]
    unfold Base.instr0
    simp only [Base.ctl_eq x ((((x.dst 0x25 d).setA a).setB b).setF (cmpF t cc.code)) rfl rfl,
      A_eq ((((x.dst 0x25 d).setA a).setB b).setF (cmpF t cc.code)) a rfl rfl,
      B_eq ((((x.dst 0x25 d).setA a).setB b).setF (cmpF t cc.code)) b rfl rfl,
      D_eq ((((x.dst 0x25 d).setA a).setB b).setF (cmpF t cc.code)) d rfl rfl]
    simp only [Base.f4, Base.setF, Base.setA, Base.setB, Ctl.dst, Ctl.base, icondF_eq, f4_cmpF, Option.map_some]
    rfl)

theorem sel {x d a b c} : Statement (.sel x d a b c) := fun _ hw he =>
  roundTrip_base (i := .sel x d a b c) 0x26 rfl rfl hw he rfl (by decide) (by decide) (by
    rw [(family_eq _ ((((x.dst 0x26 d).setA a).setB b).setC c) 0x26 rfl).1 (by decide)]
    unfold Base.instr0
    simp only [Base.ctl_eq x ((((x.dst 0x26 d).setA a).setB b).setC c) rfl rfl,
      A_eq ((((x.dst 0x26 d).setA a).setB b).setC c) a rfl rfl, B_eq ((((x.dst 0x26 d).setA a).setB b).setC c) b rfl rfl,
      C_eq ((((x.dst 0x26 d).setA a).setB b).setC c) c rfl rfl, D_eq ((((x.dst 0x26 d).setA a).setB b).setC c) d rfl rfl]
    simp only [Base.f4, Base.setA, Base.setB, Base.setC, Ctl.dst, Ctl.base]
    rfl)

theorem mov {x d a} : Statement (.mov x d a) := fun _ hw he =>
  roundTrip_base (i := .mov x d a) 0x27 rfl rfl hw he rfl (by decide) (by decide) (by
    rw [(family_eq _ ((x.dst 0x27 d).setA a) 0x27 rfl).1 (by decide)]
    unfold Base.instr0
    simp only [Base.ctl_eq x ((x.dst 0x27 d).setA a) rfl rfl, A_eq ((x.dst 0x27 d).setA a) a rfl rfl,
      D_eq ((x.dst 0x27 d).setA a) d rfl rfl]
    simp only [Base.f4, Base.setA, Ctl.dst, Ctl.base]
    rfl)

theorem movi {x d imm} : Statement (.movi x d imm) := fun _ hw he =>
  roundTrip_iform (i := .movi x d imm) 0x28 rfl rfl hw he rfl (by decide) (by decide) fun h => by
    simp only [IWord.instr, IWord.ctl_eq x ({ op := 0x28, la := x.la, d := d, imm := imm }) rfl h]
    rfl

theorem lea {x d a b c} : Statement (.lea x d a b c) := fun _ hw he =>
  roundTrip_base (i := .lea x d a b c) 0x29 rfl rfl hw he rfl (by decide) (by decide) (by
    rw [(family_eq _ ((((x.dst 0x29 d).setA a).setB b).setC c) 0x29 rfl).1 (by decide)]
    unfold Base.instr0
    simp only [Base.ctl_eq x ((((x.dst 0x29 d).setA a).setB b).setC c) rfl rfl,
      A_eq ((((x.dst 0x29 d).setA a).setB b).setC c) a rfl rfl, B_eq ((((x.dst 0x29 d).setA a).setB b).setC c) b rfl rfl,
      C_eq ((((x.dst 0x29 d).setA a).setB b).setC c) c rfl rfl, D_eq ((((x.dst 0x29 d).setA a).setB b).setC c) d rfl rfl]
    simp only [Base.f4, Base.setA, Base.setB, Base.setC, Ctl.dst, Ctl.base]
    rfl)

theorem iadd64 {x d a b} : Statement (.iadd64 x d a b) := fun _ hw he =>
  roundTrip_base (i := .iadd64 x d a b) 0x2A rfl rfl hw he rfl (by decide) (by decide) (by
    rw [(family_eq _ (((x.dst 0x2A d).setA a).setB b) 0x2A rfl).1 (by decide)]
    unfold Base.instr0
    simp only [Base.ctl_eq x (((x.dst 0x2A d).setA a).setB b) rfl rfl, A_eq (((x.dst 0x2A d).setA a).setB b) a rfl rfl,
      B_eq (((x.dst 0x2A d).setA a).setB b) b rfl rfl, D_eq (((x.dst 0x2A d).setA a).setB b) d rfl rfl]
    simp only [Base.f4, Base.setA, Base.setB, Ctl.dst, Ctl.base]
    rfl)

theorem setix {x a} : Statement (.setix x a) := fun _ hw he =>
  roundTrip_base (i := .setix x a) 0x2B rfl rfl hw he rfl (by decide) (by decide) (by
    rw [(family_eq _ ((x.base 0x2B).setA a) 0x2B rfl).1 (by decide)]
    unfold Base.instr0
    simp only [Base.ctl_eq x ((x.base 0x2B).setA a) rfl rfl, A_eq ((x.base 0x2B).setA a) a rfl rfl]
    simp only [Base.f4, Base.setA, Ctl.base]
    rfl)

theorem bsel {x d a b c} : Statement (.bsel x d a b c) := fun _ hw he =>
  roundTrip_base (i := .bsel x d a b c) 0x2C rfl rfl hw he rfl (by decide) (by decide) (by
    rw [(family_eq _ ((((x.dst 0x2C d).setA a).setB b).setC c) 0x2C rfl).1 (by decide)]
    unfold Base.instr0
    simp only [Base.ctl_eq x ((((x.dst 0x2C d).setA a).setB b).setC c) rfl rfl,
      A_eq ((((x.dst 0x2C d).setA a).setB b).setC c) a rfl rfl, B_eq ((((x.dst 0x2C d).setA a).setB b).setC c) b rfl rfl,
      C_eq ((((x.dst 0x2C d).setA a).setB b).setC c) c rfl rfl, D_eq ((((x.dst 0x2C d).setA a).setB b).setC c) d rfl rfl]
    simp only [Base.f4, Base.setA, Base.setB, Base.setC, Ctl.dst, Ctl.base]
    rfl)

theorem ishf {x d a b c} : Statement (.ishf x d a b c) := fun _ hw he =>
  roundTrip_base (i := .ishf x d a b c) 0x2D rfl rfl hw he rfl (by decide) (by decide) (by
    rw [(family_eq _ ((((x.dst 0x2D d).setA a).setB b).setC c) 0x2D rfl).1 (by decide)]
    unfold Base.instr0
    simp only [Base.ctl_eq x ((((x.dst 0x2D d).setA a).setB b).setC c) rfl rfl,
      A_eq ((((x.dst 0x2D d).setA a).setB b).setC c) a rfl rfl, B_eq ((((x.dst 0x2D d).setA a).setB b).setC c) b rfl rfl,
      C_eq ((((x.dst 0x2D d).setA a).setB b).setC c) c rfl rfl, D_eq ((((x.dst 0x2D d).setA a).setB b).setC c) d rfl rfl]
    simp only [Base.f4, Base.setA, Base.setB, Base.setC, Ctl.dst, Ctl.base]
    rfl)

theorem imads {x d a b c} : Statement (.imads x d a b c) := fun _ hw he =>
  roundTrip_base (i := .imads x d a b c) 0x2E rfl rfl hw he rfl (by decide) (by decide) (by
    rw [(family_eq _ ((((x.dst 0x2E d).setA a).setB b).setC c) 0x2E rfl).1 (by decide)]
    unfold Base.instr0
    simp only [Base.ctl_eq x ((((x.dst 0x2E d).setA a).setB b).setC c) rfl rfl,
      A_eq ((((x.dst 0x2E d).setA a).setB b).setC c) a rfl rfl, B_eq ((((x.dst 0x2E d).setA a).setB b).setC c) b rfl rfl,
      C_eq ((((x.dst 0x2E d).setA a).setB b).setC c) c rfl rfl, D_eq ((((x.dst 0x2E d).setA a).setB b).setC c) d rfl rfl]
    simp only [Base.f4, Base.setA, Base.setB, Base.setC, Ctl.dst, Ctl.base]
    rfl)

theorem imul64 {x d a b} : Statement (.imul64 x d a b) := fun _ hw he =>
  roundTrip_base (i := .imul64 x d a b) 0x2F rfl rfl hw he rfl (by decide) (by decide) (by
    rw [(family_eq _ (((x.dst 0x2F d).setA a).setB b) 0x2F rfl).1 (by decide)]
    unfold Base.instr0
    simp only [Base.ctl_eq x (((x.dst 0x2F d).setA a).setB b) rfl rfl, A_eq (((x.dst 0x2F d).setA a).setB b) a rfl rfl,
      B_eq (((x.dst 0x2F d).setA a).setB b) b rfl rfl, D_eq (((x.dst 0x2F d).setA a).setB b) d rfl rfl]
    simp only [Base.f4, Base.setA, Base.setB, Ctl.dst, Ctl.base]
    rfl)

theorem kadd {x d a b} : Statement (.kadd x d a b) := fun _ hw he =>
  roundTrip_base (i := .kadd x d a b) 0x30 rfl rfl hw he rfl (by decide) (by decide) (by
    rw [(family_eq _ ({ ((x.base 0x30).setA a).setB b with d := d }) 0x30 rfl).2.1 (by decide)]
    unfold Base.instr3
    simp only [Base.ctl_eq x ({ ((x.base 0x30).setA a).setB b with d := d }) rfl rfl,
      A_eq ({ ((x.base 0x30).setA a).setB b with d := d }) a rfl rfl, B_eq ({ ((x.base 0x30).setA a).setB b with d := d }) b rfl rfl]
    simp only [Base.setA, Base.setB, Ctl.base]
    rfl)

theorem ksub {x d a b} : Statement (.ksub x d a b) := fun _ hw he =>
  roundTrip_base (i := .ksub x d a b) 0x31 rfl rfl hw he rfl (by decide) (by decide) (by
    rw [(family_eq _ ({ ((x.base 0x31).setA a).setB b with d := d }) 0x31 rfl).2.1 (by decide)]
    unfold Base.instr3
    simp only [Base.ctl_eq x ({ ((x.base 0x31).setA a).setB b with d := d }) rfl rfl,
      A_eq ({ ((x.base 0x31).setA a).setB b with d := d }) a rfl rfl, B_eq ({ ((x.base 0x31).setA a).setB b with d := d }) b rfl rfl]
    simp only [Base.setA, Base.setB, Ctl.base]
    rfl)

theorem kmul {x d a b} : Statement (.kmul x d a b) := fun _ hw he =>
  roundTrip_base (i := .kmul x d a b) 0x32 rfl rfl hw he rfl (by decide) (by decide) (by
    rw [(family_eq _ ({ ((x.base 0x32).setA a).setB b with d := d }) 0x32 rfl).2.1 (by decide)]
    unfold Base.instr3
    simp only [Base.ctl_eq x ({ ((x.base 0x32).setA a).setB b with d := d }) rfl rfl,
      A_eq ({ ((x.base 0x32).setA a).setB b with d := d }) a rfl rfl, B_eq ({ ((x.base 0x32).setA a).setB b with d := d }) b rfl rfl]
    simp only [Base.setA, Base.setB, Ctl.base]
    rfl)

theorem kand {x d a b} : Statement (.kand x d a b) := fun _ hw he =>
  roundTrip_base (i := .kand x d a b) 0x33 rfl rfl hw he rfl (by decide) (by decide) (by
    rw [(family_eq _ ({ ((x.base 0x33).setA a).setB b with d := d }) 0x33 rfl).2.1 (by decide)]
    unfold Base.instr3
    simp only [Base.ctl_eq x ({ ((x.base 0x33).setA a).setB b with d := d }) rfl rfl,
      A_eq ({ ((x.base 0x33).setA a).setB b with d := d }) a rfl rfl, B_eq ({ ((x.base 0x33).setA a).setB b with d := d }) b rfl rfl]
    simp only [Base.setA, Base.setB, Ctl.base]
    rfl)

theorem kor {x d a b} : Statement (.kor x d a b) := fun _ hw he =>
  roundTrip_base (i := .kor x d a b) 0x34 rfl rfl hw he rfl (by decide) (by decide) (by
    rw [(family_eq _ ({ ((x.base 0x34).setA a).setB b with d := d }) 0x34 rfl).2.1 (by decide)]
    unfold Base.instr3
    simp only [Base.ctl_eq x ({ ((x.base 0x34).setA a).setB b with d := d }) rfl rfl,
      A_eq ({ ((x.base 0x34).setA a).setB b with d := d }) a rfl rfl, B_eq ({ ((x.base 0x34).setA a).setB b with d := d }) b rfl rfl]
    simp only [Base.setA, Base.setB, Ctl.base]
    rfl)

theorem kxor {x d a b} : Statement (.kxor x d a b) := fun _ hw he =>
  roundTrip_base (i := .kxor x d a b) 0x35 rfl rfl hw he rfl (by decide) (by decide) (by
    rw [(family_eq _ ({ ((x.base 0x35).setA a).setB b with d := d }) 0x35 rfl).2.1 (by decide)]
    unfold Base.instr3
    simp only [Base.ctl_eq x ({ ((x.base 0x35).setA a).setB b with d := d }) rfl rfl,
      A_eq ({ ((x.base 0x35).setA a).setB b with d := d }) a rfl rfl, B_eq ({ ((x.base 0x35).setA a).setB b with d := d }) b rfl rfl]
    simp only [Base.setA, Base.setB, Ctl.base]
    rfl)

theorem kshl {x d a b} : Statement (.kshl x d a b) := fun _ hw he =>
  roundTrip_base (i := .kshl x d a b) 0x36 rfl rfl hw he rfl (by decide) (by decide) (by
    rw [(family_eq _ ({ ((x.base 0x36).setA a).setB b with d := d }) 0x36 rfl).2.1 (by decide)]
    unfold Base.instr3
    simp only [Base.ctl_eq x ({ ((x.base 0x36).setA a).setB b with d := d }) rfl rfl,
      A_eq ({ ((x.base 0x36).setA a).setB b with d := d }) a rfl rfl, B_eq ({ ((x.base 0x36).setA a).setB b with d := d }) b rfl rfl]
    simp only [Base.setA, Base.setB, Ctl.base]
    rfl)

theorem kshr {x d a b} : Statement (.kshr x d a b) := fun _ hw he =>
  roundTrip_base (i := .kshr x d a b) 0x37 rfl rfl hw he rfl (by decide) (by decide) (by
    rw [(family_eq _ ({ ((x.base 0x37).setA a).setB b with d := d }) 0x37 rfl).2.1 (by decide)]
    unfold Base.instr3
    simp only [Base.ctl_eq x ({ ((x.base 0x37).setA a).setB b with d := d }) rfl rfl,
      A_eq ({ ((x.base 0x37).setA a).setB b with d := d }) a rfl rfl, B_eq ({ ((x.base 0x37).setA a).setB b with d := d }) b rfl rfl]
    simp only [Base.setA, Base.setB, Ctl.base]
    rfl)

theorem kmov {x d a} : Statement (.kmov x d a) := fun _ hw he =>
  roundTrip_base (i := .kmov x d a) 0x38 rfl rfl hw he rfl (by decide) (by decide) (by
    rw [(family_eq _ ({ (x.base 0x38).setA a with d := d }) 0x38 rfl).2.1 (by decide)]
    unfold Base.instr3
    simp only [Base.ctl_eq x ({ (x.base 0x38).setA a with d := d }) rfl rfl, A_eq ({ (x.base 0x38).setA a with d := d }) a rfl rfl]
    simp only [Base.setA, Ctl.base]
    rfl)

theorem kmovi {x d imm} : Statement (.kmovi x d imm) := fun _ hw he =>
  roundTrip_iform (i := .kmovi x d imm) 0x39 rfl rfl hw he rfl (by decide) (by decide) fun h => by
    simp only [IWord.instr, IWord.ctl_eq x ({ op := 0x39, la := x.la, d := d, imm := imm }) rfl h]
    rfl

theorem kcmp {x cc d a b} : Statement (.kcmp x cc d a b) := fun _ hw he =>
  roundTrip_base (i := .kcmp x cc d a b) 0x3A rfl rfl hw he rfl (by decide) (by decide) (by
    rw [(family_eq _ ({ ((x.base 0x3A).setA a).setB b with d := d, f := cmpF false cc.code }) 0x3A rfl).2.1 (by decide)]
    unfold Base.instr3
    simp only [Base.ctl_eq x ({ ((x.base 0x3A).setA a).setB b with d := d, f := cmpF false cc.code }) rfl rfl,
      A_eq ({ ((x.base 0x3A).setA a).setB b with d := d, f := cmpF false cc.code }) a rfl rfl,
      B_eq ({ ((x.base 0x3A).setA a).setB b with d := d, f := cmpF false cc.code }) b rfl rfl]
    simp only [Base.setA, Base.setB, Ctl.base, icondF_eq, Option.map_some]
    rfl)

theorem rdsr {x d n} : Statement (.rdsr x d n) := fun _ hw he =>
  roundTrip_base (i := .rdsr x d n) 0x3B rfl rfl hw he rfl (by decide) (by decide) (by
    rw [(family_eq _ ({ x.dst 0x3B d with a := n }) 0x3B rfl).2.1 (by decide)]
    unfold Base.instr3
    simp only [Base.ctl_eq x ({ x.dst 0x3B d with a := n }) rfl rfl, D_eq ({ x.dst 0x3B d with a := n }) d rfl rfl]
    simp only [Ctl.dst, Ctl.base]
    rfl)

theorem wrsr {x n a} : Statement (.wrsr x n a) := fun _ hw he =>
  roundTrip_base (i := .wrsr x n a) 0x3C rfl rfl hw he rfl (by decide) (by decide) (by
    rw [(family_eq _ ({ (x.base 0x3C).setA a with d := n }) 0x3C rfl).2.1 (by decide)]
    unfold Base.instr3
    simp only [Base.ctl_eq x ({ (x.base 0x3C).setA a with d := n }) rfl rfl, A_eq ({ (x.base 0x3C).setA a with d := n }) a rfl rfl]
    simp only [Base.setA, Ctl.base]
    rfl)

theorem vtok {x d a b} : Statement (.vtok x d a b) := fun _ hw he =>
  roundTrip_base (i := .vtok x d a b) 0x3D rfl rfl hw he rfl (by decide) (by decide) (by
    rw [(family_eq _ ({ ((x.base 0x3D).setA a).setB b with d := d }) 0x3D rfl).2.1 (by decide)]
    unfold Base.instr3
    simp only [Base.ctl_eq x ({ ((x.base 0x3D).setA a).setB b with d := d }) rfl rfl,
      A_eq ({ ((x.base 0x3D).setA a).setB b with d := d }) a rfl rfl, B_eq ({ ((x.base 0x3D).setA a).setB b with d := d }) b rfl rfl]
    simp only [Base.setA, Base.setB, Ctl.base]
    rfl)

theorem mmov {x d a} : Statement (.mmov x d a) := fun _ hw he =>
  roundTrip_base (i := .mmov x d a) 0x3E rfl rfl hw he rfl (by decide) (by decide) (by
    rw [(family_eq _ ({ (x.base 0x3E).setA a with d := d }) 0x3E rfl).2.1 (by decide)]
    unfold Base.instr3
    simp only [Base.ctl_eq x ({ (x.base 0x3E).setA a with d := d }) rfl rfl, A_eq ({ (x.base 0x3E).setA a with d := d }) a rfl rfl]
    simp only [Base.setA, Ctl.base]
    rfl)

theorem kld {x sp d a b} : Statement (.kld x sp d a b) := fun _ hw he =>
  roundTrip_base (i := .kld x sp d a b) 0x3F rfl rfl hw he rfl (by decide) (by decide) (by
    rw [(family_eq _ ({ ((x.base 0x3F).setA a).setB b with d := d, c := if sp then 1 else 0 }) 0x3F rfl).2.1 (by decide)]
    unfold Base.instr3
    simp only [Base.ctl_eq x ({ ((x.base 0x3F).setA a).setB b with d := d, c := if sp then 1 else 0 }) rfl rfl,
      A_eq ({ ((x.base 0x3F).setA a).setB b with d := d, c := if sp then 1 else 0 }) a rfl rfl,
      B_eq ({ ((x.base 0x3F).setA a).setB b with d := d, c := if sp then 1 else 0 }) b rfl rfl]
    simp only [Base.setA, Base.setB, Ctl.base, flag_eq]
    rfl)

theorem fadd {x d a b} : Statement (.fadd x d a b) := fun _ hw he =>
  roundTrip_base (i := .fadd x d a b) 0x40 rfl rfl hw he rfl (by decide) (by decide) (by
    rw [(family_eq _ (((x.dst 0x40 d).setA a).setB b) 0x40 rfl).2.2.1 (by decide)]
    unfold Base.instr4
    simp only [Base.ctl_eq x (((x.dst 0x40 d).setA a).setB b) rfl rfl, A_eq (((x.dst 0x40 d).setA a).setB b) a rfl rfl,
      B_eq (((x.dst 0x40 d).setA a).setB b) b rfl rfl, D_eq (((x.dst 0x40 d).setA a).setB b) d rfl rfl]
    simp only [Base.f4, Base.setA, Base.setB, Ctl.dst, Ctl.base]
    rfl)

theorem fsub {x d a b} : Statement (.fsub x d a b) := fun _ hw he =>
  roundTrip_base (i := .fsub x d a b) 0x41 rfl rfl hw he rfl (by decide) (by decide) (by
    rw [(family_eq _ (((x.dst 0x41 d).setA a).setB b) 0x41 rfl).2.2.1 (by decide)]
    unfold Base.instr4
    simp only [Base.ctl_eq x (((x.dst 0x41 d).setA a).setB b) rfl rfl, A_eq (((x.dst 0x41 d).setA a).setB b) a rfl rfl,
      B_eq (((x.dst 0x41 d).setA a).setB b) b rfl rfl, D_eq (((x.dst 0x41 d).setA a).setB b) d rfl rfl]
    simp only [Base.f4, Base.setA, Base.setB, Ctl.dst, Ctl.base]
    rfl)

theorem fmul {x d a b} : Statement (.fmul x d a b) := fun _ hw he =>
  roundTrip_base (i := .fmul x d a b) 0x42 rfl rfl hw he rfl (by decide) (by decide) (by
    rw [(family_eq _ (((x.dst 0x42 d).setA a).setB b) 0x42 rfl).2.2.1 (by decide)]
    unfold Base.instr4
    simp only [Base.ctl_eq x (((x.dst 0x42 d).setA a).setB b) rfl rfl, A_eq (((x.dst 0x42 d).setA a).setB b) a rfl rfl,
      B_eq (((x.dst 0x42 d).setA a).setB b) b rfl rfl, D_eq (((x.dst 0x42 d).setA a).setB b) d rfl rfl]
    simp only [Base.f4, Base.setA, Base.setB, Ctl.dst, Ctl.base]
    rfl)

theorem ffma {x d a b c} : Statement (.ffma x d a b c) := fun _ hw he =>
  roundTrip_base (i := .ffma x d a b c) 0x43 rfl rfl hw he rfl (by decide) (by decide) (by
    rw [(family_eq _ ((((x.dst 0x43 d).setA a).setB b).setC c) 0x43 rfl).2.2.1 (by decide)]
    unfold Base.instr4
    simp only [Base.ctl_eq x ((((x.dst 0x43 d).setA a).setB b).setC c) rfl rfl,
      A_eq ((((x.dst 0x43 d).setA a).setB b).setC c) a rfl rfl, B_eq ((((x.dst 0x43 d).setA a).setB b).setC c) b rfl rfl,
      C_eq ((((x.dst 0x43 d).setA a).setB b).setC c) c rfl rfl, D_eq ((((x.dst 0x43 d).setA a).setB b).setC c) d rfl rfl]
    simp only [Base.f4, Base.setA, Base.setB, Base.setC, Ctl.dst, Ctl.base]
    rfl)

theorem fdiv {x d a b} : Statement (.fdiv x d a b) := fun _ hw he =>
  roundTrip_base (i := .fdiv x d a b) 0x44 rfl rfl hw he rfl (by decide) (by decide) (by
    rw [(family_eq _ (((x.dst 0x44 d).setA a).setB b) 0x44 rfl).2.2.1 (by decide)]
    unfold Base.instr4
    simp only [Base.ctl_eq x (((x.dst 0x44 d).setA a).setB b) rfl rfl, A_eq (((x.dst 0x44 d).setA a).setB b) a rfl rfl,
      B_eq (((x.dst 0x44 d).setA a).setB b) b rfl rfl, D_eq (((x.dst 0x44 d).setA a).setB b) d rfl rfl]
    simp only [Base.f4, Base.setA, Base.setB, Ctl.dst, Ctl.base]
    rfl)

theorem fmin {x d a b} : Statement (.fmin x d a b) := fun _ hw he =>
  roundTrip_base (i := .fmin x d a b) 0x45 rfl rfl hw he rfl (by decide) (by decide) (by
    rw [(family_eq _ (((x.dst 0x45 d).setA a).setB b) 0x45 rfl).2.2.1 (by decide)]
    unfold Base.instr4
    simp only [Base.ctl_eq x (((x.dst 0x45 d).setA a).setB b) rfl rfl, A_eq (((x.dst 0x45 d).setA a).setB b) a rfl rfl,
      B_eq (((x.dst 0x45 d).setA a).setB b) b rfl rfl, D_eq (((x.dst 0x45 d).setA a).setB b) d rfl rfl]
    simp only [Base.f4, Base.setA, Base.setB, Ctl.dst, Ctl.base]
    rfl)

theorem fmax {x d a b} : Statement (.fmax x d a b) := fun _ hw he =>
  roundTrip_base (i := .fmax x d a b) 0x46 rfl rfl hw he rfl (by decide) (by decide) (by
    rw [(family_eq _ (((x.dst 0x46 d).setA a).setB b) 0x46 rfl).2.2.1 (by decide)]
    unfold Base.instr4
    simp only [Base.ctl_eq x (((x.dst 0x46 d).setA a).setB b) rfl rfl, A_eq (((x.dst 0x46 d).setA a).setB b) a rfl rfl,
      B_eq (((x.dst 0x46 d).setA a).setB b) b rfl rfl, D_eq (((x.dst 0x46 d).setA a).setB b) d rfl rfl]
    simp only [Base.f4, Base.setA, Base.setB, Ctl.dst, Ctl.base]
    rfl)

theorem fcmp {x cc t d a b} : Statement (.fcmp x cc t d a b) := fun _ hw he =>
  roundTrip_base (i := .fcmp x cc t d a b) 0x47 rfl rfl hw he rfl (by decide) (by decide) (by
    rw [(family_eq _ ((((x.dst 0x47 d).setA a).setB b).setF (cmpF t cc.code)) 0x47 rfl).2.2.1 (by decide)]
    unfold Base.instr4
    simp only [Base.ctl_eq x ((((x.dst 0x47 d).setA a).setB b).setF (cmpF t cc.code)) rfl rfl,
      A_eq ((((x.dst 0x47 d).setA a).setB b).setF (cmpF t cc.code)) a rfl rfl,
      B_eq ((((x.dst 0x47 d).setA a).setB b).setF (cmpF t cc.code)) b rfl rfl,
      D_eq ((((x.dst 0x47 d).setA a).setB b).setF (cmpF t cc.code)) d rfl rfl]
    simp only [Base.f4, Base.setF, Base.setA, Base.setB, Ctl.dst, Ctl.base, fcondF_eq, f4_cmpF, Option.map_some]
    rfl)

theorem fclass {x d a} : Statement (.fclass x d a) := fun _ hw he =>
  roundTrip_base (i := .fclass x d a) 0x48 rfl rfl hw he rfl (by decide) (by decide) (by
    rw [(family_eq _ ((x.dst 0x48 d).setA a) 0x48 rfl).2.2.1 (by decide)]
    unfold Base.instr4
    simp only [Base.ctl_eq x ((x.dst 0x48 d).setA a) rfl rfl, A_eq ((x.dst 0x48 d).setA a) a rfl rfl,
      D_eq ((x.dst 0x48 d).setA a) d rfl rfl]
    simp only [Base.f4, Base.setA, Ctl.dst, Ctl.base]
    rfl)

theorem fscale {x d a b} : Statement (.fscale x d a b) := fun _ hw he =>
  roundTrip_base (i := .fscale x d a b) 0x49 rfl rfl hw he rfl (by decide) (by decide) (by
    rw [(family_eq _ (((x.dst 0x49 d).setA a).setB b) 0x49 rfl).2.2.1 (by decide)]
    unfold Base.instr4
    simp only [Base.ctl_eq x (((x.dst 0x49 d).setA a).setB b) rfl rfl, A_eq (((x.dst 0x49 d).setA a).setB b) a rfl rfl,
      B_eq (((x.dst 0x49 d).setA a).setB b) b rfl rfl, D_eq (((x.dst 0x49 d).setA a).setB b) d rfl rfl]
    simp only [Base.f4, Base.setA, Base.setB, Ctl.dst, Ctl.base]
    rfl)

theorem frnd {x d a} : Statement (.frnd x d a) := fun _ hw he =>
  roundTrip_base (i := .frnd x d a) 0x4A rfl rfl hw he rfl (by decide) (by decide) (by
    rw [(family_eq _ ((x.dst 0x4A d).setA a) 0x4A rfl).2.2.1 (by decide)]
    unfold Base.instr4
    simp only [Base.ctl_eq x ((x.dst 0x4A d).setA a) rfl rfl, A_eq ((x.dst 0x4A d).setA a) a rfl rfl,
      D_eq ((x.dst 0x4A d).setA a) d rfl rfl]
    simp only [Base.f4, Base.setA, Ctl.dst, Ctl.base]
    rfl)

theorem hadd2 {x d a b} : Statement (.hadd2 x d a b) := fun _ hw he =>
  roundTrip_base (i := .hadd2 x d a b) 0x4B rfl rfl hw he rfl (by decide) (by decide) (by
    rw [(family_eq _ (((x.dst 0x4B d).setA a).setB b) 0x4B rfl).2.2.1 (by decide)]
    unfold Base.instr4
    simp only [Base.ctl_eq x (((x.dst 0x4B d).setA a).setB b) rfl rfl, A_eq (((x.dst 0x4B d).setA a).setB b) a rfl rfl,
      B_eq (((x.dst 0x4B d).setA a).setB b) b rfl rfl, D_eq (((x.dst 0x4B d).setA a).setB b) d rfl rfl]
    simp only [Base.f4, Base.setA, Base.setB, Ctl.dst, Ctl.base]
    rfl)

theorem hmul2 {x d a b} : Statement (.hmul2 x d a b) := fun _ hw he =>
  roundTrip_base (i := .hmul2 x d a b) 0x4C rfl rfl hw he rfl (by decide) (by decide) (by
    rw [(family_eq _ (((x.dst 0x4C d).setA a).setB b) 0x4C rfl).2.2.1 (by decide)]
    unfold Base.instr4
    simp only [Base.ctl_eq x (((x.dst 0x4C d).setA a).setB b) rfl rfl, A_eq (((x.dst 0x4C d).setA a).setB b) a rfl rfl,
      B_eq (((x.dst 0x4C d).setA a).setB b) b rfl rfl, D_eq (((x.dst 0x4C d).setA a).setB b) d rfl rfl]
    simp only [Base.f4, Base.setA, Base.setB, Ctl.dst, Ctl.base]
    rfl)

theorem hfma2 {x d a b c} : Statement (.hfma2 x d a b c) := fun _ hw he =>
  roundTrip_base (i := .hfma2 x d a b c) 0x4D rfl rfl hw he rfl (by decide) (by decide) (by
    rw [(family_eq _ ((((x.dst 0x4D d).setA a).setB b).setC c) 0x4D rfl).2.2.1 (by decide)]
    unfold Base.instr4
    simp only [Base.ctl_eq x ((((x.dst 0x4D d).setA a).setB b).setC c) rfl rfl,
      A_eq ((((x.dst 0x4D d).setA a).setB b).setC c) a rfl rfl, B_eq ((((x.dst 0x4D d).setA a).setB b).setC c) b rfl rfl,
      C_eq ((((x.dst 0x4D d).setA a).setB b).setC c) c rfl rfl, D_eq ((((x.dst 0x4D d).setA a).setB b).setC c) d rfl rfl]
    simp only [Base.f4, Base.setA, Base.setB, Base.setC, Ctl.dst, Ctl.base]
    rfl)

theorem hmnx2 {x m d a b} : Statement (.hmnx2 x m d a b) := fun _ hw he =>
  roundTrip_base (i := .hmnx2 x m d a b) 0x4E rfl rfl hw he rfl (by decide) (by decide) (by
    rw [(family_eq _ ((((x.dst 0x4E d).setA a).setB b).setF (f0F m)) 0x4E rfl).2.2.1 (by decide)]
    unfold Base.instr4
    simp only [Base.ctl_eq x ((((x.dst 0x4E d).setA a).setB b).setF (f0F m)) rfl rfl,
      A_eq ((((x.dst 0x4E d).setA a).setB b).setF (f0F m)) a rfl rfl, B_eq ((((x.dst 0x4E d).setA a).setB b).setF (f0F m)) b rfl rfl,
      D_eq ((((x.dst 0x4E d).setA a).setB b).setF (f0F m)) d rfl rfl, f0_eq ((((x.dst 0x4E d).setA a).setB b).setF (f0F m)) m rfl]
    simp only [Base.f4, Base.setF, Base.setA, Base.setB, Ctl.dst, Ctl.base]
    rfl)

theorem hcmp2 {x cc t d a b} : Statement (.hcmp2 x cc t d a b) := fun _ hw he =>
  roundTrip_base (i := .hcmp2 x cc t d a b) 0x4F rfl rfl hw he rfl (by decide) (by decide) (by
    rw [(family_eq _ ((((x.dst 0x4F d).setA a).setB b).setF (cmpF t cc.code)) 0x4F rfl).2.2.1 (by decide)]
    unfold Base.instr4
    simp only [Base.ctl_eq x ((((x.dst 0x4F d).setA a).setB b).setF (cmpF t cc.code)) rfl rfl,
      A_eq ((((x.dst 0x4F d).setA a).setB b).setF (cmpF t cc.code)) a rfl rfl,
      B_eq ((((x.dst 0x4F d).setA a).setB b).setF (cmpF t cc.code)) b rfl rfl,
      D_eq ((((x.dst 0x4F d).setA a).setB b).setF (cmpF t cc.code)) d rfl rfl]
    simp only [Base.f4, Base.setF, Base.setA, Base.setB, Ctl.dst, Ctl.base, fcondF_eq, f4_cmpF, Option.map_some]
    rfl)

theorem badd2 {x d a b} : Statement (.badd2 x d a b) := fun _ hw he =>
  roundTrip_base (i := .badd2 x d a b) 0x50 rfl rfl hw he rfl (by decide) (by decide) (by
    rw [(family_eq _ (((x.dst 0x50 d).setA a).setB b) 0x50 rfl).2.2.1 (by decide)]
    unfold Base.instr4
    simp only [Base.ctl_eq x (((x.dst 0x50 d).setA a).setB b) rfl rfl, A_eq (((x.dst 0x50 d).setA a).setB b) a rfl rfl,
      B_eq (((x.dst 0x50 d).setA a).setB b) b rfl rfl, D_eq (((x.dst 0x50 d).setA a).setB b) d rfl rfl]
    simp only [Base.f4, Base.setA, Base.setB, Ctl.dst, Ctl.base]
    rfl)

theorem bmul2 {x d a b} : Statement (.bmul2 x d a b) := fun _ hw he =>
  roundTrip_base (i := .bmul2 x d a b) 0x51 rfl rfl hw he rfl (by decide) (by decide) (by
    rw [(family_eq _ (((x.dst 0x51 d).setA a).setB b) 0x51 rfl).2.2.1 (by decide)]
    unfold Base.instr4
    simp only [Base.ctl_eq x (((x.dst 0x51 d).setA a).setB b) rfl rfl, A_eq (((x.dst 0x51 d).setA a).setB b) a rfl rfl,
      B_eq (((x.dst 0x51 d).setA a).setB b) b rfl rfl, D_eq (((x.dst 0x51 d).setA a).setB b) d rfl rfl]
    simp only [Base.f4, Base.setA, Base.setB, Ctl.dst, Ctl.base]
    rfl)

theorem bfma2 {x d a b c} : Statement (.bfma2 x d a b c) := fun _ hw he =>
  roundTrip_base (i := .bfma2 x d a b c) 0x52 rfl rfl hw he rfl (by decide) (by decide) (by
    rw [(family_eq _ ((((x.dst 0x52 d).setA a).setB b).setC c) 0x52 rfl).2.2.1 (by decide)]
    unfold Base.instr4
    simp only [Base.ctl_eq x ((((x.dst 0x52 d).setA a).setB b).setC c) rfl rfl,
      A_eq ((((x.dst 0x52 d).setA a).setB b).setC c) a rfl rfl, B_eq ((((x.dst 0x52 d).setA a).setB b).setC c) b rfl rfl,
      C_eq ((((x.dst 0x52 d).setA a).setB b).setC c) c rfl rfl, D_eq ((((x.dst 0x52 d).setA a).setB b).setC c) d rfl rfl]
    simp only [Base.f4, Base.setA, Base.setB, Base.setC, Ctl.dst, Ctl.base]
    rfl)

theorem fdot2 {x d a b c} : Statement (.fdot2 x d a b c) := fun _ hw he =>
  roundTrip_base (i := .fdot2 x d a b c) 0x53 rfl rfl hw he rfl (by decide) (by decide) (by
    rw [(family_eq _ ((((x.dst 0x53 d).setA a).setB b).setC c) 0x53 rfl).2.2.1 (by decide)]
    unfold Base.instr4
    simp only [Base.ctl_eq x ((((x.dst 0x53 d).setA a).setB b).setC c) rfl rfl,
      A_eq ((((x.dst 0x53 d).setA a).setB b).setC c) a rfl rfl, B_eq ((((x.dst 0x53 d).setA a).setB b).setC c) b rfl rfl,
      C_eq ((((x.dst 0x53 d).setA a).setB b).setC c) c rfl rfl, D_eq ((((x.dst 0x53 d).setA a).setB b).setC c) d rfl rfl]
    simp only [Base.f4, Base.setA, Base.setB, Base.setC, Ctl.dst, Ctl.base]
    rfl)

theorem cvt {x t s d a} : Statement (.cvt x t s d a) := fun _ hw he =>
  roundTrip_base (i := .cvt x t s d a) 0x54 rfl rfl hw he rfl (by decide) (by decide) (by
    rw [(family_eq _ (((x.dst 0x54 d).setA a).setF (t.code ++ s.code)) 0x54 rfl).2.2.1 (by decide)]
    unfold Base.instr4
    simp only [Base.ctl_eq x (((x.dst 0x54 d).setA a).setF (t.code ++ s.code)) rfl rfl,
      A_eq (((x.dst 0x54 d).setA a).setF (t.code ++ s.code)) a rfl rfl,
      D_eq (((x.dst 0x54 d).setA a).setF (t.code ++ s.code)) d rfl rfl]
    simp only [Base.f4, Base.setF, Base.setA, Ctl.dst, Ctl.base, halves_eq, FFmt.of_code]
    rfl)

theorem cvtp {x t s d a b c} : Statement (.cvtp x t s d a b c) := fun _ hw he =>
  roundTrip_base (i := .cvtp x t s d a b c) 0x55 rfl rfl hw he rfl (by decide) (by decide) (by
    rw [(family_eq _ (((((x.dst 0x55 d).setA a).setB b).setC c).setF (t.code ++ s.code)) 0x55 rfl).2.2.1 (by decide)]
    unfold Base.instr4
    simp only [Base.ctl_eq x (((((x.dst 0x55 d).setA a).setB b).setC c).setF (t.code ++ s.code)) rfl rfl,
      A_eq (((((x.dst 0x55 d).setA a).setB b).setC c).setF (t.code ++ s.code)) a rfl rfl,
      B_eq (((((x.dst 0x55 d).setA a).setB b).setC c).setF (t.code ++ s.code)) b rfl rfl,
      C_eq (((((x.dst 0x55 d).setA a).setB b).setC c).setF (t.code ++ s.code)) c rfl rfl,
      D_eq (((((x.dst 0x55 d).setA a).setB b).setC c).setF (t.code ++ s.code)) d rfl rfl]
    simp only [Base.f4, Base.setF, Base.setA, Base.setB, Base.setC, Ctl.dst, Ctl.base, halves_eq, FFmt.of_code]
    rfl)

theorem cvti {x t s d a} : Statement (.cvti x t s d a) := fun _ hw he =>
  roundTrip_base (i := .cvti x t s d a) 0x56 rfl rfl hw he rfl (by decide) (by decide) (by
    rw [(family_eq _ (((x.dst 0x56 d).setA a).setF (t.code ++ s.code)) 0x56 rfl).2.2.1 (by decide)]
    unfold Base.instr4
    simp only [Base.ctl_eq x (((x.dst 0x56 d).setA a).setF (t.code ++ s.code)) rfl rfl,
      A_eq (((x.dst 0x56 d).setA a).setF (t.code ++ s.code)) a rfl rfl,
      D_eq (((x.dst 0x56 d).setA a).setF (t.code ++ s.code)) d rfl rfl]
    simp only [Base.f4, Base.setF, Base.setA, Ctl.dst, Ctl.base, halves_eq, FFmt.of_code, IFmt.of_code]
    rfl)

theorem cvtf {x t s d a} : Statement (.cvtf x t s d a) := fun _ hw he =>
  roundTrip_base (i := .cvtf x t s d a) 0x57 rfl rfl hw he rfl (by decide) (by decide) (by
    rw [(family_eq _ (((x.dst 0x57 d).setA a).setF (t.code ++ s.code)) 0x57 rfl).2.2.1 (by decide)]
    unfold Base.instr4
    simp only [Base.ctl_eq x (((x.dst 0x57 d).setA a).setF (t.code ++ s.code)) rfl rfl,
      A_eq (((x.dst 0x57 d).setA a).setF (t.code ++ s.code)) a rfl rfl,
      D_eq (((x.dst 0x57 d).setA a).setF (t.code ++ s.code)) d rfl rfl]
    simp only [Base.f4, Base.setF, Base.setA, Ctl.dst, Ctl.base, halves_eq, FFmt.of_code, IFmt.of_code]
    rfl)

theorem fabs {x n d a} : Statement (.fabs x n d a) := fun _ hw he =>
  roundTrip_base (i := .fabs x n d a) 0x58 rfl rfl hw he rfl (by decide) (by decide) (by
    rw [(family_eq _ (((x.dst 0x58 d).setA a).setF (f0F n)) 0x58 rfl).2.2.1 (by decide)]
    unfold Base.instr4
    simp only [Base.ctl_eq x (((x.dst 0x58 d).setA a).setF (f0F n)) rfl rfl, A_eq (((x.dst 0x58 d).setA a).setF (f0F n)) a rfl rfl,
      D_eq (((x.dst 0x58 d).setA a).setF (f0F n)) d rfl rfl, f0_eq (((x.dst 0x58 d).setA a).setF (f0F n)) n rfl]
    simp only [Base.f4, Base.setF, Base.setA, Ctl.dst, Ctl.base]
    rfl)

theorem fexp {x d a} : Statement (.fexp x d a) := fun _ hw he =>
  roundTrip_base (i := .fexp x d a) 0x60 rfl rfl hw he rfl (by decide) (by decide) (by
    rw [(family_eq _ ((x.dst 0x60 d).setA a) 0x60 rfl).2.2.2.1 (by decide)]
    unfold Base.instr6
    simp only [Base.ctl_eq x ((x.dst 0x60 d).setA a) rfl rfl, A_eq ((x.dst 0x60 d).setA a) a rfl rfl,
      D_eq ((x.dst 0x60 d).setA a) d rfl rfl]
    simp only [Base.setA, Ctl.dst, Ctl.base]
    rfl)

theorem fexp2 {x d a} : Statement (.fexp2 x d a) := fun _ hw he =>
  roundTrip_base (i := .fexp2 x d a) 0x61 rfl rfl hw he rfl (by decide) (by decide) (by
    rw [(family_eq _ ((x.dst 0x61 d).setA a) 0x61 rfl).2.2.2.1 (by decide)]
    unfold Base.instr6
    simp only [Base.ctl_eq x ((x.dst 0x61 d).setA a) rfl rfl, A_eq ((x.dst 0x61 d).setA a) a rfl rfl,
      D_eq ((x.dst 0x61 d).setA a) d rfl rfl]
    simp only [Base.setA, Ctl.dst, Ctl.base]
    rfl)

theorem flog2 {x d a} : Statement (.flog2 x d a) := fun _ hw he =>
  roundTrip_base (i := .flog2 x d a) 0x62 rfl rfl hw he rfl (by decide) (by decide) (by
    rw [(family_eq _ ((x.dst 0x62 d).setA a) 0x62 rfl).2.2.2.1 (by decide)]
    unfold Base.instr6
    simp only [Base.ctl_eq x ((x.dst 0x62 d).setA a) rfl rfl, A_eq ((x.dst 0x62 d).setA a) a rfl rfl,
      D_eq ((x.dst 0x62 d).setA a) d rfl rfl]
    simp only [Base.setA, Ctl.dst, Ctl.base]
    rfl)

theorem frcp {x d a} : Statement (.frcp x d a) := fun _ hw he =>
  roundTrip_base (i := .frcp x d a) 0x63 rfl rfl hw he rfl (by decide) (by decide) (by
    rw [(family_eq _ ((x.dst 0x63 d).setA a) 0x63 rfl).2.2.2.1 (by decide)]
    unfold Base.instr6
    simp only [Base.ctl_eq x ((x.dst 0x63 d).setA a) rfl rfl, A_eq ((x.dst 0x63 d).setA a) a rfl rfl,
      D_eq ((x.dst 0x63 d).setA a) d rfl rfl]
    simp only [Base.setA, Ctl.dst, Ctl.base]
    rfl)

theorem frsq {x d a} : Statement (.frsq x d a) := fun _ hw he =>
  roundTrip_base (i := .frsq x d a) 0x64 rfl rfl hw he rfl (by decide) (by decide) (by
    rw [(family_eq _ ((x.dst 0x64 d).setA a) 0x64 rfl).2.2.2.1 (by decide)]
    unfold Base.instr6
    simp only [Base.ctl_eq x ((x.dst 0x64 d).setA a) rfl rfl, A_eq ((x.dst 0x64 d).setA a) a rfl rfl,
      D_eq ((x.dst 0x64 d).setA a) d rfl rfl]
    simp only [Base.setA, Ctl.dst, Ctl.base]
    rfl)

theorem fsqrt {x d a} : Statement (.fsqrt x d a) := fun _ hw he =>
  roundTrip_base (i := .fsqrt x d a) 0x65 rfl rfl hw he rfl (by decide) (by decide) (by
    rw [(family_eq _ ((x.dst 0x65 d).setA a) 0x65 rfl).2.2.2.1 (by decide)]
    unfold Base.instr6
    simp only [Base.ctl_eq x ((x.dst 0x65 d).setA a) rfl rfl, A_eq ((x.dst 0x65 d).setA a) a rfl rfl,
      D_eq ((x.dst 0x65 d).setA a) d rfl rfl]
    simp only [Base.setA, Ctl.dst, Ctl.base]
    rfl)

theorem fsin {x d a} : Statement (.fsin x d a) := fun _ hw he =>
  roundTrip_base (i := .fsin x d a) 0x66 rfl rfl hw he rfl (by decide) (by decide) (by
    rw [(family_eq _ ((x.dst 0x66 d).setA a) 0x66 rfl).2.2.2.1 (by decide)]
    unfold Base.instr6
    simp only [Base.ctl_eq x ((x.dst 0x66 d).setA a) rfl rfl, A_eq ((x.dst 0x66 d).setA a) a rfl rfl,
      D_eq ((x.dst 0x66 d).setA a) d rfl rfl]
    simp only [Base.setA, Ctl.dst, Ctl.base]
    rfl)

theorem fcos {x d a} : Statement (.fcos x d a) := fun _ hw he =>
  roundTrip_base (i := .fcos x d a) 0x67 rfl rfl hw he rfl (by decide) (by decide) (by
    rw [(family_eq _ ((x.dst 0x67 d).setA a) 0x67 rfl).2.2.2.1 (by decide)]
    unfold Base.instr6
    simp only [Base.ctl_eq x ((x.dst 0x67 d).setA a) rfl rfl, A_eq ((x.dst 0x67 d).setA a) a rfl rfl,
      D_eq ((x.dst 0x67 d).setA a) d rfl rfl]
    simp only [Base.setA, Ctl.dst, Ctl.base]
    rfl)

theorem ftanh {x d a} : Statement (.ftanh x d a) := fun _ hw he =>
  roundTrip_base (i := .ftanh x d a) 0x68 rfl rfl hw he rfl (by decide) (by decide) (by
    rw [(family_eq _ ((x.dst 0x68 d).setA a) 0x68 rfl).2.2.2.1 (by decide)]
    unfold Base.instr6
    simp only [Base.ctl_eq x ((x.dst 0x68 d).setA a) rfl rfl, A_eq ((x.dst 0x68 d).setA a) a rfl rfl,
      D_eq ((x.dst 0x68 d).setA a) d rfl rfl]
    simp only [Base.setA, Ctl.dst, Ctl.base]
    rfl)

theorem fsig {x d a} : Statement (.fsig x d a) := fun _ hw he =>
  roundTrip_base (i := .fsig x d a) 0x69 rfl rfl hw he rfl (by decide) (by decide) (by
    rw [(family_eq _ ((x.dst 0x69 d).setA a) 0x69 rfl).2.2.2.1 (by decide)]
    unfold Base.instr6
    simp only [Base.ctl_eq x ((x.dst 0x69 d).setA a) rfl rfl, A_eq ((x.dst 0x69 d).setA a) a rfl rfl,
      D_eq ((x.dst 0x69 d).setA a) d rfl rfl]
    simp only [Base.setA, Ctl.dst, Ctl.base]
    rfl)

theorem actld {x d a n} : Statement (.actld x d a n) := fun _ hw he =>
  roundTrip_base (i := .actld x d a n) 0x6A rfl rfl hw he rfl (by decide) (by decide) (by
    rw [(family_eq _ ({ x.base 0x6A with d := d, a := a, am := 2, b := n2 n, bm := 3 }) 0x6A rfl).2.2.2.1 (by decide)]
    unfold Base.instr6
    simp only [Base.ctl_eq x ({ x.base 0x6A with d := d, a := a, am := 2, b := n2 n, bm := 3 }) rfl rfl]
    simp only [Ctl.base, n2_low]
    rfl)

theorem actev {x d a n} : Statement (.actev x d a n) := fun _ hw he =>
  roundTrip_base (i := .actev x d a n) 0x6B rfl rfl hw he rfl (by decide) (by decide) (by
    rw [(family_eq _ ({ (x.dst 0x6B d).setA a with b := n2 n, bm := 3 }) 0x6B rfl).2.2.2.1 (by decide)]
    unfold Base.instr6
    simp only [Base.ctl_eq x ({ (x.dst 0x6B d).setA a with b := n2 n, bm := 3 }) rfl rfl,
      A_eq ({ (x.dst 0x6B d).setA a with b := n2 n, bm := 3 }) a rfl rfl,
      D_eq ({ (x.dst 0x6B d).setA a with b := n2 n, bm := 3 }) d rfl rfl]
    simp only [Base.setA, Ctl.dst, Ctl.base, n2_low]
    rfl)

theorem actinfo {x d n} : Statement (.actinfo x d n) := fun _ hw he =>
  roundTrip_base (i := .actinfo x d n) 0x6C rfl rfl hw he rfl (by decide) (by decide) (by
    rw [(family_eq _ ({ x.base 0x6C with d := d, b := n2 n, bm := 3 }) 0x6C rfl).2.2.2.1 (by decide)]
    unfold Base.instr6
    simp only [Base.ctl_eq x ({ x.base 0x6C with d := d, b := n2 n, bm := 3 }) rfl rfl]
    simp only [Ctl.base, n2_low]
    rfl)

theorem shfl {x m d a b c} : Statement (.shfl x m d a b c) := fun _ hw he =>
  roundTrip_base (i := .shfl x m d a b c) 0x70 rfl rfl hw he rfl (by decide) (by decide) (by
    rw [(family_eq _ ({ (((x.dst 0x70 d).setB b).setC c) with a := a, f := (0 : BitVec 4) ++ m.code }) 0x70 rfl).2.2.2.1 (by decide)]
    unfold Base.instr6
    simp only [Base.ctl_eq x ({ (((x.dst 0x70 d).setB b).setC c) with a := a, f := (0 : BitVec 4) ++ m.code }) rfl rfl,
      B_eq ({ (((x.dst 0x70 d).setB b).setC c) with a := a, f := (0 : BitVec 4) ++ m.code }) b rfl rfl,
      C_eq ({ (((x.dst 0x70 d).setB b).setC c) with a := a, f := (0 : BitVec 4) ++ m.code }) c rfl rfl,
      D_eq ({ (((x.dst 0x70 d).setB b).setC c) with a := a, f := (0 : BitVec 4) ++ m.code }) d rfl rfl]
    simp only [Base.setB, Base.setC, Ctl.dst, Ctl.base, ShMode.of_code, low2_eq]
    rfl)

theorem poll {x op d a} : Statement (.poll x op d a) := fun _ hw he =>
  roundTrip_base (i := .poll x op d a) 0x71 rfl rfl hw he rfl (by decide) (by decide) (by
    rw [(family_eq _ (((x.dst 0x71 d).setA a).setF ((0 : BitVec 3) ++ op.code)) 0x71 rfl).2.2.2.1 (by decide)]
    unfold Base.instr6
    simp only [Base.ctl_eq x (((x.dst 0x71 d).setA a).setF ((0 : BitVec 3) ++ op.code)) rfl rfl,
      A_eq (((x.dst 0x71 d).setA a).setF ((0 : BitVec 3) ++ op.code)) a rfl rfl,
      D_eq (((x.dst 0x71 d).setA a).setF ((0 : BitVec 3) ++ op.code)) d rfl rfl]
    simp only [Base.setF, Base.setA, Ctl.dst, Ctl.base, halves_eq, PollOp.of_code, Option.map_some]
    rfl)

theorem matchLanes {x d a} : Statement (.matchLanes x d a) := fun _ hw he =>
  roundTrip_base (i := .matchLanes x d a) 0x72 rfl rfl hw he rfl (by decide) (by decide) (by
    rw [(family_eq _ ((x.dst 0x72 d).setA a) 0x72 rfl).2.2.2.1 (by decide)]
    unfold Base.instr6
    simp only [Base.ctl_eq x ((x.dst 0x72 d).setA a) rfl rfl, A_eq ((x.dst 0x72 d).setA a) a rfl rfl,
      D_eq ((x.dst 0x72 d).setA a) d rfl rfl]
    simp only [Base.setA, Ctl.dst, Ctl.base]
    rfl)

theorem raddf {x d a} : Statement (.raddf x d a) := fun _ hw he =>
  roundTrip_base (i := .raddf x d a) 0x73 rfl rfl hw he rfl (by decide) (by decide) (by
    rw [(family_eq _ ((x.dst 0x73 d).setA a) 0x73 rfl).2.2.2.1 (by decide)]
    unfold Base.instr6
    simp only [Base.ctl_eq x ((x.dst 0x73 d).setA a) rfl rfl, A_eq ((x.dst 0x73 d).setA a) a rfl rfl,
      D_eq ((x.dst 0x73 d).setA a) d rfl rfl]
    simp only [Base.setA, Ctl.dst, Ctl.base]
    rfl)

theorem rmaxf {x d a} : Statement (.rmaxf x d a) := fun _ hw he =>
  roundTrip_base (i := .rmaxf x d a) 0x74 rfl rfl hw he rfl (by decide) (by decide) (by
    rw [(family_eq _ ((x.dst 0x74 d).setA a) 0x74 rfl).2.2.2.1 (by decide)]
    unfold Base.instr6
    simp only [Base.ctl_eq x ((x.dst 0x74 d).setA a) rfl rfl, A_eq ((x.dst 0x74 d).setA a) a rfl rfl,
      D_eq ((x.dst 0x74 d).setA a) d rfl rfl]
    simp only [Base.setA, Ctl.dst, Ctl.base]
    rfl)

theorem rminf {x d a} : Statement (.rminf x d a) := fun _ hw he =>
  roundTrip_base (i := .rminf x d a) 0x75 rfl rfl hw he rfl (by decide) (by decide) (by
    rw [(family_eq _ ((x.dst 0x75 d).setA a) 0x75 rfl).2.2.2.1 (by decide)]
    unfold Base.instr6
    simp only [Base.ctl_eq x ((x.dst 0x75 d).setA a) rfl rfl, A_eq ((x.dst 0x75 d).setA a) a rfl rfl,
      D_eq ((x.dst 0x75 d).setA a) d rfl rfl]
    simp only [Base.setA, Ctl.dst, Ctl.base]
    rfl)

theorem rint {x op d a} : Statement (.rint x op d a) := fun _ hw he =>
  roundTrip_base (i := .rint x op d a) 0x76 rfl rfl hw he rfl (by decide) (by decide) (by
    rw [(family_eq _ (((x.dst 0x76 d).setA a).setF ((0 : BitVec 3) ++ op.code)) 0x76 rfl).2.2.2.1 (by decide)]
    unfold Base.instr6
    simp only [Base.ctl_eq x (((x.dst 0x76 d).setA a).setF ((0 : BitVec 3) ++ op.code)) rfl rfl,
      A_eq (((x.dst 0x76 d).setA a).setF ((0 : BitVec 3) ++ op.code)) a rfl rfl,
      D_eq (((x.dst 0x76 d).setA a).setF ((0 : BitVec 3) ++ op.code)) d rfl rfl]
    simp only [Base.setF, Base.setA, Ctl.dst, Ctl.base, halves_eq, IRed.of_code]
    rfl)

theorem scanf {x op e d a} : Statement (.scanf x op e d a) := fun _ hw he =>
  roundTrip_base (i := .scanf x op e d a) 0x77 rfl rfl hw he rfl (by decide) (by decide) (by
    rw [(family_eq _ (((x.dst 0x77 d).setA a).setF ((0 : BitVec 2) ++ bit1 e ++ op.code)) 0x77 rfl).2.2.2.1 (by decide)]
    unfold Base.instr6
    simp only [Base.ctl_eq x (((x.dst 0x77 d).setA a).setF ((0 : BitVec 2) ++ bit1 e ++ op.code)) rfl rfl,
      A_eq (((x.dst 0x77 d).setA a).setF ((0 : BitVec 2) ++ bit1 e ++ op.code)) a rfl rfl,
      D_eq (((x.dst 0x77 d).setA a).setF ((0 : BitVec 2) ++ bit1 e ++ op.code)) d rfl rfl]
    simp only [Base.setF, Base.setA, Ctl.dst, Ctl.base, FRed.of_code, scanF_eq, Option.map_some]
    rfl)

theorem scani {x op e d a} : Statement (.scani x op e d a) := fun _ hw he =>
  roundTrip_base (i := .scani x op e d a) 0x78 rfl rfl hw he rfl (by decide) (by decide) (by
    rw [(family_eq _ (((x.dst 0x78 d).setA a).setF ((0 : BitVec 2) ++ bit1 e ++ op.code)) 0x78 rfl).2.2.2.1 (by decide)]
    unfold Base.instr6
    simp only [Base.ctl_eq x (((x.dst 0x78 d).setA a).setF ((0 : BitVec 2) ++ bit1 e ++ op.code)) rfl rfl,
      A_eq (((x.dst 0x78 d).setA a).setF ((0 : BitVec 2) ++ bit1 e ++ op.code)) a rfl rfl,
      D_eq (((x.dst 0x78 d).setA a).setF ((0 : BitVec 2) ++ bit1 e ++ op.code)) d rfl rfl]
    simp only [Base.setF, Base.setA, Ctl.dst, Ctl.base, IRed.of_code, scanF_eq]
    rfl)

theorem segf {x op d a b} : Statement (.segf x op d a b) := fun _ hw he =>
  roundTrip_base (i := .segf x op d a b) 0x79 rfl rfl hw he rfl (by decide) (by decide) (by
    rw [(family_eq _ ((((x.dst 0x79 d).setA a).setB b).setF ((0 : BitVec 3) ++ op.code)) 0x79 rfl).2.2.2.1 (by decide)]
    unfold Base.instr6
    simp only [Base.ctl_eq x ((((x.dst 0x79 d).setA a).setB b).setF ((0 : BitVec 3) ++ op.code)) rfl rfl,
      A_eq ((((x.dst 0x79 d).setA a).setB b).setF ((0 : BitVec 3) ++ op.code)) a rfl rfl,
      B_eq ((((x.dst 0x79 d).setA a).setB b).setF ((0 : BitVec 3) ++ op.code)) b rfl rfl,
      D_eq ((((x.dst 0x79 d).setA a).setB b).setF ((0 : BitVec 3) ++ op.code)) d rfl rfl]
    simp only [Base.setF, Base.setA, Base.setB, Ctl.dst, Ctl.base, halves_eq, FRed.of_code, Option.map_some]
    rfl)

theorem segi {x op d a b} : Statement (.segi x op d a b) := fun _ hw he =>
  roundTrip_base (i := .segi x op d a b) 0x7A rfl rfl hw he rfl (by decide) (by decide) (by
    rw [(family_eq _ ((((x.dst 0x7A d).setA a).setB b).setF ((0 : BitVec 3) ++ op.code)) 0x7A rfl).2.2.2.1 (by decide)]
    unfold Base.instr6
    simp only [Base.ctl_eq x ((((x.dst 0x7A d).setA a).setB b).setF ((0 : BitVec 3) ++ op.code)) rfl rfl,
      A_eq ((((x.dst 0x7A d).setA a).setB b).setF ((0 : BitVec 3) ++ op.code)) a rfl rfl,
      B_eq ((((x.dst 0x7A d).setA a).setB b).setF ((0 : BitVec 3) ++ op.code)) b rfl rfl,
      D_eq ((((x.dst 0x7A d).setA a).setB b).setF ((0 : BitVec 3) ++ op.code)) d rfl rfl]
    simp only [Base.setF, Base.setA, Base.setB, Ctl.dst, Ctl.base, halves_eq, IRed.of_code]
    rfl)

theorem bcast {x d a b} : Statement (.bcast x d a b) := fun _ hw he =>
  roundTrip_base (i := .bcast x d a b) 0x7B rfl rfl hw he rfl (by decide) (by decide) (by
    rw [(family_eq _ ({ (x.dst 0x7B d).setB b with a := a }) 0x7B rfl).2.2.2.1 (by decide)]
    unfold Base.instr6
    simp only [Base.ctl_eq x ({ (x.dst 0x7B d).setB b with a := a }) rfl rfl, B_eq ({ (x.dst 0x7B d).setB b with a := a }) b rfl rfl,
      D_eq ({ (x.dst 0x7B d).setB b with a := a }) d rfl rfl]
    simp only [Base.setB, Ctl.dst, Ctl.base]
    rfl)

theorem shflo {x m d a b} : Statement (.shflo x m d a b) := fun _ hw he =>
  roundTrip_base (i := .shflo x m d a b) 0x7E rfl rfl hw he rfl (by decide) (by decide) (by
    rw [(family_eq _ ({ (x.dst 0x7E d).setB b with a := a, f := (0 : BitVec 4) ++ m.code }) 0x7E rfl).2.2.2.1 (by decide)]
    unfold Base.instr6
    simp only [Base.ctl_eq x ({ (x.dst 0x7E d).setB b with a := a, f := (0 : BitVec 4) ++ m.code }) rfl rfl,
      B_eq ({ (x.dst 0x7E d).setB b with a := a, f := (0 : BitVec 4) ++ m.code }) b rfl rfl,
      D_eq ({ (x.dst 0x7E d).setB b with a := a, f := (0 : BitVec 4) ++ m.code }) d rfl rfl]
    simp only [Base.setB, Ctl.dst, Ctl.base, ShMode.of_code, low2_eq]
    rfl)

theorem fusedSoftmax {a0 a1 a2 a3 a4 a5} : Statement (.fusedSoftmax a0 a1 a2 a3 a4 a5) := fun _ _ he => nomatch he

theorem longLatencyResult {a0} : Statement (.longLatencyResult a0) := fun _ _ he => nomatch he

theorem ld {x d ua sz a off} : Statement (.ld x d ua sz a off) := fun _ hw he =>
  roundTrip_iform (i := .ld x d ua sz a off) 0x80 rfl rfl hw he rfl (by decide) (by decide) fun h => by
    simp only [IWord.instr, IWord.ctl_eq x (plainWord x 0x80 d ua sz a off) rfl h]
    simp only [plainWord, sizeF_eq, updateF_eq]
    rfl

theorem st {x d ua sz a off} : Statement (.st x d ua sz a off) := fun _ hw he =>
  roundTrip_iform (i := .st x d ua sz a off) 0x81 rfl rfl hw he rfl (by decide) (by decide) fun h => by
    simp only [IWord.instr, IWord.ctl_eq x (plainWord x 0x81 d ua sz a off) rfl h]
    simp only [plainWord, sizeF_eq, updateF_eq]
    rfl

theorem ldl {x d ua sz a off} : Statement (.ldl x d ua sz a off) := fun _ hw he =>
  roundTrip_iform (i := .ldl x d ua sz a off) 0x82 rfl rfl hw he rfl (by decide) (by decide) fun h => by
    simp only [IWord.instr, IWord.ctl_eq x (plainWord x 0x82 d ua sz a off) rfl h]
    simp only [plainWord, sizeF_eq, updateF_eq]
    rfl

theorem stl {x d ua sz a off} : Statement (.stl x d ua sz a off) := fun _ hw he =>
  roundTrip_iform (i := .stl x d ua sz a off) 0x83 rfl rfl hw he rfl (by decide) (by decide) fun h => by
    simp only [IWord.instr, IWord.ctl_eq x (plainWord x 0x83 d ua sz a off) rfl h]
    simp only [plainWord, sizeF_eq, updateF_eq]
    rfl

theorem lds {x d ua sz a off} : Statement (.lds x d ua sz a off) := fun _ hw he =>
  roundTrip_iform (i := .lds x d ua sz a off) 0x84 rfl rfl hw he rfl (by decide) (by decide) fun h => by
    simp only [IWord.instr, IWord.ctl_eq x (plainWord x 0x84 d ua sz a off) rfl h]
    simp only [plainWord, sizeF_eq, updateF_eq]
    rfl

theorem sts {x d ua sz a off} : Statement (.sts x d ua sz a off) := fun _ hw he =>
  roundTrip_iform (i := .sts x d ua sz a off) 0x85 rfl rfl hw he rfl (by decide) (by decide) fun h => by
    simp only [IWord.instr, IWord.ctl_eq x (plainWord x 0x85 d ua sz a off) rfl h]
    simp only [plainWord, sizeF_eq, updateF_eq]
    rfl

theorem ldw {x d ua sz a off} : Statement (.ldw x d ua sz a off) := fun _ hw he =>
  roundTrip_iform (i := .ldw x d ua sz a off) 0x86 rfl rfl hw he rfl (by decide) (by decide) fun h => by
    simp only [IWord.instr, IWord.ctl_eq x (plainWord x 0x86 d ua sz a off) rfl h]
    simp only [plainWord, sizeF_eq, updateF_eq]
    rfl

theorem stw {x d ua sz a off} : Statement (.stw x d ua sz a off) := fun _ hw he =>
  roundTrip_iform (i := .stw x d ua sz a off) 0x87 rfl rfl hw he rfl (by decide) (by decide) fun h => by
    simp only [IWord.instr, IWord.ctl_eq x (plainWord x 0x87 d ua sz a off) rfl h]
    simp only [plainWord, sizeF_eq, updateF_eq]
    rfl

theorem ldt {x d ua sz a off} : Statement (.ldt x d ua sz a off) := fun _ hw he =>
  roundTrip_iform (i := .ldt x d ua sz a off) 0x88 rfl rfl hw he rfl (by decide) (by decide) fun h => by
    simp only [IWord.instr, IWord.ctl_eq x (plainWord x 0x88 d ua sz a off) rfl h]
    simp only [plainWord, sizeF_eq, updateF_eq]
    rfl

theorem stt {x d ua sz a off} : Statement (.stt x d ua sz a off) := fun _ hw he =>
  roundTrip_iform (i := .stt x d ua sz a off) 0x89 rfl rfl hw he rfl (by decide) (by decide) fun h => by
    simp only [IWord.instr, IWord.ctl_eq x (plainWord x 0x89 d ua sz a off) rfl h]
    simp only [plainWord, sizeF_eq, updateF_eq]
    rfl

theorem ldx {x d ua sz a off} : Statement (.ldx x d ua sz a off) := fun _ hw he =>
  roundTrip_iform (i := .ldx x d ua sz a off) 0x9C rfl rfl hw he rfl (by decide) (by decide) fun h => by
    simp only [IWord.instr, IWord.ctl_eq x (plainWord x 0x9C d ua sz a off) rfl h]
    simp only [plainWord, sizeF_eq, updateF_eq]
    rfl

theorem stx {x d ua sz a off} : Statement (.stx x d ua sz a off) := fun _ hw he =>
  roundTrip_iform (i := .stx x d ua sz a off) 0x9D rfl rfl hw he rfl (by decide) (by decide) fun h => by
    simp only [IWord.instr, IWord.ctl_eq x (plainWord x 0x9D d ua sz a off) rfl h]
    simp only [plainWord, sizeF_eq, updateF_eq]
    rfl

theorem orderedLoad {x g d a b} : Statement (.orderedLoad x g d a b) := fun _ hw he =>
  roundTrip_base (i := .orderedLoad x g d a b) 0x8A rfl rfl hw he rfl (by decide) (by decide) (by
    rw [(family_eq _ (x.access 0x8A g d a b) 0x8A rfl).2.2.2.2.1 (by decide)]
    unfold Base.instr8
    simp only [Base.ctl_eq x (x.access 0x8A g d a b) rfl rfl, access_eq (x.access 0x8A g d a b) g rfl rfl,
      D_eq (x.access 0x8A g d a b) d rfl rfl, A_eq (x.access 0x8A g d a b) a rfl rfl, B_eq (x.access 0x8A g d a b) b rfl rfl]
    simp only [Option.map_some]
    rfl)

theorem orderedStore {x g d a b} : Statement (.orderedStore x g d a b) := fun _ hw he =>
  roundTrip_base (i := .orderedStore x g d a b) 0x8B rfl rfl hw he rfl (by decide) (by decide) (by
    rw [(family_eq _ (x.access 0x8B g d a b) 0x8B rfl).2.2.2.2.1 (by decide)]
    unfold Base.instr8
    simp only [Base.ctl_eq x (x.access 0x8B g d a b) rfl rfl, access_eq (x.access 0x8B g d a b) g rfl rfl,
      D_eq (x.access 0x8B g d a b) d rfl rfl, A_eq (x.access 0x8B g d a b) a rfl rfl, B_eq (x.access 0x8B g d a b) b rfl rfl]
    simp only [Option.map_some]
    rfl)

theorem atomAdd {x g d a b} : Statement (.atomAdd x g d a b) := fun _ hw he =>
  roundTrip_base (i := .atomAdd x g d a b) 0x8C rfl rfl hw he rfl (by decide) (by decide) (by
    rw [(family_eq _ (x.access 0x8C g d a b) 0x8C rfl).2.2.2.2.1 (by decide)]
    unfold Base.instr8
    simp only [Base.ctl_eq x (x.access 0x8C g d a b) rfl rfl, access_eq (x.access 0x8C g d a b) g rfl rfl,
      D_eq (x.access 0x8C g d a b) d rfl rfl, A_eq (x.access 0x8C g d a b) a rfl rfl, B_eq (x.access 0x8C g d a b) b rfl rfl]
    simp only [Option.map_some]
    rfl)

theorem atomSub {x g d a b} : Statement (.atomSub x g d a b) := fun _ hw he =>
  roundTrip_base (i := .atomSub x g d a b) 0x8D rfl rfl hw he rfl (by decide) (by decide) (by
    rw [(family_eq _ (x.access 0x8D g d a b) 0x8D rfl).2.2.2.2.1 (by decide)]
    unfold Base.instr8
    simp only [Base.ctl_eq x (x.access 0x8D g d a b) rfl rfl, access_eq (x.access 0x8D g d a b) g rfl rfl,
      D_eq (x.access 0x8D g d a b) d rfl rfl, A_eq (x.access 0x8D g d a b) a rfl rfl, B_eq (x.access 0x8D g d a b) b rfl rfl]
    simp only [Option.map_some]
    rfl)

theorem atomMin {x g d a b} : Statement (.atomMin x g d a b) := fun _ hw he =>
  roundTrip_base (i := .atomMin x g d a b) 0x8E rfl rfl hw he rfl (by decide) (by decide) (by
    rw [(family_eq _ (x.access 0x8E g d a b) 0x8E rfl).2.2.2.2.1 (by decide)]
    unfold Base.instr8
    simp only [Base.ctl_eq x (x.access 0x8E g d a b) rfl rfl, access_eq (x.access 0x8E g d a b) g rfl rfl,
      D_eq (x.access 0x8E g d a b) d rfl rfl, A_eq (x.access 0x8E g d a b) a rfl rfl, B_eq (x.access 0x8E g d a b) b rfl rfl]
    simp only [Option.map_some]
    rfl)

theorem atomMax {x g d a b} : Statement (.atomMax x g d a b) := fun _ hw he =>
  roundTrip_base (i := .atomMax x g d a b) 0x8F rfl rfl hw he rfl (by decide) (by decide) (by
    rw [(family_eq _ (x.access 0x8F g d a b) 0x8F rfl).2.2.2.2.1 (by decide)]
    unfold Base.instr8
    simp only [Base.ctl_eq x (x.access 0x8F g d a b) rfl rfl, access_eq (x.access 0x8F g d a b) g rfl rfl,
      D_eq (x.access 0x8F g d a b) d rfl rfl, A_eq (x.access 0x8F g d a b) a rfl rfl, B_eq (x.access 0x8F g d a b) b rfl rfl]
    simp only [Option.map_some]
    rfl)

theorem atomUmin {x g d a b} : Statement (.atomUmin x g d a b) := fun _ hw he =>
  roundTrip_base (i := .atomUmin x g d a b) 0x90 rfl rfl hw he rfl (by decide) (by decide) (by
    rw [(family_eq _ (x.access 0x90 g d a b) 0x90 rfl).2.2.2.2.1 (by decide)]
    unfold Base.instr8
    simp only [Base.ctl_eq x (x.access 0x90 g d a b) rfl rfl, access_eq (x.access 0x90 g d a b) g rfl rfl,
      D_eq (x.access 0x90 g d a b) d rfl rfl, A_eq (x.access 0x90 g d a b) a rfl rfl, B_eq (x.access 0x90 g d a b) b rfl rfl]
    simp only [Option.map_some]
    rfl)

theorem atomUmax {x g d a b} : Statement (.atomUmax x g d a b) := fun _ hw he =>
  roundTrip_base (i := .atomUmax x g d a b) 0x91 rfl rfl hw he rfl (by decide) (by decide) (by
    rw [(family_eq _ (x.access 0x91 g d a b) 0x91 rfl).2.2.2.2.1 (by decide)]
    unfold Base.instr8
    simp only [Base.ctl_eq x (x.access 0x91 g d a b) rfl rfl, access_eq (x.access 0x91 g d a b) g rfl rfl,
      D_eq (x.access 0x91 g d a b) d rfl rfl, A_eq (x.access 0x91 g d a b) a rfl rfl, B_eq (x.access 0x91 g d a b) b rfl rfl]
    simp only [Option.map_some]
    rfl)

theorem atomAnd {x g d a b} : Statement (.atomAnd x g d a b) := fun _ hw he =>
  roundTrip_base (i := .atomAnd x g d a b) 0x92 rfl rfl hw he rfl (by decide) (by decide) (by
    rw [(family_eq _ (x.access 0x92 g d a b) 0x92 rfl).2.2.2.2.1 (by decide)]
    unfold Base.instr8
    simp only [Base.ctl_eq x (x.access 0x92 g d a b) rfl rfl, access_eq (x.access 0x92 g d a b) g rfl rfl,
      D_eq (x.access 0x92 g d a b) d rfl rfl, A_eq (x.access 0x92 g d a b) a rfl rfl, B_eq (x.access 0x92 g d a b) b rfl rfl]
    simp only [Option.map_some]
    rfl)

theorem atomOr {x g d a b} : Statement (.atomOr x g d a b) := fun _ hw he =>
  roundTrip_base (i := .atomOr x g d a b) 0x93 rfl rfl hw he rfl (by decide) (by decide) (by
    rw [(family_eq _ (x.access 0x93 g d a b) 0x93 rfl).2.2.2.2.1 (by decide)]
    unfold Base.instr8
    simp only [Base.ctl_eq x (x.access 0x93 g d a b) rfl rfl, access_eq (x.access 0x93 g d a b) g rfl rfl,
      D_eq (x.access 0x93 g d a b) d rfl rfl, A_eq (x.access 0x93 g d a b) a rfl rfl, B_eq (x.access 0x93 g d a b) b rfl rfl]
    simp only [Option.map_some]
    rfl)

theorem atomXor {x g d a b} : Statement (.atomXor x g d a b) := fun _ hw he =>
  roundTrip_base (i := .atomXor x g d a b) 0x94 rfl rfl hw he rfl (by decide) (by decide) (by
    rw [(family_eq _ (x.access 0x94 g d a b) 0x94 rfl).2.2.2.2.1 (by decide)]
    unfold Base.instr8
    simp only [Base.ctl_eq x (x.access 0x94 g d a b) rfl rfl, access_eq (x.access 0x94 g d a b) g rfl rfl,
      D_eq (x.access 0x94 g d a b) d rfl rfl, A_eq (x.access 0x94 g d a b) a rfl rfl, B_eq (x.access 0x94 g d a b) b rfl rfl]
    simp only [Option.map_some]
    rfl)

theorem atomExch {x g d a b} : Statement (.atomExch x g d a b) := fun _ hw he =>
  roundTrip_base (i := .atomExch x g d a b) 0x95 rfl rfl hw he rfl (by decide) (by decide) (by
    rw [(family_eq _ (x.access 0x95 g d a b) 0x95 rfl).2.2.2.2.1 (by decide)]
    unfold Base.instr8
    simp only [Base.ctl_eq x (x.access 0x95 g d a b) rfl rfl, access_eq (x.access 0x95 g d a b) g rfl rfl,
      D_eq (x.access 0x95 g d a b) d rfl rfl, A_eq (x.access 0x95 g d a b) a rfl rfl, B_eq (x.access 0x95 g d a b) b rfl rfl]
    simp only [Option.map_some]
    rfl)

theorem atomCas {x g d a b} : Statement (.atomCas x g d a b) := fun _ hw he =>
  roundTrip_base (i := .atomCas x g d a b) 0x96 rfl rfl hw he rfl (by decide) (by decide) (by
    rw [(family_eq _ (x.access 0x96 g d a b) 0x96 rfl).2.2.2.2.1 (by decide)]
    unfold Base.instr8
    simp only [Base.ctl_eq x (x.access 0x96 g d a b) rfl rfl, access_eq (x.access 0x96 g d a b) g rfl rfl,
      D_eq (x.access 0x96 g d a b) d rfl rfl, A_eq (x.access 0x96 g d a b) a rfl rfl, B_eq (x.access 0x96 g d a b) b rfl rfl]
    simp only [Option.map_some]
    rfl)

theorem atomFadd {x g d a b} : Statement (.atomFadd x g d a b) := fun _ hw he =>
  roundTrip_base (i := .atomFadd x g d a b) 0x97 rfl rfl hw he rfl (by decide) (by decide) (by
    rw [(family_eq _ (x.access 0x97 g d a b) 0x97 rfl).2.2.2.2.1 (by decide)]
    unfold Base.instr8
    simp only [Base.ctl_eq x (x.access 0x97 g d a b) rfl rfl, access_eq (x.access 0x97 g d a b) g rfl rfl,
      D_eq (x.access 0x97 g d a b) d rfl rfl, A_eq (x.access 0x97 g d a b) a rfl rfl, B_eq (x.access 0x97 g d a b) b rfl rfl]
    simp only [Option.map_some]
    rfl)

theorem fence {x sc} : Statement (.fence x sc) := fun _ hw he =>
  roundTrip_base (i := .fence x sc) 0x98 rfl rfl hw he rfl (by decide) (by decide) (by
    rw [(family_eq _ ((x.base 0x98).setF ((3 : BitVec 2) ++ sc.code ++ (0 : BitVec 1))) 0x98 rfl).2.2.2.2.1 (by decide)]
    unfold Base.instr8
    simp only [Base.ctl_eq x ((x.base 0x98).setF ((3 : BitVec 2) ++ sc.code ++ (0 : BitVec 1))) rfl rfl]
    simp only [Base.setF, Ctl.base, fenceC_eq, Option.map_some]
    rfl)

theorem ldd {x sp hdr f d a b} : Statement (.ldd x sp hdr f d a b) := fun _ hw he =>
  roundTrip_base (i := .ldd x sp hdr f d a b) 0x99 rfl rfl hw he rfl (by decide) (by decide) (by
    rw [(family_eq _ ({ ((x.dst 0x99 d).setA a).setB b with c := (0 : BitVec 1) ++ bit1 sp ++ (0 : BitVec 2) ++ bit1 hdr ++ (0 : BitVec 1) ++ f.code, cm := 3 }) 0x99 rfl).2.2.2.2.1 (by decide)]
    unfold Base.instr8
    simp only [Base.ctl_eq x ({ ((x.dst 0x99 d).setA a).setB b with c := (0 : BitVec 1) ++ bit1 sp ++ (0 : BitVec 2) ++ bit1 hdr ++ (0 : BitVec 1) ++ f.code, cm := 3 }) rfl rfl,
      A_eq ({ ((x.dst 0x99 d).setA a).setB b with c := (0 : BitVec 1) ++ bit1 sp ++ (0 : BitVec 2) ++ bit1 hdr ++ (0 : BitVec 1) ++ f.code, cm := 3 }) a rfl rfl,
      B_eq ({ ((x.dst 0x99 d).setA a).setB b with c := (0 : BitVec 1) ++ bit1 sp ++ (0 : BitVec 2) ++ bit1 hdr ++ (0 : BitVec 1) ++ f.code, cm := 3 }) b rfl rfl,
      D_eq ({ ((x.dst 0x99 d).setA a).setB b with c := (0 : BitVec 1) ++ bit1 sp ++ (0 : BitVec 2) ++ bit1 hdr ++ (0 : BitVec 1) ++ f.code, cm := 3 }) d rfl rfl]
    simp only [Base.setA, Base.setB, Ctl.dst, Ctl.base, lddC_eq, Option.map_some]
    rfl)

theorem std {x sp f d a b} : Statement (.std x sp f d a b) := fun _ hw he =>
  roundTrip_base (i := .std x sp f d a b) 0x9A rfl rfl hw he rfl (by decide) (by decide) (by
    rw [(family_eq _ ({ ((x.base 0x9A).setA a).setB b with d := d, c := (0 : BitVec 1) ++ bit1 sp ++ (0 : BitVec 1) ++ f, cm := 3 }) 0x9A rfl).2.2.2.2.1 (by decide)]
    unfold Base.instr8
    simp only [Base.ctl_eq x ({ ((x.base 0x9A).setA a).setB b with d := d, c := (0 : BitVec 1) ++ bit1 sp ++ (0 : BitVec 1) ++ f, cm := 3 }) rfl rfl,
      A_eq ({ ((x.base 0x9A).setA a).setB b with d := d, c := (0 : BitVec 1) ++ bit1 sp ++ (0 : BitVec 1) ++ f, cm := 3 }) a rfl rfl,
      B_eq ({ ((x.base 0x9A).setA a).setB b with d := d, c := (0 : BitVec 1) ++ bit1 sp ++ (0 : BitVec 1) ++ f, cm := 3 }) b rfl rfl]
    simp only [Base.setA, Base.setB, Ctl.base, stdC_eq]
    rfl)

theorem cctlPrefetch {x a b} : Statement (.cctlPrefetch x a b) := fun _ hw he =>
  roundTrip_base (i := .cctlPrefetch x a b) 0x9B rfl rfl hw he rfl (by decide) (by decide) (by
    rw [(family_eq _ (((x.base 0x9B).setA a).setB b) 0x9B rfl).2.2.2.2.1 (by decide)]
    unfold Base.instr8
    simp only [Base.ctl_eq x (((x.base 0x9B).setA a).setB b) rfl rfl, A_eq (((x.base 0x9B).setA a).setB b) a rfl rfl,
      B_eq (((x.base 0x9B).setA a).setB b) b rfl rfl]
    simp only [Base.setA, Base.setB, Ctl.base]
    rfl)

theorem cctlClean {x a b} : Statement (.cctlClean x a b) := fun _ hw he =>
  roundTrip_base (i := .cctlClean x a b) 0x9B rfl rfl hw he rfl (by decide) (by decide) (by
    rw [(family_eq _ ((((x.base 0x9B).setA a).setB b).setF 1) 0x9B rfl).2.2.2.2.1 (by decide)]
    unfold Base.instr8
    simp only [Base.ctl_eq x ((((x.base 0x9B).setA a).setB b).setF 1) rfl rfl,
      A_eq ((((x.base 0x9B).setA a).setB b).setF 1) a rfl rfl, B_eq ((((x.base 0x9B).setA a).setB b).setF 1) b rfl rfl]
    simp only [Base.setF, Base.setA, Base.setB, Ctl.base]
    rfl)

theorem cctlEvict {x a b} : Statement (.cctlEvict x a b) := fun _ hw he =>
  roundTrip_base (i := .cctlEvict x a b) 0x9B rfl rfl hw he rfl (by decide) (by decide) (by
    rw [(family_eq _ ((((x.base 0x9B).setA a).setB b).setF 2) 0x9B rfl).2.2.2.2.1 (by decide)]
    unfold Base.instr8
    simp only [Base.ctl_eq x ((((x.base 0x9B).setA a).setB b).setF 2) rfl rfl,
      A_eq ((((x.base 0x9B).setA a).setB b).setF 2) a rfl rfl, B_eq ((((x.base 0x9B).setA a).setB b).setF 2) b rfl rfl]
    simp only [Base.setF, Base.setA, Base.setB, Ctl.base]
    rfl)

theorem cctlDiscard {x a b} : Statement (.cctlDiscard x a b) := fun _ hw he =>
  roundTrip_base (i := .cctlDiscard x a b) 0x9B rfl rfl hw he rfl (by decide) (by decide) (by
    rw [(family_eq _ ((((x.base 0x9B).setA a).setB b).setF 3) 0x9B rfl).2.2.2.2.1 (by decide)]
    unfold Base.instr8
    simp only [Base.ctl_eq x ((((x.base 0x9B).setA a).setB b).setF 3) rfl rfl,
      A_eq ((((x.base 0x9B).setA a).setB b).setF 3) a rfl rfl, B_eq ((((x.base 0x9B).setA a).setB b).setF 3) b rfl rfl]
    simp only [Base.setF, Base.setA, Base.setB, Ctl.base]
    rfl)

theorem barr {x c a b} : Statement (.barr x c a b) := fun _ hw he =>
  roundTrip_base (i := .barr x c a b) 0xA0 rfl rfl hw he rfl (by decide) (by decide) (by
    rw [(family_eq _ (x.bar 0xA0 c a b) 0xA0 rfl).2.2.2.2.2.1 (by decide)]
    unfold Base.instrA
    simp only [Base.ctl_eq x (x.bar 0xA0 c a b) rfl rfl, bar_eq (x.bar 0xA0 c a b) c rfl, A_eq (x.bar 0xA0 c a b) a rfl rfl,
      B_eq (x.bar 0xA0 c a b) b rfl rfl]
    simp only [Option.map_some]
    rfl)

theorem barw {x c a b} : Statement (.barw x c a b) := fun _ hw he =>
  roundTrip_base (i := .barw x c a b) 0xA1 rfl rfl hw he rfl (by decide) (by decide) (by
    rw [(family_eq _ (x.bar 0xA1 c a b) 0xA1 rfl).2.2.2.2.2.1 (by decide)]
    unfold Base.instrA
    simp only [Base.ctl_eq x (x.bar 0xA1 c a b) rfl rfl, bar_eq (x.bar 0xA1 c a b) c rfl, A_eq (x.bar 0xA1 c a b) a rfl rfl,
      B_eq (x.bar 0xA1 c a b) b rfl rfl]
    simp only [Option.map_some]
    rfl)

theorem barrw {x c a b} : Statement (.barrw x c a b) := fun _ hw he =>
  roundTrip_base (i := .barrw x c a b) 0xA2 rfl rfl hw he rfl (by decide) (by decide) (by
    rw [(family_eq _ (x.bar 0xA2 c a b) 0xA2 rfl).2.2.2.2.2.1 (by decide)]
    unfold Base.instrA
    simp only [Base.ctl_eq x (x.bar 0xA2 c a b) rfl rfl, bar_eq (x.bar 0xA2 c a b) c rfl, A_eq (x.bar 0xA2 c a b) a rfl rfl,
      B_eq (x.bar 0xA2 c a b) b rfl rfl]
    simp only [Option.map_some]
    rfl)

theorem barrierWaitEnd {a0} : Statement (.barrierWaitEnd a0) := fun _ _ he => nomatch he

theorem arriveRetry {a0} : Statement (.arriveRetry a0) := fun _ _ he => nomatch he

theorem swwait {x c a b} : Statement (.swwait x c a b) := fun _ hw he =>
  roundTrip_base (i := .swwait x c a b) 0xA3 rfl rfl hw he rfl (by decide) (by decide) (by
    rw [(family_eq _ (x.bar 0xA3 c a b) 0xA3 rfl).2.2.2.2.2.1 (by decide)]
    unfold Base.instrA
    simp only [Base.ctl_eq x (x.bar 0xA3 c a b) rfl rfl, bar_eq (x.bar 0xA3 c a b) c rfl, A_eq (x.bar 0xA3 c a b) a rfl rfl,
      B_eq (x.bar 0xA3 c a b) b rfl rfl]
    simp only [Option.map_some]
    rfl)

theorem syncWaitEnd {a0} : Statement (.syncWaitEnd a0) := fun _ _ he => nomatch he

theorem cinc {x a b} : Statement (.cinc x a b) := fun _ hw he =>
  roundTrip_base (i := .cinc x a b) 0xA4 rfl rfl hw he rfl (by decide) (by decide) (by
    rw [(family_eq _ (((x.base 0xA4).setA a).setB b) 0xA4 rfl).2.2.2.2.2.1 (by decide)]
    unfold Base.instrA
    simp only [Base.ctl_eq x (((x.base 0xA4).setA a).setB b) rfl rfl, A_eq (((x.base 0xA4).setA a).setB b) a rfl rfl,
      B_eq (((x.base 0xA4).setA a).setB b) b rfl rfl]
    simp only [Base.setA, Base.setB, Ctl.base]
    rfl)

theorem crd {x d a} : Statement (.crd x d a) := fun _ hw he =>
  roundTrip_base (i := .crd x d a) 0xA5 rfl rfl hw he rfl (by decide) (by decide) (by
    rw [(family_eq _ ({ (x.base 0xA5).setA a with d := d }) 0xA5 rfl).2.2.2.2.2.1 (by decide)]
    unfold Base.instrA
    simp only [Base.ctl_eq x ({ (x.base 0xA5).setA a with d := d }) rfl rfl, A_eq ({ (x.base 0xA5).setA a with d := d }) a rfl rfl]
    simp only [Base.setA, Ctl.base]
    rfl)

theorem tqpush {x d a b n} : Statement (.tqpush x d a b n) := fun _ hw he =>
  roundTrip_base (i := .tqpush x d a b n) 0xA6 rfl rfl hw he rfl (by decide) (by decide) (by
    rw [(family_eq _ ({ x.base 0xA6 with d := d, a := a, am := 2, b := b, bm := if n = 0 then 0 else 2, c := n, cm := 3 }) 0xA6 rfl).2.2.2.2.2.1 (by decide)]
    unfold Base.instrA
    simp only [Base.ctl_eq x ({ x.base 0xA6 with d := d, a := a, am := 2, b := b, bm := if n = 0 then 0 else 2, c := n, cm := 3 }) rfl rfl]
    simp only [Ctl.base]
    rfl)

theorem tqpop {x d a} : Statement (.tqpop x d a) := fun _ hw he =>
  roundTrip_base (i := .tqpop x d a) 0xA7 rfl rfl hw he rfl (by decide) (by decide) (by
    rw [(family_eq _ ({ (x.base 0xA7).setA a with d := d }) 0xA7 rfl).2.2.2.2.2.1 (by decide)]
    unfold Base.instrA
    simp only [Base.ctl_eq x ({ (x.base 0xA7).setA a with d := d }) rfl rfl, A_eq ({ (x.base 0xA7).setA a with d := d }) a rfl rfl]
    simp only [Base.setA, Ctl.base]
    rfl)

theorem tqpopWake {a0} : Statement (.tqpopWake a0) := fun _ _ he => nomatch he

theorem fork {x d a b} : Statement (.fork x d a b) := fun _ hw he =>
  roundTrip_base (i := .fork x d a b) 0xA8 rfl rfl hw he rfl (by decide) (by decide) (by
    rw [(family_eq _ ({ (x.dst 0xA8 d).setA a with b := b, bm := 2 }) 0xA8 rfl).2.2.2.2.2.1 (by decide)]
    unfold Base.instrA
    simp only [Base.ctl_eq x ({ (x.dst 0xA8 d).setA a with b := b, bm := 2 }) rfl rfl,
      A_eq ({ (x.dst 0xA8 d).setA a with b := b, bm := 2 }) a rfl rfl, D_eq ({ (x.dst 0xA8 d).setA a with b := b, bm := 2 }) d rfl rfl]
    simp only [Base.setA, Ctl.dst, Ctl.base]
    rfl)

theorem forkResume {a0 a1} : Statement (.forkResume a0 a1) := fun _ _ he => nomatch he

theorem joinc {x a b} : Statement (.joinc x a b) := fun _ hw he =>
  roundTrip_base (i := .joinc x a b) 0xA9 rfl rfl hw he rfl (by decide) (by decide) (by
    rw [(family_eq _ (((x.base 0xA9).setA a).setB b) 0xA9 rfl).2.2.2.2.2.1 (by decide)]
    unfold Base.instrA
    simp only [Base.ctl_eq x (((x.base 0xA9).setA a).setB b) rfl rfl, A_eq (((x.base 0xA9).setA a).setB b) a rfl rfl,
      B_eq (((x.base 0xA9).setA a).setB b) b rfl rfl]
    simp only [Base.setA, Base.setB, Ctl.base]
    rfl)

theorem joincApply {a0 a1} : Statement (.joincApply a0 a1) := fun _ _ he => nomatch he

theorem gbar {x sc} : Statement (.gbar x sc) := fun _ hw he =>
  roundTrip_base (i := .gbar x sc) 0xAA rfl rfl hw he rfl (by decide) (by decide) (by
    rw [(family_eq _ ({ x.base 0xAA with c := (0 : BitVec 5) ++ sc.code, cm := 3 }) 0xAA rfl).2.2.2.2.2.1 (by decide)]
    unfold Base.instrA
    simp only [Base.ctl_eq x ({ x.base 0xAA with c := (0 : BitVec 5) ++ sc.code, cm := 3 }) rfl rfl]
    simp only [Ctl.base, gbarC_eq, Option.map_some]
    rfl)

theorem gbarComplete {a0 a1 a2} : Statement (.gbarComplete a0 a1 a2) := fun _ _ he => nomatch he

theorem jsub {x a} : Statement (.jsub x a) := fun _ hw he =>
  roundTrip_base (i := .jsub x a) 0xB0 rfl rfl hw he rfl (by decide) (by decide) (by
    rw [(family_eq _ ({ x.base 0xB0 with a := a, am := 2 }) 0xB0 rfl).2.2.2.2.2.1 (by decide)]
    unfold Base.instrA
    simp only [Base.ctl_eq x ({ x.base 0xB0 with a := a, am := 2 }) rfl rfl]
    simp only [Ctl.base]
    rfl)

theorem jwait {x m} : Statement (.jwait x m) := fun _ hw he =>
  roundTrip_base (i := .jwait x m) 0xB1 rfl rfl hw he rfl (by decide) (by decide) (by
    rw [(family_eq _ ({ x.base 0xB1 with a := m, am := 3 }) 0xB1 rfl).2.2.2.2.2.1 (by decide)]
    unfold Base.instrA
    simp only [Base.ctl_eq x ({ x.base 0xB1 with a := m, am := 3 }) rfl rfl]
    simp only [Ctl.base]
    rfl)

theorem jwaitEnd {a0} : Statement (.jwaitEnd a0) := fun _ _ he => nomatch he

theorem jchk {x d s} : Statement (.jchk x d s) := fun _ hw he =>
  roundTrip_base (i := .jchk x d s) 0xB2 rfl rfl hw he rfl (by decide) (by decide) (by
    rw [(family_eq _ ({ x.base 0xB2 with d := d, a := s, am := 3 }) 0xB2 rfl).2.2.2.2.2.1 (by decide)]
    unfold Base.instrA
    simp only [Base.ctl_eq x ({ x.base 0xB2 with d := d, a := s, am := 3 }) rfl rfl]
    simp only [Ctl.base]
    rfl)

theorem jcan {x m} : Statement (.jcan x m) := fun _ hw he =>
  roundTrip_base (i := .jcan x m) 0xB3 rfl rfl hw he rfl (by decide) (by decide) (by
    rw [(family_eq _ ({ x.base 0xB3 with a := m, am := 3 }) 0xB3 rfl).2.2.2.2.2.1 (by decide)]
    unfold Base.instrA
    simp only [Base.ctl_eq x ({ x.base 0xB3 with a := m, am := 3 }) rfl rfl]
    simp only [Ctl.base]
    rfl)

theorem jobAccept {a0} : Statement (.jobAccept a0) := fun _ _ he => nomatch he

theorem jobStart {a0 a1} : Statement (.jobStart a0 a1) := fun _ _ he => nomatch he

theorem porterRow {a0 a1} : Statement (.porterRow a0 a1) := fun _ _ he => nomatch he

theorem courierElement {a0 a1} : Statement (.courierElement a0 a1) := fun _ _ he => nomatch he

theorem collectiveElement {a0 a1} : Statement (.collectiveElement a0 a1) := fun _ _ he => nomatch he

theorem requantiseGroup {a0 a1} : Statement (.requantiseGroup a0 a1) := fun _ _ he => nomatch he

theorem jobComplete {a0 a1} : Statement (.jobComplete a0 a1) := fun _ _ he => nomatch he

theorem syncRaise {a0 a1} : Statement (.syncRaise a0 a1) := fun _ _ he => nomatch he

theorem barrierCountdown {a0 a1} : Statement (.barrierCountdown a0 a1) := fun _ _ he => nomatch he

theorem mxq {x d a} : Statement (.mxq x d a) := fun _ hw he =>
  roundTrip_base (i := .mxq x d a) 0xC0 rfl rfl hw he rfl (by decide) (by decide) (by
    rw [(family_eq _ ({ (x.base 0xC0).setA a with d := d }) 0xC0 rfl).2.2.2.2.2.2 (by decide)]
    unfold Base.instrC
    simp only [Base.ctl_eq x ({ (x.base 0xC0).setA a with d := d }) rfl rfl, A_eq ({ (x.base 0xC0).setA a with d := d }) a rfl rfl]
    simp only [Base.setA, Ctl.base]
    rfl)

theorem mxrunResume {x} : Statement (.mxrunResume x) := fun _ hw he =>
  roundTrip_base (i := .mxrunResume x) 0xC1 rfl rfl hw he rfl (by decide) (by decide) (by
    rw [(family_eq _ ({ x.base 0xC1 with a := 0, am := 3 }) 0xC1 rfl).2.2.2.2.2.2 (by decide)]
    unfold Base.instrC
    simp only [Base.ctl_eq x ({ x.base 0xC1 with a := 0, am := 3 }) rfl rfl]
    simp only [Ctl.base]
    rfl)

theorem mxrunSkip {x} : Statement (.mxrunSkip x) := fun _ hw he =>
  roundTrip_base (i := .mxrunSkip x) 0xC1 rfl rfl hw he rfl (by decide) (by decide) (by
    rw [(family_eq _ ({ x.base 0xC1 with a := 1, am := 3 }) 0xC1 rfl).2.2.2.2.2.2 (by decide)]
    unfold Base.instrC
    simp only [Base.ctl_eq x ({ x.base 0xC1 with a := 1, am := 3 }) rfl rfl]
    simp only [Ctl.base]
    rfl)

theorem mxrunAbort {x} : Statement (.mxrunAbort x) := fun _ hw he =>
  roundTrip_base (i := .mxrunAbort x) 0xC1 rfl rfl hw he rfl (by decide) (by decide) (by
    rw [(family_eq _ ({ x.base 0xC1 with a := 2, am := 3 }) 0xC1 rfl).2.2.2.2.2.2 (by decide)]
    unfold Base.instrC
    simp only [Base.ctl_eq x ({ x.base 0xC1 with a := 2, am := 3 }) rfl rfl]
    simp only [Ctl.base]
    rfl)

theorem mxcfg {x a e} : Statement (.mxcfg x a e) := fun _ hw he =>
  roundTrip_base (i := .mxcfg x a e) 0xC2 rfl rfl hw he rfl (by decide) (by decide) (by
    rw [(family_eq _ ({ x.base 0xC2 with a := a, am := 2, b := e, bm := 3 }) 0xC2 rfl).2.2.2.2.2.2 (by decide)]
    unfold Base.instrC
    simp only [Base.ctl_eq x ({ x.base 0xC2 with a := a, am := 2, b := e, bm := 3 }) rfl rfl]
    simp only [Ctl.base]
    rfl)

theorem mxcb {x a sp j} : Statement (.mxcb x a sp j) := fun _ hw he =>
  roundTrip_base (i := .mxcb x a sp j) 0xC3 rfl rfl hw he rfl (by decide) (by decide) (by
    rw [(family_eq _ ({ x.base 0xC3 with a := a, am := 2, b := (0 : BitVec 4) ++ bit1 sp ++ j, bm := 3 }) 0xC3 rfl).2.2.2.2.2.2 (by decide)]
    unfold Base.instrC
    simp only [Base.ctl_eq x ({ x.base 0xC3 with a := a, am := 2, b := (0 : BitVec 4) ++ bit1 sp ++ j, bm := 3 }) rfl rfl]
    simp only [Ctl.base, cbankF_eq]
    rfl)

theorem mxwait {x d a} : Statement (.mxwait x d a) := fun _ hw he =>
  roundTrip_base (i := .mxwait x d a) 0xC4 rfl rfl hw he rfl (by decide) (by decide) (by
    rw [(family_eq _ ({ (x.base 0xC4).setA a with d := d }) 0xC4 rfl).2.2.2.2.2.2 (by decide)]
    unfold Base.instrC
    simp only [Base.ctl_eq x ({ (x.base 0xC4).setA a with d := d }) rfl rfl, A_eq ({ (x.base 0xC4).setA a with d := d }) a rfl rfl]
    simp only [Base.setA, Ctl.base]
    rfl)

theorem engineWaitEnd {a0} : Statement (.engineWaitEnd a0) := fun _ _ he => nomatch he

theorem mxRecordFetch {a0 a1} : Statement (.mxRecordFetch a0 a1) := fun _ _ he => nomatch he

theorem mxRecordStart {a0 a1} : Statement (.mxRecordStart a0 a1) := fun _ _ he => nomatch he

theorem mxKblock {a0 a1} : Statement (.mxKblock a0 a1) := fun _ _ he => nomatch he

theorem mapbind {x h a sp} : Statement (.mapbind x h a sp) := fun _ hw he =>
  roundTrip_base (i := .mapbind x h a sp) 0xC5 rfl rfl hw he rfl (by decide) (by decide) (by
    rw [(family_eq _ ({ x.base 0xC5 with d := n2 h, a := a, am := 2, b := if sp then 1 else 0, bm := 3 }) 0xC5 rfl).2.2.2.2.2.2 (by decide)]
    unfold Base.instrC
    simp only [Base.ctl_eq x ({ x.base 0xC5 with d := n2 h, a := a, am := 2, b := if sp then 1 else 0, bm := 3 }) rfl rfl]
    simp only [Ctl.base, n2_low, flag_eq]
    rfl)

theorem mapld {x h a sp} : Statement (.mapld x h a sp) := fun _ hw he =>
  roundTrip_base (i := .mapld x h a sp) 0xC6 rfl rfl hw he rfl (by decide) (by decide) (by
    rw [(family_eq _ ({ x.base 0xC6 with d := n2 h, a := a, am := 2, b := if sp then 1 else 0, bm := 3 }) 0xC6 rfl).2.2.2.2.2.2 (by decide)]
    unfold Base.instrC
    simp only [Base.ctl_eq x ({ x.base 0xC6 with d := n2 h, a := a, am := 2, b := if sp then 1 else 0, bm := 3 }) rfl rfl]
    simp only [Ctl.base, n2_low, flag_eq]
    rfl)

theorem mapst {x h a sp} : Statement (.mapst x h a sp) := fun _ hw he =>
  roundTrip_base (i := .mapst x h a sp) 0xC7 rfl rfl hw he rfl (by decide) (by decide) (by
    rw [(family_eq _ ({ x.base 0xC7 with d := n2 h, a := a, am := 2, b := if sp then 1 else 0, bm := 3 }) 0xC7 rfl).2.2.2.2.2.2 (by decide)]
    unfold Base.instrC
    simp only [Base.ctl_eq x ({ x.base 0xC7 with d := n2 h, a := a, am := 2, b := if sp then 1 else 0, bm := 3 }) rfl rfl]
    simp only [Ctl.base, n2_low, flag_eq]
    rfl)

theorem maprel {x h} : Statement (.maprel x h) := fun _ hw he =>
  roundTrip_base (i := .maprel x h) 0xC8 rfl rfl hw he rfl (by decide) (by decide) (by
    rw [(family_eq _ ({ x.base 0xC8 with d := n2 h }) 0xC8 rfl).2.2.2.2.2.2 (by decide)]
    unfold Base.instrC
    simp only [Base.ctl_eq x ({ x.base 0xC8 with d := n2 h }) rfl rfl]
    simp only [Ctl.base, n2_low]
    rfl)

theorem mapinfo {x d h} : Statement (.mapinfo x d h) := fun _ hw he =>
  roundTrip_base (i := .mapinfo x d h) 0xC9 rfl rfl hw he rfl (by decide) (by decide) (by
    rw [(family_eq _ ({ x.base 0xC9 with d := d, a := n2 h, am := 3 }) 0xC9 rfl).2.2.2.2.2.2 (by decide)]
    unfold Base.instrC
    simp only [Base.ctl_eq x ({ x.base 0xC9 with d := d, a := n2 h, am := 3 }) rfl rfl]
    simp only [Ctl.base, n2_low]
    rfl)

theorem blockedWaitEnd {a0} : Statement (.blockedWaitEnd a0) := fun _ _ he => nomatch he

theorem srchbeg {x u off} : Statement (.srchbeg x u off) := fun _ hw he =>
  roundTrip_base (i := .srchbeg x u off) 0xD0 rfl rfl hw he rfl (by decide) (by decide) (by
    rw [(family_eq _ ({ (x.base 0xD0).setOff off with d := u }) 0xD0 rfl).2.2.2.2.2.2 (by decide)]
    unfold Base.instrC
    simp only [Base.ctl_eq x ({ (x.base 0xD0).setOff off with d := u }) rfl rfl]
    simp only [Base.setOff, Ctl.base, off_eq]
    rfl)

theorem srchend {x} : Statement (.srchend x) := fun _ hw he =>
  roundTrip_base (i := .srchend x) 0xD1 rfl rfl hw he rfl (by decide) (by decide) (by
    rw [(family_eq _ (x.base 0xD1) 0xD1 rfl).2.2.2.2.2.2 (by decide)]
    unfold Base.instrC
    simp only [Base.ctl_eq x (x.base 0xD1) rfl rfl]
    simp only [Ctl.base]
    rfl)

theorem trye {x d a b} : Statement (.trye x d a b) := fun _ hw he =>
  roundTrip_base (i := .trye x d a b) 0xD2 rfl rfl hw he rfl (by decide) (by decide) (by
    rw [(family_eq _ (((x.dst 0xD2 d).setA a).setB b) 0xD2 rfl).2.2.2.2.2.2 (by decide)]
    unfold Base.instrC
    simp only [Base.ctl_eq x (((x.dst 0xD2 d).setA a).setB b) rfl rfl, A_eq (((x.dst 0xD2 d).setA a).setB b) a rfl rfl,
      B_eq (((x.dst 0xD2 d).setA a).setB b) b rfl rfl, D_eq (((x.dst 0xD2 d).setA a).setB b) d rfl rfl]
    simp only [Base.setA, Base.setB, Ctl.dst, Ctl.base]
    rfl)

theorem fail {x} : Statement (.fail x) := fun _ hw he =>
  roundTrip_base (i := .fail x) 0xD3 rfl rfl hw he rfl (by decide) (by decide) (by
    rw [(family_eq _ (x.base 0xD3) 0xD3 rfl).2.2.2.2.2.2 (by decide)]
    unfold Base.instrC
    simp only [Base.ctl_eq x (x.base 0xD3) rfl rfl]
    simp only [Ctl.base]
    rfl)

theorem cut {x a} : Statement (.cut x a) := fun _ hw he =>
  roundTrip_base (i := .cut x a) 0xD4 rfl rfl hw he rfl (by decide) (by decide) (by
    rw [(family_eq _ ((x.base 0xD4).setA a) 0xD4 rfl).2.2.2.2.2.2 (by decide)]
    unfold Base.instrC
    simp only [Base.ctl_eq x ((x.base 0xD4).setA a) rfl rfl, A_eq ((x.base 0xD4).setA a) a rfl rfl]
    simp only [Base.setA, Ctl.base]
    rfl)

theorem cpmark {x d} : Statement (.cpmark x d) := fun _ hw he =>
  roundTrip_base (i := .cpmark x d) 0xD5 rfl rfl hw he rfl (by decide) (by decide) (by
    rw [(family_eq _ (x.dst 0xD5 d) 0xD5 rfl).2.2.2.2.2.2 (by decide)]
    unfold Base.instrC
    simp only [Base.ctl_eq x (x.dst 0xD5 d) rfl rfl, D_eq (x.dst 0xD5 d) d rfl rfl]
    simp only [Ctl.dst, Ctl.base]
    rfl)

theorem cpchk {x d} : Statement (.cpchk x d) := fun _ hw he =>
  roundTrip_base (i := .cpchk x d) 0xD6 rfl rfl hw he rfl (by decide) (by decide) (by
    rw [(family_eq _ (x.dst 0xD6 d) 0xD6 rfl).2.2.2.2.2.2 (by decide)]
    unfold Base.instrC
    simp only [Base.ctl_eq x (x.dst 0xD6 d) rfl rfl, D_eq (x.dst 0xD6 d) d rfl rfl]
    simp only [Ctl.dst, Ctl.base]
    rfl)

theorem trst {x b64 d a b} : Statement (.trst x b64 d a b) := fun _ hw he =>
  roundTrip_base (i := .trst x b64 d a b) 0xD7 rfl rfl hw he rfl (by decide) (by decide) (by
    rw [(family_eq _ ((((x.dst 0xD7 d).setA a).setB b).setF (f0F b64)) 0xD7 rfl).2.2.2.2.2.2 (by decide)]
    unfold Base.instrC
    simp only [Base.ctl_eq x ((((x.dst 0xD7 d).setA a).setB b).setF (f0F b64)) rfl rfl,
      A_eq ((((x.dst 0xD7 d).setA a).setB b).setF (f0F b64)) a rfl rfl,
      B_eq ((((x.dst 0xD7 d).setA a).setB b).setF (f0F b64)) b rfl rfl,
      D_eq ((((x.dst 0xD7 d).setA a).setB b).setF (f0F b64)) d rfl rfl, f0_eq ((((x.dst 0xD7 d).setA a).setB b).setF (f0F b64)) b64 rfl]
    simp only [Base.setF, Base.setA, Base.setB, Ctl.dst, Ctl.base]
    rfl)

theorem steal {x d} : Statement (.steal x d) := fun _ hw he =>
  roundTrip_base (i := .steal x d) 0xD8 rfl rfl hw he rfl (by decide) (by decide) (by
    rw [(family_eq _ (x.dst 0xD8 d) 0xD8 rfl).2.2.2.2.2.2 (by decide)]
    unfold Base.instrC
    simp only [Base.ctl_eq x (x.dst 0xD8 d) rfl rfl, D_eq (x.dst 0xD8 d) d rfl rfl]
    simp only [Ctl.dst, Ctl.base]
    rfl)

theorem timerTrap {a0} : Statement (.timerTrap a0) := fun _ _ he => nomatch he

theorem storageError {a0} : Statement (.storageError a0) := fun _ _ he => nomatch he

theorem pageTableWalk {a0} : Statement (.pageTableWalk a0) := fun _ _ he => nomatch he

theorem l2SectorFill {a0 a1} : Statement (.l2SectorFill a0 a1) := fun _ _ he => nomatch he

theorem l2Writeback {a0 a1} : Statement (.l2Writeback a0 a1) := fun _ _ he => nomatch he

theorem hbmSectorTransfer {a0 a1} : Statement (.hbmSectorTransfer a0 a1) := fun _ _ he => nomatch he

theorem bucketRefill : Statement (.bucketRefill) := fun _ _ he => nomatch he

theorem bucketEntryWrite {a0 a1 a2} : Statement (.bucketEntryWrite a0 a1 a2) := fun _ _ he => nomatch he

theorem hbmScrub {a0} : Statement (.hbmScrub a0) := fun _ _ he => nomatch he

theorem keySlotDestroy {a0} : Statement (.keySlotDestroy a0) := fun _ _ he => nomatch he

theorem keySlotDestroyComplete {a0} : Statement (.keySlotDestroyComplete a0) := fun _ _ he => nomatch he

theorem remoteWriteApply {a0 a1} : Statement (.remoteWriteApply a0 a1) := fun _ _ he => nomatch he

theorem remoteWriteAck {a0 a1} : Statement (.remoteWriteAck a0 a1) := fun _ _ he => nomatch he

theorem markReceive {a0 a1} : Statement (.markReceive a0 a1) := fun _ _ he => nomatch he

theorem closeRequest {a0 a1} : Statement (.closeRequest a0 a1) := fun _ _ he => nomatch he

theorem epochTimeout {a0} : Statement (.epochTimeout a0) := fun _ _ he => nomatch he

theorem hostPostedWrite {a0 a1 a2 a3} : Statement (.hostPostedWrite a0 a1 a2 a3) := fun _ _ he => nomatch he

theorem packetArrival {a0 a1} : Statement (.packetArrival a0 a1) := fun _ _ he => nomatch he

theorem orderedDelivery {a0 a1} : Statement (.orderedDelivery a0 a1) := fun _ _ he => nomatch he

theorem ack {a0 a1 a2} : Statement (.ack a0 a1 a2) := fun _ _ he => nomatch he

theorem nak {a0 a1 a2} : Statement (.nak a0 a1 a2) := fun _ _ he => nomatch he

theorem close {a0 a1 a2 a3} : Statement (.close a0 a1 a2 a3) := fun _ _ he => nomatch he

theorem packetResend {a0 a1 a2} : Statement (.packetResend a0 a1 a2) := fun _ _ he => nomatch he

theorem linkFrameReceive {a0 a1 a2} : Statement (.linkFrameReceive a0 a1 a2) := fun _ _ he => nomatch he

theorem invalidationBroadcast {a0} : Statement (.invalidationBroadcast a0) := fun _ _ he => nomatch he

theorem invalidationReceipt {a0} : Statement (.invalidationReceipt a0) := fun _ _ he => nomatch he

theorem invalidationDrained {a0} : Statement (.invalidationDrained a0) := fun _ _ he => nomatch he

theorem invalidationComplete : Statement (.invalidationComplete) := fun _ _ he => nomatch he

theorem registerWindowWrite {a0 a1} : Statement (.registerWindowWrite a0 a1) := fun _ _ he => nomatch he

theorem debuggerWrite {a0 a1 a2 a3} : Statement (.debuggerWrite a0 a1 a2 a3) := fun _ _ he => nomatch he

theorem windowHoldSet {a0 a1} : Statement (.windowHoldSet a0 a1) := fun _ _ he => nomatch he

theorem windowHoldAck {a0 a1} : Statement (.windowHoldAck a0 a1) := fun _ _ he => nomatch he

theorem windowHoldRelease {a0 a1} : Statement (.windowHoldRelease a0 a1) := fun _ _ he => nomatch he

theorem breakpointArm {a0 a1 a2} : Statement (.breakpointArm a0 a1 a2) := fun _ _ he => nomatch he

theorem stopRequest {a0 a1} : Statement (.stopRequest a0 a1) := fun _ _ he => nomatch he

theorem singleStep {a0} : Statement (.singleStep a0) := fun _ _ he => nomatch he

theorem roomCardWrite {a0 a1 a2} : Statement (.roomCardWrite a0 a1 a2) := fun _ _ he => nomatch he

theorem roomCardTakeUp {a0 a1} : Statement (.roomCardTakeUp a0 a1) := fun _ _ he => nomatch he

theorem groupMakeResident {a0 a1} : Statement (.groupMakeResident a0 a1) := fun _ _ he => nomatch he

theorem groupSave {a0 a1} : Statement (.groupSave a0 a1) := fun _ _ he => nomatch he

theorem groupRestore {a0 a1} : Statement (.groupRestore a0 a1) := fun _ _ he => nomatch he

theorem sliceEnd {a0} : Statement (.sliceEnd a0) := fun _ _ he => nomatch he

theorem preemptDeadline {a0} : Statement (.preemptDeadline a0) := fun _ _ he => nomatch he

theorem gangRelaunch {a0 a1} : Statement (.gangRelaunch a0 a1) := fun _ _ he => nomatch he

theorem deficitUpdate : Statement (.deficitUpdate) := fun _ _ he => nomatch he

theorem scanSlotStart : Statement (.scanSlotStart) := fun _ _ he => nomatch he

theorem scanRun : Statement (.scanRun) := fun _ _ he => nomatch he

theorem scanDefer : Statement (.scanDefer) := fun _ _ he => nomatch he

theorem scanResult {a0 a1} : Statement (.scanResult a0 a1) := fun _ _ he => nomatch he

theorem eyeMarginWindow {a0 a1} : Statement (.eyeMarginWindow a0 a1) := fun _ _ he => nomatch he

theorem linkRetrainDone {a0} : Statement (.linkRetrainDone a0) := fun _ _ he => nomatch he

theorem linkRateRaise {a0} : Statement (.linkRateRaise a0) := fun _ _ he => nomatch he

theorem linkReset {a0} : Statement (.linkReset a0) := fun _ _ he => nomatch he

theorem engineReset {a0 a1} : Statement (.engineReset a0 a1) := fun _ _ he => nomatch he

theorem partitionReset {a0} : Statement (.partitionReset a0) := fun _ _ he => nomatch he

theorem partitionResetComplete {a0} : Statement (.partitionResetComplete a0) := fun _ _ he => nomatch he

theorem functionLevelReset {a0} : Statement (.functionLevelReset a0) := fun _ _ he => nomatch he

theorem vfEnableClear : Statement (.vfEnableClear) := fun _ _ he => nomatch he

theorem sqDoorbell {a0 a1 a2} : Statement (.sqDoorbell a0 a1 a2) := fun _ _ he => nomatch he

theorem launch {a0 a1} : Statement (.launch a0 a1) := fun _ _ he => nomatch he

theorem launchComplete {a0} : Statement (.launchComplete a0) := fun _ _ he => nomatch he

theorem cincEntry {a0 a1} : Statement (.cincEntry a0 a1) := fun _ _ he => nomatch he

theorem cwait {a0 a1} : Statement (.cwait a0 a1) := fun _ _ he => nomatch he

theorem cwaitSatisfied {a0 a1} : Statement (.cwaitSatisfied a0 a1) := fun _ _ he => nomatch he

theorem nopEntry {a0 a1} : Statement (.nopEntry a0 a1) := fun _ _ he => nomatch he

theorem adminDoorbell {a0 a1} : Statement (.adminDoorbell a0 a1) := fun _ _ he => nomatch he

theorem qreg {a0} : Statement (.qreg a0) := fun _ _ he => nomatch he

theorem codeload {a0} : Statement (.codeload a0) := fun _ _ he => nomatch he

theorem codefree {a0} : Statement (.codefree a0) := fun _ _ he => nomatch he

theorem keyreg {a0} : Statement (.keyreg a0) := fun _ _ he => nomatch he

theorem pagereg {a0} : Statement (.pagereg a0) := fun _ _ he => nomatch he

theorem resume {a0} : Statement (.resume a0) := fun _ _ he => nomatch he

theorem abandon {a0} : Statement (.abandon a0) := fun _ _ he => nomatch he

theorem depthr {a0} : Statement (.depthr a0) := fun _ _ he => nomatch he

theorem trace {a0} : Statement (.trace a0) := fun _ _ he => nomatch he

theorem fwstage {a0} : Statement (.fwstage a0) := fun _ _ he => nomatch he

theorem fwact {a0} : Statement (.fwact a0) := fun _ _ he => nomatch he

theorem fwHandover : Statement (.fwHandover) := fun _ _ he => nomatch he

theorem fwHeartbeat {a0} : Statement (.fwHeartbeat a0) := fun _ _ he => nomatch he

theorem fwRollback : Statement (.fwRollback) := fun _ _ he => nomatch he

theorem duneshFailover : Statement (.duneshFailover) := fun _ _ he => nomatch he

theorem staleprWrite {a0} : Statement (.staleprWrite a0) := fun _ _ he => nomatch he

theorem registerWrite {a0 a1 a2} : Statement (.registerWrite a0 a1 a2) := fun _ _ he => nomatch he

theorem atsTranslationReply {a0 a1 a2 a3 a4} : Statement (.atsTranslationReply a0 a1 a2 a3 a4) := fun _ _ he => nomatch he

theorem atsInvalidationRequest {a0 a1 a2} : Statement (.atsInvalidationRequest a0 a1 a2) := fun _ _ he => nomatch he

theorem pageRequestGroupResponse {a0 a1 a2} : Statement (.pageRequestGroupResponse a0 a1 a2) := fun _ _ he => nomatch he

theorem getVersion : Statement (.getVersion) := fun _ _ he => nomatch he

theorem getCapabilities : Statement (.getCapabilities) := fun _ _ he => nomatch he

theorem negotiateAlgorithms : Statement (.negotiateAlgorithms) := fun _ _ he => nomatch he

theorem getDigests : Statement (.getDigests) := fun _ _ he => nomatch he

theorem getCertificate : Statement (.getCertificate) := fun _ _ he => nomatch he

theorem challenge {a0} : Statement (.challenge a0) := fun _ _ he => nomatch he

theorem getMeasurements {a0} : Statement (.getMeasurements a0) := fun _ _ he => nomatch he

theorem powerOn : Statement (.powerOn) := fun _ _ he => nomatch he

theorem thermalThrottle : Statement (.thermalThrottle) := fun _ _ he => nomatch he

theorem thermalTrip : Statement (.thermalTrip) := fun _ _ he => nomatch he

theorem lanternLoad {a0} : Statement (.lanternLoad a0) := fun _ _ he => nomatch he

theorem lanternBreak {a0 a1} : Statement (.lanternBreak a0 a1) := fun _ _ he => nomatch he

theorem lanternDeleteAll : Statement (.lanternDeleteAll) := fun _ _ he => nomatch he

theorem lanternRun {a0 a1} : Statement (.lanternRun a0 a1) := fun _ _ he => nomatch he

theorem lanternCont {a0} : Statement (.lanternCont a0) := fun _ _ he => nomatch he

theorem lanternPrint {a0 a1 a2} : Statement (.lanternPrint a0 a1 a2) := fun _ _ he => nomatch he

theorem lanternMem {a0 a1 a2} : Statement (.lanternMem a0 a1 a2) := fun _ _ he => nomatch he

theorem lanternDis {a0 a1} : Statement (.lanternDis a0 a1) := fun _ _ he => nomatch he

theorem lanternEvict : Statement (.lanternEvict) := fun _ _ he => nomatch he

theorem lanternCinc {a0 a1} : Statement (.lanternCinc a0 a1) := fun _ _ he => nomatch he

theorem hostRead {a0 a1 a2 a3} : Statement (.hostRead a0 a1 a2 a3) := fun _ _ he => nomatch he

theorem cxlCacheSnoop {a0 a1 a2} : Statement (.cxlCacheSnoop a0 a1 a2) := fun _ _ he => nomatch he

theorem privilegedAccess {a0 a1 a2 a3} : Statement (.privilegedAccess a0 a1 a2 a3) := fun _ _ he => nomatch he

theorem partitionStart {a0} : Statement (.partitionStart a0) := fun _ _ he => nomatch he

end Sys2Proof.Laws.RoundTrip
end

