-- ==== Sys2Proof/Laws/Words.lean ====
section
/-! SUPPORT. Word arithmetic of the integer instructions as arithmetic on exact integers (R210). -/

namespace Sys2Proof.Machine

theorem ofInt_add_toInt (a b : W32) : BitVec.ofInt 32 (a.toInt + b.toInt) = a + b := by
  apply BitVec.eq_of_toInt_eq; simp [BitVec.toInt_add]

theorem ofInt_sub_toInt (a b : W32) : BitVec.ofInt 32 (a.toInt - b.toInt) = a - b := by
  apply BitVec.eq_of_toInt_eq; simp [BitVec.toInt_sub]

theorem ofInt_mul_toInt (a b : W32) : BitVec.ofInt 32 (a.toInt * b.toInt) = a * b := by
  apply BitVec.eq_of_toInt_eq; simp [BitVec.toInt_mul]

theorem ofInt_mad_toInt (a b c : W32) : BitVec.ofInt 32 (a.toInt * b.toInt + c.toInt) = a * b + c := by
  apply BitVec.eq_of_toInt_eq; simp [BitVec.toInt_add, BitVec.toInt_mul]

theorem umin_eq_ofNat (a b : W32) : (if b.toNat < a.toNat then b else a) = BitVec.ofNat 32 (min a.toNat b.toNat) := by
  split <;> rename_i h
  · rw [min_eq_right (by omega)]; simp
  · rw [min_eq_left (by omega)]; simp

theorem umax_eq_ofNat (a b : W32) : (if a.toNat < b.toNat then b else a) = BitVec.ofNat 32 (max a.toNat b.toNat) := by
  split <;> rename_i h
  · rw [max_eq_right (by omega)]; simp
  · rw [max_eq_left (by omega)]; simp

theorem smin_eq_ofInt (a b : W32) : (if b.toInt < a.toInt then b else a) = BitVec.ofInt 32 (min a.toInt b.toInt) := by
  split <;> rename_i h
  · rw [min_eq_right (by omega)]; simp
  · rw [min_eq_left (by omega)]; simp

theorem smax_eq_ofInt (a b : W32) : (if a.toInt < b.toInt then b else a) = BitVec.ofInt 32 (max a.toInt b.toInt) := by
  split <;> rename_i h
  · rw [max_eq_right (by omega)]; simp
  · rw [max_eq_left (by omega)]; simp

theorem abs_eq_ofInt_natAbs (a : W32) : (if a.toInt < 0 then -a else a) = BitVec.ofInt 32 (a.toInt.natAbs : Int) := by
  split <;> rename_i h
  · rw [show ((a.toInt.natAbs : Int)) = -a.toInt by omega]; rw [BitVec.ofInt_neg]; simp
  · rw [show ((a.toInt.natAbs : Int)) = a.toInt by omega]; simp

theorem abs_toInt_eq_natAbs (a : W32) : (if a.toInt < 0 then -a.toInt else a.toInt) = (a.toInt.natAbs : Int) := by
  split <;> omega

theorem shl_eq_ofNat (a : W32) (n : Nat) : a <<< n = BitVec.ofNat 32 (a.toNat * 2 ^ n) := by
  apply BitVec.eq_of_toNat_eq; simp [BitVec.toNat_shiftLeft, Nat.shiftLeft_eq]

theorem shr_eq_ofNat (a : W32) (n : Nat) : a >>> n = BitVec.ofNat 32 (a.toNat / 2 ^ n) := by
  apply BitVec.eq_of_toNat_eq
  simp [BitVec.toNat_ushiftRight, Nat.shiftRight_eq_div_pow]
  rw [Nat.mod_eq_of_lt]; exact lt_of_le_of_lt (Nat.div_le_self _ _) a.isLt

theorem sra_eq_ofInt (a : W32) (n : Nat) : a.sshiftRight n = BitVec.ofInt 32 (a.toInt / 2 ^ n) := by
  rw [BitVec.sshiftRight]; congr 1; rw [Int.shiftRight_eq_div_pow]; norm_cast

theorem getLsbD_wordOf (f : Nat → Bool) (i : Nat) (h : i < 32) : (wordOf f).getLsbD i = f i := by
  unfold wordOf lanes
  have hb : ∀ n, (bitOf n).getLsbD i = (decide (i = n)) := by
    intro n; rw [bitOf, BitVec.getLsbD_ofNat, Nat.testBit_two_pow]; simp [h, eq_comm]
  have key : ∀ (l : List Nat) (acc : W32), (l.foldl (fun acc i => if f i then acc ||| bitOf i else acc) acc).getLsbD i = (acc.getLsbD i || (decide (i ∈ l) && f i)) := by
    intro l; induction l with
    | nil => simp
    | cons x r ih => 
      intro acc; rw [List.foldl_cons, ih]
      by_cases hx : f x = true
      · simp only [hx, if_true, BitVec.getLsbD_or, hb]
        by_cases hi : i = x <;> simp_all
      · simp only [hx]
        by_cases hi : i = x <;> simp_all
  rw [key]; simp [h]

theorem popMask_eq_countP (a : W32) : popMask a = (List.range 32).countP fun i => a.getLsbD i := by
  simp [popMask, lanesOf, lanes, List.countP_eq_length_filter]

theorem wordOf_reverse (a : W32) : (wordOf fun i => a.getLsbD (31 - i)) = a.reverse := by
  apply BitVec.eq_of_getLsbD_eq; intro i hi
  rw [getLsbD_wordOf _ _ hi, BitVec.getLsbD_reverse, BitVec.getMsbD]; simp [hi]

theorem bfeWord_eq_ofNat (a b : W32) : bfeWord a b = BitVec.ofNat 32 (a.toNat / 2 ^ (b.toNat % 256) % 2 ^ (b.toNat / 256 % 256)) := by
  apply BitVec.eq_of_getLsbD_eq; intro i hi
  rw [bfeWord]; rw [getLsbD_wordOf _ _ hi, BitVec.getLsbD_ofNat, Nat.testBit_mod_two_pow, Nat.testBit_div_two_pow]
  simp only [hi, decide_true, Bool.true_and, BitVec.getLsbD, Nat.add_comm i]
  rcases Nat.lt_or_ge (b.toNat % 256 + i) 32 with h | h
  · simp [h]
  · have : a.toNat.testBit (b.toNat % 256 + i) = false := Nat.testBit_lt_two_pow (lt_of_lt_of_le a.isLt (Nat.pow_le_pow_right (by omega) h))
    simp [this]

theorem funnel_eq_ofNat (a b : W32) (n : Nat) : (((b ++ a : BitVec 64) >>> n).setWidth 32) = BitVec.ofNat 32 ((b.toNat * 2 ^ 32 + a.toNat) / 2 ^ n) := by
  apply BitVec.eq_of_toNat_eq
  simp only [BitVec.toNat_setWidth, BitVec.toNat_ushiftRight, BitVec.toNat_append, BitVec.toNat_ofNat, Nat.shiftRight_eq_div_pow]
  congr 2
  rw [Nat.shiftLeft_eq, Nat.mul_comm, ← Nat.two_pow_add_eq_or_of_lt a.isLt]

end Sys2Proof.Machine
end

