-- ==== Sys2Proof/Tests/Slice0.lean ====
section
/-! SUPPORT. Tests of the model, with results taken from the manual, and for each statement for the provers a witness that meets all its
hypotheses. -/

namespace Sys2Proof.Tests

open Sys2Proof.Machine

set_option Elab.async false

/-! ### Small states -/

/-- Control fields without a hint and without a word in front. -/
def plain : Ctl := { la := 0, ru := false, pfx := none }

/-- Control fields with lookahead n. -/
def ahead (n : BitVec 4) : Ctl := { plain with la := n }

/-- Vector register n as a destination. -/
def vd (n : BitVec 8) : Dst := ⟨false, n⟩

/-- The words of an instruction as one number, with its bits. -/
def bitsOf (i : Instr) : Nat × Nat :=
  match encode i with
  | some x => match x.pw with
    | some p => (96, p.toNat + x.w.toNat * 2 ^ 32)
    | none => (64, x.w.toNat)
  | none => (64, 0)

/-- A group with a scratchpad, tiles, map slots and search allowed. -/
def group : Group :=
  { placedGroup with
    hdr := { placedGroup.hdr with flags := 2, slots := 2, tiles := 2, satchel := 0x400, scratch := 0x10000 }
    lrec := { placedGroup.lrec with priv := 0x800 }
    spbytes := 0x10000 }

/-- The split's warp: lanes m at offset 0, with its registers changed by f. -/
def warp (m : LaneMask) (f : Warp → Warp) : Warp := f { splits := [some { pc := 0, mask := m }, none, none, none] }

/-- A device about to issue an instruction with lanes m, its warp and group changed. -/
def world (i : Instr) (m : LaneMask := 1) (f : Warp → Warp := id) (g : Group → Group := id) : State :=
  let s := State.reset.placeWord (bitsOf i).1 (bitsOf i).2
  { s with cores := modifyAt s.cores 0 fun k => { k with
      rooms := k.rooms.set 0 { group := some (g group) }
      warps := put none k.warps 0 (some (warp m f)) } }

/-- A warp with uniform n changed. -/
def withK (n : Nat) (x : W64) (w : Warp) : Warp := { w with uni := w.uni.set n { data := x } }

/-- A warp with a poisoned uniform. -/
def badK (n : Nat) (w : Warp) : Warp := { w with uni := w.uni.set n { poison := true } }

/-- A state with lane l of vN written. -/
def withV (n l : Nat) (x : W32) (s : State) : State := s.setVreg 0 0 n l { data := x }

/-- A state with a poisoned lane of vN. -/
def badV (n l : Nat) (s : State) : State := s.setVreg 0 0 n l { poison := true }

/-- Whether an instruction's own faults stand in no one's way, as a Boolean. -/
def usable (c : Ctx) (ls : LaneMask) (ns : List Need) (maps : List (Src × OpFmt)) : Bool :=
  (ns.findSome? (c.regb1 ls)).isNone && (c.slotFault ls maps).isNone && (c.lav ls ns).isNone

theorem usable_of {c : Ctx} {ls : LaneMask} {ns : List Need} {maps : List (Src × OpFmt)} (h : usable c ls ns maps = true) :
    c.Usable ls ns maps := by
  simp only [usable, Bool.and_eq_true, Option.isNone_iff_eq_none] at h
  exact ⟨h.1.1, h.1.2, h.2⟩

/-- A decidable premise, by evaluation. -/
theorem yes {p : Prop} [Decidable p] (h : decide p = true := by decide +kernel) : p := of_decide_eq_true h

theorem issues_of {s : State} (h : (s.split? s.cur).isSome = true) : s.Issues := h

theorem trails_closed {c : Ctx} {e : State} {ws : List RegWrite} (h : c.w.regionOpen = false) : c.Trails e ws e := by
  simp only [Ctx.Trails, Ctx.trail, Ctx.trailing, h]
  rfl

/-- The state of a part that succeeds. -/
def okOf (x : Act State) : State :=
  match x with
  | .ok s => s
  | .error e => e.2

/-- Whether a part succeeds. -/
def isOk {ε α : Type} (x : Except ε α) : Bool :=
  match x with
  | .ok _ => true
  | .error _ => false

theorem ok_of {x : Act State} (h : isOk x = true) : x = .ok (okOf x) := by
  cases x with
  | ok _ => rfl
  | error _ => cases h

/-- Control fields with mask register m1, which no lane of a small state has set. -/
def noLane : Ctl := { plain with pfx := some { m := 1, mn := false, mz := false, rm := .dyn, e := .v 0, sat := false } }

/-- Control fields with a word in front that names every lane and operand E. -/
def withE (e : Src) : Ctl := { plain with pfx := some { m := 0, mn := false, mz := false, rm := .dyn, e := e, sat := false } }

/-- The place of n bytes at an address of the page that the small states map. -/
def page (a n : Nat) : Place := .mem ((List.range n).map fun j => (0x1000000000 + a + j, { key := some 0 }))

/-- The place of a scratchpad address of the small states' group (R21). -/
def scr (a : Nat) : Place := .chip 0 (0x200000 + a) false

/-- The warp after a division that succeeds. -/
def divided (x : Except DivideError Warp) : Warp :=
  match x with
  | .ok w => w
  | .error _ => {}

theorem divided_of {x : Except DivideError Warp} (h : x.isOk = true) : x = .ok (divided x) := by
  cases x with
  | ok _ => rfl
  | error _ => cases h

/-- A split of a small state that waits: an instruction stands in memory at its PC and it has a blocking record. -/
def waiting (i : Instr) (b : Block) (f : Warp → Warp := id) : State := world i 1 fun w => f { w with block := [b, {}, {}, {}] }

theorem waits_of {s : State} {kind : Nat} {i : Instr} {x : Words} (h1 : (s.split? ⟨0, 0, 0⟩).isSome = true)
    (h2 : (s.blockOf ⟨0, 0, 0⟩).kind = kind) (h3 : (s.groupOf 0 0).runs = true) (h4 : s.fetch ⟨0, 0, 0⟩ = .instr i x) :
    s.Waiting ⟨0, 0, 0⟩ kind i x := ⟨h1, h2, h3, h4⟩

/-- A counter of partition 0 at a value. -/
def withCounter (id : Nat) (v : W64) (s : State) : State := { s with counters := put {} s.counters id { value := v, log := [(v, 0)] } }

/-- Bytes placed in the page that the small states map. -/
def withBytes (a : Nat) (bs : List Byte) (s : State) : State := { s with mem := putBytes s.mem (0x1000000000 + a) bs }

/-- Tables that map page 0 of ASID 1 to the page of the small states: the ASID's entry, the partition map's, five levels (R24 to R29). -/
def mapped (s : State) : State :=
  let t := { s with asidBase := 0x1000010000, pmap := put 0 s.pmap 0 0x1000020000 }
  [(0x10008, 0x30001), (0x20000, 64 * 2 ^ 30 + 7), (0x30000, 0x31001), (0x31000, 0x32001), (0x32000, 0x33001), (0x33000, 0x34001),
    (0x34000, 0x1F)].foldl (fun s p => withBytes p.1 (leBytes 8 p.2) s) t

/-- A kernel header of one warp (R173). -/
def headerBytes : List Byte :=
  leBytes 64 (0x484B5853 + 2 ^ 32 + 8 * 2 ^ 64 + 8 * 2 ^ 96 + 8 * 2 ^ 128 + 2 ^ 192 + 2 ^ 200 + 0xFFFFFFFF * 2 ^ 224 + 2 ^ 288)

/-- A launch record of one gang under ASID 1, whose header lies at 0x200 (R327). -/
def recordBytes : List Byte := leBytes 64 (0x200 * 2 ^ 256 + 2 ^ 224 + 2 ^ 212)

/-- A state in which that record can be launched: it lies at 0x100, its header in a loaded image of function 0. -/
def launchable (s : State) : State :=
  let t := withBytes 0x200 headerBytes (withBytes 0x100 recordBytes (mapped s))
  { t with fns := modifyAt t.fns 0 fun f => { f with images := [(0, 0x1000)] } }

/-- The words of an instruction. -/
def wordsOf (i : Instr) : Words := (encode i).getD { w := 0 }

/-- Bytes placed in the scratchpad of the small states' group. -/
def withScr (a : Nat) (bs : List Byte) (s : State) : State := s.chipWrite (some 0) 0 (0x200000 + a) bs false

/-- A barrier object at scratchpad address 0x40. -/
def withBarrier (b : Barrier) (s : State) : State := withScr 0x40 b.bytes s

section
variable {c : Ctx} {e t : State} {x : BarCtl} {l addr : Nat} {tin tout : W32} {p : Place} {bs : List Byte} {ends : State → State}

theorem arrives_ok {b : Barrier} (h1 : c.object e x.win .rmw l addr 16 = .ok p) (h2 : c.readObject e p 16 = .ok bs)
    (h3 : (Barrier.of bs).arrive tin.toInt tout.toInt = .ok b) (h4 : c.releaseNow e x.scope = .ok t) :
    c.arrives e t x l addr tin tout p bs ends (ends (c.arrived t x.scope p b)) := by
  simp only [Ctx.arrives, h1, h2, h3, h4, and_self]

theorem arrives_wait (h1 : c.object e x.win .rmw l addr 16 = .ok p) (h2 : c.readObject e p 16 = .ok bs)
    (h3 : (Barrier.of bs).arrive tin.toInt tout.toInt = .wait) :
    c.arrives e t x l addr tin tout p bs ends
      (c.blocked e { kind := 11, addr := BitVec.ofNat 64 addr, value := tin.setWidth 64, aux := tout.setWidth 64 }) := by
  simp only [Ctx.arrives, h1, h2, h3, and_self]

theorem arrives_barf (h1 : c.object e x.win .rmw l addr 16 = .ok p) (h2 : c.readObject e p 16 = .ok bs)
    (h3 : (Barrier.of bs).arrive tin.toInt tout.toInt = .barf) :
    c.arrives e t x l addr tin tout p bs ends (c.trapped e { cause := 0x21, lanes := bitOf l, d := BitVec.ofNat 64 addr }) := by
  simp only [Ctx.arrives, h1, h2, h3, and_self]

end

/-- An entry of ready queue 0 of partition 0. -/
def task : Ready := { entry := 5, vec := [] }

/-- A state with that entry in its queue. -/
def queued (s : State) : State := { s with queues := put [] s.queues 0 [task] }

theorem pop_of {s : State} {part q : Nat} {y : Ready} (h : decide ((s.popTask part q).map (·.1) = some y) = true) :
    s.popTask part q = some (y, ((s.popTask part q).map (·.2)).getD s) := by
  cases e : s.popTask part q with
  | none => simp [e] at h
  | some x =>
    obtain ⟨a, b⟩ := x
    simp_all

theorem refused_of {x : State × Except Nat KHdr} {n : Nat} (h : decide (x.2 = .error n) = true) : x = (x.1, .error n) := by
  cases x; simpa using h

/-- The header that a check gives. -/
def headerOf (x : State × Except Nat KHdr) : KHdr :=
  match x.2 with
  | .ok h => h
  | .error _ => {}

theorem taken_of {x : State × Except Nat KHdr} (h : isOk x.2 = true) : x = (x.1, .ok (headerOf x)) := by
  obtain ⟨s, e⟩ := x
  cases e with
  | ok _ => rfl
  | error _ => cases h

/-- A job card of group scope (R279). -/
def jobCard (kind : Nat) (p0 p1 p2 : W64) (regions : List Region) : Card :=
  { kind := kind, stream := 0, scope := 2, ordered := false, startK := 0, rm := 0, swen := false, bin := false, bout := false, startGen := 0,
    startAddr := 0, swAddr := 0x60, barAddr := 0x40, p0 := p0, p1 := p1, p2 := p2, regions := regions }

/-- A footprint region of the scratchpad (R116). -/
def region (base : Nat) (rd wr : Bool) (len : Nat := 64) : Region := { base := base, rd := rd, wr := wr, space := 1, len := len }

/-- A porter's card: one row of 16 bytes from 0x100 to 0x200 of the scratchpad. -/
def porter : Card := jobCard 1 0x100000010 16 16 [region 0x100 true false, region 0x200 false true]

/-- The bytes of that card (R116, R279). -/
def porterBytes : List Byte :=
  leBytes 128 (1 + 2 * 2 ^ 6 + 0x100000010 * 2 ^ 192 + 16 * 2 ^ 256 + 16 * 2 ^ 320 + (0x100 * 2 ^ 64 + 2 ^ 62 + 2 ^ 58 + 64) * 2 ^ 512 +
    (0x200 * 2 ^ 64 + 2 ^ 63 + 2 ^ 58 + 64) * 2 ^ 640)

/-- A job of the small states' warp that has started. -/
def job (c : Card) : Job := { id := 0, room := 0, slot := 0, num := 0, cardAddr := 0x80, bytes := [], card := c, accepted := true, started := true }

/-- A state with jobs in the core's scheduler. -/
def withJobs (js : List Job) (s : State) : State := s.modCore 0 fun k => { k with jobs := js }

theorem some_of {α : Type} (d : α) {x : Option α} (h : x.isSome = true) : x = some (x.getD d) := by
  cases x with
  | none => cases h
  | some _ => rfl

/-- The value of a part that succeeds. -/
def valOf {ε α : Type} (d : α) (x : Except ε α) : α :=
  match x with
  | .ok a => a
  | .error _ => d

theorem val_of {ε α : Type} {d : α} {x : Except ε α} (h : isOk x = true) : x = .ok (valOf d x) := by
  cases x with
  | ok _ => rfl
  | error _ => cases h

theorem value_of {ε α : Type} [DecidableEq α] {x : Except ε α} {a : α} (h : decide (x.toOption = some a) = true) : x = .ok a := by
  cases x with
  | error _ => simp [Except.toOption] at h
  | ok y => simpa [Except.toOption] using h

theorem pair_of {ε α : Type} [DecidableEq α] {x : Except ε (α × State)} {a : α} {d : State}
    (h : decide ((x.toOption.map (·.1)) = some a) = true) : x = .ok (a, ((x.toOption.map (·.2)).getD d)) := by
  cases x with
  | error _ => simp [Except.toOption] at h
  | ok y =>
    obtain ⟨b, t⟩ := y
    simp only [Except.toOption, Option.map_some, Option.some.injEq, decide_eq_true_eq] at h
    subst h
    rfl

/-! ### Decoding: words that the manual writes out -/

theorem test_decode_cmp : decodeTableWord 64 0x0001200050402047 = some (.fcmp plain .lt true (vd 2) (.v 4) (.v 5)) := by decide +kernel

theorem test_decode_ordered_load : decodeTableWord 64 0x00C1A0408020408A =
    some (.orderedLoad plain { space := .glob, size := .w32, ord := .acq, scope := .dev, wide := false } (vd 4) (.v 2) (.imm 8)) := by decide +kernel

theorem test_decode_rcv : decodeTableWord 64 0x04000008 = some (.rcv plain 0x40) := by decide +kernel

theorem test_decode_waitj : decodeTableWord 64 0x000001F400206009 = some (.waitj plain 6 2 500) := by decide +kernel

theorem test_decode_rdsr : decodeTableWord 64 0x0280103B = some (.rdsr plain (vd 1) 0x28) := by decide +kernel

theorem test_decode_atomic : decodeTableWord 96 0x00C362000090638C000700F0 =
    some (.atomAdd { withE (.v 7) with la := 3 } { space := .scratch, size := .u8, ord := .ar, scope := .gang, wide := false } (vd 6) (.v 9)
      (.imm 0)) := by decide +kernel

theorem test_decode_fence : decodeTableWord 64 0x0003A00000000098 = some (.fence plain .dev) := by decide +kernel

theorem test_decode_described_store : decodeTableWord 64 0x06D000100041409A = some (.std plain false 1 20 (.k 4) (.imm 0)) := by decide +kernel

theorem test_decode_saturating_convert : decodeTableWord 96 0x0001800000706054080000F0 =
    some (.cvt { plain with pfx := some { m := 0, mn := false, mz := false, rm := .dyn, e := .v 0, sat := true } } .e4m3 .f32 (vd 6) (.v 7)) := by
      decide +kernel

theorem test_decode_matrix : decodeTableWord 64 0x00180000001050C0 = some (.mxq plain 5 (.imm 1)) ∧
    decodeTableWord 64 0x00100000005060C4 = some (.mxwait plain 6 (.k 5)) := by decide +kernel

theorem test_decode_search : decodeTableWord 64 0x014020D0 = some (.srchbeg plain 2 0x14) ∧
    decodeTableWord 64 0x009000D4 = some (.cut plain (.v 9)) := by decide +kernel

/-! ### Illegal encodings (R202) -/

/-- The detail with which words are refused. -/
def detail (x : Words) : Option Nat :=
  match decodeWords x with
  | .ok _ => none
  | .error (.illegal n) => some n
  | .error .truncated => none

-- a reserved opcode; a reserved bit; a condition that `fcmp` has not; a uniform destination
-- above 63; a word in front of a branch; lookahead on `iadd`
theorem test_illegal_details : detail { w := 0xE0 } = some 2 ∧ detail { w := 0x8080000040909010 } = some 3 ∧
    detail { w := 0x0000800050402047 } = some 4 ∧ detail { w := 0x0080000040950030 } = some 5 ∧
    detail { pw := some 0xF0, w := 0x3000000002 } = some 6 ∧ detail { w := 0x0080000040909110 } = some 7 := by decide +kernel

/-! ### Ill-formed terms, one for each check -/

-- the illegal instruction has OP 0x00
theorem smoke_illegal_op : ¬ (Instr.illegal none 0x10).WellFormed := by decide +kernel
-- what stands in front of it is a marked word
theorem smoke_illegal_front : ¬ (Instr.illegal (some 0x10) 0).WellFormed := by decide +kernel
-- the fused sequence needs vM other than vX (R253)
theorem smoke_fused : ¬ (Instr.fusedSoftmax 0 4 4 5 6 7).WellFormed := by decide +kernel
-- an I-format word has no reuse hint (R182)
theorem smoke_reuse : ¬ (Instr.bra { plain with ru := true } 0).WellFormed := by decide +kernel
-- detail 3: a mask on an instruction that takes none (R187)
theorem smoke_mask : ¬ (Instr.kadd noLane 1 (.k 1) (.k 2)).WellFormed := by decide +kernel
-- detail 4: a rounding mode where nothing is rounded would be detail 3; a format that the table reserves is detail 4
theorem smoke_format : ¬ (Instr.std plain false 31 4 (.k 1) (.imm 0)).WellFormed := by decide +kernel
-- detail 5: m0 is no destination (R186)
theorem smoke_destination : ¬ (Instr.mmov plain 0 (.k 1)).WellFormed := by decide +kernel
-- detail 6: no word stands in front of a branch (R188)
theorem smoke_front : ¬ (Instr.bra (withE (.v 0)) 0).WellFormed := by decide +kernel
-- detail 7: `iadd` carries no lookahead (R189)
theorem smoke_lookahead : ¬ (Instr.iadd (ahead 3) (vd 4) (.v 5) (.v 6)).WellFormed := by decide +kernel

/-! ### One step -/

/-- Lane 0 of vN after an instruction and the results that it leaves pending. -/
def lane0 (i : Instr) (n : Nat) (s : State) : LaneWord :=
  match exec i s with
  | .next t => (t.drain 0 0 fun _ => true).vreg 0 0 n 0
  | .fault _ => {}
  | .refused _ => {}

/-- Lane 0 of v4 after an instruction of v5, v6 and v7. -/
def given (i : Instr) (a b c : W32) : LaneWord := lane0 i 4 (withV 7 0 c (withV 6 0 b (withV 5 0 a (world i))))

/-- Control fields with SAT. -/
def sat : Ctl := { plain with pfx := some { m := 0, mn := false, mz := false, rm := .dyn, e := .v 0, sat := true } }

-- the table of R211
theorem test_idiv_overflow : given (.idiv plain false (vd 4) (.v 5) (.v 6)) 0x80000000 0xFFFFFFFF 0 = { data := 0x80000000 } := by decide +kernel
theorem test_idiv_by_zero : given (.idiv plain true (vd 4) (.v 5) (.v 6)) 7 0 0 = { data := 0xFFFFFFFF } := by decide +kernel
theorem test_irem_sign : given (.irem plain false (vd 4) (.v 5) (.v 6)) 0xFFFFFFF9 2 0 = { data := 0xFFFFFFFF } := by decide +kernel
theorem test_iadd_sat : given (.iadd sat (vd 4) (.v 5) (.v 6)) 0x7FFFFFF0 0x20 0 = { data := 0x7FFFFFFF } := by decide +kernel
theorem test_sra_full : given (.sra plain (vd 4) (.v 5) (.v 6)) 0x80000000 40 0 = { data := 0xFFFFFFFF } := by decide +kernel
theorem test_bfe : given (.bfe plain (vd 4) (.v 5) (.v 6)) 0xABCD1234 0x0814 0 = { data := 0xBC } := by decide +kernel
theorem test_bsel : given (.bsel plain (vd 4) (.v 5) (.v 6) (.v 7)) 0x44332211 0x88776655 0x00014838 = { data := 0x55FF8811 } := by decide +kernel

-- 1.0 + 2.0, and (+∞) − (+∞), the canonical NaN
theorem test_fadd : given (.fadd plain (vd 4) (.v 5) (.v 6)) 0x3F800000 0x40000000 0 = { data := 0x40400000 } := by decide +kernel
theorem test_fsub_inf : given (.fsub plain (vd 4) (.v 5) (.v 6)) 0x7F800000 0x7F800000 0 = { data := 0x7FC00000 } := by decide +kernel

-- the E4M3 NaN 0xFF as FP32
theorem test_cvt_nan : given (.cvt plain .f32 .e4m3 (vd 4) (.v 5)) 0xFF 0 0 = { data := 0xFFF00000 } := by decide +kernel

/-! ### Witnesses: each hands a statement concrete states and operands that meet the hypotheses of every clause -/

/-! ### Premises that are met: each proof hands a statement a state and operands that meet all premises of each of its clauses -/

theorem witness_IntegerLaneResults (h : Obligations.IntegerLaneResults) :
    Completes (.iadd plain (vd 9) (.v 9) (.k 4)) (world (.nop plain)) :=
  ⟨_, h _ _ (world (.nop plain)) _ rfl (issues_of yes) (usable_of yes) (trails_closed yes)⟩

theorem witness_MaskAndIndexWrites (h : Obligations.MaskAndIndexWrites) :
    let s := world (.nop plain)
    Completes (.icmp plain .eq true (vd 2) (.v 4) (.imm 5)) s ∧ Completes (.icmp plain .eq true (vd 2) (.v 4) (.imm 5)) (badV 4 0 s) ∧
      Completes (.setix plain (.v 4)) s ∧ Completes (.setix plain (.v 4)) (badV 4 0 s) ∧ Completes (.wrsr plain 8 (.v 4)) s ∧
      Completes (.wrsr plain 0x0D (.imm 7)) s ∧ Completes (.wrsr plain 0x0E (.imm 0x3F)) s :=
  let s := world (.nop plain)
  ⟨⟨_, (h.1 (.icmp plain .eq true (vd 2) (.v 4) (.imm 5)) _ s rfl (issues_of yes) (usable_of yes)).1
      yes⟩,
    ⟨_, (h.1 (.icmp plain .eq true (vd 2) (.v 4) (.imm 5)) _ (badV 4 0 s) rfl (issues_of yes) (usable_of yes)).2
      yes⟩,
    ⟨_, (h.2 s plain (.v 4) (issues_of yes)).1 (usable_of yes) yes⟩, ⟨_, (h.2 (badV 4 0 s) plain (.v
      4) (issues_of yes)).2.1 (usable_of yes) yes⟩,
    ⟨_, (h.2 s plain (.v 4) (issues_of yes)).2.2.1 (usable_of yes) yes⟩, ⟨_, (h.2 s plain (.imm 7)
      (issues_of yes)).2.2.2.1 (usable_of yes) yes⟩,
    let ⟨_, e, _⟩ := (h.2 s plain (.imm 0x3F) (issues_of yes)).2.2.2.2 (usable_of yes) yes
    ⟨_, e⟩⟩

theorem witness_PairAndUniformResults (h : Obligations.PairAndUniformResults) :
    let s := world (.nop plain)
    Completes (.lea plain (vd 2) (.v 4) (.v 6) (.imm 1)) s ∧ Completes (.kadd plain 3 (.k 1) (.imm 2)) s ∧ Completes (.kmovi plain 3 7) s ∧
      Completes (.kmov plain 3 (.v 1)) s ∧ Completes (.kmov plain 3 (.k 1)) s ∧ Completes (.mmov plain 3 (.v 1)) s ∧
      Completes (.mmov plain 3 (.k 1)) s ∧ Completes (.mmov plain 3 (.k 1)) (world (.nop plain) 1 (badK 1)) ∧
      Completes (.vtok plain 3 (.v 1) (.imm 0)) s ∧ Completes (.rdsr plain (vd 3) 1) s ∧ Completes (.rdsr plain (vd 3) 8) s :=
  let s := world (.nop plain)
  ⟨⟨_, h.1 (.lea plain (vd 2) (.v 4) (.v 6) (.imm 1)) _ s _ rfl (issues_of yes) (usable_of yes) (trails_closed
      yes)⟩,
    ⟨_, h.2.1.1 (.kadd plain 3 (.k 1) (.imm 2)) _ _ _ _ s rfl (issues_of yes) (usable_of yes)⟩, ⟨_, h.2.1.2 plain 3 7
      s (issues_of yes) (usable_of yes)⟩,
    ⟨_, (h.2.2.1 plain 3 s (issues_of yes)).1 1 (usable_of yes)⟩, ⟨_, (h.2.2.1 plain 3 s (issues_of
      yes)).2.1 (.k 1) nofun (usable_of yes)⟩, ⟨_, (h.2.2.1 plain 3 s (issues_of yes)).2.2.1 1
      (usable_of yes)⟩,
    ⟨_, (h.2.2.1 plain 3 s (issues_of yes)).2.2.2.1 (.k 1) nofun (usable_of yes)⟩, ⟨_, (h.2.2.1 plain 3 (world (.nop
      plain) 1 (badK 1)) (issues_of yes)).2.2.2.1 (.k 1) nofun (usable_of yes)⟩,
    ⟨_, (h.2.2.1 plain 3 s (issues_of yes)).2.2.2.2 1 (.imm 0) (usable_of yes) (usable_of yes)⟩, ⟨_,
      (h.2.2.2 plain (vd 3) 1 s (issues_of yes)).1 _ rfl (usable_of yes)⟩,
    ⟨_, (h.2.2.2 plain (vd 3) 8 s (issues_of yes)).2 _ _ (fun _ => rfl) (usable_of yes) (trails_closed
      yes)⟩⟩

theorem witness_FloatLaneResults (h : Obligations.FloatLaneResults) :
    Completes (.fadd plain (vd 3) (.v 1) (.v 2)) (world (.nop plain)) :=
  ⟨_, h (.fadd plain (vd 3) (.v 1) (.v 2)) _ (world (.nop plain)) _ rfl (issues_of yes) (usable_of yes)
      (trails_closed yes)⟩

theorem witness_RoundingKeepsEncodings (h : Obligations.RoundingKeepsEncodings) :
    roundX .f16 .rne true (decodeF .f16 0x7BFF) = (0x7BFF, flNone) :=
  h .f16 .rne true 0x7BFF yes yes yes

theorem witness_FloatCorners (h : Obligations.FloatCorners) :
    addF .f32 0 .rne false 0x7F800001 0 = (0x7FC00001, flNV) ∧ addF .f32 1 .rne false 0 0x7FC00000 = (0x7FC00000, flNone) :=
  ⟨(h.1 0 .rne false 0x7F800001 0 yes yes).1 yes, (h.1 1 .rne false 0 0x7FC00000 yes
      yes).2.1 yes yes⟩

/-- A page of zeros at 0x400 holds the empty activation image (R241). -/
theorem witness_ActivationTables (h : Obligations.ActivationTables) :
    let s := world (.nop plain) 1 (withK 1 0x400)
    Completes (.actld plain 3 1 2) s ∧ Completes (.actev plain (vd 3) (.v 1) 2) s ∧ Completes (.actinfo plain 3 2) s :=
  let s := world (.nop plain) 1 (withK 1 0x400)
  ⟨⟨_, h.1 plain 3 1 2 ((List.range 33).map fun i => .mem ((List.range 32).map fun j => (0x1000000400 + 32 * i + j, { key := some 0 }))) s (issues_of
      yes) (usable_of yes) yes yes _ (ok_of yes) yes⟩,
    ⟨_, h.2.2.1 plain (vd 3) (.v 1) 2 s _ (issues_of yes) (usable_of yes) (trails_closed yes)⟩,
    ⟨_, h.2.2.2 plain 3 2 s (issues_of yes) (usable_of yes)⟩⟩

theorem witness_CrossLaneResults (h : Obligations.CrossLaneResults) :
    let s := world (.nop plain) 5
    Completes (.shfl plain .rel (vd 3) 4 (.imm 1) (.imm 0)) s ∧ Completes (.shflo plain .rel (vd 3) 4 (.imm 1)) s ∧
      Completes (.raddf plain (vd 3) (.v 1)) s ∧ Completes (.rint plain .add (vd 3) (.v 1)) s ∧
      Completes (.scanf plain .add true (vd 3) (.v 1)) s ∧ Completes (.segi plain .add (vd 3) (.v 1) (.v 2)) s :=
  let s := world (.nop plain) 5
  ⟨⟨_, h.1 (.shfl plain .rel (vd 3) 4 (.imm 1) (.imm 0)) _ s _ rfl (issues_of yes) (usable_of yes) (trails_closed
      yes)⟩, ⟨_, h.1 (.shflo plain .rel (vd 3) 4 (.imm 1)) _ s _ rfl (issues_of yes) (usable_of yes)
      (trails_closed yes)⟩,
    ⟨_, h.2.1 (.raddf plain (vd 3) (.v 1)) _ s _ (issues_of yes) rfl (usable_of yes) (usable_of yes)
      (trails_closed yes)⟩, ⟨_, h.2.1 (.rint plain .add (vd 3) (.v 1)) _ s _ (issues_of yes) rfl (usable_of
      yes) (usable_of yes) (trails_closed yes)⟩,
    ⟨_, h.2.2 (.scanf plain .add true (vd 3) (.v 1)) _ s _ (issues_of yes) rfl (usable_of yes) (trails_closed
      yes)⟩,
    ⟨_, h.2.2 (.segi plain .add (vd 3) (.v 1) (.v 2)) _ s _ (issues_of yes) rfl (usable_of yes) (trails_closed
      yes)⟩⟩

theorem witness_PollAndMatchResults (h : Obligations.PollAndMatchResults) :
    let s := world (.nop plain) 5
    Completes (.poll plain .last (vd 3) (.v 1)) s ∧ Completes (.matchLanes plain (vd 3) (.v 1)) s ∧
      ill { pw := none, w := { ({ op := 0x71, d := 3, a := 1 } : Base) with f := 7 }.pack } = some 4 :=
  let s := world (.nop plain) 5
  ⟨⟨_, h.1 plain .last (vd 3) (.v 1) s _ (issues_of yes) (usable_of yes) (usable_of yes)
      (trails_closed yes)⟩, ⟨_, h.2.1 plain (vd 3) (.v 1) s _ (issues_of yes) (usable_of yes)
      (trails_closed yes)⟩,
    h.2.2 none { op := 0x71, d := 3, a := 1 } rfl rfl yes⟩

theorem witness_DeprecatedInstructions (h : Obligations.DeprecatedInstructions) :
    Completes (.imads plain (vd 3) (.v 1) (.v 2) (.imm 1)) (world (.nop plain)) ∧
      ((((world (.nop plain)).seen (.nop plain)).deprecated (world (.nop plain))).group 0 0).depcnt = 1 :=
  ⟨⟨_, h.1 plain (vd 3) (.v 1) (.v 2) (.imm 1) (world (.nop plain)) _ (issues_of yes) (usable_of yes) (trails_closed
      yes)⟩,
    (h.2 ((world (.nop plain)).seen (.nop plain)) (world (.nop plain)) group yes).1⟩

/-- The four parts give results: v3 := max of v1, v4 := v1 - v3, v5 := exp v4, v6 := sum of v5. -/
theorem witness_FusedSequence (h : Obligations.FusedSequence) : Completes (.fusedSoftmax 0 3 1 4 5 6) (world (.nop plain)) ∧
    Completes (.fusedSoftmax 4 3 1 4 5 6) (world (.nop plain)) := by
  let s := world (.nop plain)
  refine ⟨⟨_, h.1 0 3 1 4 5 6 s _ _ _ _ (issues_of yes) ⟨ok_of yes, ok_of yes, ok_of yes, ok_of yes⟩⟩, ?_⟩
  obtain ⟨_, _, _, s4, _, x⟩ := h.2 4 3 1 4 5 6 s (issues_of yes) yes yes yes
  exact ⟨_, x⟩

theorem witness_EffectiveAndMisalignedAddresses (h : Obligations.EffectiveAndMisalignedAddresses) :
    let s := world (.nop plain)
    [(0, (0x41 : Int))].map (·.1) = lanesOf (s.seen (.ld plain 10 false .w32 2 0x41)).act ∧
      [(0, (-1 : Int))].map (·.1) = lanesOf (s.seen (.lds plain 10 false .w32 2 0xFFFFFFFF)).act ∧
      Completes (.ld plain 10 false .w32 2 0x41) s ∧ Completes (.sts plain 10 false .w64 2 4) s :=
  let s := world (.nop plain)
  ⟨(h.1 (s.seen (.ld plain 10 false .w32 2 0x41)) s .glob 2 0x41 [(0, 0x41)] yes).1,
    (h.1 (s.seen (.lds plain 10 false .w32 2 0xFFFFFFFF)) s .scratch 2 0xFFFFFFFF [(0, -1)] yes).1,
    ⟨_, h.2 (.ld plain 10 false .w32 2 0x41) _ .read s (.inl ⟨rfl, rfl⟩) (issues_of yes) (usable_of yes)
      yes yes [(0, 0x41)] 0 0x41 yes yes⟩,
    ⟨_, h.2 (.sts plain 10 false .w64 2 4) _ .write s (.inr ⟨rfl, rfl⟩) (issues_of yes) (usable_of yes)
      yes yes [(0, 4)] 0 4 yes yes⟩⟩

/-- A load of global memory, of the scratchpad, with an acquire at device scope, and without an active lane. -/
theorem witness_LoadResults (h : Obligations.LoadResults) :
    let s := world (.nop plain) 1 (withK 1 0)
    let g : Access := { space := .glob, size := .w32, ord := .acq, scope := .dev, wide := false }
    Completes (.ld plain 10 false .w32 2 0x40) s ∧ Completes (.lds plain 10 false .u8 2 3) s ∧ Completes (.orderedLoad plain g (vd 10) (.k 1) (.imm
      0x40)) s ∧
      Completes (.ld noLane 10 false .w32 2 0x40) s :=
  let s := world (.nop plain) 1 (withK 1 0)
  let g : Access := { space := .glob, size := .w32, ord := .acq, scope := .dev, wide := false }
  ⟨⟨_, (h (.ld plain 10 false .w32 2 0x40) _ s rfl (issues_of yes)).2 [(0, 0x40)] [(0, page 0x40 4)] _ _ yes
      (usable_of yes) yes yes yes (ok_of yes) (trails_closed yes)⟩,
    ⟨_, (h (.lds plain 10 false .u8 2 3) _ s rfl (issues_of yes)).2 [(0, 3)] [(0, scr 3)] _ _ yes
      (usable_of yes) yes yes yes (ok_of yes) (trails_closed yes)⟩,
    ⟨_, (h (.orderedLoad plain g (vd 10) (.k 1) (.imm 0x40)) _ s rfl (issues_of yes)).2 [(0, 0x40)] [(0, page 0x40 4)] _ _ yes
      (usable_of yes) yes yes yes (ok_of yes) (trails_closed yes)⟩,
    ⟨_, (h (.ld noLane 10 false .w32 2 0x40) _ s rfl (issues_of yes)).1 yes (usable_of yes)⟩⟩

theorem witness_StoreResults (h : Obligations.StoreResults) :
    let s := world (.nop plain) 1 (withK 1 0)
    let g : Access := { space := .glob, size := .w32, ord := .rel, scope := .dev, wide := false }
    Completes (.st plain 10 false .w32 2 0x40) s ∧ Completes (.orderedStore plain g (vd 10) (.k 1) (.imm 0x40)) s ∧
      Completes (.st noLane 10 false .w32 2 0x40) s :=
  let s := world (.nop plain) 1 (withK 1 0)
  let g : Access := { space := .glob, size := .w32, ord := .rel, scope := .dev, wide := false }
  ⟨⟨_, (h (.st plain 10 false .w32 2 0x40) _ s rfl (issues_of yes)).2 [(0, 0x40)] [(0, page 0x40 4)] _ yes (usable_of yes)
      yes yes rfl⟩,
    ⟨_, (h (.orderedStore plain g (vd 10) (.k 1) (.imm 0x40)) _ s rfl (issues_of yes)).2 [(0, 0x40)] [(0, page 0x40 4)] _ yes
      (usable_of yes) yes yes (ok_of yes)⟩,
    ⟨_, (h (.st noLane 10 false .w32 2 0x40) _ s rfl (issues_of yes)).1 yes (usable_of yes)⟩⟩

theorem witness_BlockAndUniformAccesses (h : Obligations.BlockAndUniformAccesses) :
    let s := world (.nop plain) 1 (withK 1 0x40)
    Completes (.kld plain false 3 (.k 1) (.imm 8)) s ∧ Completes (.ldd plain true false .f32 (vd 3) (.k 1) (.imm 0)) s ∧
      Completes (.ldd noLane true false .f32 (vd 3) (.k 1) (.imm 0)) s ∧ Completes (.std plain true 0 3 (.k 1) (.imm 0)) s ∧
      Completes (.std noLane true 0 3 (.k 1) (.imm 0)) s ∧ Completes (.cctlClean plain (.k 1) (.imm 2)) s ∧
      Completes (.cctlDiscard noLane (.k 1) (.imm 2)) s :=
  let s := world (.nop plain) 1 (withK 1 0x40)
  ⟨⟨_, h.1 plain false 3 (.k 1) (.imm 8) s (issues_of yes) (usable_of yes) yes yes
      [(0, page 0x48 8)] yes yes _ (ok_of yes)⟩,
    ⟨_, (h.2.1 plain true false .f32 (vd 3) (.k 1) (.imm 0) s (issues_of yes)).2 [(0, 0x40)] [(0, scr 0x40)] _ yes (usable_of yes)
      yes yes yes _ (ok_of yes) (trails_closed yes)⟩,
    ⟨_, (h.2.1 noLane true false .f32 (vd 3) (.k 1) (.imm 0) s (issues_of yes)).1 yes (usable_of yes)⟩,
    ⟨_, (h.2.2.1 plain true 0 3 (.k 1) (.imm 0) s (issues_of yes)).2 0 [(0, scr 0x40)] yes (usable_of yes) yes yes yes⟩,
    ⟨_, (h.2.2.1 noLane true 0 3 (.k 1) (.imm 0) s (issues_of yes)).1 yes (usable_of yes)⟩,
    ⟨_, (h.2.2.2 (.cctlClean plain (.k 1) (.imm 2)) _ _ _ _ s rfl (issues_of yes)).2 0 [(0, page 0 1), (0, page 0x100 1)] yes
      (usable_of yes) yes yes yes yes _ (some_of s yes)⟩,
    ⟨_, (h.2.2.2 (.cctlDiscard noLane (.k 1) (.imm 2)) _ _ _ _ s rfl (issues_of yes)).1 yes (usable_of yes)⟩⟩

theorem witness_AtomicAndFenceResults (h : Obligations.AtomicAndFenceResults) :
    let s := world (.nop plain) 1 (withK 1 0x40)
    let g : Access := { space := .glob, size := .w32, ord := .rlx, scope := .lane, wide := false }
    let owes := s.modDie 0 fun x => { x with vc := [1, 2, 0, 0, 0, 0, 0, 0] }
    Completes (.atomAdd (withE (.v 5)) g (vd 3) (.k 1) (.imm 0)) s ∧ Completes (.atomAdd noLane g (vd 3) (.k 1) (.imm 0)) s ∧
      Completes (.fence plain .warp) s ∧ Completes (.fence plain .die) s ∧ Completes (.fence plain .dev) s ∧
      Completes (.fence plain .sys) s ∧ Completes (.fence plain .dev) owes :=
  let s := world (.nop plain) 1 (withK 1 0x40)
  let owes := s.modDie 0 fun x => { x with vc := [1, 2, 0, 0, 0, 0, 0, 0] }
  let g : Access := { space := .glob, size := .w32, ord := .rlx, scope := .lane, wide := false }
  ⟨⟨_, (h.1 (.atomAdd (withE (.v 5)) g (vd 3) (.k 1) (.imm 0)) _ s rfl (issues_of yes)).2 [(0, 0x40)] [(0, page 0x40 4)] _ _ _ _ yes
      (usable_of yes) yes yes rfl yes (ok_of yes) (ok_of yes) yes ⟨_, (trails_closed yes)⟩ (trails_closed yes)⟩,
    ⟨_, (h.1 (.atomAdd noLane g (vd 3) (.k 1) (.imm 0)) _ s rfl (issues_of yes)).1 yes (usable_of yes)⟩,
    ⟨_, (h.2 plain .warp s (issues_of yes)).1 yes⟩, ⟨_, (h.2 plain .die s (issues_of yes)).2.1 yes yes yes⟩,
    ⟨_, (h.2 plain .dev s (issues_of yes)).2.2.1 yes yes yes yes yes⟩,
    ⟨_, (h.2 plain .sys s (issues_of yes)).2.2.1 yes yes yes yes yes⟩,
    ⟨_, (h.2 plain .dev owes (issues_of yes)).2.2.2 yes yes⟩⟩

theorem witness_BranchAndCallResults (h : Obligations.BranchAndCallResults) :
    let s := world (.nop plain) 3
    let t := withV 4 1 1 s
    Completes (.bra plain 0x30) s ∧ Completes (.brx plain (.v 4)) s ∧ Completes (.brc plain 4 8) t ∧ Completes (.call plain 5 8) s ∧
      Completes (.calli plain (vd 5) (.v 4)) t :=
  let s := world (.nop plain) 3
  let t := withV 4 1 1 s
  ⟨⟨_, h.1.1 plain 0x30 s (issues_of yes) yes⟩, ⟨_, (h.1.2 (.brx plain (.v 4)) _ s rfl (issues_of
      yes) (usable_of yes) yes).1 0 yes yes⟩,
    ⟨_, (h.1.2 (.brc plain 4 8) _ t rfl (issues_of yes) (usable_of yes) yes).2 _ (divided_of
      yes)⟩, ⟨_, h.2.1 plain 5 8 s _ (issues_of yes) (usable_of yes) yes
      (trails_closed yes)⟩,
    ⟨_, h.2.2 plain (vd 5) (.v 4) _ t _ (issues_of yes) (usable_of yes) yes (divided_of
      yes) (trails_closed yes)⟩⟩

theorem witness_TwoPathDivergence (h : Obligations.TwoPathDivergence) :
    let v := warp 3 fun w => { w with splits := [some { pc := 0, mask := 3, pend := some 64 }, none, none, none] }
    let w := warp 3 id
    (∃ u, v.diverge 0 [⟨8, 1⟩, ⟨16, 2⟩] true 0 = .ok u) ∧ ∃ u, w.diverge 0 [⟨8, 1⟩, ⟨16, 2⟩] true 0 = .ok u ∧ u.stack = [] := by
  intro v w
  constructor
  · obtain ⟨u, a, _⟩ := (h v 0 1 { pc := 0, mask := 3, pend := some 64 } ⟨8, 1⟩ ⟨16, 2⟩ 0 [2, 3] yes yes
      yes yes yes).1 64 yes yes
    exact ⟨u, a⟩
  · obtain ⟨u, a, _, _, b, _⟩ := (h w 0 1 { pc := 0, mask := 3 } ⟨8, 1⟩ ⟨16, 2⟩ 0 [2, 3] yes yes yes
      yes yes).2 yes
    exact ⟨u, a, b⟩

theorem witness_BranchesKeepLanes (h : Obligations.BranchesKeepLanes) :
    let w := warp 3 id
    (divided (w.diverge 0 (pathsOf 3 fun l => BitVec.ofNat 64 (8 * l)) true 0)).liveLanes = w.liveLanes ∧ (w.settle 0).liveLanes = w.liveLanes :=
  ⟨(h.1 (warp 3 id) _ 0 { pc := 0, mask := 3 } _ 0 yes yes yes (divided_of yes)).1,
      (h.2 (warp 3 id) 0 yes).1⟩

theorem witness_HintsEndsAndServiceCalls (h : Obligations.HintsEndsAndServiceCalls) :
    let s := world (.nop plain)
    let t := s.modRoom 0 0 fun r => { r with bkpt := true }
    Completes (.nop plain) s ∧ Completes (.bkpt plain) s ∧ Completes (.bkpt plain) t ∧ Completes (.exit plain) s ∧ Completes (.endGroup plain) s ∧
      Completes (.sysc plain 3 4 1) s :=
  let s := world (.nop plain)
  let t := s.modRoom 0 0 fun r => { r with bkpt := true }
  ⟨⟨_, (h.1 plain 0 s (issues_of yes)).1⟩, ⟨_, (h.1 plain 0 s (issues_of yes)).2.2.2.1 yes⟩, ⟨_, (h.1
      plain 0 t (issues_of yes)).2.2.2.2 yes⟩, ⟨_, (h.2.1 plain s (issues_of yes)).1⟩,
    ⟨_, (h.2.1 plain s (issues_of yes)).2⟩, ⟨_, h.2.2 plain 3 4 1 s (issues_of yes) (usable_of yes)
      yes yes yes yes⟩⟩

theorem witness_CounterWaits (h : Obligations.CounterWaits) :
    let i := Instr.waitj plain 3 1 5
    let s := world i 1 (withK 2 1)
    let r : SplitRef := ⟨0, 0, 0⟩
    let t := waiting i { kind := 4, addr := 0, value := 1, aux := 5 }
    Completes i (withCounter 0 1 s) ∧ Completes i s ∧ Completes (.waitjArrival r) (withCounter 0 1 t) ∧
      Completes (.waitjTimeout r) { t with gtime := 6 } :=
  let i := Instr.waitj plain 3 1 5
  let s := world i 1 (withK 2 1)
  let r : SplitRef := ⟨0, 0, 0⟩
  let t := waiting i { kind := 4, addr := 0, value := 1, aux := 5 }
  ⟨⟨_, (h.1 plain 3 1 5 (withCounter 0 1 s) (issues_of yes) (usable_of yes) yes
      yes).1 yes yes⟩, ⟨_, (h.1 plain 3 1 5 s (issues_of yes) (usable_of
      yes) yes yes).2 yes⟩,
    ⟨_, (h.2 r plain 3 1 5 (wordsOf i) (withCounter 0 1 t) (waits_of yes yes yes
      yes)).1 0 yes yes yes⟩,
    ⟨_, (h.2 r plain 3 1 5 (wordsOf i) { t with gtime := 6 } (waits_of yes yes yes
      yes)).2 yes yes (fun _ e => nomatch e)⟩⟩

theorem witness_TrapsAndReturns (h : Obligations.TrapsAndReturns) :
    let s := world (.nop plain)
    let t := world (.nop plain) 1 fun w => { w with handler := true, hsave := { mask := 1 } }
    Completes (.illegal none 0) s ∧ Completes (.trap plain 7) s ∧ Completes (.trap plain 2) t ∧
      (warp 1 id).handler = false ∧ ((warp 1 id).entered 0 { pc := 0, mask := 1 } 64 {}).returns 0 (BitVec.ofNat 32 3) = true ∧
      ((warp 1 id).entered 0 { pc := 0, mask := 1 } 64 {}).returns 0 (BitVec.ofNat 32 4) = false :=
  let s := world (.nop plain)
  let t := world (.nop plain) 1 fun w => { w with handler := true, hsave := { mask := 1 } }
  ⟨⟨_, h.1.1 none 0 1 s (issues_of yes) yes⟩, ⟨_, (h.1.2 (.trap plain 7) plain 7 s (.inl rfl) (issues_of
      yes)).1 yes⟩,
    ⟨_, (h.1.2 (.trap plain 2) plain 2 t (.inl rfl) (issues_of yes)).2 yes⟩, rfl,
    by rw [(h.2 (warp 1 id) 0 3 64 { pc := 0, mask := 1 } {} rfl rfl rfl rfl rfl rfl).1]; rfl,
    by rw [(h.2 (warp 1 id) 0 4 64 { pc := 0, mask := 1 } {} rfl rfl rfl rfl rfl rfl).1]; rfl⟩

/-- With a handler, without one, and in handler mode. -/
theorem witness_TrapDelivery (h : Obligations.TrapDelivery) :
    let t : Trap := { cause := 0x02, lanes := 1 }
    let g := fun (g : Machine.Group) => { g with hdr := { g.hdr with handler := 64, trapmask := 0x3FF, codesize := 128 } }
    let a := world (.nop plain) 1 id g
    let b := world (.nop plain)
    let c := world (.nop plain) 1 fun w => { w with handler := true }
    let r : SplitRef := ⟨0, 0, 0⟩
    ((a.takeTrap r (wordsOf (.nop plain)) t).group 0 0).phase = .resident ∧ ((b.takeTrap r (wordsOf (.nop plain)) t).group 0 0).phase = .faulted ∧
      ((c.takeTrap r (wordsOf (.nop plain)) t).group 0 0).phase = .doubleFaulted := by
  intro t g a b c r
  have e := fun (s : State) (w : Warp) (q : Machine.Group) h1 h2 h3 h4 => h s r (wordsOf (.nop plain)) t w { pc := 0, mask := 1 } q h1 h2 h3 h4
      (by decide)
  exact ⟨congrArg Machine.Group.phase ((e a (warp 1 id) (g group) yes yes yes
      yes).2.1 yes yes yes).2,
    congrArg Machine.Group.phase ((e b (warp 1 id) group yes yes yes yes).2.2.1
      yes (.inl yes)).2.1,
    congrArg Machine.Group.phase ((e c (warp 1 fun w => { w with handler := true }) group yes yes yes
      yes).2.2.2 yes).2.1⟩

/-- An arrival at an object with PEND = 2, at one with PEND = 0, and at what is no barrier; the waits that go on and that do not. -/
theorem witness_BarrierArrivalsAndWaits (h : Obligations.BarrierArrivalsAndWaits) :
    let k : BarCtl := { te := false, win := false, scope := .group }
    let i := Instr.barr plain k (.k 1) (.imm 0)
    let j := Instr.barrw plain k (.k 1) (.imm 0)
    let s := world i 1 (withK 1 0x40)
    let b : Barrier := { gen := 3, expect := 2, pend := 2, res := 0, inb := 0, outb := 0 }
    Completes i (withBarrier b s) ∧ Completes i (withBarrier { b with pend := 0 } s) ∧ Completes i s ∧ Completes j (withBarrier b s) ∧
      Completes (.barr noLane k (.k 1) (.imm 0)) s ∧ Completes (.barw plain k (.k 1) (.imm 3)) (withBarrier b s) ∧
      Completes (.barw plain k (.k 1) (.imm 4)) (withBarrier b s) ∧ Completes (.swwait plain k (.k 1) (.imm 0)) s ∧
      Completes (.swwait noLane k (.k 1) (.imm 0)) s :=
  let k : BarCtl := { te := false, win := false, scope := .group }
  let i := Instr.barr plain k (.k 1) (.imm 0)
  let j := Instr.barrw plain k (.k 1) (.imm 0)
  let s := world i 1 (withK 1 0x40)
  let b : Barrier := { gen := 3, expect := 2, pend := 2, res := 0, inb := 0, outb := 0 }
  let wait : Barrier := { b with pend := 0 }
  ⟨⟨_, ((h.1 i plain k (.k 1) (.imm 0) (withBarrier b s) (.inl rfl) (issues_of yes)).2 0 _ (scr 0x40) b.bytes _ ⟨yes,
      (usable_of yes)⟩ yes yes yes).1 rfl
      (arrives_ok (b := { b with pend := 1 }) yes yes yes (ok_of yes))⟩,
    ⟨_, ((h.1 i plain k (.k 1) (.imm 0) (withBarrier wait s) (.inl rfl) (issues_of yes)).2 0 s (scr 0x40) wait.bytes _
      ⟨yes, (usable_of yes)⟩ yes yes yes).1 rfl (arrives_wait
      yes yes yes)⟩,
    ⟨_, ((h.1 i plain k (.k 1) (.imm 0) s (.inl rfl) (issues_of yes)).2 0 s (scr 0x40) (List.replicate 16 0) _ ⟨yes,
      (usable_of yes)⟩ yes yes yes).1 rfl (arrives_barf yes
      yes yes)⟩,
    ⟨_, ((h.1 j plain k (.k 1) (.imm 0) (withBarrier b s) (.inr rfl) (issues_of yes)).2 0 _ (scr 0x40) b.bytes _
      ⟨yes, (usable_of yes)⟩ yes yes yes).2 rfl
      (arrives_ok (b := { b with pend := 1 }) yes yes yes (ok_of yes))⟩,
    ⟨_, (h.1 _ noLane k (.k 1) (.imm 0) s (.inl rfl) (issues_of yes)).1 yes⟩,
    ⟨_, ((h.2 (.barw plain k (.k 1) (.imm 3)) k (.k 1) (.imm 3) false (withBarrier b s) rfl (issues_of yes)).2 0 (scr 0x40) b.bytes
      ⟨yes, (usable_of yes)⟩ yes yes yes yes).2 _
      yes
      (ok_of yes)⟩,
    ⟨_, ((h.2 (.barw plain k (.k 1) (.imm 4)) k (.k 1) (.imm 4) false (withBarrier b s) rfl (issues_of yes)).2 0 (scr 0x40) b.bytes
      ⟨yes, (usable_of yes)⟩ yes yes yes yes).1
      yes⟩,
    ⟨_, ((h.2 (.swwait plain k (.k 1) (.imm 0)) k (.k 1) (.imm 0) true s rfl (issues_of yes)).2 0 (scr 0x40) (List.replicate 8 0)
      ⟨yes, (usable_of yes)⟩ yes yes yes yes).2 _
      yes
      (ok_of yes)⟩,
    ⟨_, (h.2 (.swwait noLane k (.k 1) (.imm 0)) k (.k 1) (.imm 0) true s rfl (issues_of yes)).1 yes⟩⟩

theorem witness_WaitsEndAndGroupBarriers (h : Obligations.WaitsEndAndGroupBarriers) :
    let k : BarCtl := { te := false, win := false, scope := .group }
    let r : SplitRef := ⟨0, 0, 0⟩
    let i := Instr.barw plain k (.k 1) (.imm 3)
    let j := Instr.swwait plain k (.k 1) (.imm 0)
    let a := Instr.barr plain k (.k 1) (.imm 0)
    let b : Barrier := { gen := 3, expect := 2, pend := 2, res := 0, inb := 0, outb := 0 }
    Completes (.barrierWaitEnd r) (withBarrier b (waiting i { kind := 1, addr := 0x40, value := 3 })) ∧
      Completes (.syncWaitEnd r) (waiting j { kind := 2, addr := 0x40 }) ∧
      Completes (.arriveRetry r) (withBarrier b (waiting a { kind := 11, addr := 0x40 })) ∧
      Completes (.gbar plain .group) (world (.gbar plain .group)) ∧ Completes (.gbar noLane .group) (world (.gbar plain .group)) ∧
      Completes (.gbarComplete 0 0 false) (waiting (.gbar plain .group) { kind := 3, value := 2 }) :=
  let k : BarCtl := { te := false, win := false, scope := .group }
  let r : SplitRef := ⟨0, 0, 0⟩
  let i := Instr.barw plain k (.k 1) (.imm 3)
  let j := Instr.swwait plain k (.k 1) (.imm 0)
  let a := Instr.barr plain k (.k 1) (.imm 0)
  let b : Barrier := { gen := 3, expect := 2, pend := 2, res := 0, inb := 0, outb := 0 }
  let s := withBarrier b (waiting i { kind := 1, addr := 0x40, value := 3 })
  let t := waiting j { kind := 2, addr := 0x40 }
  let u := withBarrier b (waiting a { kind := 11, addr := 0x40 })
  ⟨⟨_, (h.1 r i (wordsOf i) k s _ (scr 0x40) b.bytes).1 plain (.k 1) (.imm 3) (.inl rfl) (waits_of yes yes
      yes yes) yes yes yes (ok_of yes)⟩,
    ⟨_, (h.1 r j (wordsOf j) k t _ (scr 0x40) (List.replicate 8 0)).2.1 plain (.k 1) (.imm 0) rfl (waits_of yes yes
      yes yes) yes yes yes (ok_of yes)⟩,
    ⟨_, (h.1 r a (wordsOf a) k u _ (scr 0x40) b.bytes).2.2 plain (.k 1) (.imm 0) { b with pend := 1 } rfl (waits_of yes
      yes yes yes) yes yes yes
      (ok_of yes)⟩,
    ⟨_, (h.2.1 plain .group (world (.gbar plain .group)) (issues_of yes)).2 _ yes (ok_of yes)⟩,
    ⟨_, (h.2.1 noLane .group (world (.gbar plain .group)) (issues_of yes)).1 yes⟩,
    ⟨_, h.2.2 0 0 0 group (.gbar plain .group) (wordsOf (.gbar plain .group)) (waiting (.gbar plain .group) { kind := 3, value := 2 })
      yes yes yes yes yes yes
      (waits_of yes yes yes yes)⟩⟩

theorem witness_SynchronisationObjects (h : Obligations.SynchronisationObjects) :
    let b : Barrier := { gen := 15, expect := 3, pend := 3, res := 0, inb := 0, outb := 0 }
    b.arrivals 2 = some { b with pend := 1 } ∧ b.arrivals 3 = some { b with gen := (b.gen + 1) % 16 } ∧
      Barrier.of { b with res := 2 ^ 36 - 1, inb := -2 ^ 31, outb := 2 ^ 31 - 1 }.bytes = { b with res := 2 ^ 36 - 1, inb := -2 ^ 31, outb := 2 ^ 31
        - 1 } ∧
      syncRaise (syncRaise 5 3) 4 = syncRaise 5 7 :=
  let b : Barrier := { gen := 15, expect := 3, pend := 3, res := 0, inb := 0, outb := 0 }
  ⟨(h.1 b 2 yes rfl rfl rfl rfl).1 yes, (h.1 b 2 yes rfl rfl rfl rfl).2,
    (h.2.1 { b with res := 2 ^ 36 - 1, inb := -2 ^ 31, outb := 2 ^ 31 - 1 } yes yes yes
      yes yes yes yes yes).1, h.2.2 5 3 4 yes⟩

theorem witness_CounterResults (h : Obligations.CounterResults) :
    let s := world (.nop plain) 1 (withK 1 7)
    let t := world (.nop plain) 1 id fun g => { g with phase := .ended, join := some (5, 1) }
    Completes (.cinc plain (.imm 5) (.k 1)) s ∧ Completes (.cinc noLane (.imm 5) (.k 1)) s ∧ Completes (.crd plain 3 (.imm 5)) s ∧
      Completes (.crd noLane 3 (.imm 5)) s ∧ Completes (.joinc plain (.imm 5) (.k 1)) s ∧ Completes (.joinc noLane (.imm 5) (.k 1)) s ∧
      Completes (.joincApply 0 0) t ∧ (get ({} : Counter) (s.counterAdd 0 65535 7 []).counters 65535).value.toNat = min (0 + 7) (2 ^ 64 - 1) :=
  let s := world (.nop plain) 1 (withK 1 7)
  let t := world (.nop plain) 1 id fun g => { g with phase := .ended, join := some (5, 1) }
  ⟨⟨_, (h.1.1 plain (.imm 5) (.k 1) s (issues_of yes)).2 0 ⟨yes, (usable_of yes)⟩ yes
      yes yes yes⟩, ⟨_, (h.1.1 noLane (.imm 5) (.k 1) s (issues_of yes)).1 yes⟩,
    ⟨_, (h.1.2.1 plain 3 (.imm 5) s (issues_of yes)).2 0 ⟨yes, (usable_of yes)⟩ yes yes⟩, ⟨_, (h.1.2.1 noLane 3 (.imm 5) s (issues_of yes)).1 yes⟩,
    ⟨_, (h.1.2.2.1 plain (.imm 5) (.k 1) s (issues_of yes)).2 0 ⟨yes, (usable_of yes)⟩
      yes yes⟩, ⟨_, (h.1.2.2.1 noLane (.imm 5) (.k 1) s (issues_of yes)).1 yes⟩,
    ⟨_, h.1.2.2.2 0 0 5 1 { group with phase := .ended, join := some (5, 1) } t yes yes yes
      yes yes yes⟩, (h.2 s 0 65535 7 [] yes).1⟩

theorem witness_TaskAndForkResults (h : Obligations.TaskAndForkResults) :
    let s := world (.nop plain)
    let r : SplitRef := ⟨0, 0, 0⟩
    let i := Instr.tqpop plain 8 (.imm 0)
    let f := Instr.fork plain (vd 3) (.k 1) 4
    let parent := world (.nop plain) 1 (withK 1 0x100)
    let v : Saved := { launch := 0, groupid := 0, ctx := 0, state := 2, stay := 0, eligible := false, wake := some (0, 0) }
    Completes (.tqpush plain 3 4 8 0) s ∧ Completes (.tqpush plain 3 4 8 0) (world (.nop plain) 1 (withK 4 0x400000)) ∧
      Completes (.tqpush noLane 3 4 8 0) s ∧ Completes i s ∧ Completes i (queued s) ∧ Completes (.tqpop plain 8 (.imm 64)) s ∧
      Completes (.tqpop noLane 8 (.imm 0)) s ∧ Completes (.tqpopWake r) (queued (waiting i { kind := 5 })) ∧ Completes f parent ∧
      Completes f (launchable parent) ∧ Completes (.fork noLane (vd 3) (.k 1) 4) s ∧ Completes (.forkResume 0 0) { s with saved := [v] } :=
  let s := world (.nop plain)
  let r : SplitRef := ⟨0, 0, 0⟩
  let i := Instr.tqpop plain 8 (.imm 0)
  let parent := world (.nop plain) 1 (withK 1 0x100)
  let v : Saved := { launch := 0, groupid := 0, ctx := 0, state := 2, stay := 0, eligible := false, wake := some (0, 0) }
  let bs := (List.range 64).map fun j => (0x1000000100 + j, ({ key := some 0 } : Attr))
  let u := queued (waiting i { kind := 5 })
  ⟨⟨_, ((h.1.1 plain 3 4 8 0 s (issues_of yes)).2 0 ⟨yes, (usable_of yes)⟩ yes
      yes yes).2 yes yes yes yes⟩,
    ⟨_, ((h.1.1 plain 3 4 8 0 (world (.nop plain) 1 (withK 4 0x400000)) (issues_of yes)).2 0 ⟨yes, (usable_of
      yes)⟩ yes yes yes).1 (.inl yes)⟩,
    ⟨_, (h.1.1 noLane 3 4 8 0 s (issues_of yes)).1 yes⟩, ⟨_, ((h.1.2.1 plain 8 (.imm 0) s (issues_of
      yes)).2 0 ⟨yes, (usable_of yes)⟩ yes).2.1 yes
      yes⟩,
    ⟨_, ((h.1.2.1 plain 8 (.imm 0) (queued s) (issues_of yes)).2 0 ⟨yes, (usable_of yes)⟩
      yes).2.2 task _ yes (pop_of yes) yes yes⟩,
    ⟨_, ((h.1.2.1 plain 8 (.imm 64) s (issues_of yes)).2 0 ⟨yes, (usable_of yes)⟩
      yes).1 yes⟩, ⟨_, (h.1.2.1 noLane 8 (.imm 0) s (issues_of yes)).1 yes⟩,
    ⟨_, h.1.2.2 r plain 8 (.imm 0) (wordsOf i) task u _ (waits_of yes yes yes yes)
      (pop_of yes) yes yes⟩,
    ⟨_, ((h.2.1 plain (vd 3) (.k 1) 4 parent (issues_of yes) (usable_of yes)).2 [(0, 0x100)] 0 bs yes
      yes yes yes yes _ (ok_of yes) yes yes yes).1 _ 28 _ (refused_of yes) (trails_closed yes)⟩,
    ⟨_, ((h.2.1 plain (vd 3) (.k 1) 4 (launchable parent) (issues_of yes) (usable_of yes)).2 [(0, 0x100)] 0 bs
      yes yes yes yes yes _ (ok_of yes) yes yes yes).2
      _ _ _ (0x1000000100, { key := some 0 })
      bs.tail (taken_of yes) yes (trails_closed yes)⟩,
    ⟨_, (h.2.1 noLane (vd 3) (.k 1) 4 s (issues_of yes) (usable_of yes)).1 yes⟩, ⟨_, h.2.2 0 0 0 0 v
      { s with saved := [v] } yes yes yes yes yes⟩⟩

theorem witness_JobInstructions (h : Obligations.JobInstructions) :
    let s := world (.nop plain) 1 (withK 1 0x80)
    let j := withJobs [job porter] (world (.nop plain) 1 fun w => withK 1 0x80 { w with subs := [1, 0, 0, 0] })
    let j' := withJobs [job porter] s
    let full := withJobs (List.replicate 64 (job porter)) s
    let owes := world (.nop plain) 1 fun w => { w with jvec := [0, 1, 0, 0, 0, 0, 0, 0] }
    let r : SplitRef := ⟨0, 0, 0⟩
    Completes (.jsub plain 1) full ∧ Completes (.jsub plain 1) s ∧ Completes (.jsub plain 1) (withScr 0x80 porterBytes s) ∧
      Completes (.jsub noLane 1) s ∧ Completes (.jwait plain 1) s ∧ Completes (.jwait plain 1) owes ∧
      Completes (.jwait plain 1) j ∧ Completes (.jwait noLane 1) j' ∧
      Completes (.jchk plain 3 0) j' ∧ Completes (.jchk noLane 3 0) j' ∧ Completes (.jcan plain 1) j' ∧ Completes (.jcan noLane 1) j' ∧
      Completes (.jwaitEnd r) (waiting (.jwait plain 1) { kind := 12, value := 1 }) :=
  let s := world (.nop plain) 1 (withK 1 0x80)
  let j := withJobs [job porter] (world (.nop plain) 1 fun w => withK 1 0x80 { w with subs := [1, 0, 0, 0] })
  let j' := withJobs [job porter] s
  let full := withJobs (List.replicate 64 (job porter)) s
  let good := withScr 0x80 porterBytes s
  let owes := world (.nop plain) 1 fun w => { w with jvec := [0, 1, 0, 0, 0, 0, 0, 0] }
  let r : SplitRef := ⟨0, 0, 0⟩
  ⟨⟨_, ((h.1 plain 1 full (issues_of yes)).2 0 ⟨yes, (usable_of yes)⟩ yes).1 (.inl yes)⟩,
    ⟨_, (((h.1 plain 1 s (issues_of yes)).2 0 ⟨yes, (usable_of yes)⟩ yes).2 _ yes yes (val_of (d := []) yes) yes).1 0 yes⟩,
    ⟨_, (((h.1 plain 1 good (issues_of yes)).2 0 ⟨yes, (usable_of yes)⟩ yes).2 _ yes yes (val_of (d := []) yes) yes).2 yes⟩,
    ⟨_, (h.1 noLane 1 s (issues_of yes)).1 yes⟩, ⟨_, (h.2.1 plain 1 s (issues_of yes)).2.1 yes yes yes⟩,
    ⟨_, (h.2.1 plain 1 owes (issues_of yes)).2.2.1 yes yes yes⟩, ⟨_, (h.2.1 plain 1 j (issues_of yes)).2.2.2 yes yes⟩, ⟨_, (h.2.1 noLane 1 j' (issues_of yes)).1
      yes⟩,
    ⟨_, (h.2.2.1 plain 3 0 j' (issues_of yes)).2 0 ⟨yes, (usable_of yes)⟩⟩, ⟨_, (h.2.2.1 noLane 3 0
      j' (issues_of yes)).1 yes⟩, ⟨_, (h.2.2.2.1 plain 1 j' (issues_of yes)).2 yes⟩,
    ⟨_, (h.2.2.2.1 noLane 1 j' (issues_of yes)).1 yes⟩,
    ⟨_, h.2.2.2.2 r (.jwait plain 1) (wordsOf (.jwait plain 1)) (waiting (.jwait plain 1) { kind := 12, value := 1 }) (waits_of yes
      yes yes yes) yes yes⟩⟩

theorem runs_of {j : Job} {k : Nat}
    (h : decide (j.card.kind = k ∧ j.started = true ∧ j.ended = none ∧ j.next < j.card.units) = true) : j.Runs k :=
  let ⟨a, b, c, d⟩ := of_decide_eq_true h
  ⟨a, b, c, d⟩

theorem witness_JobSteps (h : Obligations.JobSteps) :
    let s := world (.nop plain)
    let p := job porter
    let wide := job { porter with scope := 5 }
    let co := job (jobCard 2 0 1 0 [region 0x100 true false, region 0x200 false true, region 0x300 true false])
    let cl := job (jobCard 3 0x20 1 0 [region 0x100 false true, region 0x200 true false])
    let rq := job (jobCard 4 0x20407 0x100000001 0 [region 0x100 true false, region 0x200 false true])
    let b : Barrier := { gen := 0, expect := 1, pend := 1, res := 0, inb := 16, outb := 0 }
    Completes (.jobAccept 0) (withJobs [{ p with accepted := false }] s) ∧ Completes (.jobStart 0 0) (withJobs [{ p with started := false }] s) ∧
      Completes (.jobComplete 0 0) (withJobs [{ p with next := 1 }] s) ∧
      Completes (.jobComplete 0 0) (withJobs [{ wide with ended := some 1 }] s) ∧ Completes (.porterRow 0 0) (withJobs [p] s) ∧
      Completes (.courierElement 0 0) (withJobs [co] s) ∧ Completes (.collectiveElement 0 0) (withJobs [cl] s) ∧
      Completes (.requantiseGroup 0 0) (withJobs [rq] s) ∧ Completes (.syncRaise 0 0) (withJobs [{ p with owed := [⟨0, 16, 0⟩] }] s) ∧
      Completes (.barrierCountdown 0 0) (withBarrier b (withJobs [{ p with owed := [⟨1, 16, 0⟩] }] s)) := by
  intro s p wide co cl rq b
  let q : Requant :=
    { src := .flt .f32, sdesc := false, dst := .int8, tdesc := true, tr := false, srows := 1, scols := 1, drows := 1, dcols := 1 }
  have done := h.1.2.2 0 0
  refine ⟨⟨_, h.1.1 0 { p with accepted := false } (withJobs [{ p with accepted := false }] s) yes yes⟩,
    ⟨_, h.1.2.1 0 0 { p with started := false } (withJobs [{ p with started := false }] s) _ yes yes yes yes yes (val_of (d := s) yes)⟩,
    ⟨_, (done { p with next := 1 } (withJobs [{ p with next := 1 }] s) yes (.inl yes) yes yes yes).1 yes⟩,
    ⟨_, (done { wide with ended := some 1 } (withJobs [{ wide with ended := some 1 }] s) yes (.inr yes) yes yes yes).2 yes yes⟩,
    ⟨_, h.2.1.1 0 0 p (withJobs [p] s) _ _ (List.replicate 16 (0, false)) yes (runs_of yes) (pair_of (d := s)
      yes) (val_of (d := s) yes)⟩,
    ⟨_, h.2.1.2.1 0 0 co (withJobs [co] s) _ _ _ (List.replicate 4 (0, false)) (List.replicate 4 (0, false)) yes (runs_of
      yes) yes (pair_of (d := s) yes)
      yes yes (pair_of (d := s) yes) yes (val_of (d := s) yes)⟩,
    ⟨_, h.2.1.2.2.1 0 0 cl (withJobs [cl] s) _ _ (some (0, false)) yes (runs_of yes) (pair_of (d := s)
      yes) yes (val_of (d := s) yes)⟩,
    ⟨_, h.2.1.2.2.2 0 0 rq q _ (withJobs [rq] s) _ yes (runs_of yes) yes yes (val_of
      (d := { s := s, rd := [], vals := [] }) yes)
      (val_of (d := s) yes)⟩,
    ⟨_, h.2.2.1 0 0 { p with owed := [⟨0, 16, 0⟩] } { p with owed := [] } ⟨0, 16, 0⟩ (.chip 0 0x200060 true) (List.replicate 8 0)
      (withJobs [{ p with owed := [⟨0, 16, 0⟩] }] s) yes yes yes (value_of yes)⟩,
    ⟨_, h.2.2.2 0 0 { p with owed := [⟨1, 16, 0⟩] } { p with owed := [] } ⟨1, 16, 0⟩ (.chip 0 0x200040 true) b.bytes { b with inb := 0 }
      (withBarrier b (withJobs [{ p with owed := [⟨1, 16, 0⟩] }] s)) yes yes (value_of yes)
        yes⟩⟩

/-- A state with the ring of the small states' room changed. -/
def withRing (f : Ring → Ring) (s : State) : State := s.modRing 0 0 f

theorem witness_MatrixInstructions (h : Obligations.MatrixInstructions) :
    let s := world (.nop plain) 1 (withK 1 0x100)
    let r := withRing (fun r => { r with base := 0x100, size := 4 }) s
    let q := withRing (fun r => { r with base := 0x100, size := 4, qcnt := 4 }) s
    let t := withRing (fun r => { r with base := 0x100, size := 4, qcnt := 2, halt := true }) s
    let held := r.modCore 0 fun k => { k with books := k.books.set 1 { holder := some (7, 7) } }
    let w := fun (i : Instr) (b : Block) => withRing (fun r => { r with base := 0x100, size := 4, qcnt := 1, dcnt := 1 }) (waiting i b)
    Completes (.mxq plain 3 (.imm 1)) s ∧ Completes (.mxq plain 3 (.imm 1)) r ∧ Completes (.mxq plain 3 (.imm 1)) q ∧
      Completes (.mxq noLane 3 (.imm 1)) s ∧ Completes (.mxrunResume plain) r ∧ Completes (.mxrunResume plain) t ∧
      Completes (.mxrunSkip plain) t ∧ Completes (.mxrunAbort plain) t ∧ Completes (.mxrunAbort noLane) t ∧
      Completes (.mxcfg plain 1 2) s ∧ Completes (.mxcfg plain 1 2) q ∧ Completes (.mxcfg noLane 1 2) s ∧
      Completes (.mxwait plain 3 (.imm 0)) r ∧ Completes (.mxwait plain 3 (.imm 1)) t ∧ Completes (.mxwait plain 3 (.imm 1)) q ∧
      Completes (.mxwait noLane 3 (.imm 0)) r ∧ Completes (.mxcb plain 1 true 1) s ∧ Completes (.mxcb plain 1 true 1) held ∧
      Completes (.mxcb noLane 1 true 1) s ∧
      Completes (.engineWaitEnd ⟨0, 0, 0⟩) (w (.mxq plain 3 (.imm 1)) { kind := 9, value := 1 }) ∧
      Completes (.engineWaitEnd ⟨0, 0, 0⟩) (w (.mxcfg plain 1 2) { kind := 9, value := 0x100 }) ∧
      Completes (.engineWaitEnd ⟨0, 0, 0⟩) (w (.mxwait plain 3 (.imm 1)) { kind := 9, value := 1 }) ∧
      Completes (.engineWaitEnd ⟨0, 0, 0⟩) (w (.mxcb plain 1 true 1) { kind := 10, addr := 0x100, value := 1 }) := by
  intro s r q t held w
  have h1 := h.1.1
  have h2 := h.1.2.1
  have h3 := h.1.2.2.1
  have h4 := h.1.2.2.2
  refine ⟨⟨_, ((h1 plain 3 (.imm 1) s (issues_of yes)).2 0 ⟨yes, (usable_of yes)⟩ yes).1 yes⟩,
    ⟨_, ((h1 plain 3 (.imm 1) r (issues_of yes)).2 0 ⟨yes, (usable_of yes)⟩ yes).2.1 yes yes yes yes yes⟩,
    ⟨_, ((h1 plain 3 (.imm 1) q (issues_of yes)).2 0 ⟨yes, (usable_of yes)⟩ yes).2.2 yes yes yes yes yes⟩,
    ⟨_, (h1 noLane 3 (.imm 1) s (issues_of yes)).1 yes⟩,
    ⟨_, ((h2 (.mxrunResume plain) plain r (.inl rfl) (issues_of yes)).2 yes yes yes).1 yes⟩,
    ⟨_, ((h2 (.mxrunResume plain) plain t (.inl rfl) (issues_of yes)).2 yes yes yes).2.1 yes rfl⟩,
    ⟨_, ((h2 (.mxrunSkip plain) plain t (.inr (.inl rfl)) (issues_of yes)).2 yes yes yes).2.2.1 yes rfl⟩,
    ⟨_, ((h2 (.mxrunAbort plain) plain t (.inr (.inr rfl)) (issues_of yes)).2 yes yes yes).2.2.2 yes rfl⟩,
    ⟨_, (h2 (.mxrunAbort noLane) noLane t (.inr (.inr rfl)) (issues_of yes)).1 yes⟩,
    ⟨_, ((h3 plain 1 2 s (issues_of yes)).2 0 _ ⟨yes, (usable_of yes)⟩ yes (val_of (d := []) yes)).1 yes yes⟩,
    ⟨_, ((h3 plain 1 2 q (issues_of yes)).2 0 _ ⟨yes, (usable_of yes)⟩ yes (val_of (d := []) yes)).2 yes⟩,
    ⟨_, (h3 noLane 1 2 s (issues_of yes)).1 yes⟩,
    ⟨_, ((h4 plain 3 (.imm 0) r (issues_of yes)).2 0 ⟨yes, (usable_of yes)⟩ yes).1 yes⟩,
    ⟨_, ((h4 plain 3 (.imm 1) t (issues_of yes)).2 0 ⟨yes, (usable_of yes)⟩ yes).2.1 yes yes⟩,
    ⟨_, ((h4 plain 3 (.imm 1) q (issues_of yes)).2 0 ⟨yes, (usable_of yes)⟩ yes).2.2 yes yes⟩,
    ⟨_, (h4 noLane 3 (.imm 0) r (issues_of yes)).1 yes⟩, ?_⟩
  have b := h.2.1 plain 1 true 1
  have ends := fun (i : Instr) (x : Block) => h.2.2 ⟨0, 0, 0⟩ (wordsOf i) (w i x) plain
  exact ⟨⟨_, ((b s (issues_of yes)).2 0 ⟨yes, (usable_of yes)⟩ yes).2 _ yes (val_of (d := []) yes) _ (ok_of yes)⟩,
    ⟨_, ((b held (issues_of yes)).2 0 ⟨yes, (usable_of yes)⟩ yes).1 ⟨0, yes, (7, 7), yes, yes⟩⟩,
    ⟨_, (h.2.1 noLane 1 true 1 s (issues_of yes)).1 yes⟩,
    ⟨_, (ends (.mxq plain 3 (.imm 1)) _).1 3 (.imm 1) (waits_of yes yes yes yes) yes⟩,
    ⟨_, (ends (.mxcfg plain 1 2) _).2.1 1 2 (waits_of yes yes yes yes) yes yes⟩,
    ⟨_, (ends (.mxwait plain 3 (.imm 1)) _).2.2.1 3 (.imm 1) (waits_of yes yes yes yes) yes⟩,
    ⟨_, (ends (.mxcb plain 1 true 1) _).2.2.2 1 true 1 _ (waits_of yes yes yes yes) (val_of (d := s) yes)⟩⟩

/-- A matrix record of an operation in format f, with KLEN k (R285). -/
def record (op f k : Nat) : BitVec 512 := BitVec.ofNat 512 (op + k * 2 ^ 32 + f * 2 ^ 160 + f * 2 ^ 168 + if op = 3 then 0 else 2 ^ 176 + 2 ^ 177)

/-- A record that the engine runs. -/
def running (r : BitVec 512) : Running := { rec_ := r, how := .fetch, started := true, step := 0, books := [] }

/-- Operands that the running record takes as held (R293). -/
def heldRows (r : BitVec 512) (b : Bool) : Held := { recno := 0, side := b, step := 0, key := (sideOf r b).key false, rows := [] }

/-- A state with a ring of four slots at 0x100 of the scratchpad, changed by f, with one record queued. -/
def withRecord (f : Ring → Ring) (s : State) : State := s.modRing 0 0 fun r => f { r with base := 0x100, size := 4, qcnt := 1 }

theorem ready_of {s : State} {c n : Nat}
    (h : decide (s.mxRuns c n = true ∧ (s.room c n).ring.size ≠ 0 ∧ (s.room c n).ring.halt = false ∧ (s.room c n).ring.dcnt ≠ (s.room c n).ring.qcnt ∧
      (s.room c n).ring.run = none) = true) : s.RingReady c n :=
  let ⟨a, b, c, d, e⟩ := of_decide_eq_true h
  ⟨a, b, c, d, e⟩

theorem acquired {α : Type} {x : Bool × α} (h : x.1 = true) : x = (true, x.2) := by
  cases x; simpa using h

theorem snd_none {α β : Type} {x : α × Option β} (h : x.2.isSome = false) : x = (x.1, none) := by
  obtain ⟨a, b⟩ := x
  cases b with
  | none => rfl
  | some _ => cases h

theorem snd_some {α β γ : Type} (b : β) (c : γ) {x : α × Option (β × γ)} (h : x.2.isSome = true) :
    x = (x.1, some ((x.2.getD (b, c)).1, (x.2.getD (b, c)).2)) := by
  obtain ⟨a, y⟩ := x
  cases y with
  | none => cases h
  | some _ => rfl

theorem fst_of {α : Type} {x : α × Bool} (h : x.2 = false) : x = (x.1, false) := by
  cases x; simpa using h

/-- The state that a step of work leaves. -/
def workOf (s : State) (x : Work State) : State :=
  match x with
  | .ok t => t
  | .error _ => s

theorem work_of {s : State} {x : Work State} (h : isOk x = true) : x = .ok (workOf s x) := by
  cases x with
  | ok _ => rfl
  | error _ => cases h

/-- The states that a K-block leaves. -/
def kpair (s : State) (x : Work (Option State × State)) : State × State :=
  match x with
  | .ok (some t, u) => (t, u)
  | .ok (none, _) => (s, s)
  | .error _ => (s, s)

/-- Whether a K-block ran. -/
def kran (x : Work (Option State × State)) : Bool :=
  match x with
  | .ok (some _, _) => true
  | .ok (none, _) => false
  | .error _ => false

theorem kblock_of {s : State} {x : Work (Option State × State)} (h : kran x = true) : x = .ok (some (kpair s x).1, (kpair s x).2) := by
  cases x with
  | error _ => cases h
  | ok y =>
    obtain ⟨o, u⟩ := y
    cases o with
    | none => cases h
    | some t => rfl

theorem witness_MatrixSteps (h : Obligations.MatrixSteps) :
    let s := world (.nop plain)
    let bad := withRecord id s
    let good := withScr 0x100 (leBytes 64 (record 3 0 0).toNat) bad
    let fill := withRecord (fun r => { r with run := some (running (record 3 0 0)) }) s
    let wait := withRecord (fun r => { r with run := some { running (record 3 0 0) with started := false } }) s
    let run := fun k => withRecord (fun r =>
      { r with run := some (running (record 1 4 k)), held := [heldRows (record 1 4 k) false, heldRows (record 1 4 k) true] }) s
    Completes (.mxRecordFetch 0 0) bad ∧ Completes (.mxRecordFetch 0 0) good ∧ Completes (.mxRecordStart 0 0) wait ∧
      Completes (.mxKblock 0 0) fill ∧ Completes (.mxKblock 0 0) (run 100) ∧ Completes (.mxKblock 0 0) (run 20) := by
  intro s bad good fill wait run
  refine ⟨⟨_, (h.1 0 0 _ bad (ready_of yes) (fst_of yes) yes).1 yes⟩, ⟨_, (h.1 0 0 _ good (ready_of yes) (fst_of yes) yes).2 yes⟩,
    ⟨_, h.2.1 0 0 { running (record 3 0 0) with started := false } wait _ yes yes yes (work_of (s := s) yes)⟩,
    ⟨_, (h.2.2 0 0 (running (record 3 0 0)) fill yes yes yes yes yes).1 _ yes (work_of (s := s) yes)⟩,
    ⟨_, ((h.2.2 0 0 (running (record 1 4 100)) (run 100) yes yes yes yes yes).2 _ _ yes (kblock_of (s := s) yes)).1 yes⟩,
    ⟨_, ((h.2.2 0 0 (running (record 1 4 20)) (run 20) yes yes yes yes yes).2 _ _ yes (kblock_of (s := s) yes)).2 _ yes
      (work_of (s := s) yes)⟩⟩

/-- A descriptor of a 2 by 2 matrix of 16-bit elements, 64 bytes after it (R295). -/
def descBits : BitVec 128 := BitVec.ofNat 128 (0x210 + 0x40 * 2 ^ 64)

/-- A group whose handle 1 is bound to slot 0. -/
def bound (g : Group) : Group := { g with handles := [none, some { slot := 0, desc := descBits }, none, none] }

theorem witness_MapSlotResults (h : Obligations.MapSlotResults) :
    let s := world (.nop plain) 1 (withK 1 0x100)
    let good := withScr 0x100 (leBytes 16 descBits.toNat) s
    let bad := withScr 0x100 [1] s
    let have1 := world (.nop plain) 1 (withK 1 0x100) bound
    let full := withScr 0x100 (leBytes 16 descBits.toNat) (world (.nop plain) 1 (withK 1 0x100) fun g =>
      { g with handles := [none] ++ (List.range 16).map fun k => some { slot := k, desc := descBits } })
    let r : SplitRef := ⟨0, 0, 0⟩
    let wm := withScr 0x100 (leBytes 16 descBits.toNat) (waiting (.mapbind plain 1 1 true) { kind := 6, addr := 0x100, value := 1 })
    let wj := withScr 0x80 porterBytes (waiting (.jsub plain 1) { kind := 7, addr := 0x80 })
    Completes (.mapbind noLane 1 1 true) s ∧ Completes (.mapbind plain 3 1 true) s ∧ Completes (.mapbind plain 1 1 true) bad ∧
      Completes (.mapbind plain 1 1 true) good ∧ Completes (.mapbind plain 0 1 true) full ∧ Completes (.mapld plain 1 1 true) s ∧
      Completes (.mapld plain 1 1 true) have1 ∧ Completes (.mapst plain 1 1 true) have1 ∧ Completes (.maprel plain 1) have1 ∧
      Completes (.maprel noLane 1) s ∧ Completes (.mapinfo plain 3 1) s ∧ Completes (.mapinfo plain 3 1) have1 ∧
      Completes (.mapinfo noLane 3 1) s ∧ Completes (.blockedWaitEnd r) wm ∧ Completes (.blockedWaitEnd r) wj := by
  intro s good bad have1 full r wm wj
  have b := fun (h2 : BitVec 2) (x : Ctl) (s : State) hs => h.1 (.mapbind x h2 1 true) x h2 1 true s (.inl rfl) hs
  have ld := h.1 (.mapld plain 1 1 true) plain 1 1 true
  have st := h.1 (.mapst plain 1 1 true) plain 1 1 true
  have binds := fun (h2 : BitVec 2) (s : State) hs l u => ((b h2 plain s hs).2 l u).2
  refine ⟨⟨_, (b 1 noLane s (issues_of yes)).1 yes⟩, ⟨_, ((b 3 plain s (issues_of yes)).2 0 ⟨yes, (usable_of yes)⟩).1 yes⟩,
    ⟨_, ((binds 1 bad (issues_of yes) 0 ⟨yes, (usable_of yes)⟩ yes yes).1 rfl _ _ (val_of (d := []) yes) (ok_of yes) yes).1 yes⟩,
    ⟨_, (((binds 1 good (issues_of yes) 0 ⟨yes, (usable_of yes)⟩ yes yes).1 rfl _ _ (val_of (d := []) yes) (ok_of yes) yes).2 yes yes).2 0 _ _
      yes (val_of (d := []) yes) (ok_of yes)⟩,
    ⟨_, (((binds 0 full (issues_of yes) 0 ⟨yes, (usable_of yes)⟩ yes yes).1 rfl _ _ (val_of (d := []) yes) (ok_of yes) yes).2 yes yes).1 yes⟩,
    ⟨_, (((ld s (.inr (.inl rfl)) (issues_of yes)).2 0 ⟨yes, (usable_of yes)⟩).2 yes yes).2.1 (by simp) yes⟩,
    ⟨_, (((ld have1 (.inr (.inl rfl)) (issues_of yes)).2 0 ⟨yes, (usable_of yes)⟩).2 yes yes).2.2.1 ⟨0, descBits⟩ _ _ rfl yes
      (val_of (d := []) yes) (ok_of yes)⟩,
    ⟨_, (((st have1 (.inr (.inr rfl)) (issues_of yes)).2 0 ⟨yes, (usable_of yes)⟩).2 yes yes).2.2.2 ⟨0, descBits⟩ _ rfl yes
      (val_of (d := []) yes)⟩, ?_⟩
  have info := h.2.2.1 plain 3 1
  exact ⟨⟨_, (h.2.1 plain 1 have1 (issues_of yes)).2 0 ⟨yes, (usable_of yes)⟩ yes⟩, ⟨_, (h.2.1 noLane 1 s (issues_of yes)).1 yes⟩,
    ⟨_, ((info s (issues_of yes)).2 0 ⟨yes, (usable_of yes)⟩).1 yes⟩,
    ⟨_, ((info have1 (issues_of yes)).2 0 ⟨yes, (usable_of yes)⟩).2 ⟨0, descBits⟩ yes⟩, ⟨_, (h.2.2.1 noLane 3 1 s (issues_of yes)).1 yes⟩,
    ⟨_, (h.2.2.2 r _ (wordsOf (.mapbind plain 1 1 true)) plain wm _).1 1 1 true rfl (waits_of yes yes yes yes) (ok_of yes)⟩,
    ⟨_, (h.2.2.2 r _ (wordsOf (.jsub plain 1)) plain wj _).2 1 rfl (waits_of yes yes yes yes) (ok_of yes)⟩⟩

/-- A warp with an open search region of lane 0, whose vector registers of one level each nest once (R301, R312). -/
def searching (f : Warp → Warp) (w : Warp) : Warp :=
  f { w with satchel := 0x0000000100000001, nest := w.nest.set 0 1, stack := [{ join := true, pc := 8, mask := 1, arrived := 0, ra := none, nest := 1
      }] }

/-- A group with a satchel of 128 bytes a lane, at the beginning of the small states' page. -/
def small (g : Group) : Group := { g with hdr := { g.hdr with satchel := 0x80 }, lrec := { g.lrec with priv := 0 } }

/-- A lane's header in its satchel, from the group's satchel size (R302). -/
def header (k : Nat) : SHdr := { freshHeader 1 1 0x80 with cptop := 0x40 + 32 * k, serial := 1 + k }

/-- A choice point with two alternatives of which the first is taken (R306). -/
def choice : Choice :=
  { alts := 0, count := 2, next := 1, tmark := 0x80, resume := 0x40, dreg := 8, origin := 0, stolen := false, revoked := false, serial := 1, thieves
      := 0 }

/-- The state that a lane's part leaves. -/
def laneOf (s : State) (x : Lane State) : State :=
  match (x.run {}).1 with
  | .ok t => t
  | .error _ => s

/-- A state about to issue i in an open region, with k choice points in lane 0's satchel. -/
def region0 (i : Instr) (k : Nat) (f : Warp → Warp := id) : State :=
  let s := world i 1 (searching f) small
  let t := laneOf s ((s.seen i).setHeader s 0 (header k))
  laneOf t ((s.seen i).satWrite t 0 0x40 (if k = 0 then List.replicate 32 0 else choice.bytes))

theorem act_of {ε α : Type} (d : α) {x : Except ε (α × List (Nat × W64))} (h : isOk x = true) :
    x = .ok ((valOf (d, []) x).1, (valOf (d, []) x).2) := by
  cases x with
  | ok _ => rfl
  | error _ => cases h

theorem witness_SearchRegionsAndScatters (h : Obligations.SearchRegionsAndScatters) :
    let opens := world (.srchbeg plain 0 4) 1 fun w => { w with splits := w.splits.map (Option.map fun x => { x with pend := some 0x80 }) }
    Completes (.srchbeg plain 0 4) opens ∧ Completes (.srchend plain) (region0 (.srchend plain) 0) ∧
      Completes (.trye plain (vd 4) (.imm 0) (.imm 2)) (region0 (.trye plain (vd 4) (.imm 0) (.imm 2)) 0) ∧
      Completes (.fail plain) (region0 (.fail plain) 1) ∧ Completes (.cpchk plain (vd 4)) (region0 (.cpchk plain (vd 4)) 1) := by
  intro opens
  refine ⟨⟨_, h.1.1 plain 0 4 0x80 _ _ opens (issues_of yes) yes yes yes
      yes yes yes yes (act_of opens yes)⟩, ⟨_, h.1.2 plain (region0
      (.srchend plain) 0) (issues_of yes) yes yes yes yes⟩,
    ⟨_, h.2 (.trye plain (vd 4) (.imm 0) (.imm 2)) _ (region0 (.trye plain (vd 4) (.imm 0) (.imm 2)) 0) _ _ _ _ rfl (issues_of yes)
      (usable_of yes) yes yes
      (val_of (d := []) yes) (act_of opens yes) (divided_of yes)⟩,
    ⟨_, h.2 (.fail plain) _ (region0 (.fail plain) 1) _ _ _ _ rfl (issues_of yes) (usable_of yes) yes
      yes (val_of (d := []) yes) (act_of opens yes) (divided_of yes)⟩,
    ⟨_, h.2 (.cpchk plain (vd 4)) _ (region0 (.cpchk plain (vd 4)) 1) _ _ _ _ rfl (issues_of yes) (usable_of yes)
      yes yes (val_of (d := []) yes) (act_of opens yes)
      (divided_of yes)⟩⟩

theorem witness_SearchUpdatesAndThefts (h : Obligations.SearchUpdatesAndThefts) :
    Completes (.cut plain (.imm 1)) (region0 (.cut plain (.imm 1)) 1) ∧ Completes (.cpmark plain (vd 4)) (region0 (.cpmark plain (vd 4)) 1) ∧
      Completes (.trst plain false (vd 4) (.imm 0x20) (.imm 0)) (region0 (.trst plain false (vd 4) (.imm 0x20) (.imm 0)) 0) ∧
      Completes (.steal plain (vd 4)) (region0 (.steal plain (vd 4)) 0) := by
  let i := Instr.cut plain (.imm 1)
  refine ⟨⟨_, (h.1 (region0 (.cut plain (.imm 1)) 1) _ _ _ plain (issues_of yes)).1 (.imm 1) (usable_of yes)
      yes yes (val_of (d := []) yes) (act_of (region0 i 1) yes)⟩,
    ⟨_, (h.1 (region0 (.cpmark plain (vd 4)) 1) _ _ _ plain (issues_of yes)).2.1 (vd 4) (usable_of yes) (val_of (d :=
      []) yes) (act_of (region0 i 1) yes)⟩,
    ⟨_, (h.1 (region0 (.trst plain false (vd 4) (.imm 0x20) (.imm 0)) 0) _ _ _ plain (issues_of yes)).2.2 false (vd 4) (.imm 0x20)
      (.imm 0) (usable_of yes) yes yes
      (val_of (d := []) yes) (act_of (region0 i 1) yes)⟩,
    ⟨_, h.2 plain (vd 4) (region0 (.steal plain (vd 4)) 0) _ _ _ _ _ _ (issues_of yes) (usable_of yes) (val_of (d :=
      []) yes) (act_of (region0 i 1) yes)
      (act_of (region0 i 1) yes) (divided_of yes)⟩⟩

theorem witness_SearchRecords (h : Obligations.SearchRecords) :
    SHdr.of (header 1).bytes = header 1 ∧ Choice.of choice.bytes = choice ∧ (trailEntry 1 true 5 7).length = 16 :=
  ⟨(h.1 (header 1) yes yes yes yes yes yes
      yes).1, (h.2.1 choice yes yes yes yes yes
      yes yes yes).1, (h.2.2 1 5 7 true yes yes
      yes).1⟩

/-- A write of die 0 to sector 0 of die 1's memory that has left its die. -/
def remote : Remote :=
  { src := 0, dst := 1, stamp := [1, 0, 0, 0, 0, 0, 0, 0], sector := 0x2000000000 / 64, bytes := [(0, 5)], poison := false, key := some 0, desc := false,
    inval := false, id := 1, ord := true }

/-- The device after reset with messages on its fabric. -/
def withNet (rs : List Remote) (ms : List DieMsg) : State := { State.reset with net := rs, msgs := ms }

set_option synthInstance.maxSize 1000 in
/-- Whether a die admits a write can be evaluated. -/
def admitted (s : State) (r : Remote) : Decidable (s.Admits r) := by
  unfold State.Admits
  infer_instance

theorem admits {s : State} {r : Remote} (h : (admitted s r).decide = true := by decide +kernel) : s.Admits r := @of_decide_eq_true _ (admitted s r) h
theorem refuses {s : State} {r : Remote} (h : (admitted s r).decide = false := by decide +kernel) : ¬ s.Admits r := @of_decide_eq_false _ (admitted s r) h

theorem admits_all {s : State} {rs : List Remote} (h : (rs.all fun q => (admitted s q).decide) = true := by decide +kernel) :
    ∀ q ∈ rs, s.Admits q :=
  fun q m => @of_decide_eq_true _ (admitted s q) (List.all_eq_true.mp h q m)

theorem refuses_some {s : State} {rs : List Remote} (h : (rs.all fun q => (admitted s q).decide) = false := by decide +kernel) :
    ¬ ∀ q ∈ rs, s.Admits q :=
  fun a => by
    have : (rs.all fun q => (admitted s q).decide) = true := List.all_eq_true.mpr fun q m => @decide_eq_true _ (admitted s q) (a q m)
    simp [this] at h

theorem witness_RemoteWritesAndEpochs (h : Obligations.RemoteWritesAndEpochs) :
    let late : Remote := { remote with stamp := [2, 0, 0, 0, 0, 0, 0, 0] }
    let chip : Remote := { remote with sector := 0xF08000000 / 64 }
    let inv := fun (r : Remote) => ({ r with inval := true } : Remote)
    let part := fun (r : Remote) => ({ r with op := some 4 } : Remote)
    let mark : DieMsg := { src := 0, dst := 1, mark := true, n := 1 }
    let ask : DieMsg := { src := 0, dst := 1, mark := false, n := 1 }
    let old := { State.reset with gtime := 3000 }.modDie 1 fun x => { x with first := some 7 }
    let write := Instr.remoteWriteApply 1 0
    (∀ r ∈ [remote, chip, late, part remote, part late, inv remote, inv late], Completes write (withNet [r] [])) ∧
      Completes (.remoteWriteAck 0 0) (withNet [{ remote with applied := true }] []) ∧
      Completes (.markReceive 1 0) (withNet [] [mark]) ∧ Completes (.markReceive 1 0) (withNet [] [ask]) ∧
      Completes (.closeRequest 1 0) (withNet [] [mark]) ∧ Completes (.closeRequest 1 0) (withNet [] [ask]) ∧
      Completes (.closeRequest 1 0) (withNet [] [{ ask with n := 0 }]) ∧ Completes (.epochTimeout 1) old ∧
      vcAt ((State.reset.closeEpoch 0).die 0).vc 0 = 2 ∧ 1 ≤ vcAt ((State.reset.mergeStamp 0 remote.stamp).die 0).vc 0 ∧
      vcAt ((State.reset.mergeStamp 0 [0, 9, 0, 0, 0, 0, 0, 0]).die 0).vc 1 = 9 := by
  intro late chip inv part mark ask old write
  obtain ⟨⟨one, parts, copies, ack, marks, asks, limit⟩, up, keeps, joins⟩ := h
  have single := fun (r : Remote) => one 1 0 r (withNet [r] [])
  have marked := marks 1 0 mark (withNet [] [mark]) yes rfl
  have asked := asks 1 0 ask (withNet [] [ask]) yes rfl
  refine ⟨?_, ⟨_, ack 0 0 { remote with applied := true } (withNet [{ remote with applied := true }] []) yes⟩,
    ⟨_, marked.1⟩, ⟨_, asked.1⟩, ⟨_, marked.2⟩, ⟨_, asked.2.1 yes⟩,
    ⟨_, (asks 1 0 { ask with n := 0 } (withNet [] [{ ask with n := 0 }]) yes rfl).2.2 yes⟩, ⟨_, limit 1 7 old yes⟩, ?_, ?_, ?_⟩
  · simp only [List.forall_mem_cons, List.not_mem_nil, false_imp_iff, implies_true, and_true]
    exact ⟨⟨_, (single remote yes rfl rfl).1 admits yes⟩, ⟨_, (single chip yes rfl rfl).2.1 admits yes⟩, ⟨_, (single late yes rfl rfl).2.2 refuses⟩,
      ⟨_, (parts 1 0 4 (part remote) (withNet [part remote] []) yes rfl rfl).1 admits_all⟩,
      ⟨_, (parts 1 0 4 (part late) (withNet [part late] []) yes rfl rfl).2 refuses_some⟩,
      ((copies 1 0 (inv remote) (withNet [inv remote] []) yes rfl).1 admits).imp fun _ x => x.1,
      ⟨_, (copies 1 0 (inv late) (withNet [inv late] []) yes rfl).2 refuses⟩⟩
  · exact (up 0 State.reset yes yes).1
  · exact keeps 0 0 0 remote.stamp State.reset yes yes
  · exact joins 0 1 [0, 9, 0, 0, 0, 0, 0, 0] State.reset yes yes yes yes

/-- A sector of die 0's memory that a slice holds, with one byte dirty. -/
def heldSec : L2Sec :=
  { die := 0, sector := 0x1000000000 / 64, have_ := allBytes, dirty := 1, data := List.replicate 64 5, key := none, poison := false, desc := false }

/-- A miss of a split in page 0 of an address space. -/
def miss (asid : Nat) : Miss := { asid := asid, va := 0, who := [{ who := .split ⟨0, 0, 0⟩, write := false, fetch := false }] }

/-- A miss in die 0's queue. -/
def withMiss (asid : Nat) (s : State) : State := s.modDie 0 fun x => { x with missq := [miss asid] }

/-- The refusal or the translation that a walk gives. -/
def refusalOf (w : Walk) : TrFault :=
  match w with
  | .fault f => f
  | .found _ | .poison => { cause := 0, level := 0 }

def foundOf (w : Walk) : Tlb :=
  match w with
  | .found t => t
  | .fault _ | .poison => placedTlb

theorem found_of {w : Walk} (h : decide (w = .found (foundOf w)) = true) : w = .found (foundOf w) := of_decide_eq_true h
theorem refusal_of {w : Walk} (h : decide (w = .fault (refusalOf w)) = true) : w = .fault (refusalOf w) := of_decide_eq_true h

/-- A bucket that is enforced and empty, for tenant 0 at the controller of die 0's first line. -/
def spent (s : State) : State := { s with buckets := put {} s.buckets (bucketKey (ctlOf 0x1000000000) 0) { entry := 1, level := 0 } }

theorem witness_CacheAndStorage (h : Obligations.CacheAndStorage) :
    let q := heldSec.sector
    let host := 0x80000000000 / 64
    let dirty := fun (k : Option Nat) => { State.reset with l2 := [{ heldSec with key := k }] }
    let clean := { State.reset with l2 := [{ heldSec with dirty := 0 }] }
    let keyed := { State.reset with memKey := [(q, 0)] }
    let walks := withMiss 1 (mapped (world (.nop plain)))
    let lost := { withMiss 1 (mapped (world (.nop plain))) with memPoison := [0x1000020000 / 64] }
    Completes (.l2SectorFill 0 q) State.reset ∧ Completes (.l2SectorFill 0 q) (spent keyed) ∧ Completes (.l2SectorFill 1 q) (dirty none) ∧
      Completes (.l2SectorFill 0 host) State.reset ∧ Completes (.l2SectorFill 0 0) State.reset ∧
      Completes (.l2Writeback 0 q) (dirty none) ∧ Completes (.l2Writeback 0 q) (spent (dirty (some 0))) ∧ Completes (.l2Writeback 0 q) clean ∧
      Completes (.l2Writeback 1 q) State.reset ∧ Completes (.pageTableWalk 0) State.reset ∧ Completes (.pageTableWalk 0) walks ∧
      Completes (.pageTableWalk 0) (withMiss 1 State.reset) ∧ Completes (.pageTableWalk 0) lost ∧
      walks.answerWalk (miss 1) placedTlb = (walks.markLeaf placedTlb false).1.keepTlb { (walks.markLeaf placedTlb false).2 with agent := 0 } ∧
      Completes (.storageError ⟨.reg 0 0 4 0, true⟩) State.reset ∧ Completes (.storageError ⟨.reg 0 0 4 0, false⟩) State.reset ∧
      Completes (.storageError ⟨.scratch 0 1, false⟩) State.reset ∧ Completes (.storageError ⟨.sector 0x1000000000, false⟩) State.reset ∧
      Completes (.hbmScrub 0) State.reset := by
  intro q host dirty clean keyed walks lost
  obtain ⟨⟨fill, copy, asks, others, back, rest⟩, ⟨idle, walk, answer⟩, fixed, reg, cell, sector, scrub⟩ := h
  refine ⟨((fill 0 q State.reset yes yes yes).1 yes).imp fun _ ⟨_, x⟩ => x.1, ⟨_, (fill 0 q (spent keyed) yes yes yes).2 yes⟩,
    (copy 1 q heldSec (dirty none) yes yes yes yes yes yes yes yes).imp fun _ ⟨_, x⟩ => x.1,
    ⟨_, asks 0 host State.reset (.inl yes) yes⟩, ⟨_, others 0 0 State.reset (.inl yes)⟩,
    ((back 0 q heldSec (dirty none) yes yes).1 yes yes).imp fun _ x => x.1,
    ⟨_, (back 0 q { heldSec with key := some 0 } (spent (dirty (some 0))) yes yes).2.1 yes yes⟩,
    ((back 0 q { heldSec with dirty := 0 } clean yes yes).2.2 yes).imp fun _ x => x.1, ⟨_, rest 1 q State.reset (.inl yes)⟩, ⟨_, idle 0 State.reset yes⟩,
    ⟨_, (walk 0 (miss 1) _ _ _ walks yes rfl).1 _ (found_of yes)⟩,
    ⟨_, (walk 0 (miss 1) _ _ _ (withMiss 1 State.reset) yes rfl).2.1 _ (refusal_of yes)⟩,
    ⟨_, (walk 0 (miss 1) _ _ _ lost yes rfl).2.2 yes⟩, answer (miss 1) placedTlb _ _ walks rfl (val_of (d := {}) yes), ?_⟩
  exact ⟨⟨_, fixed (.reg 0 0 4 0) State.reset⟩, ⟨_, reg 0 0 4 0 State.reset⟩, ⟨_, (cell 0 1 State.reset).1⟩,
    ⟨_, sector 0x1000000000 State.reset⟩, ⟨_, scrub 0 State.reset⟩⟩

theorem witness_Buckets (h : Obligations.Buckets) :
    let open_ : State := { State.reset with gtime := 256 }
    let b : Bucket := { pending := some 0x0000000A00030001 }
    let q : MemReq := { who := .split ⟨0, 0, 0⟩, tenant := 0, sector := heldSec.sector }
    let waits := { State.reset with reqs := [q] }
    let key := bucketKey (ctlOf 0x1000000000) 0
    let lends := { waits with buckets := put {} [] key { entry := 3, level := 0 } }
    Completes (.bucketEntryWrite 0 1 0x0000000A00030001) State.reset ∧ Completes (.bucketEntryWrite 16 1 0) State.reset ∧
      Completes .bucketRefill open_ ∧ Completes .bucketRefill State.reset ∧
      b.refill.entry = 0x0000000A00030001 ∧ b.refill.level = 3 ∧ ({} : Bucket).refill.entry = ({} : Bucket).entry ∧
      Completes (.hbmSectorTransfer 0 0) waits ∧ Completes (.hbmSectorTransfer 0 1) waits ∧ (∃ y ∈ waits.waitingSectors 0, y.tenant = 0) ∧
      (get ({} : Bucket) lends.buckets key).entry.getLsbD 1 = true ∧
      State.reset.spend heldSec.sector (some 0) = State.reset ∧ ctlOf 0x1000000000 < 16 := by
  intro open_ b q waits key lends
  obtain ⟨write, none_, refill, early, new, kept, serve, skip, whose, spend, ctl⟩ := h
  refine ⟨(write 0 1 0x0000000A00030001 State.reset yes yes).imp fun _ x => x.1, ⟨_, none_ 16 1 0 State.reset (.inl yes)⟩, ⟨_, refill open_ yes⟩,
    ⟨_, early State.reset yes⟩, (new b 0x0000000A00030001 rfl).2.1, (new b 0x0000000A00030001 rfl).2.2, (kept {} rfl).1,
    ⟨_, serve 0 0 q waits yes yes⟩, ⟨_, skip 0 1 waits yes⟩, (whose 0 0 waits yes).1,
    ((whose 0 0 lends yes).2 yes).1, spend heldSec.sector 0 State.reset yes,
    (ctl 0x1000000000 yes).2.1⟩

theorem witness_Changes (h : Obligations.Changes) :
    let live : State := { State.reset with keySlots := State.reset.keySlots.set 1 .live }
    let dying : State := { State.reset with keySlots := State.reset.keySlots.set 1 .destroying }
    let goes := fun (v : InvalRun) => { State.reset with inval := some v }
    let run : InvalRun := { i := .asid 1, die := 0, epoch := 0, got := [], acked := [] }
    let late := { run with epoch := 1 }
    let got := { run with got := [0] }
    let all := { run with got := List.range 144, acked := List.range 144 }
    let p : PortWrite := { room := 0, off := 0x200000, bytes := [1], poison := false, owner := some 0 }
    let port := (world (.nop plain)).modCore 0 fun k => { k with port := [p] }
    Completes (.keySlotDestroy 1) live ∧ Completes (.keySlotDestroyComplete 1) dying ∧ Completes (.invalidationBroadcast (.asid 1)) State.reset ∧
      Completes (.invalidationBroadcast (.asid 2)) (goes run) ∧
      Completes (.invalidationReceipt 0) (goes run) ∧ Completes (.invalidationReceipt 0) (goes late) ∧ Completes (.invalidationDrained 0) (goes got) ∧
      Completes .invalidationComplete (goes all) ∧ Completes .invalidationComplete { goes all with invals := [.asid 2] } ∧
      Completes (.registerWindowWrite 0 0) port ∧ Completes (.windowHoldSet 0 0) port ∧ Completes (.windowHoldAck 0 0) port ∧
      Completes (.windowHoldRelease 0 0) port := by
  intro live dying goes run late got all p port
  obtain ⟨destroy, dead, first, more, receipt, drained, complete, window, hold⟩ := h
  exact ⟨⟨_, destroy 1 live yes⟩, (dead 1 dying yes yes).imp fun _ x => x.1, ⟨_, first (.asid 1) State.reset yes⟩,
    ⟨_, more (.asid 2) run (goes run) rfl⟩, ((receipt 0 run (goes run) rfl yes yes).1 yes).imp fun _ x => x.1,
    ⟨_, (receipt 0 late (goes late) rfl yes yes).2 yes⟩, ⟨_, drained 0 got (goes got) rfl yes yes yes⟩,
    ⟨_, (complete all (goes all) rfl yes).1 rfl⟩, ⟨_, (complete all { goes all with invals := [.asid 2] } rfl yes).2 (.asid 2) [] rfl⟩,
    ⟨_, window 0 0 p port yes yes yes⟩, ⟨_, (hold 0 0 port).1⟩, ⟨_, (hold 0 0 port).2.1⟩, ⟨_, (hold 0 0 port).2.2⟩⟩

theorem witness_TimersAndDebugger (h : Obligations.TimersAndDebugger) :
    let i := Instr.nop plain
    let p : Pending := { split := 0, pc := 0, la := 0, pos := 0, regs := [], writes := [.flags 1] }
    let r : SplitRef := ⟨0, 0, 0⟩
    let late := world i 1 fun w => { w with pend := [p] }
    let due := world i 1 (fun w => { w with wtcmp := 5 }) fun g => { g with wtimer := 5 }
    let handled := world i 1 (fun w => { w with wtcmp := 5 }) fun g => { g with wtimer := 5, hdr := { g.hdr with handler := 0x100, trapmask := 0x200
      } }
    let stopped := world i 1 id fun g => { g with stopped := true }
    Completes (.longLatencyResult r) late ∧ Completes (.timerTrap r) due ∧ Completes (.timerTrap r) handled ∧
      Completes (.breakpointArm 0 0 true) (world i) ∧ Completes (.stopRequest 0 0) (world i) ∧ Completes (.singleStep r) stopped ∧
      Completes (.debuggerWrite 0 0 0x200000 [1]) stopped ∧ Completes (.privilegedAccess true none 0x1000000000 [1]) State.reset ∧
      Completes (.privilegedAccess false none 0x1000000000 [1]) State.reset ∧
      Completes (.privilegedAccess true none 0x4000000000000 [1]) State.reset ∧
      Completes (.privilegedAccess false none 0x4000000000000 [1]) State.reset := by
  intro i p r late due handled stopped
  exact ⟨⟨_, h.1.1 r p late yes⟩, ⟨_, (h.1.2 r due yes yes).1 yes⟩,
    ⟨_, (h.1.2 r handled yes yes).2 yes yes i (wordsOf i) yes⟩, ⟨_,
      h.2.1 0 0 true (world i)⟩, ⟨_, h.2.2.1 0 0 (world i) yes yes yes⟩,
    ⟨_, h.2.2.2.1 r stopped yes yes yes yes⟩, ⟨_, h.2.2.2.2.1 0 0 0x200000 [1]
      stopped yes yes yes yes⟩,
    ⟨_, (h.2.2.2.2.2.1 none 0x1000000000 [1] State.reset yes).1⟩, ⟨_, (h.2.2.2.2.2.1 none 0x1000000000 [1] State.reset
      yes).2⟩,
    ⟨_, (h.2.2.2.2.2.2 none 0x4000000000000 [1] State.reset yes).1⟩, ⟨_, (h.2.2.2.2.2.2 none 0x4000000000000 [1] State.reset
      yes).2⟩⟩

/-- A room card for the only group of the launch whose record lies at 0x100 (R324). -/
def roomCard : Nat := 1 + 2 ^ 32 + 0x100 * 2 ^ 128

/-- A state with that card, or another number, in the table of room 0 of core 0. -/
def carded (k : Nat) (s : State) : State := { s with mem := putBytes s.mem (cardAddr 0 0) (leBytes 32 k) }

/-- A launch of one group of a kernel without storage. -/
def launch1 : Launch :=
  { lpa := 0x100, hdr := { placedGroup.hdr with scratch := 0, tiles := 0 }, lrec := { gangs := 1 }, fn := 1 }

/-- The group of that launch that stands bound in its room. -/
def bound1 (restore : Bool) : Group :=
  { placedGroup with phase := .bound, restore := restore, hdr := launch1.hdr, lrec := launch1.lrec, lpa := 0x100,
                     ctx := 0x1000000000, warps := List.replicate 32 none }

/-- A device with that launch, and its group in room 0. -/
def withRoom (g : Option Group) : State :=
  { State.reset with launches := [launch1] }.modRoom 0 0 fun x => { x with group := g }

/-- The context record of that group, which no warp outlived (R352). -/
def record1 : List Byte := leBytes 0xE0 (0x52435853 + 2 ^ 32) ++ launch1.hdr.sections.flatMap (leBytes 4)

/-- That group saved. -/
def saved1 : Saved := { launch := 0, groupid := 0, ctx := 0x1000000000, state := 1, stay := 0, eligible := false }

theorem witness_RoomSteps (h : Obligations.RoomSteps) :
    let faulty := carded 1 State.reset
    let named := carded (1 + 2 ^ 32 + 0x1000000100 * 2 ^ 128)
      (launchable ({ world (.nop plain) with launches := [{ launch1 with fn := 0, lpa := 0x1000000100 }] }.modRoom 0 0 fun x => { x with group := none }))
    let unknown := carded roomCard State.reset
    let fresh := withRoom (some (bound1 false))
    let away := { withRoom (some (bound1 true)) with mem := putBytes [] 0x1000000000 record1, saved := [saved1] }
    let leaves := withRoom (some { bound1 false with phase := .ended })
    let share : Share := { cluster := 0, part := 0 }
    let slice := { withRoom (some { bound1 false with phase := .resident }) with
      launches := [launch1, { launch1 with lrec := { launch1.lrec with prio := 3 } }], shares := [share] }
    let late := { State.reset with shares := [{ share with saving := some 0 }] }
    let again := { State.reset with launches := [{ launch1 with gangs := [(0, { waiting := true })] }] }
    Completes (.roomCardWrite 0 0 1) State.reset ∧ Completes (.roomCardTakeUp 0 0) faulty ∧ Completes (.roomCardTakeUp 0 0) named ∧
      Completes (.roomCardTakeUp 0 0) unknown ∧
      Completes (.groupMakeResident 0 0) fresh ∧ Completes (.groupSave 0 0) leaves ∧ Completes (.groupRestore 0 0) away ∧
      Completes (.sliceEnd 0) slice ∧ Completes (.sliceEnd 0) State.reset ∧ Completes (.preemptDeadline 0) late ∧
      Completes (.preemptDeadline 0) State.reset ∧ Completes (.gangRelaunch 0 0) again ∧
      Completes .deficitUpdate { late with gtime := 100000 } ∧ Completes .deficitUpdate State.reset ∧ Completes (.partitionStart 1) State.reset := by
  intro faulty named unknown fresh away leaves share slice late again
  obtain ⟨write, refused, take, lost, resident, leave, restore, ends, none_, missed, none', relaunch, paced, early, start⟩ := h
  refine ⟨⟨_, write 0 0 1 State.reset yes yes yes⟩, ⟨_, refused 0 0 32 faulty yes yes yes yes⟩,
    (take 0 0 0 _ _ _ _ named yes yes yes yes yes (acquired yes) (snd_some {} {} yes) yes yes).imp fun _ x => x.1,
    ⟨_, lost 0 0 _ unknown yes yes yes yes (snd_none yes)⟩, ⟨_, resident 0 0 [(0, 0)] _ fresh yes (some_of fresh yes)⟩,
    ⟨_, leave 0 0 { bound1 false with phase := .ended } leaves yes yes⟩,
    ⟨_, restore 0 0 [(0, 0)] _ away yes yes (some_of away yes)⟩, ⟨_, ends 0 share [] [] slice rfl nofun ?_⟩, ⟨_, none_ 0 State.reset nofun⟩,
    ⟨_, missed 0 0 { share with saving := some 0 } late yes yes⟩, ⟨_, none' 0 State.reset yes⟩, ⟨_, relaunch 0 0 again yes yes⟩,
    (paced { late with gtime := 100000 } yes).imp fun _ x => x.1, ⟨_, early State.reset yes⟩, (start 1 State.reset yes).imp fun _ x => x.1⟩
  exact ⟨yes, yes, yes, yes, yes⟩

/-- A packet of flow 3 from die 0 of device 1, to die 0's memory. -/
def packet (n : Nat) : Packet :=
  { sdev := 1, sdie := 0, flow := 3, seq := n, mode := 1, pa := 0x1000000000, data := [5], poison := false }

/-- An ordered flow of which packet 2 is due. -/
def openFlow : FlowRx := { sdev := 1, sdie := 0, flow := 3, ordered := true, next := 2 }

/-- The device after reset with an ordered flow at die 0's waystation, packets of which are held. -/
def withRx (held : List (Packet × Bool)) : State :=
  State.reset.modDie 0 fun x => { x with rx := [{ openFlow with held := held }] }

/-- A packet that was sent, and its flow at its source. -/
def sentPacket : Replay := { p := packet 0, sent := true, due := 0, timed := false }
def sentFlow : FlowTx := { flow := 3, dev := some 1, die := 0, ordered := true, sys := false, next := 1, naks := 0, hold := [], buf := [sentPacket] }

/-- The device after reset with a flow to device 1 at die 0, one packet of which was sent. -/
def withTx : State :=
  State.reset.modDie 0 fun x => { x with tx := [sentFlow] }

theorem slots_withRx (held : List (Packet × Bool)) :
    (withRx held).slotsUsed 0 = (((held.map (·.2)).filter (!·)).length, ((held.map (·.2)).filter id).length) := by
  have : (withRx held).die 0 = { State.reset.die 0 with rx := [{ openFlow with held := held }] } := rfl
  have h : (State.reset.die 0).ways = [] := rfl
  simp [State.slotsUsed, this, h]

/-- Held packets that take up the general slots, and the reserve's too. -/
def general : List (Packet × Bool) := List.replicate 16384 (packet 40, false)
def everySlot : List (Packet × Bool) := general ++ List.replicate 512 (packet 40, true)

theorem witness_HostAndPackets (h : Obligations.HostAndPackets) :
    let line := 0x80000000000 / 64
    let snoop := { State.reset with l2 := [{ heldSec with sector := line, dirty := 0 }] }
    let loose := State.reset.modDie 0 fun x => { x with rx := [{ openFlow with ordered := false }] }
    let inner := { withTx with wire := [.ack 0 3 0, .nak 0 3 0] }.modDie 0 fun x => { x with tx := [{ sentFlow with dev := none }] }
    let deaf := withTx.modDie 0 fun x => { x with tx := [{ sentFlow with dev := none }] }
    let arrives := fun (n : Nat) => Instr.packetArrival 0 (packet n)
    (Completes (.hostPostedWrite 0 0 0x1000000000 [5]) State.reset ∧ Completes (.hostPostedWrite 0 1 0 [5]) State.reset ∧
      Completes (.hostRead 0 0 0x1000000000 1) State.reset ∧ Completes (.cxlCacheSnoop 0 line true) snoop ∧
      Completes (.cxlCacheSnoop 0 line true) State.reset) ∧
    (Completes (.packetArrival 0 { packet 2 with mode := 2 }) (withRx []) ∧ Completes (arrives 1) (withRx []) ∧ Completes (arrives 2) (withRx []) ∧
      Completes (arrives 2) (withRx everySlot) ∧ Completes (arrives 3) (withRx []) ∧ Completes (arrives 3) (withRx general) ∧
      Completes (.packetArrival 0 { packet 2 with mode := 0 }) loose ∧ Completes (arrives 1) State.reset ∧
      Completes (.orderedDelivery 0 0) (withRx [(packet 2, false)]) ∧ Completes (.close 0 1 0 3) (withRx []) ∧
      Completes (.linkFrameReceive 0 true [packet 2]) (withRx []) ∧ Completes (.linkFrameReceive 0 false [packet 2]) (withRx [])) ∧
    Completes (.ack 0 3 0) withTx ∧ Completes (.nak 0 3 0) withTx ∧ Completes (.ack 0 3 0) inner ∧ Completes (.nak 0 3 0) inner ∧
      Completes (.ack 0 3 0) deaf ∧ Completes (.nak 0 3 0) deaf ∧ Completes (.packetResend 0 3 0) withTx ∧
      State.reset.launch_ 0 sentFlow (packet 0) = State.reset.emit (.packet 0 1 (packet 0)) := by
  intro line snoop loose inner deaf arrives
  obtain ⟨⟨posted, read, snooped, absent⟩, ⟨discard, ordered, unordered, noFlow, kept, close, frame⟩, ack, nak, unheard, resend, out⟩ := h
  have flow := fun (n : Nat) (held : List (Packet × Bool)) =>
    ordered 0 (packet n) { openFlow with held := held } (withRx held) (withRx held) (.inl ⟨by simp [packet], rfl, rfl⟩) (by simp [packet])
      (by simp [packet]) rfl rfl
  have g : (withRx general).generalFree 0 = false := by simp [State.generalFree, slots_withRx, general, -List.reduceReplicate]
  have e : (withRx everySlot).generalFree 0 = false ∧ (withRx everySlot).reserveFree 0 = false := by
    simp [State.generalFree, State.reserveFree, slots_withRx, everySlot, general, List.filter_append, -List.reduceReplicate]
  have new : ∀ y ∈ everySlot, y.1.seq ≠ 2 ∧ y.1.seq ≠ 3 := fun y m => by
    simp only [everySlot, general, List.mem_append, List.mem_replicate] at m
    obtain ⟨_, rfl⟩ | ⟨_, rfl⟩ := m <;> simp [packet]
  refine ⟨⟨⟨_, (posted 0 0 0x1000000000 [5] State.reset).1 [{ pa := 0x1000000000, val := 5 }] yes⟩, ⟨_, (posted 0 1 0 [5] State.reset).2 yes⟩,
      ⟨_, read 0 0 0x1000000000 1 State.reset yes⟩, ⟨_, snooped 0 line true snoop yes yes yes⟩, ⟨_, absent 0 line true State.reset (.inr (.inr yes))⟩⟩,
    ⟨⟨_, discard 0 { packet 2 with mode := 2 } (withRx []) (withRx []) (.inl ⟨yes, yes, rfl⟩) (.inr yes)⟩,
      ⟨_, (flow 1 []).1 (.inl yes)⟩, ⟨_, (flow 2 []).2.1 yes yes yes yes⟩,
      ⟨_, (flow 2 everySlot).2.2.1 yes (fun y m => (new y m).1) e.1 e.2⟩, ⟨_, (flow 3 []).2.2.2.1 yes yes yes yes⟩,
      ⟨_, (flow 3 general).2.2.2.2 yes yes (fun y m => (new y (List.mem_append_left _ m)).2) g⟩,
      ⟨_, unordered 0 { packet 2 with mode := 0 } { openFlow with ordered := false } loose loose (.inl ⟨yes, yes, rfl⟩) yes yes yes yes yes yes⟩,
      ⟨_, noFlow 0 (packet 1) State.reset State.reset (.inl ⟨yes, yes, rfl⟩) yes yes yes (.inl yes)⟩,
      ⟨_, kept 0 0 { openFlow with held := [(packet 2, false)] } (packet 2, false) (withRx [(packet 2, false)]) yes yes yes⟩,
      ⟨_, close 0 1 0 3 (withRx []) yes yes⟩, ⟨_, (frame 0 [packet 2] (withRx [])).2⟩, ⟨_, (frame 0 [packet 2] (withRx [])).1⟩⟩, ?_⟩
  exact ⟨⟨_, ack 0 3 0 withTx yes⟩, ⟨_, nak 0 3 0 withTx yes⟩, ⟨_, ack 0 3 0 inner yes⟩, ⟨_, nak 0 3 0 inner yes⟩, ⟨_, (unheard 0 3 0 deaf).1 yes⟩,
    ⟨_, (unheard 0 3 0 deaf).2 yes⟩, ⟨_, resend 0 3 0 sentFlow sentPacket withTx yes yes yes⟩, (out 0 1 sentFlow (packet 0) State.reset).1 rfl⟩

/-- The device after reset with entry e at the head of submission queue 0 of a function. -/
def withSq (fn e : Nat) : State :=
  let s := withBytes 0x800 (leBytes 64 e) (mapped State.reset)
  { s with fns := modifyAt s.fns fn fun f =>
      { f with sqs := f.sqs.set 0 { base := if fn = 0 then 0x1000000800 else 0x800, size := 16, head := 0, tail := 1 } } }

theorem witness_QueuesAndRegisters (h : Obligations.QueuesAndRegisters) :
    let waits := { State.reset with fns := modifyAt State.reset.fns 1 fun f => { f with cwait := f.cwait.set 0 (some (0, 0, 5)) } }
    let gone := { State.reset with launches := [{ lrec := { gangs := 0 } }] }
    let asked := { State.reset with ats := [(0, 0, 7)] }
    let busy := { State.reset with held := [.doorbell 1 0 3] }
    Completes (.sqDoorbell 1 0 3) State.reset ∧ Completes (.launch 0 0) (withSq 0 1) ∧ Completes (.cincEntry 1 0) (withSq 1 2) ∧
      Completes (.cwait 1 0) (withSq 1 3) ∧ Completes (.nopEntry 0 0) (withSq 0 4) ∧ Completes (.nopEntry 0 0) (withSq 0 0x204) ∧
      Completes (.nopEntry 0 0) (withSq 0 9) ∧ Completes (.cwaitSatisfied 1 0) waits ∧ Completes (.launchComplete 0) gone ∧
      Completes (.adminDoorbell 1 3) State.reset ∧ Completes (.staleprWrite 1) State.reset ∧ Completes (.registerWrite 1 8 5) State.reset ∧
      Completes (.atsTranslationReply 0 0x7000 true true 0x9000) asked ∧ Completes (.atsInvalidationRequest 0 0 4096) State.reset ∧
      Completes (.pageRequestGroupResponse 0 4 0) State.reset ∧ busy.serve (.doorbell 1 0 4) id = { busy with held := [.doorbell 1 0 3, .doorbell 1 0 4] } := by
  intro waits gone asked busy
  obtain ⟨⟨ring, entry, satisfied, complete⟩, admin, stale, register, reply, inval, page, later⟩ := h
  refine ⟨⟨_, ring 1 0 3 State.reset yes⟩, ⟨_, ((entry 0 0 1 (withSq 0 1) yes).1 yes).1 yes⟩,
    ⟨_, ((entry 1 0 2 (withSq 1 2) yes).1 yes).2.1 yes yes yes⟩, ⟨_, ((entry 1 0 3 (withSq 1 3) yes).1 yes).2.2.1 yes yes⟩,
    ⟨_, ((entry 0 0 4 (withSq 0 4) yes).1 yes).2.2.2 yes⟩, ⟨_, (entry 0 0 0x204 (withSq 0 0x204) yes).2.1 yes yes⟩,
    ⟨_, (entry 0 0 9 (withSq 0 9) yes).2.2 yes⟩, ⟨_, satisfied 1 0 0 0 5 waits yes yes⟩, ⟨_, complete 0 gone yes yes yes yes yes yes yes⟩, ?_⟩
  refine ⟨⟨_, admin 1 3 State.reset yes⟩, ⟨_, stale 1 State.reset⟩, ⟨_, register 1 8 5 State.reset yes⟩,
    (reply 0 0x7000 0x9000 true true (0, 0, 7) asked yes).imp fun _ x => x.1, (inval 0 0 4096 State.reset).imp fun _ x => x.1,
    ⟨_, page 0 4 0 State.reset yes yes⟩, ?_⟩
  rw [later (.doorbell 1 0 4) id busy yes]
  rfl

/-- The device after reset with entry e at the head of function 0's admin queue. That an object or an image verifies is not for a concrete one to
show: the hash and the signatures are free (R394, R398). -/
def withAdmin (e : Nat) : State :=
  let s := withBytes 0x800 (leBytes 64 e) (mapped State.reset)
  { s with fns := modifyAt s.fns 0 fun f => { f with adminq := 0x1000000804, admindb := 1, images := [(0, 0x1000)] } }

theorem pair_ok {α β : Type} [DecidableEq β] {x : α × β} {b : β} (h : decide (x.2 = b) = true) : x = (x.1, b) := by
  obtain ⟨_, y⟩ := x
  simpa using h

theorem witness_AdminCommands (h : Obligations.AdminCommands) :
    let cmd : AdminCmd := { fn := 0, target := 0, tag := 0, addr := 0, arg1 := 0, arg2 := 0 }
    let keyed := withAdmin 4
    let launched := { keyed with launches := [{ lpa := 0x1000000000 }], saved := [{ saved1 with state := 3 }] }
    let loading := { keyed with fns := modifyAt keyed.fns 0 fun f => { f with loading := some (0x5000, 64) } }
    let staged := { keyed with fw := keyed.fw.setOther { staged := true } }
    let verified := (Config.fwImage []).2.2 = true ∧ Config.fusedMinimum ≤ (Config.fwImage []).2.1
    Completes (.keyreg 0) (withAdmin 0x10004) ∧ Completes (.keyreg 0) keyed ∧ Completes (.codefree 0) (withAdmin 3) ∧
      Completes (.fwact 0) { withAdmin 0x21 with fw := staged.fw } ∧
      (State.qreg { cmd with arg1 := 0x400 } keyed).2 = some (0, 0) ∧ (State.keyreg cmd keyed).2 = some (0, 0) ∧
      (State.pagereg { cmd with arg2 := 1, target := 1 } keyed).2 = some (0, 0) ∧
      (State.abandonLaunch { cmd with addr := 0x1000000000 } launched).2 = some (0, 0) ∧
      (State.resumeGroup { cmd with addr := 0x1000000000 } launched).2 = some (0, 0) ∧ (State.setTrace cmd keyed).2 = some (0, 0) ∧
      (State.codefree cmd keyed).2 = some (0, 0) ∧ (State.keyreg { cmd with addr := 0x1000000040 } keyed).2 = some (0, 0) ∧
      (State.codeload cmd keyed).2 = some (7, 1) ∧
      (∀ code, verifyObject (keyed.fns.getD 0 {}).keys [] = .ok code → (State.codeload cmd keyed).2 = none) ∧
      (State.codeload cmd loading).2 = some (0, 0x5000) ∧
      (verified → (State.fwstage cmd keyed).2 = some (0, 0)) ∧ (¬ verified → (State.fwstage cmd keyed).2 = some (7, 0)) ∧
      (State.fwact cmd staged).2 = none ∧ (State.fwact cmd keyed).2 = some (1, 0) := by
  intro cmd keyed launched loading staged verified
  obtain ⟨runs, qreg, unkey, pagereg, launch, trace, codefree, keyreg, load, loaded, stage, act, unstaged⟩ := h
  have at1 := launch { cmd with addr := 0x1000000000 } 0 launched yes
  have fw := stage cmd keyed yes yes (fun _ x => absurd x (Nat.not_lt_zero _))
  refine ⟨⟨_, (runs (.keyreg 0) 0 4 0x10004 State.keyreg (withAdmin 0x10004) rfl yes yes).1 2 yes⟩,
    ⟨_, (runs (.keyreg 0) 0 4 4 State.keyreg keyed rfl yes yes).2.1 yes _ 0 0 (unkey _ keyed yes yes)⟩,
    ⟨_, (runs (.codefree 0) 0 3 3 State.codefree (withAdmin 3) rfl yes yes).2.1 yes _ 0 0 (codefree _ (0, 0x1000) (withAdmin 3) yes yes)⟩,
    ⟨_, (runs (.fwact 0) 0 0x21 0x21 State.fwact { withAdmin 0x21 with fw := staged.fw } rfl yes yes).2.2 yes _
      (act _ { withAdmin 0x21 with fw := staged.fw } yes)⟩, ?_⟩
  have object := fun (code : List Byte) => load cmd _ [] code keyed yes yes (pair_ok yes)
  refine ⟨congrArg (·.2) (qreg { cmd with arg1 := 0x400 } keyed yes yes), congrArg (·.2) (unkey cmd keyed yes yes),
    congrArg (·.2) (pagereg { cmd with arg2 := 1, target := 1 } keyed yes yes yes yes), congrArg (·.2) at1.1,
    congrArg (·.2) (at1.2.2 { saved1 with state := 3 } yes yes), congrArg (·.2) (trace cmd keyed yes),
    congrArg (·.2) (codefree cmd (0, 0x1000) keyed yes yes),
    congrArg (·.2) (keyreg { cmd with addr := 0x1000000040 } _ (List.replicate 64 0) keyed yes yes (pair_ok yes)),
    congrArg (·.2) ((object []).1 1 yes),
    fun code v => congrArg (·.2) ((object code).2 v yes), congrArg (·.2) (loaded cmd 0x5000 64 loading yes yes), ?_, ?_, congrArg (·.2) (act cmd staged yes), congrArg (·.2) (unstaged cmd keyed yes)⟩
  · exact fun v => congrArg (·.2) (fw.1 yes v.1 v.2)
  · refine fun v => congrArg (·.2) (fw.2 (.inr ?_))
    by_cases a : (Config.fwImage []).2.2 = true
    · exact .inr (Nat.lt_of_not_le fun b => v ⟨a, b⟩)
    · exact .inl (Bool.eq_false_iff.mpr a)

theorem witness_FirmwareAndPower (h : Obligations.FirmwareAndPower) :
    let quiet := { State.reset with fw := { phase := .quiescing } }
    let hand := { State.reset with fw := { phase := .handover }, gtime := 50000000 }
    Completes .fwHandover quiet ∧ Completes (.fwHeartbeat true) hand ∧ Completes (.fwHeartbeat false) hand ∧ Completes .fwRollback hand ∧
      Completes .duneshFailover State.reset ∧ Completes .getVersion State.reset ∧ Completes .getCapabilities State.reset ∧
      Completes .negotiateAlgorithms State.reset ∧ Completes .getDigests State.reset ∧ Completes .getCertificate State.reset ∧
      Completes (.challenge 5) State.reset ∧ Completes (.getMeasurements 0) State.reset ∧ Completes .powerOn State.reset ∧
      Completes .thermalThrottle State.reset ∧ Completes .thermalTrip State.reset := by
  intro quiet hand
  have s := h.2.2.2.2.1 State.reset
  exact ⟨⟨_, h.1 quiet rfl⟩, ⟨_, (h.2.1 hand rfl yes).1⟩, ⟨_, (h.2.1 hand rfl yes).2⟩, ⟨_, h.2.2.1 hand rfl
      yes⟩, ⟨_, h.2.2.2.1 State.reset rfl⟩,
    ⟨_, s.1⟩, ⟨_, s.2.1⟩, ⟨_, s.2.2.1⟩, ⟨_, s.2.2.2.1⟩, ⟨_, s.2.2.2.2.1⟩, (s.2.2.2.2.2.1 5).elim fun _ x => ⟨_, x⟩,
    (s.2.2.2.2.2.2 0).elim fun _ x => ⟨_, x⟩, (h.2.2.2.2.2.1 State.reset).imp fun _ x => x.1, ⟨_, h.2.2.2.2.2.2.1 State.reset yes⟩,
    (h.2.2.2.2.2.2.2 State.reset).imp fun _ x => x.1⟩

theorem witness_ScansLinksAndResets (h : Obligations.ScansLinksAndResets) :
    let slot := { State.reset with scan := { active := true } }
    let busy := { world (.nop plain) with scan := { active := true }, gtime := 1000000 }
    let runs := { State.reset with scan := { active := true, running := true, since := 5 }, gtime := 9 }
    let twice := { State.reset with scan := { active := true, running := true, second := true } }
    let jobs := withJobs [job porter] (world (.nop plain))
    let aborts := { State.reset with resets := [3] }
    Completes .scanSlotStart State.reset ∧ Completes .scanRun slot ∧ Completes .scanDefer busy ∧ Completes (.scanResult true none) runs ∧
      Completes (.scanResult false none) runs ∧ Completes (.scanResult false (some (0, 1))) twice ∧
      11 ≤ ((List.range 16).filter fun i => (at_ (0 : BitVec 16) ((({} : Core).retireLane 0 1).getD {}).maps 0).getLsbD i).length ∧
      Completes (.eyeMarginWindow 0 true) State.reset ∧ Completes (.linkRetrainDone 0) State.reset ∧ Completes (.linkRateRaise 0) State.reset ∧
      Completes (.linkReset 0) State.reset ∧ Completes (.engineReset 0 false) State.reset ∧ Completes (.engineReset 0 true) State.reset ∧
      Completes (.engineReset 0 false) jobs ∧ Completes (.partitionReset 3) State.reset ∧ Completes (.partitionResetComplete 3) aborts ∧
      Completes (.functionLevelReset 1) State.reset ∧ Completes .vfEnableClear State.reset := by
  intro slot busy runs twice jobs aborts
  have l := h.1.2.2.2.2.1 0 State.reset
  have g := h.1.2.2.2.2.2
  exact ⟨⟨_, h.1.1 State.reset yes yes yes⟩, ⟨_, (h.1.2.1 slot rfl rfl).1 yes⟩, ⟨_,
      (h.1.2.1 busy rfl rfl).2 yes yes⟩,
    ⟨_, (h.1.2.2.1 none runs rfl rfl).1⟩, ((h.1.2.2.1 none runs rfl rfl).2.1 rfl).imp fun _ x => x.1,
    ⟨_, (h.1.2.2.1 (some (0, 1)) twice rfl rfl).2.2 rfl 0 1 _ rfl (some_of {} yes)⟩,
    (h.1.2.2.2.1 0 1 {} _ (some_of {} yes)).2, ⟨_, l.1⟩, l.2.2.1.imp fun _ x => x.1, ⟨_, l.2.2.2.1⟩, ⟨_, l.2.2.2.2⟩,
    ⟨_, (g 0 State.reset).1⟩, ⟨_, (g 0 State.reset).2⟩, ⟨_, (g 0 jobs).1⟩,
    (h.2.1 3 State.reset yes yes).imp fun _ x => x.1, (h.2.2.1 3 aborts yes yes
      yes).imp fun _ x => x.1,
    ⟨_, h.2.2.2.1 1 State.reset yes yes yes⟩, (h.2.2.2.2 State.reset yes).imp fun _ x
      => x.1⟩

/-- A device on which Lantern examines the small states' group, and knows the kernel whose header lies at 0x200. -/
def examining : State :=
  let s := withBytes 0x200 headerBytes (mapped (world (.nop plain)))
  { s with
    lantern := { fn := 1, asid := 1, space := 0x300, kernels := [{ hdr := 0x200 }], launch := some 0 }
    fns := modifyAt s.fns 1 fun f => { f with images := [(0, 0x1000)], sqs := f.sqs.set 0 { base := 0x800, size := 16 } } }

theorem witness_LanternCommands (h : Obligations.LanternCommands) :
    Completes (.lanternLoad 0) examining ∧ Completes (.lanternBreak 0 8) examining ∧ Completes .lanternDeleteAll examining ∧
      Completes .lanternEvict examining ∧ Completes (.lanternRun 0 []) examining ∧ Completes (.lanternCont 1) examining ∧
      Completes (.lanternPrint 0 0 [(0, 4)]) examining ∧ Completes (.lanternMem 0 0 1) examining ∧ Completes (.lanternDis 0 1) examining ∧
      Completes (.lanternCinc 3 1) examining :=
  ⟨⟨_, h.1 0 (0, 0x1000) examining yes⟩, ⟨_, h.2.1 0 8 examining yes yes⟩, ⟨_, (h.2.2.1
      examining).1⟩, ⟨_, (h.2.2.1 examining).2⟩,
    (h.2.2.2.1 0 { hdr := 0x200 } [] headerBytes 0x1000000300 (headerOf _) _ examining rfl yes yes (taken_of
      yes)).imp fun _ x => x.1,
    (h.2.2.2.2.1 1 0 0 examining yes).imp fun _ x => x.1, ⟨_, h.2.2.2.2.2.1 0 0 [(0, 4)] 0 0 0 examining yes
      yes⟩,
    ⟨_, h.2.2.2.2.2.2.1 0 0 1 0 0 examining yes⟩, ⟨_, h.2.2.2.2.2.2.2.1 0 1 0 0 examining yes⟩, ⟨_, h.2.2.2.2.2.2.2.2
      3 1 examining yes⟩⟩

/-- A base instruction, and one with a word in front. -/
def addOne : Instr := .iadd plain (vd 4) (.v 5) (.imm 1)
def addWide : Instr := .iadd (withE (.v 0)) (vd 4) (.v 5) (.imm 1)

/-- A device about to issue the fused sequence (R253). -/
def softmax : State :=
  withBytes 0x40 (([.rmaxf plain (vd 3) (.v 1), .fsub plain (vd 4) (.v 1) (.v 3), .fexp plain (vd 5) (.v 4), .raddf plain (vd 6) (.v 5)] :
    List Instr).flatMap fun i => (wordsOf i).toBytes) (world (.nop plain) 1 id fun g => { g with hdr := { g.hdr with codesize := 64 } })

/-- The split that a state chooses, in its turn, and what it needs of its code. -/
def choosing (s : State) : State := { { s with agenda := [] }.ageOthers ⟨0, 0, 0⟩ with cur := ⟨0, 0, 0⟩ }
def codeOf (s : State) (n : Nat) : Came × State := (choosing s).keepCode ⟨0, 0, 0⟩ n

theorem came_of {x : Came × State} (h : decide (x.1 = .ready) = true) : x = (.ready, x.2) := by
  obtain ⟨_, _⟩ := x
  simpa using h

theorem witness_StepRunsDecoded (h : Obligations.StepRunsDecoded) :
    let away := spent (world addOne)
    let cached := (codeOf (world addOne) 8).2
    step (world addOne) = exec addOne (codeOf (world addOne) 8).2 ∧ step softmax = exec (.fusedSoftmax 0 3 1 4 5 6) (codeOf softmax 32).2 ∧
      step away = .next (codeOf away 8).2 ∧ cached.keepCode ⟨0, 0, 0⟩ 8 = (.ready, cached) ∧
      (world addOne).fetch ⟨0, 0, 0⟩ = .instr addOne { w := (0x00C00000#32) ++ (0x10504010#32) } ∧
      (∃ p w, (world addWide).fetch ⟨0, 0, 0⟩ = .instr addWide { pw := some p, w := w }) ∧
      step State.reset = exec .powerOn { State.reset with agenda := [] } ∧
      ∃ t, step { State.reset with agenda := [.time 5 1] } = .next t ∧ t.gtime = 5 := by
  intro away cached
  obtain ⟨⟨issue, kept, fetch⟩, event, time⟩ := h
  have first := fun (s : State) i x h1 h2 h3 => issue s 0 0 ⟨0, 0, 0⟩ [] i x h1 h2 h3
  have at0 := fun (i : Instr) a b => fetch (world i) ⟨0, 0, 0⟩ { pc := 0, mask := 1 } a b i
  exact ⟨(first (world addOne) addOne (wordsOf addOne) rfl rfl yes yes yes).1 _ yes (came_of yes),
    (first softmax (.rmaxf plain (vd 3) (.v 1)) (wordsOf (.rmaxf plain (vd 3) (.v 1))) rfl rfl yes yes yes).2.1 _ _ yes (came_of yes),
    (first away addOne (wordsOf addOne) rfl rfl yes yes yes).2.2 _ _ yes yes rfl,
    kept cached ⟨0, 0, 0⟩ { pc := 0, mask := 1 } 8 yes yes,
    (at0 addOne 0x10504010 0x00C00000 yes yes yes yes yes yes).1 yes yes yes,
    ⟨_, _, (at0 addWide 0x000000F0 0x10504010 yes yes yes yes yes yes).2 0x00C00000 yes yes yes yes⟩,
    event State.reset .powerOn [] rfl rfl rfl,
    (time { State.reset with agenda := [.time 5 1] } 5 1 [] rfl rfl).imp fun _ y => ⟨y.1, y.2.1⟩⟩

theorem witness_TrippedDeviceStandsStill (h : Obligations.TrippedDeviceStandsStill) :
    step { State.reset with tripped := true, agenda := [.time 5 1] } = .next { State.reset with tripped := true, agenda := [] } :=
  h { State.reset with tripped := true, agenda := [.time 5 1] } rfl (by simp)

theorem witness_EncodingRoundTrip (h : Obligations.EncodingRoundTrip) :
    decode ((wordsOf addWide).toBytes ++ [7]) = .ok (addWide, [7]) :=
  h _ _ [7] yes yes

theorem witness_DecodeIsLocal (h : Obligations.DecodeIsLocal) :
    decode ((wordsOf (.nop plain)).toBytes ++ [7]) = .ok (.nop plain, [7]) :=
  (h (wordsOf (.nop plain)).toBytes [7] [] (.nop plain) yes).1

/-- The state that a step gives. -/
def after (s : State) : State :=
  match step s with
  | .next t => t
  | .fault _ => s
  | .refused _ => s

/-- Whether a step gives a next state. -/
def goesOn (s : State) : Bool :=
  match step s with
  | .next _ => true
  | .fault _ => false
  | .refused _ => false

theorem after_of {s : State} (h : goesOn s = true) : step s = .next (after s) := by
  simp only [goesOn, after] at *
  split at h <;> simp_all

theorem witness_MemoryStaysCanonical (h : Obligations.MemoryStaysCanonical) : Memory.wf (after (world (.nop plain))).mem = true :=
  h (world (.nop plain)) _ yes (after_of yes)

theorem witness_RegisterFrame (h : Obligations.RegisterFrame) :
    let i := Instr.iadd plain (vd 4) (.v 5) (.imm 1)
    let f := Instr.fadd plain (vd 4) (.v 5) (.v 6)
    Completes i (world i) ∧ Completes f (world f) := by
  intro i f
  exact ⟨(h i _ (vd 4) (world i) (.inl ⟨_, rfl, rfl, rfl⟩) (issues_of yes) (usable_of yes) yes
      yes).imp fun _ x => x.1,
    (h f _ (vd 4) (world f) (.inr ⟨_, rfl, rfl, rfl⟩) (issues_of yes) (usable_of yes) yes
      yes).imp fun _ x => x.1⟩

theorem witness_StoreFrame (h : Obligations.StoreFrame) :
    let i := Instr.st plain 4 false .w32 0 0
    let s := { State.reset with l2 := [{ heldSec with dirty := 0 }] }
    Completes i (world i) ∧ (s.writeSector 0 {} {} heldSec.sector [(3, 9)] false).dieByte 0 {} (heldSec.sector * 64 + 3) = 9 := by
  intro i s
  exact ⟨(h.1 i _ (world i) rfl (issues_of yes) (usable_of yes) yes rfl yes _ _ (some_of [] yes) (val_of (d := []) yes) yes).imp fun _ x => x.1,
    h.2 s 0 heldSec.sector {} {} [(3, 9)] false { heldSec with dirty := 0 } yes yes yes yes yes yes yes yes yes yes 3 yes⟩

/-- The device after reset with entry 0 of partition 0's map. -/
def withEntry (n : Nat) : State := withBytes 0x20000 (leBytes 8 n) { State.reset with pmap := [(0, 0x1000020000)] }

/-- A page that may be read, and neither written nor fetched. -/
def fixed : Tlb := { placedTlb with entry := 0x13 }
/-- A page whose stage-2 entry forbids writes. -/
def guarded : Tlb := { placedTlb with w2 := false }

theorem witness_TranslationPermissions (h : Obligations.TranslationPermissions) :
    State.reset.mapEntry 0 0 0 = State.reset.entryAt 0 ∧
      State.reset.stage2 0 0 0 = .error (some 0x16) ∧ (withEntry 9).stage2 0 0 0 = .error (some 0x17) ∧
      (withEntry 1).stage2 0 0 0 = .error (some 0x18) ∧ (∃ w x, (withEntry 0x1000000003).stage2 0 0 0 = .ok (0x1000000000, w, x)) ∧
      (∃ f, State.reset.walkFrom 0 0 1 0 0 [4] 0 [] = (.fault f, [0]) ∧ f.cause = 0x16) ∧
      (∃ f, State.reset.leafCheck fixed .write .any true 0x1000000000 = .error f ∧ f.cause = 0x14) ∧
      (∃ f, State.reset.leafCheck guarded .write .any true 0x1000000000 = .error f ∧ f.cause = 0x19) ∧ placedTlb.w2 = true := by
  obtain ⟨plainMap, entry, walk, leaf, granted⟩ := h
  exact ⟨plainMap State.reset 0 0 0 yes, (entry State.reset 0 0 0 0 yes).1 yes, (entry (withEntry 9) 0 0 0 9 yes).2.1 yes yes,
    (entry (withEntry 1) 0 0 0 1 yes).2.2.1 yes yes yes yes,
    ⟨_, _, (entry (withEntry 0x1000000003) 0 0 0 0x1000000003 yes).2.2.2 yes yes yes yes⟩,
    (walk State.reset 0 0 1 0 0 0 4 0x16 [] [] yes).imp fun _ x => ⟨x.1, x.2.1⟩,
    ((leaf State.reset fixed .write true 0x1000000000 yes).1 yes).imp fun _ x => ⟨x.1, x.2.1⟩,
    ((leaf State.reset guarded .write true 0x1000000000 yes).2 yes yes yes).imp fun _ x => ⟨x.1, x.2.1⟩,
    ((granted (world (.nop plain)) placedTlb .write .any true 0x1000000000 _ (val_of (d := {}) yes)).1 rfl).2⟩

end Sys2Proof.Tests
end

section

namespace Sys2Proof.Machine

/-! ### Stage 2 (R29, R30) -/

/-- With nothing in a die's partition-map cache, a lookup reads the entry in memory (R29, R33). -/
theorem State.mapEntry_of_maps_nil (s : State) (d part ipa : Nat) (h : (s.die d).maps = []) :
    s.mapEntry d part ipa = s.entryAt (get 0 s.pmap part + field ipa 47 30 * 8) := by
  simp [State.mapEntry, h]

section
variable {s : State} {d part ipa e : Nat} (h : s.mapEntry d part ipa = (e, false))
include h

/-- R30, first row: V = 0. -/
theorem State.stage2_invalid (hv : e % 2 = 0) : s.stage2 d part ipa = .error (some 0x16) := by
  simp [State.stage2, h, tbit, hv]

/-- R30, second row: a reserved bit is set. -/
theorem State.stage2_reserved (hv : e % 2 = 1) (hr : field e 63 52 ≠ 0 ∨ field e 29 3 ≠ 0) :
    s.stage2 d part ipa = .error (some 0x17) := by
  simp [State.stage2, h, tbit, hv, hr]

/-- R30, third row: the frame lies in a range that no partition may map. -/
theorem State.stage2_range (hv : e % 2 = 1) (hh : field e 63 52 = 0) (hl : field e 29 3 = 0)
    (hk : paKind (field e 51 30 * 2 ^ 30) = .control ∨ paKind (field e 51 30 * 2 ^ 30) = .onchip ∨
      paKind (field e 51 30 * 2 ^ 30) = .reserved) : s.stage2 d part ipa = .error (some 0x18) := by
  rcases hk with hk | hk | hk <;> simp [-Nat.reducePow, State.stage2, h, tbit, hv, hh, hl, hk]

theorem State.stage2_ok (hv : e % 2 = 1) (hh : field e 63 52 = 0) (hl : field e 29 3 = 0)
    (hk : paKind (field e 51 30 * 2 ^ 30) = .hbm ∨ paKind (field e 51 30 * 2 ^ 30) = .host ∨
      paKind (field e 51 30 * 2 ^ 30) = .peer) :
    s.stage2 d part ipa = .ok (field e 51 30 * 2 ^ 30 + ipa % 2 ^ 30, tbit e 1, tbit e 2) := by
  rcases hk with hk | hk | hk <;> simp [-Nat.reducePow, State.stage2, h, tbit, hv, hh, hl, hk]

end

/-- A walk whose table's own stage-2 lookup is refused ends there with that cause (R30). -/
theorem State.walkFrom_refused {s : State} {d agent asid va part ipa l c : Nat} {ls seen : List Nat}
    (h : s.stage2 d part ipa = .error (some c)) :
    s.walkFrom d agent asid va part (l :: ls) ipa seen =
      (.fault { cause := c, level := l, s2 := true, rank := rankOf l (0 + (c - 0x16)) }, seen ++ [ipa]) := by
  simp [State.walkFrom, h, s2End]

/-! ### Permissions of both stages (R31) -/

/-- Whether a leaf forbids an access by its U, W or X. -/
def Tlb.forbids (t : Tlb) (k : AccKind) (user : Bool) : Bool :=
  (user && !t.entry.getLsbD 4) || (k.writes && !t.entry.getLsbD 2) || (k = .fetch && !t.entry.getLsbD 3)

/-- Whether the stage-2 entry behind a leaf forbids an access by its W or X. -/
def Tlb.forbids2 (t : Tlb) (k : AccKind) : Bool := (k.writes && !t.w2) || (k = .fetch && !t.x2)

section
variable {s : State} {t : Tlb} {k : AccKind} {user : Bool} {pa : Nat}

/-- What a leaf forbids is PERM. -/
theorem State.leafCheck_of_forbids (h : t.forbids k user = true) :
    s.leafCheck t k .any user pa =
      .error { cause := 0x14, level := levelOf t.size, rank := rankOf (levelOf t.size) 6 } := by
  unfold Tlb.forbids at h
  simp [-BitVec.getLsbD_eq_getElem, State.leafCheck, tbit_toNat, h]

/-- What a leaf allows and its stage-2 entry forbids is S2PERM. -/
theorem State.leafCheck_of_forbids2 (h : t.forbids k user = false) (h2 : t.forbids2 k = true) :
    s.leafCheck t k .any user pa =
      .error { cause := 0x19, level := levelOf t.size, s2 := true, rank := rankOf (levelOf t.size) 10 } := by
  unfold Tlb.forbids at h
  unfold Tlb.forbids2 at h2
  simp [State.leafCheck, tbit_toNat, h2]
  simpa using h

/-- What is permitted, neither stage forbids. -/
theorem State.not_forbids_of_leafCheck {u : LeafUse} {a : Attr} (h : s.leafCheck t k u user pa = .ok a) :
    t.forbids k user = false ∧ t.forbids2 k = false := by
  unfold State.leafCheck at h
  simp only [tbit_toNat] at h
  split at h
  · cases h
  split at h
  · cases h
  rename_i h1
  split at h
  · cases h
  rename_i h2
  unfold Tlb.forbids Tlb.forbids2
  grind

end
end Sys2Proof.Machine

namespace Sys2Proof.AddressSpaces
open Sys2Proof.Machine

/-- Settles O60: the four rows of R30 in their order, the walk that meets one, and the two stages of R31. -/
theorem translationPermissions : Obligations.TranslationPermissions := by
  refine ⟨State.mapEntry_of_maps_nil, fun s d part ipa e h => ⟨State.stage2_invalid h, State.stage2_reserved h,
      State.stage2_range h, fun hv hh hl hk => State.stage2_ok h hv hh hl hk⟩,
    fun s d agent asid va part ipa l c ls seen h => ⟨_, State.walkFrom_refused h, rfl, rfl, rfl⟩,
    fun s t k user pa hu => ⟨fun h => ⟨_, State.leafCheck_of_forbids ?_, rfl, rfl⟩,
      fun hw hx h => ⟨_, State.leafCheck_of_forbids2 (user := user) ?_ ?_, rfl, rfl⟩⟩,
    fun s t k u user pa a h => ?_⟩
  · unfold Tlb.forbids; grind
  · unfold Tlb.forbids; grind
  · unfold Tlb.forbids2; grind
  · obtain ⟨h1, h2⟩ := State.not_forbids_of_leafCheck h
    unfold Tlb.forbids at h1
    unfold Tlb.forbids2 at h2
    grind

end Sys2Proof.AddressSpaces
end

section

namespace Sys2Proof.AddressSpaces
open Sys2Proof.Machine

/-! ### A refusal whose cause is the alignment cause -/

/-- A two-lane load of words of global memory through v2:v3. -/
def strayLoad : Instr := .ld { la := 0, ru := false, pfx := none } 10 false .w32 2 0

/-- A device in which lanes 0 and 1 of a warp are about to load from 1 and from 0, and a walk is said to have refused the page of both with
cause 0x0A, which no walk gives. -/
def strayRefusal : State :=
  ({ State.reset with
      cores := modifyAt State.reset.cores 0 fun k => { k with
        rooms := k.rooms.set 0 { group := some { phase := .resident, hdr := { allot := 16 } } }
        warps := [(0, some { splits := [some { pc := 0, mask := 3 }, none, none, none] })] }
      walked := [{ who := .split ⟨0, 0, 0⟩, asid := 0, va := 0, write := false, fetch := false, cause := 0x0A, level := 1, s2 := false, key := 0,
                   rank := 0, poison := false }] } : State).setVreg 0 0 2 0 { data := 1 }

/-- sr.trapcause of the warp in slot 0 of core 0. -/
def trapCause (o : Host.Outcome State Fault Refusal) : W64 :=
  match o with
  | .next t => (t.warp 0 0).trap.cause
  | .fault _ | .refused _ => 0

/-- Refutes O59: the alignment trap of `firstFault` names every lane whose check has the cause 0x0A, a lane that a recorded refusal of a walk
gives it too. In `strayRefusal` lane 1 is aligned, and the trap names lanes 0 and 1 where the statement names lane 0 alone. -/
theorem not_effectiveAndMisalignedAddresses : ¬ Obligations.EffectiveAndMisalignedAddresses := by
  rintro ⟨-, h⟩
  have usable : (strayRefusal.seen strayLoad).Usable (strayRefusal.seen strayLoad).act
      (dstNeed (Size.regs .w32) ⟨false, 10⟩ ++ addrNeeds .glob (.v 2) (.imm 0)) :=
    ⟨by decide +kernel, by decide +kernel, by decide +kernel⟩
  have trap := h strayLoad _ .read strayRefusal (.inl ⟨rfl, rfl⟩) (by unfold State.Issues; decide +kernel) usable (by decide +kernel)
    (by decide +kernel) [(0, 1), (1, 0)] 0 1 (by decide +kernel) (by decide +kernel)
  exact absurd (congrArg trapCause trap) (by decide +kernel)

end Sys2Proof.AddressSpaces
end

section

namespace Sys2Proof.Machine

/-! ### Key slots (R36) -/

@[simp] theorem State.dropSec_keySlots (s : State) (e sector : Nat) : (s.dropSec e sector).keySlots = s.keySlots := rfl
@[simp] theorem State.setSec_keySlots (s : State) (x : L2Sec) : (s.setSec x).keySlots = s.keySlots := rfl

@[simp] theorem State.forgetSec_keySlots (s : State) (x : L2Sec) : (s.forgetSec x).keySlots = s.keySlots := by
  unfold State.forgetSec
  split <;> rfl

@[simp] theorem State.foldl_forgetSec_keySlots (xs : List L2Sec) (s : State) :
    (xs.foldl (fun s x => s.forgetSec x) s).keySlots = s.keySlots := by
  induction xs generalizing s with
  | nil => rfl
  | cons x r ih => rw [List.foldl_cons, ih, State.forgetSec_keySlots]

/-- A slot under destruction that no write on its way names becomes empty. -/
theorem State.keyDestroyed_keySlots {s : State} {k : Nat} (h : s.keySlots.getD k .empty = .destroying)
    (hn : ∀ r ∈ s.net, r.key ≠ some k) : (s.keyDestroyed k).keySlots = s.keySlots.set k .empty := by
  have hn' : s.net.any (fun r => r.key = some k) = false := by simpa using hn
  simp only [State.keyDestroyed, h, hn']
  simp

/-! ### Invalidations (R139 to R141) -/

/-- Closing an epoch leaves alone what waits to be invalidated. -/
@[simp] theorem State.closeEpoch_invals (s : State) (d : Nat) : (s.closeEpoch d).invals = s.invals := by
  unfold State.closeEpoch
  rw [(State.OnlyTraffic.sendMarks _ d).rest]
  rfl

theorem State.invalBegin_none {s : State} (h : s.inval = none) (i : Inval) : s.invalBegin i = s.invalStart i := by
  simp [State.invalBegin, h]

theorem State.invalBegin_some {s : State} {v : InvalRun} (h : s.inval = some v) (i : Inval) :
    s.invalBegin i = { s with invals := s.invals ++ [i] } := by
  simp [State.invalBegin, h]

/-- What an agent's receipt of an invalidation takes from its instruction cache, or from its die's partition-map cache (R139, R142). -/
def State.purged (s : State) (a : Nat) (i : Inval) : State :=
  if a < 64 then s.modCore a fun k => { k with code := k.code.filter fun l => !invalHitsCode i l }
  else if 136 ≤ a then s.modDie (a - 136) fun d => { d with maps := d.maps.filter fun m => !invalHitsMap i m }
  else s

/-- What else an agent forgets at a receipt, its own receipt recorded. -/
def State.received (s : State) (a : Nat) (v : InvalRun) : State :=
  { s with
    tlb := s.tlb.filter fun t => !(t.agent = a && invalHits v.i t)
    walked := s.walked.filter fun w => !(w.who.agent = a && invalHitsAnswer v.i w)
    atc := match v.i with
      | .ipa _ _ _ => if a < 128 || 136 ≤ a then s.atc else s.atc.filter fun x => x.die ≠ a - 128
      | _ => s.atc
    inval := some { v with got := setInsert v.got a } }

section
variable {s : State} {v : InvalRun} {a : Nat} (h : s.inval = some v)
include h

theorem State.invalReceipt_early (he : s.ackedEpoch v.die < v.epoch) : s.invalReceipt a = s := by
  simp [State.invalReceipt, h, he]

theorem State.invalReceipt_eq (ha : a < 144) (hg : a ∉ v.got) (he : v.epoch ≤ s.ackedEpoch v.die) :
    s.invalReceipt a = (s.purged a v.i).received a v := by
  have proceeds : ¬ (v.got.contains a || !invalAgents.contains a || s.ackedEpoch v.die < v.epoch) = true := by
    simp [invalAgents, hg, ha, he]
  unfold State.invalReceipt
  simp only [h]
  rw [if_neg proceeds]
  rfl

theorem State.invalDrained_eq (hg : a ∈ v.got) (hk : a ∉ v.acked) (hd : s.drained a = true) :
    s.invalDrained a = { s with inval := some { v with acked := setInsert v.acked a } } := by
  simp [State.invalDrained, h, hg, hk, hd]

section
variable (hk : ∀ a < 144, a ∈ v.acked)
include hk

/-- The last invalidation completes. -/
theorem State.invalComplete_last (hi : s.invals = []) :
    s.invalComplete = { s.closeEpoch s.dunesh with inval := none }.emit (.invalidated v.i) := by
  have all : invalAgents.all v.acked.contains = true := by simpa [invalAgents] using hk
  simp [State.invalComplete, h, all, hi]

/-- The one that waits behind the invalidation that completes begins. -/
theorem State.invalComplete_next {i : Inval} {rest : List Inval} (hi : s.invals = i :: rest) : s.invalComplete =
    { { s.closeEpoch s.dunesh with inval := none }.emit (.invalidated v.i) with invals := rest }.invalStart i := by
  have all : invalAgents.all v.acked.contains = true := by simpa [invalAgents] using hk
  simp [State.invalComplete, h, all, hi]

end
end

@[simp] theorem State.purged_tlb (s : State) (a : Nat) (i : Inval) : (s.purged a i).tlb = s.tlb := by
  unfold State.purged
  split
  · rfl
  · split <;> rfl

/-- A core's receipt takes the matching lines from its instruction cache. -/
theorem State.purged_code {s : State} {a : Nat} (i : Inval) (ha : a < 64) (hc : a < s.cores.length) :
    ((s.purged a i).core a).code = (s.core a).code.filter fun l => !invalHitsCode i l := by
  rw [State.purged, if_pos ha, State.core_modCore_self _ _ _ hc]

/-- The walkers' receipt takes the matching entries from their die's partition-map cache. -/
theorem State.purged_maps {s : State} {a : Nat} (i : Inval) (ha : 136 ≤ a) (hd : a - 136 < s.dies.length) :
    ((s.purged a i).die (a - 136)).maps = (s.die (a - 136)).maps.filter fun m => !invalHitsMap i m := by
  rw [State.purged, if_neg (by omega), if_pos ha, State.die_modDie_self _ _ _ hd]

/-! ### Window writes (R131, R132) -/

theorem State.portApply_eq {s : State} {c k : Nat} {p : PortWrite} (h : (s.core c).port[k]? = some p)
    (hold : (s.room c p.room).hold = .off) (first : ∀ q ∈ (s.core c).port.take k, q.room ≠ p.room) :
    s.portApply c k = (s.chipWrite p.owner c p.off p.bytes p.poison p.stamp).modCore c fun x => { x with port := x.port.eraseIdx k } := by
  have first' : ((s.core c).port.take k).any (fun q => q.room = p.room) = false := by simpa using first
  simp [State.portApply, h, hold, first']

end Sys2Proof.Machine

namespace Sys2Proof.AddressSpaces
open Sys2Proof.Machine

/-- Settles O41: each event by the equation of the operation that it calls. -/
theorem changes : Obligations.Changes := by
  refine ⟨fun k s h => ?_, fun k s h hn => ⟨_, rfl, State.keyDestroyed_keySlots h hn⟩, fun i s h => ?_, fun i v s h => ?_,
    fun a v s h ha hg => ⟨fun he => ⟨_, rfl, ?_⟩, fun he => ?_⟩, fun a v s h hg hk hd => ?_, fun v s h hk => ⟨fun hi => ?_, fun i rest hi => ?_⟩,
    fun c k p s h hold first => ?_, fun c n s => ⟨rfl, rfl, rfl⟩⟩
  · show Host.Outcome.next _ = _
    rw [if_pos h]
  · exact congrArg Host.Outcome.next (State.invalBegin_none h i)
  · exact congrArg Host.Outcome.next (State.invalBegin_some h i)
  · rw [State.invalReceipt_eq h ha hg he]
    refine ⟨congrArg _ (State.purged_tlb s a v.i), rfl, fun hlt hc => ?_, fun hle hd => ?_⟩
    · exact State.purged_code v.i hlt hc
    · exact State.purged_maps v.i hle hd
  · exact congrArg Host.Outcome.next (State.invalReceipt_early h he)
  · exact congrArg Host.Outcome.next (State.invalDrained_eq h hg hk hd)
  · exact congrArg Host.Outcome.next (State.invalComplete_last h hk hi)
  · exact congrArg Host.Outcome.next (State.invalComplete_next h hk hi)
  · exact congrArg Host.Outcome.next (State.portApply_eq h hold first)

end Sys2Proof.AddressSpaces
end

section

namespace Sys2Proof.Machine

/-! ### Results and TIMER (R189, R350) -/

theorem execLongLatencyResult_eq {r : SplitRef} {p : Pending} {s : State}
    (h : ((s.warp r.core r.slot).pend.find? fun p => p.split = r.split && p.unwritten) = some p) :
    execLongLatencyResult r s = .next (s.land r.core r.slot fun q => q = p) := by
  simp only [execLongLatencyResult, h]

section
variable {s : State} {r : SplitRef} (hr : s.ready r = true) (hd : s.timerDue r = true)
include hr hd

/-- TIMER that no handler takes, or whose class is not enabled, only clears sr.wtcmp. -/
theorem State.timerTrap_masked
    (h : (s.groupOf r.core r.slot).hdr.handler = 0xFFFFFFFF ∨ tbit (s.groupOf r.core r.slot).hdr.trapmask 9 = false) :
    s.timerTrap r = s.modWarp r.core r.slot fun w => { w with wtcmp := 0 } := by
  simp [State.timerTrap, hr, hd, h]

theorem State.timerTrap_presents {i : Instr} {x : Words} (hh : (s.groupOf r.core r.slot).hdr.handler ≠ 0xFFFFFFFF)
    (hm : tbit (s.groupOf r.core r.slot).hdr.trapmask 9 = true) (hf : s.fetch r = .instr i x) :
    s.timerTrap r = s.presentTimer r x true := by
  simp [State.timerTrap, hr, hd, hh, hm, hf]

end

/-! ### The debugger (R132, R360, R361) -/

/-- A split of a stopped resident group that does not stand at the `bkpt` that stopped it may issue one instruction. -/
theorem State.singleStep_eq {s : State} {r : SplitRef} (hs : (s.split? r).isSome = true) (hg : (s.groupOf r.core r.slot).stopped = true)
    (hp : (s.groupOf r.core r.slot).phase = .resident) (hb : (s.groupOf r.core r.slot).bkptAt = none) :
    s.singleStep r = (s.modWarp r.core r.slot fun w => { w with stepArmed := true }).modGroup r.core (s.warp r.core r.slot).room
      fun g => { g with stepping := some (r.slot, r.split) } := by
  unfold State.groupOf at hg hp hb
  have live : (s.split? r).isNone = false := by simpa using hs
  simp [State.singleStep, live, hg, hp, hb]

/-! ### Physical accesses of the Dunesh core (R17, R18) -/

section
variable {pa : Nat} (owner : Option Nat) (data : List Byte) (s : State)

theorem State.privileged_hbm (h : paKind pa = .hbm) :
    s.privileged true owner pa data =
      s.writeAll s.dunesh (fun _ => {}) {} (data.zipIdx.map fun p => { pa := pa + p.2, val := p.1 }) ∧
    s.privileged false owner pa data = s.emit (.readData s.dunesh
      (if (s.readAt s.dunesh {} pa data.length).2 then none else some (s.readAt s.dunesh {} pa data.length).1)) := by
  unfold State.privileged
  rw [h]
  exact ⟨rfl, rfl⟩

theorem State.privileged_reserved (h : paKind pa = .reserved) :
    s.privileged true owner pa data = s ∧ s.privileged false owner pa data = s.emit (.readData s.dunesh none) := by
  unfold State.privileged
  rw [h]
  exact ⟨rfl, rfl⟩

end
end Sys2Proof.Machine

namespace Sys2Proof.AddressSpaces
open Sys2Proof.Machine

theorem timerAndResults : TimerAndResults :=
  ⟨fun _ _ _ h => execLongLatencyResult_eq h, fun _ _ hr hd => ⟨fun h => congrArg Host.Outcome.next (State.timerTrap_masked hr hd h),
    fun hh hm _ _ hf => congrArg Host.Outcome.next (State.timerTrap_presents hr hd hh hm hf)⟩⟩

theorem debuggerAndPrivilege : DebuggerAndPrivilege := by
  refine ⟨fun _ _ _ _ => rfl, fun c n s hg hp hs => ?_, fun r s hs hg hp hb => congrArg Host.Outcome.next (State.singleStep_eq hs hg hp hb),
    fun c n off data s hg hs hp hr => ?_, fun owner pa data s h => ?_, fun owner pa data s h => ?_⟩
  · exact congrArg Host.Outcome.next (if_pos (by simp [hg, hp, hs]))
  · exact congrArg Host.Outcome.next (if_pos (by simp [hg, hp, hs, hr]))
  · obtain ⟨write, read⟩ := State.privileged_hbm owner data s h
    exact ⟨congrArg Host.Outcome.next write, congrArg Host.Outcome.next read⟩
  · obtain ⟨write, read⟩ := State.privileged_reserved owner data s h
    exact ⟨congrArg Host.Outcome.next write, congrArg Host.Outcome.next read⟩

/-- Settles O42: the results and timers of a split, then the debugger and the privileged accesses of the Dunesh core. -/
theorem timersAndDebugger : Obligations.TimersAndDebugger := ⟨timerAndResults, debuggerAndPrivilege⟩

end Sys2Proof.AddressSpaces
end

section

namespace Sys2Proof.Machine

/-! ### Accesses of the host (R112, R113) -/

/-- A snoop of a line of host memory that its home slice holds. -/
theorem State.snoop_held {s : State} {d sector : Nat} (inval : Bool) (hk : paKind (sector * 64) = .host) (hd : homeDie (sector * 64) = d)
    (hs : (s.sec d sector).isSome = true) :
    let u := if inval then s.evictSec sector else s.cleanSec sector
    s.snoop d sector inval = { u with l2 := u.l2.map fun (x : L2Sec) => if x.die = d && x.sector = sector then { x with owned := false } else x }.emit
      (.cacheState d sector ((List.range 64).map fun i => s.homeByte none (sector * 64 + i))) := by
  unfold State.snoop
  exact if_neg (by simpa [hk, hd] using Option.isSome_iff_ne_none.mp hs)

theorem State.snoop_other {s : State} {d sector : Nat} (inval : Bool)
    (h : paKind (sector * 64) ≠ .host ∨ homeDie (sector * 64) ≠ d ∨ s.sec d sector = none) : s.snoop d sector inval = s := by
  unfold State.snoop
  rw [if_pos (by simpa [or_assoc] using h)]

/-! ### Waystations (R133, R134, R135) -/

/-- A packet that reaches a die is handled at its waystation. -/
theorem State.Reaches.arrive {s u : State} {d : Nat} {p : Packet} (h : s.Reaches d p u) : s.arrive d p = u.receive d p := by
  obtain ⟨peer, outer, rfl⟩ | ⟨own, onWay, rfl⟩ := h
  · simp [State.arrive, peer, outer]
  · simp [State.arrive, own, onWay]

/-- An acknowledgement delivers nothing and frees nothing. -/
@[simp] theorem State.ackPacket_inHand (s : State) (d : Nat) (p : Packet) (tag : Nat) : (s.ackPacket d p).inHand tag = s.inHand tag := by
  unfold State.ackPacket
  split <;> rfl

section
variable {u : State} {d : Nat} {p : Packet}

theorem State.receive_discards (h : 256 < p.data.length ∨ 2 ≤ p.mode) : u.receive d p = u := by
  unfold State.receive
  rw [if_pos (by simpa using h)]

section
variable (hl : p.data.length ≤ 256) (hm : p.mode < 2)
include hl hm

theorem State.receive_known {f : FlowRx} (hf : ((u.die d).rx.find? fun f => f.takes p) = some f) :
    u.receive d p = if f.ordered then u.arriveOrdered d f p else u.arriveUnordered d f p := by
  unfold State.receive
  rw [if_neg (by simp [hl, hm]), hf]

theorem State.receive_unknown (hf : ((u.die d).rx.find? fun f => f.takes p) = none) (h : p.seq ≠ 0 ∨ 8192 ≤ (u.die d).rx.length) :
    u.receive d p = u.nakPacket d p := by
  unfold State.receive
  rw [if_neg (by simp [hl, hm]), hf]
  exact if_pos (by simpa using h)

end

variable {f : FlowRx}

/-- Whether a flow already holds a packet of some number. -/
theorem held_any_iff (held : List (Packet × Bool)) (n : Nat) : (held.any fun h => h.1.seq = n) = true ↔ ¬ ∀ h ∈ held, h.1.seq ≠ n := by
  rw [List.any_eq_true]
  push Not
  simp only [decide_eq_true_eq]

theorem State.arriveOrdered_duplicate (h : 1024 ≤ seqAfter f.next p.seq ∨ ¬ ∀ h ∈ f.held, h.1.seq ≠ p.seq) :
    u.arriveOrdered d f p = u.ackPacket d p := by
  unfold State.arriveOrdered
  rw [if_pos (by rwa [Bool.or_eq_true, decide_eq_true_eq, held_any_iff])]

section
variable (near : seqAfter f.next p.seq < 1024) (new : ∀ h ∈ f.held, h.1.seq ≠ p.seq)
include near new

/-- A packet of an ordered flow that is no duplicate: NEXT itself, or one that lies behind it. -/
theorem State.arriveOrdered_new : u.arriveOrdered d f p =
    if seqAfter f.next p.seq = 0 then
      if !u.generalFree d && !u.reserveFree d then u.nakPacket d p
      else if u.inHand f.last then (u.ackPacket d p).setRx d { f with held := f.held ++ [(p, !u.generalFree d)] }
      else (u.ackPacket d p).deliver d { f with next := (f.next + 1) % 2 ^ 24 } p (!u.generalFree d)
    else if u.generalFree d then (u.ackPacket d p).setRx d { f with held := f.held ++ [(p, false)] }
    else u.nakPacket d p := by
  unfold State.arriveOrdered
  rw [if_neg (by rw [Bool.or_eq_true, decide_eq_true_eq, held_any_iff]; exact not_or_intro (by omega) (not_not_intro new))]
  simp only [State.ackPacket_inHand]

end

theorem State.arriveUnordered_ahead (ahead : seqAfter f.next p.seq < 2 ^ 23) (free : u.generalFree d = true) :
    u.arriveUnordered d f p = (u.ackPacket d p).deliver d { f with
      next := (p.seq + 1) % 2 ^ 24
      seen := (p.seq :: f.seen).filter fun n => seqAfter n ((p.seq + 1) % 2 ^ 24) ≤ 1024 } p false := by
  simp [-Nat.reducePow, State.arriveUnordered, ahead, free]

end

theorem State.deliverNext_eq {s : State} {d k : Nat} {f : FlowRx} {h : Packet × Bool} (hf : (s.die d).rx[k]? = some f)
    (hi : s.inHand f.last = false) (hh : (f.held.find? fun h => h.1.seq = f.next) = some h) :
    s.deliverNext d k = s.deliver d { f with next := (f.next + 1) % 2 ^ 24, held := f.held.erase h } h.1 h.2 := by
  simp [State.deliverNext, hf, hi, hh]

theorem State.closeFlow_eq {s : State} {d sd sdie fl : Nat} (hw : sd = 128 → .close d sdie fl ∈ s.wire)
    (hb : ∀ f ∈ (s.die d).rx, f.sdev = sd → f.sdie = sdie → f.flow = fl → f.held = [] ∧ s.inHand f.last = false) :
    s.closeFlow d sd sdie fl = { s with wire := if sd = 128 then s.wire.erase (.close d sdie fl) else s.wire }.modDie d fun x =>
      { x with rx := x.rx.filter fun f => !(f.sdev = sd && f.sdie = sdie && f.flow = fl) } := by
  unfold State.closeFlow
  dsimp only
  rw [if_neg (by simpa using ⟨hb, hw⟩)]

/-! ### Sources (R136) -/

section
variable {s : State} {d fl seq : Nat}

theorem State.acked_heard (h : s.hears d fl (.ack d fl seq) = true) : s.acked d fl seq =
    (((({ s with wire := s.wire.erase (.ack d fl seq) }.modTx d fl fun f => { f with
      buf := f.buf.filter fun r => !(r.sent && r.p.seq = seq), naks := 0, hold := f.hold.filter (· ≠ seq) }).pump d fl).flushTx d).sendIrqs) := by
  unfold State.acked
  rw [if_neg (by simp [h])]

theorem State.acked_unheard (h : s.hears d fl (.ack d fl seq) = false) : s.acked d fl seq = s := by
  unfold State.acked
  rw [if_pos (by simp [h])]

theorem State.naked_heard (h : s.hears d fl (.nak d fl seq) = true) :
    s.naked d fl seq = { s with wire := s.wire.erase (.nak d fl seq) }.modTx d fl fun f =>
      if f.buf.any fun r => r.sent && r.p.seq = seq then
        { f with
          naks := f.naks + 1
          hold := if f.ordered then setInsert f.hold seq else f.hold
          buf := f.buf.map fun (r : Replay) => if r.sent && r.p.seq = seq then { r with due := s.gtime + 128 * 2 ^ min (f.naks + 1) 6, timed := false } else r }
      else f := by
  unfold State.naked
  rw [if_neg (by simp [h])]
  congr 1
  funext f
  cases f.buf.any fun r => r.sent && r.p.seq = seq <;> rfl

theorem State.naked_unheard (h : s.hears d fl (.nak d fl seq) = false) : s.naked d fl seq = s := by
  unfold State.naked
  rw [if_pos (by simp [h])]

theorem State.resend_eq {f : FlowTx} {r : Replay} (hf : ((s.die d).tx.find? fun f => f.flow = fl) = some f)
    (hr : (f.buf.find? fun r => r.p.seq = seq && r.ready f.naks s.gtime) = some r) (hm : f.dev.isSome = true → s.mayTransmit d r.p.part = true) :
    s.resend d fl seq = (s.modTx d fl fun f => { f with
      buf := f.buf.map fun x => if x = r then { x with due := s.gtime + 50000, timed := true } else x }).launch_ d f r.p := by
  have may : ¬ (f.dev.isSome && !s.mayTransmit d r.p.part) = true := by simpa using hm
  simp only [State.resend, hf, hr]
  rw [if_neg may]

end

theorem State.launch_peer (s : State) (d : Nat) {dev : Nat} {f : FlowTx} (p : Packet) (h : f.dev = some dev) :
    s.launch_ d f p = s.emit (.packet d dev p) := by
  simp [State.launch_, h]

theorem State.launch_own (s : State) (d : Nat) {f : FlowTx} (p : Packet) (h : f.dev = none) :
    s.launch_ d f p = { s with wire := s.wire ++ [.data f.die p] } := by
  simp [State.launch_, h]

end Sys2Proof.Machine

namespace Sys2Proof.AddressSpaces
open Sys2Proof.Machine

theorem hostAccesses : HostAccesses := by
  refine ⟨fun d fn pa data s => ⟨fun l h => ?_, fun h => ?_⟩, fun d fn pa len s h => congrArg Host.Outcome.next (serve_ok h),
    fun d sector inval s hk hd hs => congrArg Host.Outcome.next (State.snoop_held inval hk hd hs),
    fun d sector inval s h => congrArg Host.Outcome.next (State.snoop_other inval h)⟩
  · exact congrArg Host.Outcome.next (by unfold State.postedWrite; rw [h])
  · exact congrArg Host.Outcome.next (by unfold State.postedWrite; rw [h]; rfl)

/-- A packet's arrival is what its die's waystation makes of it. -/
theorem packetArrival_eq {s u : State} {d : Nat} {p : Packet} {t : State} (h : s.Reaches d p u) (ht : u.receive d p = t) :
    exec (.packetArrival d p) s = .next t := congrArg Host.Outcome.next (h.arrive.trans ht)

theorem waystationSteps : WaystationSteps := by
  refine ⟨fun d p u s h hd => packetArrival_eq h (State.receive_discards hd), fun d p f u s h hl hm hf ho => ?_,
    fun d p f u s h hl hm hf ho ahead free => ?_, fun d p u s h hl hm hf hn => packetArrival_eq h (State.receive_unknown hl hm hf hn),
    fun d k f h s hf hi hh => congrArg Host.Outcome.next (State.deliverNext_eq hf hi hh),
    fun d sd sdie fl s hw hb => congrArg Host.Outcome.next (State.closeFlow_eq hw hb), fun d ps s => ⟨rfl, rfl⟩⟩
  · have ordered : ∀ t, u.arriveOrdered d f p = t → exec (.packetArrival d p) s = .next t := fun t ht =>
      packetArrival_eq h (by rw [State.receive_known hl hm hf, if_pos ho, ht])
    refine ⟨fun dup => ordered _ (State.arriveOrdered_duplicate dup), fun h0 new free idle => ordered _ ?_,
      fun h0 new full fullR => ordered _ ?_, fun hpos near new free => ordered _ ?_, fun hpos near new full => ordered _ ?_⟩
    · simp [State.arriveOrdered_new (h0 ▸ by omega) new, h0, free, idle]
    · simp [State.arriveOrdered_new (h0 ▸ by omega) new, h0, full, fullR]
    · simp [State.arriveOrdered_new near new, Nat.pos_iff_ne_zero.mp hpos, free]
    · simp [State.arriveOrdered_new near new, Nat.pos_iff_ne_zero.mp hpos, full]
  · refine packetArrival_eq h ?_
    rw [State.receive_known hl hm hf, if_neg (by simp [ho]), State.arriveUnordered_ahead ahead free]

theorem sourceSteps : SourceSteps :=
  ⟨fun _ _ _ _ h => congrArg Host.Outcome.next (State.acked_heard h), fun _ _ _ _ h => congrArg Host.Outcome.next (State.naked_heard h),
    fun _ _ _ _ => ⟨fun h => congrArg Host.Outcome.next (State.acked_unheard h), fun h => congrArg Host.Outcome.next (State.naked_unheard h)⟩,
    fun _ _ _ _ _ _ hf hr hm => congrArg Host.Outcome.next (State.resend_eq hf hr hm),
    fun d _ _ p s => ⟨State.launch_peer s d p, State.launch_own s d p⟩⟩

/-- Settles O44: the accesses of the host, then the two ends of a packet, waystation and source. -/
theorem hostAndPackets : Obligations.HostAndPackets := ⟨hostAccesses, waystationSteps, sourceSteps⟩

end Sys2Proof.AddressSpaces
end

section

namespace Sys2Proof.Machine

/-! ### What writes to memory leave alone -/

/-- Nothing differs but memory, the slices, the dies with what they send, and the token buckets. -/
def State.OnlyMemory (s t : State) : Prop :=
  t = { s with mem := t.mem, memPoison := t.memPoison, memKey := t.memKey, memHdr := t.memHdr, l2 := t.l2, dies := t.dies, net := t.net,
               netSeq := t.netSeq, buckets := t.buckets, wire := t.wire, out := t.out }

namespace State.OnlyMemory

theorem refl (s : State) : s.OnlyMemory s := rfl

theorem trans {s t u : State} (h : s.OnlyMemory t) (g : t.OnlyMemory u) : s.OnlyMemory u := by
  unfold State.OnlyMemory at *
  rw [g, h]

theorem after {s t u : State} (g : t.OnlyMemory u) (h : s.OnlyMemory t) : s.OnlyMemory u := h.trans g

theorem foldl {β : Type} {f : State → β → State} (h : ∀ (s : State) b, s.OnlyMemory (f s b)) (l : List β) (s : State) :
    s.OnlyMemory (l.foldl f s) := by
  induction l generalizing s with
  | nil => exact refl s
  | cons b r ih => exact (h s b).trans (ih _)

theorem launches {s t : State} (h : s.OnlyMemory t) : t.launches = s.launches := by rw [h]

theorem ofTraffic {s t : State} (h : s.OnlyTraffic t) : s.OnlyMemory t := by
  unfold State.OnlyMemory
  rw [h.rest]

theorem modDie (s : State) (e : Nat) (f : Die → Die) : s.OnlyMemory (s.modDie e f) := rfl
theorem emit (s : State) (o : Out) : s.OnlyMemory (s.emit o) := rfl
theorem setSec (s : State) (x : L2Sec) : s.OnlyMemory (s.setSec x) := rfl
theorem dropSec (s : State) (e sector : Nat) : s.OnlyMemory (s.dropSec e sector) := rfl
theorem dropLine (s : State) (e sector : Nat) : s.OnlyMemory (s.dropLine e sector) := rfl
theorem nextSeq (s : State) (n : Nat) : s.OnlyMemory { s with netSeq := n } := rfl
theorem sendOut (s : State) (d : Nat) (o : Outgoing) : s.OnlyMemory (s.sendOut d o) := ofTraffic (.sendOut s d o)

theorem spend (s : State) (sector : Nat) (tenant : Option Nat) : s.OnlyMemory (s.spend sector tenant) := by
  unfold State.spend
  split
  · exact refl s
  · dsimp only
    split
    · exact rfl
    · exact refl s

theorem writeBack (s : State) (x : L2Sec) : s.OnlyMemory (s.writeBack x) := by
  unfold State.writeBack
  split
  · exact refl s
  · exact (spend _ _ _).after rfl

theorem forgetSec (s : State) (x : L2Sec) : s.OnlyMemory (s.forgetSec x) := by
  unfold State.forgetSec
  split
  · exact dropSec s _ _
  · exact setSec s _

theorem evictHome (s : State) (x : L2Sec) : s.OnlyMemory (s.evictHome x) := by
  unfold State.evictHome
  dsimp only
  split
  · exact (writeBack s x).trans (forgetSec _ _)
  · exact writeBack s x

theorem makeRoom (s : State) (e sector : Nat) : s.OnlyMemory (s.makeRoom e sector) := by
  unfold State.makeRoom
  split
  · exact refl s
  · split
    · exact refl s
    · exact foldl evictHome _ s

theorem tagged (s : State) (at' : Attr) (sector : Nat) : s.OnlyMemory (s.tagged at' sector).1 := by
  unfold State.tagged
  dsimp only
  split
  · exact refl s
  · split
    · exact (writeBack s _).trans (dropSec _ _ _)
    · exact refl s

theorem homeWrite (s : State) (at' : Attr) (sector : Nat) (bs : List (Nat × Byte)) (poison : Bool) (st : Stamp) :
    s.OnlyMemory (s.homeWrite at' sector bs poison st) := by
  have tag := tagged s at' sector
  unfold State.homeWrite
  dsimp only
  generalize s.tagged at' sector = q at tag
  obtain ⟨t, x, present⟩ := q
  have wrote : ∀ u : State, s.OnlyMemory u → s.OnlyMemory ((u.setSec (x.wrote at' bs poison st)).sendHome at' sector bs poison x.owned) :=
    fun u h => (h.trans (setSec u _)).trans (ofTraffic (.sendHome _ _ _ _ _ _))
  dsimp only
  by_cases hc : at'.cp = 2
  · simp only [hc, if_true]
    split
    · exact (writeBack _ _).after (by simpa [hc] using wrote t tag)
    · exact (evictHome _ _).after (by simpa [hc] using wrote t tag)
  · simp only [hc, if_false]
    split
    · exact wrote _ (tag.trans (makeRoom t _ _))
    · exact (wrote _ (tag.trans (makeRoom t _ _))).trans (evictHome _ _)

theorem sendInvals (s : State) (sector origin : Nat) (v : List Nat) (parent : Nat) : s.OnlyMemory (s.sendInvals sector origin v parent) := by
  unfold State.sendInvals
  dsimp only
  have sent := fun u : State => foldl (f := fun (s : State) (d : Nat) => s.sendOut (homeDie (sector * 64))
    { dev := none, die := d, p := packetOf (.remote parent true) 0 [] false 0 0 }) (fun s d => sendOut s _ _) (s.copyDies sector) u
  split
  · exact (sent _).after rfl
  · exact (modDie _ _ _).after ((sent _).after rfl)

theorem sendWrite (s : State) (e : Nat) (at' : Attr) (w : Doing) (sector : Nat) (bs : List (Nat × Byte)) (poison : Bool) (owner : Option Nat) :
    s.OnlyMemory (s.sendWrite e at' w sector bs poison owner) := by
  unfold State.sendWrite
  dsimp only
  split
  · exact rfl
  · exact (sendOut _ _ _).after rfl

theorem writeSector (s : State) (e : Nat) (at' : Attr) (w : Doing) (sector : Nat) (bs : List (Nat × Byte)) (poison : Bool) :
    s.OnlyMemory (s.writeSector e at' w sector bs poison) := by
  unfold State.writeSector
  dsimp only
  split
  · exact rfl
  · split
    · split
      · exact sendWrite s _ _ _ _ _ _ _
      · exact ((nextSeq s _).trans (homeWrite _ _ _ _ _ _)).trans (sendInvals _ _ _ _ _)
    · exact (dropLine s _ _).trans (sendWrite _ _ _ _ _ _ _ _)

theorem writeAll (s : State) (e : Nat) (at' : Nat → Attr) (w : Doing) (ws : List ByteWrite) : s.OnlyMemory (s.writeAll e at' w ws) := by
  unfold State.writeAll
  exact foldl (fun s k => writeSector s _ _ _ _ _ _) _ s

theorem logLookup (s : State) (d agent fn a n : Nat) : s.OnlyMemory (s.logLookup d agent fn a n) := by
  unfold State.logLookup
  split
  · exact emit s _
  · exact refl s

theorem fnWrite (s : State) (fn a : Nat) (bs : List Byte) : s.OnlyMemory (s.fnWrite fn a bs) := by
  unfold State.fnWrite
  split
  · exact writeAll s _ _ _ _
  · exact logLookup s _ _ _ _ _

end State.OnlyMemory

/-! ### Completions (R330) -/

@[simp] theorem State.sendIrqs_launches (s : State) : s.sendIrqs.launches = s.launches := by
  unfold State.sendIrqs
  exact (State.OnlyMemory.foldl (fun s _ => .emit s _) _ _).launches

@[simp] theorem State.post_launches (s : State) (fn status tag detail : Nat) : (s.post fn status tag detail).launches = s.launches := by
  unfold State.post State.interrupt
  dsimp only
  split
  · rfl
  · rw [State.sendIrqs_launches]
    exact (State.OnlyMemory.fnWrite s fn _ _).launches

/-! ### What leaves a core (R375) -/

/-- Nothing differs but cores, what agents ask memory for, saved groups and functions. -/
def State.OnlyRooms (s t : State) : Prop := t = { s with cores := t.cores, reqs := t.reqs, saved := t.saved, fns := t.fns }

namespace State.OnlyRooms

theorem refl (s : State) : s.OnlyRooms s := rfl

theorem trans {s t u : State} (h : s.OnlyRooms t) (g : t.OnlyRooms u) : s.OnlyRooms u := by
  unfold State.OnlyRooms at *
  rw [g, h]

theorem after {s t u : State} (g : t.OnlyRooms u) (h : s.OnlyRooms t) : s.OnlyRooms u := h.trans g

theorem foldl {β : Type} {f : State → β → State} (h : ∀ (s : State) b, s.OnlyRooms (f s b)) (l : List β) (s : State) :
    s.OnlyRooms (l.foldl f s) := by
  induction l generalizing s with
  | nil => exact refl s
  | cons b r ih => exact (h s b).trans (ih _)

theorem touch (s : State) (cores : List Core) (reqs : List MemReq) (saved : List Saved) (fns : List Fn) :
    s.OnlyRooms { s with cores := cores, reqs := reqs, saved := saved, fns := fns } := rfl

theorem releaseRoom (s : State) (c n : Nat) : s.OnlyRooms (s.releaseRoom c n) := by
  unfold State.releaseRoom
  split
  · exact refl s
  · exact rfl

theorem dropGang (s : State) (launch gang : Nat) : s.OnlyRooms (s.dropGang launch gang) := by
  unfold State.dropGang
  refine (touch _ _ _ _ _).after (foldl (fun s r => (releaseRoom _ _ _).after ?_) _ s)
  split <;> exact rfl

theorem dropLaunch (s : State) (i : Nat) : s.OnlyRooms (s.dropLaunch i) := by
  unfold State.dropLaunch
  exact (touch _ _ _ _ _).after (foldl (fun s k => dropGang s i k) _ s)

end State.OnlyRooms

/-! ### Partition resets (R385) -/

/-- A launch of a partition under reset: it is aborted, unless it has completed. -/
def Launch.abortIn (part : Nat) (l : Launch) : Launch := if l.part = part && !l.complete then { l with aborted := true } else l

theorem Launch.abortIn_done (part : Nat) (l : Launch) (h : (l.abortIn part).part = part) :
    (l.abortIn part).complete = true ∨ (l.abortIn part).aborted = true := by
  unfold Launch.abortIn at *
  grind

/-- The first two steps of a partition's reset: its queues stop and are flushed, and its groups are killed without save. -/
def State.stopPartition (s : State) (p : Nat) : State :=
  ((List.range s.launches.length).filter fun i => (s.launches.getD i {}).part = p).foldl (fun s i => s.dropLaunch i)
    (if s.fnOf p = 0 then s else s.modFn (s.fnOf p) fun f => { f with
      resetting := true, sqs := f.sqs.map fun r => { r with head := r.tail }, adminHead := f.admindb % 2 ^ f.adminLog
      cwait := List.replicate 16 none, pages := [], loading := none })

theorem State.OnlyRooms.stopPartition (s : State) (p : Nat) : s.OnlyRooms (s.stopPartition p) := by
  refine .after (.foldl (fun s i => .dropLaunch s i) _ _) ?_
  split <;> exact rfl

/-- What a partition's reset leaves of the partition (R385). -/
theorem State.resetPartition_fields {s : State} {p : Nat} (h : p ∉ s.resets) :
    let t := s.resetPartition p
    t.resets = setInsert s.resets p ∧ t.counters = s.counters.filter (fun x => x.1 / 65536 ≠ p) ∧
      t.tasks = s.tasks.filter (fun x => x.part ≠ p) ∧ t.queues = s.queues.filter (fun x => x.1 / 64 ≠ p) ∧
      t.launches = s.launches.map (Launch.abortIn p) ∧ t.tlb = s.tlb.filter fun x => x.part ≠ p := by
  have fresh : ¬ s.resets.contains p = true := by simpa using h
  have fields : let t := s.resetPartition p
      let u := s.stopPartition p
      t.resets = setInsert u.resets p ∧ t.counters = u.counters.filter (fun x => x.1 / 65536 ≠ p) ∧
      t.tasks = u.tasks.filter (fun x => x.part ≠ p) ∧ t.queues = u.queues.filter (fun x => x.1 / 64 ≠ p) ∧
      t.launches = u.launches.map (Launch.abortIn p) ∧ t.tlb = u.tlb.filter fun x => x.part ≠ p := by
    unfold State.resetPartition
    rw [if_neg fresh]
    exact ⟨rfl, rfl, rfl, rfl, rfl, rfl⟩
  rw [State.OnlyRooms.stopPartition s p] at fields
  exact fields

/-- A launch of a partition whose reset every device has reported: an aborted one is complete. -/
def Launch.endReset (part : Nat) (l : Launch) : Launch := if l.part = part && l.aborted && !l.complete then { l with complete := true } else l

theorem Launch.endReset_complete {part : Nat} {l : Launch} (hp : (l.endReset part).part = part) (ha : (l.endReset part).aborted = true) :
    (l.endReset part).complete = true := by
  unfold Launch.endReset at *
  grind

/-- One launch at the end of a partition's reset: an aborted one that has not completed does, with STATUS 3 for its host. -/
def State.endLaunch (part : Nat) (s : State) (i : Nat) : State :=
  let l := s.launches.getD i {}
  if l.part = part && l.aborted && !l.complete then
    let s := s.modLaunch i fun l => { l with complete := true }
    if l.host then s.post (if (s.fns.getD l.fn {}).enabled then l.fn else 0) 3 l.tag 0 else s
  else s

theorem getElem?_modifyAt {α : Type} (l : List α) (k j : Nat) (f : α → α) :
    (modifyAt l k f)[j]? = if j = k then l[j]?.map f else l[j]? := by
  induction l generalizing k j with
  | nil => simp [modifyAt]
  | cons x r ih => cases k <;> cases j <;> simp [modifyAt, ih]

/-- Only what a change does to the entry that it meets matters. -/
theorem modifyAt_congr {α : Type} {l : List α} {k : Nat} {f g : α → α} (d : α) (h : f (l.getD k d) = g (l.getD k d)) :
    modifyAt l k f = modifyAt l k g := by
  refine List.ext_getElem? fun j => ?_
  rw [getElem?_modifyAt, getElem?_modifyAt]
  split
  · subst j
    cases e : l[k]? <;> simp_all
  · rfl

theorem modifyAt_id {α : Type} (l : List α) (k : Nat) : modifyAt l k id = l :=
  List.ext_getElem? fun j => by simp [getElem?_modifyAt]

/-- A list with each entry changed in its turn is the list with every entry changed. -/
theorem foldl_modifyAt_range {α : Type} (f : α → α) (l : List α) : (List.range l.length).foldl (fun t i => modifyAt t i f) l = l.map f := by
  have upto : ∀ n j, ((List.range n).foldl (fun t i => modifyAt t i f) l)[j]? = if j < n then l[j]?.map f else l[j]? := by
    intro n
    induction n with
    | zero => simp
    | succ n ih =>
      intro j
      rw [List.range_succ, List.foldl_append, List.foldl_cons, List.foldl_nil, getElem?_modifyAt, ih]
      grind
  refine List.ext_getElem? fun j => ?_
  rw [upto, List.getElem?_map]
  split
  · rfl
  · rw [List.getElem?_eq_none (by omega), Option.map_none]

theorem State.endLaunch_launches (part : Nat) (s : State) (i : Nat) :
    (s.endLaunch part i).launches = modifyAt s.launches i (Launch.endReset part) := by
  unfold State.endLaunch
  dsimp only
  split
  · rename_i h
    have ended : (s.modLaunch i fun l => { l with complete := true }).launches = modifyAt s.launches i (Launch.endReset part) :=
      modifyAt_congr {} (by simp only [Launch.endReset, h, if_true])
    split
    · rw [State.post_launches, ended]
    · exact ended
  · rename_i h
    exact (modifyAt_id _ i).symm.trans (modifyAt_congr {} (by simp only [Launch.endReset, h, id]; rfl))

theorem State.foldl_endLaunch_launches (part : Nat) (is : List Nat) (s : State) :
    (is.foldl (State.endLaunch part) s).launches = is.foldl (fun t i => modifyAt t i (Launch.endReset part)) s.launches := by
  induction is generalizing s with
  | nil => rfl
  | cons i r ih => rw [List.foldl_cons, ih, State.endLaunch_launches, List.foldl_cons]

theorem State.resetDone_launches {s : State} {p : Nat} (hp : p ∈ s.resets) (hq : s.quiet = true)
    (hk : ∀ j < 128, ∀ k, get none s.keyMap (p * 128 + j) = some k → s.keySlots.getD k .empty ≠ .destroying) :
    (s.resetDone p).launches = s.launches.map (Launch.endReset p) := by
  have reported : ¬ (!s.resets.contains p || ((List.range 128).filterMap fun j => get none s.keyMap (p * 128 + j)).any
      (fun k => s.keySlots.getD k .empty = KeySlot.destroying) || !s.quiet) = true := by
    simpa [-List.any_filterMap, hp, hq] using fun k j hj hg => hk j hj k hg
  unfold State.resetDone
  dsimp only
  rw [if_neg reported]
  exact (State.foldl_endLaunch_launches p _ _).trans (foldl_modifyAt_range _ _)

/-! ### VF Enable (R387) -/

/-- Once VF Enable is cleared no function but the PF is enabled. -/
theorem State.clearVfs_enabled (s : State) {n : Nat} (h0 : 0 < n) (h : n < s.clearVfs.fns.length) :
    (s.clearVfs.fns.getD n {}).enabled = false := by
  unfold State.clearVfs at *
  dsimp only at h ⊢
  generalize List.foldl _ s _ = u at h ⊢
  rw [List.length_map, List.length_zipIdx] at h
  simp [List.getD, List.getElem?_eq_getElem h, Nat.pos_iff_ne_zero.mp h0]

/-! ### Scans (R379 to R381) -/

section
variable {s : State}

theorem State.scanStart_eq (ha : s.scan.active = false) (hn : s.scan.next ≤ s.gtime) (hf : s.fw.phase = .running) :
    s.scanStart = { s with scan := { s.scan with
      core := s.nextScanned s.scan.core, active := true, running := false, second := false, since := s.gtime, next := s.gtime + 10000000 } }.modCore
      (s.nextScanned s.scan.core) fun k => { k with service := false } := by
  unfold State.scanStart
  rw [if_neg (by simp [ha, hn, hf])]

theorem State.scanRun_eq (ha : s.scan.active = true) (hr : s.scan.running = false) (he : s.coreEmpty s.scan.core = true) :
    s.scanRun = { s with scan := { s.scan with running := true, since := s.gtime } }.modCore s.scan.core Core.scrubbed := by
  unfold State.scanRun
  rw [if_pos (by simp [ha, hr, he])]

theorem State.scanDefer_eq (ha : s.scan.active = true) (hr : s.scan.running = false) (he : s.coreEmpty s.scan.core = false)
    (ht : s.scan.since + 1000000 ≤ s.gtime) :
    s.scanDefer = { s with scan := { s.scan with active := false, log := s.scan.log + 1 } }.modCore s.scan.core
      fun k => { k with service := true } := by
  unfold State.scanDefer
  rw [if_pos (by simp [ha, hr, he, ht])]

section
variable (ha : s.scan.active = true) (hr : s.scan.running = true) (lane : Option (Nat × Nat))
include ha hr

theorem State.scanResult_pass : s.scanResult true lane =
    (({ s with scan := { s.scan with seq := modifyAt s.scan.seq s.scan.core fun n => (n + 1) % 2 ^ 32 } }.modCore s.scan.core fun k =>
      { k with service := true }).scanEnd).confirmAll := by
  simp [State.scanResult, ha, hr]

theorem State.scanResult_again (h2 : s.scan.second = false) :
    s.scanResult false lane = { s.suspect s.scan.core with scan := { s.scan with second := true, since := s.gtime } } := by
  simp [State.scanResult, ha, hr, h2]

theorem State.scanResult_retires (h2 : s.scan.second = true) {q b : Nat} {k : Core} (hk : (s.core s.scan.core).retireLane q b = some k) :
    s.scanResult false (some (q, b)) = (s.modCore s.scan.core fun _ => { k with service := true }).scanEnd := by
  simp [State.scanResult, ha, hr, h2, hk]

end
end

/-- A lane that is retired leaves its quadrant's map, in which eleven lanes stay good. -/
theorem Core.retireLane_map {k k' : Core} {q b : Nat} (h : k.retireLane q b = some k') :
    at_ 0 k'.maps q = at_ (0 : BitVec 16) k.maps q &&& ~~~(1#16 <<< b) ∧
      11 ≤ ((List.range 16).filter fun i => (at_ (0 : BitVec 16) k'.maps q).getLsbD i).length := by
  unfold Core.retireLane at h
  dsimp only at h
  split at h
  · rename_i good
    simp only [Bool.and_eq_true, decide_eq_true_eq] at good
    obtain ⟨⟨-, changes⟩, eleven⟩ := good
    have inside : q < k.maps.length := by
      by_contra out
      simp [at_, List.getD, List.getElem?_eq_none (Nat.not_lt.mp out)] at changes
    have map : at_ (0 : BitVec 16) k'.maps q = at_ (0 : BitVec 16) k.maps q &&& ~~~(1#16 <<< b) := by
      obtain rfl : { k with maps := k.maps.set q (at_ (0 : BitVec 16) k.maps q &&& ~~~(1#16 <<< b)) } = k' := Option.some.inj h
      simp [at_, List.getD, inside]
    exact ⟨map, map ▸ eleven⟩
  · cases h

/-! ### Links (R383, R386) -/

/-- A port that has retrained takes its target rate; the packets that then go are traffic. -/
theorem State.OnlyTraffic.trained (s : State) (n : Nat) :
    (s.modPort n fun p => if p.training then { p with training := false, rate := p.target } else p).OnlyTraffic (s.trained n) := by
  unfold State.trained
  exact .foldl (fun t d => .foldl (fun t f => .pump t d f) _ t) _ _

end Sys2Proof.Machine

namespace Sys2Proof.AddressSpaces
open Sys2Proof.Machine

theorem scansAndLinks : ScansAndLinks := by
  refine ⟨fun s ha hn hf => congrArg Host.Outcome.next (State.scanStart_eq ha hn hf), fun s ha hr => ⟨fun he => ?_, fun he ht => ?_⟩,
    fun lane s ha hr => ⟨?_, fun h2 => ?_, fun h2 q b k hl hk => ?_⟩, fun q b k k' h => Core.retireLane_map h,
    fun n s => ⟨rfl, rfl, ?_, rfl, rfl⟩, fun c s => ⟨rfl, rfl⟩⟩
  · exact congrArg Host.Outcome.next (State.scanRun_eq ha hr he)
  · exact congrArg Host.Outcome.next (State.scanDefer_eq ha hr he ht)
  · exact congrArg Host.Outcome.next (State.scanResult_pass ha hr lane)
  · exact ⟨_, congrArg Host.Outcome.next (State.scanResult_again ha hr lane h2), rfl, rfl⟩
  · subst hl
    exact congrArg Host.Outcome.next (State.scanResult_retires ha hr h2 hk)
  · have traffic := State.OnlyTraffic.trained s n
    exact ⟨_, rfl, by rw [traffic.rest], traffic.mem⟩

theorem partitionResets : PartitionResets := by
  refine ⟨fun p s hp h => ⟨s.resetPartition p, ?_, ?_⟩, fun p s hp hq hk => ⟨_, rfl, fun l hl => ?_⟩, fun fn s hm h0 h64 => ?_,
    fun s hm => ⟨_, congrArg Host.Outcome.next (serve_ok hm), fun n h0 hn => State.clearVfs_enabled _ h0 hn⟩⟩
  · exact congrArg Host.Outcome.next (if_pos hp)
  · obtain ⟨resets, counters, tasks, queues, launches, tlb⟩ := State.resetPartition_fields h
    refine ⟨resets, counters, tasks, queues, fun l hl => ?_, by simp [tlb]⟩
    rw [launches] at hl
    obtain ⟨l, -, rfl⟩ := List.mem_map.mp hl
    exact Launch.abortIn_done p l
  · rw [State.resetDone_launches hp hq hk] at hl
    obtain ⟨l, -, rfl⟩ := List.mem_map.mp hl
    exact Launch.endReset_complete
  · refine congrArg Host.Outcome.next ((serve_ok hm).trans (if_neg ?_))
    simp [Nat.not_lt.mpr h64, Nat.pos_iff_ne_zero.mp h0]

/-- Settles O48: scans and links, then the resets of engines and partitions, which change only the fields their frames name. -/
theorem scansLinksAndResets : Obligations.ScansLinksAndResets := ⟨scansAndLinks, partitionResets⟩

end Sys2Proof.AddressSpaces
end

section

namespace Sys2Proof.Machine

/-! ### Sectors of a slice -/

/-- What a find of a sector says of it. -/
theorem State.sec_some {s : State} {e sector : Nat} {x : L2Sec} (h : s.sec e sector = some x) : x.die = e ∧ x.sector = sector := by
  simpa using List.find?_some h

theorem State.sec_dropSec_self (s : State) (e sector : Nat) : (s.dropSec e sector).sec e sector = none := by
  simp only [State.sec, State.dropSec, List.find?_eq_none, List.mem_filter]
  grind

/-- A sector put in its place is found there. -/
theorem State.sec_setSec_of {x : L2Sec} {e sector : Nat} (s : State) (hd : x.die = e) (hs : x.sector = sector) :
    (s.setSec x).sec e sector = some x := by
  subst hd hs
  exact sec_setSec s x

theorem at_map_range {α : Type} (d : α) (f : Nat → α) {n i : Nat} (h : i < n) : at_ d ((List.range n).map f) i = f i := by
  simp [at_, List.getD, h]

theorem lineKey_lineKey (stored : Option Nat) : lineKey stored (lineKey stored none) = lineKey stored none := by
  unfold lineKey
  cases stored.filter (· < 128) <;> rfl

@[simp] theorem lineKey_self (k : Option Nat) : lineKey k k = k := by cases k <;> rfl

@[simp] theorem State.spend_l2 (s : State) (sector : Nat) (tenant : Option Nat) : (s.spend sector tenant).l2 = s.l2 := by
  unfold State.spend
  split
  · rfl
  · dsimp only
    split <;> rfl

@[simp] theorem State.spend_memKey (s : State) (sector : Nat) (tenant : Option Nat) : (s.spend sector tenant).memKey = s.memKey := by
  unfold State.spend
  split
  · rfl
  · dsimp only
    split <;> rfl

@[simp] theorem State.spend_storedKey (s : State) (k : Nat) (tenant : Option Nat) (sector : Nat) :
    (s.spend k tenant).storedKey sector = s.storedKey sector := by simp [State.storedKey]

@[simp] theorem State.spend_storedByte (s : State) (k : Nat) (tenant : Option Nat) (key : Option Nat) (pa : Nat) :
    (s.spend k tenant).storedByte key pa = s.storedByte key pa := by simp [State.storedByte]

@[simp] theorem State.spend_sec (s : State) (k : Nat) (tenant : Option Nat) (e sector : Nat) : (s.spend k tenant).sec e sector = s.sec e sector := by
  simp [State.sec]

@[simp] theorem State.spend_hasRoom (s : State) (k : Nat) (tenant : Option Nat) (e sector : Nat) :
    (s.spend k tenant).hasRoom e sector = s.hasRoom e sector := by simp [State.hasRoom]

/-! ### Fills (R58, R59, R111) -/

section
variable {s : State} {e sector : Nat}

section
variable (may : e = homeDie (sector * 64) ∨ s.mayCopy e (s.heldAs sector) sector = true)
include may

/-- A sector of HBM comes without a token where the home holds what is asked for, and else for one. -/
theorem State.l2Fill_hbm (hk : paKind (sector * 64) = .hbm) : s.l2Fill e sector =
    if !s.mustFetch e (s.heldAs sector) sector allBytes then s.fillSec e (s.heldAs sector) sector allBytes
    else if s.tokenFree sector (s.heldAs sector).key then (s.spend sector (s.heldAs sector).key).fillSec e (s.heldAs sector) sector allBytes
    else s := by
  have go : ¬ (e ≠ homeDie (sector * 64) && !s.mayCopy e (s.heldAs sector) sector) = true := by simpa [or_iff_not_imp_left] using may
  unfold State.heldAs at *
  simp only [State.l2Fill, hk]
  exact if_neg go

/-- A sector of host memory comes for those who asked for it. -/
theorem State.l2Fill_host (hk : paKind (sector * 64) = .host) : s.l2Fill e sector =
    (s.fillSec e (s.heldAs sector) sector allBytes).came fun q => q.sector = sector := by
  have go : ¬ (e ≠ homeDie (sector * 64) && !s.mayCopy e (s.heldAs sector) sector) = true := by simpa [or_iff_not_imp_left] using may
  unfold State.heldAs at *
  simp only [State.l2Fill, hk]
  exact if_neg go

end

theorem State.l2Fill_other (h : (paKind (sector * 64) ≠ .hbm ∧ paKind (sector * 64) ≠ .host) ∨
    (e ≠ homeDie (sector * 64) ∧ s.mayCopy e (s.heldAs sector) sector = false)) : s.l2Fill e sector = s := by
  by_cases stays : (e ≠ homeDie (sector * 64) && !s.mayCopy e (s.heldAs sector) sector) = true
  · exact if_pos stays
  · obtain ⟨hbm, host⟩ := h.resolve_right fun ⟨away, no⟩ => stays (by simp [away, no])
    refine (if_neg stays).trans ?_
    cases hk : paKind (sector * 64) <;> simp_all

end

/-- The home's sector after it took the bytes that it lacks from memory. -/
def State.filled (s : State) (at' : Attr) (sector : Nat) : L2Sec :=
  { (s.tagged at' sector).2.1 with have_ := allBytes, data := (s.tagged at' sector).1.merged (s.tagged at' sector).2.1 }

/-- The home itself holds no copy. -/
@[simp] theorem State.copyHit_home (s : State) (at' : Attr) (sector : Nat) : s.copyHit (homeDie (sector * 64)) at' sector = none := by
  simp [State.copyHit]

theorem State.copyHit_of_sec_none {s : State} {e sector : Nat} (at' : Attr) (h : s.sec e sector = none) : s.copyHit e at' sector = none := by
  simp [State.copyHit, h]

section
variable {s : State} {sector : Nat} (hs : s.sec (homeDie (sector * 64)) sector = none)
include hs

theorem State.heldAs_of_none : s.heldAs sector = { key := lineKey (s.storedKey sector) none } := by
  simp [State.heldAs, hs]

theorem State.mustFetch_home (at' : Attr) (m : BitVec 64) : s.mustFetch (homeDie (sector * 64)) at' sector m = true := by
  simp [State.mustFetch, hs]

/-- A home slice that does not hold a sector puts the stored bytes in its place, once it has made room. -/
theorem State.fillSec_home {at' : Attr} (hcp : at'.cp = 0) : s.fillSec (homeDie (sector * 64)) at' sector allBytes =
    (s.makeRoom (homeDie (sector * 64)) sector).setSec (s.filled at' sector) := by
  simp [State.fillSec, State.filled, State.tagged, hs, hcp, State.wanted, State.mayCopy, allBytes]

/-- What a home's filled sector is: all of it present, nothing dirty, its bytes those of memory under the line's key. -/
theorem State.filled_home (at' : Attr) :
    (s.filled at' sector).die = homeDie (sector * 64) ∧ (s.filled at' sector).sector = sector ∧ (s.filled at' sector).have_ = allBytes ∧
      (s.filled at' sector).dirty = 0 ∧
      ∀ i < 64, at_ 0 (s.filled at' sector).data i = s.storedByte (lineKey (s.storedKey sector) at'.key) (sector * 64 + i) := by
  simp +contextual [State.filled, State.tagged, hs, State.merged, at_map_range]

end

section
variable {s : State} {e sector : Nat} {x : L2Sec} (hs : s.sec e sector = none)
  (hx : s.sec (homeDie (sector * 64)) sector = some x) (hall : x.have_ = allBytes) (hkey : lineKey x.key none = x.key)
  (hcopy : s.mayCopy e (s.heldAs sector) sector = true)
include hx hkey

theorem State.heldAs_of_some : s.heldAs sector = { key := x.key } := by
  simp [State.heldAs, hx, hkey]

include hall hcopy

/-- A die may take a copy of what its home holds whole without a read of memory. -/
theorem State.mustFetch_copy : s.mustFetch e (s.heldAs sector) sector allBytes = false := by
  rw [State.heldAs_of_some hx hkey] at *
  simp [State.mustFetch, hx, hall, State.wanted, hcopy, allBytes]

include hs in
theorem State.fillSec_copy (room : s.hasRoom e sector = true) : s.fillSec e (s.heldAs sector) sector allBytes =
    s.setSec { x with have_ := allBytes, data := s.merged x, die := e, dirty := 0, owned := false } := by
  have all : allBytes ≠ 0 := by decide
  rw [State.heldAs_of_some hx hkey] at *
  simp [State.fillSec, State.copyHit_of_sec_none _ hs, State.tagged, hx, hall, State.wanted, hcopy, room]

end

/-! ### Write-backs (R58, R65) -/

section
variable {s : State} {e sector : Nat} {x : L2Sec} (hx : s.sec e sector = some x)
include hx

/-- What is left of a sector that a slice forgets has no bytes. -/
theorem State.forgetSec_sec {y : L2Sec} (h : (s.forgetSec x).sec e sector = some y) : y.have_ = 0 ∧ y.dirty = 0 := by
  obtain ⟨hd, hsec⟩ := State.sec_some hx
  unfold State.forgetSec at h
  split at h
  · rw [hd, hsec, State.sec_dropSec_self] at h
    cases h
  · rw [State.sec_setSec_of s (by exact hd) (by exact hsec)] at h
    cases h
    exact ⟨rfl, rfl⟩

/-- A clean sector is forgotten, and memory stays. -/
theorem State.evictHome_clean (hc : x.dirty = 0) : s.evictHome x = s.forgetSec x := by
  obtain ⟨rfl, rfl⟩ := State.sec_some hx
  simp [State.evictHome, State.writeBack, hc, hx]

theorem State.writeBack_sec (hd : x.dirty ≠ 0) : (s.writeBack x).sec e sector = some { x with dirty := 0 } := by
  obtain ⟨rfl, rfl⟩ := State.sec_some hx
  unfold State.writeBack
  rw [if_neg hd, State.spend_sec]
  exact State.sec_setSec_of _ rfl rfl

theorem State.evictHome_dirty (hd : x.dirty ≠ 0) : s.evictHome x = (s.writeBack x).forgetSec { x with dirty := 0 } := by
  have hw := State.writeBack_sec hx hd
  obtain ⟨rfl, rfl⟩ := State.sec_some hx
  simp [State.evictHome, hw]

end

/-- A dirty sector's bytes go to memory, and nothing else does. -/
theorem State.writeBack_mem {s : State} {x : L2Sec} (hd : x.dirty ≠ 0) :
    (s.writeBack x).mem = putBytes s.mem (x.sector * 64) (s.backBytes x) := by
  unfold State.writeBack
  rw [if_neg hd, State.spend_mem]
  rfl

theorem State.l2Evict_some {s : State} {e sector : Nat} {x : L2Sec} (he : homeDie (sector * 64) = e) (hx : s.sec e sector = some x) :
    s.l2Evict e sector = if s.backFree x then s.evictHome x else s := by
  simp [State.l2Evict, hx, he]

theorem State.l2Evict_other {s : State} {e sector : Nat} (h : homeDie (sector * 64) ≠ e ∨ s.sec e sector = none) : s.l2Evict e sector = s := by
  unfold State.l2Evict
  split
  · rfl
  · rename_i hx
    exact if_neg (by simp [h.resolve_right (by simp [hx])])

/-! ### Walks (R32, R33, R403) -/

section
variable {s : State} {d : Nat}

theorem State.pageWalk_idle (h : (s.die d).nextMiss = none) : s.pageWalk d = s := by
  simp [State.pageWalk, h]

/-- A die once its walkers have taken a miss off its queue, and keep the partition-map entries that their walk met. -/
def State.taken (s : State) (d : Nat) (m : Miss) (part : Nat) (seen : List Nat) : State :=
  seen.foldl (fun v ipa => v.keepMap d part ipa) (s.modDie d fun x => { x with missq := x.missq.erase m, served := m.turn })

/-- Everyone who waits for a miss is refused. -/
def State.refuseAll (s : State) (m : Miss) (f : TrFault) (p : Bool) : State :=
  { s with walked := s.walked ++ m.who.map fun x => m.refused x f p }

section
variable {m : Miss} {w : Walk} {part : Nat} {seen : List Nat} (h : (s.die d).nextMiss = some m)
  (hw : (s.modDie d fun x => { x with missq := x.missq.erase m, served := m.turn }).walk d ((m.who.head?.map (·.who.agent)).getD 0) m.asid
    (m.va * 4096) = (w, part, seen))
include h hw

theorem State.pageWalk_found {t : Tlb} (hf : w = .found t) : s.pageWalk d = (s.taken d m part seen).answerWalk m t := by
  subst hf
  simp only [State.pageWalk, h, hw]
  rfl

theorem State.pageWalk_fault {f : TrFault} (hf : w = .fault f) : s.pageWalk d = (s.taken d m part seen).refuseAll m f false := by
  subst hf
  simp only [State.pageWalk, h, hw]
  rfl

theorem State.pageWalk_poison (hf : w = .poison) : s.pageWalk d = (s.taken d m part seen).refuseAll m { cause := 0, level := 0 } true := by
  subst hf
  simp only [State.pageWalk, h, hw]
  rfl

end

/-- One who waits alone and whom the leaf allows is given the translation. -/
theorem State.answerWalk_one {m : Miss} {t : Tlb} {w : Wanted} {a : Attr} (hm : m.who = [w])
    (ha : s.leafCheck t w.kind w.leaf w.user (t.pa + (m.va * 4096 - t.va)) = .ok a) :
    s.answerWalk m t = (s.markLeaf t w.write).1.keepTlb { (s.markLeaf t w.write).2 with agent := w.who.agent } := by
  simp [State.answerWalk, hm, ha, List.eraseDups_cons]

end
end Sys2Proof.Machine

namespace Sys2Proof.AddressSpaces
open Sys2Proof.Machine

/-- A home slice fills a sector of HBM from memory, for a token. -/
theorem fill_home {e sector : Nat} {s : State} (he : homeDie (sector * 64) = e) (hk : paKind (sector * 64) = .hbm) (hs : s.sec e sector = none) :
    (s.tokenFree sector (s.heldAs sector).key = true → ∃ t x, exec (.l2SectorFill e sector) s = .next t ∧ t.sec e sector = some x ∧
      x.have_ = allBytes ∧ x.dirty = 0 ∧ (s.hasRoom e sector = true → t.mem = s.mem) ∧
      ∀ i < 64, at_ 0 x.data i = s.storedByte (lineKey (s.storedKey sector) none) (sector * 64 + i)) ∧
    (s.tokenFree sector (s.heldAs sector).key = false → exec (.l2SectorFill e sector) s = .next s) := by
  subst he
  have fill := State.l2Fill_hbm (s := s) (e := homeDie (sector * 64)) (sector := sector) (.inl rfl) hk
  rw [State.mustFetch_home hs] at fill
  refine ⟨fun token => ?_, fun wait => congrArg Host.Outcome.next (fill.trans (by simp [wait]))⟩
  let u := s.spend sector (s.heldAs sector).key
  have hu : u.sec (homeDie (sector * 64)) sector = none := by simpa [u] using hs
  obtain ⟨die, sec, all, clean, bytes⟩ := State.filled_home hu (s.heldAs sector)
  have filled : s.l2Fill (homeDie (sector * 64)) sector = (u.makeRoom (homeDie (sector * 64)) sector).setSec (u.filled (s.heldAs sector) sector) := by
    rw [fill, ← State.fillSec_home hu rfl]
    simp [token, u]
  refine ⟨_, _, congrArg Host.Outcome.next filled, State.sec_setSec_of _ die sec, all, clean, fun room => ?_, fun i hi => ?_⟩
  · show (u.makeRoom _ _).mem = _
    rw [State.makeRoom, if_pos (by simpa [u] using room)]
    exact State.spend_mem _ _ _
  · rw [bytes i hi]
    simp only [u, State.spend_storedKey, State.spend_storedByte, State.heldAs_of_none hs, lineKey_lineKey]

/-- A slice of another die takes a copy of what the home holds whole. -/
theorem fill_copy {e sector : Nat} {x : L2Sec} {s : State} (away : homeDie (sector * 64) ≠ e) (hk : paKind (sector * 64) = .hbm)
    (hs : s.sec e sector = none) (hx : s.sec (homeDie (sector * 64)) sector = some x) (hall : x.have_ = allBytes)
    (hkey : lineKey x.key none = x.key) (quiet : ∀ r ∈ s.net, r.src = e → r.inval = false → r.ext = false → r.sector / 4 ≠ sector / 4)
    (room : s.hasRoom e sector = true) :
    ∃ t y, exec (.l2SectorFill e sector) s = .next t ∧ t.sec e sector = some y ∧ y.have_ = allBytes ∧ y.dirty = 0 ∧ y.key = x.key ∧
      y.poison = x.poison ∧ t.mem = s.mem ∧ ∀ i < 64, at_ 0 y.data i = at_ 0 x.data i := by
  have copy : s.mayCopy e (s.heldAs sector) sector = true := by
    simp [State.mayCopy, State.heldAs, away]
    grind
  have fill : s.l2Fill e sector = s.setSec { x with have_ := allBytes, data := s.merged x, die := e, dirty := 0, owned := false } := by
    rw [State.l2Fill_hbm (.inr copy) hk, State.mustFetch_copy hx hall hkey copy, State.fillSec_copy hs hx hall hkey copy room]
    rfl
  refine ⟨_, _, congrArg Host.Outcome.next fill, State.sec_setSec_of _ rfl (State.sec_some hx).2, rfl, rfl, rfl, rfl, rfl, fun i hi => ?_⟩
  have here : x.have_.getLsbD i = true := by rw [hall, allBytes, BitVec.getLsbD_allOnes, decide_eq_true hi]
  simp only [State.merged, at_map_range _ _ hi, here, if_true]

/-- A sector leaves its home's slice, a dirty one for a token and by way of memory. -/
theorem writeback_home {e sector : Nat} {x : L2Sec} {s : State} (he : homeDie (sector * 64) = e) (hx : s.sec e sector = some x) :
    (x.dirty ≠ 0 → s.tokenFree sector x.key = true → ∃ t, exec (.l2Writeback e sector) s = .next t ∧
      t.mem = putBytes s.mem (sector * 64) (s.backBytes x) ∧ ∀ y, t.sec e sector = some y → y.have_ = 0 ∧ y.dirty = 0) ∧
    (x.dirty ≠ 0 → s.tokenFree sector x.key = false → exec (.l2Writeback e sector) s = .next s) ∧
    (x.dirty = 0 → ∃ t, exec (.l2Writeback e sector) s = .next t ∧ t.mem = s.mem ∧
      ∀ y, t.sec e sector = some y → y.have_ = 0 ∧ y.dirty = 0) := by
  have leave := State.l2Evict_some he hx
  have sec := (State.sec_some hx).2
  refine ⟨fun dirty token => ?_, fun dirty wait => ?_, fun clean => ?_⟩
  · rw [if_pos (by simp [State.backFree, sec, token]), State.evictHome_dirty hx dirty] at leave
    refine ⟨_, congrArg Host.Outcome.next leave, ?_, fun y => State.forgetSec_sec (State.writeBack_sec hx dirty)⟩
    rw [State.forgetSec_mem, State.writeBack_mem dirty, sec]
  · rw [if_neg (by simpa [State.backFree, sec, wait] using dirty)] at leave
    exact congrArg Host.Outcome.next leave
  · rw [if_pos (by simp [State.backFree, clean]), State.evictHome_clean hx clean] at leave
    exact ⟨_, congrArg Host.Outcome.next leave, State.forgetSec_mem _ _, fun y => State.forgetSec_sec hx⟩

theorem sliceSteps : SliceSteps :=
  ⟨fun _ _ _ he hk hs => fill_home he hk hs, fun _ _ _ _ away hk hs hx hall hkey quiet room => fill_copy away hk hs hx hall hkey quiet room,
    fun _ _ _ may hk => congrArg Host.Outcome.next (State.l2Fill_host may hk), fun _ _ _ h => congrArg Host.Outcome.next (State.l2Fill_other h),
    fun _ _ _ _ he hx => writeback_home he hx, fun _ _ _ h => congrArg Host.Outcome.next (State.l2Evict_other h)⟩

theorem walkSteps : WalkSteps :=
  ⟨fun _ _ h => congrArg Host.Outcome.next (State.pageWalk_idle h),
    fun _ _ _ _ _ _ h hw => ⟨fun _ hf => congrArg Host.Outcome.next (State.pageWalk_found h hw hf),
      fun _ hf => congrArg Host.Outcome.next (State.pageWalk_fault h hw hf), fun hf => congrArg Host.Outcome.next (State.pageWalk_poison h hw hf)⟩,
    fun _ _ _ _ _ hm ha => State.answerWalk_one hm ha⟩

theorem storageErrors : StorageErrors := by
  refine ⟨fun _ _ => rfl, fun _ _ _ _ _ => rfl, fun _ _ _ => ⟨rfl, rfl, rfl⟩, fun pa s => ?_, fun _ _ => rfl⟩
  show Host.Outcome.next (s.strike (.sector pa)) = _
  simp [State.strike]

/-- Settles O39: the events of home slices, of walks and of storage, each from the equation of its own operation. -/
theorem cacheAndStorage : Obligations.CacheAndStorage := ⟨sliceSteps, walkSteps, storageErrors⟩

end Sys2Proof.AddressSpaces
end

section

namespace Sys2Proof.Machine

/-! ### Stores (R258, R259, R260) -/

/-- A store does what its rule says, whichever space and size it names. -/
theorem exec_store {i : Instr} {r : MemRule} (h : storeRule i = some r) (s : State) :
    exec i s = run i s fun c e => c.store e r.sp r.z r.d r.a r.o r.ord := by
  unfold storeRule plainRule at h
  split at h <;> cases h <;> rfl

end Sys2Proof.Machine

namespace Sys2Proof.MemoryHierarchy
open Sys2Proof.Machine

/-- Settles O14: a store runs `Ctx.store`, whose two ends are `store_none` and `store_ok`. -/
theorem storeResults : Obligations.StoreResults := by
  intro i r s hr hs c e
  have ran : exec i s = .next (State.finish c (c.store e r.sp r.z r.d r.a r.o r.ord).ends) := by rw [exec_store hr, run_ok hs]
  refine ⟨fun idle usable => ?_, fun accs ps e1 active usable addresses places released => ?_⟩
  · rw [ran, store_none usable idle]
    rfl
  · rw [ran, store_ok usable active addresses places (by cases ho : r.ord <;> simpa [ho] using released)]
    rfl

end Sys2Proof.MemoryHierarchy
end

section

namespace Sys2Proof.Machine

/-! ### Buckets (R61, R64 to R66) -/

section
variable {s : State} {ctl tenant : Nat} (entry : W64)

theorem State.bucketWrite_kept (h : 16 ≤ ctl ∨ 128 ≤ tenant) : s.bucketWrite ctl tenant entry = s := by
  simp [State.bucketWrite, h]

/-- A written entry stands beside the bucket's level and entry, which stay. -/
theorem State.bucketWrite_buckets (hc : ctl < 16) (ht : tenant < 128) :
    (s.bucketWrite ctl tenant entry).buckets = put {} s.buckets (bucketKey ctl tenant)
      { get ({} : Bucket) s.buckets (bucketKey ctl tenant) with pending := some (entry &&& 0x0000FFFF1FFF0003) } := by
  simp [State.bucketWrite, Nat.not_le.mpr hc, Nat.not_le.mpr ht]

end

section
variable {b : Bucket}

/-- The entry after a window's start without a new entry stays, and an enforced bucket gains REFILL up to DEPTH (R65). -/
theorem Bucket.refill_none (h : b.pending = none) : b.refill.pending = none ∧ b.refill.entry = b.entry ∧ b.refill.level =
    if tbit b.entry.toNat 0 then min (field b.entry.toNat 47 32) (b.level + field b.entry.toNat 28 16) else b.level := by
  unfold Bucket.refill
  simp only [h]
  split
  · exact ⟨rfl, rfl, rfl⟩
  · exact ⟨h, rfl, rfl⟩

/-- A new entry takes effect, LEVEL cut to its DEPTH, and then the refill follows (R66). -/
theorem Bucket.refill_some {new : W64} (h : b.pending = some new) :
    b.refill = { b with entry := new, pending := none, level := min b.level (bucketDepth new) : Bucket }.refill := by
  simp [Bucket.refill, h]

end

/-! ### Whose turn it is at a controller (R65) -/

section
variable {ts : List Nat} {last tenant : Nat} {p : Nat → Bool}

/-- The tenant found round-robin is one whose request waits and who passes the test. -/
theorem mem_of_roundRobin (h : (((List.range 128).map fun i => (last + 1 + i) % 128).find? fun t => ts.contains t && p t) = some tenant) :
    tenant ∈ ts ∧ p tenant = true := by
  simpa using List.find?_some h

/-- Where the round finds nobody, every tenant whose request waits fails the test. -/
theorem not_of_roundRobin_none (h : (((List.range 128).map fun i => (last + 1 + i) % 128).find? fun t => ts.contains t && p t) = none) :
    ∀ t ∈ ts, t < 128 → p t = false := by
  intro t ht hlt
  have all := List.find?_eq_none.mp h t (List.mem_map.mpr ⟨(t + 127 * (last + 1)) % 128, by simp; omega, by omega⟩)
  simpa [ht] using all

end

/-- Whether a controller serves a tenant before those who only borrow: its bucket is not enforced, or holds a token (R65). -/
def State.holdsToken (s : State) (ctl t : Nat) : Bool :=
  let b : Bucket := get {} s.buckets (bucketKey ctl t)
  !b.enforced || b.level ≠ 0

section
variable {s : State} {ctl tenant : Nat} (h : s.nextTenant ctl = some tenant)
include h

theorem State.nextTenant_cases :
    tenant ∈ (s.waitingSectors ctl).map (·.tenant) ∧
      (s.holdsToken ctl tenant = false → (get ({} : Bucket) s.buckets (bucketKey ctl tenant)).entry.getLsbD 1 = true ∧
        ∀ t ∈ (s.waitingSectors ctl).map (·.tenant), t < 128 → s.holdsToken ctl t = false) := by
  rcases Option.or_eq_some_iff.mp h with held | ⟨nobody, borrows⟩
  · obtain ⟨waits, holds⟩ := mem_of_roundRobin (p := s.holdsToken ctl) held
    exact ⟨waits, fun poor => absurd holds (by simp [poor])⟩
  · obtain ⟨waits, may⟩ := mem_of_roundRobin (p := fun t => (get ({} : Bucket) s.buckets (bucketKey ctl t)).entry.getLsbD 1) borrows
    exact ⟨waits, fun _ => ⟨may, not_of_roundRobin_none (p := s.holdsToken ctl) nobody⟩⟩

end

theorem State.sectorTransfer_next {s : State} {ctl tenant : Nat} {q : MemReq} (h : s.nextTenant ctl = some tenant)
    (hq : ((s.waitingSectors ctl).find? fun q => q.tenant = tenant) = some q) : s.sectorTransfer ctl tenant =
      { s.spend q.sector (some tenant) with served := put 127 s.served ctl tenant }.came fun x => x = q := by
  simp only [State.sectorTransfer, hq, h]
  exact if_neg (by simp)

theorem State.sectorTransfer_other {s : State} {ctl tenant : Nat} (h : s.nextTenant ctl ≠ some tenant) : s.sectorTransfer ctl tenant = s := by
  unfold State.sectorTransfer
  split
  · rfl
  · rw [if_pos h]

theorem State.spend_hbm (s : State) {sector : Nat} (tenant : Nat) (h : paKind (sector * 64) = .hbm) :
    s.spend sector (some tenant) = if (s.bucketFor sector tenant).enforced then
      { s with buckets := put {} s.buckets (bucketKey (ctlOf (sector * 64)) tenant)
                 { s.bucketFor sector tenant with level := (s.bucketFor sector tenant).level - 1 } } else s := by
  simp [State.spend, h]

/-! ### Controllers (R61) -/

theorem paKind_hbm {pa : Nat} (h : paKind pa = .hbm) : 0x1000000000 ≤ pa ∧ pa < 0x9000000000 := by
  unfold paKind at h
  grind

theorem homeDie_hbm {pa : Nat} (h : paKind pa = .hbm) : homeDie pa = pa / 0x1000000000 - 1 := by
  simp only [homeDie, h]

end Sys2Proof.Machine

namespace Sys2Proof.MemoryHierarchy
open Sys2Proof.Machine

/-- Settles O40: writes and refills of buckets, then whose turn it is at a controller and what a sector costs, then the controllers. -/
theorem buckets : Obligations.Buckets := by
  refine ⟨fun ctl tenant entry s hc ht => ⟨_, rfl, ?_, fun k hk => ?_⟩, fun ctl tenant entry s h => ?_, fun s h => ?_, fun s h => ?_,
    fun b new h => ?_, fun b h => ?_, fun ctl tenant q s h hq => ?_, fun ctl tenant s h => ?_, fun ctl tenant s h => ?_,
    fun sector tenant s h => ?_, fun pa h => ?_⟩
  · rw [State.bucketWrite_buckets entry hc ht, get_put_self]
  · rw [State.bucketWrite_buckets entry hc ht, get_put_ne _ _ _ hk]
  · exact congrArg Host.Outcome.next (State.bucketWrite_kept entry h)
  · exact congrArg Host.Outcome.next (if_neg (Nat.not_le.mpr h))
  · exact congrArg Host.Outcome.next (if_pos h)
  · have taken := Bucket.refill_none (b := { b with entry := new, pending := none, level := min b.level (bucketDepth new) }) rfl
    obtain ⟨pending, entry, level⟩ := taken
    rw [Bucket.refill_some h]
    refine ⟨pending, entry, level.trans ?_⟩
    rfl
  · exact (Bucket.refill_none h).2
  · exact congrArg Host.Outcome.next (State.sectorTransfer_next h hq)
  · exact congrArg Host.Outcome.next (State.sectorTransfer_other h)
  · have held : ∀ t, s.holdsToken ctl t = false ↔ ¬ ((get ({} : Bucket) s.buckets (bucketKey ctl t)).entry.getLsbD 0 = false ∨
        (get ({} : Bucket) s.buckets (bucketKey ctl t)).level ≠ 0) := by
      intro t
      simp [State.holdsToken, Bucket.enforced]
    obtain ⟨waits, poor⟩ := State.nextTenant_cases h
    refine ⟨by simpa using waits, fun hn => ?_⟩
    obtain ⟨borrows, nobody⟩ := poor ((held tenant).mpr hn)
    exact ⟨borrows, fun q hq hlt => (held q.tenant).mp (nobody q.tenant (List.mem_map_of_mem hq) hlt)⟩
  · simp only [tbit_toNat]
    exact State.spend_hbm s tenant h
  · obtain ⟨low, high⟩ := paKind_hbm h
    rw [homeDie_hbm h]
    unfold ctlOf
    omega

end Sys2Proof.MemoryHierarchy
end

section

namespace Sys2Proof.Machine

/-! ### Remote writes (R87, R89, R109) -/

/-- What a die checks of one part of a write is what R65, R87, R89, R109, R113 and R134 ask. -/
theorem State.partOk_iff (s : State) (r : Remote) : s.partOk r = true ↔ s.Admits r := by
  have overtakes : s.overtakes r = false ↔ ∀ q ∈ s.net.takeWhile (· ≠ r),
      q.src = r.src → q.inval = false → q.applied = false → q.sector = r.sector → offsMask q.bytes &&& offsMask r.bytes = 0 := by
    simp [State.overtakes]
  have posted : ((s.net.takeWhile (· ≠ r)).any fun q => q.ext && q.tag < 65 && q.src = r.src && !q.applied) = false ↔
      ∀ q ∈ s.net.takeWhile (· ≠ r), q.ext = true → q.tag < 65 → q.src = r.src → q.applied = true := by
    simp
  unfold State.partOk State.Admits
  rw [← overtakes, ← posted]
  simp only [Bool.and_eq_true, Bool.or_eq_true, Bool.not_eq_true', decide_eq_true_eq, marksOk_iff, and_assoc]
  grind

theorem State.partsOf_alone (s : State) {r : Remote} (h : r.op = none ∨ r.inval = true) : s.partsOf r = [r] := by
  unfold State.partsOf
  exact if_pos (by simpa using h)

theorem State.partsOf_some (s : State) {r : Remote} {n : Nat} (hi : r.inval = false) (ho : r.op = some n) :
    s.partsOf r = s.net.filter fun q => q.op = some n && !q.inval && !q.applied := by
  simp [State.partsOf, hi, ho]

theorem State.applyOk_alone {s : State} {r : Remote} (h : r.op = none ∨ r.inval = true) : s.applyOk r = true ↔ s.Admits r := by
  rw [State.applyOk, s.partsOf_alone h, ← State.partOk_iff]
  simp

theorem State.applyOk_parts {s : State} {r : Remote} {n : Nat} (hi : r.inval = false) (ho : r.op = some n) :
    s.applyOk r = true ↔ ∀ q ∈ s.net.filter fun q => q.op = some n && !q.inval && !q.applied, s.Admits q := by
  simp only [State.applyOk, s.partsOf_some hi ho, List.all_eq_true, State.partOk_iff]

section
variable {s : State} {e k : Nat} {r : Remote} (h : (s.waitingAt e)[k]? = some r)
include h

theorem State.waitingAt_dst : r.dst = e := by
  have waits := List.mem_of_getElem? h
  simp only [State.waitingAt, List.mem_filter, Bool.and_eq_true, decide_eq_true_eq] at waits
  exact waits.2.1

theorem State.remoteApply_refused (hr : s.applyOk r = false) :
    s.remoteApply e k = if r.here then s.askClose e r.src r.stamp else s := by
  simp [State.remoteApply, h, hr]

theorem State.remoteApply_write (hr : s.applyOk r = true) (hi : r.inval = false) : s.remoteApply e k = s.applyWrite r := by
  simp [State.remoteApply, h, hr, hi]

theorem State.remoteApply_inval (hr : s.applyOk r = true) (hi : r.inval = true) : s.remoteApply e k = s.applyInval r := by
  simp [State.remoteApply, h, hr, hi]

end

theorem State.remoteAck_of {s : State} {d k : Nat} {r : Remote} (h : (s.net.filter fun r => r.src = d && r.applied && r.copies = [])[k]? = some r) :
    s.remoteAck d k = ({ s with net := s.net.erase r }.sendMarks d).sendIrqs := by
  simp only [State.remoteAck, h]

/-! ### Marks and close requests (R108, R109) -/

section
variable {s : State} {dst src : Nat} {m : DieMsg} (h : (s.msgs.find? fun m => m.src = src && m.dst = dst) = some m)
include h

theorem State.markReceive_of : s.markReceive dst src =
    if m.mark then { s with msgs := s.msgs.erase m }.modDie dst fun x => { x with marks := x.marks.set src m.n } else s := by
  simp only [State.markReceive, State.firstMsg, h]

theorem State.closeRequest_of : s.closeRequest dst src =
    if m.mark then s
    else if vcAt (s.die dst).vc dst ≤ m.n then { s with msgs := s.msgs.erase m }.closeEpoch dst else { s with msgs := s.msgs.erase m } := by
  simp only [State.closeRequest, State.firstMsg, h]
  rfl

end

theorem State.epochTimeout_of {s : State} {e t : Nat} (h : (s.die e).first = some t) :
    s.epochTimeout e = if t + 2000 ≤ s.gtime then s.closeEpoch e else s := by
  simp only [State.epochTimeout, h]

/-! ### Epochs (R107, R108) -/

theorem State.mergeStamp_vc_ne (s : State) {e d : Nat} (v : List Nat) (h : d ≠ e) : ((s.mergeStamp e v).die d).vc = (s.die d).vc := by
  unfold State.mergeStamp
  dsimp only
  split
  · rfl
  · by_cases he : e < s.dies.length
    · rw [close_vc _ _ _ (by simpa using he), if_neg h, State.die_modDie_ne _ _ h]
    · rw [close_big _ _ _ (by simpa using he), State.die_modDie_ne _ _ h]

theorem State.mergeStamp_big (s : State) {e : Nat} (d : Nat) (v : List Nat) (h : s.dies.length ≤ e) :
    ((s.mergeStamp e v).die d).vc = (s.die d).vc := by
  unfold State.mergeStamp
  dsimp only
  split
  · rfl
  · rw [close_big _ _ _ (by simpa using h), die_modDie_big _ _ _ _ h]

/-- The entries of a die's vector with a stamp merged in: its own stays. -/
def mergedVec (e : Nat) (old v : List Nat) : List Nat :=
  (List.range 8).map fun k => if k = e then vcAt old k else max (vcAt old k) (vcAt v k)

theorem vcAt_mergedVec {e k : Nat} (old v : List Nat) (hk : k < 8) :
    vcAt (mergedVec e old v) k = if k = e then vcAt old k else max (vcAt old k) (vcAt v k) := vcAt_range _ _ hk

/-- A merge that raises an entry closes the open epoch. -/
theorem State.mergeStamp_vc {s : State} {e : Nat} (v : List Nat) (he : e < s.dies.length) : ((s.mergeStamp e v).die e).vc =
    if mergedVec e (s.die e).vc v = (s.die e).vc then (s.die e).vc
    else (mergedVec e (s.die e).vc v).set e (vcAt (mergedVec e (s.die e).vc v) e + 1) := by
  by_cases same : mergedVec e (s.die e).vc v = (s.die e).vc
  · rw [if_pos same, show s.mergeStamp e v = s from if_pos same]
  · have raised : s.mergeStamp e v = (s.modDie e fun x => { x with vc := mergedVec e (s.die e).vc v }).closeEpoch e := if_neg same
    rw [if_neg same, raised, close_vc _ _ _ (by simpa using he), if_pos rfl, State.die_modDie_self _ _ _ he]

/-- A merge takes the maximum in every entry but the die's own, which it does not lower. -/
theorem State.vcAt_mergeStamp {s : State} {e k : Nat} (v : List Nat) (he : e < s.dies.length) (hk : k < 8) :
    if k = e then vcAt (s.die e).vc k ≤ vcAt ((s.mergeStamp e v).die e).vc k
    else vcAt ((s.mergeStamp e v).die e).vc k = max (vcAt (s.die e).vc k) (vcAt v k) := by
  have entry := vcAt_mergedVec (e := e) (s.die e).vc v hk
  rw [State.mergeStamp_vc v he]
  split
  · subst_vars
    rw [if_pos rfl] at entry
    split
    · exact Nat.le_refl _
    · rw [← entry]
      exact vcAt_set_le _ _ _
  · rename_i other
    rw [if_neg other] at entry
    split
    · rename_i same
      rw [← entry, same]
    · by_cases inside : e < (mergedVec e (s.die e).vc v).length
      · rw [vcAt_set _ _ _ _ inside, if_neg other, entry]
      · rw [List.set_eq_of_length_le (Nat.not_lt.mp inside), entry]

theorem State.vcAt_le_mergeStamp {s : State} (e d : Nat) {k : Nat} (v : List Nat) (hk : k < 8) :
    vcAt (s.die d).vc k ≤ vcAt ((s.mergeStamp e v).die d).vc k := by
  by_cases other : d = e
  · subst other
    by_cases hd : d < s.dies.length
    · have entry := State.vcAt_mergeStamp v hd hk
      split at entry <;> omega
    · rw [State.mergeStamp_big s d v (Nat.not_lt.mp hd)]
  · rw [State.mergeStamp_vc_ne s v other]

theorem State.closeEpoch_first {s : State} {d : Nat} (h : d < s.dies.length) : ((s.closeEpoch d).die d).first = none := by
  unfold State.closeEpoch
  dsimp only
  rw [(sendMarks_vc _ _ _).2, State.die_modDie_self _ _ _ h]

end Sys2Proof.Machine

namespace Sys2Proof.MemoryHierarchy
open Sys2Proof.Machine

/-- A write alone in its operation: applied at its home or in the core window once the die admits it. -/
theorem apply_alone {s : State} {e k : Nat} {r : Remote} (h : (s.waitingAt e)[k]? = some r) (hi : r.inval = false) (ho : r.op = none)
    (may : s.Admits r) : exec (.remoteWriteApply e k) s = .next (s.applyPart r) := by
  refine congrArg Host.Outcome.next ((State.remoteApply_write h ((State.applyOk_alone (.inl ho)).mpr may) hi).trans ?_)
  rw [State.applyWrite, s.partsOf_alone (.inl ho)]
  rfl

/-- A write that the die does not let in has it ask for the epochs that the write waits on. -/
theorem apply_refused {s : State} {e k : Nat} {r : Remote} (h : (s.waitingAt e)[k]? = some r) (no : ¬ s.applyOk r = true) :
    exec (.remoteWriteApply e k) s = .next (if r.here then s.askClose e r.src r.stamp else s) :=
  congrArg Host.Outcome.next (State.remoteApply_refused h (Bool.not_eq_true _ ▸ no))

theorem remoteWrites : RemoteWrites := by
  refine ⟨fun e k r s h hi ho => ⟨fun may off => ?_, fun may on => ?_, fun no => ?_⟩, fun e k n r s h hi ho => ⟨fun may => ?_, fun no => ?_⟩,
    fun e k r s h hi => ⟨fun may => ⟨s.applyInval r, ?_, ?_, ?_⟩, fun no => ?_⟩, fun d k r s h => congrArg Host.Outcome.next (State.remoteAck_of h),
    fun dst src m s h hm => ⟨?_, ?_⟩, fun dst src m s h hm => ⟨?_, fun hn => ?_, fun hn => ?_⟩,
    fun e t s h => congrArg Host.Outcome.next (State.epochTimeout_of h)⟩
  · exact (apply_alone h hi ho may).trans (congrArg Host.Outcome.next (if_neg off))
  · exact (apply_alone h hi ho may).trans (congrArg Host.Outcome.next (if_pos on))
  · exact apply_refused h (mt (State.applyOk_alone (.inl ho)).mp no)
  · refine congrArg Host.Outcome.next ((State.remoteApply_write h ((State.applyOk_parts hi ho).mpr may) hi).trans ?_)
    rw [State.applyWrite, s.partsOf_some hi ho]
  · exact apply_refused h (mt (State.applyOk_parts hi ho).mp no)
  · exact congrArg Host.Outcome.next (State.remoteApply_inval h ((State.applyOk_alone (.inr hi)).mpr may) hi)
  · rw [← State.waitingAt_dst h]
    exact sendMarks_l2 _ _
  · rw [← State.waitingAt_dst h]
    exact (State.OnlyTraffic.sendMarks _ _).net
  · exact apply_refused h (mt (State.applyOk_alone (.inr hi)).mp no)
  · exact congrArg Host.Outcome.next ((State.markReceive_of h).trans (if_pos hm))
  · exact congrArg Host.Outcome.next ((State.closeRequest_of h).trans (if_pos hm))
  · exact congrArg Host.Outcome.next ((State.markReceive_of h).trans (if_neg (by simp [hm])))
  · exact congrArg Host.Outcome.next ((State.closeRequest_of h).trans ((if_neg (by simp [hm])).trans (if_pos hn)))
  · exact congrArg Host.Outcome.next ((State.closeRequest_of h).trans ((if_neg (by simp [hm])).trans (if_neg (Nat.not_le.mpr hn))))

theorem epochsRise : EpochsRise := by
  refine ⟨fun d s hd hv => ⟨?_, State.closeEpoch_first hd⟩, fun e d k v s _ hk => State.vcAt_le_mergeStamp e d v hk, fun e k v s he _ hk hne => ?_⟩
  · rw [close_vc _ _ _ hd, if_pos rfl, vcAt_set _ _ _ _ hv, if_pos rfl]
  · simpa [hne] using State.vcAt_mergeStamp v he hk

/-- Settles O38: remote writes and their acknowledgement, then epochs. -/
theorem remoteWritesAndEpochs : Obligations.RemoteWritesAndEpochs := ⟨remoteWrites, epochsRise⟩

end Sys2Proof.MemoryHierarchy
end

section

namespace Sys2Proof.Machine

/-! ### Map slots (R295, R296) -/

theorem lowest_of_idle {c : Ctx} (h : c.act = 0) : lowest c.act = none := by
  rw [h]
  exact lowest_zero

/-- A map-slot instruction without an active lane does nothing. -/
theorem slotOp_idle {i : Instr} {s : State} (hs : s.Issues) (h : BitVec 2) (ns : List Need) (body : Ctx → State → Nat → Act State)
    (idle : (s.seen i).act = 0) : slotOp i s h ns body = .next ((s.seen i).done (s.entering i)) := by
  rw [slotOp, run_ok hs]
  simp only [lowest_of_idle idle]
  rfl

/-- With an active lane it acts once, on a handle that the kernel has. -/
theorem slotOp_once {i : Instr} {s : State} (hs : s.Issues) {l : Nat} (h : BitVec 2) {ns : List Need} (body : Ctx → State → Nat → Act State)
    (once : Once (s.seen i) l ns) : slotOp i s h ns body = .next (State.finish (s.seen i)
      (if (s.seen i).g.hdr.slots ≤ h.toNat then stop (slotD l h) (s.entering i) else body (s.seen i) (s.entering i) l).ends) := by
  rw [slotOp, run_ok hs]
  simp only [once.lane, guard_ok once.usable, act_ok_bind]

/-- What `mapld` does at an address (R296). -/
def Ctx.slotLoad (c : Ctx) (e : State) (l : Nat) (h : BitVec 2) (sp : Bool) (addr : Nat) : Act State :=
  match c.binding e h with
  | none => stop (slotU l h) e
  | some b => do
    let ps ← c.range e (slotSpace sp) .read l addr (descBytes b.desc) (descEsize b.desc)
    let e ← c.observe e none ps (descEsize b.desc) (some (BitVec.ofNat 64 addr))
    let r := c.readRange e ps (descEsize b.desc)
    return e.loadSlot c.core c.owner b.slot r.1 r.2

/-- What `mapst` does at an address (R296). -/
def Ctx.slotStore (c : Ctx) (e : State) (l : Nat) (h : BitVec 2) (sp : Bool) (addr : Nat) : Act State :=
  match c.binding e h with
  | none => stop (slotU l h) e
  | some b => do
    let n := descEsize b.desc
    let ps ← c.range e (slotSpace sp) .write l addr (descBytes b.desc) n
    let r := e.slotBytes c.core c.owner b.slot (descBytes b.desc)
    return e.writePlaces c.die c.owner false (ps.zipIdx.map fun p => (p.1, (r.1.drop (n * p.2)).take n, r.2))

/-- `mapbind`, `mapld` and `mapst` by what they do at their address. -/
def slotRule (x : Ctl) (h : BitVec 2) (a : BitVec 8) (sp : Bool) (i : Instr) : Ctx → State → Nat → Nat → Act State :=
  if i = .mapbind x h a sp then fun c e l addr => c.bind e l h sp addr
  else if i = .mapld x h a sp then fun c e l addr => c.slotLoad e l h sp addr
  else fun c e l addr => c.slotStore e l h sp addr

section
variable {i : Instr} {x : Ctl} {h : BitVec 2} {a : BitVec 8} {sp : Bool} (hi : i = .mapbind x h a sp ∨ i = .mapld x h a sp ∨ i = .mapst x h a sp)
include hi

theorem exec_slotRule (s : State) : exec i s = slotOp i s h [.k 1 a.toNat] fun c e l => c.slotAddr e sp a >>= slotRule x h a sp i c e l := by
  rcases hi with rfl | rfl | rfl
  · rw [slotRule, if_pos rfl]
    rfl
  · rw [slotRule, if_neg nofun, if_pos rfl]
    rfl
  · rw [slotRule, if_neg nofun, if_neg nofun]
    rfl

variable {s : State} (hs : s.Issues)
include hs

theorem exec_slotRule_idle (idle : (s.seen i).act = 0) : exec i s = .next ((s.seen i).done (s.entering i)) := by
  rw [exec_slotRule hi, slotOp_idle hs _ _ _ idle]

variable {l : Nat} (once : Once (s.seen i) l [.k 1 a.toNat])
include once

theorem exec_slotRule_slotD (has : (s.seen i).g.hdr.slots ≤ h.toNat) :
    exec i s = .next ((s.seen i).trapped (s.entering i) { cause := 0x2A, lanes := bitOf l, d := h.setWidth 64 }) := by
  rw [exec_slotRule hi, slotOp_once hs _ _ once, if_pos has]
  rfl

theorem exec_slotRule_once (has : h.toNat < (s.seen i).g.hdr.slots) (clean : (at_ ({} : KReg) (s.seen i).w.uni a.toNat).poison = false) :
    exec i s = .next (State.finish (s.seen i) (slotRule x h a sp i (s.seen i) (s.entering i) l ((s.seen i).uniAddr sp a)).ends) := by
  rw [exec_slotRule hi, slotOp_once hs _ _ once, if_neg (Nat.not_le.mpr has)]
  simp only [Ctx.slotAddr, Ctx.kreg, clean]
  rfl

end

/-! ### What the three do (R296) -/

theorem signed_field_high (d : BitVec 128) : signed 64 (field d.toNat 127 64) = (d.extractLsb' 64 64).toInt := by
  unfold signed field
  congr 1
  apply BitVec.eq_of_toNat_eq
  simp [Nat.shiftRight_eq_div_pow]

theorem spSpace_eq (sp : Bool) : spSpace sp = slotSpace sp := rfl

/-- The slot that `mapbind` loads: the handle's own, else the lowest free one. -/
def Ctx.bindSlot (c : Ctx) (e : State) (h : BitVec 2) : Option Nat :=
  match c.binding e h with
  | some b => some b.slot
  | none => e.freeSlot c.core

section
variable {c : Ctx} {e e1 : State} {l : Nat} {h : BitVec 2} {sp : Bool} {addr : Nat}

/-- `mapbind` once it has read its descriptor. -/
theorem Ctx.bind_read {ps : List Place} (hr : c.range e (spSpace sp) .read l addr 16 16 = .ok ps)
    (ho : c.observe e none ps 16 (some (BitVec.ofNat 64 addr)) = .ok e1) (hp : (c.readRange e1 ps 16).2 = false) :
    let d : BitVec 128 := BitVec.ofNat 128 (ofBytes (c.readRange e1 ps 16).1)
    let m : Int := addr + (d.extractLsb' 64 64).toInt
    c.bind e l h sp addr =
      if !descOk d || m % descEsize d ≠ 0 then stop (slotD l h) e1
      else match c.bindSlot e1 h with
        | none => stop (.wait { kind := 6, addr := BitVec.ofNat 64 addr, value := h.setWidth 64 }) e1
        | some k => do
          let qs ← c.range e1 (spSpace sp) .read l (if sp then (if m < 0 then 2 ^ 32 else m.toNat) else (m % 2 ^ 64).toNat) (descBytes d) (descEsize d)
          let e2 ← c.observe e1 none qs (descEsize d) (some (BitVec.ofNat 64 addr))
          let r := c.readRange e2 qs (descEsize d)
          return (e2.loadSlot c.core c.owner k r.1 r.2).modGroup c.core c.room fun g =>
            { g with handles := g.handles.set h.toNat (some { slot := k, desc := d }) } := by
  intro d m
  rw [spSpace_eq] at hr
  simp only [Ctx.bind, hr, ho, hp, act_ok_bind, signed_field_high]
  rfl

section
variable {b : Binding} (hb : c.binding e h = some b)
include hb

theorem Ctx.slotLoad_ok {ps : List Place} (hr : c.range e (spSpace sp) .read l addr (descBytes b.desc) (descEsize b.desc) = .ok ps)
    (ho : c.observe e none ps (descEsize b.desc) (some (BitVec.ofNat 64 addr)) = .ok e1) :
    c.slotLoad e l h sp addr = .ok (e1.loadSlot c.core c.owner b.slot (c.readRange e1 ps (descEsize b.desc)).1
      (c.readRange e1 ps (descEsize b.desc)).2) := by
  rw [spSpace_eq] at hr
  simp only [Ctx.slotLoad, hb, hr, ho, act_ok_bind, act_pure]

theorem Ctx.slotStore_ok {ps : List Place} (hr : c.range e (spSpace sp) .write l addr (descBytes b.desc) (descEsize b.desc) = .ok ps) :
    let r := e.slotBytes c.core c.owner b.slot (descBytes b.desc)
    let n := descEsize b.desc
    c.slotStore e l h sp addr = .ok (e.writePlaces c.die c.owner false (ps.zipIdx.map fun p => (p.1, (r.1.drop (n * p.2)).take n, r.2))) := by
  rw [spSpace_eq] at hr
  simp only [Ctx.slotStore, hb, hr, act_ok_bind, act_pure]

end

/-- SLOTU of a handle without a binding. -/
theorem slotRule_unbound {i : Instr} {x : Ctl} {a : BitVec 8} (hi : i ≠ .mapbind x h a sp) (hb : c.binding e h = none) :
    slotRule x h a sp i c e l addr = stop (slotU l h) e := by
  rw [slotRule, if_neg hi]
  split
  · simp only [Ctx.slotLoad, hb]
  · simp only [Ctx.slotStore, hb]

end

/-! ### What frees a slot and tells of it (R296) -/

theorem exec_maprel (x : Ctl) (h : BitVec 2) (s : State) : exec (.maprel x h) s = slotOp (.maprel x h) s h [] fun c e _ =>
    .ok (e.modGroup c.core c.room fun g => { g with handles := g.handles.set h.toNat none }) := rfl

theorem writeK_now (c : Ctx) (e : State) (d : BitVec 8) (v : W64) : c.writeK e false d { data := v } = c.putK e d v := rfl

section
variable {x : Ctl} {d : BitVec 8} {h : BitVec 2} {s : State} (hs : s.Issues)
include hs

theorem exec_mapinfo_idle (idle : (s.seen (.mapinfo x d h)).act = 0) :
    exec (.mapinfo x d h) s = .next ((s.seen (.mapinfo x d h)).done (s.entering (.mapinfo x d h))) := by
  show execMapinfo x d h s = _
  rw [execMapinfo, run_ok hs]
  simp only [lowest_of_idle idle]
  rfl

/-- What `mapinfo` says of a handle. -/
def Ctx.slotInfo (c : Ctx) (e : State) (h : BitVec 2) : W64 := BitVec.ofNat 64 (match c.binding e h with
  | none => 0x00FF0000
  | some b => b.desc.toNat % 2 ^ 16 + b.slot * 2 ^ 16 + 2 ^ 24 + (if (e.slotBytes c.core c.owner b.slot 1).2 then 2 ^ 25 else 0))

theorem exec_mapinfo_once {l : Nat} (once : Once (s.seen (.mapinfo x d h)) l [.k 0 d.toNat]) :
    let c := s.seen (.mapinfo x d h)
    let e := s.entering (.mapinfo x d h)
    exec (.mapinfo x d h) s = .next (c.done (c.putK e d (c.slotInfo e h))) := by
  intro c e
  show execMapinfo x d h s = _
  rw [execMapinfo, run_ok hs]
  simp only [once.lane, guard_ok once.usable, act_ok_bind]
  rfl

end
end Sys2Proof.Machine

namespace Sys2Proof.MemoryHierarchy
open Sys2Proof.Machine

/-- Settles O34: the handle's checks, what `mapbind`, `mapld` and `mapst` do behind them, then `maprel`, `mapinfo` and the end of a wait. -/
theorem mapSlotResults : Obligations.MapSlotResults := by
  refine ⟨fun i x h a sp s hi hs => ⟨exec_slotRule_idle hi hs, fun l once => ⟨exec_slotRule_slotD hi hs once, fun has clean => ?_⟩⟩,
    fun x h s hs => ⟨fun idle => ?_, fun l once has => ?_⟩,
    fun x d h s hs => ⟨exec_mapinfo_idle hs, fun l once => ⟨fun unbound => ?_, fun b bound => ?_⟩⟩,
    fun r i x y s t => ⟨fun h a sp hi waits bound => ?_, fun a hi waits submitted => ?_⟩⟩
  · have ran := exec_slotRule_once hi hs once has clean
    refine ⟨fun hbind ps e1 hr ho hp => ?_, fun other unbound => ?_, fun b ps e1 hload bound hr ho => ?_, fun b ps hstore bound hr => ?_⟩
    · rw [slotRule, if_pos hbind, Ctx.bind_read hr ho hp] at ran
      refine ⟨fun bad => ?_, fun good aligned => ⟨fun full => ?_, fun k qs e2 free hq hm => ?_⟩⟩
      · rw [if_pos (by simpa using bad)] at ran
        exact ran
      · rw [if_neg (by simpa [good] using aligned), show (s.seen i).bindSlot e1 h = none from full] at ran
        exact ran
      · rw [if_neg (by simpa [good] using aligned), show (s.seen i).bindSlot e1 h = some k from free] at ran
        simp only [hq, hm, act_ok_bind] at ran
        exact ran
    · rw [slotRule_unbound other unbound] at ran
      exact ran
    · subst hload
      rw [slotRule, if_neg nofun, if_pos rfl, Ctx.slotLoad_ok bound hr ho] at ran
      exact ran
    · subst hstore
      rw [slotRule, if_neg nofun, if_neg nofun, Ctx.slotStore_ok bound hr] at ran
      exact ran
  · rw [exec_maprel, slotOp_idle hs _ _ _ idle]
  · rw [exec_maprel, slotOp_once hs _ _ once, if_neg (Nat.not_le.mpr has)]
    rfl
  · rw [exec_mapinfo_once hs once, Ctx.slotInfo, unbound]
    rfl
  · rw [exec_mapinfo_once hs once, Ctx.slotInfo, bound]
  · exact congrArg Host.Outcome.next (resume_ok waits (by simp) (by subst hi; exact bound))
  · exact congrArg Host.Outcome.next (resume_ok waits (by simp) (by subst hi; exact submitted))

end Sys2Proof.MemoryHierarchy
end

section

namespace Sys2Proof.Machine

/-! ### Accesses of one lane and of blocks (R214, R256, R263, R264) -/

theorem ksrc_poison (c : Ctx) (a : Src) : (c.ksrc a).poison = (c.uniform a).2 := by rw [ksrc_eq]

theorem ksrc_data (c : Ctx) (a : Src) : (c.ksrc a).data = (c.uniform a).1 := by rw [ksrc_eq]

/-- The address that `kld` and `std` compute. -/
theorem uniformAddr_eq (sp : Bool) (a b : W64) :
    (if sp then (a.toNat % 2 ^ 32 : Int) + b.toInt else ((a + b).toNat : Int)) = uniformAddr sp a b := by
  rw [uniformAddr, BitVec.toNat_add]

theorem writeK_pending (c : Ctx) (e : State) (d : BitVec 8) (v : W64) (p : Bool) :
    c.writeK e true d { data := v, poison := p } = c.commit e true [.k d.toNat] [.k d.toNat (uniformWord v p)] := rfl

/-- A lane of `ldd`: the header word, or an element with its flags. -/
theorem lddWord_eq (c : Ctx) (e : State) (hdr : Bool) (f : LddFmt) (l : Nat) (blk : List Byte × Bool) (w : LaneWord) :
    (if hdr then (l, LaneWord.of (lddHeader blk.1 blk.2) false, (0 : FFlags))
      else
        match lddElement (e.core c.core).books (c.g.launch, c.g.gang) (LddFmt.fmt f) c.rm c.sat blk.1 blk.2 w with
        | none => (l, LaneWord.of 0 true, 0)
        | some y => (l, LaneWord.of (BitVec.ofNat 32 y.1) false, y.2)) = (l, lddWord c e hdr f blk w) := by
  cases hdr
  · unfold lddWord
    cases lddElement (e.core c.core).books (c.g.launch, c.g.gang) (LddFmt.fmt f) c.rm c.sat blk.1 blk.2 w <;> rfl
  · rfl

/-- The words of `ldd`'s lanes written, and their flags recorded together. -/
def Ctx.lddWrite (c : Ctx) (e : State) (d : Dst) (res : List (Nat × LaneWord × FFlags)) : Act State :=
  c.writeLanes e true d 1 (res.map fun r => (r.1, [r.2.1])) (flagWrites (res.foldl (fun (acc : FFlags) r => acc ||| r.2.2) 0))

theorem active_of_lowest {m : LaneMask} {l : Nat} (h : lowest m = some l) : m ≠ 0 := by
  rintro rfl
  rw [lowest_zero] at h
  cases h

/-! ### Cache control (R60, R65, R268) -/

theorem prefetchSec_of_some {c : Ctx} {s t : State} {q : Nat × Attr}
    (h : (let h := homeDie (q.1 * 64)
      if distant q.1 ∨ s.mustFetch h q.2 q.1 allBytes = false then some s
      else
        let o := s.obtain (.split c.ref) q.2 c.g.owner q.1
        if o.1 then some (o.2.fillSec h q.2 q.1 allBytes) else none) = some t) : c.prefetchSec s q = (true, t) := by
  unfold Ctx.prefetchSec
  dsimp only at h ⊢
  split at h
  · rename_i none_needed
    cases h
    exact if_pos (by simpa using none_needed)
  · rename_i needed
    rw [if_neg (by simpa using needed)]
    generalize s.obtain (.split c.ref) q.2 c.g.owner q.1 = o at h
    obtain ⟨came, u⟩ := o
    cases came <;> cases h
    rfl

theorem backNow_eq (s : State) (q : Nat) : ((s.sec (homeDie (q * 64)) q).map s.backFree).getD true = s.backNow q := by
  unfold State.backNow
  cases hx : s.sec (homeDie (q * 64)) q with
  | none => rfl
  | some x => simp [State.backFree, (State.sec_some hx).2]

theorem backSec_of_some {f : State → Nat → State} {s t : State} {q : Nat × Attr} (h : (if s.backNow q.1 then some (f s q.1) else none) = some t) :
    backSec f s q = (true, t) := by
  rw [backSec, backNow_eq]
  split at h <;> cases h
  rename_i free
  rw [if_pos free]

/-- Cache control goes by its rule: wherever the rule answers, the model's own operation on a sector answers that state. -/
theorem exec_cctl {i : Instr} {a b : Src} {k : AccKind} {f : Ctx → State → Nat × Attr → Option State} (h : cctlRule i = some (a, b, k, f)) :
    ∃ g, (∀ s, exec i s = cctl i s a b k g) ∧ ∀ c s q t, f c s q = some t → g c s q = (true, t) := by
  unfold cctlRule at h
  split at h <;> cases h
  · exact ⟨Ctx.prefetchSec, fun _ => rfl, fun _ _ _ _ h => prefetchSec_of_some h⟩
  · exact ⟨fun _ => backSec State.cleanSec, fun _ => rfl, fun _ _ _ _ h => backSec_of_some h⟩
  · exact ⟨fun _ => backSec State.evictSec, fun _ => rfl, fun _ _ _ _ h => backSec_of_some h⟩
  · exact ⟨fun _ s q => (true, s.discardSec q.1), fun _ => rfl, fun _ _ _ _ h => by cases h; rfl⟩

/-- Sectors done one after another, none of which has to wait. -/
theorem foldl_of_foldlM {α : Type} {f : State → α → Option State} {g : State → α → Bool × State}
    (h : ∀ s q t, f s q = some t → g s q = (true, t)) {qs : List α} {s t : State} (hf : qs.foldlM f s = some t) :
    qs.foldl (fun (acc : Bool × State) q => (acc.1 && (g acc.2 q).1, (g acc.2 q).2)) (true, s) = (true, t) := by
  induction qs generalizing s with
  | nil => cases hf; rfl
  | cons q r ih =>
    rw [List.foldlM_cons] at hf
    obtain ⟨u, hu, hr⟩ := Option.bind_eq_some_iff.mp hf
    rw [List.foldl_cons, h s q u hu]
    exact ih hr

end Sys2Proof.Machine

namespace Sys2Proof.MemoryHierarchy
open Sys2Proof.Machine

/-- Settles O16: kld, ldd, std and cache control, each run past its checks to its effect. -/
theorem blockAndUniformAccesses : Obligations.BlockAndUniformAccesses := by
  refine ⟨fun x sp d a b s hs => ?_, fun x sp hdr f d a b s hs => ?_, fun x sp f d a b s hs => ?_, fun i a b k f s hi hs => ?_⟩
  · dsimp only
    rw [show exec (.kld x sp d a b) s = execKld x sp d a b s from rfl, execKld, run_ok hs]
    generalize s.seen (.kld x sp d a b) = c, s.entering (.kld x sp d a b) = e
    intro usable ha hb ps places kept e1 came
    simp only [guard_ok usable, act_ok_bind, ksrc_data, uniformAddr_eq, ksrc_poison, ha, hb, places, kept, came, writeK_pending, Bool.or_false,
      Bool.false_eq_true, if_false]
    rfl
  · dsimp only
    rw [show exec (.ldd x sp hdr f d a b) s = execLdd x sp hdr f d a b s from rfl, execLdd, run_ok hs]
    generalize s.seen (.ldd x sp hdr f d a b) = c, s.entering (.ldd x sp hdr f d a b) = e
    refine ⟨fun idle usable => ?_, fun accs ps e' active usable addresses places kept e1 came trails => ?_⟩
    · simp only [memGuard_none usable idle, idle, act_ok_bind, if_true]
      rfl
    · simp only [memGuard_ok usable active, active, act_ok_bind, if_false, addresses, places, kept, Bool.false_eq_true]
      have came' : c.observe e none (ps.map (·.2)) 64 (some (firstAddr accs)) = .ok e1 := came
      simp only [came', act_ok_bind]
      refine (congrArg (fun res => Host.Outcome.next (State.finish c (c.lddWrite e1 d res).ends))
        (List.map_congr_left fun p _ => lddWord_eq c e1 hdr f p.1 _ _)).trans ?_
      rw [Ctx.lddWrite, writeLanes_ok trails]
      rfl
  · dsimp only
    rw [show exec (.std x sp f d a b) s = execStd x sp f d a b s from rfl, execStd, run_ok hs]
    generalize s.seen (.std x sp f d a b) = c, s.entering (.std x sp f d a b) = e
    refine ⟨fun idle usable => ?_, fun l ps first usable ha hb places => ?_⟩
    · simp only [memGuard_none usable idle, idle, lowest_zero, act_ok_bind]
      rfl
    · simp only [memGuard_ok usable (active_of_lowest first), first, act_ok_bind, ksrc_data, uniformAddr_eq, ksrc_poison, ha, hb, places, Bool.or_false,
        Bool.false_eq_true, if_false]
      rfl
  · obtain ⟨g, ran, does⟩ := exec_cctl hi
    dsimp only
    rw [ran, cctl, run_ok hs]
    generalize s.seen i = c, s.entering i = e
    refine ⟨fun idle usable => ?_, fun l ps first usable ha hb places quiet t done => ?_⟩
    · simp only [memGuard_none usable idle, idle, lowest_zero, act_ok_bind]
      rfl
    · have calm : (lineSectors ps).any (fun q => !(e.ownWrites c.die q.1).isEmpty) = false := by simpa using quiet
      unfold linesOf at places
      simp only [memGuard_ok usable (active_of_lowest first), first, act_ok_bind, ksrc_data, ksrc_poison, ha, hb, places, Bool.or_false,
        Bool.false_eq_true, if_false]
      generalize sectors : List.flatMap _ ps = qs
      obtain rfl : lineSectors ps = qs := sectors
      simp only [calm, foldl_of_foldlM (does c) done, Bool.false_eq_true, if_false, if_true]
      rfl

end Sys2Proof.MemoryHierarchy
end

section

namespace Sys2Proof.Machine

/-! ### Cores and warps after an update -/

/-- What holds of a core and of its changed form holds of it once changed. -/
theorem State.core_modCore_of {P : Core → Prop} (s : State) (c : Nat) (f : Core → Core) (h : P (s.core c)) (hf : P (f (s.core c))) :
    P ((s.modCore c f).core c) := by
  by_cases hc : c < s.cores.length
  · rwa [State.core_modCore_self s c f hc]
  · have same : (s.modCore c f).core c = s.core c := by simp [State.core, State.modCore, modifyAt_length, Nat.not_lt.mp hc]
    rwa [same]

/-- A warp that is there lies in a core that is there. -/
theorem State.core_lt_of_warp? {s : State} {c slot : Nat} (h : (s.warp? c slot).isSome = true) : c < s.cores.length := by
  by_contra big
  have none_there : s.warp? c slot = none := by simp [State.warp?, State.core, Nat.not_lt.mp big]
  simp [none_there] at h

theorem State.warp?_modWarp_self {s : State} {c slot : Nat} (f : Warp → Warp) (h : (s.warp? c slot).isSome = true) :
    (s.modWarp c slot f).warp? c slot = some (f (s.warp c slot)) := by
  obtain ⟨w, hw⟩ := Option.isSome_iff_exists.mp h
  simp only [State.modWarp, State.warp, hw, Option.getD_some]
  exact State.warp?_setWarp_self s c slot _ (State.core_lt_of_warp? h)

theorem State.warp_modWarp_self {s : State} {c slot : Nat} (f : Warp → Warp) (h : (s.warp? c slot).isSome = true) :
    (s.modWarp c slot f).warp c slot = f (s.warp c slot) := by
  rw [State.warp, State.warp?_modWarp_self f h]
  rfl

theorem State.warp?_modWarp_ne (s : State) {c slot k j : Nat} (f : Warp → Warp) (h : k ≠ c ∨ j ≠ slot) :
    (s.modWarp c slot f).warp? k j = s.warp? k j := by
  unfold State.modWarp
  split
  · exact State.warp?_setWarp_ne s _ h
  · rfl

theorem State.core_modWarp_of {P : Core → Prop} (s : State) (c slot : Nat) (f : Warp → Warp)
    (hf : ∀ k ws, P k → P { k with warps := ws }) (h : P (s.core c)) : P ((s.modWarp c slot f).core c) := by
  unfold State.modWarp
  split
  · exact State.core_modCore_of s c _ h (hf _ _ h)
  · exact h

theorem State.warps_modCore {s : State} {c : Nat} {f : Core → Core} (hf : ∀ k, (f k).warps = k.warps) (k j : Nat) :
    (s.modCore c f).warp? k j = s.warp? k j := by
  unfold State.warp?
  by_cases hk : k = c
  · subst hk
    exact congrArg (fun ws => get none ws j)
      (State.core_modCore_of (P := fun x => x.warps = (s.core k).warps) s k f rfl (hf _))
  · rw [State.core_modCore_ne s f hk]

/-! ### What the results of a warp leave alone elsewhere -/

/-- No other core and no other warp differs, and the warp stays where it is. -/
structure State.OnlyWarp (core slot : Nat) (s t : State) : Prop where
  /-- No other core differs. -/
  cores : ∀ k, k ≠ core → t.core k = s.core k
  /-- No other warp of the core differs. -/
  warps : ∀ j, j ≠ slot → t.warp? core j = s.warp? core j
  /-- The warp is there if it was. -/
  live : (s.warp? core slot).isSome = true → (t.warp? core slot).isSome = true

namespace State.OnlyWarp

variable {core slot : Nat} {s t u : State}

theorem refl (s : State) : s.OnlyWarp core slot s := ⟨fun _ _ => rfl, fun _ _ => rfl, id⟩

theorem trans (h : s.OnlyWarp core slot t) (g : t.OnlyWarp core slot u) : s.OnlyWarp core slot u :=
  ⟨fun k hk => (g.cores k hk).trans (h.cores k hk), fun j hj => (g.warps j hj).trans (h.warps j hj), fun l => g.live (h.live l)⟩

theorem modCore (s : State) {f : Core → Core} (warps : ∀ k, (f k).warps = k.warps) : s.OnlyWarp core slot (s.modCore core f) :=
  ⟨fun _ hk => State.core_modCore_ne s f hk, fun j _ => State.warps_modCore warps core j, fun l => by rwa [State.warps_modCore warps]⟩

theorem modWarp (s : State) (f : Warp → Warp) : s.OnlyWarp core slot (s.modWarp core slot f) :=
  ⟨fun _ hk => State.core_modWarp_ne s f hk, fun _ hj => State.warp?_modWarp_ne s f (.inr hj), fun l => by rw [State.warp?_modWarp_self f l]; rfl⟩

theorem writeReg (s : State) (r : RegWrite) : s.OnlyWarp core slot (s.writeReg core slot r) := by
  cases r with
  | v n l x => exact modCore s fun _ => rfl
  | act n b d =>
    refine trans ?_ (modWarp _ _)
    exact modCore s fun _ => rfl
  | k | m | mbit | ix | flags | empty => exact modWarp s _

theorem writeRegs (s : State) (rs : List RegWrite) : s.OnlyWarp core slot (s.writeRegs core slot rs) := by
  unfold State.writeRegs
  induction rs generalizing s with
  | nil => exact refl s
  | cons r rest ih => exact (writeReg s r).trans (ih _)

theorem drain (s : State) (p : Pending → Bool) : s.OnlyWarp core slot (s.drain core slot p) := (writeRegs s _).trans (modWarp _ _)

end State.OnlyWarp

/-! ### Paths of a warp (R147 to R152) -/

/-- Nothing differs but splits and what goes with them: nesting, the reconvergence stack, blocking records and ages. -/
def Warp.OnlyPaths (w v : Warp) : Prop :=
  v = { w with splits := v.splits, nest := v.nest, stack := v.stack, block := v.block, age := v.age, came := v.came, stopped := v.stopped }

namespace Warp.OnlyPaths

theorem refl (w : Warp) : w.OnlyPaths w := rfl

theorem trans {w v u : Warp} (h : w.OnlyPaths v) (g : v.OnlyPaths u) : w.OnlyPaths u := by
  unfold Warp.OnlyPaths at *
  rw [g, h]

theorem place (w : Warp) (x : Split) (came : W64) : w.OnlyPaths (w.place x came) := by
  unfold Warp.place
  split
  · exact refl w
  · split <;> exact rfl

theorem complete (w : Warp) (j : Nat) (came : W64) : w.OnlyPaths (w.complete j came) := by
  unfold Warp.complete
  split
  · exact trans (v := { w with stack := _, nest := _ }) rfl (place _ _ _)
  · exact refl w

theorem popPath (w : Warp) (j : Nat) (came : W64) : w.OnlyPaths (w.popPath j came) := by
  unfold Warp.popPath
  split
  · exact trans (v := { w with stack := _ }) rfl (place _ _ _)
  · exact refl w

theorem settleIn (fuel : Nat) (w : Warp) (came : W64) : w.OnlyPaths (Warp.settleIn fuel w came) := by
  induction fuel generalizing w with
  | zero => exact refl w
  | succ n ih =>
    unfold Warp.settleIn
    split
    · exact (complete w _ came).trans (ih _)
    · split
      · exact trans (v := w.arrive _ _ _) rfl (ih _)
      · split
        · exact refl w
        · split
          · exact (popPath w _ came).trans (ih _)
          · exact refl w

theorem settle (w : Warp) (came : W64) : w.OnlyPaths (w.settle came) := settleIn _ w came

end Warp.OnlyPaths

/-! ### What the results of a warp leave alone -/

/-- The registers of a warp that are no vector registers, its sticky flags aside, with its room. -/
def Warp.file (w : Warp) : Nat × List LaneMask × List KReg × List W32 × W64 × TrapRegs × Bool × W64 :=
  (w.room, w.masks, w.uni, w.ix, w.satchel, w.trap, w.handler, w.wtcmp)

/-- A result to a lane of a vector register, or sticky flags. -/
def RegWrite.isLane : RegWrite → Bool
  | .v _ _ _ | .flags _ => true
  | .k _ _ | .m _ _ | .mbit _ _ _ | .ix _ _ | .empty _ | .act _ _ _ => false

/-- What is kept of a state once some results of a warp may have been written, or may be pending. -/
structure State.Keeps (core slot : Nat) (may : RegWrite → Prop) (e t : State) : Prop where
  /-- The warp is there. -/
  live : (t.warp? core slot).isSome = true
  /-- No other core differs. -/
  cores : ∀ k, k ≠ core → t.core k = e.core k
  /-- No other warp of the core differs. -/
  warps : ∀ j, j ≠ slot → t.warp? core j = e.warp? core j
  /-- No room's group has another owner. -/
  owners : ∀ n, (t.group core n).owner = (e.group core n).owner
  /-- The warp's other registers are those that it had. -/
  file : (t.warp core slot).file = (e.warp core slot).file
  /-- No field of sr.wflags but the sticky flags differs. -/
  fields : (t.warp core slot).wflags &&& 0xFFFFFFE0 = (e.warp core slot).wflags &&& 0xFFFFFFE0
  /-- Nor do they where no flags may be written. -/
  flags : (∀ f, ¬ may (.flags f)) → (t.warp core slot).wflags = (e.warp core slot).wflags
  /-- No lane of a vector register differs that may not be written. -/
  vregs : ∀ n l, (∀ x, ¬ may (.v n l x)) → t.vreg core slot n l = e.vreg core slot n l
  /-- Nor does a row where none may be written. -/
  rows : (∀ n l x, ¬ may (.v n l x)) → (t.core core).rows = (e.core core).rows
  /-- What is pending may be written. -/
  pend : ∀ p ∈ (t.warp core slot).pend, ∀ r ∈ p.writes, may r

theorem at_set_ne {α : Type} (d : α) (t : List α) {k j : Nat} (x : α) (h : j ≠ k) : at_ d (t.set k x) j = at_ d t j := by
  simp [at_, List.getD, Ne.symm h]

theorem at_replicate {α : Type} (d : α) (n j : Nat) : at_ d (List.replicate n d) j = d := by
  by_cases h : j < n <;> simp [at_, List.getD, h]

/-- A row that a writer takes over reads as zero to it before and after, but for the lane written (R38). -/
theorem Core.lane_setLane_ne (k : Core) (o : Option Nat) {key l key' l' : Nat} (x : LaneWord) (h : key' ≠ key ∨ l' ≠ l) :
    (k.setLane o key l x).lane o key' l' = k.lane o key' l' := by
  unfold Core.lane Core.setLane
  dsimp only
  by_cases hk : key' = key
  · subst hk
    have hl : l' ≠ l := h.resolve_left (fun g => g rfl)
    rw [get_put_self]
    by_cases own : (get {} k.rows key').owner = o
    · simp only [own, if_true, at_set_ne _ _ _ hl]
    · simp only [own, if_false, at_set_ne _ _ _ hl, at_replicate, decide_false, Bool.and_false, ite_self, Bool.false_eq_true]
  · rw [get_put_ne _ _ _ hk]

/-- A warp reads its vector registers by its rows and its group's owner alone. -/
theorem State.vreg_congr {s t : State} {core slot : Nat} (rows : (t.core core).rows = (s.core core).rows)
    (owner : (t.groupOf core slot).owner = (s.groupOf core slot).owner) (n l : Nat) : t.vreg core slot n l = s.vreg core slot n l := by
  unfold State.vreg Core.lane
  rw [owner, rows]

/-- Sticky flags lie in the low five bits of sr.wflags. -/
theorem stickyFlags_fields (a : W32) (f : BitVec 5) : (a ||| f.setWidth 32) &&& 0xFFFFFFE0 = a &&& 0xFFFFFFE0 := by
  have low : ∀ f : BitVec 5, f.setWidth 32 &&& (0xFFFFFFE0 : W32) = 0 := by decide
  apply BitVec.eq_of_getLsbD_eq
  intro i hi
  have bit := congrArg (·.getLsbD i) (low f)
  simp only [BitVec.getLsbD_and, BitVec.getLsbD_or] at bit ⊢
  grind

/-- What is still to be written after some results were written was to be written before. -/
theorem mem_written {p : Pending → Bool} {keep : Bool} {ps : List Pending} {q : Pending} (hq : q ∈ (written p keep ps).2) {r : RegWrite}
    (hr : r ∈ q.writes) : ∃ x ∈ ps, r ∈ x.writes := by
  induction ps with
  | nil => cases hq
  | cons x rest ih =>
    unfold written at hq
    grind

theorem rowOf_inj {slot n m : Nat} : rowOf slot n = rowOf slot m ↔ n = m := by
  unfold rowOf
  omega

section
variable {core slot : Nat} {may : RegWrite → Prop} {e t : State}

theorem State.keeps_refl (live : (e.warp? core slot).isSome = true) (pend : ∀ p ∈ (e.warp core slot).pend, ∀ r ∈ p.writes, may r) :
    e.Keeps core slot may e :=
  ⟨live, fun _ _ => rfl, fun _ _ => rfl, fun _ => rfl, rfl, rfl, fun _ => rfl, fun _ _ _ => rfl, fun _ => rfl, pend⟩

namespace State.Keeps

theorem room (h : e.Keeps core slot may t) : (t.warp core slot).room = (e.warp core slot).room := congrArg (·.1) h.file

theorem owner (h : e.Keeps core slot may t) : (t.groupOf core slot).owner = (e.groupOf core slot).owner := by
  unfold State.groupOf
  rw [h.room, h.owners]

/-- A change outside cores. -/
theorem outside {u : State} (h : e.Keeps core slot may t) (hu : u.cores = t.cores) : e.Keeps core slot may u := by
  have same : ∀ k, u.core k = t.core k := fun k => by rw [State.core, State.core, hu]
  have warp? : ∀ k j, u.warp? k j = t.warp? k j := fun k j => by rw [State.warp?, State.warp?, same]
  have warp : u.warp core slot = t.warp core slot := by rw [State.warp, State.warp, warp?]
  have group : ∀ n, u.group core n = t.group core n := fun n => by rw [State.group, State.group, State.room, State.room, same]
  have vreg := State.vreg_congr (s := t) (t := u) (core := core) (slot := slot) (by rw [same]) (by rw [State.groupOf, State.groupOf, warp, group])
  exact ⟨by rw [warp?]; exact h.live, fun k hk => (same k).trans (h.cores k hk), fun j hj => (warp? core j).trans (h.warps j hj),
    fun n => by rw [group]; exact h.owners n, by rw [warp]; exact h.file, by rw [warp]; exact h.fields, fun no => by rw [warp]; exact h.flags no,
    fun n l no => (vreg n l).trans (h.vregs n l no), fun no => by rw [same]; exact h.rows no, by rw [warp]; exact h.pend⟩

/-- A change of the warp that keeps its registers and what may be pending. -/
theorem modWarp (h : e.Keeps core slot may t) {f : Warp → Warp} (file : ∀ w, (f w).file = w.file)
    (fields : ∀ w, (f w).wflags &&& 0xFFFFFFE0 = w.wflags &&& 0xFFFFFFE0) (flags : (∀ g, ¬ may (.flags g)) → ∀ w, (f w).wflags = w.wflags)
    (pend : ∀ w, (∀ p ∈ w.pend, ∀ r ∈ p.writes, may r) → ∀ p ∈ (f w).pend, ∀ r ∈ p.writes, may r) :
    e.Keeps core slot may (t.modWarp core slot f) := by
  have warp := State.warp_modWarp_self f h.live
  have rows : ((t.modWarp core slot f).core core).rows = (t.core core).rows :=
    State.core_modWarp_of (P := fun k => k.rows = (t.core core).rows) t core slot f (fun _ _ same => same) rfl
  have rooms : ((t.modWarp core slot f).core core).rooms = (t.core core).rooms :=
    State.core_modWarp_of (P := fun k => k.rooms = (t.core core).rooms) t core slot f (fun _ _ same => same) rfl
  have group : ∀ n, (t.modWarp core slot f).group core n = t.group core n := fun n => by
    rw [State.group, State.group, State.room, State.room, rooms]
  have room : (f (t.warp core slot)).room = (t.warp core slot).room := congrArg (·.1) (file _)
  have vreg := State.vreg_congr (slot := slot) rows (by rw [State.groupOf, State.groupOf, warp, group, room])
  refine ⟨?_, fun k hk => (State.core_modWarp_ne t f hk).trans (h.cores k hk), fun j hj => (State.warp?_modWarp_ne t f (.inr hj)).trans (h.warps j hj),
    fun n => by rw [group]; exact h.owners n, ?_, ?_, fun no => ?_, fun n l no => (vreg n l).trans (h.vregs n l no),
    fun no => rows.trans (h.rows no), ?_⟩
  · rw [State.warp?_modWarp_self f h.live]
    rfl
  · rw [warp, file, h.file]
  · rw [warp, fields, h.fields]
  · rw [warp, flags no, h.flags no]
  · rw [warp]
    exact pend _ h.pend

/-- A change of the core that keeps its warps, the owners of its groups, and the lanes that may not be written. -/
theorem modCore (h : e.Keeps core slot may t) {f : Core → Core} (warps : ∀ k, (f k).warps = k.warps)
    (owners : ∀ k n, (((f k).rooms.getD n {}).group.getD {}).owner = ((k.rooms.getD n {}).group.getD {}).owner)
    (rows : (∀ n l x, ¬ may (.v n l x)) → ∀ k, (f k).rows = k.rows)
    (vregs : ∀ n l, (∀ x, ¬ may (.v n l x)) → ∀ k, (f k).lane (some (t.groupOf core slot).owner) (rowOf slot n) l =
      k.lane (some (t.groupOf core slot).owner) (rowOf slot n) l) : e.Keeps core slot may (t.modCore core f) := by
  have warp? := State.warps_modCore (s := t) (c := core) warps
  have warp : (t.modCore core f).warp core slot = t.warp core slot := by rw [State.warp, State.warp, warp?]
  have group : ∀ n, ((t.modCore core f).group core n).owner = (t.group core n).owner := fun n =>
    State.core_modCore_of (P := fun k => ((k.rooms.getD n {}).group.getD {}).owner = (t.group core n).owner) t core f rfl (owners _ n)
  have vreg : ∀ n l, (∀ x, ¬ may (.v n l x)) → (t.modCore core f).vreg core slot n l = t.vreg core slot n l := fun n l no => by
    simp only [State.vreg, State.groupOf, warp, group]
    exact State.core_modCore_of (P := fun k => k.lane _ (rowOf slot n) l = (t.core core).lane _ (rowOf slot n) l) t core f rfl (vregs n l no _)
  refine ⟨?_, fun k hk => (State.core_modCore_ne t f hk).trans (h.cores k hk), fun j hj => (warp? core j).trans (h.warps j hj),
    fun n => (group n).trans (h.owners n), ?_, ?_, fun no => ?_, fun n l no => (vreg n l no).trans (h.vregs n l no), fun no => ?_, ?_⟩
  · rw [warp?]
    exact h.live
  · rw [warp, h.file]
  · rw [warp, h.fields]
  · rw [warp, h.flags no]
  · rw [← h.rows no]
    exact State.core_modCore_of (P := fun k => k.rows = (t.core core).rows) t core f rfl (rows no _)
  · rw [warp]
    exact h.pend

/-- A change of a room's group that keeps its owner. -/
theorem modGroup (h : e.Keeps core slot may t) (n : Nat) {f : Group → Group} (owner : ∀ g, (f g).owner = g.owner) :
    e.Keeps core slot may (t.modGroup core n f) := by
  refine h.modCore (fun _ => rfl) (fun k m => ?_) (fun _ _ => rfl) (fun _ _ _ _ => rfl)
  by_cases hm : m = n
  · subst hm
    by_cases hlt : m < k.rooms.length
    · rw [getD_modifyAt_self _ _ _ _ hlt]
      cases (k.rooms.getD m {}).group with
      | none => rfl
      | some g => exact owner g
    · rw [List.getD_eq_default _ _ (by simpa [modifyAt_length] using hlt), List.getD_eq_default _ _ (by simpa using hlt)]
  · rw [getD_modifyAt_ne _ _ _ hm]

theorem writeReg (h : e.Keeps core slot may t) (lane : ∀ r, may r → r.isLane = true) {r : RegWrite} (hr : may r) :
    e.Keeps core slot may (t.writeReg core slot r) := by
  cases r with
  | v n l x =>
    refine h.modCore (fun _ => rfl) (fun _ _ => rfl) (fun no => absurd hr (no n l x)) (fun m j no k => ?_)
    refine Core.lane_setLane_ne k _ x ?_
    by_contra same
    push Not at same
    obtain ⟨row, rfl⟩ := same
    obtain rfl := rowOf_inj.mp row
    exact no x hr
  | flags f =>
    refine h.modWarp (fun w => rfl) (fun w => ?_) (fun no => absurd hr (no f)) (fun w hw => hw)
    exact stickyFlags_fields w.wflags f
  | k | m | mbit | ix | empty | act => exact absurd (lane _ hr) (by simp [RegWrite.isLane])

theorem writeRegs (h : e.Keeps core slot may t) (lane : ∀ r, may r → r.isLane = true) {rs : List RegWrite} (hr : ∀ r ∈ rs, may r) :
    e.Keeps core slot may (t.writeRegs core slot rs) := by
  unfold State.writeRegs
  induction rs generalizing t with
  | nil => exact h
  | cons r rest ih => exact ih (h.writeReg lane (hr r (by simp))) fun q hq => hr q (by simp [hq])

theorem drain (h : e.Keeps core slot may t) (lane : ∀ r, may r → r.isLane = true) (p : Pending → Bool) :
    e.Keeps core slot may (t.drain core slot p) := by
  have wrote := h.writeRegs lane (rs := ((t.warp core slot).pend.filter p).flatMap (·.writes)) fun r hr => by
    obtain ⟨q, hq, hrq⟩ := List.mem_flatMap.mp hr
    exact h.pend q (List.mem_of_mem_filter hq) r hrq
  exact wrote.modWarp (fun _ => rfl) (fun _ => rfl) (fun _ _ => rfl) fun w hw q hq r hr => by
    obtain ⟨x, hx, hrx⟩ := mem_written hq hr
    exact hw x hx r hrx

theorem onlyPaths (h : e.Keeps core slot may t) {f : Warp → Warp} (hf : ∀ w, Warp.OnlyPaths w (f w)) : e.Keeps core slot may (t.modWarp core slot f) :=
  h.modWarp (fun w => by rw [hf w]; rfl) (fun w => by rw [hf w]) (fun _ w => by rw [hf w]) fun w hw => by rw [hf w]; exact hw

/-- The settling of a warp writes what its arriving splits have pending. -/
theorem settleWarp (h : e.Keeps core slot may t) (lane : ∀ r, may r → r.isLane = true) (came : W64) :
    e.Keeps core slot may (t.settleWarp core slot came) := by
  unfold State.settleWarp
  dsimp only
  refine State.Keeps.onlyPaths ?_ fun w => .settle w came
  split
  · exact h
  · exact h.drain lane _

theorem retire {c : Ctx} (h : e.Keeps c.core c.slot may t) (lane : ∀ r, may r → r.isLane = true) : e.Keeps c.core c.slot may (t.retire c) := by
  unfold State.retire
  refine State.Keeps.settleWarp ?_ lane c.x.pc
  refine h.modWarp (fun _ => rfl) (fun _ => rfl) (fun _ _ => rfl) fun w hw => ?_
  simp only [List.forall_mem_map]
  intro p hp
  split <;> exact hw p hp

theorem issued {c : Ctx} (h : e.Keeps c.core c.slot may t) : e.Keeps c.core c.slot may (t.issued c) := by
  have aged := (h.outside (u := { t.forget (.split c.ref) with
    lantern := { (t.forget (.split c.ref)).lantern with left := (t.forget (.split c.ref)).lantern.left.erase c.ref } }) rfl).modWarp
    (f := fun w => { w with age := w.age.set c.sp 0, closed := w.closed.set c.sp false }) (fun _ => rfl) (fun _ => rfl) (fun _ _ => rfl) fun _ hw => hw
  unfold State.issued
  dsimp only
  split
  · exact (aged.modGroup c.room (f := fun g => { g with stepping := none }) fun _ => rfl).modWarp
      (f := fun w => { w with stepArmed := false }) (fun _ => rfl) (fun _ => rfl) (fun _ _ => rfl) fun _ hw => hw
  · exact aged

/-- The end of an instruction that goes on at the next one. -/
theorem done {c : Ctx} (h : e.Keeps c.core c.slot may t) (lane : ∀ r, may r → r.isLane = true) : e.Keeps c.core c.slot may (c.done t) :=
  (h.retire lane).issued

/-- Results written at once, or pending. -/
theorem commit {c : Ctx} (h : e.Keeps c.core c.slot may t) (lane : ∀ r, may r → r.isLane = true) (long : Bool) (regs : List RegName)
    {ws : List RegWrite} (hw : ∀ r ∈ ws, may r) : e.Keeps c.core c.slot may (c.commit t long regs ws) := by
  unfold Ctx.commit
  split
  · refine h.modWarp (fun _ => rfl) (fun _ => rfl) (fun _ _ => rfl) fun w pend p hp => ?_
    rcases List.mem_append.mp hp with old | new
    · exact pend p old
    · rw [List.mem_singleton.mp new]
      exact hw
  · exact h.writeRegs lane hw

end State.Keeps
end

/-! ### An instruction that issues -/

/-- Writing the results that an instruction waits for changes nothing of other cores and warps. -/
theorem State.onlyWarp_entering (s : State) (i : Instr) : s.OnlyWarp s.cur.core s.cur.slot (s.entering i) := .drain s _

theorem State.onlyCores_entering (s : State) (i : Instr) : s.OnlyCores (s.entering i) := s.onlyCores_drainFor _

/-- The warp of an instruction that issues is there. -/
theorem State.entering_live {s : State} (h : s.Issues) (i : Instr) :
    ((s.entering i).warp? (s.seen i).core (s.seen i).slot).isSome = true := by
  have cur : (s.entering i).cur = s.cur := by rw [s.onlyCores_entering i]
  show ((s.entering i).warp? (s.entering i).cur.core (s.entering i).cur.slot).isSome = true
  rw [cur]
  refine (s.onlyWarp_entering i).live ?_
  unfold State.Issues State.split? at h
  cases hw : s.warp? s.cur.core s.cur.slot with
  | none => simp [hw] at h
  | some w => rfl

theorem State.seen_core (s : State) (i : Instr) : (s.seen i).core = s.cur.core := by
  show (s.entering i).cur.core = _
  rw [s.onlyCores_entering i]

theorem State.seen_slot (s : State) (i : Instr) : (s.seen i).slot = s.cur.slot := by
  show (s.entering i).cur.slot = _
  rw [s.onlyCores_entering i]

/-- The context holds the warp as the instruction finds it. -/
theorem State.seen_warp (s : State) (i : Instr) : (s.entering i).warp (s.seen i).core (s.seen i).slot = (s.seen i).w := rfl

/-- Memory reads the same where only cores and what an issue clears differ. -/
theorem State.OnlyIssue.sameMemory {s t : State} (h : s.OnlyIssue t) : s.SameMemory t := by
  rw [h]
  exact ⟨fun _ _ _ => rfl, fun _ _ _ => rfl, rfl, rfl, rfl⟩

end Sys2Proof.Machine
end

section

namespace Sys2Proof.Machine

/-! ### Lane-wise instructions (R43, R209, R229) -/

/-- An instruction that runs as a lane-wise one, from operands into a destination. -/
def RunsLaneWise (i : Instr) (s : State) (d : Dst) (ops : List (Nat × Src × OpFmt)) : Prop :=
  ∃ (long flags : Bool) (f : Ctx → List W32 → W32 × FFlags), exec i s = run i s fun c e => c.laneWise e long flags d ops (f c)

theorem exec_intRule {i : Instr} {r : LaneRule} (h : intRule i = some r) (s : State) :
    RunsLaneWise i s r.d (r.ops.map fun o => (o.1, o.2, OpFmt.i32)) := by
  unfold intRule at h
  unfold RunsLaneWise
  split at h
  case h_22 =>
    split at h <;> cases h
    rename_i lanes
    simp only [exec, execIcmp, lanes, Bool.false_eq_true, if_false]
    exact ⟨_, _, _, rfl⟩
  case h_28 => cases h
  all_goals
    cases h
    simp only [exec, execIadd, execIsub, execImul, execImulh, execImad, execIdiv, execIrem, execImin, execImax, execIabs, execAnd, execOr, execXor,
      execShl, execShr, execSra, execPopc, execClz, execBrev, execBfe, execBfi, execSel, execMov, execMovi, execBsel, execIshf, int1, int2, int3]
    exact ⟨_, _, _, rfl⟩

theorem exec_floatRule {i : Instr} {r : FloatRule} (h : floatRule i = some r) (s : State) : RunsLaneWise i s r.d r.ops := by
  unfold floatRule at h
  unfold RunsLaneWise
  split at h
  case h_8 | h_18 =>
    split at h <;> cases h
    rename_i lanes
    simp only [exec, execFcmp, execHcmp2, fltCmp, lanes, Bool.false_eq_true, if_false]
    exact ⟨_, _, _, rfl⟩
  case h_36 => cases h
  all_goals
    cases h
    simp only [exec, execFadd, execFsub, execFmul, execFfma, execFdiv, execFmin, execFmax, execFclass, execFscale, execFrnd, execFdot2, execFabs,
      execHadd2, execHmul2, execHfma2, execHmnx2, execBadd2, execBmul2, execBfma2, execCvt, execCvtp, execCvti, execCvtf, execFexp, execFexp2,
      execFlog2, execFrcp, execFrsq, execFsqrt, execFsin, execFcos, execFtanh, execFsig, flt, fltQuiet, Ctx.fsub, special1, Ctx.special1]
    exact ⟨_, _, _, rfl⟩

/-- What a lane-wise instruction may write: its destination in the lanes that it writes, and sticky flags. -/
def Ctx.MayWrite (c : Ctx) (d : Dst) (r : RegWrite) : Prop :=
  match r with
  | .v n l _ => ∃ k ∈ lanesOf (c.act ||| c.zero), l = k ∧ n = (c.number d.n.toNat d.ix k).toNat
  | .flags _ => True
  | .k _ _ | .m _ _ | .mbit _ _ _ | .ix _ _ | .empty _ | .act _ _ _ => False

theorem Ctx.isLane_of_mayWrite {c : Ctx} {d : Dst} : ∀ r, c.MayWrite d r → r.isLane = true := by
  intro r h
  cases r with
  | v | flags => rfl
  | k | m | mbit | ix | empty | act => exact h.elim

theorem mem_lanesOf_or {a b : LaneMask} {l : Nat} (h : l ∈ lanesOf a ∨ l ∈ lanesOf b) : l ∈ lanesOf (a ||| b) := by
  simp only [lanesOf, List.mem_filter, BitVec.getLsbD_or, Bool.or_eq_true] at *
  tauto

/-- The results of one word a lane go where they may. -/
theorem Ctx.mayWrite_laneWrites {c : Ctx} {d : Dst} {f : Nat → LaneWord} :
    ∀ r ∈ c.laneWrites d 1 ((lanesOf c.act).map fun l => (l, [f l])), c.MayWrite d r := by
  intro r hr
  unfold Ctx.laneWrites at hr
  rcases List.mem_append.mp hr with active | cleared
  · simp only [List.flatMap_map, List.mem_flatMap, List.zipIdx_singleton, List.map_singleton, List.mem_singleton] at active
    obtain ⟨l, hl, rfl⟩ := active
    exact ⟨l, mem_lanesOf_or (.inl hl), rfl, rfl⟩
  · simp only [List.mem_flatMap, Ctx.zeroed, List.mem_filterMap, List.range_one, List.map_singleton, List.mem_singleton] at cleared
    obtain ⟨z, ⟨l, hl, hz⟩, rfl⟩ := cleared
    split at hz <;> cases hz
    exact ⟨l, mem_lanesOf_or (.inr hl), rfl, rfl⟩

theorem Ctx.mayWrite_flagWrites {c : Ctx} {d : Dst} {fl : FFlags} : ∀ r ∈ (flagWrites fl).2, c.MayWrite d r := by
  intro r hr
  unfold flagWrites at hr
  dsimp only at hr
  split at hr
  · cases hr
  · rw [List.mem_singleton.mp hr]
    trivial

theorem Ctx.onlyCores_commit (c : Ctx) (e : State) (long : Bool) (regs : List RegName) (ws : List RegWrite) :
    e.OnlyCores (c.commit e long regs ws) := by
  unfold Ctx.commit
  split
  · exact e.onlyCores_modWarp _ _ _
  · exact e.onlyCores_writeRegs _ _ _

/-- Outside an open search region nothing is trailed. -/
theorem Ctx.trails_closed {c : Ctx} (h : c.w.regionOpen = false) (e : State) (ws : List RegWrite) : c.Trails e ws e := by
  unfold Ctx.Trails Ctx.trail
  simp [Ctx.trailing, h]

end Sys2Proof.Machine

namespace Sys2Proof.MemoryHierarchy
open Sys2Proof.Machine

/-- A lane-wise instruction outside a search region ends with results written, or pending, that it may write. -/
theorem laneWise_done {i : Instr} {d : Dst} {ops : List (Nat × Src × OpFmt)} {s : State} (runs : RunsLaneWise i s d ops) (hs : s.Issues)
    (usable : (s.seen i).Usable (s.seen i).act (dstNeed 1 d ++ ops.flatMap fun o => srcNeed o.1 1 o.2.1) (ops.map (·.2)))
    (region : (s.seen i).w.regionOpen = false) (pend : (s.seen i).w.pend = []) :
    ∃ t, exec i s = .next ((s.seen i).done t) ∧ (s.entering i).OnlyCores t ∧
      (s.entering i).Keeps (s.seen i).core (s.seen i).slot ((s.seen i).MayWrite d) t := by
  obtain ⟨long, flags, f, ran⟩ := runs
  rw [ran, run_ok hs, laneWise_ok usable ((s.seen i).trails_closed region _ _)]
  refine ⟨_, rfl, (s.seen i).onlyCores_commit _ _ _ _, (State.keeps_refl (State.entering_live hs i) ?_).commit Ctx.isLane_of_mayWrite long _ ?_⟩
  · rw [s.seen_warp i, pend]
    exact nofun
  · intro r hr
    rcases List.mem_append.mp hr with lane | flag
    · exact Ctx.mayWrite_laneWrites r lane
    · cases flags
      · cases flag
      · exact Ctx.mayWrite_flagWrites r flag

/-- Settles O57: what its results may write, and what is kept of a state in which they were written or are pending. -/
theorem registerFrame : Obligations.RegisterFrame := by
  intro i ops d s hr hs c e usable region pend
  have runs : RunsLaneWise i s d ops := by
    rcases hr with ⟨r, hr, rfl, rfl⟩ | ⟨r, hr, rfl, rfl⟩
    · exact exec_intRule hr s
    · exact exec_floatRule hr s
  obtain ⟨t, ran, cores, wrote⟩ := laneWise_done runs hs usable region pend
  have kept := wrote.done Ctx.isLane_of_mayWrite
  have file := kept.file
  rw [s.seen_warp i] at file
  simp only [Warp.file, Prod.mk.injEq] at file
  obtain ⟨-, masks, uni, ix, satchel, trap, handler, -⟩ := file
  refine ⟨c.done t, ran, ?_, fun k hk => ?_, fun j hj => ?_, fun n l outside => ?_, masks, uni, ix, kept.fields, satchel, trap, handler⟩
  · exact (((s.onlyCores_entering i).trans cores).onlyIssue.trans (c.onlyIssue_done t)).sameMemory
  · exact (kept.cores k hk).trans ((s.onlyWarp_entering i).cores k (s.seen_core i ▸ hk))
  · have before := (s.onlyWarp_entering i).warps j (s.seen_slot i ▸ hj)
    rw [← s.seen_core i] at before
    exact (kept.warps j hj).trans before
  · refine kept.vregs n l fun x ⟨k, hk, lane, number⟩ => ?_
    exact (outside k hk).elim (fun ne => ne lane) fun ne => ne number

end Sys2Proof.MemoryHierarchy
end

section

namespace Sys2Proof.Machine

/-! ### Sets and tables (R62) -/

theorem contains_setInsert (t : List Nat) (k j : Nat) : (setInsert t k).contains j = (j = k || t.contains j) := by
  induction t with
  | nil => simp [setInsert]
  | cons i r ih =>
    unfold setInsert
    split
    · subst_vars
      simp
    · split
      · simp
      · simp only [List.contains_cons, ih]
        grind

theorem contains_setErase_ne (t : List Nat) {k j : Nat} (h : j ≠ k) : (setErase t k).contains j = t.contains j := by
  simp [setErase, List.mem_filter, h]

theorem find_without_ne {α : Type} (t : List (Nat × α)) {k j : Nat} (h : j ≠ k) :
    ((without t k).find? fun p => p.1 = j) = t.find? fun p => p.1 = j := by
  induction t with
  | nil => rfl
  | cons p r ih => unfold without at *; grind

theorem find_insertAt_ne {α : Type} (t : List (Nat × α)) {k j : Nat} (v : α) (h : j ≠ k) :
    ((insertAt t k v).find? fun p => p.1 = j) = t.find? fun p => p.1 = j := by
  induction t with
  | nil => simp [insertAt, Ne.symm h]
  | cons p r ih =>
    obtain ⟨i, x⟩ := p
    unfold insertAt
    split
    · simp [List.find?_cons, Ne.symm h]
    · simp only [List.find?_cons, ih]

/-! ### The bytes of one sector (R58, R111) -/

/-- Nothing that a read of a sector looks at differs. -/
structure State.SameSector (q : Nat) (s t : State) : Prop where
  /-- No slice holds it otherwise. -/
  sec : ∀ e, t.sec e q = s.sec e q
  /-- No die has other writes to it on their way. -/
  own : ∀ e, t.ownWrites e q = s.ownWrites e q
  /-- It is stored under the same key. -/
  key : t.storedKey q = s.storedKey q
  /-- It is stored with the same poison. -/
  poison : t.memPoison.contains q = s.memPoison.contains q
  /-- Its stored bytes are the same. -/
  mem : ∀ i < 64, get unwritten t.mem (q * 64 + i) = get unwritten s.mem (q * 64 + i)

namespace State.SameSector

variable {q : Nat} {s t u : State}

theorem refl (q : Nat) (s : State) : s.SameSector q s := ⟨fun _ => rfl, fun _ => rfl, rfl, rfl, fun _ _ => rfl⟩

theorem trans (h : s.SameSector q t) (g : t.SameSector q u) : s.SameSector q u :=
  ⟨fun e => (g.sec e).trans (h.sec e), fun e => (g.own e).trans (h.own e), g.key.trans h.key, g.poison.trans h.poison,
    fun i hi => (g.mem i hi).trans (h.mem i hi)⟩

/-- A change of nothing that reads of memory look at. -/
theorem of_eq (l2 : t.l2 = s.l2) (net : t.net = s.net) (key : t.memKey = s.memKey) (poison : t.memPoison = s.memPoison) (mem : t.mem = s.mem) :
    s.SameSector q t :=
  ⟨fun e => by rw [State.sec, State.sec, l2], fun e => by rw [State.ownWrites, State.ownWrites, net],
    by rw [State.storedKey, State.storedKey, key], by rw [poison], fun _ _ => by rw [mem]⟩

theorem storedByte (h : s.SameSector q t) (key : Option Nat) {pa : Nat} (hp : pa / 64 = q) : t.storedByte key pa = s.storedByte key pa := by
  subst hp
  have bytes : getBytes t.mem (pa / 64 * 64) 64 = getBytes s.mem (pa / 64 * 64) 64 :=
    List.map_congr_left fun i hi => h.mem i (List.mem_range.mp hi)
  have byte := h.mem (pa % 64) (Nat.mod_lt _ (by decide))
  rw [Nat.div_add_mod'] at byte
  simp only [State.storedByte, h.key, bytes, byte]

theorem backBytes (h : s.SameSector q t) {x : L2Sec} (hx : x.sector = q) : t.backBytes x = s.backBytes x := by
  have bytes : ((List.range 64).map fun i => if x.dirty.getLsbD i then at_ 0 x.data i else t.storedByte x.key (x.sector * 64 + i)) =
      (List.range 64).map fun i => if x.dirty.getLsbD i then at_ 0 x.data i else s.storedByte x.key (x.sector * 64 + i) :=
    List.map_congr_left fun i hi => by
      have hlt := List.mem_range.mp hi
      rw [h.storedByte x.key (by omega)]
  simp only [State.backBytes, bytes]

theorem homeByte (h : s.SameSector q t) (key : Option Nat) {pa : Nat} (hp : pa / 64 = q) : t.homeByte key pa = s.homeByte key pa := by
  have sec := h.sec (homeDie pa)
  unfold State.homeByte
  rw [hp, sec]
  cases hx : s.sec (homeDie pa) q with
  | none => exact h.storedByte key hp
  | some x => simp only [h.backBytes (State.sec_some hx).2, h.storedByte x.key hp]

theorem dieByte (h : s.SameSector q t) (e : Nat) (a : Attr) {pa : Nat} (hp : pa / 64 = q) : t.dieByte e a pa = s.dieByte e a pa := by
  have hit : t.copyHit e a q = s.copyHit e a q := by rw [State.copyHit, State.copyHit, h.sec]
  unfold State.dieByte
  rw [hp, h.own e, hit, h.homeByte a.key hp]

theorem diePoison (h : s.SameSector q t) (e : Nat) (a : Attr) {pa : Nat} (hp : pa / 64 = q) : t.diePoison e a pa = s.diePoison e a pa := by
  have hit : t.copyHit e a q = s.copyHit e a q := by rw [State.copyHit, State.copyHit, h.sec]
  have home : t.homePoison pa = s.homePoison pa := by simp only [State.homePoison, hp, h.sec, h.poison]
  unfold State.diePoison
  rw [hp, h.own e, hit, home]

end State.SameSector

end Sys2Proof.Machine
end

section

namespace Sys2Proof.Machine

/-! ### How many sectors the slices hold (R58) -/

theorem State.setSec_length (s : State) (x : L2Sec) : (s.setSec x).l2.length ≤ s.l2.length + 1 := by
  simpa [State.setSec] using List.length_filter_le _ s.l2

/-- A sector put where one is adds none. -/
theorem State.setSec_length_of_held {s : State} {x y : L2Sec} (h : s.sec x.die x.sector = some y) : (s.setSec x).l2.length ≤ s.l2.length := by
  have fewer : (s.l2.filter fun z => !(z.die = x.die && z.sector = x.sector)).length < s.l2.length :=
    List.length_filter_lt_length_iff_exists.2 ⟨y, List.mem_of_find?_eq_some h, by simp [State.sec_some h]⟩
  simp only [State.setSec, List.length_append, List.length_singleton]
  exact fewer

theorem State.dropSec_length (s : State) (e k : Nat) : (s.dropSec e k).l2.length ≤ s.l2.length := List.length_filter_le _ _

theorem State.dropLine_length (s : State) (e k : Nat) : (s.dropLine e k).l2.length ≤ s.l2.length := List.length_filter_le _ _

theorem State.writeBack_length {s : State} {x y : L2Sec} (h : s.sec x.die x.sector = some y) : (s.writeBack x).l2.length ≤ s.l2.length := by
  unfold State.writeBack
  split
  · exact le_rfl
  · rw [State.spend_l2]
    exact State.setSec_length_of_held (x := { x with dirty := 0 }) h

theorem State.forgetSec_length {s : State} {x y : L2Sec} (h : s.sec x.die x.sector = some y) : (s.forgetSec x).l2.length ≤ s.l2.length := by
  unfold State.forgetSec
  split
  · exact s.dropSec_length _ _
  · exact State.setSec_length_of_held (x := { x with have_ := _, dirty := _, data := _, key := _, poison := _ }) h

theorem State.evictHome_length {s : State} {x y : L2Sec} (h : s.sec x.die x.sector = some y) : (s.evictHome x).l2.length ≤ s.l2.length := by
  unfold State.evictHome
  dsimp only
  split
  case h_1 z hz =>
    obtain ⟨hd, hk⟩ := State.sec_some hz
    exact (State.forgetSec_length (by rw [hd, hk]; exact hz)).trans (State.writeBack_length h)
  case h_2 => exact State.writeBack_length h

/-- A slice that is not full makes no room. -/
theorem State.makeRoom_of_length {s : State} (h : s.l2.length < sliceLines) (e k : Nat) : s.makeRoom e k = s := by
  simp [State.makeRoom, State.hasRoom, h]

/-- The sector that an access finds or begins at its home is the one it asked for (R58, R143). -/
theorem State.tagged_place (s : State) (at' : Attr) (k : Nat) :
    (s.tagged at' k).2.1.die = homeDie (k * 64) ∧ (s.tagged at' k).2.1.sector = k := by
  unfold State.tagged
  dsimp only
  split
  · exact ⟨rfl, rfl⟩
  next x hx =>
    split
    · exact ⟨rfl, rfl⟩
    · exact State.sec_some hx

theorem State.tagged_length (s : State) (at' : Attr) (k : Nat) : (s.tagged at' k).1.l2.length ≤ s.l2.length := by
  unfold State.tagged
  dsimp only
  split
  · exact le_rfl
  next x hx =>
    obtain ⟨hd, hk⟩ := State.sec_some hx
    split
    · exact (State.dropSec_length _ _ _).trans (State.writeBack_length (by rw [hd, hk]; exact hx))
    · exact le_rfl

/-- A home write leaves at most its own sector behind that was not there. -/
theorem State.homeWrite_length {s : State} (h : s.l2.length < sliceLines) (at' : Attr) (k : Nat) (bs : List (Nat × Byte)) (poison : Bool)
    (st : Stamp) : (s.homeWrite at' k bs poison st).l2.length ≤ s.l2.length + 1 := by
  obtain ⟨hd, hk⟩ := s.tagged_place at' k
  have tag := s.tagged_length at' k
  unfold State.homeWrite
  dsimp only
  generalize s.tagged at' k = q at *
  obtain ⟨t, x, present⟩ := q
  dsimp only at *
  rw [State.makeRoom_of_length (by omega), ite_self]
  have l2 := (State.OnlyTraffic.sendHome (t.setSec (x.wrote at' bs poison st)) at' k bs poison x.owned).l2
  generalize (t.setSec (x.wrote at' bs poison st)).sendHome at' k bs poison x.owned = u at l2 ⊢
  have more : u.l2.length ≤ s.l2.length + 1 := by
    rw [l2]
    exact (t.setSec_length _).trans (by omega)
  have held : u.sec (x.wrote at' bs poison st).die (x.wrote at' bs poison st).sector = some (x.wrote at' bs poison st) := by
    rw [State.sec, l2]
    exact sec_setSec t _
  split
  · split
    · exact (State.writeBack_length held).trans more
    · exact (State.evictHome_length held).trans more
  · split
    · exact more
    · exact (State.evictHome_length held).trans more

/-- The invalidations that the home sends the holders of copies (R106, R111). -/
def State.invalsOf (s : State) (k origin : Nat) (v : List Nat) (parent : Nat) : List Remote :=
  (s.copyDies k).map fun d =>
    { src := origin, dst := d, stamp := v, sector := k, bytes := [], poison := false, key := none, desc := false,
      inval := true, id := parent, here := false }

/-- They are on their way, the traffic that carries them left, and the die may have noted the time. -/
theorem State.sendInvals_eq (s : State) (k origin : Nat) (v : List Nat) (parent : Nat) :
    ∃ t f, State.OnlyTraffic { s with net := s.net ++ s.invalsOf k origin v parent } t ∧
      (s.sendInvals k origin v parent = t ∨ s.sendInvals k origin v parent = t.modDie origin f) := by
  have sent := State.OnlyTraffic.foldl (f := fun (s : State) (d : Nat) =>
    s.sendOut (homeDie (k * 64)) { dev := none, die := d, p := packetOf (.remote parent true) 0 [] false 0 0 })
    (fun s d => .sendOut s _ _) (s.copyDies k) { s with net := s.net ++ s.invalsOf k origin v parent }
  unfold State.sendInvals
  dsimp only
  split
  · exact ⟨_, id, sent, .inl rfl⟩
  · exact ⟨_, _, sent, .inr rfl⟩

theorem State.sendInvals_l2 (s : State) (k origin : Nat) (v : List Nat) (parent : Nat) : (s.sendInvals k origin v parent).l2 = s.l2 := by
  obtain ⟨t, f, traffic, ht⟩ := s.sendInvals_eq k origin v parent
  rcases ht with ht | ht <;> rw [ht]
  · exact traffic.l2
  · exact traffic.l2

theorem State.sendWrite_l2 (s : State) (e : Nat) (at' : Attr) (w : Doing) (k : Nat) (bs : List (Nat × Byte)) (poison : Bool) (owner : Option Nat) :
    (s.sendWrite e at' w k bs poison owner).l2 = s.l2 := by
  unfold State.sendWrite
  dsimp only
  split
  · rfl
  · exact (State.OnlyTraffic.sendOut _ _ _).l2

theorem State.writeSector_length {s : State} (h : s.l2.length < sliceLines) (e : Nat) (at' : Attr) (w : Doing) (k : Nat)
    (bs : List (Nat × Byte)) (poison : Bool) : (s.writeSector e at' w k bs poison).l2.length ≤ s.l2.length + 1 := by
  unfold State.writeSector
  dsimp only
  split
  · exact Nat.le_succ _
  · split
    · split
      · rw [State.sendWrite_l2]
        exact Nat.le_succ _
      · rw [State.sendInvals_l2]
        exact State.homeWrite_length (s := { s with netSeq := s.netSeq + 1 }) h at' k bs poison { die := e, v := (s.die e).vc, rel := w.rel }
    · rw [State.sendWrite_l2]
      exact (s.dropLine_length e k).trans (Nat.le_succ _)

/-! ### What a write leaves of another sector (R58, R111) -/

theorem State.backBytes_length (s : State) (x : L2Sec) : (s.backBytes x).length = 64 := by
  simp only [State.backBytes]
  split <;> simp

/-- Bytes put one by one elsewhere. -/
theorem get_foldl_put_out {bs : List (Nat × Byte)} {a j : Nat} (h : ∀ b ∈ bs, j ≠ a + b.1) (m : List (Nat × Byte)) :
    get unwritten (bs.foldl (fun m p => put unwritten m (a + p.1) p.2) m) j = get unwritten m j := by
  induction bs generalizing m with
  | nil => rfl
  | cons b r ih =>
    rw [List.foldl_cons, ih fun b hb => h b (List.mem_cons_of_mem _ hb), get_put_ne _ _ _ (h b List.mem_cons_self)]

namespace State.SameSector

variable {q k : Nat}

theorem spend (q : Nat) (s : State) (k : Nat) (tenant : Option Nat) : s.SameSector q (s.spend k tenant) := by
  unfold State.spend
  split
  · exact refl q s
  · dsimp only
    split
    · exact of_eq rfl rfl rfl rfl rfl
    · exact refl q s

theorem traffic {s t : State} (q : Nat) (h : s.OnlyTraffic t) : s.SameSector q t :=
  of_eq h.l2 h.net (by rw [h.rest]) (by rw [h.rest]) h.mem

/-- Slices that hold the sector as before. -/
theorem ofSlices {s : State} {l : List L2Sec} (h : ∀ e, ({ s with l2 := l }).sec e q = s.sec e q) : s.SameSector q { s with l2 := l } :=
  ⟨h, fun _ => rfl, rfl, rfl, fun _ _ => rfl⟩

theorem dropSec (s : State) (e : Nat) (h : q ≠ k) : s.SameSector q (s.dropSec e k) :=
  ofSlices fun d => by
    simp only [State.sec, List.find?_filter]
    congr 1
    grind

theorem dropLine (s : State) (e : Nat) (h : q / 4 ≠ k / 4) : s.SameSector q (s.dropLine e k) :=
  ofSlices fun d => by
    simp only [State.sec, List.find?_filter]
    congr 1
    grind

theorem setSec (s : State) {x : L2Sec} (h : q ≠ x.sector) : s.SameSector q (s.setSec x) :=
  ofSlices fun d => by
    have other : (decide (x.die = d) && decide (x.sector = q)) = false := by simp [Ne.symm h]
    have rest := (dropSec s x.die h).sec d
    simp only [State.sec, State.dropSec] at rest ⊢
    rw [List.find?_append, rest, List.find?_cons, other]
    simp

theorem writeBack (s : State) {x : L2Sec} (h : q ≠ x.sector) : s.SameSector q (s.writeBack x) := by
  unfold State.writeBack
  split
  · exact refl q s
  · refine (SameSector.trans ?_ (setSec _ (x := { x with dirty := 0 }) h)).trans (spend q _ _ _)
    refine ⟨fun _ => rfl, fun _ => rfl, ?_, ?_, fun i hi => ?_⟩
    · simp only [State.storedKey]
      cases x.key with
      | none => rw [find_without_ne _ h]
      | some a => rw [find_insertAt_ne _ _ h, find_without_ne _ h]
    · dsimp only
      split
      · rw [contains_setInsert, decide_eq_false h, Bool.false_or]
      · rw [contains_setErase_ne _ h]
    · refine get_putBytes_out _ _ ?_
      rw [State.backBytes_length]
      omega

theorem forgetSec (s : State) {x : L2Sec} (h : q ≠ x.sector) : s.SameSector q (s.forgetSec x) := by
  unfold State.forgetSec
  split
  · exact dropSec s _ h
  · exact setSec s h

theorem evictHome (s : State) {x : L2Sec} (h : q ≠ x.sector) : s.SameSector q (s.evictHome x) := by
  unfold State.evictHome
  dsimp only
  split
  case h_1 y hy => exact (writeBack s h).trans (forgetSec _ (by rw [(State.sec_some hy).2]; exact h))
  case h_2 => exact writeBack s h

theorem tagged (s : State) (at' : Attr) (h : q ≠ k) : s.SameSector q (s.tagged at' k).1 := by
  unfold State.tagged
  dsimp only
  split
  · exact refl q s
  next x hx =>
    split
    · exact (writeBack s (by rw [(State.sec_some hx).2]; exact h)).trans (dropSec _ _ h)
    · exact refl q s

theorem homeWrite {s : State} (room : s.l2.length < sliceLines) (at' : Attr) (h : q ≠ k) (bs : List (Nat × Byte)) (poison : Bool) (st : Stamp) :
    s.SameSector q (s.homeWrite at' k bs poison st) := by
  have place := (s.tagged_place at' k).2
  have length := s.tagged_length at' k
  have tag := tagged s at' h
  unfold State.homeWrite
  dsimp only
  generalize s.tagged at' k = r at *
  obtain ⟨t, x, present⟩ := r
  dsimp only at *
  subst place
  rw [State.makeRoom_of_length (by omega), ite_self]
  have wrote : s.SameSector q ((t.setSec (x.wrote at' bs poison st)).sendHome at' x.sector bs poison x.owned) :=
    (tag.trans (setSec t (x := x.wrote at' bs poison st) h)).trans (traffic q (.sendHome _ _ _ _ _ _))
  split
  · split
    · exact wrote.trans (writeBack _ h)
    · exact wrote.trans (evictHome _ h)
  · split
    · exact wrote
    · exact wrote.trans (evictHome _ h)

/-- More on its way that no reader of the sector looks at. -/
theorem ofNet {s t : State} (l : List Remote) (l2 : t.l2 = s.l2) (net : t.net = s.net ++ l) (key : t.memKey = s.memKey)
    (poison : t.memPoison = s.memPoison) (mem : t.mem = s.mem) (h : ∀ r ∈ l, r.inval = true ∨ r.sector ≠ q) : s.SameSector q t := by
  refine ⟨fun e => by rw [State.sec, State.sec, l2], fun e => ?_, by rw [State.storedKey, State.storedKey, key], by rw [poison], fun _ _ => by rw [mem]⟩
  simp only [State.ownWrites, net, List.filter_append, List.append_right_eq_self, List.filter_eq_nil_iff]
  intro r hr
  rcases h r hr with inval | sector
  · simp [inval]
  · simp [sector]

theorem sendInvals (q : Nat) (s : State) (k origin : Nat) (v : List Nat) (parent : Nat) : s.SameSector q (s.sendInvals k origin v parent) := by
  obtain ⟨t, f, sent, ht⟩ := s.sendInvals_eq k origin v parent
  have more : s.SameSector q { s with net := s.net ++ s.invalsOf k origin v parent } :=
    ofNet (s.invalsOf k origin v parent) rfl rfl rfl rfl rfl (by simp [State.invalsOf])
  rcases ht with ht | ht <;> rw [ht]
  · exact more.trans (traffic q sent)
  · exact (more.trans (traffic q sent)).trans (of_eq rfl rfl rfl rfl rfl)

theorem sendWrite (s : State) (e : Nat) (at' : Attr) (w : Doing) (h : q ≠ k) (bs : List (Nat × Byte)) (poison : Bool) (owner : Option Nat) :
    s.SameSector q (s.sendWrite e at' w k bs poison owner) := by
  unfold State.sendWrite
  dsimp only
  split
  · exact ofNet [_] rfl rfl rfl rfl rfl (by simp [Ne.symm h])
  · refine SameSector.trans ?_ (traffic q (State.OnlyTraffic.sendOut _ _ _))
    exact ofNet [_] rfl rfl rfl rfl rfl (by simp [Ne.symm h])

/-- A write to one line changes nothing that a reader of another looks at. -/
theorem writeSector {s : State} (room : s.l2.length < sliceLines) (e : Nat) (at' : Attr) (w : Doing) (h : q / 4 ≠ k / 4)
    {bs : List (Nat × Byte)} (offs : ∀ b ∈ bs, b.1 < 64) (poison : Bool) : s.SameSector q (s.writeSector e at' w k bs poison) := by
  have other : q ≠ k := fun same => h (by rw [same])
  unfold State.writeSector
  dsimp only
  split
  · refine ⟨fun _ => rfl, fun _ => rfl, rfl, rfl, fun i hi => ?_⟩
    exact get_foldl_put_out (fun b hb => by have := offs b hb; omega) s.mem
  · split
    · split
      · exact sendWrite s e at' w other bs poison none
      · refine SameSector.trans ?_ (sendInvals q _ _ _ _ _)
        exact SameSector.trans (t := { s with netSeq := s.netSeq + 1 }) (of_eq rfl rfl rfl rfl rfl)
          (homeWrite (s := { s with netSeq := s.netSeq + 1 }) room at' other bs poison _)
    · exact (dropLine s e h).trans (sendWrite _ e at' w other bs poison none)

end State.SameSector

end Sys2Proof.Machine
end

section

namespace Sys2Proof.Machine

/-! ### One write operation and the lines it names (R91) -/

theorem byte_of_mem_sectorsOf {ws : List ByteWrite} {k : Nat} (h : k ∈ sectorsOf (ws.map (·.pa))) : ∃ w ∈ ws, w.pa / 64 = k := by
  simpa [sectorsOf] using h

/-- A write operation changes nothing that a reader of a line looks at where it names no byte of it and no slice fills up. -/
theorem State.SameSector.writeAll {q : Nat} {ws : List ByteWrite} {s : State} (room : s.l2.length + (sectorsOf (ws.map (·.pa))).length ≤ sliceLines)
    (h : ∀ w ∈ ws, w.pa / 256 ≠ q / 4) (e : Nat) (at' : Nat → Attr) (w : Doing) : s.SameSector q (s.writeAll e at' w ws) := by
  have elsewhere : ∀ k ∈ sectorsOf (ws.map (·.pa)), q / 4 ≠ k / 4 := fun k hk => by
    obtain ⟨b, hb, rfl⟩ := byte_of_mem_sectorsOf hk
    have := h b hb
    omega
  unfold State.writeAll
  generalize sectorsOf (ws.map (·.pa)) = ks at room elsewhere
  induction ks generalizing s with
  | nil => exact .refl q s
  | cons k rest ih =>
    rw [List.length_cons] at room
    have offs : ∀ b ∈ (ws.filter fun w => w.pa / 64 = k).map fun w => (w.pa % 64, w.val), b.1 < 64 := by
      simp only [List.forall_mem_map]
      exact fun b _ => Nat.mod_lt _ (by decide)
    have step := fun d => State.writeSector_length (s := s) (by omega) e (at' k) w k ((ws.filter fun w => w.pa / 64 = k).map fun w => (w.pa % 64, w.val)) d
    refine (State.SameSector.writeSector (by omega) e (at' k) w (elsewhere k List.mem_cons_self) offs _).trans (ih ?_ fun j hj => elsewhere j (List.mem_cons_of_mem _ hj))
    have := step ((ws.filter fun w => w.pa / 64 = k).any (·.poison))
    omega

/-! ### Places in memory and on the chip (R49, R131) -/

/-- The bytes of memory of one place that is written, and how each is reached. -/
def placeBytes (w : Place × List Byte × Bool) : List (ByteWrite × Attr) :=
  match w.1 with
  | .mem bs => bs.zipIdx.map fun b => ({ pa := b.1.1, val := at_ 0 w.2.1 b.2, poison := w.2.2 }, b.1.2)
  | .chip _ _ _ => []

/-- How a write of places reaches a sector. -/
def placesAttr (ws : List (Place × List Byte × Bool)) (k : Nat) : Attr :=
  (((ws.flatMap placeBytes).find? fun b => b.1.pa / 64 = k).map (·.2)).getD {}

/-- One place on the chip written by a plain store. -/
def State.putPlace (o : Option Nat) (s : State) (w : Place × List Byte × Bool) : State :=
  match w.1 with
  | .mem _ => s
  | .chip c off far => if far then s.farWrite o c off w.2.1 w.2.2 none else s.chipWrite o c off w.2.1 w.2.2 none

/-- A plain write of places: memory first, then the chip. -/
theorem State.writePlaces_plain (s : State) (e : Nat) (o : Option Nat) (ws : List (Place × List Byte × Bool)) :
    s.writePlaces e o false ws =
      ws.foldl (State.putPlace o) (s.writeAll e (placesAttr ws) (s.doing e false (ws.map (·.1))) ((ws.flatMap placeBytes).map (·.1))) := rfl

theorem placeBytes_pa (w : Place × List Byte × Bool) : (placeBytes w).map (·.1.pa) = (memBytes [w.1]).map (·.1) := by
  obtain ⟨p, data⟩ := w
  cases p with
  | mem bs =>
    simp only [placeBytes, memBytes, List.map_map, List.flatMap_singleton]
    calc bs.zipIdx.map _ = (bs.zipIdx.map (·.1)).map (·.1) := by rw [List.map_map]; rfl
      _ = _ := by rw [List.zipIdx_map_fst]
  | chip => rfl

theorem memBytes_cons (p : Place) (ps : List Place) : memBytes (p :: ps) = memBytes [p] ++ memBytes ps := by
  simp [memBytes]

theorem placesBytes_pa (ws : List (Place × List Byte × Bool)) :
    ((ws.flatMap placeBytes).map (·.1)).map (·.pa) = (memBytes (ws.map (·.1))).map (·.1) := by
  induction ws with
  | nil => rfl
  | cons w rest ih =>
    rw [List.flatMap_cons, List.map_cons, memBytes_cons, List.map_append, List.map_append, List.map_append, ih, List.map_map, ← placeBytes_pa]
    rfl

/-! ### Writes at a core's port (R22, R131) -/

/-- Nothing differs but cores and the count of window misses. -/
def State.OnlyChip (s t : State) : Prop := t = { s with cores := t.cores, misses := t.misses }

namespace State.OnlyChip

theorem refl (s : State) : s.OnlyChip s := rfl

theorem trans {s t u : State} (h : s.OnlyChip t) (g : t.OnlyChip u) : s.OnlyChip u := by
  unfold State.OnlyChip at *
  rw [g, h]

theorem foldl {β : Type} {f : State → β → State} (h : ∀ (s : State) b, s.OnlyChip (f s b)) (l : List β) (s : State) : s.OnlyChip (l.foldl f s) := by
  induction l generalizing s with
  | nil => exact refl s
  | cons b r ih => exact (h s b).trans (ih _)

theorem modCore (s : State) (c : Nat) (f : Core → Core) : s.OnlyChip (s.modCore c f) := rfl

theorem viewWrite (s : State) (o : Option Nat) (c slot n l : Nat) (x : LaneWord) : s.OnlyChip (s.viewWrite o c slot n l x) := by
  unfold State.viewWrite
  split
  · rfl
  · split
    · exact modCore s _ _
    · rfl

theorem chipPut (s : State) (o : Option Nat) (c off : Nat) (bs : List Byte) (poison : Bool) : s.OnlyChip (s.chipPut o c off bs poison) := by
  unfold State.chipPut
  split
  · exact foldl (fun t k => viewWrite t _ _ _ _ _ _) _ s
  · exact modCore s _ _
  · exact modCore s _ _
  · exact modCore s _ _
  · exact refl s
  · exact refl s

theorem stampChip (s : State) (c off n : Nat) (st : Option Stamp) : s.OnlyChip (s.stampChip c off n st) := by
  unfold State.stampChip
  split
  · exact refl s
  · exact modCore s _ _

theorem chipWrite (s : State) (o : Option Nat) (c off : Nat) (bs : List Byte) (poison : Bool) (st : Option Stamp) :
    s.OnlyChip (s.chipWrite o c off bs poison st) := (chipPut s o c off bs poison).trans (stampChip _ _ _ _ _)

theorem farWrite (s : State) (o : Option Nat) (c off : Nat) (bs : List Byte) (poison : Bool) (st : Option Stamp) :
    s.OnlyChip (s.farWrite o c off bs poison st) := by
  unfold State.farWrite
  split
  · exact modCore s _ _
  · exact chipWrite s _ _ _ _ _ _

theorem putPlace (o : Option Nat) (s : State) (w : Place × List Byte × Bool) : s.OnlyChip (s.putPlace o w) := by
  unfold State.putPlace
  split
  · exact refl s
  · split
    · exact farWrite s _ _ _ _ _ _
    · exact chipWrite s _ _ _ _ _ _

theorem sameSector {q : Nat} {s t : State} (h : s.OnlyChip t) : s.SameSector q t := .of_eq (by rw [h]) (by rw [h]) (by rw [h]) (by rw [h]) (by rw [h])

end State.OnlyChip

/-- A plain write of places changes nothing that a reader of a line looks at where it names no byte of it and no slice fills up. -/
theorem State.SameSector.writePlaces {q : Nat} {s : State} {ws : List (Place × List Byte × Bool)}
    (room : s.l2.length + (sectorsOf ((memBytes (ws.map (·.1))).map (·.1))).length ≤ sliceLines)
    (h : ∀ b ∈ memBytes (ws.map (·.1)), b.1 / 256 ≠ q / 4) (e : Nat) (o : Option Nat) : s.SameSector q (s.writePlaces e o false ws) := by
  have memory : s.SameSector q
      (s.writeAll e (placesAttr ws) (s.doing e false (ws.map (·.1))) ((ws.flatMap placeBytes).map (·.1))) := by
    refine .writeAll ?_ ?_ _ _ _
    · rwa [placesBytes_pa]
    · intro w hw
      have named : w.pa ∈ (memBytes (ws.map (·.1))).map (·.1) := by
        rw [← placesBytes_pa]
        exact List.mem_map_of_mem hw
      obtain ⟨b, hb, same⟩ := List.mem_map.mp named
      rw [← same]
      exact h b hb
  rw [State.writePlaces_plain]
  generalize s.writeAll _ _ _ _ = t at memory ⊢
  exact memory.trans (State.OnlyChip.foldl (State.OnlyChip.putPlace o) ws t).sameSector

/-! ### Registers and what a store leaves of them (R43) -/

/-- What a warp's registers are read from: its rows, the warps of the core and its rooms. -/
def Core.regs (k : Core) : List (Nat × Row) × List (Nat × Option Warp) × List Room := (k.rows, k.warps, k.rooms)

/-- No core's registers differ. -/
def State.SameRegs (s t : State) : Prop := ∀ k, (t.core k).regs = (s.core k).regs

namespace State.SameRegs

theorem refl (s : State) : s.SameRegs s := fun _ => rfl

theorem trans {s t u : State} (h : s.SameRegs t) (g : t.SameRegs u) : s.SameRegs u := fun k => (g k).trans (h k)

theorem ofCores {s t : State} (h : t.cores = s.cores) : s.SameRegs t := fun k => by rw [State.core, State.core, h]

theorem modCore (s : State) (c : Nat) {f : Core → Core} (h : ∀ k, (f k).regs = k.regs) : s.SameRegs (s.modCore c f) := fun k => by
  by_cases hk : k = c
  · subst hk
    exact State.core_modCore_of (P := fun x => x.regs = (s.core k).regs) s k f rfl (h _)
  · rw [State.core_modCore_ne s f hk]

theorem chipWrite (s : State) (o : Option Nat) {c off : Nat} {far : Bool} (h : (Place.chip c off far).onRegisters = false) (bs : List Byte) (poison : Bool)
    (st : Option Stamp) : s.SameRegs (s.chipWrite o c off bs poison st) := by
  refine trans (t := s.chipPut o c off bs poison) ?_ ?_
  · unfold Place.onRegisters at h
    unfold State.chipPut
    split
    case h_1 _ _ _ _ here => simp [here] at h
    case h_2 => exact modCore s c fun _ => rfl
    case h_3 => exact modCore s c fun _ => rfl
    case h_4 => exact modCore s c fun _ => rfl
    all_goals exact refl s
  · unfold State.chipWrite State.stampChip
    split
    · exact refl _
    · exact modCore _ c fun _ => rfl

theorem putPlace (s : State) (o : Option Nat) {w : Place × List Byte × Bool} (h : w.1.onRegisters = false) : s.SameRegs (s.putPlace o w) := by
  unfold State.putPlace
  split
  · exact refl s
  next c off far here =>
    rw [here] at h
    split
    · unfold State.farWrite
      split
      · exact modCore s c fun _ => rfl
      · exact chipWrite s o h _ _ _
    · exact chipWrite s o h _ _ _

/-- Outside the register view a plain write of places changes no register. -/
theorem writePlaces (s : State) (e : Nat) (o : Option Nat) {ws : List (Place × List Byte × Bool)} (h : ∀ w ∈ ws, w.1.onRegisters = false) :
    s.SameRegs (s.writePlaces e o false ws) := by
  rw [State.writePlaces_plain]
  have memory := State.OnlyMemory.writeAll s e (placesAttr ws) (s.doing e false (ws.map (·.1))) ((ws.flatMap placeBytes).map (·.1))
  generalize s.writeAll _ _ _ _ = t at memory ⊢
  refine trans (t := t) (ofCores (by rw [memory])) ?_
  clear memory
  induction ws generalizing t with
  | nil => exact refl t
  | cons w rest ih => exact (putPlace t o (h w List.mem_cons_self)).trans (ih (fun x hx => h x (List.mem_cons_of_mem _ hx)) _)

end State.SameRegs

section
variable {s t : State} {k : Nat} (h : (t.core k).regs = (s.core k).regs)
include h

theorem State.warp?_of_regs (j : Nat) : t.warp? k j = s.warp? k j :=
  congrArg (fun x : List (Nat × Row) × List (Nat × Option Warp) × List Room => get none x.2.1 j) h

theorem State.warp_of_regs (j : Nat) : t.warp k j = s.warp k j := by rw [State.warp, State.warp, State.warp?_of_regs h]

theorem State.group_of_regs (n : Nat) : t.group k n = s.group k n :=
  congrArg (fun x : List (Nat × Row) × List (Nat × Option Warp) × List Room => (x.2.2.getD n {}).group.getD {}) h

theorem State.vreg_of_regs (slot n l : Nat) : t.vreg k slot n l = s.vreg k slot n l :=
  State.vreg_congr (congrArg (·.1) h) (by rw [State.groupOf, State.groupOf, State.warp_of_regs h, State.group_of_regs h]) n l

end

end Sys2Proof.Machine
end

section

namespace Sys2Proof.Machine

/-- A state that keeps a warp's core and writes none of its registers keeps every core's. -/
theorem State.Keeps.vreg_of_none {core slot : Nat} {may : RegWrite → Prop} {e t : State} (h : e.Keeps core slot may t) (none : ∀ r, ¬ may r)
    (k j n l : Nat) : t.vreg k j n l = e.vreg k j n l := by
  by_cases hk : k = core
  · subst hk
    by_cases hj : j = slot
    · subst hj
      exact h.vregs n l fun x => none _
    · refine State.vreg_congr (h.rows fun n l x => none _) ?_ n l
      rw [State.groupOf, State.groupOf, State.warp, State.warp, h.warps j hj, h.owners]
  · exact State.vreg_of_regs (by rw [h.cores k hk]) j n l

/-- Where only cores and what an issue clears differ, every sector reads the same. -/
theorem State.OnlyIssue.sameSector {q : Nat} {s t : State} (h : s.OnlyIssue t) : s.SameSector q t := by
  rw [h]
  exact .of_eq rfl rfl rfl rfl rfl

/-- What a plain store gives each place: the bytes of its lane's data registers, and whether they are poisoned. -/
def Ctx.stored (c : Ctx) (e : State) (z : Size) (d : Dst) (ps : List (Nat × Place)) : List (Place × List Byte × Bool) :=
  let data := fun l => (List.range (Size.regs z)).map fun i => c.vlane e ((c.number d.n.toNat d.ix l).toNat + i) l
  ps.map fun p => (p.2, storeBytes z (data p.1), (data p.1).any (·.poison))

theorem Ctx.stored_places (c : Ctx) (e : State) (z : Size) (d : Dst) (ps : List (Nat × Place)) :
    (c.stored e z d ps).map (·.1) = ps.map (·.2) := by simp [Ctx.stored]

theorem mem_memBytes {ps : List (Nat × Place)} {b : Nat × Attr} (h : b ∈ memBytes (ps.map (·.2))) : ∃ p ∈ ps, ∃ bs, p.2 = .mem bs ∧ b ∈ bs := by
  unfold memBytes at h
  simp only [List.flatMap_map, List.mem_flatMap] at h
  obtain ⟨p, hp, hb⟩ := h
  split at hb
  next bs here => exact ⟨p, hp, bs, here, hb⟩
  next => cases hb

end Sys2Proof.Machine

namespace Sys2Proof.MemoryHierarchy
open Sys2Proof.Machine

theorem storeEffects : StoreEffects := by
  intro i r s hr hs c e usable active plain pend accs ps addresses places room
  have ran : exec i s = .next (c.done (e.writePlaces c.die c.owner false (c.stored e r.z r.d ps))) := by
    rw [exec_store hr, run_ok hs, store_ok usable active addresses places (by rw [plain]), plain]
    rfl
  have names := c.stored_places e r.z r.d ps
  generalize c.stored e r.z r.d ps = ws at ran names
  have entered := s.onlyCores_entering i
  have issued := c.onlyIssue_done (e.writePlaces c.die c.owner false ws)
  refine ⟨_, ran, fun die a pa outside => ?_, fun elsewhere => ?_⟩
  · have wrote : e.SameSector (pa / 64) (e.writePlaces c.die c.owner false ws) := by
      refine .writePlaces ?_ (fun b hb => ?_) _ _
      · rw [names, entered.l2]
        exact room
      · rw [names] at hb
        obtain ⟨p, hp, bs, here, hb⟩ := mem_memBytes hb
        have := outside p hp bs here b hb
        omega
    have same := (entered.onlyIssue.sameSector.trans wrote).trans issued.sameSector
    exact ⟨same.dieByte die a rfl, same.diePoison die a rfl⟩
  · have same : e.SameRegs (e.writePlaces c.die c.owner false ws) := .writePlaces e _ _ fun w hw => by
      have named : w.1 ∈ ps.map (·.2) := names ▸ List.mem_map_of_mem hw
      obtain ⟨p, hp, here⟩ := List.mem_map.mp named
      rw [← here]
      exact elsewhere p hp
    generalize e.writePlaces c.die c.owner false ws = u at same
    have warp : u.warp c.core c.slot = c.w := State.warp_of_regs (same _) _
    have live : (u.warp? c.core c.slot).isSome = true := by
      rw [State.warp?_of_regs (same _)]
      exact State.entering_live hs i
    have kept : u.Keeps c.core c.slot (fun _ => False) (c.done u) :=
      (State.keeps_refl live (by rw [warp, pend]; exact nofun)).done fun _ none => none.elim
    have file := kept.file
    rw [warp] at file
    simp only [Warp.file, Prod.mk.injEq] at file
    obtain ⟨-, masks, uni, ix, satchel, trap, handler, wtcmp⟩ := file
    have flags := kept.flags fun _ => id
    rw [warp] at flags
    refine ⟨fun k slot n l => ?_, fun k j other => ?_, masks, uni, ix, flags, satchel, trap, handler, wtcmp⟩
    · exact (kept.vreg_of_none (fun _ => id) k slot n l).trans (State.vreg_of_regs (same k) slot n l)
    · refine Eq.trans ?_ (State.warp?_of_regs (same k) j)
      by_cases hk : k = c.core
      · subst hk
        exact kept.warps j fun hj => other (by rw [hj])
      · exact State.warp?_of_regs (by rw [kept.cores k hk]) j

end Sys2Proof.MemoryHierarchy
end

section

namespace Sys2Proof.Machine

/-! ### Bytes written into a sector (R91) -/

theorem overlay_append (data : List Byte) (bs : List (Nat × Byte)) (b : Nat × Byte) :
    overlay data (bs ++ [b]) = (overlay data bs).set b.1 b.2 := by simp [overlay]

theorem overlay_length (data : List Byte) (bs : List (Nat × Byte)) : (overlay data bs).length = data.length := by
  induction bs using List.reverseRecOn with
  | nil => rfl
  | append_singleton bs b ih => rw [overlay_append, List.length_set, ih]

/-- The byte last given at an offset, if any is. -/
def lastAt (bs : List (Nat × Byte)) (i : Nat) : Option (Nat × Byte) := (bs.filter fun b => b.1 = i).getLast?

theorem lastAt_append (bs : List (Nat × Byte)) (b : Nat × Byte) (i : Nat) :
    lastAt (bs ++ [b]) i = if b.1 = i then some b else lastAt bs i := by
  unfold lastAt
  by_cases h : b.1 = i <;> simp [h]

/-- Of the bytes written at one offset the last remains. -/
theorem at_overlay (data : List Byte) (bs : List (Nat × Byte)) {i : Nat} (h : i < data.length) :
    at_ 0 (overlay data bs) i = ((lastAt bs i).map (·.2)).getD (at_ 0 data i) := by
  induction bs using List.reverseRecOn with
  | nil => rfl
  | append_singleton bs b ih =>
    rw [overlay_append, lastAt_append]
    split
    case isTrue here =>
      subst here
      simp [at_, List.getD, overlay_length, h]
    case isFalse other => rw [at_set_ne _ _ _ (Ne.symm other), ih]

/-- The mask of written bytes holds the offsets at which a byte is given. -/
theorem offsMask_getLsbD (bs : List (Nat × Byte)) {i : Nat} (h : i < 64) : (offsMask bs).getLsbD i = (lastAt bs i).isSome := by
  induction bs using List.reverseRecOn with
  | nil => simp [offsMask, lastAt]
  | append_singleton bs b ih =>
    have bit : (BitVec.ofNat 64 (2 ^ b.1)).getLsbD i = decide (b.1 = i) := by
      simp only [BitVec.getLsbD_ofNat, h, decide_true, Bool.true_and, Nat.testBit_two_pow]
    rw [lastAt_append, show offsMask (bs ++ [b]) = offsMask bs ||| BitVec.ofNat 64 (2 ^ b.1) by simp [offsMask], BitVec.getLsbD_or, ih, bit]
    by_cases here : b.1 = i <;> simp [here]

theorem L2Sec.wrote_have (x : L2Sec) (at' : Attr) (bs : List (Nat × Byte)) (poison : Bool) (st : Stamp) {i : Nat} (h : i < 64) :
    (x.wrote at' bs poison st).have_.getLsbD i = (x.have_.getLsbD i || (lastAt bs i).isSome) := by
  rw [← offsMask_getLsbD bs h]
  exact BitVec.getLsbD_or

theorem L2Sec.wrote_data (x : L2Sec) (at' : Attr) (bs : List (Nat × Byte)) (poison : Bool) (st : Stamp) {i : Nat} (h : i < x.data.length) :
    at_ 0 (x.wrote at' bs poison st).data i = ((lastAt bs i).map (·.2)).getD (at_ 0 x.data i) := at_overlay x.data bs h

/-! ### A sector that its home slice holds (R58) -/

theorem wrongKey_self (pa : Nat) (key : Option Nat) : wrongKey pa key key = none := by
  unfold wrongKey
  split
  · rw [if_pos (by simp_all)]
  · simp_all
  · rfl

theorem homeDie_sector {k i : Nat} (h : paKind (k * 64) = .hbm) (hi : i < 64) : homeDie (k * 64 + i) = homeDie (k * 64) := by
  obtain ⟨low, high⟩ := paKind_hbm h
  have kind : paKind (k * 64 + i) = .hbm := by
    unfold paKind
    grind
  rw [homeDie_hbm h, homeDie_hbm kind]
  omega

/-- A byte of a sector that the die's own slice holds under the reader's key. -/
theorem State.dieByte_held {s : State} {e k i : Nat} {at' : Attr} {x : L2Sec} (kind : paKind (k * 64) = .hbm) (home : homeDie (k * 64) = e)
    (hx : s.sec e k = some x) (key : x.key = at'.key) (own : s.ownWrites e k = []) (hi : i < 64) :
    s.dieByte e at' (k * 64 + i) = if x.have_.getLsbD i then at_ 0 x.data i else s.storedByte x.key (k * 64 + i) := by
  have sector : (k * 64 + i) / 64 = k := by omega
  have offset : (k * 64 + i) % 64 = i := by omega
  have hit : s.copyHit e at' k = none := by rw [← home, State.copyHit_home]
  unfold State.dieByte State.homeByte
  simp only [sector, offset, own, hit, List.foldl_nil, homeDie_sector kind hi, home, hx, key, wrongKey_self]

/-- A slice has room for a sector that it holds. -/
theorem State.hasRoom_held {s : State} {e k : Nat} {x : L2Sec} (hx : s.sec e k = some x) (held : x.have_ ≠ 0) : s.hasRoom e k = true := by
  obtain ⟨hd, hk⟩ := State.sec_some hx
  have mine : (s.l2.filter fun x => x.die = e && x.have_ ≠ 0).any (fun x => x.sector / 4 = k / 4) = true :=
    List.any_eq_true.2 ⟨x, List.mem_filter.2 ⟨List.mem_of_find?_eq_some hx, by simpa [hd] using held⟩, by simp [hk]⟩
  simp only [State.hasRoom, mine, Bool.or_true, Bool.true_or]

/-- A cached write of a sector of HBM that the home slice holds under the writer's key changes that sector alone. -/
theorem State.homeWrite_held {s : State} {k : Nat} {at' : Attr} {x : L2Sec} (kind : paKind (k * 64) = .hbm)
    (hx : s.sec (homeDie (k * 64)) k = some x) (key : x.key = at'.key) (held : x.have_ ≠ 0) (cached : at'.cp ≠ 2) (bs : List (Nat × Byte))
    (poison : Bool) (st : Stamp) : s.homeWrite at' k bs poison st = s.setSec (x.wrote at' bs poison st) := by
  have tag : s.tagged at' k = (s, x, true) := by simpa [State.tagged, hx, key] using held
  have room := State.hasRoom_held hx held
  simp only [State.homeWrite, tag, State.makeRoom, State.sendHome, kind, room, cached, if_true, if_false]

/-- A write by the home's own die into a sector that its slice holds is performed there at once. -/
theorem State.writeSector_held {s : State} {e k : Nat} {at' : Attr} {w : Doing} {x : L2Sec} (kind : paKind (k * 64) = .hbm)
    (home : homeDie (k * 64) = e) (hx : s.sec e k = some x) (key : x.key = at'.key) (held : x.have_ ≠ 0) (cached : at'.cp ≠ 2) (op : w.op = none)
    (own : s.ownWrites e k = []) (bs : List (Nat × Byte)) (poison : Bool) :
    s.writeSector e at' w k bs poison =
      ({ s with netSeq := s.netSeq + 1 }.setSec (x.wrote at' bs poison { die := e, v := (s.die e).vc, rel := w.rel })).sendInvals
        k e (s.die e).vc s.netSeq := by
  subst home
  have free : s.homeFree at' true k = true := by simp [State.homeFree, hx, key, cached]
  have wrote := State.homeWrite_held (s := { s with netSeq := s.netSeq + 1 }) kind hx key held cached bs poison
    { die := homeDie (k * 64), v := (s.die (homeDie (k * 64))).vc, rel := w.rel }
  simp [State.writeSector, kind, op, own, free, wrote]

end Sys2Proof.Machine

namespace Sys2Proof.MemoryHierarchy
open Sys2Proof.Machine

theorem sectorBytes : SectorBytes := by
  intro s e k at' w bs poison x kind home hx key held whole cached op own offs i hi
  obtain ⟨hd, hk⟩ := State.sec_some hx
  have after := fun st => State.dieByte_held (s := { s with netSeq := s.netSeq + 1 }.setSec (x.wrote at' bs poison st)) (at' := at')
    (x := x.wrote at' bs poison st) kind home (State.sec_setSec_of (x := x.wrote at' bs poison st) _ hd hk) key own hi
  rw [State.writeSector_held kind home hx key held cached op own bs poison,
    (State.SameSector.sendInvals k _ k e _ _).dieByte e at' (by omega), after, State.dieByte_held kind home hx key own hi,
    x.wrote_have at' bs poison _ hi, x.wrote_data at' bs poison _ (by omega)]
  show _ = match lastAt bs i with
    | some b => b.2
    | none => _
  cases lastAt bs i with
  | some b => simp only [Option.isSome_some, Bool.or_true, if_true, Option.map_some, Option.getD_some]
  | none =>
    simp only [Option.isSome_none, Bool.or_false, Option.map_none, Option.getD_none]
    rfl

/-- Settles O58: what a store leaves alone, sector by sector and register by register, then what it does to a sector that its home slice holds. -/
theorem storeFrame : Obligations.StoreFrame := ⟨storeEffects, sectorBytes⟩

end Sys2Proof.MemoryHierarchy
end

section

namespace Sys2Proof.Machine

/-! ### Encodings and their values (R69) -/

/-- A format's width is its sign, exponent and fraction bits. -/
theorem FFmt.bits_eq (f : FFmt) : (FFmt.spec f).bits = (FFmt.spec f).fb + (FFmt.spec f).eb + 1 := by
  cases f <;> rfl

theorem expField_lt (f : FFmt) (x : Nat) : expField f x < 2 ^ (FFmt.spec f).eb := Nat.mod_lt _ (Nat.two_pow_pos _)

theorem fracField_lt (f : FFmt) (x : Nat) : fracField f x < 2 ^ (FFmt.spec f).fb := Nat.mod_lt _ (Nat.two_pow_pos _)

/-- An encoding is its exponent and fraction fields with its sign. -/
theorem withSign_fields (f : FFmt) {x : Nat} (h : x < 2 ^ (FFmt.spec f).bits) :
    withSign f (signBit f x) (expField f x * 2 ^ (FFmt.spec f).fb + fracField f x) = x := by
  rw [FFmt.bits_eq, Nat.pow_succ] at h
  have top : x / 2 ^ ((FFmt.spec f).fb + (FFmt.spec f).eb) < 2 := Nat.div_lt_of_lt_mul h
  have fields : expField f x * 2 ^ (FFmt.spec f).fb + fracField f x = x % 2 ^ ((FFmt.spec f).fb + (FFmt.spec f).eb) := by
    rw [expField, fracField, Nat.pow_add, Nat.mod_mul, Nat.mul_comm, Nat.add_comm]
  have split := Nat.div_add_mod x (2 ^ ((FFmt.spec f).fb + (FFmt.spec f).eb))
  rw [fields, withSign, signBit, FFmt.bits_eq, Nat.add_sub_cancel]
  generalize x / 2 ^ ((FFmt.spec f).fb + (FFmt.spec f).eb) = t at top split
  obtain rfl | rfl : t = 0 ∨ t = 1 := by omega
  · simpa using split
  · simpa [Nat.add_comm] using split

/-- A finite encoding is a subnormal, with the least exponent, or has its leading bit in front of its fraction. -/
theorem decodeF_finite {f : FFmt} {x : Nat} (nan : isNaN f x = false) (inf : (decodeF f x).isInf = false) :
    decodeF f x = if expField f x = 0 then .fin (signBit f x) (fracField f x) (1 - ((FFmt.spec f).bias : Int) - (FFmt.spec f).fb)
      else .fin (signBit f x) (2 ^ (FFmt.spec f).fb + fracField f x) ((expField f x : Int) - (FFmt.spec f).bias - (FFmt.spec f).fb) := by
  unfold decodeF at inf ⊢
  simp only [nan, Bool.false_eq_true, if_false] at inf ⊢
  split at inf
  · cases inf
  · rename_i h
    rw [if_neg h]

/-- A finite encoding without its sign is at most the largest finite magnitude. -/
theorem fields_le_maxBits {f : FFmt} {x : Nat} (nan : isNaN f x = false) (inf : (decodeF f x).isInf = false) :
    expField f x * 2 ^ (FFmt.spec f).fb + fracField f x ≤ maxBits f := by
  have he := expField_lt f x
  have hm := fracField_lt f x
  unfold decodeF at inf
  simp only [nan, Bool.false_eq_true, if_false] at inf
  cases f
  all_goals simp only [isNaN, FFmt.spec, maxBits, Bool.and_eq_false_iff, decide_eq_false_iff_not] at *
  all_goals grind [XVal.isInf]

/-! ### Rounding what needs none (R68) -/

/-- A significand that a format holds at an exponent: of full length there, or at the format's least exponent. -/
structure HeldAt (f : FFmt) (m : Nat) (q : Int) : Prop where
  nonzero : m ≠ 0
  short : m < 2 ^ ((FFmt.spec f).fb + 1)
  least : 1 - ((FFmt.spec f).bias : Int) - (FFmt.spec f).fb ≤ q
  full : 2 ^ (FFmt.spec f).fb ≤ m ∨ q = 1 - ((FFmt.spec f).bias : Int) - (FFmt.spec f).fb

/-- Rounding a significand at the exponent it is held at finds that exponent. -/
theorem HeldAt.exponent {f : FFmt} {m : Nat} {q : Int} (h : HeldAt f m q) :
    max ((Nat.log2 m : Int) + q - (FFmt.spec f).fb) (1 - ((FFmt.spec f).bias : Int) - (FFmt.spec f).fb) = q := by
  have upper : Nat.log2 m < (FFmt.spec f).fb + 1 := (Nat.log2_lt h.nonzero).mpr h.short
  have least := h.least
  rcases h.full with long | low
  · have lower : (FFmt.spec f).fb ≤ Nat.log2 m := (Nat.le_log2 h.nonzero).mpr long
    omega
  · omega

/-- Nothing is rounded at or below a value's own exponent. -/
theorem roundAt_exact (rm : RM) (neg : Bool) (m : Nat) {e q : Int} (h : q ≤ e) : roundAt rm neg m e q = (m * 2 ^ (e - q).toNat, true) := if_pos h

/-- Rounding a value that the format holds gives its encoding, and raises no flag. -/
theorem roundFin_exact {f : FFmt} {m : Nat} {q : Int} (h : HeldAt f m q) (rm : RM) (sat neg : Bool) {enc : Nat}
    (henc : enc = if m < 2 ^ (FFmt.spec f).fb then m
      else (q - (1 - ((FFmt.spec f).bias : Int) - (FFmt.spec f).fb) + 1).toNat * 2 ^ (FFmt.spec f).fb + (m - 2 ^ (FFmt.spec f).fb))
    (fits : enc ≤ maxBits f) : roundFin f rm sat neg m q = (withSign f neg enc, flNone) := by
  unfold roundFin
  simp only [h.exponent, roundAt_exact rm neg m (le_refl q), Int.sub_self, Int.toNat_zero, Nat.pow_zero, Nat.mul_one,
    if_neg h.short.ne, ← henc, if_neg (Nat.not_lt.mpr fits), if_true]

end Sys2Proof.Machine

namespace Sys2Proof.DataFormats
open Sys2Proof.Machine

/-- Settles O5: a subnormal is held at the least exponent, any other finite encoding with its leading bit, so that neither is rounded. -/
theorem roundingKeepsEncodings : Obligations.RoundingKeepsEncodings := by
  intro f rm sat x hx nan inf
  have whole := withSign_fields f hx
  have fits := fields_le_maxBits nan inf
  have he := expField_lt f x
  have hm := fracField_lt f x
  rw [decodeF_finite nan inf]
  split
  next sub =>
    rw [sub, Nat.zero_mul, Nat.zero_add] at whole fits
    unfold roundX
    dsimp only
    split
    next zero => rw [← zero, whole]
    next nonzero =>
      have held : HeldAt f (fracField f x) (1 - ((FFmt.spec f).bias : Int) - (FFmt.spec f).fb) :=
        ⟨nonzero, by rw [Nat.pow_succ]; omega, le_refl _, .inr rfl⟩
      rw [roundFin_exact held rm sat _ (if_pos hm).symm fits, whole]
  next norm =>
    have held : HeldAt f (2 ^ (FFmt.spec f).fb + fracField f x) ((expField f x : Int) - (FFmt.spec f).bias - (FFmt.spec f).fb) :=
      ⟨by omega, by rw [Nat.pow_succ]; omega, by omega, .inl (by omega)⟩
    rw [roundX, if_neg held.nonzero, roundFin_exact held rm sat _ ?_ fits, whole]
    rw [if_neg (by omega), Nat.add_sub_cancel_left]
    congr 2
    omega

end Sys2Proof.DataFormats
end

section

namespace Sys2Proof.Machine

/-! ### `fadd` of special operands (R70, R85, R233) -/

theorem decodeF_nan {f : FFmt} {x : Nat} (h : isNaN f x = true) : decodeF f x = .nan := if_pos h

@[simp] theorem flushIn_f32 (cplv x : Nat) : flushIn .f32 cplv x = x := by simp [flushIn]
@[simp] theorem flushOut_f32 (cplv : Nat) (r : Nat × FFlags) : flushOut .f32 cplv r = r := by simp [flushOut]

theorem quiet_f32 (x : Nat) : quiet .f32 x = if isSNaN .f32 x then x + 0x400000 else x := rfl

/-- One term that is a NaN and one other are not two opposite infinities. -/
theorem not_opposed_of_nan {x y : XVal} (h : x = .nan ∨ y = .nan) : ([x, y].contains (.inf false) && [x, y].contains (.inf true)) = false := by
  rcases h with rfl | rfl
  · cases y with
    | inf s => cases s <;> decide
    | nan | fin => simp
  · cases x with
    | inf s => cases s <;> decide
    | nan | fin => simp

/-- `fadd` with a NaN operand gives what R70 says of its operands in their order. -/
theorem addF_f32_nan {a b : Nat} (h : isNaN .f32 a = true ∨ isNaN .f32 b = true) (cplv : Nat) (rm : RM) (sat : Bool) :
    addF .f32 cplv rm sat a b = nanResult .f32 cplv [(.f32, a), (.f32, b)] := by
  have calm := not_opposed_of_nan (h.imp decodeF_nan decodeF_nan)
  have any : ([(FFmt.f32, a), (FFmt.f32, b)].any fun p => isNaN p.1 p.2) = true := by simpa using h
  simp only [addF, flushIn_f32, flushOut_f32, sumOp, any, calm, if_true, Bool.false_eq_true, if_false]

theorem nanResult_f32_first {a : Nat} (b : Nat) (h : isNaN .f32 a = true) (cplv : Nat) : nanResult .f32 cplv [(.f32, a), (.f32, b)] =
    (if cplv = 1 then 0x7FC00000 else if isSNaN .f32 a then a + 0x400000 else a, if isSNaN .f32 a ∨ isSNaN .f32 b then flNV else flNone) := by
  have hd : defaultNaN .f32 = 0x7FC00000 := rfl
  simp only [nanResult, List.find?_cons, h, List.any_cons, List.any_nil, Bool.or_false, Bool.or_eq_true, hd, quiet_f32, if_true]
  split <;> rfl

theorem nanResult_f32_second {a b : Nat} (ha : isNaN .f32 a = false) (h : isNaN .f32 b = true) (cplv : Nat) :
    nanResult .f32 cplv [(.f32, a), (.f32, b)] =
      (if cplv = 1 then 0x7FC00000 else if isSNaN .f32 b then b + 0x400000 else b, if isSNaN .f32 b then flNV else flNone) := by
  have hd : defaultNaN .f32 = 0x7FC00000 := rfl
  have quietA : isSNaN .f32 a = false := by simp [isSNaN, ha]
  simp only [nanResult, List.find?_cons, ha, h, List.any_cons, List.any_nil, quietA, Bool.false_or, Bool.or_false, hd, quiet_f32, if_true]
  split <;> rfl

@[simp] theorem isNaN_inf32 (s : Bool) : isNaN .f32 (inf32 s) = false := by cases s <;> decide
@[simp] theorem decodeF_inf32 (s : Bool) : decodeF .f32 (inf32 s) = .inf s := by cases s <;> decide

/-- The sum of opposite infinities is invalid. -/
theorem sumTerms_opposed (s negZero : Bool) : sumTerms [.inf s, .inf (!s)] negZero = (.nan, true) := by
  cases s <;> rfl

theorem addF_f32_opposed (cplv : Nat) (rm : RM) (sat s : Bool) : addF .f32 cplv rm sat (inf32 s) (inf32 !s) = (0x7FC00000, flNV) := by
  have any : ([(FFmt.f32, inf32 s), (FFmt.f32, inf32 !s)].any fun p => isNaN p.1 p.2) = false := by simp
  simp only [addF, flushIn_f32, flushOut_f32, sumOp, any, decodeF_inf32, sumTerms_opposed, Bool.false_eq_true, if_false]
  rfl

/-! ### The special functions of special values (R240) -/

@[simp] theorem decodeF_zero32 (s : Bool) : decodeF .f32 (zero32 s) = .fin s 0 (-149) := by cases s <;> decide
@[simp] theorem decodeF_one32 : decodeF .f32 one32 = .fin false (2 ^ 23) (-23) := by decide

theorem withSign_zero32 (s : Bool) : withSign .f32 s 0 = zero32 s := by cases s <;> rfl
theorem roundX_inf32 (rm : RM) (s : Bool) : roundX .f32 rm false (.inf s) = (inf32 s, flNone) := by cases s <;> rfl

/-- One as 2^k over 2^k: its 24 bits are kept whole, whether they are shifted up or the zeros after them dropped. -/
theorem roundAt_one (rm : RM) (neg : Bool) (k : Nat) : roundAt rm neg (2 ^ k) (-(k : Int)) (-23) = (2 ^ 23, true) := by
  by_cases h : k ≤ 23
  · rw [roundAt_exact rm neg _ (by omega), ← Nat.pow_add]
    congr 2
    omega
  · obtain ⟨j, rfl⟩ : ∃ j, k = 23 + j := ⟨k - 23, by omega⟩
    have sh : ((-23 : Int) - -((23 + j : Nat) : Int)).toNat = j := by omega
    have rest : 2 ^ (23 + j) % 2 ^ j = 0 := Nat.mod_eq_zero_of_dvd (Nat.pow_dvd_pow 2 (by omega))
    have kept : 2 ^ (23 + j) / 2 ^ j = 2 ^ 23 := by rw [Nat.pow_add, Nat.mul_div_cancel _ (Nat.two_pow_pos j)]
    simp only [roundAt, sh, rest, kept, roundsUp, if_true, decide_true, Bool.false_eq_true, if_false]
    rw [if_neg (by omega)]

/-- One, however it is written over a power of two, rounds to its encoding. -/
theorem roundX_one (rm : RM) (sat : Bool) (k : Nat) : roundX .f32 rm sat (.fin false (2 ^ k) (-(k : Int))) = (one32, flNone) := by
  have lead : (Nat.log2 (2 ^ k) : Int) + -(k : Int) = 0 := by rw [Nat.log2_two_pow]; omega
  simp only [roundX, (Nat.two_pow_pos k).ne', if_false, roundFin, lead]
  rw [show max ((0 : Int) - (FFmt.spec .f32).fb) (1 - ((FFmt.spec .f32).bias : Int) - (FFmt.spec .f32).fb) = -23 from rfl, roundAt_one]
  rfl

/-- The quotient of 2^g by 2^g is one, written over a power of two. -/
theorem quotientX_two_pow (g : Nat) : ∃ k : Nat, quotientX false 1 (2 ^ g) g = .fin false (2 ^ k) (-(k : Int)) := by
  obtain ⟨p, hp⟩ : ∃ p, p = 256 := ⟨_, rfl⟩
  have whole : 2 ^ (p + g) / 2 ^ g = 2 ^ p := by rw [Nat.pow_add, Nat.mul_div_cancel _ (Nat.two_pow_pos g)]
  have rest : 2 ^ (p + g) % 2 ^ g = 0 := Nat.mod_eq_zero_of_dvd (Nat.pow_dvd_pow 2 (by omega))
  refine ⟨p + 1, ?_⟩
  simp only [quotientX, ← hp, Nat.log2_two_pow, Nat.one_mul, whole, rest, if_true, Nat.add_zero, XVal.fin.injEq, true_and]
  exact ⟨(Nat.pow_succ' ..).symm, by omega⟩

section
variable (rm : RM) (neg : Bool)

theorem specialF_zero32 :
    specialF .exp rm false (zero32 neg) = (one32, flNone) ∧ specialF .exp2 rm false (zero32 neg) = (one32, flNone) ∧
    specialF .cos rm false (zero32 neg) = (one32, flNone) ∧ specialF .sin rm false (zero32 neg) = (zero32 neg, flNone) ∧
    specialF .tanh rm false (zero32 neg) = (zero32 neg, flNone) ∧ specialF .sqrt rm false (zero32 neg) = (zero32 neg, flNone) ∧
    specialF .log2 rm false (zero32 neg) = (inf32 true, flDZ) ∧ specialF .rcp rm false (zero32 neg) = (inf32 neg, flDZ) := by
  have one := roundX_one rm false 0
  simp only [specialF, decodeF_zero32, if_true, roundX_inf32, withSign_zero32, true_and]
  exact ⟨one, one, one, rfl, rfl⟩

theorem specialF_inf32 :
    specialF .rcp rm false (inf32 neg) = (zero32 neg, flNone) ∧ specialF .sin rm false (inf32 neg) = (0x7FC00000, flNV) ∧
    specialF .exp rm false (inf32 true) = (0, flNone) ∧ specialF .exp rm false (inf32 false) = (inf32 false, flNone) ∧
    specialF .rsq rm false (inf32 false) = (0, flNone) ∧ specialF .sqrt rm false (inf32 true) = (0x7FC00000, flNV) ∧
    specialF .sig rm false (inf32 true) = (0, flNone) ∧ specialF .sig rm false (inf32 false) = (one32, flNone) := by
  have one := roundX_one rm false 0
  simp only [specialF, decodeF_inf32, roundX_inf32, withSign_zero32, if_true, Bool.false_eq_true, if_false, true_and]
  exact ⟨rfl, rfl, one⟩

theorem specialF_one32 : specialF .log2 rm false one32 = (0, flNone) ∧ specialF .rcp rm false one32 = (one32, flNone) := by
  obtain ⟨k, quotient⟩ := quotientX_two_pow 23
  have one := roundX_one rm false k
  rw [← quotient] at one
  simp only [specialF, decodeF_one32, (Nat.two_pow_pos 23).ne', if_false, Nat.log2_two_pow, if_true, Bool.false_eq_true, Int.neg_neg]
  exact ⟨rfl, one⟩

end
end Sys2Proof.Machine

namespace Sys2Proof.DataFormats
open Sys2Proof.Machine

theorem faddSpecialOperands : FaddSpecialOperands := by
  intro cplv rm sat a b _ _
  refine ⟨fun ha => ?_, fun ha hb => ?_, addF_f32_opposed cplv rm sat⟩
  · rw [addF_f32_nan (.inl ha), nanResult_f32_first b ha]
  · rw [addF_f32_nan (.inr hb), nanResult_f32_second ha hb]

theorem specialFunctionCorners : SpecialFunctionCorners := by
  intro rm neg
  obtain ⟨z1, z2, z3, z4, z5, z6, z7, z8⟩ := specialF_zero32 rm neg
  obtain ⟨i1, i2, i3, i4, i5, i6, i7, i8⟩ := specialF_inf32 rm neg
  exact ⟨z1, z2, z3, z4, z5, z6, z7, z8, i1, i2, i3, i4, i5, i6, i7, i8, specialF_one32 rm⟩

/-- Settles O6: NaN operands and opposite infinities of `fadd`, then the special functions at zeros, infinities and one. -/
theorem floatCorners : Obligations.FloatCorners := ⟨faddSpecialOperands, specialFunctionCorners⟩

end Sys2Proof.DataFormats
end

section

namespace Sys2Proof.Machine

/-! ### Integer operators (R198, R250) -/

/-- An associative operation on words with its identity. -/
structure Monoidal (g : W32 → W32 → W32) (u : W32) : Prop where
  assoc : ∀ a b c, g (g a b) c = g a (g b c)
  left : ∀ a, g u a = a
  right : ∀ a, g a u = a

/-- Of two words the one that ranks lower, the first where they rank alike. -/
def lowerOf (rank : W32 → Int) (a b : W32) : W32 := if rank b < rank a then b else a

theorem lowerOf_monoidal {rank : W32 → Int} {u : W32} (inj : ∀ a b, rank a = rank b → a = b) (top : ∀ a, rank a ≤ rank u) :
    Monoidal (lowerOf rank) u where
  assoc a b c := by unfold lowerOf; grind
  left a := by
    unfold lowerOf
    split
    · rfl
    · exact inj u a (by have := top a; omega)
  right a := by
    unfold lowerOf
    rw [if_neg (by have := top a; omega)]

/-- An integer operator raises no flag, and combines associatively with its identity. -/
theorem combineI_monoidal (op : IRed) : ∃ g, (combineI op).op = (fun a b => (g a b, 0)) ∧ Monoidal g (combineI op).unit := by
  have signed : ∀ a b : W32, a.toInt = b.toInt → a = b := fun _ _ => BitVec.eq_of_toInt_eq
  have unsigned : ∀ a b : W32, (a.toNat : Int) = b.toNat → a = b := fun _ _ h => BitVec.eq_of_toNat_eq (by omega)
  have low : ∀ a : W32, -2147483648 ≤ a.toInt := fun a => BitVec.le_toInt a
  have high : ∀ a : W32, a.toInt < 2147483648 := fun a => BitVec.toInt_lt
  cases op with
  | add => exact ⟨_, rfl, BitVec.add_assoc, BitVec.zero_add, BitVec.add_zero⟩
  | and => exact ⟨_, rfl, BitVec.and_assoc, fun a => BitVec.allOnes_and, fun a => BitVec.and_allOnes⟩
  | or => exact ⟨_, rfl, BitVec.or_assoc, fun a => BitVec.zero_or, fun a => BitVec.or_zero⟩
  | xor => exact ⟨_, rfl, BitVec.xor_assoc, fun a => BitVec.zero_xor, fun a => BitVec.xor_zero⟩
  | min =>
    refine ⟨lowerOf fun a => a.toInt, ?_, lowerOf_monoidal signed fun a => ?_⟩
    · simp [combineI, below, lowerOf]
    · exact Int.le_of_lt_add_one (high a)
  | umin =>
    refine ⟨lowerOf fun a => a.toNat, ?_, lowerOf_monoidal unsigned fun a => ?_⟩
    · simp [combineI, below, lowerOf]
    · exact Int.ofNat_le.mpr (Nat.le_of_lt_succ a.isLt)
  | max =>
    refine ⟨lowerOf fun a => -a.toInt, ?_, lowerOf_monoidal (fun a b h => signed a b (by omega)) fun a => ?_⟩
    · simp [combineI, below, lowerOf]
    · exact Int.neg_le_neg (low a)
  | umax =>
    refine ⟨lowerOf fun a => -a.toNat, ?_, lowerOf_monoidal (fun a b h => unsigned a b (by omega)) fun a => ?_⟩
    · simp [combineI, below, lowerOf]
    · simp [combineI]

/-! ### Combining in ascending order (R82, R250) -/

/-- The words of n lanes from lane lo on, combined in ascending order. -/
def combined (g : W32 → W32 → W32) (u : W32) (w : Nat → W32) (lo n : Nat) : W32 := ((List.range' lo n).map w).foldl g u

/-- A lane's word that is not poison, with no flag. -/
def clean (a : W32) : Running2 := ({ data := a }, 0)

section
variable {g : W32 → W32 → W32} {u : W32} (h : Monoidal g u) (w : Nat → W32)
include h

theorem Monoidal.foldl_eq (l : List W32) (a : W32) : l.foldl g a = g a (l.foldl g u) := by
  induction l generalizing a with
  | nil => exact (h.right a).symm
  | cons b l ih => rw [List.foldl_cons, List.foldl_cons, ih, ih (g u b), h.left, h.assoc]

theorem combined_add (lo m n : Nat) : combined g u w lo (m + n) = g (combined g u w lo m) (combined g u w (lo + m) n) := by
  unfold combined
  rw [← List.range'_append_1, List.map_append, List.foldl_append, h.foldl_eq]

theorem combined_one (lo : Nat) : combined g u w lo 1 = w lo := h.left _

/-- Lanes that hold the identity add nothing. -/
theorem combined_active (p : Nat → Bool) (v : Nat → W32) (n : Nat) :
    combined g u (fun l => if p l then v l else u) 0 n = ((List.range n).filter p).foldl (fun acc l => g acc (v l)) u := by
  rw [combined, ← List.range_eq_range', List.foldl_map, List.foldl_filter]
  congr
  funext acc l
  split
  · rfl
  · exact h.right acc

end

theorem applyOp_clean (g : W32 → W32 → W32) (a b : W32) : applyOp (fun a b => (g a b, 0)) (clean a) (clean b) = clean (g a b) := by
  simp [applyOp, clean, LaneWord.of]

/-! ### The tree reduction (R82) -/

/-- A step of the tree reduction. -/
def reduceStep (op : W32 → W32 → W32 × FFlags) (x : List Running2) (st : Nat) : List Running2 :=
  lanes.map fun i => if i % (2 * st) = 0 then applyOp op (at_ ({}, 0) x i) (at_ ({}, 0) x (i + st)) else at_ ({}, 0) x i

theorem treeReduce_eq (op : W32 → W32 → W32 × FFlags) (x : List Running2) :
    treeReduce op x = at_ ({}, 0) ([1, 2, 4, 8, 16].foldl (reduceStep op) x) 0 := rfl

/-- Every lane that a step of size st leaves in use holds the words of the st lanes from it on, combined. -/
def Spans (g : W32 → W32 → W32) (u : W32) (w : Nat → W32) (st : Nat) (x : List Running2) : Prop :=
  ∀ i < 32, i % st = 0 → at_ ({}, 0) x i = clean (combined g u w i st)

section
variable {g : W32 → W32 → W32} {u : W32} (h : Monoidal g u) {w : Nat → W32}
include h

theorem Spans.start : Spans g u w 1 (lanes.map fun l => clean (w l)) := by
  intro i hi _
  rw [lanes, at_map_range _ _ hi, combined_one h]

theorem Spans.step {st : Nat} {x : List Running2} (hst : st ∈ [1, 2, 4, 8, 16]) (hx : Spans g u w st x) :
    Spans g u w (2 * st) (reduceStep (fun a b => (g a b, 0)) x st) := by
  intro i hi at_i
  have here : i % st = 0 := Nat.mod_eq_zero_of_dvd ((Nat.dvd_mul_left st 2).trans (Nat.dvd_of_mod_eq_zero at_i))
  have there : (i + st) % st = 0 := by rw [Nat.add_mod_right, here]
  have inside : i + st < 32 := by
    simp only [List.mem_cons, List.not_mem_nil, or_false] at hst
    rcases hst with rfl | rfl | rfl | rfl | rfl <;> omega
  rw [reduceStep, lanes, at_map_range _ _ hi, if_pos at_i, hx i hi here, hx _ inside there, applyOp_clean, ← combined_add h,
    ← Nat.two_mul]

/-- The tree reduction combines all lanes in ascending order. -/
theorem treeReduce_clean : treeReduce (fun a b => (g a b, 0)) (lanes.map fun l => clean (w l)) = clean (combined g u w 0 32) := by
  have two := Spans.step h (by decide) (Spans.start h (w := w))
  have four := Spans.step h (by decide) two
  have eight := Spans.step h (by decide) four
  have sixteen := Spans.step h (by decide) eight
  have all := Spans.step h (by decide) sixteen
  exact (treeReduce_eq _ _).trans (all 0 (by decide) rfl)

end

/-! ### The tree scan (R251) -/

/-- A step of the tree scan, on the lanes' words and the marks of what reaches a head. -/
def scanStep (op : W32 → W32 → W32 × FFlags) (acc : List Running2 × List Bool) (st : Nat) : List Running2 × List Bool :=
  (lanes.map fun i => if st ≤ i && !at_ false acc.2 i then applyOp op (at_ ({}, 0) acc.1 (i - st)) (at_ ({}, 0) acc.1 i) else at_ ({}, 0) acc.1 i,
   lanes.map fun i => at_ false acc.2 i || (decide (st ≤ i) && at_ false acc.2 (i - st)))

theorem treeScan_eq (op : W32 → W32 → W32 × FFlags) (x : List Running2) (heads : List Bool) :
    treeScan op x heads = ([1, 2, 4, 8, 16].foldl (scanStep op) (x, heads)).1 := rfl

/-- Every lane holds the words of the st lanes up to it, or of all where there are fewer, and no lane is marked. -/
structure Windows (g : W32 → W32 → W32) (u : W32) (w : Nat → W32) (st : Nat) (acc : List Running2 × List Bool) : Prop where
  words : ∀ i < 32, at_ ({}, 0) acc.1 i = clean (combined g u w (i + 1 - st) (min st (i + 1)))
  unmarked : ∀ i < 32, at_ false acc.2 i = false

section
variable {g : W32 → W32 → W32} {u : W32} (h : Monoidal g u) {w : Nat → W32}
include h

theorem Windows.start : Windows g u w 1 (lanes.map fun l => clean (w l), List.replicate 32 false) where
  words i hi := by
    rw [lanes, at_map_range _ _ hi, Nat.add_sub_cancel, Nat.min_eq_left (by omega), combined_one h]
  unmarked i _ := at_replicate false 32 i

theorem Windows.step {st : Nat} {acc : List Running2 × List Bool} (hx : Windows g u w st acc) :
    Windows g u w (2 * st) (scanStep (fun a b => (g a b, 0)) acc st) where
  words i hi := by
    rw [scanStep, lanes, at_map_range _ _ hi, hx.unmarked i hi, Bool.not_false, Bool.and_true]
    by_cases far : st ≤ i
    · have joined : i + 1 - 2 * st + min st (i - st + 1) = i + 1 - st := by omega
      have length : min (2 * st) (i + 1) = min st (i - st + 1) + min st (i + 1) := by omega
      rw [if_pos (decide_eq_true far), hx.words (i - st) (by omega), hx.words i hi, applyOp_clean, length, combined_add h, joined,
        show i - st + 1 - st = i + 1 - 2 * st by omega]
    · rw [if_neg (by simpa using far), hx.words i hi, Nat.sub_eq_zero_of_le (by omega), Nat.sub_eq_zero_of_le (by omega),
        Nat.min_eq_right (by omega), Nat.min_eq_right (by omega)]
  unmarked i hi := by
    rw [scanStep, lanes, at_map_range _ _ hi, hx.unmarked i hi, hx.unmarked (i - st) (by omega), Bool.and_false, Bool.or_false]

/-- Without heads the tree scan combines the lanes up to each in ascending order. -/
theorem treeScan_clean {l : Nat} (hl : l < 32) :
    at_ ({}, 0) (treeScan (fun a b => (g a b, 0)) (lanes.map fun l => clean (w l)) (List.replicate 32 false)) l =
      clean (combined g u w 0 (l + 1)) := by
  have all := (Windows.start h (w := w)).step h |>.step h |>.step h |>.step h |>.step h
  have whole := all.words l hl
  rw [Nat.sub_eq_zero_of_le (by omega), Nat.min_eq_right (by omega)] at whole
  exact (congrArg (at_ _ · l) (treeScan_eq _ _ _)).trans whole

end

/-- The lanes of a mask up to one of them. -/
theorem lanesOf_filter_le (m : LaneMask) {l : Nat} (hl : l < 32) :
    (lanesOf m).filter (· ≤ l) = (List.range (l + 1)).filter (lane m) := by
  have upTo : lanes.filter (· ≤ l) = List.range (l + 1) := by
    have := List.Ico.filter_lt 0 32 (l + 1)
    rwa [List.Ico.zero_bot, List.Ico.zero_bot, Nat.min_eq_right (by omega), List.filter_congr fun x _ => decide_eq_decide.mpr Nat.lt_succ_iff] at this
  rw [lanesOf, List.filter_comm, upTo]
  rfl

end Sys2Proof.Machine

namespace Sys2Proof.DataFormats
open Sys2Proof.Machine

/-- Settles O11: the trees combine the lanes in ascending order, and a lane that is not active holds the identity. -/
theorem integerTreesAreFolds : Obligations.IntegerTreesAreFolds := by
  intro op act v k x fold
  obtain ⟨g, hop, h⟩ := combineI_monoidal op
  have words : x = lanes.map fun l => clean (if lane act l then v l else k.unit) :=
    List.map_congr_left fun l _ => by split <;> rfl
  have folds : fold = fun ls => ls.foldl (fun acc l => g acc (v l)) k.unit := by
    funext ls
    show ls.foldl (fun acc l => ((combineI op).op acc (v l)).1) _ = _
    rw [hop]
  rw [show k.op = _ from hop, words, folds]
  refine ⟨?_, fun l hl => ?_⟩
  · rw [treeReduce_clean h, combined_active h]
    rfl
  · rw [treeScan_clean h hl, combined_active h, lanesOf_filter_le act hl]
    rfl

end Sys2Proof.DataFormats
end

section

namespace Sys2Proof.Machine

theorem lt_of_mem_lanesOf {m : LaneMask} {l : Nat} (h : l ∈ lanesOf m) : l < 32 := List.mem_range.mp (List.mem_of_mem_filter h)

/-! ### Shuffles (R248) -/

/-- The source lane of a shuffle is the lane its rule names, where that lies in the warp. -/
theorem ShuffleRule.shSource_eq (r : ShuffleRule) {l : Nat} (hl : l < 32) (b : W32) :
    shSource r.m l b = if r.source l b < 0 ∨ 31 < r.source l b then none else some (r.source l b).toNat := by
  generalize hj : r.source l b = j
  unfold ShuffleRule.source at hj
  cases hm : r.m with
  | lane =>
    simp only [hm] at hj
    rw [if_neg (by omega)]
    exact congrArg some (by omega)
  | rel =>
    simp only [hm] at hj
    by_cases inside : 0 ≤ j ∧ j ≤ 31
    · rw [if_neg (by omega), ← hj]
      exact if_pos (hj ▸ inside)
    · rw [if_pos (by omega)]
      exact if_neg (hj ▸ inside)
  | rot =>
    simp only [hm] at hj
    rw [if_neg (by omega), ← hj]
    rfl
  | bfly =>
    have inside : Nat.xor l (b.toNat % 32) < 2 ^ 5 := Nat.xor_lt_two_pow hl (Nat.mod_lt _ (by decide))
    simp only [hm] at hj
    rw [if_neg (by omega), ← hj]
    rfl

/-- What a lane gets whose source lies outside the warp. -/
def ShuffleRule.filler (r : ShuffleRule) (c : Ctx) (e : State) (l : Nat) : LaneWord :=
  match r.fill with
  | some x => at_ {} (c.vec e c.act x .bits) l
  | none => {}

theorem shuffle_ok {r : ShuffleRule} {c : Ctx} {e e' : State} (usable : c.Usable c.act r.needs)
    (trails : c.Trails e (c.laneWrites r.d 1 ((lanesOf c.act).map fun l => (l, [r.word c e l]))) e') :
    let ws := c.laneWrites r.d 1 ((lanesOf c.act).map fun l => (l, [r.word c e l]))
    c.shuffle e r.m r.d r.a r.b ((r.fill.map (srcNeed 3 1)).getD []) (r.filler c e) (if r.zero then some {} else none) =
      .ok (c.commit e' true (namesOf ws) ws) := by
  intro ws
  have guard : c.guard e c.act (dstNeed 1 r.d ++ [.v 1 r.a.toNat false 1] ++ srcNeed 2 1 r.b ++ (r.fill.map (srcNeed 3 1)).getD []) =
    .ok () := guard_ok usable
  have written := writeLanes_ok (long := true) (extra := ([], [])) trails
  simp only [List.append_nil] at written
  unfold Ctx.shuffle
  rw [guard, act_ok_bind]
  refine (congrArg (fun words => c.writeLanes e true r.d 1 words ([], []))
    (List.map_congr_left (g := fun l => (l, [r.word c e l])) fun l hl => ?_)).trans written
  dsimp only
  rw [r.shSource_eq (lt_of_mem_lanesOf hl)]
  by_cases out : r.source l (at_ {} (c.vec e c.act r.b .i32) l).data < 0 ∨ 31 < r.source l (at_ {} (c.vec e c.act r.b .i32) l).data
  · simp only [ShuffleRule.word, if_pos out]
    rfl
  · simp only [ShuffleRule.word, if_neg out]
    cases r.zero <;> rfl

/-- A shuffle does what its rule says; `shflo` also counts (R206). -/
theorem exec_shuffleRule {i : Instr} {r : ShuffleRule} (h : shuffleRule i = some r) (s : State) :
    exec i s = run i s fun c e =>
      c.shuffle e r.m r.d r.a r.b ((r.fill.map (srcNeed 3 1)).getD []) (r.filler c e) (if r.zero then some {} else none) >>= fun t =>
        .ok (if r.zero then c.deprecated t else t) := by
  unfold shuffleRule at h
  split at h
  next x m d a b f =>
    cases h
    refine (show exec (.shfl x m d a b f) s = execShfl x m d a b f s from rfl).trans (congrArg (run _ s) ?_)
    funext c e
    cases m <;> exact (bind_pure _).symm
  next x d a b =>
    cases h
    refine (show exec (.bcast x d a b) s = execBcast x d a b s from rfl).trans (congrArg (run _ s) ?_)
    funext c e
    exact (bind_pure _).symm
  next =>
    cases h
    rfl
  next => cases h

theorem shuffleResults : ShuffleResults := by
  intro i r s e' hr hs c e ws t usable trails
  rw [exec_shuffleRule hr, run_ok hs, shuffle_ok usable trails]
  rfl

/-! ### Reductions (R247, R250) -/

theorem wideGuard_ok {c : Ctx} {d : Dst} {a : Src} {fm : OpFmt} (e : State) (wide : c.Usable c.x.mask (.empty :: dstNeed 1 d))
    (usable : c.Usable c.act (srcNeed 1 1 a) [(a, fm)]) : c.wideGuard e d a fm = .ok () := by
  have inRange : (dstNeed 1 d).findSome? (c.regb1 c.x.mask) = none := by
    have all := wide.inRange
    rw [List.findSome?_cons] at all
    split at all
    · cases all
    · exact all
  simp only [Ctx.wideGuard, inRange, guard_ok usable, act_ok_bind, wide.ready, act_pure]

/-- E, and the flags where an instruction records them (R247). -/
theorem emptyFlag_eq (c : Ctx) (flags : Bool) (f : FFlags) :
    let extra := if flags then flagWrites f else ([], [])
    c.emptyFlag (if flags then some f else none) = (.empty :: extra.1, .empty (decide (c.act = 0)) :: extra.2) := by
  cases flags <;> rfl

/-- What a reduction does, by the rule that its context gives it. -/
def Ctx.reduceBy (c : Ctx) (e : State) (i : Instr) : Act State :=
  match reduceRule c i with
  | some r => c.reduce e r.d r.a r.fm r.k r.flags
  | none => .ok e

theorem exec_reduceRule {i : Instr} {c : Ctx} {r : ReduceRule} (h : reduceRule c i = some r) (s : State) :
    exec i s = run i s fun c e => c.reduceBy e i := by
  unfold reduceRule at h
  split at h
  next => rfl
  next => rfl
  next => rfl
  next => rfl
  next => cases h

theorem reductionResults : ReductionResults := by
  intro i r s e' hs c e hr y ws extra wide usable trails
  have run : c.reduceBy e i = c.wide e r.d y.1 (if r.flags then some y.2 else none) := by
    simp only [Ctx.reduceBy, hr, Ctx.reduce, wideGuard_ok e wide usable, act_ok_bind]
    rfl
  rw [exec_reduceRule hr, run_ok hs, run, Ctx.wide, writeLanes_ok trails, emptyFlag_eq]
  rfl

/-! ### Scans (R251, R252) -/

/-- What a scan does, by the rule that its context gives it. -/
def Ctx.scanBy (c : Ctx) (e : State) (i : Instr) : Act State :=
  match scanRule c i with
  | some r => c.scan e r.d r.a r.heads r.excl r.fm r.k r.flags
  | none => .ok e

theorem exec_scanRule {i : Instr} {c : Ctx} {r : ScanRule} (h : scanRule c i = some r) (s : State) :
    exec i s = run i s fun c e => c.scanBy e i := by
  unfold scanRule at h
  split at h
  next => rfl
  next => rfl
  next => rfl
  next => rfl
  next => cases h

/-- A scan that is usable writes its lanes' words. -/
theorem scan_eq {r : ScanRule} {c : Ctx} (e : State) (usable : c.Usable c.act r.needs r.maps) :
    c.scan e r.d r.a r.heads r.excl r.fm r.k r.flags =
      c.writeLanes e true r.d 1 ((lanesOf c.act).map fun l => (l, [r.word c e l]))
        (c.emptyFlag (if r.flags then some ((r.values c e).foldl (fun (acc : FFlags) y => acc ||| y.2) 0) else none)) := by
  obtain ⟨⟨d, a, fm, k, flags⟩, heads, excl⟩ := r
  have guard := guard_ok (s := e) usable
  cases heads with
  | none => 
    unfold Ctx.scan
    simp only [ScanRule.needs, ScanRule.maps, List.append_nil] at guard
    simp only [List.flatMap_nil, List.append_nil, guard, act_ok_bind]
    rfl
  | some b =>
    unfold Ctx.scan
    simp only [ScanRule.needs, ScanRule.maps] at guard
    simp only [List.flatMap_cons, List.flatMap_nil, List.append_nil, guard, act_ok_bind]
    rfl

theorem scanResults : ScanResults := by
  intro i r s e' hs c e hr ws extra usable trails
  have run : c.scanBy e i = c.scan e r.d r.a r.heads r.excl r.fm r.k r.flags := by rw [Ctx.scanBy, hr]
  rw [exec_scanRule hr, run_ok hs, run, scan_eq e usable, writeLanes_ok trails, emptyFlag_eq]
  rfl

end Sys2Proof.Machine

namespace Sys2Proof.DataFormats
open Sys2Proof.Machine

/-- Settles O10: shuffles, reductions and scans, each run past its checks to the words it writes. -/
theorem crossLaneResults : Obligations.CrossLaneResults := ⟨shuffleResults, reductionResults, scanResults⟩

end Sys2Proof.DataFormats
end

section

namespace Sys2Proof.Machine

/-! ### The events of the matrix engine (R291) -/

theorem exec_mxRecordFetch (c n : Nat) (s : State) : exec (.mxRecordFetch c n) s = .next (s.mxFetch c n) := rfl
theorem exec_mxRecordStart (c n : Nat) (s : State) : exec (.mxRecordStart c n) s = .next (s.mxStart c n) := rfl
theorem exec_mxKblock (c n : Nat) (s : State) : exec (.mxKblock c n) s = .next (s.mxKblock c n) := rfl

/-! ### Fetch and start of a record (R75, R121, R291) -/

theorem State.RingReady.pending {s : State} {c n : Nat} (h : s.RingReady c n) : (s.room c n).ring.pending = true := by
  simp [Ring.pending, h.size, h.go, h.more]

/-- A record of a ring that none is resumed on, as it is fetched. -/
def fetched (t : State) (c : Nat) (r : BitVec 512) : Running :=
  { rec_ := r, how := .fetch, started := false, step := recProgress r, books := (t.core c).books }

section
variable {s : State} {c n : Nat} {bs : List Byte} (ready : s.RingReady c n)
  (read : s.spRead c n ((s.room c n).ring.addr (s.room c n).ring.dcnt.toNat) 64 = (bs, false)) (how : (s.room c n).ring.how = .fetch)
include ready read how

/-- A fetched record is checked, and halts the ring with STATUS 3 or runs. -/
theorem State.mxFetch_eq :
    let r : BitVec 512 := BitVec.ofNat 512 (ofBytes bs)
    let t := s.modRing c n fun r => { r with how := .fetch, books := none }
    s.mxFetch c n = if t.malformed (s.mxEngine c n) r then t.haltRing c n 3 none
      else t.modRing c n fun x => { x with run := some (fetched t c r) } := by
  intro r t
  have go : (!s.mxRuns c n || !(s.room c n).ring.pending || (s.room c n).ring.run.isSome) = false := by
    rw [ready.runs, ready.pending, ready.idle]
    rfl
  unfold State.mxFetch
  simp only [go, read, how, Bool.false_eq_true, if_false]
  rfl

end

theorem State.mxStart_eq {s t : State} {c n : Nat} {q : Running} (run : (s.room c n).ring.run = some q) (new : q.started = false)
    (runs : s.mxRuns c n = true)
    (start : (s.mxEngine c n).start s (recField q.rec_ 9 8) (recField q.rec_ 127 96) (recField q.rec_ 31 24) = .ok t) :
    s.mxStart c n = (t.enterSteps (s.mxEngine c n) q.rec_).modRing c n fun r =>
      { r with run := some { q with started := true, books := (t.core c).books } } := by
  simp only [State.mxStart, run, new, runs, start, Bool.not_true, Bool.or_false, Bool.false_eq_true, if_false]

theorem State.enterSteps_eq (t : State) (x : Engine) (r : BitVec 512) : t.enterSteps x r =
    if recOp r = 2 ∧ recProgress r = 0 then t.setTilePoison x.core (t.tileOf x r) false else t := by
  simp only [State.enterSteps, Bool.and_eq_true, decide_eq_true_eq]

/-! ### A room's turn (R80, R291, R292) -/

/-- When no room before it has work, the turn is the room's own. -/
theorem State.mxKblock_eq {s : State} {c n : Nat} (first : ∀ m ∈ (s.core c).asksBefore n, (s.mxTry c m).1 = false) :
    s.mxKblock c n = (s.mxTry c n).2 := by
  rw [State.mxKblock, if_neg]
  simpa using first

section
variable {s : State} {c n : Nat} {q : Running} (run : (s.room c n).ring.run = some q) (started : q.started = true) (runs : s.mxRuns c n = true)
include run started runs

theorem State.mxTry_ok {t : State} (go : s.mxGo c n q = .ok t) : s.mxTry c n = (true, t) := by
  simp only [State.mxTry, run, started, runs, go, Bool.not_true, Bool.or_false, Bool.false_eq_true, if_false]

end

section
variable {s : State} {c n : Nat} {q : Running} (waits : q.arrive = false)
include waits

/-- A zero fill clears its tile and its poison bit, and is complete. -/
theorem State.mxGo_fill (op : recOp q.rec_ = 3) :
    let x := s.mxEngine c n
    let s1 := s.modCore c fun k => { k with mxTurn := n }
    let a := s1.tileOf x q.rec_
    s.mxGo c n q = ((s1.modCore c fun k => { k with
      acc := k.acc.write accGrain x.owner (a * 24576) (List.replicate 24576 0) false }).setTilePoison c a false).mxComplete x q := by
  simp only [State.mxGo, waits, op, Bool.false_eq_true, if_false, if_true]

/-- Any other operation does a K-block, and is complete after its last. -/
theorem State.mxGo_kblock {t u : State} (op : recOp q.rec_ ≠ 3)
    (block : (s.modCore c fun k => { k with mxTurn := n }).kblock (s.mxEngine c n) q = .ok (some t, u)) :
    let q' := { q with step := q.step + 8 }
    let v := (t.modRing c n fun r => { r with run := some q' }).forget (.mx c n)
    s.mxGo c n q = if recSteps q.rec_ ≤ q'.step then v.mxComplete (s.mxEngine c n) q' else .ok v := by
  simp only [State.mxGo, waits, op, block, Bool.false_eq_true, if_false]
  rfl

end
end Sys2Proof.Machine

namespace Sys2Proof.DataFormats
open Sys2Proof.Machine

/-- Settles O33: each event by what its own step does: fetch, start, and the turn of the room. -/
theorem matrixSteps : Obligations.MatrixSteps := by
  refine ⟨fun c n bs s ready read how => ?_, fun c n q s t run new runs start => ?_, fun c n q s run started runs waits first => ?_⟩
  · intro r t
    have done := (exec_mxRecordFetch c n s).trans (congrArg _ (State.mxFetch_eq ready read how))
    refine ⟨fun bad => ?_, fun good => ?_⟩
    · rw [done]
      exact congrArg _ (if_pos bad)
    · rw [done]
      exact congrArg _ (if_neg (by rw [good]; decide))
  · rw [exec_mxRecordStart, State.mxStart_eq run new runs start, State.enterSteps_eq]
    rfl
  · intro x s1
    have turn : ∀ t, s.mxGo c n q = .ok t → exec (.mxKblock c n) s = .next t := fun t go => by
      rw [exec_mxKblock, State.mxKblock_eq first, State.mxTry_ok run started runs go]
    refine ⟨fun t op => ?_, fun t u op block => ?_⟩
    · intro a s2 done
      exact turn t ((State.mxGo_fill waits op).trans done)
    · intro q' v
      have go := State.mxGo_kblock waits op block
      exact ⟨fun more => turn v (go.trans (if_neg (Nat.not_le.mpr more))), fun z last done => turn z (go.trans ((if_pos last).trans done))⟩

end Sys2Proof.DataFormats
end

section

namespace Sys2Proof.Machine

/-! ### The device right after reset (R106) -/

theorem State.reset_die {d : Nat} (h : d < 8) : State.reset.die d = Die.reset d := at_map_range (Die.reset d) Die.reset h

theorem State.reset_core (c : Nat) : State.reset.core c = {} := at_replicate ({} : Core) 64 c

theorem State.reset_room (c n : Nat) : State.reset.room c n = {} := by
  rw [State.room, State.reset_core]
  exact at_replicate ({} : Room) 16 n

end Sys2Proof.Machine

namespace Sys2Proof.OrderingModel
open Sys2Proof.Machine

/-- Settles O52: dies and rooms by what reset makes of each, the rest by what stands in the definitions. -/
theorem resetValues : Obligations.ResetValues := by
  refine ⟨fun d hd => ?_, fun c _ n _ => ?_, rfl, rfl, rfl, rfl, rfl, reset_memory_wf, rfl, rfl, rfl, rfl, rfl⟩
  · rw [State.reset_die hd]
    exact ⟨rfl, rfl⟩
  · rw [State.reset_room]

end Sys2Proof.OrderingModel
end

section

namespace Sys2Proof.Machine

/-! ### Interrupts (R113) -/

/-- What the host has been told, and what it is to be told once the writes before it are performed (R113). -/
def State.told (s : State) : List Out := s.out ++ s.irqs.map fun r => Out.msix r.fn r.vec

theorem State.foldl_emit {α : Type} (f : α → Out) (l : List α) (s : State) :
    l.foldl (fun t i => t.emit (f i)) s = { s with out := s.out ++ l.map f } := by
  induction l generalizing s with
  | nil => simp
  | cons x rest ih => rw [List.foldl_cons, ih, State.emit, List.map_cons, List.append_assoc, List.singleton_append]

theorem append_drop_of_append {α : Type} {l go rest : List α} (h : go ++ rest = l) : go ++ l.drop go.length = l := by
  rw [← h, List.drop_left]

/-- Of the interrupts that wait some first ones leave, and nothing else changes. -/
theorem State.sendIrqs_eq (s : State) : ∃ go rest, go ++ rest = s.irqs ∧
    s.sendIrqs = { s with out := s.out ++ go.map fun r => Out.msix r.fn r.vec, irqs := rest } :=
  ⟨_, _, append_drop_of_append List.takeWhile_append_dropWhile, State.foldl_emit (fun i : Irq => Out.msix i.fn i.vec) _ _⟩

/-- Interrupts that leave were to be told, and stand first. -/
theorem State.told_sendIrqs (s : State) : s.sendIrqs.told = s.told := by
  obtain ⟨go, rest, all, sent⟩ := s.sendIrqs_eq
  simp only [sent, State.told, ← all, List.map_append, List.append_assoc]

theorem State.told_interrupt (s : State) (fn vec lo : Nat) : (s.interrupt fn vec lo).told = s.told ++ [.msix fn vec] := by
  rw [State.interrupt, State.told_sendIrqs]
  simp only [State.told, List.map_append, List.append_assoc, List.map_singleton]

@[simp] theorem State.interrupt_cores (s : State) (fn vec lo : Nat) : (s.interrupt fn vec lo).cores = s.cores := by
  obtain ⟨go, rest, -, sent⟩ := State.sendIrqs_eq { s with irqs := s.irqs ++ [{ fn := fn, vec := vec, lo := lo, hi := s.netSeq }] }
  rw [State.interrupt, sent]

/-! ### Deprecated instructions (R206, R207, R210) -/

theorem sat32_eq_narrow (x : Int) : sat32 x = narrow true x := by
  unfold sat32 narrow
  rw [if_pos rfl]
  split
  next low => rw [show max (-2147483648) (min 2147483647 x) = -2147483648 by omega]; rfl
  next high =>
    split
    next above => rw [show max (-2147483648) (min 2147483647 x) = 2147483647 by omega]; rfl
    next within => rw [show max (-2147483648) (min 2147483647 x) = x by omega]

section
variable {s : State} {c n : Nat} {g : Group} (h : (s.room c n).group = some g)
include h

/-- A room with a group is one of the device. -/
theorem State.lt_of_group : c < s.cores.length ∧ n < (s.core c).rooms.length := by
  by_contra outside
  rw [not_and_or, Nat.not_lt, Nat.not_lt] at outside
  have empty : s.room c n = {} := by
    rcases outside with core | room
    · rw [State.room, State.core, List.getD_eq_default _ _ core]
      exact at_replicate ({} : Room) 16 n
    · exact List.getD_eq_default _ _ room
  rw [empty] at h
  cases h

theorem State.group_of_some : s.group c n = g := by rw [State.group, h, Option.getD_some]

theorem State.group_modGroup_self (f : Group → Group) : (s.modGroup c n f).group c n = f g := by
  obtain ⟨core, room⟩ := State.lt_of_group h
  rw [State.group, State.modGroup, State.room_modRoom_self _ _ _ _ core room, h, Option.map_some, Option.getD_some]

end

/-- A deprecated instruction that is counted; the count that reaches the launch's threshold for the first time raises the advisory. -/
theorem Ctx.deprecated_eq {c : Ctx} {s : State} {g : Group} (h : (s.room c.core c.room).group = some g) :
    let l := s.launches.getD c.g.launch {}
    let t := s.modGroup c.core c.room fun x => { x with depcnt := g.depcnt + 1 }
    c.deprecated s = if l.depThr ≠ 0 ∧ g.depcnt + 1 = l.depThr ∧ l.advised = false then
      (t.modLaunch c.g.launch fun l => { l with advised := true }).interrupt l.fn l.depVec 0 else t := by
  simp only [Ctx.deprecated, State.group_of_some h, Bool.and_eq_true, decide_eq_true_eq, Bool.not_eq_true', and_assoc]
  rfl

theorem Ctx.depcnt_deprecated {c : Ctx} {s : State} {g : Group} (h : (s.room c.core c.room).group = some g) :
    ((c.deprecated s).group c.core c.room).depcnt = g.depcnt + 1 := by
  have counted := congrArg Group.depcnt (State.group_modGroup_self h fun x => { x with depcnt := g.depcnt + 1 })
  rw [Ctx.deprecated_eq h]
  split
  · rw [State.group, State.room, State.core, State.interrupt_cores]
    exact counted
  · exact counted

theorem Ctx.told_deprecated {c : Ctx} {s : State} {g : Group} (h : (s.room c.core c.room).group = some g) :
    let l := s.launches.getD c.g.launch {}
    (c.deprecated s).told = s.told ++ if l.depThr ≠ 0 ∧ g.depcnt + 1 = l.depThr ∧ l.advised = false then [.msix l.fn l.depVec] else [] := by
  intro l
  rw [Ctx.deprecated_eq h]
  split
  · rw [State.told_interrupt]
    rfl
  · rw [List.append_nil]
    rfl

theorem exec_imads (x : Ctl) (d : Dst) (a b k : Src) (s : State) : exec (.imads x d a b k) s = run (.imads x d a b k) s fun c e =>
    c.laneWise e false false d (ops3 .i32 a b k) (fun v => (narrow true ((arg v 0).toInt * (arg v 1).toInt + (arg v 2).toInt), 0)) >>=
      fun t => .ok (c.deprecated t) := by
  simp only [← sat32_eq_narrow]
  rfl

end Sys2Proof.Machine

namespace Sys2Proof.OrderingModel
open Sys2Proof.Machine

/-- Settles O8: `imads` runs as a lane-wise instruction, and what counting it does is said by `Ctx.deprecated_eq`. -/
theorem deprecatedInstructions : Obligations.DeprecatedInstructions := by
  refine ⟨?_, fun _ _ _ h => ⟨Ctx.depcnt_deprecated h, Ctx.told_deprecated h⟩⟩
  intro x d a b k s e' hs i c e vals ws usable trails
  have written := laneWise_ok (long := false) (flags := false) (ops := ops3 .i32 a b k)
    (f := fun v => (narrow true ((arg v 0).toInt * (arg v 1).toInt + (arg v 2).toInt), 0)) (by simpa [ops3] using usable) trails
  simp only [Bool.false_eq_true, if_false, List.append_nil] at written
  rw [exec_imads, run_ok hs, written]
  rfl

end Sys2Proof.OrderingModel
end

section

namespace Sys2Proof.Machine

/-! ### The lanes that an access names (R256, R303) -/

theorem Ctx.srch_ne_ok {α : Type} (c : Ctx) (s : State) (detail : Nat) (ls : LaneMask) (x : α) : c.srch s detail ls ≠ .ok x := by
  unfold Ctx.srch stop
  dsimp only
  split <;> exact nofun

/-- Every place of an access that goes on belongs to a lane that makes the access. -/
theorem Ctx.places_lanes {c : Ctx} {s : State} {sp : Space} {k : AccKind} {u : LeafUse} {n align : Nat} {protect : Option (Nat × Nat)}
    {accs : List (Nat × Int)} {ps : List (Nat × Place)} (h : c.places s sp k u n align protect accs = .ok ps) :
    ∀ p ∈ ps, ∃ a ∈ accs, a.1 = p.1 := by
  unfold Ctx.places stop Ctx.remoteWait stop at h
  dsimp only at h
  split at h
  · split at h <;> cases h
  split at h
  · cases h
  split at h
  · cases h
  split at h
  · cases h
  split at h
  · split at h <;> cases h
  · cases h
    intro p hp
    obtain ⟨x, hx, px⟩ := List.mem_filterMap.mp hp
    obtain ⟨a, ha, rfl⟩ := List.mem_map.mp hx
    dsimp only at px
    split at px <;> cases px
    exact ⟨a, ha, rfl⟩

theorem Ctx.storePlaces_lanes {c : Ctx} {s : State} {sp : Space} {k : AccKind} {n : Nat} {accs : List (Nat × Int)} {ps : List (Nat × Place)}
    (h : c.storePlaces s sp k n accs = .ok ps) : ∀ p ∈ ps, ∃ a ∈ accs, a.1 = p.1 := by
  unfold Ctx.storePlaces at h
  dsimp only at h
  split at h
  · split at h
    · split at h
      · exact absurd h (c.srch_ne_ok _ _ _ _)
      · cases h
    · exact Ctx.places_lanes h
  · split at h
    · split at h <;> cases h
    · cases h

theorem Ctx.addresses_lanes {c : Ctx} {s : State} {sp : Space} {a : Src} {o : Off} {accs : List (Nat × Int)}
    (h : c.addresses s sp a o = some accs) : ∀ x ∈ accs, x.1 ∈ lanesOf c.act := by
  intro x hx
  simp only [Ctx.addresses, Option.ite_none_left_eq_some, Option.some.injEq] at h
  obtain ⟨-, rfl⟩ := h
  obtain ⟨l, hl, rfl⟩ := List.mem_map.mp hx
  exact hl

theorem Ctx.storePlaces_lane_lt {c : Ctx} {s : State} {sp : Space} {k : AccKind} {n : Nat} {a : Src} {o : Off} {accs : List (Nat × Int)}
    {ps : List (Nat × Place)} (ha : c.addresses s sp a o = some accs) (h : c.storePlaces s sp k n accs = .ok ps) : ∀ p ∈ ps, p.1 < 32 := by
  intro p hp
  obtain ⟨x, hx, same⟩ := Ctx.storePlaces_lanes h p hp
  exact same ▸ lt_of_mem_lanesOf (Ctx.addresses_lanes ha x hx)

/-! ### Atomics (R265, R266) -/

/-- The lines homed at other dies, dropped one after another (R90). -/
theorem Ctx.foldl_dropLine_away (c : Ctx) (hs : List (Nat × Attr)) (e : State) :
    hs.foldl (fun s h => if homeDie (h.1 * 64) = c.die then s else s.dropLine c.die h.1) e =
      (hs.filter fun h => homeDie (h.1 * 64) ≠ c.die).foldl (fun s h => s.dropLine c.die h.1) e := by
  rw [List.foldl_filter]
  simp only [decide_eq_true_eq, ne_eq, ite_not]

/-- An atomic does what its rule says. -/
theorem exec_atomRule {i : Instr} {r : AtomRule} (h : atomRule i = some r) (s : State) :
    exec i s = run i s fun c e => c.atomic e r.g r.d r.a r.b r.fm r.flags r.useD (r.f c) := by
  unfold atomRule atomIRule at h
  split at h <;> cases h <;> rfl

theorem lane_bitOf_self {l : Nat} (h : l < 32) : lane (bitOf l) l = true := by
  rw [lane, bitOf, BitVec.getLsbD_ofNat, Nat.testBit_two_pow_self, decide_eq_true h]
  rfl

/-- Operand E of a lane of an atomic, wide or not (R183, R266). -/
theorem AtomRule.opE_eq (r : AtomRule) (c : Ctx) (e : State) (l : Nat) :
    at_ {} (if r.g.wide then c.wvec e c.act c.opE
      else (c.vec e c.act c.opE r.fm).map fun (w : LaneWord) => ({ data := w.data.setWidth 64, poison := w.poison } : KReg)) l = r.opE c e l := by
  unfold AtomRule.opE
  split
  · rfl
  · exact List.getD_map (d := ({} : LaneWord)) ..

/-- The pair of registers from vN on in a lane, as one 64-bit operand (R184). -/
def Ctx.pairAt (c : Ctx) (e : State) (n l : Nat) : KReg :=
  { data := (c.vlane e (n + 1) l).data ++ (c.vlane e n l).data, poison := (c.vlane e n l).poison || (c.vlane e (n + 1) l).poison }

theorem Ctx.wvec_dst (c : Ctx) (e : State) (d : Dst) {l : Nat} (h : l < 32) :
    at_ {} (c.wvec e (bitOf l) (if d.ix then .ix d.n else .v d.n)) l = c.pairAt e (c.number d.n.toNat d.ix l).toNat l := by
  cases d.ix
  · exact (at_map_range ({} : KReg) (fun l' => if lane (bitOf l) l' then c.pairAt e d.n.toNat l' else {}) h).trans (if_pos (lane_bitOf_self h))
  · exact (at_map_range ({} : KReg) (fun l' => if lane (bitOf l) l' then c.pairAt e (c.number d.n.toNat true l').toNat l' else {}) h).trans
      (if_pos (lane_bitOf_self h))

/-- The data of D of a lane of an atomic, where it depends on them (R266). -/
theorem AtomRule.opD_eq (r : AtomRule) (c : Ctx) (e : State) {l : Nat} (h : l < 32) :
    (if r.useD then
      (if r.g.wide then at_ {} (c.wvec e (bitOf l) (if r.d.ix then .ix r.d.n else .v r.d.n)) l
       else { data := (c.vlane e (c.number r.d.n.toNat r.d.ix l).toNat l).data.setWidth 64
              poison := (c.vlane e (c.number r.d.n.toNat r.d.ix l).toNat l).poison })
     else ({} : KReg)) = r.opD c e l := by
  rw [c.wvec_dst e r.d h]
  unfold AtomRule.opD
  cases r.useD <;> rfl

/-- An operand that is not used reads as zero. -/
theorem AtomRule.opD_used (r : AtomRule) (c : Ctx) (e : State) (l : Nat) : (if r.useD then r.opD c e l else {}) = r.opD c e l := by
  unfold AtomRule.opD
  cases r.useD <;> rfl

/-- What follows either branch follows them both. -/
theorem act_ite_bind {α β : Type} (b : Bool) (x y : Act α) (f : α → Act β) :
    (if b then x >>= f else y >>= f) = (if b then x else y) >>= f := by
  cases b <;> rfl

/-- What is left of an atomic that may be performed: its lanes in turn, and the old values. The trail is checked before any lane's location
changes (R305, R340). -/
theorem Ctx.atomic_ready {r : AtomRule} {c : Ctx} {e e1 e2 e3 e' e'' : State} {accs : List (Nat × Int)} {ps : List (Nat × Place)}
    (active : c.act ≠ 0) (usable : c.Usable c.act (r.needs c) [(Src.of c.pfx.em c.pfx.e, r.fm)])
    (addresses : c.addresses e r.g.space r.a (.src r.b) = some accs) (places : c.storePlaces e r.g.space .rmw (4 * r.n) accs = .ok ps)
    (dropped : e1 = ((homesOf (ps.map (·.2))).filter fun h => homeDie (h.1 * 64) ≠ c.die).foldl (fun s h => s.dropLine c.die h.1) e)
    (free : e1.keptPlaces (ps.map (·.2)) (4 * r.n) = false)
    (observed : c.observe e1 (if r.g.ord = .acq ∨ r.g.ord = .ar then some r.g.scope else none) (ps.map (·.2)) (4 * r.n) none = .ok e2)
    (released : (if r.g.ord = .rel ∨ r.g.ord = .ar then c.rmwRelease e2 r.g.scope else .ok e2) = .ok e3)
    (ready : c.rmwReady e3 (ps.map (·.2)) = true) :
    let y := r.lanesRun c e3 ps e3
    let ws := c.laneWrites r.d r.n (r.words y.2.1)
    let extra := if r.flags then flagWrites y.2.2 else ([], [])
    c.Trails e3 ws e'' → c.Trails y.1 ws e' →
    c.atomic e r.g r.d r.a r.b r.fm r.flags r.useD (r.f c) = .ok (c.commit e' true (namesOf ws ++ extra.1) (ws ++ extra.2)) := by
  intro y ws extra trails trailed
  have lanes := Ctx.storePlaces_lane_lt addresses places
  have drops := (c.foldl_dropLine_away (homesOf (ps.map (·.2))) e).trans dropped.symm
  have written := writeLanes_ok (long := true) (extra := extra) trailed
  have tried := writeLanes_ok (long := true) (extra := ([], [])) trails
  have guard := memGuard_ok (s := e) usable active
  have observed : c.observe e1 (if (decide (r.g.ord = .acq) || decide (r.g.ord = .ar)) = true then some r.g.scope else none)
      (ps.map (·.2)) (4 * r.n) none = .ok e2 := by
    simpa only [Bool.or_eq_true, decide_eq_true_eq] using observed
  have released : (if (decide (r.g.ord = .rel) || decide (r.g.ord = .ar)) = true then c.rmwRelease e2 r.g.scope else .ok e2) =
      .ok e3 := by
    simpa only [Bool.or_eq_true, decide_eq_true_eq] using released
  rw [AtomRule.needs, AtomRule.n] at guard
  rw [AtomRule.n] at places observed free
  -- Past the checks one by one; what is left is the model's own fold over the lanes.
  unfold Ctx.atomic
  simp only [Ctx.opE, guard, act_ok_bind (α := Unit), active, if_false, addresses, places, act_ok_bind (α := List (Nat × Place)), drops, free,
    Bool.false_eq_true, act_ite_bind]
  rw [observed, act_ok_bind, released, act_ok_bind, ready, Bool.not_true, if_neg Bool.false_ne_true]
  generalize model : List.foldl _ _ ps = z
  obtain rfl : z = ({ s := y.1, res := y.2.1 }, y.2.2) := by
    refine model.symm.trans ((List.foldl_ext _ _ _ fun m p hp => ?_).trans
      ((lanesRun_fold r c e3 ps e3 [] 0 _ (r.opD c e3) (r.opE_eq c e3) (r.opD_used c e3)).trans (by simp [y])))
    simp only [r.opD_eq c e3 (lanes p hp), r.opD_used]
    rfl
  generalize attempt : c.writeLanes e3 true r.d _ _ ([], []) = x
  obtain rfl := attempt.symm.trans tried
  exact written

theorem atomicResults : AtomicResults := by
  intro i r s hr hs c e
  have ran : exec i s = .next (State.finish c (c.atomic e r.g r.d r.a r.b r.fm r.flags r.useD (r.f c)).ends) := by
    rw [exec_atomRule hr, run_ok hs]
  refine ⟨fun idle usable => ?_, ?_⟩
  · rw [ran, atomic_none usable idle]
    rfl
  · intro accs ps e1 e2 e3 e' active usable addresses places at' dropped free observed released ready y ws extra trails trailed
    obtain ⟨e'', trails⟩ := trails
    rw [ran, Ctx.atomic_ready active usable addresses places dropped free observed released ready trails trailed]
    rfl

/-! ### Fences (R95, R110, R267) -/

section
variable {c : Ctx} {e : State} {sc : Scope}

/-- A fence that reaches no further than the warp waits for nothing. -/
theorem Ctx.fenceNow_near (h : sc = .lane ∨ sc = .warp) : c.fenceNow e sc = .ok e := by
  rcases h with rfl | rfl <;> rfl

/-- A fence within the die waits for the owner's port writes and for the die's writes to its own lines. -/
theorem Ctx.fenceNow_die (h : sc = .group ∨ sc = .gang ∨ sc = .die) (ports : e.portsClear c.owner = true) (home : e.homeBusy c.die = false) :
    c.fenceNow e sc = .ok e := by
  have release : c.releaseNow e sc = .ok (e.release c.die sc) := by
    rcases h with rfl | rfl | rfl <;> simp [Ctx.releaseNow, ports, home]
  rcases h with rfl | rfl | rfl <;> exact release

section
variable (h : sc = .dev ∨ sc = .sys)
include h

/-- A fence at device or system scope waits for marks too, and closes the open epoch. -/
theorem Ctx.fenceNow_wide (marks : e.allMarks c.die = true) (ports : e.portsClear c.owner = true) (home : e.homeBusy c.die = false)
    (outside : sc = .sys → e.peerBusy = false ∧ e.hostBusy c.die = false) : c.fenceNow e sc = .ok (e.closeEpoch c.die) := by
  rcases h with rfl | rfl
  · simp [Ctx.fenceNow, marks, Ctx.releaseNow, ports, home, State.release, wideScope]
  · obtain ⟨peer, host⟩ := outside rfl
    simp [Ctx.fenceNow, marks, Ctx.releaseNow, ports, home, peer, host, State.release, wideScope]

theorem Ctx.fenceNow_asks (marks : e.allMarks c.die = false) : c.fenceNow e sc = stop .again (e.askAll c.die) := by
  rcases h with rfl | rfl <;> simp [Ctx.fenceNow, marks, wideScope]

end
end

theorem exec_fence (x : Ctl) (sc : Scope) (s : State) : exec (.fence x sc) s = run (.fence x sc) s fun c e => c.fenceNow e sc := rfl

theorem fenceResults : FenceResults := by
  intro x sc s hs i c e
  have ran : exec i s = .next (State.finish c (c.fenceNow e sc).ends) := by rw [exec_fence, run_ok hs]
  refine ⟨fun near => ?_, fun within ports home => ?_, fun wide marks ports home outside => ?_, fun wide marks => ?_⟩
  · rw [ran, Ctx.fenceNow_near near, finish_ok]
  · rw [ran, Ctx.fenceNow_die within ports home, finish_ok]
  · rw [ran, Ctx.fenceNow_wide wide marks ports home outside, finish_ok]
  · rw [ran, Ctx.fenceNow_asks wide marks, finish_again]

end Sys2Proof.Machine

namespace Sys2Proof.OrderingModel
open Sys2Proof.Machine

/-- Settles O17: atomics by their lanes in turn, fences by what each scope waits for. -/
theorem atomicAndFenceResults : Obligations.AtomicAndFenceResults := ⟨atomicResults, fenceResults⟩

end Sys2Proof.OrderingModel
end

section

namespace Sys2Proof.Machine

/-! ### Host requests (R113, R399) -/

theorem State.serve_wait {s : State} {i : Request} (f : State → State) (h : s.mayServe i = false) :
    s.serve i f = if i ∈ s.held then s else { s with held := s.held ++ [i] } := by
  simp [State.serve, h]

/-! ### Entries of a submission queue (R328, R329) -/

/-- The state in which the next entry of a queue has its effect: its lookup logged where that met poison, and the ring moved on. -/
def State.sqBegun (s : State) (fn q : Nat) : State :=
  (s.logLookup s.dunesh (hostAgent s.dunesh) fn ((at_ {} (s.fns.getD fn {}).sqs q).base + 64 * (at_ {} (s.fns.getD fn {}).sqs q).head) 64).sqTake fn q

section
variable {s : State} {fn q e : Nat} (h : s.sqEntry fn q = some e)
include h

/-- An entry of a known command whose reserved bits are not zero is refused. -/
theorem State.sqBegin_unclean {cmd : Nat} (f : State → Nat → State) (known : 1 ≤ cmd ∧ cmd ≤ 4) (hc : sqCmd e = cmd)
    (clean : sqClean e = false) :
    s.sqBegin fn q cmd f = (s.sqBegun fn q).post fn 1 (sqTag e) 0 := by
  simp [State.sqBegin, h, hc, known, clean, State.sqBegun]

/-- An entry of an unknown command is refused where a NOP would begin. -/
theorem State.sqBegin_unknown (f : State → Nat → State) (unknown : sqCmd e = 0 ∨ 4 < sqCmd e) :
    s.sqBegin fn q 4 f = (s.sqBegun fn q).post fn 1 (sqTag e) 0 := by
  have strange : (decide (1 ≤ sqCmd e) && decide (sqCmd e ≤ 4)) = false := by
    simp only [Bool.and_eq_false_iff, decide_eq_false_iff_not]
    omega
  simp [State.sqBegin, h, strange, State.sqBegun]

end

theorem State.sqCinc_eq (s : State) {fn q : Nat} (e : Nat) (hf : 0 < fn) (hq : q < 16) : s.sqCinc fn q e =
    (((s.closeEpoch s.dunesh).counterAdd ((s.closeEpoch s.dunesh).partOf fn) (field e 319 304) (BitVec.ofNat 64 (field e 383 320))
      ((s.closeEpoch s.dunesh).closedVec s.dunesh)).post fn 0 (sqTag e) 0) := by
  unfold State.sqCinc
  exact if_neg (by simp; omega)

theorem State.sqCwait_eq (s : State) {fn : Nat} (q e : Nat) (hf : 0 < fn) : s.sqCwait fn q e =
    (s.modOpen fn q (· + 1)).modFn fn fun f =>
      { f with cwait := f.cwait.set q (some (field e 319 304, BitVec.ofNat 64 (field e 383 320), sqTag e)) } :=
  if_neg (Nat.pos_iff_ne_zero.mp hf)

theorem State.cwaitMet_eq {s : State} {fn q id tag : Nat} {v : W64} (h : at_ none (s.fns.getD fn {}).cwait q = some (id, v, tag))
    (reached : v.toNat ≤ (get {} s.counters (counterKey (s.partOf fn) id)).value.toNat) :
    s.cwaitMet fn q = ((s.modFn fn fun f => { f with cwait := f.cwait.set q none }).modOpen fn q (· - 1)).post fn 0 tag 0 := by
  unfold State.cwaitMet
  rw [h]
  exact if_neg (Nat.not_lt.mpr reached)

/-! ### The end of a launch (R329, R330) -/

theorem State.launchComplete_eq {s : State} {n : Nat} (hn : n < s.launches.length) (ended : s.launchOver n = true) (quiet : s.quiet = true)
    (running : s.fw.phase = .running) (new : (s.launches.getD n {}).complete = false) (kept : (s.launches.getD n {}).aborted = false)
    (begun : (s.launches.getD n {}).begun = true) :
    let l := s.launches.getD n {}
    let u := s.modLaunch n fun l => { l with complete := true }
    s.launchComplete n = if l.host then ((u.modOpen l.fn l.queue (· - 1)).post l.fn (if l.abandoned then 6 else 0) l.tag 0).confirmAll else u := by
  unfold State.launchComplete
  dsimp only
  rw [if_neg (by simp only [Nat.not_le.mpr hn, ended, quiet, running, new, kept, begun]; decide)]
  cases (s.launches.getD n {}).host <;> rfl

/-! ### Address translation services (R389) -/

theorem State.atsReply_kept {s : State} {d off : Nat} (r w : Bool) (addr : Nat) {a : Nat × Nat × Nat}
    (h : (s.ats.find? fun a => a.1 = d && a.2.2 = off / 4096) = some a) :
    (s.atsReply d off r w addr).ats = s.ats.erase a ∧
      { die := d, fn := a.2.1, page := off / 4096, addr := addr, r := r, w := w } ∈ (s.atsReply d off r w addr).atc := by
  simp only [State.atsReply, h]
  exact ⟨rfl, List.mem_append_right _ (List.mem_singleton_self _)⟩

/-- An invalidation takes matching translations away; it is complete once accesses to host memory are performed (R140). -/
theorem State.atsInval_kept (s : State) (fn lo len : Nat) :
    (s.atsInval fn lo len).atc = s.atc.filter (fun a => !(a.fn = fn && a.page * 4096 < lo + len && lo < a.page * 4096 + 4096)) ∧
      (s.hostDrained = true → (s.atsInval fn lo len).out = s.out ++ [.invalDone fn]) := by
  unfold State.atsInval
  dsimp only
  split
  · exact ⟨rfl, fun _ => rfl⟩
  next busy =>
    refine ⟨?_, fun drained => absurd drained busy⟩
    split <;> rfl

/-! ### Page responses (R392, R393) -/

/-- A response for an index of no request is stale. -/
theorem State.pageAnswer_stale {s : State} {fn idx : Nat} (code : Nat) (h : ∀ p ∈ (s.fns.getD fn {}).pages, p.idx ≠ idx) :
    s.pageAnswer fn idx code = s.modFn fn fun f => { f with stalepr := min (f.stalepr + 1) (2 ^ 32 - 1) } := by
  have none : ((s.fns.getD fn {}).pages.find? fun p => p.idx = idx) = none := List.find?_eq_none.mpr (by simpa using h)
  simp only [State.pageAnswer, none]

end Sys2Proof.Machine

namespace Sys2Proof.OrderingModel
open Sys2Proof.Machine

theorem queueEntries : QueueEntries := by
  refine ⟨fun fn q tail s may => congrArg Host.Outcome.next (serve_ok may), fun fn q e s entry => ?_,
    fun fn q id v tag s waits reached => congrArg Host.Outcome.next (State.cwaitMet_eq waits reached), fun n s hn ended quiet running => ?_⟩
  · intro u
    have begins : ∀ {cmd : Nat} (f : State → Nat → State), sqClean e = true → sqCmd e = cmd → 1 ≤ cmd ∧ cmd ≤ 4 →
        s.sqBegin fn q cmd f = f u e := fun f clean hc known => sqBegin_ok _ entry hc known clean
    refine ⟨fun clean => ⟨fun hc => ?_, fun hc hf hq => ?_, fun hc hf => ?_, fun hc => ?_⟩, fun unclean hc => ?_, fun unknown => ?_⟩
    · exact congrArg Host.Outcome.next (begins _ clean hc (by decide))
    · exact congrArg Host.Outcome.next ((begins _ clean hc (by decide)).trans (State.sqCinc_eq u e hf hq))
    · exact congrArg Host.Outcome.next ((begins _ clean hc (by decide)).trans (State.sqCwait_eq u q e hf))
    · exact congrArg Host.Outcome.next (begins _ clean hc (by decide))
    · exact congrArg Host.Outcome.next (State.sqBegin_unclean entry _ (by decide) hc unclean)
    · exact congrArg Host.Outcome.next (State.sqBegin_unknown entry _ unknown)
  · intro l u new kept begun
    exact congrArg Host.Outcome.next (State.launchComplete_eq hn ended quiet running new kept begun)

theorem functionRegisters : FunctionRegisters :=
  ⟨fun _ _ _ may => congrArg Host.Outcome.next (serve_ok may), fun _ _ => rfl, fun _ _ _ _ may => congrArg Host.Outcome.next (serve_ok may),
    fun _ _ addr r w _ _ asked => ⟨_, rfl, State.atsReply_kept r w addr asked⟩, fun fn lo len s => ⟨_, rfl, s.atsInval_kept fn lo len⟩,
    fun _ _ code _ may stale => congrArg Host.Outcome.next ((serve_ok may).trans (State.pageAnswer_stale code stale)),
    fun _ f _ wait => State.serve_wait f wait⟩

/-- Settles O45: entries by their beginning, each with its own command's effect, then each register and request by its own operation. -/
theorem queuesAndRegisters : Obligations.QueuesAndRegisters := ⟨queueEntries, functionRegisters⟩

end Sys2Proof.OrderingModel
end

section

namespace Sys2Proof.Machine

/-! ### An instruction without an active lane (R269) -/

/-- An instruction whose body does nothing without an active lane does nothing but go on. -/
theorem run_idle {i : Instr} {s : State} {body : Ctx → State → Act State} (hs : s.Issues) (skips : ∀ c e, c.act = 0 → body c e = .ok e)
    (idle : (s.seen i).act = 0) : run i s body = .next ((s.seen i).done (s.entering i)) := by
  rw [run_ok hs, skips _ _ idle, finish_ok]

/-! ### Waits on a generation (R270, R271) -/

theorem genReads_iff (sync differ : Bool) (bs : List Byte) (v : Nat) :
    genReads sync differ bs v = true ↔ if differ then genOf sync bs ≠ v else genOf sync bs = v := by
  cases differ <;> simp [genReads, genOf]

section
variable {c : Ctx} {s t : State} {x : BarCtl} {l addr v : Nat} {sync differ : Bool} {p : Place} {bs : List Byte} (b : Block)
  (object : c.object s x.win .read l addr (if sync then 8 else 16) = .ok p) (read : c.readObject s p (if sync then 8 else 16) = .ok bs)
include object read

/-- GEN reads otherwise: the split waits with its record. -/
theorem Ctx.genWait_waits (other : ¬ if differ then genOf sync bs ≠ v else genOf sync bs = v) :
    c.genWait s x l addr v sync differ b = stop (.wait b) s := by
  rw [← genReads_iff, Bool.not_eq_true] at other
  simp [Ctx.genWait, object, read, other]

/-- GEN reads as asked: the read is an acquire. -/
theorem Ctx.genWait_ok (reads : if differ then genOf sync bs ≠ v else genOf sync bs = v)
    (acquired : c.acquireNow s x.scope (s.stampsOf c.die [p] (if sync then 8 else 16)) = .ok t) :
    c.genWait s x l addr v sync differ b = .ok t := by
  rw [← genReads_iff] at reads
  simp only [Ctx.genWait, object, read, reads, acquired, act_ok_bind]
  rfl

end

theorem Ctx.one_eq_word (c : Ctx) (e : State) (l : Nat) (x : Src) : c.one e l x = c.word e l x := rfl

section
variable {i : Instr} {s : State} {k : BarCtl} {a b : Src} (sync : Bool) (hs : s.Issues)
include hs

theorem waitOp_idle (idle : (s.seen i).act = 0) : waitOp i s k a b sync = .next ((s.seen i).done (s.entering i)) :=
  run_idle hs (fun c e h => by simp only [lowest_of_idle h]) idle

/-- A waiting instruction with clean operands waits on the generation that B names, cut to the width of GEN. -/
theorem waitOp_once {l : Nat} (once : Once (s.seen i) l (srcNeed 1 1 a ++ srcNeed 2 1 b) [(b, .i32)])
    (ha : ((s.seen i).word (s.entering i) l a).poison = false) (hb : ((s.seen i).word (s.entering i) l b).poison = false) :
    let c := s.seen i
    let e := s.entering i
    let addr := (c.word e l a).data.toNat
    let v := (c.word e l b).data.toNat % if sync then 256 else 16
    waitOp i s k a b sync = .next (State.finish c (c.genWait e k l addr v sync false (genBlock sync addr v 0)).ends) := by
  intro c e addr v
  have record : (if sync then { kind := 2, addr := (c.word e l a).data.setWidth 64, value := BitVec.ofNat 64 v }
      else barBlock addr v false) = genBlock sync addr v 0 := by
    cases sync
    · rfl
    · simp [genBlock, addr, BitVec.ofNat_toNat]
  rw [waitOp, run_ok hs, ← record]
  simp only [once.lane, guard_ok once.usable, act_ok_bind, Ctx.one_eq_word, ha, hb, Bool.or_self, Bool.false_eq_true, if_false, c, e, addr, v]

end

theorem exec_genRule {i : Instr} {k : BarCtl} {a b : Src} {sync : Bool} (h : genRule i = some (k, a, b, sync)) (s : State) :
    exec i s = waitOp i s k a b sync := by
  unfold genRule at h
  split at h
  · obtain ⟨rfl, rfl, rfl, rfl⟩ := by simpa using h
    rfl
  · obtain ⟨rfl, rfl, rfl, rfl⟩ := by simpa using h
    rfl
  · cases h

/-! ### Arrivals (R128, R269, R270) -/

theorem Barrier.of_gen (bs : List Byte) : (Barrier.of bs).gen = genOf false bs := by
  cases bs with
  | nil => rfl
  | cons b r => simp [Barrier.of, genOf, ofBytes, field, at_]; omega

section
variable {i : Instr} {s : State} {k : BarCtl} {a b : Src} (wait : Bool) (hs : s.Issues)
include hs

theorem arriveOp_idle (idle : (s.seen i).act = 0) : arriveOp i s k a b wait = .next ((s.seen i).done (s.entering i)) :=
  run_idle hs (fun c e h => by simp only [lowest_of_idle h]) idle

/-- With clean operands an arriving instruction arrives once, for its lowest active lane. -/
theorem arriveOp_once {l : Nat} (once : Once (s.seen i) l (arriveNeeds (s.seen i) k a b) (arriveMaps (s.seen i) k))
    (ha : ((s.seen i).word (s.entering i) l a).poison = false) (hb : ((s.seen i).word (s.entering i) l b).poison = false)
    (he : ((s.seen i).outWord (s.entering i) l k).poison = false) :
    let c := s.seen i
    let e := s.entering i
    arriveOp i s k a b wait = .next (State.finish c
      (c.arrive e k l (c.word e l a).data.toNat (c.word e l b).data (c.outWord e l k).data wait).ends) := by
  intro c e
  rw [arriveOp, run_ok hs]
  have usable := guard_ok (s := e) once.usable
  unfold arriveNeeds arriveMaps at usable
  unfold Ctx.outWord at he
  simp only [once.lane, Ctx.opE, usable, act_ok_bind, Ctx.one_eq_word, ha, hb, he, Bool.or_self, Bool.false_eq_true, if_false, Ctx.outWord, c, e]

end
end Sys2Proof.Machine

namespace Sys2Proof.EnginesAndFabric
open Sys2Proof.Machine

theorem barrierArrivals : BarrierArrivals := by
  intro i x k a b s hi hs
  have ran : ∃ w, exec i s = arriveOp i s k a b w := by
    rcases hi with rfl | rfl
    exacts [⟨false, rfl⟩, ⟨true, rfl⟩]
  refine ⟨fun idle => ?_, fun l t p bs z once ha hb he => ⟨?_, ?_⟩⟩
  · obtain ⟨w, ran⟩ := ran
    rw [ran, arriveOp_idle w hs idle]
  · rintro rfl arrives
    exact (arriveOp_once false hs once ha hb he).trans (congrArg Host.Outcome.next (arrive_eq arrives))
  · rintro rfl arrives
    rw [← Barrier.of_gen] at arrives
    exact (arriveOp_once true hs once ha hb he).trans (congrArg Host.Outcome.next (arrive_eq arrives))

theorem generationWaits : GenerationWaits := by
  intro i k a b sync s hi hs
  refine ⟨fun idle => ?_, fun l p bs once ha hb object read => ⟨fun other => ?_, fun t reads acquired => ?_⟩⟩
  · rw [exec_genRule hi, waitOp_idle sync hs idle]
  · rw [exec_genRule hi, waitOp_once sync hs once ha hb, Ctx.genWait_waits _ object read (by simpa using other), finish_wait]
  · rw [exec_genRule hi, waitOp_once sync hs once ha hb, Ctx.genWait_ok _ object read (by simpa using reads) acquired, finish_ok]

/-- Settles O25: an arriving or waiting instruction acts once, for its lowest active lane, as `arrive_eq` and the two ends of a wait on GEN say. -/
theorem barrierArrivalsAndWaits : Obligations.BarrierArrivalsAndWaits := ⟨barrierArrivals, generationWaits⟩

end Sys2Proof.EnginesAndFabric
end

section

namespace Sys2Proof.Machine

/-! ### Waits at objects that end (R128, R270, R271, R356) -/

/-- An arrival that the object takes updates it, in a release at its scope. -/
theorem Ctx.arrive_ok {c : Ctx} {e t : State} {x : BarCtl} {l addr : Nat} {tin tout : W32} {p : Place} {bs : List Byte} {b : Barrier}
    (object : c.object e x.win .rmw l addr 16 = .ok p) (read : c.readObject e p 16 = .ok bs)
    (arrives : (Barrier.of bs).arrive tin.toInt tout.toInt = .ok b) (released : c.releaseNow e x.scope = .ok t) :
    c.arrive e x l addr tin tout false = .ok (c.arrived t x.scope p b) := by
  simp only [Ctx.arrive, object, read, arrives, released, act_ok_bind]
  rfl

/-! ### Group barriers (R272) -/

theorem exec_gbar_idle {x : Ctl} {sc : Scope} {s : State} (hs : s.Issues) (idle : (s.seen (.gbar x sc)).act = 0) :
    exec (.gbar x sc) s = .next ((s.seen (.gbar x sc)).done (s.entering (.gbar x sc))) :=
  show execGbar x sc s = _ from run_idle hs (fun _ _ h => if_pos h) idle

theorem exec_gbar_waits {x : Ctl} {sc : Scope} {s t : State} (hs : s.Issues) (active : (s.seen (.gbar x sc)).act ≠ 0)
    (released : (s.seen (.gbar x sc)).releaseNow (s.entering (.gbar x sc)) sc = .ok t) :
    exec (.gbar x sc) s = .next ((s.seen (.gbar x sc)).blocked t { kind := 3, value := (Scope.code sc).setWidth 64 }) := by
  show execGbar x sc s = _
  rw [execGbar, run_ok hs, if_neg active, released, act_ok_bind, finish_wait]

/-- In a running group of one warp, all of whose lanes wait in one split whose words are at hand, that split goes on. -/
theorem State.gbarComplete_one {s : State} {core n slot : Nat} {g : Group} {i : Instr} {x : Words} (room : (s.room core n).group = some g)
    (slots : g.slots = [slot]) (live : (s.warp core slot).live = true) (runs : g.runs = true) (waits : (s.warp core slot).atGbar 2 = [0])
    (all : (s.warp core slot).allAtGbar 2 = true) (words : s.fetch ⟨core, slot, 0⟩ = .instr i x) :
    s.gbarComplete core n false = resume ⟨core, slot, 0⟩ s [3] fun _ _ _ s => .ok s := by
  simp [State.gbarComplete, room, State.group_of_some room, slots, live, runs, waits, all, words]

end Sys2Proof.Machine

namespace Sys2Proof.EnginesAndFabric
open Sys2Proof.Machine

theorem objectWaitsEnd : ObjectWaitsEnd := by
  intro r i x k s t p bs u c b
  refine ⟨fun y a d hi waits object read reads acquired => ?_, fun y a d hi waits object read reads acquired => ?_,
    fun y a d o hi waits object read arrives released => ?_⟩
  · have ends : c.genWait u k c.first b.addr.toNat b.value.toNat false (b.aux = 1) b = .ok t :=
      Ctx.genWait_ok b object read (by simpa using reads) acquired
    refine congrArg Host.Outcome.next (resume_ok waits (by simp) ?_)
    rcases hi with rfl | rfl
    exacts [ends, ends]
  · subst hi
    exact congrArg Host.Outcome.next (resume_ok waits (by simp) (Ctx.genWait_ok b object read (by simpa using reads) acquired))
  · subst hi
    exact congrArg Host.Outcome.next (resume_ok waits (by simp) (Ctx.arrive_ok object read arrives released))

theorem groupBarriers : GroupBarriers :=
  ⟨fun _ _ _ hs => ⟨exec_gbar_idle hs, fun _ active released => exec_gbar_waits hs active released⟩,
    fun _ _ _ _ _ _ _ room slots live runs waits all waiting => congrArg Host.Outcome.next
      ((State.gbarComplete_one room slots live runs waits all waiting.words).trans (resume_ok waiting (by simp) rfl))⟩

/-- Settles O27: the end of a wait is its own read or arrival made again, and a group barrier ends for the one split that waits at it. -/
theorem waitsEndAndGroupBarriers : Obligations.WaitsEndAndGroupBarriers := ⟨objectWaitsEnd, groupBarriers⟩

end Sys2Proof.EnginesAndFabric
end

section

namespace Sys2Proof.Machine

/-! ### Phases (R128) -/

/-- Arrivals without transaction bytes, fewer than are expected, only count PEND down. -/
theorem Barrier.arrivals_pend {b : Barrier} (good : b.expect ≠ 0) (res : b.res = 0) (hi : b.inb = 0) (ho : b.outb = 0) {n m : Nat}
    (pend : b.pend = n + m + 1) : b.arrivals n = some { b with pend := m + 1 } := by
  induction n generalizing b with
  | zero => rw [Barrier.arrivals, ← Nat.zero_add m, ← pend]
  | succ n ih =>
    have one : b.arrive 0 0 = .ok { b with pend := n + m + 1 } := by
      have left : n + 1 + m + 1 - 1 = n + m + 1 := by omega
      simp [Barrier.arrive, Barrier.bad, good, res, hi, ho, overflows, Barrier.phase, pend, left]
    rw [Barrier.arrivals, one]
    exact ih good res hi ho rfl

theorem Barrier.arrivals_add (n m : Nat) (b : Barrier) : Barrier.arrivals (n + m) b = (Barrier.arrivals n b).bind (Barrier.arrivals m) := by
  induction n generalizing b with
  | zero => simp [Barrier.arrivals]
  | succ n ih =>
    rw [Nat.add_right_comm, Barrier.arrivals, Barrier.arrivals]
    cases b.arrive 0 0 with
    | ok b' => exact ih b'
    | barf => rfl
    | wait => rfl

/-- The last arrival that a phase expects completes it. -/
theorem Barrier.arrive_last {b : Barrier} (good : b.expect ≠ 0) (res : b.res = 0) (hi : b.inb = 0) (ho : b.outb = 0)
    (pend : b.pend = 1) : b.arrive 0 0 = .ok { b with gen := (b.gen + 1) % 16, pend := b.expect } := by
  simp [Barrier.arrive, Barrier.bad, good, res, hi, ho, overflows, Barrier.phase, pend]

/-! ### Bytes of objects (R8, R124, R127) -/

theorem leBytes_length (n x : Nat) : (leBytes n x).length = n := by
  induction n generalizing x with
  | zero => rfl
  | succ n ih => simp [leBytes, ih]

theorem ofBytes_leBytes (n x : Nat) : ofBytes (leBytes n x) = x % 256 ^ n := by
  induction n generalizing x with
  | zero => simp [leBytes, ofBytes, Nat.mod_one]
  | succ n ih => simp [leBytes, ofBytes, ih, Nat.pow_succ', Nat.mod_mul]

/-- A word of two's complement that fits its width reads back. -/
theorem signed_ofInt {x : Int} (lo : -2 ^ 31 ≤ x) (hi : x < 2 ^ 31) : signed 32 (BitVec.ofInt 32 x).toNat = x := by
  rw [signed, BitVec.ofNat_toNat, BitVec.setWidth_eq]
  exact BitVec.toInt_ofInt_eq_self (by decide) (by simpa using lo) (by simpa using hi)

/-- The number that the six fields of a barrier object pack gives each of them back. -/
theorem barrier_fields {g e p r i o : Nat} (hg : g < 2 ^ 4) (he : e < 2 ^ 12) (hp : p < 2 ^ 12) (hr : r < 2 ^ 36) (hi : i < 2 ^ 32) (ho : o < 2 ^ 32) :
    let x := g + e * 2 ^ 4 + p * 2 ^ 16 + r * 2 ^ 28 + i * 2 ^ 64 + o * 2 ^ 96
    x < 256 ^ 16 ∧ field x 3 0 = g ∧ field x 15 4 = e ∧ field x 27 16 = p ∧ field x 63 28 = r ∧ field x 95 64 = i ∧ field x 127 96 = o := by
  intro x
  simp only [field, x]
  omega

/-! ### Raises (R125) -/

theorem sync_fields {g c t : Nat} (hg : g < 256) (hc : c < 2 ^ 28) (ht : t < 2 ^ 28) :
    let w := g * 2 ^ 56 + c * 2 ^ 28 + t
    field w 63 56 = g ∧ field w 55 28 = c ∧ field w 27 0 = t := by
  intro w
  simp only [field, w]
  omega

theorem syncRaise_of_target {w : Nat} (n : Nat) (h : field w 27 0 ≠ 0) :
    syncRaise w n = (field w 63 56 + (field w 55 28 + n) / field w 27 0) % 256 * 2 ^ 56 + (field w 55 28 + n) % field w 27 0 * 2 ^ 28 + field w 27 0 :=
  if_neg h

end Sys2Proof.Machine

namespace Sys2Proof.EnginesAndFabric
open Sys2Proof.Machine

theorem barrierPhases : BarrierPhases := by
  intro b n good res hi ho start
  have down : ∀ n < b.expect, b.arrivals n = some { b with pend := b.expect - n } := by
    intro n hn
    obtain ⟨m, hm⟩ := Nat.exists_eq_add_of_lt hn
    rw [Barrier.arrivals_pend good res hi ho (start.trans hm), show b.expect - n = m + 1 by omega]
  refine ⟨down n, ?_⟩
  have last : b.expect = (b.expect - 1) + 1 := by omega
  calc b.arrivals b.expect = (b.arrivals (b.expect - 1)).bind (Barrier.arrivals 1) := by rw [← Barrier.arrivals_add, ← last]
    _ = Barrier.arrivals 1 { b with pend := 1 } := by rw [down _ (by omega), show b.expect - (b.expect - 1) = 1 by omega]; rfl
    _ = some { b with gen := (b.gen + 1) % 16 } := by
      rw [Barrier.arrivals, Barrier.arrive_last (b := { b with pend := 1 }) good res hi ho rfl, ← start]
      rfl

theorem barrierBytes : BarrierBytes := by
  rintro ⟨g, e, p, r, i, o⟩ hg he hp hr hi hi' ho ho'
  obtain ⟨all, fg, fe, fp, fr, fi, fo⟩ := barrier_fields hg he hp hr (BitVec.ofInt 32 i).isLt (BitVec.ofInt 32 o).isLt
  refine ⟨?_, leBytes_length _ _⟩
  rw [Barrier.of, Barrier.bytes, ofBytes_leBytes, Nat.mod_eq_of_lt all]
  simp only [fg, fe, fp, fr, fi, fo, signed_ofInt hi hi', signed_ofInt ho ho']

theorem syncRaisesAdd : SyncRaisesAdd := by
  intro w n m target
  have short : field w 27 0 < 2 ^ 28 := Nat.mod_lt _ (by decide)
  have raised := syncRaise_of_target n target
  have below : (field w 55 28 + n) % field w 27 0 < 2 ^ 28 := (Nat.mod_lt _ (Nat.pos_of_ne_zero target)).trans short
  obtain ⟨hg, hc, ht⟩ := sync_fields (Nat.mod_lt (field w 63 56 + (field w 55 28 + n) / field w 27 0) (by decide)) below short
  rw [← raised] at hg hc ht
  rw [syncRaise_of_target m (by rwa [ht]), syncRaise_of_target (n + m) target, hg, hc, ht, Nat.mod_add_mod, ← Nat.add_assoc (field w 55 28)]
  have carries : (field w 55 28 + n) / field w 27 0 + ((field w 55 28 + n) % field w 27 0 + m) / field w 27 0 = (field w 55 28 + n + m) / field w 27 0 := by
    rw [← Nat.mul_add_div (Nat.pos_of_ne_zero target), ← Nat.add_assoc, Nat.div_add_mod]
  rw [Nat.mod_add_mod, Nat.add_assoc (field w 63 56), carries]

/-- Settles O26: arrivals counted down to the last, fields of a packed number, and raises whose carries add. -/
theorem synchronisationObjects : Obligations.SynchronisationObjects := ⟨barrierPhases, barrierBytes, syncRaisesAdd⟩

end Sys2Proof.EnginesAndFabric
end

section

namespace Sys2Proof.Machine

/-! ### Submission of a job (R118, R280, R282) -/

section
variable {c : Ctx} {e : State} (l addr : Nat)

/-- A full scheduler, or an earlier submission that waits, is a blocking point. -/
theorem Ctx.submit_waits (h : 64 ≤ (e.core c.core).jobs.length ∨ ∃ w, (e.submitters c.core).head? = some w ∧ w ≠ (c.slot, c.sp)) :
    let q := e.submitters c.core
    c.submit e l addr = stop (.wait { kind := 7, addr := BitVec.ofNat 64 addr })
      (e.modCore c.core fun z => { z with jsubs := if (c.slot, c.sp) ∈ q then q else q ++ [(c.slot, c.sp)] }) := by
  intro q
  have waits : (decide (64 ≤ (e.core c.core).jobs.length) || (decide (q ≠ []) && decide (q.head? ≠ some (c.slot, c.sp)))) = true := by
    rcases h with full | ⟨w, first, other⟩
    · simp [full]
    · have some : q ≠ [] := by
        intro none
        simp [q, none] at first
      simp [q, some, first, other]
  rw [Ctx.submit, if_pos waits]
  simp [q]

section
variable {ps : List Place} (free : (e.core c.core).jobs.length < 64) (first : e.submitters c.core = [])
  (range : c.range e .scratch .read l addr 128 128 = .ok ps) (clean : (c.readRange e ps 64).2 = false)
include free first range clean

/-- A card with a bad field is refused with JCARD. -/
theorem Ctx.submit_refused {off : Nat} (bad : e.cardBad c.core c.g (c.readRange e ps 64).1 = some off) :
    c.submit e l addr = stop (.trap { cause := 0x20, lanes := bitOf l, d := BitVec.ofNat 64 addr, a := BitVec.ofNat 64 off }) e := by
  simp [Ctx.submit, first, Nat.not_le.mpr free, range, clean, bad]

/-- A good card becomes the scheduler's youngest job, numbered in its stream. -/
theorem Ctx.submit_ok (good : e.cardBad c.core c.g (c.readRange e ps 64).1 = none) :
    let bs := (c.readRange e ps 64).1
    let k := Card.of bs
    let n := at_ 0 (e.warp c.core c.slot).subs k.stream
    let t := e.modWarp c.core c.slot fun w => { w with subs := w.subs.set k.stream ((n + 1) % 65536) }
    c.submit e l addr = .ok (t.modCore c.core fun z => { z with
      jobSeq := z.jobSeq + 1
      jobs := z.jobs ++ [{ id := z.jobSeq, room := c.room, slot := c.slot, num := n, cardAddr := addr, bytes := bs, card := k }] }) := by
  simp [Ctx.submit, first, Nat.not_le.mpr free, range, clean, good]

end
end

/-- `jsub` submits once, from the address that its uniform names. -/
theorem exec_jsub_once {x : Ctl} {a : BitVec 8} {s : State} (hs : s.Issues) {l : Nat} (once : Once (s.seen (.jsub x a)) l [.k 1 a.toNat])
    (clean : (at_ ({} : KReg) (s.seen (.jsub x a)).w.uni a.toNat).poison = false) :
    let c := s.seen (.jsub x a)
    exec (.jsub x a) s = .next (State.finish c (c.submit (s.entering (.jsub x a)) l (c.uniAddr true a)).ends) := by
  intro c
  show execJsub x a s = _
  rw [execJsub, run_ok hs]
  simp only [once.lane, guard_ok once.usable, act_ok_bind, Ctx.kreg, clean, Ctx.uniAddr, if_true, Bool.false_eq_true, if_false, c]

/-! ### Waits for jobs (R283, R356) -/

/-- The numbers of four streams fill the record of a wait. -/
theorem lastJobs_lt (subs : List Nat) (m : Nat) : lastJobs subs m < 2 ^ 64 := by
  have short : ∀ st, (at_ 0 subs st + 65535) % 65536 < 65536 := fun st => Nat.mod_lt _ (by decide)
  have h0 := short 0
  have h1 := short 1
  have h2 := short 2
  have h3 := short 3
  simp only [lastJobs, List.range, List.range.loop, List.foldl_cons, List.foldl_nil]
  split_ifs <;> omega

section
variable {c : Ctx} {e : State} (b : Block)

theorem Ctx.waitJobs_waits (left : e.awaited c.core c.slot b.value.toNat b.aux.toNat ≠ []) : c.waitJobs e b = stop (.wait b) e := by
  rw [Ctx.waitJobs, if_pos (by simpa using left)]

section
variable (gone : e.awaited c.core c.slot b.value.toNat b.aux.toNat = [])
include gone

theorem Ctx.waitJobs_ok (seen : e.vecOk c.die (e.warp c.core c.slot).jvec = true) :
    c.waitJobs e b = .ok (e.mergeStamp c.die (e.warp c.core c.slot).jvec) := by
  simp [Ctx.waitJobs, gone, State.acquireVec, seen]

theorem Ctx.waitJobs_asks (unseen : e.vecOk c.die (e.warp c.core c.slot).jvec = false) :
    c.waitJobs e b = stop (.wait b) (e.askClose c.die c.die (e.warp c.core c.slot).jvec) := by
  simp [Ctx.waitJobs, gone, State.acquireVec, unseen]

end
end

/-- `jwait` waits with the last numbers of its streams. -/
theorem exec_jwait_active {x : Ctl} {m : BitVec 8} {s : State} (hs : s.Issues) (active : (s.seen (.jwait x m)).act ≠ 0) :
    let c := s.seen (.jwait x m)
    let e := s.entering (.jwait x m)
    exec (.jwait x m) s = .next (State.finish c (c.waitJobs e
      { kind := 12, value := m.setWidth 64, aux := BitVec.ofNat 64 (lastJobs (e.warp c.core c.slot).subs m.toNat) }).ends) := by
  intro c e
  show execJwait x m s = _
  rw [execJwait, run_ok hs, if_neg active]
  rfl

/-! ### `jchk` and `jcan` (R283) -/

theorem exec_jchk_once {x : Ctl} {d st : BitVec 8} {s : State} (hs : s.Issues) {l : Nat} (once : Once (s.seen (.jchk x d st)) l [.k 0 d.toNat]) :
    let c := s.seen (.jchk x d st)
    let e := s.entering (.jchk x d st)
    let n := ((e.core c.core).jobs.filter fun j => j.slot = c.slot && j.card.stream = st.toNat).length
    let p := at_ (0, 0) (e.group c.core c.room).jchk st.toNat
    exec (.jchk x d st) s = .next (c.done (c.putK (e.modGroup c.core c.room fun g => { g with jchk := g.jchk.set st.toNat (0, 0) }) d
      (BitVec.ofNat 64 (n % 65536 + p.1 * 2 ^ 16 + p.2 % 256 * 2 ^ 32)))) := by
  intro c e n p
  show execJchk x d st s = _
  rw [execJchk, run_ok hs]
  simp only [once.lane, guard_ok once.usable, act_ok_bind, writeK_now, act_pure, finish_ok, c, e, n, p]

theorem exec_jcan_active {x : Ctl} {m : BitVec 8} {s : State} (hs : s.Issues) (active : (s.seen (.jcan x m)).act ≠ 0) :
    let c := s.seen (.jcan x m)
    let e := s.entering (.jcan x m)
    exec (.jcan x m) s = .next (c.done
      (((e.core c.core).jobs.filter fun j => j.slot = c.slot && tbit m.toNat j.card.stream && !j.performed).foldl
        (fun t j => t.finishJob c.core j.id 4) e)) := by
  intro c e
  show execJcan x m s = _
  rw [execJcan, run_ok hs, if_neg active, finish_ok]

end Sys2Proof.Machine

namespace Sys2Proof.EnginesAndFabric
open Sys2Proof.Machine

/-- Settles O30: what a submission finds, what a wait for jobs finds, then the report and the cancellation. -/
theorem jobInstructions : Obligations.JobInstructions := by
  refine ⟨fun x a s hs => ⟨fun idle => ?_, fun l once clean => ?_⟩, fun x m s hs => ?_,
    fun x d st s hs => ⟨fun idle => ?_, fun l once => exec_jchk_once hs once⟩, fun x m s hs => ⟨fun idle => ?_, exec_jcan_active hs⟩,
    fun r i x s waits gone seen => congrArg Host.Outcome.next (resume_ok waits (by simp) (Ctx.waitJobs_ok _ gone seen))⟩
  · show execJsub x a s = _
    exact run_idle hs (fun c e h => by simp only [lowest_of_idle h]) idle
  · intro q
    have ran := exec_jsub_once hs once clean
    refine ⟨fun busy => ?_, fun ps free first range sound => ⟨fun off bad => ?_, fun good => ?_⟩⟩
    · rw [ran, Ctx.submit_waits l _ busy, finish_wait]
    · rw [ran, Ctx.submit_refused l _ free first range sound bad, finish_trap]
    · rw [ran, Ctx.submit_ok l _ free first range sound good, finish_ok]
  · intro i c e aux mine
    refine ⟨fun idle => ?_, ?_⟩
    · show execJwait x m s = _
      exact run_idle hs (fun c e h => if_pos h) idle
    intro v b
    have awaits : e.awaited c.core c.slot b.value.toNat b.aux.toNat = mine := by
      have value : b.value.toNat = m.toNat := BitVec.toNat_setWidth_of_le (by decide)
      have numbers : b.aux.toNat = aux := (BitVec.toNat_ofNat aux 64).trans (Nat.mod_eq_of_lt (lastJobs_lt _ _))
      rw [value, numbers]
    rw [← awaits]
    refine ⟨fun active gone seen => ?_, fun active gone unseen => ?_, fun active left => ?_⟩
    · rw [exec_jwait_active hs active, Ctx.waitJobs_ok b gone seen, finish_ok]
    · rw [exec_jwait_active hs active, Ctx.waitJobs_asks b gone unseen, finish_wait]
    · rw [exec_jwait_active hs active, Ctx.waitJobs_waits b left, finish_wait]
  · show execJchk x d st s = _
    exact run_idle hs (fun c e h => by simp only [lowest_of_idle h]) idle
  · show execJcan x m s = _
    exact run_idle hs (fun c e h => if_pos h) idle

end Sys2Proof.EnginesAndFabric
end

section

namespace Sys2Proof.Machine

/-! ### A piece of a job's work (R117, R284) -/

@[simp] theorem work_ok_bind {α β : Type} (a : α) (f : α → Work β) : ((Except.ok a : Work α) >>= f) = f a := rfl
@[simp] theorem work_pure {α : Type} (a : α) : (pure a : Work α) = .ok a := rfl
@[simp] theorem mark_ok (t : State) (c id : Nat) : Work.mark (.ok t) c id = .ok t := rfl
@[simp] theorem drop_ok (t : State) (c : Nat) (j : Job) : Work.drop (.ok t) c j = .ok t := rfl

/-- The last access of a unit succeeds. The write is named up to unfolding: a statement spells a requantise target's codebook in its own `match`. -/
theorem mark_write {m : Work State} {t : State} (f : State → State) (c id : Nat) (write : m = .ok t) :
    Work.mark (do
      let s ← m
      return f s) c id = .ok (f t) := by
  rw [write, work_ok_bind, work_pure, mark_ok]

theorem aligned_ok (s : State) {a : Int} {n : Nat} (h : a % n = 0) : aligned s a n = .ok () := if_pos h

section
variable {s t : State} {c id : Nat} {j : Job} (job : s.job? c id = some j)
include job

/-- A piece of work that succeeds leaves what it gave, its refusals forgotten. -/
theorem State.jobStep_ok {body : Job → Engine → Work State} (ran : body j (s.engineOf c j) = .ok t) :
    s.jobStep c id body = t.forget (.job c id) := by
  have ran' : body j (s.jobEngine c j) = .ok t := ran
  simp only [State.jobStep, job, ran']

/-- A unit of a job that runs. -/
theorem State.jobUnit_ok {kind : Nat} {body : Job → Engine → Work State} (runs : j.Runs kind) (ran : body j (s.engineOf c j) = .ok t) :
    s.jobUnit c id kind body = t.forget (.job c id) := by
  refine State.jobStep_ok job ?_
  simp [runs.kind, runs.started, runs.going, Nat.not_le.mpr runs.left, ran]

/-! ### Acceptance, start and completion (R118, R119, R121, R122) -/

theorem State.jobStart_ok (accepted : j.accepted = true) (new : j.started = false) (going : j.ended = none) (free : j.edges = [])
    (start : (s.engineOf c j).start s j.card.startK j.card.startAddr j.card.startGen = .ok t) :
    s.jobStart c id = (t.modJob c id fun j => { j with started := true }).forget (.job c id) := by
  refine State.jobStep_ok job ?_
  simp [accepted, new, going, free, start]

section
variable (spent : j.over = true) (paid : j.owed = []) (ports : s.portsClear (some (s.group c j.room).owner) = true)
  (home : s.homeBusy (dieOf c) = false)
include spent paid ports home

theorem State.jobComplete_near (near : wideScope j.card.completion = false) : s.jobComplete c id = s.finishJob c id (j.ended.getD 0) := by
  simp [State.jobComplete, job, spent, paid, ports, home, near, State.release]

/-- At a wide scope the warp keeps what the completion released. -/
theorem State.jobComplete_wide (wide : wideScope j.card.completion = true)
    (settled : s.settled c (some (s.group c j.room).owner) j.seq = true) :
    let t := s.closeEpoch (dieOf c)
    s.jobComplete c id =
      (t.modWarp c j.slot fun w => { w with jvec := joinVec w.jvec (t.closedVec (dieOf c)) }).finishJob c id (j.ended.getD 0) := by
  simp [State.jobComplete, job, spent, paid, ports, home, wide, settled, State.release]

end
end

theorem State.jobAccept_ok {s : State} {c : Nat} {j : Job} (next : (s.core c).jobs.find? (fun j => !j.accepted) = some j)
    (room : ((s.core c).jobs.filter (·.accepted)).length < 64) :
    s.jobAccept c = s.modJob c j.id fun y => { y with
      accepted := true
      edges := ((s.core c).jobs.filter fun k =>
        k.accepted && k.room = j.room && k.card.stream = j.card.stream && (s.group c j.room).edge k.card j.card).map (·.id) } := by
  simp only [State.jobAccept, next]
  rw [if_neg (Nat.not_le.mpr room)]

theorem Job.over_iff (j : Job) : j.over = true ↔ (j.started = true ∧ j.card.units ≤ j.next) ∨ j.ended.isSome = true := by
  simp [Job.over]

/-- A courier's elements have the size that its card gives them. -/
theorem Card.esize_courier {k : Card} (h : k.kind = 2) : k.esize = 4 * 2 ^ field k.p0.toNat 3 2 := if_pos h

/-- A collective's elements have two bytes for BF16 and four otherwise. -/
theorem Card.esize_collective {k : Card} (h : k.kind = 3) : k.esize = if field k.p0.toNat 3 2 = 1 then 2 else 4 := if_neg (by omega)

end Sys2Proof.Machine

namespace Sys2Proof.EnginesAndFabric
open Sys2Proof.Machine

theorem jobScheduling : JobScheduling := by
  refine ⟨fun c j s next room => congrArg Host.Outcome.next (State.jobAccept_ok next room),
    fun c id j s t job accepted new going free start => congrArg Host.Outcome.next (State.jobStart_ok job accepted new going free start),
    fun c id j s job spent paid ports home => ?_⟩
  rw [← Job.over_iff] at spent
  exact ⟨fun near => congrArg Host.Outcome.next (State.jobComplete_near job spent paid ports home near),
    fun wide settled => congrArg Host.Outcome.next (State.jobComplete_wide job spent paid ports home wide settled)⟩

theorem jobUnits : JobUnits := by
  refine ⟨fun c id j s s1 s2 bs job runs read write => ?_,
    fun c id j s s1 s2 s3 ib bs job runs hia index clean ha read hb write => ?_,
    fun c id j s s1 s2 v job runs gathered ha write => ?_,
    fun c id j q t s s1 job runs shape grouped taken write => ?_⟩
  · refine congrArg Host.Outcome.next (State.jobUnit_ok job runs ?_)
    unfold Card.f0
    simp only [read, write, work_ok_bind, work_pure, mark_ok]
  · refine congrArg Host.Outcome.next (State.jobUnit_ok job runs ?_)
    have sound : (ib.any fun b => b.2) = false := by simpa using clean
    rw [Card.esize_courier runs.kind] at *
    unfold Card.f0
    simp only [aligned_ok _ hia, index, sound, Bool.false_eq_true, if_false, aligned_ok _ ha, read, aligned_ok _ hb, write, work_ok_bind, work_pure, mark_ok]
  · refine congrArg Host.Outcome.next (State.jobUnit_ok job runs ?_)
    rw [Card.esize_collective runs.kind] at *
    unfold Card.f0
    simp only [gathered, aligned_ok _ ha, write, work_ok_bind, work_pure, mark_ok]
  · refine congrArg Host.Outcome.next (State.jobUnit_ok job runs ?_)
    simp only [shape, groupLen, grouped, if_true]
    simp only [taken, work_ok_bind]
    exact mark_write _ c id write

theorem jobUpdates : JobUpdates := by
  refine ⟨fun c id j k o p bs s job owed settled object => ?_, fun c id j k o p bs b s job owed object counted => ?_⟩
  · refine congrArg Host.Outcome.next (State.jobStep_ok job ?_)
    simp only [owed, settled, Bool.not_true, Bool.false_eq_true, if_false, object, work_ok_bind, work_pure, drop_ok]
  · refine congrArg Host.Outcome.next (State.jobStep_ok job ?_)
    simp only [owed, object, counted, work_ok_bind, work_pure, drop_ok]

/-- Settles O31: the scheduler's three steps, a unit of each kind, and the updates that a job owes. -/
theorem jobSteps : Obligations.JobSteps := ⟨jobScheduling, jobUnits, jobUpdates⟩

end Sys2Proof.EnginesAndFabric
end

section

namespace Sys2Proof.Machine

/-! ### An issue slot (R335, R350, R253) -/

section
variable {s : State} {r : SplitRef} {i : Instr} {x : Words}

/-- What an issue sees: the other splits of its quadrant a turn older. -/
def State.chosen (s : State) (r : SplitRef) : State := { s.ageOthers r with cur := r }

theorem step_issue {c q : Nat} {rest : List Move} (offered : s.agenda = .issue c q :: rest) (runs : s.tripped = false)
    (choice : { s with agenda := rest }.choice c q = some r) : step s = { s with agenda := rest }.issue r := by
  rw [step, State.stepOnce, offered]
  dsimp only
  rw [if_neg (by simp [runs]), choice]

theorem State.issueCode_ready {n : Nat} {v : State} (kept : s.keepCode r n = (.ready, v)) : s.issueCode r n i = exec i v := by
  rw [State.issueCode, kept]

theorem State.issueCode_waits {n : Nat} {k : Came} {v : State} (waits : k ≠ .ready) (kept : s.keepCode r n = (k, v)) :
    s.issueCode r n i = .next v := by
  rw [State.issueCode, kept]
  cases k with
  | ready => exact absurd rfl waits
  | again => rfl
  | distant => rfl

section
variable (due : (s.chosen r).timerDue r = false) (fetched : (s.chosen r).fetch r = .instr i x)
include due fetched

theorem State.issue_one (front : (s.chosen r).fusedAt r i = .one) : s.issue r = (s.chosen r).issueCode r x.bytes i := by
  unfold State.chosen at *
  simp [State.issue, due, fetched, front]

theorem State.issue_fused {f : Instr} (front : (s.chosen r).fusedAt r i = .fused f) : s.issue r = (s.chosen r).issueCode r 32 f := by
  unfold State.chosen at *
  simp [State.issue, due, fetched, front]

end
end

/-! ### Code in the instruction cache (R142) -/

theorem State.keepLine_held {s : State} {r : SplitRef} {k : Nat}
    (held : ((s.core r.core).codeAt (s.groupOf r.core r.slot).lrec.asid (k * 64)).isSome = true) : s.keepLine r k = (.ready, s) := by
  simp [State.keepLine, held]

/-- Where every line of a split's next bytes is held, none is taken in. -/
theorem State.keepCode_held {s : State} {r : SplitRef} {x : Split} {n : Nat} (live : s.split? r = some x)
    (held : ∀ k ∈ spanOf ((s.groupOf r.core r.slot).lrec.khdr + 64 + x.pc.toNat) n 64,
      ((s.core r.core).codeAt (s.groupOf r.core r.slot).lrec.asid (k * 64)).isSome = true) : s.keepCode r n = (.ready, s) := by
  simp only [State.keepCode, live]
  generalize spanOf _ n 64 = ks at held
  induction ks with
  | nil => rfl
  | cons k rest ih =>
    rw [List.foldl_cons, State.keepLine_held (held k (by simp))]
    exact ih fun j hj => held j (by simp [hj])

/-! ### The fetch (R180, R202, R219) -/

theorem instrOf_ok {x : Words} {i : Instr} (h : decodeWords x = .ok i) : instrOf x = i := by
  rw [instrOf, h]

section
variable {s : State} {r : SplitRef} {x : Split} {a b : BitVec 32} {i : Instr} (live : (s.warp r.core r.slot).split r.split = some x)
  (even : x.pc.toNat % 4 = 0) (plus : 0 ≤ x.pc.toInt) (low : (s.groupOf r.core r.slot).lrec.khdr + 64 + x.pc.toNat + 13 ≤ 2 ^ 56)
  (first : s.codeWord r (s.groupOf r.core r.slot).lrec.asid x.mask ((s.groupOf r.core r.slot).lrec.khdr + 64 + x.pc.toNat) = .ok a)
  (second : s.codeWord r (s.groupOf r.core r.slot).lrec.asid x.mask ((s.groupOf r.core r.slot).lrec.khdr + 64 + x.pc.toNat + 4) = .ok b)
include live even plus low first second

theorem State.fetch_base (base : a.extractLsb' 0 8 ≠ 0xF0) (inside : x.pc.toNat + 8 ≤ (s.groupOf r.core r.slot).hdr.codesize)
    (decodes : decodeWords { w := b ++ a } = .ok i) : s.fetch r = .instr i { w := b ++ a } := by
  unfold State.groupOf at *
  rw [State.fetch, live]
  dsimp only
  rw [if_neg (not_not.mpr even), if_neg (by simp; omega), if_neg (by omega), first, second]
  dsimp only
  rw [if_neg base, instrOf_ok decodes]

theorem State.fetch_prefixed {d : BitVec 32} (pre : a.extractLsb' 0 8 = 0xF0) (inside : x.pc.toNat + 12 ≤ (s.groupOf r.core r.slot).hdr.codesize)
    (third : s.codeWord r (s.groupOf r.core r.slot).lrec.asid x.mask ((s.groupOf r.core r.slot).lrec.khdr + 64 + x.pc.toNat + 8) = .ok d)
    (decodes : decodeWords { pw := some a, w := d ++ b } = .ok i) : s.fetch r = .instr i { pw := some a, w := d ++ b } := by
  unfold State.groupOf at *
  rw [State.fetch, live]
  dsimp only
  rw [if_neg (not_not.mpr even), if_neg (by simp; omega), if_neg (by omega), first, second]
  dsimp only
  rw [if_pos pre, if_neg (by omega), if_neg (by omega), third]
  dsimp only
  rw [instrOf_ok decodes]

end

/-! ### The agenda's other moves (R335, R350, R359) -/

section
variable {s : State} {rest : List Move} (runs : s.tripped = false)
include runs

theorem step_event {i : Instr} (next : s.agenda = .event i :: rest) (event : isEvent i = true) : step s = exec i { s with agenda := rest } := by
  rw [step, State.stepOnce, next]
  exact if_pos (by simp [runs, event])

theorem step_time {ns cclk : Nat} (next : s.agenda = .time ns cclk :: rest) : step s = .next ({ s with agenda := rest }.pass ns cclk) := by
  rw [step, State.stepOnce, next]
  exact congrArg Host.Outcome.next (if_neg (by simp [runs]))

end

/-- Time adds to the clock of every core. -/
theorem State.clock_pass (s : State) (ns cclk : Nat) {c : Nat} (h : c < s.cores.length) :
    ((s.pass ns cclk).core c).clock = (s.core c).clock + BitVec.ofNat 64 cclk := by
  simp [State.pass, State.core, List.getD, h]

end Sys2Proof.Machine

namespace Sys2Proof.EnginesAndFabric
open Sys2Proof.Machine

theorem issueRunsDecoded : IssueRunsDecoded := by
  refine ⟨fun s c q r rest i x offered runs choice due fetched => ?_, fun s r x n live held => State.keepCode_held live held,
    fun s r x a b i live even plus low first second => ?_⟩
  · have issued := step_issue offered runs choice
    refine ⟨fun v front kept => ?_, fun f v front kept => ?_, fun k v waits front kept => ?_⟩
    · rw [issued, State.issue_one due fetched front]
      exact State.issueCode_ready kept
    · rw [issued, State.issue_fused due fetched front]
      exact State.issueCode_ready kept
    · rw [issued, State.issue_one due fetched front]
      exact State.issueCode_waits waits kept
  · exact ⟨fun base inside decodes => State.fetch_base live even plus low first second base inside decodes,
      fun d pre inside third decodes => State.fetch_prefixed live even plus low first second pre inside third decodes⟩

theorem agentsRun : AgentsRun :=
  ⟨fun _ _ _ next runs event => step_event runs next event,
    fun _ ns cclk _ next runs => ⟨_, step_time runs next, rfl, rfl, fun _ h => State.clock_pass _ ns cclk h⟩⟩

/-- Settles O50: what an issue slot runs once its code is held, what a fetch decodes, and the agenda's other moves. -/
theorem stepRunsDecoded : Obligations.StepRunsDecoded := ⟨issueRunsDecoded, agentsRun⟩

end Sys2Proof.EnginesAndFabric
end

section

namespace Sys2Proof
open Machine (ofBytes leBytes_length ofBytes_leBytes)

/-! ### Words at the head of a stream of bytes (R8, R180) -/

/-- A little-endian word is the number of its bytes, of those that are there. -/
theorem leWord_eq_ofBytes_take (n : Nat) (bs : List Byte) : leWord n bs = ofBytes (bs.take n) := by
  induction n generalizing bs with
  | zero => rfl
  | succ n ih =>
    cases bs with
    | nil => rfl
    | cons b bs => rw [leWord, List.take_succ_cons, ofBytes, ih]

theorem leWord_append {n : Nat} {bs : List Byte} (more : List Byte) (h : n ≤ bs.length) : leWord n (bs ++ more) = leWord n bs := by
  rw [leWord_eq_ofBytes_take, leWord_eq_ofBytes_take, List.take_append_of_le_length h]

/-- A word is read back from its bytes, whatever follows them. -/
theorem leWord_leBytes_append (n : Nat) (w : BitVec (8 * n)) (more : List Byte) : BitVec.ofNat (8 * n) (leWord n (leBytes n w.toNat ++ more)) = w := by
  have fits : w.toNat < 256 ^ n := by
    rw [show 256 = 2 ^ 8 from rfl, ← Nat.pow_mul]
    exact w.isLt
  rw [leWord_append more (leBytes_length n _).ge, leWord_eq_ofBytes_take, List.take_of_length_le (leBytes_length n _).le, ofBytes_leBytes,
    Nat.mod_eq_of_lt fits, BitVec.ofNat_toNat, BitVec.setWidth_eq]

theorem head?_leBytes_append {n : Nat} (w : BitVec n) (k : Nat) (more : List Byte) :
    (leBytes (k + 1) w.toNat ++ more).head? = some (w.extractLsb' 0 8) := by
  rw [leBytes, List.cons_append, List.head?_cons]
  exact congrArg some (BitVec.eq_of_toNat_eq (by simp))

/-- Words at the head of a stream: 12 bytes of it where the first is 0xF0, else 8 (R180). -/
theorem wordsOf_eq_some {bs : List Byte} {x : Words} : wordsOf bs = some x ↔
    (bs.head? = some 0xF0 ∧ 12 ≤ bs.length ∧ x = { pw := some (BitVec.ofNat 32 (leWord 4 bs)), w := BitVec.ofNat 64 (leWord 8 (bs.drop 4)) }) ∨
    (bs.head? ≠ some 0xF0 ∧ 8 ≤ bs.length ∧ x = { w := BitVec.ofNat 64 (leWord 8 bs) }) := by
  cases bs with
  | nil => simp [wordsOf]
  | cons b bs =>
    have first : (b :: bs).head? = some 0xF0 ↔ b = 0xF0 := by simp
    rw [first, Ne, first, wordsOf]
    by_cases front : b = 0xF0
    · rw [if_pos front]
      grind
    · rw [if_neg front]
      grind

/-- What stands behind the words at the head of a stream changes nothing about them. -/
theorem wordsOf_append {bs : List Byte} {x : Words} (more : List Byte) (h : wordsOf bs = some x) : wordsOf (bs ++ more) = some x := by
  have head_append : bs ≠ [] → (bs ++ more).head? = bs.head? := List.head?_append_of_ne_nil bs
  rw [wordsOf_eq_some] at h ⊢
  obtain ⟨first, long, rfl⟩ | ⟨first, long, rfl⟩ := h
  · have rest : 8 ≤ (bs.drop 4).length := by rw [List.length_drop]; omega
    refine .inl ⟨?_, ?_, ?_⟩
    · rw [head_append (List.ne_nil_of_length_pos (by omega)), first]
    · rw [List.length_append]; omega
    · rw [List.drop_append_of_le_length (by omega), leWord_append more (by omega), leWord_append more rest]
  · refine .inr ⟨?_, ?_, ?_⟩
    · rwa [head_append (List.ne_nil_of_length_pos (by omega))]
    · rw [List.length_append]; omega
    · rw [leWord_append more long]

/-- The words at the head of a stream are no longer than it, and of 8 or of 12 bytes. -/
theorem bytes_of_wordsOf {bs : List Byte} {x : Words} (h : wordsOf bs = some x) : (x.bytes = 8 ∨ x.bytes = 12) ∧ x.bytes ≤ bs.length := by
  obtain ⟨-, long, rfl⟩ | ⟨-, long, rfl⟩ := wordsOf_eq_some.mp h
  · exact ⟨.inr rfl, long⟩
  · exact ⟨.inl rfl, long⟩

/-! ### The bytes of words (R180) -/

/-- Whether the first byte of a set of words tells truly if a word stands in front (R180). -/
def Words.Marked (x : Words) : Prop :=
  match x.pw with
  | some p => p.extractLsb' 0 8 = 0xF0
  | none => x.w.extractLsb' 0 8 ≠ 0xF0

theorem toBytes_length (x : Words) : x.toBytes.length = x.bytes := by
  obtain ⟨_ | p, w⟩ := x
  · exact leBytes_length 8 _
  · rw [Words.toBytes, List.length_append, leBytes_length, leBytes_length]; rfl

theorem wordsOf_toBytes {x : Words} (marked : x.Marked) (rest : List Byte) : wordsOf (x.toBytes ++ rest) = some x := by
  rw [wordsOf_eq_some, List.length_append, toBytes_length]
  obtain ⟨_ | p, w⟩ := x
  · have bytes : ({ w := w } : Words).toBytes ++ rest = leBytes 8 w.toNat ++ rest := rfl
    rw [bytes, head?_leBytes_append w 7]
    exact .inr ⟨fun first => marked (Option.some.inj first), Nat.le_add_right 8 _, congrArg (Words.mk none) (leWord_leBytes_append 8 w rest).symm⟩
  · have bytes : ({ pw := some p, w := w } : Words).toBytes ++ rest = leBytes 4 p.toNat ++ (leBytes 8 w.toNat ++ rest) := List.append_assoc ..
    rw [bytes, head?_leBytes_append p 3, List.drop_left' (leBytes_length 4 _)]
    exact .inl ⟨congrArg some marked, Nat.le_add_right 12 _,
      congrArg₂ (fun p w => Words.mk (some p) w) (leWord_leBytes_append 4 p _).symm (leWord_leBytes_append 8 w rest).symm⟩

/-! ### What decoding answers (R180, R202) -/

theorem decode_ok {bs rest : List Byte} {i : Instr} : decode bs = .ok (i, rest) ↔
    ∃ x, wordsOf bs = some x ∧ decodeWords x = .ok i ∧ rest = bs.drop x.bytes := by
  unfold decode
  cases wordsOf bs with
  | none => simp
  | some x =>
    cases read : decodeWords x with
    | error _ => simp [Except.map, read]
    | ok _ => simp [Except.map, read, eq_comm]

/-! ### What encoding answers -/

/-- What `encode` gives: the illegal instruction its own words, every other its fields packed, behind the word in front that it carries. -/
theorem encode_cases {i : Instr} {z : Words} (h : encode i = some z) :
    (∃ pw w, i = .illegal pw w ∧ z = { pw := pw, w := w }) ∨
    ∃ w x, i.word64 = some w ∧ i.ctl? = some x ∧ z = { pw := x.pfx.map fun p => p.toPWord.pack, w := w.pack } := by
  unfold encode at h
  split at h
  · cases h
    exact .inl ⟨_, _, rfl, rfl⟩
  · split at h
    · cases h
      exact .inr ⟨_, _, ‹_›, ‹_›, rfl⟩
    · cases h

theorem illFront_isSome (p : PWord) : (illFront p).isSome := by
  simp only [illFront, firstDetail]
  split
  · rfl
  · split <;> rfl

/-- The byte 0xF0 begins no legal instruction word (R188, R202). -/
theorem op_ne_of_legal {x : Words} (legal : ill x = none) : x.w.extractLsb' 0 8 ≠ 0xF0 := by
  intro op
  have front := illFront_isSome ((x.pw.map PWord.unpack).getD {})
  rw [ill, op] at legal
  rw [if_neg (by decide), if_pos rfl] at legal
  rw [legal] at front
  cases front

/-- The words of a well-formed instruction are marked 0xF0 just where a word stands in front. -/
theorem marked_of_encode {i : Instr} {z : Words} (wf : i.WellFormed) (h : encode i = some z) : z.Marked := by
  obtain ⟨pw, w, rfl, rfl⟩ | ⟨w, x, word, ctl, -⟩ := encode_cases h
  · simp only [Instr.WellFormed, Instr.wf, Bool.and_eq_true, decide_eq_true_eq] at wf
    obtain ⟨op, front⟩ := wf
    cases pw with
    | none =>
      show w.extractLsb' 0 8 ≠ 0xF0
      rw [op]
      decide
    | some p =>
      show p.extractLsb' 0 8 = 0xF0
      simpa using front
  · obtain ⟨rfl, legal, -⟩ := roundTrip_parts word ctl wf h
    obtain ⟨la, ru, _ | p⟩ := x
    · exact op_ne_of_legal legal
    · exact congrArg PWord.op (PWord.unpack_pack p.toPWord)

end Sys2Proof

namespace Sys2Proof.Laws.RoundTrip

/-- R180 to R202: what `encode` gives a well-formed instruction decodes to it. The steps of other agents have no words. -/
theorem decodeWords_of_encode (i : Instr) : Statement i := by
  cases i with
  | illegal => exact illegal | nop => exact nop | bra => exact bra | brc => exact brc | brx => exact brx | call => exact call
  | calli => exact calli | ret => exact ret | rcv => exact rcv | waitj => exact waitj | exit => exact exit | endGroup => exact endGroup
  | trap => exact trap | sysc => exact sysc | bkpt => exact bkpt | yield => exact yield | iadd => exact iadd | isub => exact isub
  | imul => exact imul | imulh => exact imulh | imad => exact imad | idiv => exact idiv | irem => exact irem | imin => exact imin
  | imax => exact imax | iabs => exact iabs | and => exact and | or => exact or | xor => exact xor | shl => exact shl | shr => exact shr
  | sra => exact sra | popc => exact popc | clz => exact clz | brev => exact brev | bfe => exact bfe | bfi => exact bfi | icmp => exact icmp
  | sel => exact sel | mov => exact mov | movi => exact movi | lea => exact lea | iadd64 => exact iadd64 | setix => exact setix
  | bsel => exact bsel | ishf => exact ishf | imads => exact imads | imul64 => exact imul64 | kadd => exact kadd | ksub => exact ksub
  | kmul => exact kmul | kand => exact kand | kor => exact kor | kxor => exact kxor | kshl => exact kshl | kshr => exact kshr | kmov => exact kmov
  | kmovi => exact kmovi | kcmp => exact kcmp | rdsr => exact rdsr | wrsr => exact wrsr | vtok => exact vtok | mmov => exact mmov
  | kld => exact kld | fadd => exact fadd | fsub => exact fsub | fmul => exact fmul | ffma => exact ffma | fdiv => exact fdiv | fmin => exact fmin
  | fmax => exact fmax | fcmp => exact fcmp | fclass => exact fclass | fscale => exact fscale | frnd => exact frnd | hadd2 => exact hadd2
  | hmul2 => exact hmul2 | hfma2 => exact hfma2 | hmnx2 => exact hmnx2 | hcmp2 => exact hcmp2 | badd2 => exact badd2 | bmul2 => exact bmul2
  | bfma2 => exact bfma2 | fdot2 => exact fdot2 | cvt => exact cvt | cvtp => exact cvtp | cvti => exact cvti | cvtf => exact cvtf
  | fabs => exact fabs | fexp => exact fexp | fexp2 => exact fexp2 | flog2 => exact flog2 | frcp => exact frcp | frsq => exact frsq
  | fsqrt => exact fsqrt | fsin => exact fsin | fcos => exact fcos | ftanh => exact ftanh | fsig => exact fsig | actld => exact actld
  | actev => exact actev | actinfo => exact actinfo | shfl => exact shfl | poll => exact poll | matchLanes => exact matchLanes
  | raddf => exact raddf | rmaxf => exact rmaxf | rminf => exact rminf | rint => exact rint | scanf => exact scanf | scani => exact scani
  | segf => exact segf | segi => exact segi | bcast => exact bcast | shflo => exact shflo | ld => exact ld | st => exact st | ldl => exact ldl
  | stl => exact stl | lds => exact lds | sts => exact sts | ldw => exact ldw | stw => exact stw | ldt => exact ldt | stt => exact stt
  | ldx => exact ldx | stx => exact stx | orderedLoad => exact orderedLoad | orderedStore => exact orderedStore | atomAdd => exact atomAdd
  | atomSub => exact atomSub | atomMin => exact atomMin | atomMax => exact atomMax | atomUmin => exact atomUmin | atomUmax => exact atomUmax
  | atomAnd => exact atomAnd | atomOr => exact atomOr | atomXor => exact atomXor | atomExch => exact atomExch | atomCas => exact atomCas
  | atomFadd => exact atomFadd | fence => exact fence | ldd => exact ldd | std => exact std | cctlPrefetch => exact cctlPrefetch
  | cctlClean => exact cctlClean | cctlEvict => exact cctlEvict | cctlDiscard => exact cctlDiscard | barr => exact barr | barw => exact barw
  | barrw => exact barrw | swwait => exact swwait | cinc => exact cinc | crd => exact crd | tqpush => exact tqpush | tqpop => exact tqpop
  | fork => exact fork | joinc => exact joinc | gbar => exact gbar | jsub => exact jsub | jwait => exact jwait | jchk => exact jchk
  | jcan => exact jcan | mxq => exact mxq | mxrunResume => exact mxrunResume | mxrunSkip => exact mxrunSkip | mxrunAbort => exact mxrunAbort
  | mxcfg => exact mxcfg | mxcb => exact mxcb | mxwait => exact mxwait | mapbind => exact mapbind | mapld => exact mapld | mapst => exact mapst
  | maprel => exact maprel | mapinfo => exact mapinfo | srchbeg => exact srchbeg | srchend => exact srchend | trye => exact trye
  | fail => exact fail | cut => exact cut | cpmark => exact cpmark | cpchk => exact cpchk | trst => exact trst | steal => exact steal
  | waitjArrival | waitjTimeout | trapReturn | fusedSoftmax | longLatencyResult | barrierWaitEnd | arriveRetry | syncWaitEnd | tqpopWake
  | forkResume | joincApply | gbarComplete | jwaitEnd | jobAccept | jobStart | porterRow | courierElement | collectiveElement | requantiseGroup
  | jobComplete | syncRaise | barrierCountdown | engineWaitEnd | mxRecordFetch | mxRecordStart | mxKblock | blockedWaitEnd | timerTrap
  | storageError | pageTableWalk | l2SectorFill | l2Writeback | hbmSectorTransfer | bucketRefill | bucketEntryWrite | hbmScrub | keySlotDestroy
  | keySlotDestroyComplete | remoteWriteApply | remoteWriteAck | markReceive | closeRequest | epochTimeout | hostPostedWrite | packetArrival
  | orderedDelivery | ack | nak | close | packetResend | linkFrameReceive | invalidationBroadcast | invalidationReceipt | invalidationDrained
  | invalidationComplete | registerWindowWrite | debuggerWrite | windowHoldSet | windowHoldAck | windowHoldRelease | breakpointArm | stopRequest
  | singleStep | roomCardWrite | roomCardTakeUp | groupMakeResident | groupSave | groupRestore | sliceEnd | preemptDeadline | gangRelaunch
  | deficitUpdate | scanSlotStart | scanRun | scanDefer | scanResult | eyeMarginWindow | linkRetrainDone | linkRateRaise | linkReset | engineReset
  | partitionReset | partitionResetComplete | functionLevelReset | vfEnableClear | sqDoorbell | launch | launchComplete | cincEntry | cwait
  | cwaitSatisfied | nopEntry | adminDoorbell | qreg | codeload | codefree | keyreg | pagereg | resume | abandon | depthr | trace | fwstage | fwact
  | fwHandover | fwHeartbeat | fwRollback | duneshFailover | staleprWrite | registerWrite | atsTranslationReply | atsInvalidationRequest
  | pageRequestGroupResponse | getVersion | getCapabilities | negotiateAlgorithms | getDigests | getCertificate | challenge | getMeasurements
  | powerOn | thermalThrottle | thermalTrip | lanternLoad | lanternBreak | lanternDeleteAll | lanternRun | lanternCont | lanternPrint | lanternMem
  | lanternDis | lanternEvict | lanternCinc | hostRead | cxlCacheSnoop | privilegedAccess | partitionStart => exact fun _ _ he => nomatch he

end Sys2Proof.Laws.RoundTrip

namespace Sys2Proof.FormatsAndOpcodeMap

/-- Settles O54: the bytes of marked words give the words back, and the words the instruction. -/
theorem encodingRoundTrip : Obligations.EncodingRoundTrip := by
  intro i x rest wf enc
  rw [decode_ok]
  exact ⟨x, wordsOf_toBytes (marked_of_encode wf enc) rest, Laws.RoundTrip.decodeWords_of_encode i x wf enc, (List.drop_left' (toBytes_length x)).symm⟩

/-- Settles O55: decoding looks at the words at the head alone, and they have 8 or 12 bytes. -/
theorem decodeIsLocal : Obligations.DecodeIsLocal := by
  intro bs more rest i h
  obtain ⟨x, words, decodes, rfl⟩ := decode_ok.mp h
  obtain ⟨size, fits⟩ := bytes_of_wordsOf words
  exact ⟨decode_ok.mpr ⟨x, wordsOf_append more words, decodes, (List.drop_append_of_le_length fits).symm⟩, x.bytes, size, rfl, fits⟩

/-- Settles O53: each word is read as the tables of R181 to R200 lay it out. -/
theorem decodedWords : Obligations.DecodedWords := by
  unfold Obligations.DecodedWords
  decide +kernel

end Sys2Proof.FormatsAndOpcodeMap
end

section

namespace Sys2Proof.Machine

/-! ### Loads (R258, R259, R260) -/

/-- A load does what its rule says, whichever space and size it names. -/
theorem exec_load {i : Instr} {r : MemRule} (h : loadRule i = some r) (s : State) :
    exec i s = run i s fun c e => c.load e r.sp r.z r.d r.a r.o r.ord := by
  unfold loadRule plainRule at h
  split at h <;> cases h <;> rfl

/-! ### Bytes of registers (R8, R201) -/

theorem leBytes_add (m n x : Nat) : leBytes (m + n) x = leBytes m x ++ leBytes n (x / 256 ^ m) := by
  induction m generalizing x with
  | zero => simp [leBytes]
  | succ m ih => rw [Nat.add_right_comm, leBytes, leBytes, ih, List.cons_append, Nat.div_div_eq_div_mul, Nat.pow_succ']

/-- What a number has above its lowest bytes does not show in them. -/
theorem leBytes_add_above (n x y : Nat) : leBytes n (x + 256 ^ n * y) = leBytes n x := by
  induction n generalizing x with
  | zero => rfl
  | succ n ih =>
    have low : BitVec.ofNat 8 (x + 256 * (256 ^ n * y)) = BitVec.ofNat 8 x := by
      apply BitVec.eq_of_toNat_eq
      simp [Nat.add_mul_mod_self_left]
    rw [Nat.pow_succ', Nat.mul_assoc, leBytes, leBytes, low, Nat.add_mul_div_left _ _ (by decide), ih]

/-- The bytes of a register. -/
def LaneWord.bytes (w : LaneWord) : List Byte := leBytes 4 w.data.toNat

theorem LaneWord.ofBytes_bytes (w : LaneWord) : ofBytes w.bytes = w.data.toNat :=
  (ofBytes_leBytes 4 _).trans (Nat.mod_eq_of_lt w.data.isLt)

/-- Whole registers are stored one behind another in the order of their numbers. -/
theorem storeBytes_whole {z : Size} {ws : List LaneWord} (whole : Size.bytes z = 4 * ws.length) : storeBytes z ws = ws.flatMap LaneWord.bytes := by
  unfold storeBytes
  rw [whole]
  clear whole
  induction ws with
  | nil => rfl
  | cons w ws ih =>
    have low (acc : Nat) : (w.data.toNat + 2 ^ 32 * acc) / 256 ^ 4 = acc := by have := w.data.isLt; omega
    have high (acc : Nat) : leBytes 4 (w.data.toNat + 2 ^ 32 * acc) = w.bytes := leBytes_add_above 4 _ acc
    rw [List.length_cons, Nat.mul_succ, Nat.add_comm, List.foldr_cons, leBytes_add, low, high, ih, List.flatMap_cons]

/-- The registers that bytes of whole registers fill are those stored. -/
theorem words_of_bytes (ws : List LaneWord) (p : Bool) :
    ((List.range ws.length).map fun i => LaneWord.of (BitVec.ofNat 32 (ofBytes (((ws.flatMap LaneWord.bytes).drop (4 * i)).take 4))) p) =
      ws.map fun w => LaneWord.of w.data p := by
  induction ws with
  | nil => rfl
  | cons w ws ih =>
    have len : w.bytes.length = 4 := leBytes_length 4 _
    have first : (w.bytes ++ ws.flatMap LaneWord.bytes).take 4 = w.bytes := List.take_left' len
    have later (i : Nat) : (w.bytes ++ ws.flatMap LaneWord.bytes).drop (4 * (i + 1)) = (ws.flatMap LaneWord.bytes).drop (4 * i) := by
      rw [Nat.mul_succ, Nat.add_comm, ← List.drop_drop, List.drop_left' len]
    rw [List.length_cons, List.range_succ_eq_map, List.map_cons, List.map_map, List.flatMap_cons, List.map_cons, ← ih]
    refine congrArg₂ List.cons ?_ (List.map_congr_left fun i _ => ?_)
    · rw [Nat.mul_zero, List.drop_zero, first, LaneWord.ofBytes_bytes, BitVec.ofNat_toNat, BitVec.setWidth_eq]
    · rw [Function.comp_apply, Nat.succ_eq_add_one, later]

/-- The number that the bytes of a narrow store of one register hold: the register modulo its width. -/
theorem ofBytes_storeBytes (z : Size) (w : LaneWord) : ofBytes (storeBytes z [w]) = w.data.toNat % 256 ^ Size.bytes z := by
  rw [storeBytes, ofBytes_leBytes, List.foldr_cons, List.foldr_nil, Nat.mul_zero, Nat.add_zero]

theorem ofNat_mod_eq_and (v : W32) {n : Nat} (h : n ≤ 32) : BitVec.ofNat 32 (v.toNat % 2 ^ n) = v &&& BitVec.ofNat 32 (2 ^ n - 1) := by
  have fits : 2 ^ n ≤ 2 ^ 32 := Nat.pow_le_pow_right (by decide) h
  have pos : 0 < 2 ^ n := Nat.two_pow_pos n
  apply BitVec.eq_of_toNat_eq
  rw [BitVec.toNat_and, BitVec.toNat_ofNat, BitVec.toNat_ofNat, Nat.mod_eq_of_lt ((Nat.mod_lt _ pos).trans_le fits),
    Nat.mod_eq_of_lt (a := 2 ^ n - 1) (by omega), Nat.and_two_pow_sub_one_eq_mod]

theorem ofNat_mod_eq_setWidth (v : W32) (n : Nat) : BitVec.ofNat n (v.toNat % 2 ^ n) = v.setWidth n := by
  apply BitVec.eq_of_toNat_eq
  rw [BitVec.toNat_ofNat, Nat.mod_mod, BitVec.toNat_setWidth]

end Sys2Proof.Machine

namespace Sys2Proof.FormatsAndOpcodeMap
open Sys2Proof.Machine

/-- Settles O13: a load runs `Ctx.load`, whose two ends are `load_none` and `load_ok`. -/
theorem loadResults : Obligations.LoadResults := by
  intro i r s hr hs c e z
  have ran : exec i s = .next (State.finish c (c.load e r.sp r.z r.d r.a r.o r.ord).ends) := by rw [exec_load hr, run_ok hs]
  refine ⟨fun idle usable => ?_, fun accs ps e1 e' active usable addresses places kept observed trailed => ?_⟩
  · rw [ran, load_none usable idle]
    rfl
  · rw [ran, load_ok usable active addresses places kept observed trailed]
    rfl

/-- Settles O15: whole registers by `storeBytes_whole` and `words_of_bytes`, narrow ones by the number that their bytes hold. -/
theorem storedWordsLoadBack : Obligations.StoredWordsLoadBack := by
  have whole {z : Size} {ws : List LaneWord} (p : Bool) (h : Size.bytes z = 4 * ws.length) :
      ((List.range ws.length).map fun i => LaneWord.of (BitVec.ofNat 32 (ofBytes (((storeBytes z ws).drop (4 * i)).take 4))) p) =
        ws.map fun w => LaneWord.of w.data p := by rw [storeBytes_whole h, words_of_bytes]
  refine ⟨fun w p => ⟨?_, ?_, ?_, ?_, ?_⟩, fun w x p => whole p rfl, fun w x y z p => whole p rfl⟩
  · rw [loadWords, ofBytes_storeBytes]
    exact congrArg (fun v => [LaneWord.of v p]) ((ofNat_mod_eq_setWidth w.data 32).trans w.data.setWidth_eq)
  · rw [loadWords, ofBytes_storeBytes]
    exact congrArg (fun v => [LaneWord.of v p]) (ofNat_mod_eq_and w.data (n := 8) (by decide))
  · rw [loadWords, ofBytes_storeBytes]
    exact congrArg (fun v => [LaneWord.of v p]) (ofNat_mod_eq_and w.data (n := 16) (by decide))
  · rw [loadWords, ofBytes_storeBytes]
    exact congrArg (fun v => [LaneWord.of (v.signExtend 32) p]) (ofNat_mod_eq_setWidth w.data 8)
  · rw [loadWords, ofBytes_storeBytes]
    exact congrArg (fun v => [LaneWord.of (v.signExtend 32) p]) (ofNat_mod_eq_setWidth w.data 16)

end Sys2Proof.FormatsAndOpcodeMap
end

section

namespace Sys2Proof.Machine

/-! ### Traps and the return from a handler (R224, R346, R347) -/

/-- ILL of every lane of the split, with its detail (R202). -/
theorem exec_illegal {pw : Option (BitVec 32)} {w : BitVec 64} {n : Nat} (h : ill { pw := pw, w := w } = some n) (s : State) :
    exec (.illegal pw w) s = run (.illegal pw w) s fun c e => stop (.trap { cause := 0x01, lanes := c.x.mask, detail := n }) e := by
  show execIllegal pw w s = _
  rw [execIllegal, h]
  rfl

/-- `trap` runs one way from either of its rows (R224, R347). -/
theorem exec_softTrap {i : Instr} {x : Ctl} {imm : W32} (h : i = .trap x imm ∨ i = .trapReturn x imm) (s : State) :
    exec i s = run i s fun c e => c.softTrap e imm := by
  obtain rfl | rfl := h <;> rfl

theorem Ctx.softTrap_raises {c : Ctx} {imm : W32} (s : State) (h : c.w.returns c.sp imm = false) :
    c.softTrap s imm = stop (.trap { cause := 0x02, lanes := c.x.mask, imm := some (BitVec.ofInt 64 imm.toInt) }) s :=
  if_neg (by simp [h])

theorem Ctx.softTrap_returns {c : Ctx} {imm : W32} (s : State) (h : c.w.returns c.sp imm = true) :
    c.softTrap s imm = stop .moved (s.modWarp c.core c.slot fun w => w.trapReturn c.sp imm.toNat) :=
  if_pos h

/-- The split that entered a handler stands at the handler with its own lanes (R346). -/
theorem Warp.split_entered {w : Warp} {i : Nat} {x : Split} (handler : Nat) (t : TrapRegs) (live : w.split i = some x) :
    (w.entered i x handler t).split i = some { x with pc := BitVec.ofNat 64 handler, ra := none, pend := none } := by
  have inside : i < w.splits.length := by
    by_contra out
    rw [Warp.split, List.getD_eq_default _ _ (by omega)] at live
    cases live
  rw [Warp.split, Warp.entered, List.getD_eq_getElem?_getD, List.getElem?_set_self inside]
  rfl

end Sys2Proof.Machine

namespace Sys2Proof.FormatsAndOpcodeMap
open Sys2Proof.Machine

theorem trapResults : TrapResults := by
  refine ⟨fun pw w n s live illegal => ?_, fun i x imm s which live => ?_⟩
  · rw [exec_illegal illegal, run_ok live]
    rfl
  · refine ⟨fun raises => ?_, fun returns => ?_⟩
    · rw [exec_softTrap which, run_ok live, Ctx.softTrap_raises _ raises]
      rfl
    · rw [exec_softTrap which, run_ok live, Ctx.softTrap_returns _ returns]
      rfl

theorem handlerReturns : HandlerReturns := by
  intro w i n handler x t outside saved stopped _ live same
  have entered := Warp.split_entered handler t live
  refine ⟨?_, ?_⟩
  · simp only [Warp.returns, entered]
    simp [Warp.entered]
  · simp only [Warp.trapReturn, entered]
    simp only [Warp.entered, List.set_set, same, outside, saved, stopped]

/-- Settles O24: the trap of each instruction, and the return as the entry's inverse. -/
theorem trapsAndReturns : Obligations.TrapsAndReturns := ⟨trapResults, handlerReturns⟩

end Sys2Proof.FormatsAndOpcodeMap
end

section

namespace Sys2Proof.Machine

/-! ### Admin commands (R391) -/

/-- Each command's doorbell begins an entry of that command. -/
theorem exec_admin {i : Instr} {fn cmd : Nat} {f : AdminCmd → State → State × Option (Nat × Nat)} (h : adminRule i = some (fn, cmd, f)) (s : State) :
    exec i s = .next (s.adminBegin fn cmd f) := by
  unfold adminRule at h
  split at h <;> cases h <;> rfl

section
variable {c : AdminCmd} {s : State}

/-! ### Rings, keys and ranges (R328, R351, R382, R391) -/

theorem State.qreg_submission (ring : c.arg1 % 32 ≤ 15) (size : 4 ≤ field c.arg1 11 8) :
    s.qreg c = (s.modFn c.target fun f =>
      { f with sqs := f.sqs.set (c.arg1 % 32) { base := c.addr, size := 2 ^ field c.arg1 11 8, vec := c.arg2, phase := true } }, some (0, 0)) := by
  have n : field c.arg1 4 0 = c.arg1 % 32 := by simp [field]
  have known : ¬ (17 < c.arg1 % 32 || field c.arg1 11 8 < 4) = true := by simp; omega
  rw [State.qreg]
  dsimp only
  rw [n, if_neg known]
  simp only [show c.arg1 % 32 ≠ 16 by omega, show c.arg1 % 32 ≠ 17 by omega, if_false]
  rfl

theorem State.keyreg_clear (slot : c.arg1 ≤ 3) (clear : c.addr = 0) :
    s.keyreg c = (s.modFn c.target fun f => { f with keys := f.keys.set c.arg1 none }, some (0, 0)) := by
  rw [State.keyreg, if_neg (by omega), if_pos clear]
  rfl

theorem State.keyreg_load {u : State} {k : List Byte} (slot : c.arg1 ≤ 3) (key : c.addr ≠ 0) (read : s.innBytes c.target c.addr 64 = (u, some k)) :
    s.keyreg c = (u.modFn c.target fun f => { f with keys := f.keys.set c.arg1 (some k) }, some (0, 0)) := by
  rw [State.keyreg, if_neg (by omega), if_neg key, read]
  rfl

theorem State.pagereg_ok (base : c.addr % 4096 = 0) (len : c.arg1 % 4096 = 0) (asid : s.asidPart c.arg2 = some (s.partOf c.target))
    (room : (s.fns.getD c.target {}).pageable.length < 16) :
    s.pagereg c = (s.modFn c.target fun f => { f with pageable := f.pageable ++ [(c.addr, c.arg1, c.arg2)] }, some (0, 0)) := by
  rw [State.pagereg, if_neg (not_not.mpr base), if_neg (not_not.mpr len), if_neg (not_not.mpr asid), if_neg (by omega)]
  rfl

theorem State.setTrace_ok (len : c.arg1 % 64 = 0) :
    s.setTrace c = (s.modFn c.target fun f => { f with traceBuf := (c.addr, c.arg1, 0) }, some (0, 0)) :=
  if_neg (not_not.mpr len)

/-! ### Launches (R207, R351, R391) -/

section
variable {i : Nat} (runs : s.launchAt c.target c.addr = some i)
include runs

theorem State.abandonLaunch_ok : s.abandonLaunch c = ((s.dropLaunch i).modLaunch i fun l => { l with abandoned := true }, some (0, 0)) := by
  rw [State.abandonLaunch, runs]
  rfl

theorem State.setDepthr_ok :
    s.setDepthr c = (s.modLaunch i fun l => { l with depThr := BitVec.ofNat 64 c.arg1, depVec := c.arg2 }, some (0, 0)) := by
  rw [State.setDepthr, runs]
  rfl

theorem State.resumeGroup_ok {v : Saved} (saved : s.savedOf i c.arg1 = some v) (waits : v.state = 3 ∨ v.state = 4) :
    s.resumeGroup c = ({ s with saved := s.saved.map fun x => if x = v then { x with eligible := true } else x }, some (0, 0)) := by
  rw [State.resumeGroup, runs]
  dsimp only
  rw [saved]
  exact if_pos (by simpa using waits)

end

/-! ### Images (R142, R391, R394) -/

theorem State.codefree_ok {im : Nat × Nat} (loaded : ((s.fns.getD c.target {}).images.find? fun i => i.1 = c.addr) = some im)
    (unused : s.usesImage c.target im = false) :
    s.codefree c = (s.modFn c.target fun f => { f with images := f.images.erase im }, some (0, 0)) := by
  rw [State.codefree, loaded]
  dsimp only
  rw [unused]
  rfl

theorem State.codeload_done {base len : Nat} (loading : (s.fns.getD c.target {}).loading = some (base, len)) (ended : s.inval = none) :
    s.codeload c = (s.modFn c.target fun f => { f with loading := none, images := f.images ++ [(base, len)] }, some (0, base)) := by
  rw [State.codeload]
  dsimp only
  rw [loading]
  dsimp only
  rw [ended]
  rfl

section
variable {u : State} {obj : List Byte} (idle : (s.fns.getD c.target {}).loading = none) (short : c.arg1 ≤ 2 ^ 26)
  (read : s.innBytes c.target c.addr c.arg1 = (u, some obj))
include idle short read

theorem State.codeload_refused {n : Nat} (bad : verifyObject (s.fns.getD c.target {}).keys obj = .error n) : s.codeload c = (u, some (7, n)) := by
  rw [State.codeload]
  dsimp only
  rw [idle]
  dsimp only
  rw [if_neg (by omega), read]
  dsimp only
  rw [bad]

theorem State.codeload_begin {code : List Byte} (good : verifyObject (s.fns.getD c.target {}).keys obj = .ok code) (free : u.inval = none) :
    let base := (Config.openValue u.draws).toNat % 2 ^ 48 / 4096 * 4096
    let t := ({ u with draws := u.draws + 1 } : State).fnWrite c.target base code
    s.codeload c = ((t.modFn c.target fun f => { f with loading := some (base, code.length) }).invalBegin
      (.ipa (t.partOf c.target) base code.length), none) := by
  intro base t
  rw [State.codeload]
  dsimp only
  rw [idle]
  dsimp only
  rw [if_neg (by omega), read]
  dsimp only
  rw [good]
  dsimp only
  exact if_neg (by simp [free])

end

/-! ### Firmware (R398, R399) -/

/-- FWSTAGE once every page of the image has a translation that may be read. -/
theorem State.fwstage_read (fits : c.addr + c.arg1 ≤ 2 ^ 43) (mapped : s.hostGaps c.addr c.arg1 = [])
    (readable : ∀ i < c.arg1, ∃ a ∈ s.atc, a.fn = 0 ∧ a.page = (c.addr + i) / 4096 ∧ a.r = true) :
    let r := s.readAt s.dunesh {} (0x80000000000 + c.addr) c.arg1
    let x := Config.fwImage r.1
    s.fwstage c = if r.2 || !x.2.2 || x.2.1 < Config.fusedMinimum then ({ s with fw := s.fw.setOther {} }, some (7, 0))
      else ({ s with fw := s.fw.setOther { bytes := r.1, version := x.1, secver := x.2.1, staged := true } }, some (0, 0)) := by
  intro r x
  have readAll : ¬ ((List.range c.arg1).any fun i => !s.atc.any fun a => a.fn = 0 && a.page = (c.addr + i) / 4096 && a.r) = true := by
    simpa [and_assoc] using readable
  rw [State.fwstage]
  dsimp only
  rw [if_neg (by omega), mapped, if_neg (by simp), if_neg readAll]
  rfl

theorem State.fwact_staged (staged : s.fw.other.staged = true) : s.fwact c = ({ s with
    fw := { s.fw with phase := .quiescing, since := s.gtime, fn := c.fn, tag := c.tag }
    fns := s.fns.map fun f => { f with updating := true } }, none) :=
  if_neg (by simp [staged])

theorem State.fwact_empty (empty : s.fw.other.staged = false) : s.fwact c = (s, some (1, 0)) :=
  if_pos (by simp [empty])

end

end Sys2Proof.Machine

namespace Sys2Proof.FormatsAndOpcodeMap
open Sys2Proof.Machine

/-- Settles O46: how an entry begins and completes, and each command by its own lemma. -/
theorem adminCommands : Obligations.AdminCommands := by
  refine ⟨fun i fn cmd e f s rule entry is => ⟨fun o bad => ?_, fun good t st d runs => ?_, fun good t runs => ?_⟩,
    fun c s => State.qreg_submission, fun c s => State.keyreg_clear, fun c s => State.pagereg_ok,
    fun c i s runs => ⟨State.abandonLaunch_ok runs, State.setDepthr_ok runs, fun v => State.resumeGroup_ok runs⟩,
    fun c s => State.setTrace_ok, fun c im s => State.codefree_ok, fun c u k s => State.keyreg_load,
    fun c u obj code s idle short read => ⟨fun n => State.codeload_refused idle short read, State.codeload_begin idle short read⟩,
    fun c base len s => State.codeload_done, fun c s fits mapped readable => ⟨fun clean signed recent => ?_, fun refused => ?_⟩,
    fun c s => State.fwact_staged, fun c s => State.fwact_empty⟩
  · rw [exec_admin rule, adminBegin_bad entry is bad]
  · rw [exec_admin rule, adminBegin_some entry is good runs]
  · rw [exec_admin rule, adminBegin_none entry is good runs]
  · rw [State.fwstage_read fits mapped readable]
    exact if_neg (by simpa [clean, signed] using recent)
  · rw [State.fwstage_read fits mapped readable]
    exact if_pos (by simpa [or_assoc] using refused)

end Sys2Proof.FormatsAndOpcodeMap
end

section

namespace Sys2Proof.Machine

/-! ### Lane-wise integer results (R209, R210) -/

/-- A lane-wise instruction run by a rule: its operands as 32-bit integers, its result by the rule's function, no flags. -/
def LaneRule.run (r : LaneRule) (i : Instr) (s : State) : Host.Outcome State Fault Refusal :=
  Machine.run i s fun c e => c.laneWise e r.long false r.d (r.ops.map fun o => (o.1, o.2, OpFmt.i32)) fun x => (r.f c.sat x, 0)

theorem int1_eq_run {i : Instr} {s : State} {d : Dst} {a : Src} {f : Ctx → W32 → W32} {g : Bool → List W32 → W32}
    (h : ∀ c x, f c (arg x 0) = g c.sat x) : int1 i s d a f = LaneRule.run ⟨false, d, [(1, a)], g⟩ i s := by
  simp only [LaneRule.run, ← h]
  rfl

theorem int2_eq_run {i : Instr} {s : State} {long : Bool} {d : Dst} {a b : Src} {f : Ctx → W32 → W32 → W32} {g : Bool → List W32 → W32}
    (h : ∀ c x, f c (arg x 0) (arg x 1) = g c.sat x) : int2 i s long d a b f = LaneRule.run ⟨long, d, [(1, a), (2, b)], g⟩ i s := by
  simp only [LaneRule.run, ← h]
  rfl

theorem int3_eq_run {i : Instr} {s : State} {d : Dst} {a b k : Src} {f : Ctx → W32 → W32 → W32 → W32} {g : Bool → List W32 → W32}
    (h : ∀ c x, f c (arg x 0) (arg x 1) (arg x 2) = g c.sat x) :
    int3 i s d a b k f = LaneRule.run ⟨false, d, [(1, a), (2, b), (3, k)], g⟩ i s := by
  simp only [LaneRule.run, ← h]
  rfl

/-- Clamped with SAT, else the word that the exact integer wraps to. -/
theorem sat_or_wrapped {x : Int} {w : W32} (t : Bool) (wraps : BitVec.ofInt 32 x = w) : (if t then sat32 x else w) = narrow t x := by
  cases t
  · exact wraps.symm
  · exact sat32_eq_narrow x

theorem minWord (u : Bool) (a b : W32) : (if below u b a then b else a) =
    if u then BitVec.ofNat 32 (min a.toNat b.toNat) else BitVec.ofInt 32 (min a.toInt b.toInt) := by
  cases u
  · simpa [below] using smin_eq_ofInt a b
  · simpa [below] using umin_eq_ofNat a b

theorem maxWord (u : Bool) (a b : W32) : (if below u a b then b else a) =
    if u then BitVec.ofNat 32 (max a.toNat b.toNat) else BitVec.ofInt 32 (max a.toInt b.toInt) := by
  cases u
  · simpa [below] using smax_eq_ofInt a b
  · simpa [below] using umax_eq_ofNat a b

theorem absWord (t : Bool) (a : W32) :
    (if t then sat32 (if a.toInt < 0 then -a.toInt else a.toInt) else if a.toInt < 0 then -a else a) = narrow t (a.toInt.natAbs : Int) := by
  rw [abs_toInt_eq_natAbs]
  exact sat_or_wrapped t (abs_eq_ofInt_natAbs a).symm

/-- Every instruction of the table of R210 runs by its rule. -/
theorem exec_eq_run {i : Instr} {r : LaneRule} (rule : intRule i = some r) (s : State) : exec i s = r.run i s := by
  unfold intRule at rule
  split at rule
  case h_22 x cc tomask d a b => -- `icmp`
    split at rule
    · cases rule
    next lanes =>
      cases rule
      show execIcmp x cc tomask d a b s = _
      simp only [execIcmp, lanes, Bool.false_eq_true, if_false]
      rfl
  case h_28 => cases rule
  all_goals
    cases rule
    simp only [exec, execIadd, execIsub, execImul, execImulh, execImad, execIdiv, execIrem, execImin, execImax, execIabs, execAnd, execOr, execXor,
      execShl, execShr, execSra, execPopc, execClz, execBrev, execBfe, execBfi, execSel, execMov, execMovi, execBsel, execIshf]
  · exact int2_eq_run fun c _ => sat_or_wrapped c.sat (ofInt_add_toInt _ _) -- `iadd`
  · exact int2_eq_run fun c _ => sat_or_wrapped c.sat (ofInt_sub_toInt _ _) -- `isub`
  · exact int2_eq_run fun _ _ => (ofInt_mul_toInt _ _).symm -- `imul`
  · exact int2_eq_run fun _ _ => rfl -- `imulh`
  · exact int3_eq_run fun c _ => sat_or_wrapped c.sat (ofInt_mad_toInt _ _ _) -- `imad`
  · exact int2_eq_run fun _ _ => rfl -- `idiv`
  · exact int2_eq_run fun _ _ => rfl -- `irem`
  · exact int2_eq_run fun _ _ => minWord _ _ _ -- `imin`
  · exact int2_eq_run fun _ _ => maxWord _ _ _ -- `imax`
  · exact int1_eq_run fun c _ => absWord c.sat _ -- `iabs`
  · exact int2_eq_run fun _ _ => rfl -- `and`
  · exact int2_eq_run fun _ _ => rfl -- `or`
  · exact int2_eq_run fun _ _ => rfl -- `xor`
  · exact int2_eq_run fun _ _ => shl_eq_ofNat _ _ -- `shl`
  · exact int2_eq_run fun _ _ => shr_eq_ofNat _ _ -- `shr`
  · exact int2_eq_run fun _ _ => sra_eq_ofInt _ _ -- `sra`
  · exact int1_eq_run fun _ _ => congrArg (BitVec.ofNat 32) (popMask_eq_countP _) -- `popc`
  · exact int1_eq_run fun _ _ => rfl -- `clz`
  · exact int1_eq_run fun _ _ => wordOf_reverse _ -- `brev`
  · exact int2_eq_run fun _ _ => bfeWord_eq_ofNat _ _ -- `bfe`
  · exact int3_eq_run fun _ _ => rfl -- `bfi`
  · exact int3_eq_run fun _ _ => rfl -- `sel`
  · exact int1_eq_run fun _ _ => rfl -- `mov`
  · rfl -- `movi`
  · exact int3_eq_run fun _ _ => rfl -- `bsel`
  · exact int3_eq_run fun _ _ => funnel_eq_ofNat _ _ _ -- `ishf`

/-- What a rule writes when its operands may be read and the trail has taken what it must. -/
theorem LaneRule.run_ok {r : LaneRule} {i : Instr} {s e' : State} (hs : s.Issues)
    (usable : (s.seen i).Usable (s.seen i).act r.needs (r.ops.map fun o => (o.2, OpFmt.i32))) :
    let c := s.seen i
    let vals := r.ops.map fun o => c.vec (s.entering i) c.act o.2 .i32
    let ws := c.laneWrites r.d 1 ((lanesOf c.act).map fun l => (l, [laneResult (r.f c.sat) vals l]))
    c.Trails (s.entering i) ws e' → r.run i s = .next (c.done (c.commit e' r.long (namesOf ws) ws)) := by
  intro c vals ws trails
  have written := laneWise_ok (c := c) (s := s.entering i) (s' := e') (long := r.long) (flags := false) (d := r.d)
    (ops := r.ops.map fun o => (o.1, o.2, OpFmt.i32)) (f := fun x => (r.f c.sat x, 0))
    (by simpa [LaneRule.needs, List.flatMap_map, Function.comp_def] using usable)
    (by simpa [Function.comp_def] using trails)
  simp only [List.map_map, Function.comp_def, Bool.false_eq_true, if_false, List.append_nil] at written
  rw [LaneRule.run, Machine.run_ok hs, written]
  rfl

end Sys2Proof.Machine

namespace Sys2Proof.IntegerAndControl
open Sys2Proof.Machine

/-- Settles O1: each instruction runs by its rule of R210, and what a rule writes is said once. -/
theorem integerLaneResults : Obligations.IntegerLaneResults := by
  intro i r s e' rule hs c e vals ws usable trails
  rw [exec_eq_run rule s]
  exact LaneRule.run_ok hs usable trails

end Sys2Proof.IntegerAndControl
end

section

namespace Sys2Proof.Machine

/-! ### Pair results (R43, R209, R210) -/

theorem ofInt_two_pow (n : Nat) : BitVec.ofInt 64 (2 ^ n) = BitVec.twoPow 64 n := by
  rw [show ((2 : Int) ^ n) = ((2 ^ n : Nat) : Int) by norm_cast, BitVec.ofInt_natCast]
  exact BitVec.eq_of_toNat_eq (by rw [BitVec.toNat_ofNat, BitVec.toNat_twoPow])

/-- `lea` on exact integers. -/
theorem ofInt_lea (x : W64) (y : W32) (n : Nat) : x + y.signExtend 64 <<< n = BitVec.ofInt 64 (x.toInt + y.toInt * 2 ^ n) := by
  rw [BitVec.ofInt_add, BitVec.ofInt_toInt, BitVec.ofInt_mul, ofInt_two_pow, BitVec.shiftLeft_eq_mul_twoPow]
  rfl

/-- The words of a pair result. -/
theorem pairWords_of (x : W64) (p : Bool) :
    [LaneWord.of ((KReg.of x p).data.setWidth 32) (KReg.of x p).poison, LaneWord.of ((KReg.of x p).data.extractLsb' 32 32) (KReg.of x p).poison] =
      pairWords x p := by
  cases p <;> rfl

theorem writePairs_ok {c : Ctx} {s s' : State} {d : Dst} {f : Nat → W64 × Bool} :
    let ws := c.laneWrites d 2 ((lanesOf c.act).map fun l => (l, pairWords (f l).1 (f l).2))
    c.Trails s ws s' → c.writePairs s d ((lanesOf c.act).map fun l => (l, KReg.of (f l).1 (f l).2)) = .ok (c.commit s' false (namesOf ws) ws) := by
  intro ws trails
  simp only [Ctx.writePairs, List.map_map, Function.comp_def, pairWords_of]
  rw [writeLanes_ok trails, List.append_nil, List.append_nil]

/-- Each instruction with a pair result runs by its rule. -/
theorem exec_pairRule {i : Instr} {r : PairRule} (rule : pairRule i = some r) (s : State) : exec i s = run i s fun c e =>
    c.guard e c.act r.needs r.maps >>= fun _ => c.writePairs e r.d ((lanesOf c.act).map fun l => (l, KReg.of (r.res c e l).1 (r.res c e l).2)) := by
  unfold pairRule at rule
  split at rule
  · cases rule
    simp only [exec, execLea, ofInt_lea]
  · cases rule
    simp only [exec, execIadd64, BitVec.add_def]
  · cases rule
    simp only [exec, execImul64]
  · cases rule

theorem pairResults : PairResults := by
  intro i r s e' rule hs c e ws usable trails
  rw [exec_pairRule rule, run_ok hs, guard_ok usable, act_ok_bind, writePairs_ok trails, finish_ok]

/-! ### Uniform arithmetic (R212, R213) -/

theorem writeK_word (c : Ctx) (e : State) (d : BitVec 8) (x : W64) (p : Bool) :
    c.writeK e false d { data := x, poison := p } = e.writeRegs c.core c.slot [.k d.toNat (uniformWord x p)] := rfl

theorem writeK_uniform (c : Ctx) (e : State) (d : BitVec 8) (x : W64) (p : Bool) :
    c.writeK e false d (KReg.of x p) = e.writeRegs c.core c.slot [.k d.toNat (uniformWord x p)] := by
  cases p <;> rfl

theorem shl_eq_zero_or_ofNat (x : W64) (n : Nat) : x <<< n = if n < 64 then BitVec.ofNat 64 (x.toNat * 2 ^ n) else 0 := by
  split
  next => exact BitVec.eq_of_toNat_eq (by rw [BitVec.toNat_shiftLeft, BitVec.toNat_ofNat, Nat.shiftLeft_eq])
  next far => exact BitVec.shiftLeft_eq_zero (Nat.not_lt.mp far)

theorem shr_eq_zero_or_ofNat (x : W64) (n : Nat) : x >>> n = if n < 64 then BitVec.ofNat 64 (x.toNat / 2 ^ n) else 0 := by
  split
  next =>
    apply BitVec.eq_of_toNat_eq
    rw [BitVec.toNat_ushiftRight, Nat.shiftRight_eq_div_pow, BitVec.toNat_ofNat, Nat.mod_eq_of_lt ((Nat.div_le_self _ _).trans_lt x.isLt)]
  next far => exact BitVec.ushiftRight_eq_zero (Nat.not_lt.mp far)

theorem ofInt_sub_toNat (x y : W64) : x - y = BitVec.ofInt 64 ((x.toNat : Int) - y.toNat) := by
  rw [Int.sub_eq_add_neg, BitVec.ofInt_add, BitVec.ofInt_neg, BitVec.ofInt_natCast, BitVec.ofInt_natCast, BitVec.ofNat_toNat, BitVec.ofNat_toNat,
    BitVec.setWidth_eq, BitVec.setWidth_eq, BitVec.sub_eq_add_neg]

theorem uni2_congr {i : Instr} {s : State} {d : BitVec 8} {a b : Src} {f g : W64 → W64 → W64} (h : ∀ x y, f x y = g x y) :
    uni2 i s d a b f = uni2 i s d a b g := by
  rw [funext₂ h]

/-- Each instruction of uniform arithmetic runs by its rule. -/
theorem exec_uniformRule {i : Instr} {d : BitVec 8} {a b : Src} {f : W64 → W64 → W64} (rule : uniformRule i = some (d, a, b, f)) (s : State) :
    exec i s = uni2 i s d a b f := by
  unfold uniformRule at rule
  split at rule
  case h_10 => cases rule
  all_goals
    cases rule
    simp only [exec, execKadd, execKsub, execKmul, execKand, execKor, execKxor, execKshl, execKshr, execKcmp]
  · exact uni2_congr BitVec.add_def
  · exact uni2_congr ofInt_sub_toNat
  · exact uni2_congr fun _ _ => BitVec.eq_of_toNat_eq (by rw [BitVec.toNat_mul, BitVec.toNat_ofNat])
  · exact uni2_congr fun x y => shl_eq_zero_or_ofNat x (y.toNat % 256)
  · exact uni2_congr fun x y => shr_eq_zero_or_ofNat x (y.toNat % 256)

theorem uniformResults : UniformResults := by
  constructor
  · intro i d a b f s rule hs c e usable
    rw [exec_uniformRule rule, uni2, run_ok hs, guard_ok usable]
    simp only [act_ok_bind, act_pure, finish_ok, writeK_uniform, ksrc_data, ksrc_poison, c, e]
  · intro x d imm s hs c usable
    show execKmovi x d imm s = _
    rw [execKmovi, run_ok hs, guard_ok usable, act_ok_bind, act_pure, finish_ok, writeK_now]
    rfl

/-! ### Moves of uniforms, masks and lanes (R213) -/

/-- Mode 000 of `kmov` and `mmov` names a mask; any other source is one of the uniform family. -/
theorem maskSource_uniform {a : Src} (h : ∀ n, a ≠ .v n) (c : Ctx) : maskNeed a = srcNeed 1 1 a ∧ c.maskOrK a = c.ksrc a := by
  cases a with
  | v n => exact absurd rfl (h n)
  | ix | k | imm | map => exact ⟨rfl, rfl⟩

theorem exec_kmov {x : Ctl} {d : BitVec 8} {a : Src} {s : State} (hs : s.Issues)
    (usable : (s.seen (.kmov x d a)).Usable (s.seen (.kmov x d a)).x.mask (.k 0 d.toNat :: maskNeed a)) :
    exec (.kmov x d a) s = .next ((s.seen (.kmov x d a)).done ((s.seen (.kmov x d a)).writeK (s.entering (.kmov x d a)) false d
      ((s.seen (.kmov x d a)).maskOrK a))) := by
  show execKmov x d a s = _
  rw [execKmov, run_ok hs, guard_ok usable, act_ok_bind, act_pure, finish_ok]

theorem exec_mmov {x : Ctl} {d : BitVec 8} {a : Src} {s : State} (hs : s.Issues)
    (usable : (s.seen (.mmov x d a)).Usable (s.seen (.mmov x d a)).x.mask (.m d.toNat :: maskNeed a)) :
    let c := s.seen (.mmov x d a)
    let e := s.entering (.mmov x d a)
    exec (.mmov x d a) s = .next (if (c.maskOrK a).poison then (e.killGang c.core c.room).issued c
      else c.done (e.writeRegs c.core c.slot [.m d.toNat ((c.maskOrK a).data.setWidth 32)])) := by
  intro c e
  show execMmov x d a s = _
  rw [execMmov, run_ok hs, guard_ok usable, act_ok_bind]
  dsimp only
  split
  · rw [finish_kill]
  · rw [act_pure, finish_ok]
    rfl

/-- What may be read together may be read in part. -/
theorem Ctx.Usable.tail {c : Ctx} {ls : LaneMask} {x : Need} {ns : List Need} {maps : List (Src × OpFmt)} (h : c.Usable ls (x :: ns) maps) :
    c.regb1 ls x = none ∧ c.Usable ls ns maps := by
  obtain ⟨inRange, slots, ready⟩ := h
  rw [List.findSome?_cons] at inRange
  split at inRange
  · cases inRange
  next first =>
    refine ⟨first, inRange, slots, ?_⟩
    simp only [Ctx.lav, List.findSome?_eq_none_iff, Option.map_eq_none_iff, List.find?_eq_none, List.flatMap_cons, List.mem_append] at ready ⊢
    intro p hp r hr
    refine ready p hp r ?_
    tauto

/-- A lane of a vector register as an operand of that lane alone. -/
theorem vec_v (c : Ctx) (e : State) (n : BitVec 8) (fm : OpFmt) {l : Nat} (h : l < 32) :
    at_ {} (c.vec e (bitOf l) (.v n) fm) l = c.vlane e n.toNat l :=
  (at_map_range ({} : LaneWord) (fun l' => if lane (bitOf l) l' then c.vlane e n.toNat l' else {}) h).trans (if_pos (lane_bitOf_self h))

theorem exec_vtok {x : Ctl} {d n : BitVec 8} {b : Src} {s : State} (hs : s.Issues) :
    let i := Instr.vtok x d (.v n) b
    let c := s.seen i
    let e := s.entering i
    let j := (c.uniform b).1.toNat % 32
    c.Usable c.x.mask (.k 0 d.toNat :: srcNeed 2 1 b) → c.Usable (bitOf j) (.k 0 d.toNat :: .v 1 n.toNat false 1 :: srcNeed 2 1 b) →
    exec i s = .next (c.done (c.writeK e false d
      (KReg.of ((c.vlane e n.toNat j).data.setWidth 64) ((c.vlane e n.toNat j).poison || (c.uniform b).2)))) := by
  intro i c e j usable laneUsable
  obtain ⟨kD, usableB⟩ := usable.tail
  have vA : (srcNeed 1 1 (.v n)).findSome? (c.regb1 (bitOf j)) = none := by simp [srcNeed, laneUsable.tail.2.tail.1]
  have ready : c.lav (bitOf j) (.k 0 d.toNat :: (srcNeed 1 1 (.v n) ++ srcNeed 2 1 b)) = none := laneUsable.ready
  show execVtok x d (.v n) b s = _
  rw [execVtok, run_ok hs]
  simp only [ksrc_data, ksrc_poison]
  simp only [kD, vA, guard_ok usableB, ready, act_ok_bind, c, j, i]
  rw [vec_v _ _ _ _ (Nat.mod_lt _ (by decide)), act_pure, finish_ok]

theorem uniformMoves : UniformMoves := by
  intro x d s hs
  refine ⟨fun n => ?_, fun a other => ?_, fun n => ?_, fun a other => ?_, fun n b => ?_⟩
  · intro c usable
    rw [exec_kmov hs usable, Ctx.maskOrK, writeK_now]
    rfl
  · intro c usable
    obtain ⟨needs, source⟩ := maskSource_uniform other c
    rw [exec_kmov hs (needs ▸ usable), source, ksrc_eq, writeK_word]
  · intro c usable
    have width : ((at_ (0 : LaneMask) c.w.masks n.toNat).setWidth 64).setWidth 32 = at_ 0 c.w.masks n.toNat := by simp
    rw [exec_mmov hs usable]
    simp only [Ctx.maskOrK, Bool.false_eq_true, if_false]
    rw [width]
  · intro c e usable
    obtain ⟨needs, source⟩ := maskSource_uniform other c
    rw [exec_mmov hs (needs ▸ usable), source, ksrc_data, ksrc_poison]
  · intro i c e j usable laneUsable
    rw [exec_vtok hs usable laneUsable, writeK_uniform]

/-! ### Reads of special registers (R215) -/

/-- What a special register of a split's own fields reads, in any lane. -/
theorem special_of_rule {s : State} {c : Ctx} (room : c.room = (s.warp c.core c.slot).room) {n : Nat} {v : W64} (rule : specialRule s c n = some v)
    (l : Nat) : perLane n = false ∧ c.special s n l = v := by
  unfold specialRule at rule
  split at rule
  case h_24 => cases rule
  all_goals
    cases rule
    refine ⟨rfl, ?_⟩
    simp only [Ctx.special, room]

/-- What a special register of each lane reads. -/
theorem special_of_laneRule {s : State} {c : Ctx} {n l : Nat} {v : W32} (rule : laneSpecialRule s c n l = some v) :
    perLane n = true ∧ (c.special s n l).setWidth 32 = v := by
  unfold laneSpecialRule at rule
  split at rule
  case h_4 => cases rule
  all_goals
    cases rule
    refine ⟨rfl, ?_⟩
    simp [Ctx.special]

section
variable {x : Ctl} {d : Dst} {n : BitVec 8} {s : State} (hs : s.Issues)
include hs

theorem exec_rdsr_whole (whole : perLane n.toNat = false)
    (usable : (s.seen (.rdsr x d n)).Usable (s.seen (.rdsr x d n)).x.mask (.k 0 d.n.toNat :: if n = 0x0E then [.wflags] else [])) :
    let c := s.seen (.rdsr x d n)
    let e := s.entering (.rdsr x d n)
    exec (.rdsr x d n) s = .next (c.done (c.putK e d.n (c.special e n.toNat 0))) := by
  intro c e
  show execRdsr x d n s = _
  rw [execRdsr, run_ok hs]
  simp only [whole, Bool.false_eq_true, if_false]
  rw [guard_ok usable, act_ok_bind, writeK_now, act_pure, finish_ok]

theorem exec_rdsr_lanes {e' : State} (lanes : perLane n.toNat = true)
    (usable : (s.seen (.rdsr x d n)).Usable (s.seen (.rdsr x d n)).x.mask (dstNeed 1 d)) :
    let c := s.seen (.rdsr x d n)
    let e := s.entering (.rdsr x d n)
    let ws := c.laneWrites d 1 ((lanesOf c.x.mask).map fun l => (l, [{ data := (c.special e n.toNat l).setWidth 32 }]))
    c.Trails e ws e' → exec (.rdsr x d n) s = .next (c.done (e'.writeRegs c.core c.slot ws)) := by
  intro c e ws trails
  show execRdsr x d n s = _
  rw [execRdsr, run_ok hs]
  simp only [lanes, if_true]
  rw [guard_ok usable, act_ok_bind, writeLanes_ok trails, List.append_nil, List.append_nil, finish_ok]
  rfl

end

theorem specialRegisterReads : SpecialRegisterReads := by
  intro x d n s hs i c e
  refine ⟨fun v rule usable => ?_, fun f e' rule => ?_⟩
  · obtain ⟨whole, reads⟩ := special_of_rule (c := c) rfl rule 0
    rw [exec_rdsr_whole hs whole usable, reads]
    rfl
  · obtain rfl : (fun l => (c.special e n.toNat l).setWidth 32) = f := funext fun l => (special_of_laneRule (rule l)).2
    exact exec_rdsr_lanes hs (special_of_laneRule (rule 0)).1

end Sys2Proof.Machine

namespace Sys2Proof.IntegerAndControl
open Sys2Proof.Machine

/-- Settles O3: pair results and uniform arithmetic run by their rules; each move and each read of a special register by its own lemma. -/
theorem pairAndUniformResults : Obligations.PairAndUniformResults := ⟨pairResults, uniformResults, uniformMoves, specialRegisterReads⟩

end Sys2Proof.IntegerAndControl
end

section

namespace Sys2Proof.Machine

/-! ### Waits on a counter (R221) -/

theorem Ctx.acquireVecNow_ok {c : Ctx} {s : State} {v : List Nat} (seen : s.vecOk c.die v = true) :
    c.acquireVecNow s v = .ok (s.mergeStamp c.die v) := by
  simp only [Ctx.acquireVecNow, State.acquireVec, seen, if_true]

theorem setK_eq_putK (c : Ctx) (s : State) (d : BitVec 8) (v : W64) : c.setK s d v = c.putK s d v := rfl

section
variable {x : Ctl} {d a : BitVec 8} {imm : W32} {s : State} (hs : s.Issues)
  (usable : (s.seen (.waitj x d a imm)).Usable (s.seen (.waitj x d a imm)).x.mask (.k 0 d.toNat :: .k 1 a.toNat :: impliedK a.toNat 1))
  (cleanId : (at_ ({} : KReg) (s.seen (.waitj x d a imm)).w.uni a.toNat).poison = false)
  (cleanThr : (at_ ({} : KReg) (s.seen (.waitj x d a imm)).w.uni (a.toNat + 1)).poison = false)
include hs usable cleanId cleanThr

/-- `waitj` with clean operands compares the counter with the threshold. -/
theorem exec_waitj_clean :
    let c := s.seen (.waitj x d a imm)
    let e := s.entering (.waitj x d a imm)
    let thr := (at_ ({} : KReg) c.w.uni (a.toNat + 1)).data
    let n := (at_ ({} : KReg) c.w.uni a.toNat).data.toNat
    let k := c.counter e n
    let deadline := if imm = 0 then noDeadline else BitVec.ofNat 64 (e.gtime + imm.toNat)
    exec (.waitj x d a imm) s = .next (State.finish c (if thr.toNat ≤ k.value.toNat then c.acquireVecNow e k.vec >>= fun t => .ok (c.putK t d 1)
      else stop (.wait { kind := 4, addr := BitVec.ofNat 64 (n % 65536), value := thr, aux := deadline }) e).ends) := by
  intro c e thr n k deadline
  show execWaitj x d a imm s = _
  rw [execWaitj, run_ok hs]
  simp only [guard_ok usable, act_ok_bind, Ctx.kreg, cleanId, cleanThr, Bool.or_self, Bool.false_eq_true, if_false, act_pure,
    counterKey, Ctx.counter, c, e, thr, n, k, deadline]
  rfl

end

section
variable {r : SplitRef} {y : Ctl} {d a : BitVec 8} {imm : W32} {x : Words} {s : State} (waits : s.Waiting r 4 (.waitj y d a imm) x)
include waits

/-- A threshold reached by the deadline ends the wait with 1. -/
theorem waitjArrival_reached {t : Nat} (reached : ((s.waiter r x).counter s (s.blockOf r).addr.toNat).reached (s.blockOf r).value = some t)
    (early : (s.blockOf r).aux = noDeadline ∨ t ≤ (s.blockOf r).aux.toNat)
    (seen : s.vecOk (s.waiter r x).die ((s.waiter r x).counter s (s.blockOf r).addr.toNat).vec = true) :
    waitjArrival r s = s.resumed r x ((s.waiter r x).putK (({ s with cur := r } : State).mergeStamp (s.waiter r x).die
      ((s.waiter r x).counter s (s.blockOf r).addr.toNat).vec) d 1) := by
  refine resume_ok waits (by simp) ?_
  unfold Ctx.counter at reached seen
  have now := Ctx.acquireVecNow_ok (c := s.waiter r x) (s := { s with cur := r }) seen
  simp only [counterKey, reached, early, Bool.or_eq_true, decide_eq_true_eq, if_true, now, act_ok_bind, act_pure, setK_eq_putK]
  rfl

/-- A deadline that has passed without the threshold reached ends the wait with 0. -/
theorem waitjTimeout_late (bounded : (s.blockOf r).aux ≠ noDeadline) (passed : (s.blockOf r).aux.toNat < s.gtime)
    (late : ∀ t, ((s.waiter r x).counter s (s.blockOf r).addr.toNat).reached (s.blockOf r).value = some t → (s.blockOf r).aux.toNat < t) :
    waitjTimeout r s = s.resumed r x ((s.waiter r x).putK ({ s with cur := r } : State) d 0) := by
  refine resume_ok waits (by simp) ?_
  unfold Ctx.counter at late
  have ends : ∀ b : Bool, b = true → (if decide ((s.blockOf r).aux ≠ noDeadline) && decide ((s.blockOf r).aux.toNat < s.gtime) && b
      then .ok ((s.waiter r x).putK { s with cur := r } d 0) else stop .again { s with cur := r }) =
      Except.ok ((s.waiter r x).putK { s with cur := r } d 0) := by
    rintro _ rfl
    rw [decide_eq_true bounded, decide_eq_true passed]
    exact if_pos rfl
  refine ends _ ?_
  split
  next t reached => exact decide_eq_true (late t reached)
  next => rfl

end

end Sys2Proof.Machine

namespace Sys2Proof.IntegerAndControl
open Sys2Proof.Machine

/-- Settles O21: `waitj` finds the threshold reached or waits; a waiting one ends at its arrival or its deadline. -/
theorem counterWaits : Obligations.CounterWaits := by
  refine ⟨?_, fun r y d a imm x s waits => ⟨fun t reached early seen => congrArg Host.Outcome.next (waitjArrival_reached waits reached early seen),
    fun bounded passed late => congrArg Host.Outcome.next (waitjTimeout_late waits bounded passed late)⟩⟩
  intro x d a imm s hs i c e id thr k usable cleanId cleanThr
  have ran := exec_waitj_clean hs usable cleanId cleanThr
  refine ⟨fun reached seen => ?_, fun below => ?_⟩
  · rw [ran, if_pos reached, Ctx.acquireVecNow_ok seen, act_ok_bind, finish_ok]
  · rw [ran, if_neg (Nat.not_le.mpr below), finish_wait]

end Sys2Proof.IntegerAndControl
end

section

namespace Sys2Proof.Machine

/-! ### Lantern (R226, R363, R368) -/

/-- The group that Lantern examines is in its room. -/
theorem State.group_of_examined {s : State} {c n : Nat} (h : s.examined = some (c, n)) : (s.room c n).group.isSome = true := by
  obtain ⟨l, -, found⟩ := Option.bind_eq_some_iff.mp h
  have there := List.find?_some found
  dsimp only at there
  cases hg : (s.room c n).group with
  | none => simp [hg] at there
  | some g => rfl

theorem State.room_modWarp (s : State) (c slot n : Nat) (f : Warp → Warp) : (s.modWarp c slot f).room c n = s.room c n :=
  State.core_modWarp_of (P := fun k => k.rooms.getD n {} = s.room c n) s c slot f (fun _ _ h => h) rfl

theorem State.group_isSome_modGroup {s : State} {c n : Nat} (f : Group → Group) (h : (s.room c n).group.isSome = true) :
    ((s.modGroup c n f).room c n).group.isSome = true := by
  obtain ⟨g, hg⟩ := Option.isSome_iff_exists.mp h
  obtain ⟨core, room⟩ := State.lt_of_group hg
  rw [State.modGroup, State.room_modRoom_self _ _ _ _ core room, hg]
  rfl

/-- Going on behind the `bkpt` that stopped a group leaves the group in its room. -/
theorem State.group_isSome_passBkpt {s : State} {c n : Nat} (h : (s.room c n).group.isSome = true) :
    ((s.passBkpt c n).room c n).group.isSome = true := by
  unfold State.passBkpt
  split
  · exact h
  · dsimp only
    split
    · exact State.group_isSome_modGroup _ h
    · rw [State.room_modWarp]
      exact State.group_isSome_modGroup _ h

theorem State.onlyCores_passBkpt (s : State) (c n : Nat) : s.OnlyCores (s.passBkpt c n) := by
  unfold State.passBkpt
  split
  · exact .refl s
  · dsimp only
    split
    · exact s.onlyCores_modGroup c n _
    · exact (s.onlyCores_modGroup c n _).trans (State.onlyCores_modWarp _ _ _ _)

theorem State.stopped_lanternGoOn {s : State} {c n : Nat} (h : (s.room c n).group.isSome = true) :
    ((s.lanternGoOn c n).group c n).stopped = false := by
  obtain ⟨g, hg⟩ := Option.isSome_iff_exists.mp (State.group_isSome_passBkpt h)
  exact congrArg Group.stopped (State.group_modGroup_self hg fun g => { g with stopped := false, stepping := none })

/-- Going on leaves Lantern's own state but for the splits that may leave their stops. -/
theorem State.lantern_lanternGoOn (s : State) (c n : Nat) :
    (s.lanternGoOn c n).lantern = { s.lantern with left := (s.lanternGoOn c n).lantern.left } := by
  have same : ((s.passBkpt c n).modGroup c n fun g => { g with stopped := false, stepping := none }).lantern = s.lantern := by
    rw [(s.onlyCores_passBkpt c n).trans (State.onlyCores_modGroup _ c n _)]
  unfold State.lanternGoOn
  dsimp only
  rw [same]

/-- Lantern told to report the n-th stop from here on. -/
def State.withGoals (s : State) (n : Nat) : State := { s with lantern := { s.lantern with goals := n } }

theorem State.lanternCont_examined {s : State} {n c r : Nat} (h : s.examined = some (c, r)) :
    s.lanternCont n = (s.withGoals (max 1 n)).lanternGoOn c r := by
  have same : (s.withGoals (max 1 n)).examined = some (c, r) := h
  unfold State.withGoals at same ⊢
  simp only [State.lanternCont, same]

/-- A `run` whose launch is accepted: Lantern examines that launch and waits for its first stop. -/
theorem State.lanternRun_launched {s u : State} {k : Nat} {x : Known} {args : List W32} {bs : List Byte} {pa : Nat} {h : KHdr} :
    let l := s.lantern
    let at' := l.space + l.seq * 0x1000000
    let r : LaunchRec := { data := l.data, args := at' + 64, priv := at' + 0x10000, khdr := x.hdr, gangs := 1, asid := l.asid }
    l.kernels[k]? = some x → s.fnBytes s.dunesh l.fn x.hdr 64 = some bs → s.hostPa s.dunesh l.fn at' true = some pa →
    ((s.fnWrite l.fn at' (leBytes 64 (r.data * 2 ^ 448 + r.args * 2 ^ 384 + r.priv * 2 ^ 320 + r.khdr * 2 ^ 256 + 2 ^ 224 + r.asid * 2 ^ 212))).fnWrite
      l.fn (at' + 64) (runArgs args (KHdr.of bs).args)).admitLaunch l.fn (s.partOf l.fn) none r = (u, .ok h) →
    (s.lanternRun k args).lantern = { l with launch := some u.launches.length, goals := 1, left := [], evict := 0, seq := l.seq + 1 } := by
  intro l at' r kernel header record admitted
  unfold State.lanternRun
  simp only [l, at', r] at kernel header record admitted
  have part : ∀ b b', ((s.fnWrite l.fn at' b).fnWrite l.fn (at' + 64) b').partOf l.fn = s.partOf l.fn := fun b b' => by
    rw [State.partOf, (State.OnlyMemory.fnWrite s _ _ _).trans (State.OnlyMemory.fnWrite _ _ _ _)]
    rfl
  simp only [kernel, header, record, part, l, at']
  rw [admitted]

end Sys2Proof.Machine

namespace Sys2Proof.IntegerAndControl
open Sys2Proof.Machine

/-- Settles O49: what each command does to Lantern's own state, to the group examined, and what it shows. -/
theorem lanternCommands : Obligations.LanternCommands := by
  refine ⟨fun obj im s image => ?_, fun k off s known new => ?_, fun s => ⟨rfl, rfl⟩, fun k x args bs pa h u s => ?_, fun n c r s examined => ?_,
    fun warp lane items c n sl s examined slot => ?_, fun space a n c r s examined => ?_, fun a n c r s examined => ?_, fun id n s => ?_⟩
  · show execLanternLoad obj s = _
    simp only [execLanternLoad, image]
  · show execLanternBreak k off s = _
    have fresh : s.lantern.stops.contains (k, off) = false := by simpa using new
    simp only [execLanternBreak, known, fresh, decide_true, Bool.not_false, Bool.and_self, if_true]
  · intro l at' r kernel header record admitted
    exact ⟨_, rfl, State.lanternRun_launched kernel header record admitted⟩
  · refine ⟨_, rfl, ?_, ?_, ?_⟩ <;> rw [State.lanternCont_examined examined]
    · rw [State.lantern_lanternGoOn]
      rfl
    · rw [State.lantern_lanternGoOn]
      rfl
    · exact State.stopped_lanternGoOn (s := s.withGoals (max 1 n)) (State.group_of_examined examined)
  · show execLanternPrint warp lane items s = _
    simp only [execLanternPrint, examined, slot]
  · show execLanternMem space a n s = _
    simp only [execLanternMem, examined]
  · show execLanternDis a n s = _
    simp only [execLanternDis, examined]
  · intro r ring
    show execLanternCinc id n s = _
    rw [execLanternCinc, State.lanternCinc]
    exact congrArg Host.Outcome.next (if_neg ring)

end Sys2Proof.IntegerAndControl
end

section

namespace Sys2Proof.IntegerAndControl
open Sys2Proof.Machine

/-! ### A write of sr.wflags that races a flag of another split (R231) -/

/-- `wrsr sr.wflags, 1`. -/
def flagsWrite : Instr := .wrsr { la := 0, ru := false, pfx := none } 0x0E (.imm 1)

/-- A device in which split 0 of a warp is about to run `flagsWrite` while an `fadd` of split 1, of infinities of opposite signs, still has its
NaN and its flag to write. -/
def flagRace : State :=
  { State.reset with
    cores := modifyAt State.reset.cores 0 fun k => { k with
      rooms := k.rooms.set 0 { group := some { phase := .resident, hdr := { allot := 16 } } }
      warps := [(0, some {
        splits := [some { pc := 0, mask := 1 }, some { pc := 8, mask := 2 }, none, none]
        pend := [{ split := 1, pc := 0, la := 4, pos := 0, regs := [.v 4, .flags], writes := [.v 4 1 { data := 0x7FC00000 }, .flags flNV] }] })] } }

/-- What the results pending in the warp in slot 0 of core 0 are still to write. -/
def stillToWrite (o : Host.Outcome State Fault Refusal) : List RegWrite :=
  match o with
  | .next t => (t.warp 0 0).pend.flatMap (·.writes)
  | .fault _ | .refused _ => []

/-- The fields that R67 and R230 give sr.wflags leave no bit open. -/
theorem eq_of_wflags_fields {f g : W32} (sticky : f.extractLsb' 0 6 = g.extractLsb' 0 6) (low : f.extractLsb' 6 2 = g.extractLsb' 6 2)
    (drm : f.extractLsb' 8 3 = g.extractLsb' 8 3) (high : f.extractLsb' 11 21 = g.extractLsb' 11 21) : f = g := by
  simp only [← BitVec.toNat_inj, BitVec.extractLsb'_toNat, Nat.shiftRight_eq_div_pow] at *
  omega

/-- Refutes O2: a `wrsr` of sr.wflags also drops the flags that earlier instructions of the warp have not written yet, since the instruction that
issues later decides (R231, `Warp.supersede`); the statement has only sr.wflags replaced. In `flagRace` split 1's flag is one of them. -/
theorem not_maskAndIndexWrites : ¬ Obligations.MaskAndIndexWrites := by
  rintro ⟨-, writes⟩
  obtain ⟨-, -, -, -, wflags⟩ := writes flagRace { la := 0, ru := false, pfx := none } (.imm 1) (by unfold State.Issues; decide +kernel)
  obtain ⟨f, ran, sticky, low, high, drm⟩ := wflags ⟨by decide +kernel, by decide +kernel, by decide +kernel⟩ (by decide +kernel)
  obtain rfl : f = 0x101 := eq_of_wflags_fields (sticky.trans (by decide +kernel)) low (drm.trans (by decide +kernel)) high
  have dropped : stillToWrite (exec flagsWrite flagRace) = [.v 4 1 { data := 0x7FC00000 }] := by decide +kernel
  exact absurd (dropped.symm.trans (congrArg stillToWrite ran)) (by decide +kernel)

end Sys2Proof.IntegerAndControl
end

section

namespace Sys2Proof.Machine

/-! ### Lane-wise floating-point results (R229 to R240) -/

/-- A lane-wise floating-point instruction run by a rule: its operands' encodings, and its result and flags by the rule's function. -/
def FloatRule.run (r : FloatRule) (i : Instr) (s : State) : Host.Outcome State Fault Refusal :=
  Machine.run i s fun c e => c.laneWise e true r.records r.d r.ops fun x => fword (r.f c (x.map (·.toNat)))

theorem opd_map_toNat (x : List W32) (i : Nat) : opd (x.map (·.toNat)) i = (at_ 0 x i).toNat := by
  simp only [opd, at_, List.getD_eq_getElem?_getD, List.getElem?_map]
  cases x[i]? <;> rfl

/-- A compare that writes lanes runs by the rule whose words and flags are its own. -/
theorem fltCmp_lanes {i : Instr} {s : State} {d : Dst} {a b : Src} {fm : OpFmt} {f : Ctx → Nat → Nat → W32 × Bool × FFlags}
    {g : Ctx → List Nat → Nat × FFlags} (same : ∀ c x, fword (g c x) = ((f c (opd x 0) (opd x 1)).1, (f c (opd x 0) (opd x 1)).2.2)) :
    fltCmp i s false d a b fm f = FloatRule.run ⟨d, ops2 fm a b, g, true⟩ i s := by
  simp only [fltCmp, FloatRule.run, same, opd_map_toNat, Bool.false_eq_true, if_false]

/-- The packed compare's halves do not meet (R236). -/
theorem compareWord (lo hi : Bool) :
    BitVec.ofNat 32 ((if hi then 0xFFFF0000 else 0) + if lo then 0xFFFF else 0) =
      (if hi then 0xFFFF0000 else 0) ||| if lo then 0x0000FFFF else 0 := by
  cases lo <;> cases hi <;> rfl

theorem special1_eq_run {i : Instr} {s : State} {fn : SpecialFn} {d : Dst} {a : Src} :
    special1 i s fn d a = FloatRule.run ⟨d, [(1, a, .flt .f32)], fun c x => specialF fn c.rm c.sat (opd x 0), true⟩ i s := by
  simp only [special1, Ctx.special1, FloatRule.run, opd_map_toNat]

theorem fsub_eq_run {x : Ctl} {d : Dst} {a b : Src} {s : State} : execFsub x d a b s =
    FloatRule.run ⟨d, ops2 (.flt .f32) a b, fun c x => subF .f32 c.cplv c.rm c.sat (opd x 0) (opd x 1), true⟩ (.fsub x d a b) s := by
  simp only [execFsub, Ctx.fsub, FloatRule.run, opd_map_toNat]

/-- Every lane-wise instruction of the tables of R232 to R240 runs by its rule. -/
theorem exec_eq_floatRun {i : Instr} {r : FloatRule} (rule : floatRule i = some r) (s : State) : exec i s = r.run i s := by
  unfold floatRule at rule
  split at rule
  case h_8 x cc tomask d a b => -- `fcmp`
    split at rule
    · cases rule
    next lanes =>
      cases rule
      simp only [exec, execFcmp, lanes]
      refine fltCmp_lanes fun c v => ?_
      dsimp only
      cases (condF .f32 c.cplv cc (opd v 0) (opd v 1)).1 <;> rfl
  case h_18 x cc tomask d a b => -- `hcmp2`
    split at rule
    · cases rule
    next lanes =>
      cases rule
      simp only [exec, execHcmp2, lanes]
      exact fltCmp_lanes fun c v => Prod.ext (compareWord _ _) rfl
  case h_36 => cases rule
  all_goals
    cases rule
    simp only [exec]
  case h_2 => exact fsub_eq_run
  case h_26 | h_27 | h_28 | h_29 | h_30 | h_31 | h_32 | h_33 | h_34 | h_35 => exact special1_eq_run
  all_goals rfl

/-- What a floating-point rule writes into its destination: the operation of the operands' encodings. -/
def FloatRule.writes (r : FloatRule) (c : Ctx) (e : State) : List RegWrite :=
  c.laneWrites r.d 1 ((lanesOf c.act).map fun l => (l, [laneResult (fun x => BitVec.ofNat 32 (r.f c (x.map (·.toNat))).1)
    (r.ops.map fun o => c.vec e c.act o.2.1 o.2.2) l]))

theorem FloatRule.laneWise_ok {r : FloatRule} {c : Ctx} {e e' : State}
    (usable : c.Usable c.act (dstNeed 1 r.d ++ r.ops.flatMap fun o => srcNeed o.1 1 o.2.1) (r.ops.map (·.2)))
    (trails : c.Trails e (r.writes c e) e') :
    let extra := if r.records then flagWrites (laneFlags (fun x => (r.f c (x.map (·.toNat))).2) (r.ops.map fun o => c.vec e c.act o.2.1 o.2.2)
      (lanesOf c.act)) else ([], [])
    c.laneWise e true r.records r.d r.ops (fun x => fword (r.f c (x.map (·.toNat)))) =
      .ok (c.commit e' true (namesOf (r.writes c e) ++ extra.1) (r.writes c e ++ extra.2)) :=
  Machine.laneWise_ok usable trails

end Sys2Proof.Machine

namespace Sys2Proof.VectorFloatCrosslane
open Sys2Proof.Machine

/-- Settles O4: each instruction runs by its rule of R232 to R240, and what a rule writes is said once. -/
theorem floatLaneResults : Obligations.FloatLaneResults := by
  intro i r s e' rule hs c e vals ws extra usable trails
  rw [exec_eq_floatRun rule s, FloatRule.run, run_ok hs, FloatRule.laneWise_ok usable trails]
  rfl

end Sys2Proof.VectorFloatCrosslane
end

section

namespace Sys2Proof.Machine

/-! ### Activation tables (R241 to R246) -/

/-- A load of an image is the flip of R243. -/
theorem ActTable.load_eq_flipped (t : ActTable) (b : ActBank) : t.load b = t.flipped b := by
  unfold ActTable.load ActTable.flipped
  split <;> rfl

/-- The number that `actld` writes once its image stands in the table (R243). -/
theorem ActTable.word_flipped (t : ActTable) (b : ActBank) :
    (t.flipped b).word false = BitVec.ofNat 64 ((t.count + 1) % 2 ^ 32 * 2 ^ 32 + if t.sel then 0 else 1) := by
  unfold ActTable.word ActTable.flipped
  split <;> simp [*]

theorem ActTable.word_info (t : ActTable) :
    t.word true = BitVec.ofNat 64 (t.count % 2 ^ 32 * 2 ^ 32 + (if t.loaded then 2 else 0) + if t.sel then 1 else 0) := by
  simp only [ActTable.word, Bool.true_and]

/-- Of the results that a split has pending, its loads alone change the table that it finds (R246). -/
theorem Ctx.table_eq_found (c : Ctx) (e : State) (n : BitVec 2) : c.table e n = c.found e n.toNat := by
  unfold Ctx.table Ctx.found
  rw [List.foldl_filterMap]
  refine congrArg (fun f => List.foldl f _ _) ?_
  funext t r
  cases r with
  | act k b d =>
    dsimp only
    split
    · exact t.load_eq_flipped b
    · rfl
  | v | k | m | mbit | ix | flags | empty => rfl

/-- The image that `actld` takes once its bytes are observed. -/
def Ctx.actImage (c : Ctx) (e : State) (ps : List Place) : ActBank :=
  { bytes := (c.readRange e ps 32).1, poison := (c.readRange e ps 32).2 }

section
variable {s : State} {c : Ctx} {e e' : State}

/-- `actld` of a good image at a clean address: the image is to be written into the table, and kD with it (R243, R246). -/
theorem actld_ok {x : Ctl} {d a : BitVec 8} {n : BitVec 2} {ps : List Place} (hs : s.Issues) (hc : s.seen (.actld x d a n) = c)
    (he : s.entering (.actld x d a n) = e) (usable : c.Usable c.x.mask [.k 0 d.toNat, .k 1 a.toNat]) (clean : (c.kreg a.toNat).poison = false)
    (range : c.range e .glob .read ((lowest c.x.mask).getD 0) (c.kreg a.toNat).data.toNat actBytes 32 = .ok ps)
    (observed : c.observe e none ps 32 (some (c.kreg a.toNat).data) = .ok e') (good : (c.actImage e' ps).bad = false) :
    exec (.actld x d a n) s = .next (c.done (c.commit e' true [.k d.toNat] [.act n.toNat (c.actImage e' ps) d.toNat])) := by
  show execActld x d a n s = _
  unfold Ctx.actImage at good ⊢
  rw [execActld, run_ok hs, hc, he]
  simp only [guard_ok usable, clean, range, observed, good, act_ok_bind, act_pure, finish_ok, Bool.false_eq_true, if_false]

/-- `actinfo` tells of the table as the split finds it (R245). -/
theorem actinfo_ok {x : Ctl} {d : BitVec 8} {n : BitVec 2} (hs : s.Issues) (hc : s.seen (.actinfo x d n) = c)
    (he : s.entering (.actinfo x d n) = e) (usable : c.Usable c.x.mask [.k 0 d.toNat]) :
    exec (.actinfo x d n) s = .next (c.done (c.commit e true [.k d.toNat] [.k d.toNat { data := (c.found e n.toNat).word true }])) := by
  show execActinfo x d n s = _
  rw [execActinfo, run_ok hs, hc, he]
  simp only [guard_ok usable, act_ok_bind, act_pure, finish_ok, Ctx.table_eq_found]
  rfl

/-- What `actev` writes into a lane: the bank's value of its operand, or poison from a poisoned operand or bank (R244). -/
def ActBank.result (b : ActBank) (c : Ctx) (y : LaneWord) : LaneWord :=
  if y.poison || b.poison then { data := 0, poison := true } else { data := BitVec.ofNat 32 (b.eval c.rm c.sat y.data.toNat).1 }

/-- The flags that a lane of `actev` raises: none where its result is poison (R230, R244). -/
def ActBank.flags (b : ActBank) (c : Ctx) (y : LaneWord) : FFlags :=
  if y.poison || b.poison then 0 else (b.eval c.rm c.sat y.data.toNat).2

/-- `actev` evaluates in each active lane the bank that is current for the split (R244, R246). -/
theorem actev_ok {x : Ctl} {d : Dst} {a : Src} {n : BitVec 2} (hs : s.Issues) (hc : s.seen (.actev x d a n) = c)
    (he : s.entering (.actev x d a n) = e) (usable : c.Usable c.act (dstNeed 1 d ++ srcNeed 1 1 a) [(a, .flt .f32)])
    (trails : c.Trails e (c.laneWrites d 1 ((lanesOf c.act).map fun l =>
      (l, [(c.found e n.toNat).current.result c (at_ {} (c.vec e c.act a (.flt .f32)) l)]))) e') :
    let b := (c.found e n.toNat).current
    let v := c.vec e c.act a (.flt .f32)
    let ws := c.laneWrites d 1 ((lanesOf c.act).map fun l => (l, [b.result c (at_ {} v l)]))
    let fl := (lanesOf c.act).foldl (fun (acc : FFlags) l => acc ||| b.flags c (at_ {} v l)) 0
    exec (.actev x d a n) s = .next (c.done (c.commit e' true (namesOf ws ++ (flagWrites fl).1) (ws ++ (flagWrites fl).2))) := by
  have lane : ∀ (b : ActBank) (y : LaneWord) (l : Nat), (if y.poison || b.poison then (l, LaneWord.of 0 true, (0 : FFlags))
      else (l, LaneWord.of (fword (b.eval c.rm c.sat y.data.toNat)).1 false, (fword (b.eval c.rm c.sat y.data.toNat)).2)) =
      (l, b.result c y, b.flags c y) := fun b y l => by
    unfold ActBank.result ActBank.flags
    split <;> rfl
  show execActev x d a n s = _
  rw [execActev, run_ok hs, hc, he]
  simp only [guard_ok usable, act_ok_bind, Ctx.table_eq_found, lane, List.map_map, Function.comp_def, List.foldl_map, writeLanes_ok trails, finish_ok]

end

end Sys2Proof.Machine

namespace Sys2Proof.VectorFloatCrosslane
open Sys2Proof.Machine

/-- Settles O7: the three instructions past their checks, and what the load's result does when it is written. -/
theorem activationTables : Obligations.ActivationTables := by
  refine ⟨fun x d a n ps s hs => ?_, fun s c slot n d b => ?_, fun x d a n s e' hs => ?_, fun x d n s hs => ?_⟩
  · intro i c e k usable clean range e1 observed img b good
    exact actld_ok hs rfl rfl usable clean range observed good
  · intro room t
    rw [← t.word_flipped b, ← t.load_eq_flipped b]
    rfl
  · intro i c e t b v ws fl usable trails
    exact actev_ok hs rfl rfl usable trails
  · intro i c e t usable
    rw [actinfo_ok hs rfl rfl usable, ActTable.word_info]

end Sys2Proof.VectorFloatCrosslane
end

section

namespace Sys2Proof.Machine

/-! ### `poll` and `match` (R247, R249) -/

/-- The lanes whose predicate holds, with their words, are those that the rule names. -/
theorem filter_words (ls : List Nat) (v : Nat → W32) :
    (ls.map fun l => (l, v l)).filter (fun p => p.2 ≠ 0) = (ls.filter fun l => v l ≠ 0).map fun l => (l, v l) := List.filter_map

/-- The words of two lanes are equal wherever they are those of the first lane. -/
theorem all_same_iff_head (ls : List Nat) (v : Nat → W32) :
    ((ls.map fun l => (l, v l)).all fun p => some p.2 = (ls.map fun l => (l, v l)).head?.map (·.2)) = ls.all fun l => ls.all fun k => v l = v k := by
  cases ls with
  | nil => rfl
  | cons l rest =>
    rw [Bool.eq_iff_iff]
    simp only [List.head?_map, List.head?_cons, List.all_map, Option.map_some, Option.some.injEq, List.all_eq_true, Function.comp_apply,
      decide_eq_true_eq]
    exact ⟨fun first k hk j hj => (first k hk).trans (first j hj).symm, fun same k hk => same k hk l List.mem_cons_self⟩

/-- `poll` on lanes paired with their words is the rule's word (R249). -/
theorem pollWord_eq_pollRule (op : PollOp) (ls : List Nat) (v : Nat → W32) : pollWord op (ls.map fun l => (l, v l)) = pollRule op ls v := by
  unfold pollWord pollRule
  cases op with
  | set =>
    refine congrArg maskOf (funext fun l => ?_)
    rw [filter_words, List.any_map, List.contains_eq_any_beq]
    exact congrArg (List.any _) (funext fun k => decide_eq_decide.mpr eq_comm)
  | cnt => simp only [filter_words, List.length_map]
  | first =>
    simp only [filter_words, List.head?_map, Option.map_map, List.headD_eq_head?_getD, Function.comp_def, Option.map_id']
  | last =>
    simp only [filter_words, List.getLast?_map, Option.map_map, List.getLastD_eq_getLast?, Function.comp_def, Option.map_id']
  | all =>
    have counted : ((ls.map fun l => (l, v l)).all fun p => p.2 ≠ 0) = true ↔ (ls.filter fun l => v l ≠ 0).length = ls.length := by
      simp only [List.length_filter_eq_length_iff, List.all_map, List.all_eq_true, Function.comp_apply]
    exact if_congr counted rfl rfl
  | any => simp only [filter_words, List.isEmpty_map, List.isEmpty_iff]
  | same => simp only [all_same_iff_head]

/-- The word that `poll` writes: its rule's, or poison where an active lane's operand is poison (R249). -/
def Ctx.pollResult (c : Ctx) (e : State) (op : PollOp) (a : Src) : LaneWord :=
  let v := c.vec e c.act a .i32
  if (lanesOf c.act).any fun l => (at_ {} v l).poison then { data := 0, poison := true }
  else { data := pollRule op (lanesOf c.act) fun l => (at_ {} v l).data }

/-- What `poll` does: its checks, then its word. -/
def Ctx.poll (c : Ctx) (e : State) (op : PollOp) (d : Dst) (a : Src) : Act State :=
  c.wideGuard e d a .i32 >>= fun _ => c.wide e d (c.pollResult e op a) none

theorem exec_poll (x : Ctl) (op : PollOp) (d : Dst) (a : Src) (s : State) :
    exec (.poll x op d a) s = run (.poll x op d a) s fun c e => c.poll e op d a := by
  simp only [exec, execPoll, Ctx.poll, Ctx.pollResult, ← pollWord_eq_pollRule, List.map_map, List.any_map, Function.comp_def]
  rfl

/-- `poll` past its checks writes its word into every lane of the split, and E. -/
theorem poll_ok {c : Ctx} {e e' : State} {op : PollOp} {d : Dst} {a : Src} (wide : c.Usable c.x.mask (.empty :: dstNeed 1 d))
    (usable : c.Usable c.act (srcNeed 1 1 a) [(a, .i32)])
    (trails : c.Trails e (c.laneWrites d 1 ((lanesOf c.x.mask).map fun l => (l, [c.pollResult e op a]))) e') :
    let ws := c.laneWrites d 1 ((lanesOf c.x.mask).map fun l => (l, [c.pollResult e op a]))
    c.poll e op d a = .ok (c.commit e' true (namesOf ws ++ [.empty]) (ws ++ [.empty (decide (c.act = 0))])) := by
  rw [Ctx.poll, wideGuard_ok e wide usable, act_ok_bind, Ctx.wide, writeLanes_ok trails]
  rfl

/-- What `match` writes into a lane: the clean active lanes with its word, or poison (R249). -/
def Ctx.matchResult (c : Ctx) (e : State) (a : Src) (l : Nat) : LaneWord :=
  let v := c.vec e c.act a .bits
  if (at_ {} v l).poison then { data := 0, poison := true }
  else { data := maskOf fun k => lane c.act k && !(at_ {} v k).poison && (at_ {} v k).data = (at_ {} v l).data }

/-- What `match` does: its checks, then its words. -/
def Ctx.matchLanes (c : Ctx) (e : State) (d : Dst) (a : Src) : Act State :=
  c.guard e c.act (dstNeed 1 d ++ srcNeed 1 1 a ++ [.empty]) >>= fun _ =>
    c.writeLanes e true d 1 ((lanesOf c.act).map fun l => (l, [c.matchResult e a l])) (c.emptyFlag none)

theorem exec_matchLanes (x : Ctl) (d : Dst) (a : Src) (s : State) :
    exec (.matchLanes x d a) s = run (.matchLanes x d a) s fun c e => c.matchLanes e d a := rfl

/-- `match` past its checks writes its words into the active lanes, and E. -/
theorem matchLanes_ok {c : Ctx} {e e' : State} {d : Dst} {a : Src} (usable : c.Usable c.act (dstNeed 1 d ++ srcNeed 1 1 a ++ [.empty]))
    (trails : c.Trails e (c.laneWrites d 1 ((lanesOf c.act).map fun l => (l, [c.matchResult e a l]))) e') :
    let ws := c.laneWrites d 1 ((lanesOf c.act).map fun l => (l, [c.matchResult e a l]))
    c.matchLanes e d a = .ok (c.commit e' true (namesOf ws ++ [.empty]) (ws ++ [.empty (decide (c.act = 0))])) := by
  rw [Ctx.matchLanes, guard_ok usable, act_ok_bind, writeLanes_ok trails]
  rfl

/-- The entry of `poll` asks the same of every field but F, which may hold 0 to 6 (R249). -/
theorem rule_poll {g : Base} (op : g.op = 0x71) :
    rule g = some { fOk := g.f.toNat ≤ 6, d := .vec, a := .modes mAll, mask := .merge } := by
  unfold rule
  rw [op]
  rfl

/-- What is illegal of a `poll` is what its entry says. -/
theorem ill_poll (p : Option (BitVec 32)) {g : Base} (op : g.op = 0x71) : ill { pw := p, w := g.pack } =
    illBase (p.map PWord.unpack) g { fOk := g.f.toNat ≤ 6, d := .vec, a := .modes mAll, mask := .merge } := by
  have low : g.pack.extractLsb' 0 8 = 0x71 := (congrArg Base.op (Base.unpack_pack g)).trans op
  unfold ill
  simp only [low, Base.unpack_pack, rule_poll op]
  rfl

theorem firstDetail_cons_none {b : Bool} {d : Nat} {rest : List (Bool × Nat)} (h : firstDetail ((b, d) :: rest) = none) : b = false := by
  cases b
  · rfl
  · cases h

/-- The eighth operator of `poll`, where another is legal: F holds a code that its entry does not take (R202, R249). -/
theorem ill_poll_eighth {p : Option (BitVec 32)} {g : Base} (op : g.op = 0x71) (legal : ill { pw := p, w := g.pack } = none) :
    ill { pw := p, w := { g with f := 7 }.pack } = some 4 := by
  rw [ill_poll p op] at legal
  rw [ill_poll p (g := { g with f := 7 }) op]
  have fields := firstDetail_cons_none legal
  unfold illBase
  simp only [firstDetail]
  rw [if_neg (by rw [Bool.not_eq_true]; exact fields)]
  rfl

end Sys2Proof.Machine

namespace Sys2Proof.VectorFloatCrosslane
open Sys2Proof.Machine

/-- Settles O9: `poll` and `match` run past their checks to the words they write; the eighth operator is F = 7. -/
theorem pollAndMatchResults : Obligations.PollAndMatchResults := by
  refine ⟨fun x op d a s e' hs => ?_, fun x d a s e' hs => ?_, fun p g op _ legal => ill_poll_eighth op legal⟩
  · intro i c e v y ws wide usable trails
    rw [exec_poll, run_ok hs, poll_ok wide usable trails]
    rfl
  · intro i c e v ws usable trails
    rw [exec_matchLanes, run_ok hs, matchLanes_ok usable trails]
    rfl

end Sys2Proof.VectorFloatCrosslane
end

section

namespace Sys2Proof.Machine

/-! ### A warp in which nothing stands in the way of its next instruction (R45, R190, R305) -/

/-- A result to a lane of a vector register, to sticky flags or to E: it leaves the warp's room, search region and pending results alone. -/
def RegWrite.isResult (r : RegWrite) : Bool := r.isLane || r.isE

/-- The context's warp, in its group, with no search region open and with certain results pending. -/
structure Ctx.Calm (c : Ctx) (s : State) (ps : List Pending) : Prop where
  /-- The warp is there. -/
  live : (s.warp? c.core c.slot).isSome = true
  /-- What is pending in it. -/
  pend : (s.warp c.core c.slot).pend = ps
  /-- It has no search region open. -/
  closed : (s.warp c.core c.slot).regionOpen = false
  /-- Its group is the context's. -/
  group : s.groupOf c.core c.slot = c.g

namespace Ctx.Calm
variable {c : Ctx} {s : State} {ps qs : List Pending}

theorem modWarp (h : c.Calm s ps) {f : Warp → Warp} (room : ∀ w, (f w).room = w.room) (satchel : ∀ w, (f w).satchel = w.satchel)
    (pend : ∀ w, w.pend = ps → (f w).pend = qs) : c.Calm (s.modWarp c.core c.slot f) qs := by
  have warp := State.warp_modWarp_self f h.live
  have rooms : ((s.modWarp c.core c.slot f).core c.core).rooms = (s.core c.core).rooms :=
    State.core_modWarp_of (P := fun k => k.rooms = (s.core c.core).rooms) s c.core c.slot f (fun _ _ same => same) rfl
  refine ⟨?_, ?_, ?_, ?_⟩
  · rw [State.warp?_modWarp_self f h.live]
    rfl
  · rw [warp, pend _ h.pend]
  · rw [warp, Warp.regionOpen, satchel]
    exact h.closed
  · rw [← h.group, State.groupOf, State.groupOf, warp, room, State.group, State.group, State.room, State.room, rooms]

theorem setVreg (h : c.Calm s ps) (n l : Nat) (x : LaneWord) : c.Calm (s.setVreg c.core c.slot n l x) ps := by
  have warp? : (s.setVreg c.core c.slot n l x).warp? c.core c.slot = s.warp? c.core c.slot := by
    unfold State.setVreg
    exact State.warps_modCore (f := fun k => k.setLane _ _ _ _) (fun _ => rfl) _ _
  have warp : (s.setVreg c.core c.slot n l x).warp c.core c.slot = s.warp c.core c.slot := congrArg (·.getD {}) warp?
  have rooms : ((s.setVreg c.core c.slot n l x).core c.core).rooms = (s.core c.core).rooms :=
    State.core_modCore_of (P := fun k => k.rooms = (s.core c.core).rooms) s c.core _ rfl rfl
  refine ⟨by rw [warp?]; exact h.live, by rw [warp]; exact h.pend, by rw [warp]; exact h.closed, ?_⟩
  rw [← h.group, State.groupOf, State.groupOf, warp, State.group, State.group, State.room, State.room, rooms]

theorem writeReg (h : c.Calm s ps) {r : RegWrite} (hr : r.isResult = true) : c.Calm (s.writeReg c.core c.slot r) ps := by
  cases r with
  | v n l x => exact h.setVreg n l x
  | flags | empty => exact h.modWarp (fun _ => rfl) (fun _ => rfl) fun _ => id
  | k | m | mbit | ix | act => cases hr

theorem writeRegs (h : c.Calm s ps) {rs : List RegWrite} (hr : ∀ r ∈ rs, r.isResult = true) : c.Calm (s.writeRegs c.core c.slot rs) ps := by
  unfold State.writeRegs
  induction rs generalizing s with
  | nil => exact h
  | cons r rest ih => exact ih (h.writeReg (hr r List.mem_cons_self)) fun q hq => hr q (List.mem_cons_of_mem _ hq)

/-- The results that a test picks are written. -/
theorem drain (h : c.Calm s ps) {p : Pending → Bool} (hr : ∀ q ∈ ps, ∀ r ∈ q.writes, r.isResult = true) :
    c.Calm (s.drain c.core c.slot p) (written p false ps).2 := by
  refine (h.writeRegs fun r hr' => ?_).modWarp (fun _ => rfl) (fun _ => rfl) fun w same => by rw [← same]
  obtain ⟨q, hq, hrq⟩ := List.mem_flatMap.mp hr'
  exact hr q (h.pend ▸ List.mem_of_mem_filter hq) r hrq

end Ctx.Calm

/-! ### Instructions whose registers lie inside the allotment -/

/-- A context that no pending result and no search region hinders. -/
structure Ctx.Free (c : Ctx) : Prop where
  /-- Nothing is pending in the warp. -/
  pend : c.w.pend = []
  /-- No search region is open. -/
  closed : c.w.regionOpen = false

/-- A vector register inside the allotment, or E. -/
def Ctx.Fits (c : Ctx) (x : Need) : Prop := x = .empty ∨ ∃ pos n, x = .v pos n false 1 ∧ n < c.g.hdr.allot

theorem Ctx.regb1_of_fits {c : Ctx} {ls : LaneMask} {x : Need} (h : c.Fits x) : c.regb1 ls x = none := by
  obtain rfl | ⟨pos, n, rfl, inside⟩ := h
  · rfl
  · have fits : ∀ l, c.inAllot (c.number n false l) 1 = true := fun l => by
      simp only [Ctx.inAllot, Ctx.number, Bool.false_eq_true, if_false, Bool.and_eq_true, decide_eq_true_eq]
      omega
    have clear : maskOf (fun _ => false) = 0 := by decide
    simp only [Ctx.regb1, fits, Bool.not_true, Bool.and_false, clear, lowest_zero, Option.map_none]

/-- Registers inside the allotment, none of them pending, stop no instruction that reads no slot (R45, R190, R203). -/
theorem Ctx.usable_of_fits {c : Ctx} (free : c.Free) {ls : LaneMask} {ns : List Need} {maps : List (Src × OpFmt)} (fits : ∀ x ∈ ns, c.Fits x)
    (plain : ∀ o ∈ maps, ∃ n, o.1 = .v n) : c.Usable ls ns maps := by
  refine ⟨List.findSome?_eq_none_iff.mpr fun x hx => Ctx.regb1_of_fits (fits x hx), ?_, ?_⟩
  · unfold Ctx.slotFault
    split
    · rfl
    · refine List.findSome?_eq_none_iff.mpr fun o ho => ?_
      obtain ⟨n, hn⟩ := plain o ho
      rw [hn]
  · simp only [Ctx.lav, free.pend, List.filter_nil, List.findSome?_nil]

theorem Ctx.isLane_laneWrites {c : Ctx} {d : Dst} {n : Nat} {res : List (Nat × List LaneWord)} :
    ∀ r ∈ c.laneWrites d n res, r.isLane = true := by
  intro r hr
  rcases List.mem_append.mp hr with active | cleared
  · obtain ⟨q, -, hq⟩ := List.mem_flatMap.mp active
    obtain ⟨y, -, rfl⟩ := List.mem_map.mp hq
    rfl
  · obtain ⟨q, -, hq⟩ := List.mem_flatMap.mp cleared
    obtain ⟨y, -, rfl⟩ := List.mem_map.mp hq
    rfl

theorem isLane_flagWrites {f : FFlags} : ∀ r ∈ (flagWrites f).2, r.isLane = true := by
  intro r hr
  by_cases none : f = 0
  · simp [flagWrites, none] at hr
  · simp only [flagWrites, if_neg none, List.mem_singleton] at hr
    rw [hr]
    rfl

theorem RegWrite.isResult_of_isLane {r : RegWrite} (h : r.isLane = true) : r.isResult = true := by
  rw [RegWrite.isResult, h, Bool.true_or]

/-- An instruction's effect is that long-latency results are pending. -/
def Ctx.Delivers (c : Ctx) (e : State) (m : Act State) : Prop :=
  ∃ regs ws, m = .ok (c.commit e true regs ws) ∧ ∀ r ∈ ws, r.isResult = true

section
variable {c : Ctx} (free : c.Free) {e : State} {d : BitVec 8} (hd : d.toNat < c.g.hdr.allot)
include free hd

/-- A lane-wise instruction on vector registers inside the allotment. -/
theorem Ctx.delivers_laneWise {flags : Bool} {ops : List (Nat × Src × OpFmt)} {f : List W32 → W32 × FFlags}
    (hops : ∀ o ∈ ops, ∃ n : BitVec 8, o.2.1 = .v n ∧ n.toNat < c.g.hdr.allot) :
    c.Delivers e (c.laneWise e true flags { ix := false, n := d } ops f) := by
  have usable : c.Usable c.act (dstNeed 1 { ix := false, n := d } ++ ops.flatMap fun o => srcNeed o.1 1 o.2.1) (ops.map (·.2)) := by
    refine c.usable_of_fits free (fun x hx => ?_) fun o ho => ?_
    · rcases List.mem_append.mp hx with dst | src
      · exact .inr ⟨0, d.toNat, List.mem_singleton.mp dst, hd⟩
      · obtain ⟨o, ho, hox⟩ := List.mem_flatMap.mp src
        obtain ⟨n, hn, inside⟩ := hops o ho
        rw [hn] at hox
        exact .inr ⟨o.1, n.toNat, List.mem_singleton.mp hox, inside⟩
    · obtain ⟨q, hq, rfl⟩ := List.mem_map.mp ho
      obtain ⟨n, hn, -⟩ := hops q hq
      exact ⟨n, hn⟩
  refine ⟨_, _, laneWise_ok usable (c.trails_closed free.closed _ _), fun r hr => ?_⟩
  rcases List.mem_append.mp hr with lane | flag
  · exact RegWrite.isResult_of_isLane (Ctx.isLane_laneWrites r lane)
  · cases flags
    · cases flag
    · exact RegWrite.isResult_of_isLane (isLane_flagWrites r flag)

/-- A reduction of a vector register inside the allotment. -/
theorem Ctx.delivers_reduce {v : BitVec 8} (hv : v.toNat < c.g.hdr.allot) {fm : OpFmt} {k : Combine} :
    c.Delivers e (c.reduce e { ix := false, n := d } (.v v) fm k true) := by
  have wide : c.Usable c.x.mask (.empty :: dstNeed 1 { ix := false, n := d }) := c.usable_of_fits free (fun x hx => by
    rcases List.mem_cons.mp hx with empty | dst
    · exact .inl empty
    · exact .inr ⟨0, d.toNat, List.mem_singleton.mp dst, hd⟩) nofun
  have usable : c.Usable c.act (srcNeed 1 1 (.v v)) [(.v v, fm)] := c.usable_of_fits free
    (fun x hx => .inr ⟨1, v.toNat, List.mem_singleton.mp hx, hv⟩) fun o ho => ⟨v, congrArg Prod.fst (List.mem_singleton.mp ho)⟩
  unfold Ctx.reduce Ctx.wide
  rw [wideGuard_ok e wide usable, act_ok_bind]
  refine ⟨_, _, writeLanes_ok (c.trails_closed free.closed _ _), fun r hr => ?_⟩
  rcases List.mem_append.mp hr with lane | rest
  · exact RegWrite.isResult_of_isLane (Ctx.isLane_laneWrites r lane)
  · rcases List.mem_cons.mp rest with rfl | flag
    · rfl
    · exact RegWrite.isResult_of_isLane (isLane_flagWrites r flag)

end

/-! ### The fused sequence (R253, R254) -/

/-- What a part of the sequence sees: the context's warp, as calm as the state. -/
structure Ctx.PartOf (c p : Ctx) : Prop extends p.Free where
  core : p.core = c.core
  slot : p.slot = c.slot
  group : p.g = c.g

theorem Ctx.partOf_part {c : Ctx} {s : State} (calm : c.Calm s []) (cur : s.cur = c.ref) (k : Nat) (i : Instr) : c.PartOf (c.part s k i) := by
  have core : (c.part s k i).core = c.core := congrArg SplitRef.core cur
  have slot : (c.part s k i).slot = c.slot := congrArg SplitRef.slot cur
  have warp : (c.part s k i).w = s.warp c.core c.slot := by
    rw [← core, ← slot]
    rfl
  have group : (c.part s k i).g = s.groupOf c.core c.slot := by
    rw [← core, ← slot]
    rfl
  exact ⟨⟨by rw [warp]; exact calm.pend, by rw [warp]; exact calm.closed⟩, core, slot, group.trans calm.group⟩

/-- The state in which a part of the sequence reads its operands. -/
def Ctx.partEntry (c : Ctx) (s : State) (i : Instr) : State := { s with cur := c.ref }.drainFor (wordsFor i)

theorem Ctx.cur_partEntry (c : Ctx) (s : State) (i : Instr) : (c.partEntry s i).cur = c.ref :=
  congrArg State.cur (State.onlyCores_drainFor { s with cur := c.ref } (wordsFor i))

theorem Ctx.Calm.partEntry {c : Ctx} {s : State} (h : c.Calm s []) (i : Instr) : c.Calm (c.partEntry s i) [] :=
  Ctx.Calm.drain (s := { s with cur := c.ref }) ⟨h.live, h.pend, h.closed, h.group⟩ nofun

/-- Long-latency results as they are pending. -/
def Ctx.pendingOf (p : Ctx) (regs : List RegName) (ws : List RegWrite) : Pending :=
  { split := p.sp, pc := p.x.pc, la := p.la, pos := 0, regs := regs, writes := ws }

theorem Ctx.PartOf.commit {c p : Ctx} (part : c.PartOf p) {e : State} (calm : c.Calm e []) (regs : List RegName) (ws : List RegWrite) :
    c.Calm (p.commit e true regs ws) [p.pendingOf regs ws] := by
  rw [Ctx.commit, if_pos rfl, part.core, part.slot]
  exact calm.modWarp (fun _ => rfl) (fun _ => rfl) fun w none => by rw [none, List.nil_append, Ctx.pendingOf]

/-- The results of a part are all that its own drain picks. -/
theorem Ctx.written_pendingOf (p : Ctx) (regs : List RegName) (ws : List RegWrite) :
    (written (fun q => q.split = p.sp && q.pc = p.x.pc) false [p.pendingOf regs ws]).2 = [] := by
  simp [written, Ctx.pendingOf]

/-- A part that delivers its results gives a state; unless it is the last, its results are written there and the warp is calm. -/
theorem Ctx.fusedPart_ok {c : Ctx} {s : State} (calm : c.Calm s []) (s0 : State) (k : Nat) (i : Instr) (last : Bool)
    (body : Ctx → State → Act State) (delivers : ∀ p e, c.PartOf p → p.Delivers e (body p e)) :
    ∃ t, c.fusedPart s0 k i last body s = .ok t ∧ (last = false → c.Calm t []) := by
  have part := Ctx.partOf_part (calm.partEntry i) (c.cur_partEntry s i) k i
  obtain ⟨regs, ws, ran, results⟩ := delivers _ (c.partEntry s i) part
  unfold Ctx.partEntry at ran
  unfold Ctx.fusedPart
  dsimp only
  rw [ran]
  refine ⟨_, rfl, ?_⟩
  rintro rfl
  have drained := (part.commit (calm.partEntry i) regs ws).drain (p := fun q => q.split = (c.part (c.partEntry s i) k i).sp &&
    q.pc = (c.part (c.partEntry s i) k i).x.pc) fun q hq => by
      rw [List.mem_singleton.mp hq]
      exact results
  rw [Ctx.written_pendingOf] at drained
  rw [if_neg (by decide)]
  unfold Ctx.partEntry at part drained
  rw [part.core, part.slot]
  exact drained.modWarp (fun _ => rfl) (fun _ => rfl) fun w none => by rw [none, List.map_nil]

/-- The four parts of the sequence give states one after another. -/
theorem Ctx.fuses_of_calm {c : Ctx} {s : State} (calm : c.Calm s []) (la : BitVec 4) {m v t e r : BitVec 8}
    (inside : ∀ n ∈ [m, v, t, e, r], n.toNat < c.g.hdr.allot) : ∃ s1 s2 s3 s4, c.Fuses s la m v t e r s1 s2 s3 s4 := by
  simp only [List.forall_mem_cons] at inside
  obtain ⟨hm, hv, ht, he, hr, -⟩ := inside
  obtain ⟨s1, max, calm1⟩ := c.fusedPart_ok calm s 0 (.rmaxf { la := 0, ru := false, pfx := none } { ix := false, n := m } (.v v)) false
    (fun c s => c.reduce s { ix := false, n := m } (.v v) (.flt .f32) (c.combineF .max) true)
    fun p e part => p.delivers_reduce part.toFree (part.group ▸ hm) (part.group ▸ hv)
  obtain ⟨s2, sub, calm2⟩ := c.fusedPart_ok (calm1 rfl) s 1
    (.fsub { la := 0, ru := false, pfx := none } { ix := false, n := t } (.v v) (.v m)) false
    (fun c s => c.fsub s { ix := false, n := t } (.v v) (.v m))
    fun p e part => p.delivers_laneWise part.toFree (part.group ▸ ht) (by
      simp only [ops2, part.group, List.forall_mem_cons]
      exact ⟨⟨v, rfl, hv⟩, ⟨m, rfl, hm⟩, nofun⟩)
  obtain ⟨s3, exp, calm3⟩ := c.fusedPart_ok (calm2 rfl) s 2 (.fexp { la := 0, ru := false, pfx := none } { ix := false, n := e } (.v t)) false
    (fun c s => c.special1 s .exp { ix := false, n := e } (.v t))
    fun p _ part => p.delivers_laneWise part.toFree (part.group ▸ he) (by
      simp only [part.group, List.forall_mem_cons]
      exact ⟨⟨t, rfl, ht⟩, nofun⟩)
  obtain ⟨s4, add, -⟩ := c.fusedPart_ok (calm3 rfl) s 3 (.raddf { la := la, ru := false, pfx := none } { ix := false, n := r } (.v e)) true
    (fun c s => c.reduce s { ix := false, n := r } (.v e) (.flt .f32) (c.combineF .add) true)
    fun p _ part => p.delivers_reduce part.toFree (part.group ▸ hr) (part.group ▸ he)
  exact ⟨s1, s2, s3, s4, max, sub, exp, add⟩

/-- A context holds the group of its warp. -/
theorem groupOf_ctxOf (s : State) (ws : Words) : s.groupOf (ctxOf s ws).core (ctxOf s ws).slot = (ctxOf s ws).g := rfl

/-- An instruction finds its warp calm where nothing is pending in it and no search region is open. -/
theorem Ctx.calm_seen {s : State} {i : Instr} (hs : s.Issues) (pend : (s.seen i).w.pend = []) (closed : (s.seen i).w.regionOpen = false) :
    (s.seen i).Calm (s.entering i) [] := by
  rw [← s.seen_warp i] at pend closed
  exact ⟨State.entering_live hs i, pend, closed, groupOf_ctxOf _ _⟩

/-- The sequence ends where its fourth part ends, the split behind it (R253). -/
theorem exec_fusedSoftmax {la : BitVec 4} {m v t e r : BitVec 8} {s s1 s2 s3 s4 : State} (hs : s.Issues)
    (fuses : (s.seen (.fusedSoftmax la m v t e r)).Fuses (s.entering (.fusedSoftmax la m v t e r)) la m v t e r s1 s2 s3 s4) :
    exec (.fusedSoftmax la m v t e r) s = .next ((s.seen (.fusedSoftmax la m v t e r)).jumped s4) := by
  show execFusedSoftmax la m v t e r s = _
  rw [execFusedSoftmax, run_ok hs]
  simp only [fuses.max, fuses.sub, fuses.exp, fuses.add, act_ok_bind, finish_moved]

end Sys2Proof.Machine

namespace Sys2Proof.VectorFloatCrosslane
open Sys2Proof.Machine

/-- Settles O12: the sequence ends behind its fourth part, and no part leaves anything that could stop the next. -/
theorem fusedSequence : Obligations.FusedSequence := by
  constructor
  · intro la m v t e r s s1 s2 s3 s4 hs i fuses
    exact exec_fusedSoftmax hs fuses
  · intro la m v t e r s hs i pend closed inside
    obtain ⟨s1, s2, s3, s4, fuses⟩ := Ctx.fuses_of_calm (Ctx.calm_seen hs pend closed) la inside
    exact ⟨s1, s2, s3, s4, fuses, exec_fusedSoftmax hs fuses⟩

end Sys2Proof.VectorFloatCrosslane
end

section

namespace Sys2Proof.Machine

/-! ### Counters (R273, R275, R278) -/

@[simp] theorem State.enqueue_counters (s : State) (part : Nat) (entry : BitVec 256) (vec : List Nat) :
    (s.enqueue part entry vec).counters = s.counters := rfl

/-- A task that becomes ready changes queues and tasks only. -/
@[simp] theorem State.makeReady_counters (s : State) (t : Task) : (s.makeReady t).counters = s.counters := by
  simp only [State.makeReady]
  split
  · rw [State.enqueue_counters]
  · rfl

theorem State.foldl_makeReady_counters (ts : List Task) (s : State) : (ts.foldl State.makeReady s).counters = s.counters := by
  induction ts generalizing s with
  | nil => rfl
  | cons t r ih => rw [List.foldl_cons, ih, State.makeReady_counters]

/-- A counter after an update: its value saturated, its tick kept, the epochs joined. -/
def Counter.raised (k : Counter) (n : W64) (tick : Nat) (vec : List Nat) : Counter :=
  let v := BitVec.ofNat 64 (min (k.value.toNat + n.toNat) (2 ^ 64 - 1))
  { value := v, log := k.log ++ [(v, tick)], vec := joinVec k.vec vec }

theorem Counter.raised_value (k : Counter) (n : W64) (tick : Nat) (vec : List Nat) :
    (k.raised n tick vec).value.toNat = min (k.value.toNat + n.toNat) (2 ^ 64 - 1) :=
  (BitVec.toNat_ofNat _ 64).trans (Nat.mod_eq_of_lt (by omega))

/-- The tasks that an update makes ready leave the counters as the update put them. -/
theorem State.counterAdd_counters (s : State) (part id : Nat) (n : W64) (vec : List Nat) :
    (s.counterAdd part id n vec).counters =
      put {} s.counters (counterKey part id) ((get {} s.counters (counterKey part id)).raised n s.gtime vec) := by
  simp only [State.counterAdd]
  rw [State.foldl_makeReady_counters]
  rfl

theorem counterKey_of_lt (part : Nat) {id : Nat} (h : id < 65536) : counterKey part id = part * 65536 + id := by
  rw [counterKey, Nat.mod_eq_of_lt h]

theorem counterUpdates : CounterUpdates := by
  intro s part id n vec small
  rw [State.counterAdd_counters, counterKey_of_lt part small]
  refine ⟨?_, fun k other => get_put_ne _ _ _ other⟩
  rw [get_put_self, Counter.raised_value]

/-- A release at device scope with nothing in its way closes the open epoch (R110). -/
theorem Ctx.releaseNow_dev {c : Ctx} {s : State} (ports : s.portsClear c.owner = true) (home : s.homeBusy c.die = false) :
    c.releaseNow s .dev = .ok (s.closeEpoch c.die) := by
  simp [Ctx.releaseNow, ports, home, State.release, wideScope]

section
variable {x : Ctl} {a b : Src} {s : State} (hs : s.Issues) {l : Nat}
include hs

/-- `cinc` with clean operands releases at device scope and updates the counter. -/
theorem exec_cinc_once (once : Once (s.seen (.cinc x a b)) l (srcNeed 1 1 a ++ srcNeed 2 1 b))
    (cleanId : ((s.seen (.cinc x a b)).uniform a).2 = false) (cleanN : ((s.seen (.cinc x a b)).uniform b).2 = false)
    (ports : (s.entering (.cinc x a b)).portsClear (s.seen (.cinc x a b)).owner = true)
    (home : (s.entering (.cinc x a b)).homeBusy (s.seen (.cinc x a b)).die = false) :
    let c := s.seen (.cinc x a b)
    let t := (s.entering (.cinc x a b)).closeEpoch c.die
    exec (.cinc x a b) s =
      .next (c.done (t.counterAdd c.g.part ((c.uniform a).1.toNat % 65536) (c.uniform b).1 (t.closedVec c.die))) := by
  intro c t
  show execCinc x a b s = _
  rw [execCinc, run_ok hs]
  simp only [once.lane, guard_ok once.usable, act_ok_bind, ksrc_data, ksrc_poison, cleanId, cleanN, Bool.or_self, Bool.false_eq_true, if_false,
    Ctx.releaseNow_dev ports home, act_pure, finish_ok, c, t]

/-- `joinc` with clean operands registers the increment with the group. -/
theorem exec_joinc_once (once : Once (s.seen (.joinc x a b)) l (srcNeed 1 1 a ++ srcNeed 2 1 b))
    (cleanId : ((s.seen (.joinc x a b)).uniform a).2 = false) (cleanN : ((s.seen (.joinc x a b)).uniform b).2 = false) :
    let c := s.seen (.joinc x a b)
    exec (.joinc x a b) s = .next (c.done ((s.entering (.joinc x a b)).modGroup c.core c.room fun g =>
      { g with join := some ((c.uniform a).1.toNat % 65536, (c.uniform b).1) })) := by
  intro c
  show execJoinc x a b s = _
  rw [execJoinc, run_ok hs]
  simp only [once.lane, guard_ok once.usable, act_ok_bind, ksrc_data, ksrc_poison, cleanId, cleanN, Bool.or_self, Bool.false_eq_true, if_false,
    act_pure, finish_ok, c]

end

/-- The counter that `crd` names: a uniform or an immediate, else the lane's word of its operand. -/
def Ctx.counterName (c : Ctx) (e : State) (l : Nat) (a : Src) : KReg :=
  match a with
  | .k _ | .imm _ => c.ksrc a
  | .v _ | .ix _ | .map _ _ => { data := (c.word e l a).data.setWidth 64, poison := (c.word e l a).poison }

/-- What `crd` does with the counter named: it acquires the counter's epochs, and the value pends. -/
def Ctx.readCounter (c : Ctx) (e : State) (d : BitVec 8) (id : KReg) : Act State :=
  if id.poison then stop .kill e
  else do
    let k := c.counter e (id.data.toNat % 65536)
    let t ← c.acquireVecNow e k.vec
    return c.writeK t true d { data := k.value }

theorem Ctx.counter_mod (c : Ctx) (e : State) (id : Nat) : c.counter e (id % 65536) = c.counter e id := by
  simp only [Ctx.counter, Nat.mod_mod]

theorem writeK_pends (c : Ctx) (e : State) (d : BitVec 8) (v : W64) :
    c.writeK e true d { data := v } = c.commit e true [.k d.toNat] [.k d.toNat { data := v }] := rfl

theorem Ctx.readCounter_ok {c : Ctx} {e : State} (d : BitVec 8) {id : KReg} (clean : id.poison = false)
    (seen : e.vecOk c.die (c.counter e id.data.toNat).vec = true) :
    let k := c.counter e id.data.toNat
    c.readCounter e d id = .ok (c.commit (e.mergeStamp c.die k.vec) true [.k d.toNat] [.k d.toNat { data := k.value }]) := by
  simp only [Ctx.readCounter, clean, Bool.false_eq_true, if_false, Ctx.counter_mod, Ctx.acquireVecNow_ok seen, act_ok_bind, writeK_pends, act_pure]

/-- `crd` reads once, for its lowest active lane. -/
theorem exec_crd_once {x : Ctl} {d : BitVec 8} {a : Src} {s : State} (hs : s.Issues) {l : Nat}
    (once : Once (s.seen (.crd x d a)) l (.k 0 d.toNat :: srcNeed 1 1 a) [(a, .i32)]) :
    let c := s.seen (.crd x d a)
    let e := s.entering (.crd x d a)
    exec (.crd x d a) s = .next (State.finish c (c.readCounter e d (c.counterName e l a)).ends) := by
  intro c e
  show execCrd x d a s = _
  rw [execCrd, run_ok hs]
  simp only [once.lane, guard_ok once.usable, act_ok_bind]
  cases a <;> rfl

/-- A registered increment whose group has ended, with its jobs gone and its writes performed, is applied and its room may be freed. -/
theorem State.joincApply_ended {s : State} {core n id : Nat} {k : W64} {g : Group} (group : (s.room core n).group = some g)
    (ended : g.phase = .ended) (join : g.join = some (id, k)) (jobs : ∀ j ∈ (s.core core).jobs, j.room ≠ n)
    (ports : s.portsClear (some g.owner) = true) (performed : ∀ r ∈ s.net, r.src ≠ dieOf core) :
    let t := s.closeEpoch (dieOf core)
    s.joincApply core n =
      ((t.counterAdd g.part id k (t.closedVec (dieOf core))).modGroup core n fun g => { g with join := none }).reap core n := by
  have noJob : (s.core core).jobs.any (fun j => j.room = n) = false := by simpa using jobs
  have noWrite : s.net.any (fun r => r.src = dieOf core) = false := by simpa using performed
  simp only [State.joincApply, group, ended, join, noJob, ports, noWrite, Bool.not_true, Bool.or_self, Bool.false_eq_true, if_false]

end Sys2Proof.Machine

namespace Sys2Proof.EnginesAndFabric
open Sys2Proof.Machine

theorem counterInstructions : CounterInstructions := by
  refine ⟨fun x a b s hs => ⟨fun idle => ?_, fun l once cleanId cleanN ports home => exec_cinc_once hs once cleanId cleanN ports home⟩,
    fun x d a s hs => ⟨fun idle => ?_, ?_⟩,
    fun x a b s hs => ⟨fun idle => ?_, fun l once cleanId cleanN => exec_joinc_once hs once cleanId cleanN⟩,
    fun core n id k g s group ended join jobs ports performed =>
      congrArg Host.Outcome.next (State.joincApply_ended group ended join jobs ports performed)⟩
  · show execCinc x a b s = _
    exact run_idle hs (fun c e h => by simp only [lowest_of_idle h]) idle
  · show execCrd x d a s = _
    exact run_idle hs (fun c e h => by simp only [lowest_of_idle h]) idle
  · intro id l once clean k seen
    have name : (s.seen (.crd x d a)).counterName (s.entering (.crd x d a)) l a = id := by
      simp only [id, once.lane, Option.getD_some]
      cases a <;> rfl
    rw [exec_crd_once hs once, name, Ctx.readCounter_ok d clean seen, finish_ok]
  · show execJoinc x a b s = _
    exact run_idle hs (fun c e h => by simp only [lowest_of_idle h]) idle

/-- Settles O28: what each of the instructions does, and an update of the counters by itself. -/
theorem counterResults : Obligations.CounterResults := ⟨counterInstructions, counterUpdates⟩

end Sys2Proof.EnginesAndFabric
end

section

namespace Sys2Proof.Machine

/-! ### Rings and codebooks (R290, R294) -/

theorem Ctx.first_of_lowest {c : Ctx} {l : Nat} (h : lowest c.act = some l) : c.first = l := by
  rw [Ctx.first, h, Option.getD_some]

/-- A release at group scope with nothing in its way changes nothing (R94, R110). -/
theorem Ctx.releaseNow_group {c : Ctx} {s : State} (ports : s.portsClear c.owner = true) (home : s.homeBusy c.die = false) :
    c.releaseNow s .group = .ok s := by
  simp [Ctx.releaseNow, ports, home, State.release, wideScope]

section
variable {c : Ctx} {e : State}

theorem Ctx.queueRecords_ok (d : BitVec 8) {n : Nat} (room : ((c.ring e).qcnt - (c.ring e).dcnt).toNat + n ≤ (c.ring e).size) :
    let q := (c.ring e).qcnt + BitVec.ofNat 32 n
    c.queueRecords e d n = .ok (c.putK (c.setRing e fun r => { r with qcnt := q }) d (q.setWidth 64)) :=
  if_neg (Nat.not_lt.mpr room)

theorem Ctx.queueRecords_waits (d : BitVec 8) {n : Nat} (full : (c.ring e).size < ((c.ring e).qcnt - (c.ring e).dcnt).toNat + n) :
    c.queueRecords e d n = stop (.wait { kind := 9, value := BitVec.ofNat 64 n }) e :=
  if_pos full

theorem Ctx.configure_ok (addr ex : Nat) (drained : (c.ring e).qcnt = (c.ring e).dcnt) (go : (c.ring e).halt = false) :
    c.configure e addr ex = .ok (c.setRing e fun r => { r with base := addr, size := 2 ^ ex, held := [] }) :=
  if_neg (by simpa [Ctx.ring] using And.intro drained go)

theorem Ctx.configure_waits (addr ex : Nat) (busy : (c.ring e).qcnt ≠ (c.ring e).dcnt ∨ (c.ring e).halt = true) :
    c.configure e addr ex = stop (.wait { kind := 9, value := BitVec.ofNat 64 addr }) e :=
  if_pos (by simpa [Ctx.ring] using busy)

theorem Ctx.waitRecords_reached (d : BitVec 8) {n : W32} (done : ((c.ring e).dcnt - n).toNat < 2 ^ 31) :
    c.waitRecords e d n = .ok (c.putK e d ((c.ring e).dcnt.setWidth 64)) :=
  if_pos (decide_eq_true done)

section
variable (d : BitVec 8) {n : W32} (ahead : 2 ^ 31 ≤ ((c.ring e).dcnt - n).toNat)
include ahead

/-- A record that a halted ring has not reached is MXH with the halted record's STATUS. -/
theorem Ctx.waitRecords_halted (halt : (c.ring e).halt = true) :
    let r := c.ring e
    c.waitRecords e d n = stop (.trap
      { cause := 0x23, lanes := bitOf c.first
        d := BitVec.ofNat 64 (((e.spRead c.core c.room (r.addr r.dcnt.toNat + 2) 1).1.headD 0).toNat / 16)
        imm := some (r.dcnt.setWidth 64) }) e :=
  (if_neg (by simpa [reached, Ctx.ring] using ahead)).trans (if_pos halt)

theorem Ctx.waitRecords_waits (go : (c.ring e).halt = false) :
    c.waitRecords e d n = stop (.wait { kind := 9, value := n.setWidth 64 }) e :=
  (if_neg (by simpa [reached, Ctx.ring] using ahead)).trans (if_neg (by simpa [Ctx.ring] using go))

end

/-- Whether another gang holds a codebook on a core of the group's gang. -/
def Ctx.bookBusy (c : Ctx) (e : State) (j : Nat) : Prop :=
  ∃ k ∈ e.gangCores c.g, ∃ h, (at_ ({} : Codebook) (e.core k).books j).holder = some h ∧ h ≠ (c.g.launch, c.g.gang)

theorem Ctx.loadBook_busy (l : Nat) (sp : Bool) {j : Nat} (addr : Nat) (busy : c.bookBusy e j) :
    c.loadBook e l sp j addr = stop (.wait { kind := 10, addr := BitVec.ofNat 64 addr, value := BitVec.ofNat 64 j }) e := by
  obtain ⟨k, member, h, held, other⟩ := busy
  exact if_pos (List.any_eq_true.mpr ⟨k, member, by rw [held]; exact decide_eq_true other⟩)

/-- A codebook free of other gangs is read once and given to every core of the gang. -/
theorem Ctx.loadBook_ok {e1 : State} {l : Nat} {sp : Bool} {j addr : Nat} {ps : List Place} (free : ¬ c.bookBusy e j)
    (range : c.range e (spSpace sp) .read l addr 32 2 = .ok ps) (seen : c.observe e none ps 2 (some (BitVec.ofNat 64 addr)) = .ok e1) :
    let book : Codebook := { holder := some (c.g.launch, c.g.gang), bytes := (c.readRange e1 ps 2).1, poison := (c.readRange e1 ps 2).2 }
    c.loadBook e l sp j addr = .ok ((e.gangCores c.g).foldl (fun t k => t.modCore k fun y => { y with books := y.books.set j book }) e1) := by
  refine (if_neg fun busy => free ?_).trans ?_
  · obtain ⟨k, member, held⟩ := List.any_eq_true.mp busy
    split at held
    · exact ⟨k, member, _, ‹_›, of_decide_eq_true held⟩
    · cases held
  · rw [spSpace] at range
    simp only [range, seen, act_ok_bind, act_pure]

end

/-! ### The instructions past their checks (R287, R290, R294) -/

section
variable {x : Ctl} {s : State} (hs : s.Issues) {l : Nat}
include hs

/-- `mxq` of a count that the ring can hold, and what MXR says of any other. -/
theorem exec_mxq_once {d : BitVec 8} {a : Src} (once : Once (s.seen (.mxq x d a)) l (.k 0 d.toNat :: srcNeed 1 1 a))
    (clean : ((s.seen (.mxq x d a)).uniform a).2 = false) :
    let c := s.seen (.mxq x d a)
    let e := s.entering (.mxq x d a)
    let n := (c.uniform a).1.toNat
    exec (.mxq x d a) s = .next (State.finish c
      (if (c.ring e).size = 0 ∨ n = 0 ∨ (c.ring e).size < n then stop (c.mxr n (c.ring e).size) e
        else c.releaseNow e .group >>= fun e => c.queueRecords e d n).ends) := by
  intro c e n
  show execMxq x d a s = _
  rw [execMxq, run_ok hs]
  simp only [once.lane, guard_ok once.usable, act_ok_bind, Ctx.count, ksrc_data, ksrc_poison, clean, Bool.false_eq_true, if_false,
    Bool.or_eq_true, decide_eq_true_eq, or_assoc]
  rfl

/-- `mxcfg` of a base that it may read. -/
theorem exec_mxcfg_once {a ex : BitVec 8} {ps : List Place} (once : Once (s.seen (.mxcfg x a ex)) l [.k 1 a.toNat])
    (clean : (at_ ({} : KReg) (s.seen (.mxcfg x a ex)).w.uni a.toNat).poison = false)
    (range : (s.seen (.mxcfg x a ex)).range (s.entering (.mxcfg x a ex)) .scratch .read l ((s.seen (.mxcfg x a ex)).uniAddr true a)
      (64 * 2 ^ ex.toNat) 64 = .ok ps) :
    let c := s.seen (.mxcfg x a ex)
    exec (.mxcfg x a ex) s = .next (State.finish c (c.configure (s.entering (.mxcfg x a ex)) (c.uniAddr true a) ex.toNat).ends) := by
  intro c
  show execMxcfg x a ex s = _
  rw [execMxcfg, run_ok hs]
  rw [Ctx.uniAddr, if_pos rfl] at range
  simp only [once.lane, guard_ok once.usable, act_ok_bind, Ctx.kreg, clean, Bool.false_eq_true, if_false, range]
  rfl

theorem exec_mxwait_once {d : BitVec 8} {a : Src} (once : Once (s.seen (.mxwait x d a)) l (.k 0 d.toNat :: srcNeed 1 1 a))
    (clean : ((s.seen (.mxwait x d a)).uniform a).2 = false) :
    let c := s.seen (.mxwait x d a)
    exec (.mxwait x d a) s =
      .next (State.finish c (c.waitRecords (s.entering (.mxwait x d a)) d ((c.uniform a).1.setWidth 32)).ends) := by
  intro c
  show execMxwait x d a s = _
  rw [execMxwait, run_ok hs]
  simp only [once.lane, guard_ok once.usable, act_ok_bind, Ctx.count, ksrc_data, ksrc_poison, clean, Bool.false_eq_true, if_false, c]

theorem exec_mxcb_once {a : BitVec 8} {sp : Bool} {j : BitVec 3} (once : Once (s.seen (.mxcb x a sp j)) l [.k 1 a.toNat])
    (clean : (at_ ({} : KReg) (s.seen (.mxcb x a sp j)).w.uni a.toNat).poison = false) :
    let c := s.seen (.mxcb x a sp j)
    exec (.mxcb x a sp j) s =
      .next (State.finish c (c.loadBook (s.entering (.mxcb x a sp j)) l sp j.toNat (c.uniAddr sp a)).ends) := by
  intro c
  show execMxcb x a sp j s = _
  rw [execMxcb, run_ok hs]
  simp only [once.lane, guard_ok once.usable, act_ok_bind, Ctx.kreg, clean, Bool.false_eq_true, if_false]
  rfl

end

/-! ### STATUS and the ring (R287) -/

/-- A record's STATUS is written to the scratchpad, not to the ring. -/
theorem State.room_setStatus (s : State) (c n r v : Nat) : (s.setStatus c n r v).room c n = s.room c n :=
  congrArg (fun rs => rs.getD n {}) (State.core_modCore_of (P := fun k => k.rooms = (s.core c).rooms) s c _ rfl rfl)

/-- Every queued record from the halted one on gets STATUS 7. -/
def Ctx.cancelled (c : Ctx) (e : State) : State :=
  (List.range ((c.ring e).qcnt - (c.ring e).dcnt).toNat).foldl
    (fun t n => t.setStatus c.core c.room ((c.ring e).dcnt + BitVec.ofNat 32 n).toNat 7) e

theorem State.room_foldl_setStatus (c n v : Nat) (f : Nat → Nat) (l : List Nat) (s : State) :
    (l.foldl (fun t k => t.setStatus c n (f k) v) s).room c n = s.room c n := by
  induction l generalizing s with
  | nil => rfl
  | cons k l ih => rw [List.foldl_cons, ih, State.room_setStatus]

theorem Ctx.ring_cancelled (c : Ctx) (e : State) : c.ring (c.cancelled e) = c.ring e :=
  congrArg Room.ring (State.room_foldl_setStatus ..)

/-- How a ring changes is read off the ring that is there. -/
theorem Ctx.setRing_congr {c : Ctx} {e : State} {f g : Ring → Ring} (h : f (c.ring e) = g (c.ring e)) : c.setRing e f = c.setRing e g := by
  have rooms : modifyAt (e.core c.core).rooms c.room (fun x => { x with ring := f x.ring }) =
      modifyAt (e.core c.core).rooms c.room fun x => { x with ring := g x.ring } :=
    modifyAt_congr {} (congrArg (fun r => { e.room c.core c.room with ring := r }) h)
  have cores : modifyAt e.cores c.core (fun k => { k with rooms := modifyAt k.rooms c.room fun x => { x with ring := f x.ring } }) =
      modifyAt e.cores c.core fun k => { k with rooms := modifyAt k.rooms c.room fun x => { x with ring := g x.ring } } :=
    modifyAt_congr {} (congrArg (fun rs => { e.core c.core with rooms := rs }) rooms)
  exact congrArg (fun cs => { e with cores := cs }) cores

/-- What `mxrun` does to a halted ring: its record runs again, or is skipped, or all that is queued is cancelled. -/
def mxrunRule (i : Instr) (c : Ctx) (e : State) : State :=
  match i with
  | .mxrunResume _ => c.setRing e fun r => { r with halt := false, how := .resume }
  | .mxrunSkip _ => c.setRing (e.setStatus c.core c.room (c.ring e).dcnt.toNat 6) fun r => { r with halt := false, dcnt := r.dcnt + 1 }
  | .mxrunAbort _ => c.setRing (c.cancelled e) fun r => { r with halt := false, dcnt := (c.ring e).qcnt }
  | _ => e

/-- The QCNT at which an abort stands is that of the ring whose records are cancelled. -/
theorem mxrunRule_abort (x : Ctl) (c : Ctx) (e : State) :
    mxrunRule (.mxrunAbort x) c e = c.setRing (c.cancelled e) fun r => { r with halt := false, dcnt := r.qcnt } := by
  unfold mxrunRule
  exact Ctx.setRing_congr (by rw [Ctx.ring_cancelled])

section
variable {i : Instr} {x : Ctl} (hi : i = .mxrunResume x ∨ i = .mxrunSkip x ∨ i = .mxrunAbort x)
include hi

theorem exec_mxrun (s : State) : exec i s = run i s fun c e =>
    if c.act = 0 then .ok e
    else c.releaseNow e .group >>= fun e => if !(c.ring e).halt then .ok e else .ok (mxrunRule i c e) := by
  rcases hi with rfl | rfl | rfl
  · rfl
  · rfl
  · simp only [mxrunRule_abort]
    rfl

variable {s : State} (hs : s.Issues)
include hs

theorem exec_mxrun_idle (idle : (s.seen i).act = 0) : exec i s = .next ((s.seen i).done (s.entering i)) := by
  rw [exec_mxrun hi]
  exact run_idle hs (fun _ _ h => if_pos h) idle

/-- With an active lane `mxrun` changes a ring that is halted, and no other. -/
theorem exec_mxrun_active (active : (s.seen i).act ≠ 0) (ports : (s.entering i).portsClear (s.seen i).owner = true)
    (home : (s.entering i).homeBusy (s.seen i).die = false) :
    let c := s.seen i
    let e := s.entering i
    exec i s = .next (c.done (if (c.ring e).halt = true then mxrunRule i c e else e)) := by
  intro c e
  rw [exec_mxrun hi, run_ok hs, if_neg active, Ctx.releaseNow_group ports home, act_ok_bind]
  cases halt : (c.ring e).halt <;> simp [c, e]

end
end Sys2Proof.Machine

namespace Sys2Proof.MatrixAndMapSlot
open Sys2Proof.Machine

theorem matrixRingInstructions : MatrixRingInstructions := by
  refine ⟨fun x d a s hs => ⟨fun idle => ?_, fun l once clean => ?_⟩,
    fun i x s hi hs => ⟨exec_mxrun_idle hi hs, fun active ports home => ?_⟩,
    fun x a ex s hs => ⟨fun idle => ?_, fun l ps once clean range => ?_⟩,
    fun x d a s hs => ⟨fun idle => ?_, fun l once clean => ?_⟩⟩
  · show execMxq x d a s = _
    exact run_idle hs (fun c e h => by simp only [lowest_of_idle h]) idle
  · have ran := exec_mxq_once hs once clean
    refine ⟨fun bad => ?_, fun nonzero fits ports home room => ?_, fun nonzero fits ports home full => ?_⟩
    · rw [ran, if_pos bad, Ctx.mxr, finish_trap, Ctx.first_of_lowest once.lane]
    all_goals rw [ran, if_neg (by omega), Ctx.releaseNow_group ports home, act_ok_bind]
    · rw [Ctx.queueRecords_ok d room, finish_ok]
    · rw [Ctx.queueRecords_waits d full, finish_wait]
  · have ran := exec_mxrun_active hi hs active ports home
    refine ⟨fun go => ?_, fun halt h => ?_, fun halt h => ?_, fun halt h => ?_⟩
    · rw [ran, if_neg (by simpa using go)]
    all_goals rw [ran, if_pos halt]; subst h; rfl
  · show execMxcfg x a ex s = _
    exact run_idle hs (fun c e h => by simp only [lowest_of_idle h]) idle
  · have ran := exec_mxcfg_once hs once clean range
    refine ⟨fun drained go => ?_, fun busy => ?_⟩
    · rw [ran, Ctx.configure_ok _ _ drained go, finish_ok]
    · rw [ran, Ctx.configure_waits _ _ busy, finish_wait]
  · show execMxwait x d a s = _
    exact run_idle hs (fun c e h => by simp only [lowest_of_idle h]) idle
  · have ran := exec_mxwait_once hs once clean
    refine ⟨fun done => ?_, fun ahead halt => ?_, fun ahead go => ?_⟩
    · rw [ran, Ctx.waitRecords_reached d done, finish_ok]
    · rw [ran, Ctx.waitRecords_halted d ahead halt, finish_trap, Ctx.first_of_lowest once.lane]
    · rw [ran, Ctx.waitRecords_waits d ahead go, finish_wait]

theorem codebookLoads : CodebookLoads := by
  refine fun x a sp j s hs => ⟨fun idle => ?_, fun l once clean => ?_⟩
  · show execMxcb x a sp j s = _
    exact run_idle hs (fun c e h => by simp only [lowest_of_idle h]) idle
  · have ran := exec_mxcb_once hs once clean
    refine ⟨fun busy => ?_, fun ps mine range e1 seen => ?_⟩
    · rw [ran, Ctx.loadBook_busy l sp _ busy, finish_wait]
    · have free : ¬ (s.seen (.mxcb x a sp j)).bookBusy (s.entering (.mxcb x a sp j)) j.toNat :=
        fun ⟨k, member, h, held, other⟩ => other (mine k member h held)
      rw [ran, Ctx.loadBook_ok free range seen, finish_ok]

theorem engineWaitsEnd : EngineWaitsEnd := by
  intro r x s y c u b q
  have ends : ∀ {k i t}, s.Waiting r k i x → k ∈ [9, 10] → _ → exec (.engineWaitEnd r) s = .next (s.resumed r x t) :=
    fun waits kind body => congrArg Host.Outcome.next (resume_ok waits kind body)
  exact ⟨fun d _ waits room => ends waits (by simp) (Ctx.queueRecords_ok d room),
    fun _ ex waits drained go => ends waits (by simp) (Ctx.configure_ok _ _ drained go),
    fun d _ waits done => ends waits (by simp) (Ctx.waitRecords_reached d done),
    fun _ _ _ _ waits load => ends waits (by simp) load⟩

/-- Settles O32: the instructions of the ring and of codebooks by what each does past its checks, and a wait that ends by the same effect. -/
theorem matrixInstructions : Obligations.MatrixInstructions := ⟨matrixRingInstructions, codebookLoads, engineWaitsEnd⟩

end Sys2Proof.MatrixAndMapSlot
end

section

namespace Sys2Proof.Machine

/-! ### Records of bytes read back field by field (R302, R306, R308) -/

theorem take_leBytes_append (n x : Nat) (more : List Byte) : (leBytes n x ++ more).take n = leBytes n x :=
  List.take_left' (leBytes_length n x)

theorem drop_leBytes_append {n k : Nat} (h : n ≤ k) (x : Nat) (more : List Byte) : (leBytes n x ++ more).drop k = more.drop (k - n) := by
  rw [List.drop_append, List.drop_eq_nil_of_le (by rw [leBytes_length]; exact h), List.nil_append, leBytes_length]

theorem take_leBytes (n x : Nat) : (leBytes n x).take n = leBytes n x := List.take_of_length_le (leBytes_length n x).le

theorem ofBytes_leBytes_of_lt {n x : Nat} (h : x < 256 ^ n) : ofBytes (leBytes n x) = x := by
  rw [ofBytes_leBytes, Nat.mod_eq_of_lt h]

theorem SHdr.bytes_length (h : SHdr) : h.bytes.length = 32 := by
  simp only [SHdr.bytes, List.length_append, leBytes_length, List.length_replicate]

theorem Choice.bytes_length (k : Choice) : k.bytes.length = 32 := by
  simp only [Choice.bytes, List.length_append, leBytes_length]

theorem trailEntry_length (kind : Nat) (oldp : Bool) (place old : Nat) : (trailEntry kind oldp place old).length = 16 := by
  simp only [trailEntry, List.length_append, leBytes_length]

theorem SHdr.of_bytes {h : SHdr} (cptop : h.cptop < 256 ^ 4) (trtop : h.trtop < 256 ^ 4) (serial : h.serial < 256 ^ 4) (units : h.units < 256 ^ 1)
    (level : h.level < 256 ^ 1) (thefts : h.thefts < 256 ^ 4) (given : h.given < 256 ^ 4) : SHdr.of h.bytes = h := by
  have flag : ofBytes (leBytes 1 (if h.exhausted then 1 else 0)) % 2 = (if h.exhausted then 1 else 0) := by cases h.exhausted <;> rfl
  simp only [SHdr.of, SHdr.bytes, List.append_assoc, List.drop_zero, drop_leBytes_append, Nat.reduceLeDiff, Nat.reduceSub, take_leBytes_append,
    flag, ofBytes_leBytes_of_lt, cptop, trtop, serial, units, level, thefts, given]
  cases h
  simp

/-- The byte of a choice point that holds ORIGIN and the two flags. -/
theorem origin_byte {o : Nat} (h : o < 32) (stolen revoked : Bool) :
    let x := ofBytes (leBytes 1 (o + (if stolen then 64 else 0) + (if revoked then 128 else 0)))
    x % 32 = o ∧ tbit x 6 = stolen ∧ tbit x 7 = revoked := by
  have fits : o + (if stolen then 64 else 0) + (if revoked then 128 else 0) < 256 ^ 1 := by cases stolen <;> cases revoked <;> simp <;> omega
  simp only [ofBytes_leBytes_of_lt fits, tbit]
  refine ⟨?_, ?_, ?_⟩ <;> cases stolen <;> cases revoked <;> simp <;> omega

theorem Choice.of_bytes {k : Choice} (alts : k.alts < 256 ^ 8) (count : k.count < 256 ^ 2) (next : k.next < 256 ^ 2) (tmark : k.tmark < 256 ^ 4)
    (resume : k.resume < 256 ^ 4) (dreg : k.dreg < 256 ^ 1) (origin : k.origin < 32) (serial : k.serial < 256 ^ 4) : Choice.of k.bytes = k := by
  obtain ⟨ho, hs, hr⟩ := origin_byte origin k.stolen k.revoked
  have thieves : k.thieves.toNat < 256 ^ 4 := k.thieves.isLt
  simp only [Choice.of, Choice.bytes, List.append_assoc, List.drop_zero, drop_leBytes_append, Nat.reduceLeDiff, Nat.reduceSub, take_leBytes_append,
    take_leBytes, ho, hs, hr, ofBytes_leBytes_of_lt, alts, count, next, tmark, resume, dreg, serial, thieves, BitVec.ofNat_toNat, BitVec.setWidth_eq]

theorem trailEntry_fields {kind place old : Nat} (oldp : Bool) (hk : kind < 4) (hp : place < 2 ^ 60) (ho : old < 256 ^ 8) :
    let bs := trailEntry kind oldp place old
    let lo := ofBytes (bs.take 8)
    lo % 4 = kind ∧ lo / 8 = place ∧ tbit lo 2 = oldp ∧ ofBytes (bs.drop 8) = old := by
  have low : place * 8 % 2 ^ 64 + (if oldp then 4 else 0) + kind < 256 ^ 8 := by cases oldp <;> simp <;> omega
  simp only [trailEntry, take_leBytes_append, drop_leBytes_append, Nat.le_refl, Nat.sub_self, List.drop_zero, ofBytes_leBytes_of_lt low,
    ofBytes_leBytes_of_lt ho, tbit]
  refine ⟨?_, ?_, ?_, trivial⟩ <;> cases oldp <;> simp <;> omega

theorem State.stepOnce_tripped {s : State} (tripped : s.tripped = true) (off : s.agenda.head? ≠ some (.event .powerOn)) :
    s.stepOnce = .next { s with agenda := s.agenda.tail } := by
  unfold State.stepOnce
  cases agenda : s.agenda with
  | nil =>
    have same : s = { s with agenda := [] } := by rw [← agenda]
    exact (if_pos tripped).trans (congrArg Host.Outcome.next same)
  | cons m rest =>
    cases m with
    | issue c q => simp [tripped]
    | event i =>
      have other : i ≠ .powerOn := fun h => off (by rw [agenda, h]; rfl)
      simp [tripped, other]
    | time ns cclk => simp [tripped]

end Sys2Proof.Machine

namespace Sys2Proof.SearchTrapsAndHost
open Sys2Proof.Machine

/-- Settles O37. -/
theorem searchRecords : Obligations.SearchRecords :=
  ⟨fun _ cptop trtop serial units level thefts given => ⟨SHdr.of_bytes cptop trtop serial units level thefts given, SHdr.bytes_length _⟩,
    fun _ alts count next tmark resume dreg origin serial => ⟨Choice.of_bytes alts count next tmark resume dreg origin serial, Choice.bytes_length _⟩,
    fun _ _ _ oldp hk hp ho => ⟨trailEntry_length _ _ _ _, trailEntry_fields oldp hk hp ho⟩⟩

/-- Settles O51. -/
theorem trippedDeviceStandsStill : Obligations.TrippedDeviceStandsStill := fun _ => State.stepOnce_tripped

end Sys2Proof.SearchTrapsAndHost
end

section

namespace Sys2Proof.Machine

/-! ### Firmware, power and cooling (R398 to R401) -/

theorem State.fwBack_late {s : State} (phase : s.fw.phase = .handover) (late : s.fw.since + 50000000 ≤ s.gtime) :
    s.fwBack = s.fwEnd s.fw.active 9 :=
  if_pos (by simp [phase, beat, late])

theorem execFwHeartbeat_inTime {s : State} (phase : s.fw.phase = .handover) (inTime : s.gtime ≤ s.fw.since + 50000000) (accepts : Bool) :
    execFwHeartbeat accepts s = .next (if accepts then s.fwEnd (!s.fw.active) 0 else s.fwEnd s.fw.active 9) :=
  congrArg Host.Outcome.next (if_neg (by simp [phase, beat, Nat.not_lt.mpr inTime]))

theorem State.boot_fns (s : State) : s.boot.fns = s.fns := by
  unfold State.boot
  dsimp only
  split <;> rfl

theorem State.ready_powerOn {s : State} (h : 0 < s.fns.length) : (s.powerOn.fns.getD 0 {}).ready = true := by
  show ((modifyAt s.boot.fns 0 fun f => { f with ready := true }).getD 0 {}).ready = true
  rw [getD_modifyAt_self _ _ _ _ (s.boot_fns ▸ h)]

theorem State.launches_thermalTrip {s : State} : ∀ l ∈ s.thermalTrip.launches, l.complete = true ∨ l.aborted = true := by
  intro l member
  obtain ⟨k, -, rfl⟩ := List.mem_map.mp member
  by_cases done : k.complete = true
  · exact .inl (by rw [if_pos done, done])
  · exact .inr (by rw [if_neg done])

end Sys2Proof.Machine

namespace Sys2Proof.SearchTrapsAndHost
open Sys2Proof.Machine

/-- Settles O47: each row's meaning under the phase that it asks for. -/
theorem firmwareAndPower : Obligations.FirmwareAndPower := by
  refine ⟨fun s phase => ?_, fun s phase inTime => ⟨execFwHeartbeat_inTime phase inTime true, execFwHeartbeat_inTime phase inTime false⟩,
    fun s phase late => congrArg Host.Outcome.next (State.fwBack_late phase late), fun s phase => ?_,
    fun s => ⟨rfl, rfl, rfl, rfl, rfl, fun nonce => ⟨_, rfl⟩, fun idx => ⟨_, rfl⟩⟩,
    fun s => ⟨s.powerOn, rfl, rfl, rfl, State.ready_powerOn⟩, fun s fast => ?_,
    fun s => ⟨s.thermalTrip, rfl, rfl, State.launches_thermalTrip⟩⟩
  · exact congrArg Host.Outcome.next (if_pos phase)
  · exact congrArg Host.Outcome.next (if_pos phase)
  · show Host.Outcome.next { s with mhz := if 200 ≤ s.mhz then s.mhz - 100 else s.mhz } = _
    rw [if_pos fast]

end Sys2Proof.SearchTrapsAndHost
end

section

namespace Sys2Proof.Machine

/-! ### Trap delivery (R342 to R346, R348) -/

theorem State.room_setWarp (s : State) (c slot n : Nat) (w : Warp) : (s.setWarp c slot w).room c n = s.room c n :=
  State.core_modCore_of (P := fun k => k.rooms.getD n {} = s.room c n) s c _ rfl rfl

theorem State.warp_setWarp_self {s : State} {c : Nat} (h : c < s.cores.length) (slot : Nat) (w : Warp) : (s.setWarp c slot w).warp c slot = w := by
  rw [State.warp, State.warp?_setWarp_self s c slot w h]
  rfl

theorem State.warp_modGroup (s : State) (c n k j : Nat) (f : Group → Group) : (s.modGroup c n f).warp k j = s.warp k j :=
  congrArg (fun w : Option Warp => w.getD {})
    (State.warps_modCore (f := fun k => { k with rooms := modifyAt k.rooms n fun x => { x with group := x.group.map f } }) (fun _ => rfl) k j)

theorem State.drain_of_no_pend {s : State} {c slot : Nat} {w : Warp} {p : Pending → Bool} (live : s.warp? c slot = some w) (none : w.pend = []) :
    s.drain c slot p = s.setWarp c slot w := by
  have warp : s.warp c slot = w := by rw [State.warp, live]; rfl
  rw [State.drain, State.writePend, warp, none]
  show State.modWarp s c slot _ = _
  rw [State.modWarp, live]
  dsimp only
  rw [none]
  have same : { w with pend := [] } = w := by rw [← none]
  exact congrArg (s.setWarp c slot) same

theorem State.pagerTakes_of_no_page {s : State} {g : Group} {t : Trap} (h : t.cause ≠ 0x12 ∧ t.cause ≠ 0x14 ∧ t.cause ≠ 0x16) :
    s.pagerTakes g t = none := by
  obtain ⟨h12, h14, h16⟩ := h
  unfold State.pagerTakes
  cases t.va with
  | none => rfl
  | some va => simp [h12, h14, h16]

theorem Trap.regs_cause (t : Trap) (ws : Words) (pc : W64) : (t.regs ws pc).cause = t.word := by
  unfold Trap.regs
  dsimp only
  split
  · split <;> rfl
  · rfl

/-- The device once a trap that no pager takes is about to be delivered: nothing pends, and a declined fault is forgotten (R339, R351). -/
def State.delivering (s : State) (c slot : Nat) (w : Warp) (g : Group) (t : Trap) : State :=
  { s.setWarp c slot w with tries := s.tries.filter fun p =>
      !(p.launch = g.launch && p.groupid = g.groupid && p.lane = (lowest t.lanes).getD 0 && some p.page = t.va.map (· / 4096)) }

section
variable {s : State} {r : SplitRef} {ws : Words} {t : Trap} {w : Warp} {x : Split} {g : Group}
  (live : s.warp? r.core r.slot = some w) (resident : (s.room r.core w.room).group = some g)
include live resident

/-- The group stands in its room, and the warp in its core, up to the delivery. -/
theorem State.delivering_there : r.core < (s.delivering r.core r.slot w g t).cores.length ∧
    ((s.delivering r.core r.slot w g t).room r.core w.room).group = some g ∧ (s.delivering r.core r.slot w g t).warp r.core r.slot = w := by
  have inside := State.core_lt_of_warp? (Option.isSome_of_eq_some live)
  exact ⟨(modifyAt_length _ _ _).symm ▸ inside, (congrArg Room.group (State.room_setWarp s r.core r.slot w.room w)).trans resident,
    State.warp_setWarp_self inside r.slot w⟩

/-- A trap that no pager takes: a double fault in handler mode, the handler where one is enabled, and else a fault of the group. -/
theorem State.takeTrap_eq (split : w.split r.split = some x) (idle : w.pend = [])
    (noPage : t.cause ≠ 0x12 ∧ t.cause ≠ 0x14 ∧ t.cause ≠ 0x16) :
    let u := s.delivering r.core r.slot w g t
    s.takeTrap r ws t =
      if w.handler then
        (u.modGroup r.core w.room fun g => { g with phase := .doubleFaulted, fault := (w.num, r.split) }).emit
          (.innkeeper 2 r.core w.room t.word w.trap.cause)
      else if g.hdr.handler ≠ 0xFFFFFFFF && tbit g.hdr.trapmask (trapClass t.cause) then
        u.setWarp r.core r.slot (w.entered r.split x g.hdr.handler (t.regs ws x.pc))
      else
        ((u.setWarp r.core r.slot { w with trap := t.regs ws x.pc }).modGroup r.core w.room fun g =>
          { g with phase := .faulted, fault := (w.num, r.split) }).emit (.innkeeper 1 r.core w.room t.word 0) := by
  have inside := State.core_lt_of_warp? (Option.isSome_of_eq_some live)
  have warp := State.warp_setWarp_self inside r.slot w
  have group : (s.setWarp r.core r.slot w).group r.core w.room = g :=
    State.group_of_some ((congrArg Room.group (State.room_setWarp s r.core r.slot w.room w)).trans resident)
  have noAts : ¬ (decide (t.cause = 0x14) && decide (t.a.toNat % 8 = 0)) = true := by simp [noPage.2.1]
  simp only [State.takeTrap, State.drain_of_no_pend live idle, if_neg noAts, warp, group, split, State.pagerTakes_of_no_page noPage]
  rfl

end

end Sys2Proof.Machine

namespace Sys2Proof.SearchTrapsAndHost
open Sys2Proof.Machine

/-- Settles O23: the three ends of a trap that no pager takes, read off the state that each leaves. -/
theorem trapDelivery : Obligations.TrapDelivery := by
  intro s r ws t w x g live split resident idle noPage
  have taken := State.takeTrap_eq (ws := ws) live resident split idle noPage
  obtain ⟨inside, group, warp⟩ := State.delivering_there (t := t) live resident
  refine ⟨t.regs_cause ws x.pc, fun outside named enabled => ?_, fun outside masked => ?_, fun handling => ?_⟩
  · rw [taken, outside, if_neg Bool.false_ne_true, if_pos (by simp [named, enabled])]
    exact ⟨State.warp_setWarp_self inside _ _, State.group_of_some ((congrArg Room.group (State.room_setWarp _ _ _ _ _)).trans group)⟩
  · rw [taken, outside, if_neg Bool.false_ne_true, if_neg (by rcases masked with h | h <;> simp [h])]
    refine ⟨(State.warp_modGroup _ _ _ _ _ _).trans (State.warp_setWarp_self inside _ _), ?_, rfl⟩
    exact State.group_modGroup_self ((congrArg Room.group (State.room_setWarp _ _ _ _ _)).trans group) _
  · rw [taken, if_pos handling]
    exact ⟨(State.warp_modGroup _ _ _ _ _ _).trans warp, State.group_modGroup_self group _, rfl⟩

end Sys2Proof.SearchTrapsAndHost
end

section

namespace Sys2Proof.Machine

/-! ### Search instructions past their checks (R310 to R318) -/

theorem maskOf_eq_zero {p : Nat → Bool} (h : ∀ l ∈ lanes, p l = false) : maskOf p = 0 := by
  unfold maskOf
  generalize lanes = ls at h
  induction ls with
  | nil => rfl
  | cons l ls ih =>
    rw [List.foldl_cons, if_neg (by simp [h l (by simp)])]
    exact ih fun k hk => h k (by simp [hk])

/-- No lane of a mask has what no lane of it is to have. -/
theorem not_any_lanesOf {m : LaneMask} {p : Nat → Bool} (h : ∀ l ∈ lanesOf m, p l = false) : ¬ (lanesOf m).any p = true := by
  simpa using h

section
variable {c : Ctx} {e t : State}

theorem Ctx.scatter_ok {pcs : List (Nat × W64)} {w : Warp} (s0 : State)
    (h : (t.warp c.core c.slot).diverge c.sp (pathsOf c.x.mask (pcOf pcs)) false c.x.pc = .ok w) :
    c.scatter s0 t pcs = stop .moved (t.setWarp c.core c.slot w) := by
  show (match (t.warp c.core c.slot).diverge c.sp (pathsOf c.x.mask (pcOf pcs)) false c.x.pc with
    | .error e => stop (.trap (divideTrap c e)) s0
    | .ok w => stop .moved (t.setWarp c.core c.slot w)) = _
  rw [h]

/-- The checks of an open region, which a search instruction's lanes pass (R310, R320). -/
theorem Ctx.searchEnter_ok (flag : tbit c.g.hdr.flags 1 = true) (outside : c.w.handler = false) (opened : c.w.regionOpen = true)
    (lanes : c.x.mask = c.w.rmask) : c.searchEnter e = .ok () := by
  have none_out : c.x.mask &&& ~~~c.w.rmask = 0 := by rw [lanes]; exact BitVec.and_not_self _
  simp [Ctx.searchEnter, flag, outside, opened, none_out]

end

/-! ### Regions -/

theorem ofInt_four_mul_toInt (off : BitVec 24) : BitVec.ofInt 64 (4 * off.toInt) = off.signExtend 64 * 4 := by
  rw [Int.mul_comm, BitVec.ofInt_mul]
  rfl

theorem cool_lanes {m : LaneMask} {nest : List Nat} (h : ∀ l ∈ lanesOf m, at_ 0 nest l ≠ 255) :
    maskOf (fun l => lane m l && decide (at_ 0 nest l = 255)) = 0 := by
  refine maskOf_eq_zero fun l member => ?_
  by_cases on : lane m l = true
  · simp [h l (List.mem_filter.mpr ⟨member, on⟩)]
  · simp [on]

theorem searchRegions : SearchRegions := by
  refine ⟨fun x u off pend t pcs s live => ?_, fun x s live => ?_⟩
  · dsimp only
    rw [show exec (.srchbeg x u off) s = execSrchbeg x u off s from rfl, execSrchbeg, run_ok live]
    generalize s.seen (.srchbeg x u off) = c
    generalize s.entering (.srchbeg x u off) = e
    intro flag outside closed armed room cool shallow opened
    rw [ofInt_four_mul_toInt]
    simp only [flag, outside, closed, armed, cool_lanes cool, Bool.not_true, Bool.or_self, Bool.false_eq_true, if_false, ne_eq, not_true,
      if_neg (Nat.not_lt.mpr room), if_neg (show ¬ 4096 < c.w.stack.length + 1 by omega)]
    unfold freshHeader at opened
    rw [opened]
    rfl
  · dsimp only
    rw [show exec (.srchend x) s = execSrchend x s from rfl, execSrchend, run_ok live]
    generalize s.seen (.srchend x) = c
    generalize s.entering (.srchend x) = e
    intro flag outside opened whole
    rw [Ctx.searchEnter_ok flag outside opened whole, act_ok_bind, if_neg (not_not.mpr whole)]
    rfl

/-! ### Scattering (R314 to R316) -/

/-- The check of operands that no active lane finds poisoned. -/
theorem not_any_of_clean {m : LaneMask} {p q : Nat → Bool} (h : ∀ l ∈ lanesOf m, (!(p l || q l)) = true) : ¬ (lanesOf m).any (fun l => p l || q l) = true :=
  not_any_lanesOf fun l member => by simpa using h l member

theorem searchScatters : SearchScatters := by
  intro i r s t hs pcs w rule live
  have scattered : ∀ (c : Ctx) (s0 : State), (t.warp c.core c.slot).diverge c.sp (pathsOf c.x.mask (pcOf pcs)) false c.x.pc = .ok w →
      State.finish c (c.scatter s0 t pcs).ends = c.jumped (t.setWarp c.core c.slot w) := fun c s0 goes => by
    rw [Ctx.scatter_ok s0 goes, finish_moved]
  cases i
  case trye x d a b =>
    cases rule
    rw [show exec (.trye x d a b) s = execTrye x d a b s from rfl, execTrye, run_ok live]
    dsimp only
    generalize s.seen (.trye x d a b) = c
    generalize s.entering (.trye x d a b) = e
    intro usable clean entered checked laned goes
    rw [guard_ok usable, act_ok_bind, entered, act_ok_bind, if_neg (not_any_of_clean clean), checked, act_ok_bind, laned, act_ok_bind, scattered c e goes]
  case fail x =>
    cases rule
    rw [show exec (.fail x) s = execFail x s from rfl, execFail, run_ok live]
    dsimp only
    generalize s.seen (.fail x) = c
    generalize s.entering (.fail x) = e
    intro _ _ _ checked laned goes
    rw [checked, act_ok_bind, laned, act_ok_bind, scattered c e goes]
  case cpchk x d =>
    cases rule
    rw [show exec (.cpchk x d) s = execCpchk x d s from rfl, execCpchk, run_ok live]
    dsimp only
    generalize s.seen (.cpchk x d) = c
    generalize s.entering (.cpchk x d) = e
    intro usable _ _ checked laned goes
    rw [guard_ok usable, act_ok_bind, checked, act_ok_bind, laned, act_ok_bind, scattered c e goes]
  all_goals cases rule

/-! ### Updates and thefts (R316 to R318) -/

/-- The satchel address of a lane of `trst`. -/
def trstAddr (va : List LaneWord) (vb : List KReg) (l : Nat) : Int := ((at_ {} va l).data.toNat : Int) + (at_ {} vb l).data.toInt

/-- What `trst` does with k words of addresses and offsets that are read (R317). -/
def Ctx.trst (c : Ctx) (s : State) (k : Nat) (d : Dst) (va : List LaneWord) (vb : List KReg) : Act State := do
  c.searchEnter s
  if (lanesOf c.act).any fun l => (at_ {} va l).poison || (at_ {} vb l).poison then stop .kill s
  else
    let _ ← c.searchCheck s 0 fun l h => !(0x20 ≤ trstAddr va vb l && trstAddr va vb l + 4 * k ≤ (h.map (·.base)).getD c.g.hdr.satchel)
    let r ← c.perLane s s fun w l => do
      let ws := (List.range k).map fun i => c.vlane s ((c.number d.n.toNat d.ix l).toNat + i) l
      return (← c.storeTrailed (4 * k) ws (trstAddr va vb l) w l, c.after)
    return r.1

/-- The lanes of detail 4, in the words of R317: those whose address lies before CPBASE's header or reaches past it. -/
theorem outside_satchel (c : Ctx) (k : Nat) (ea : Int) (h : Option SHdr) :
    (!(decide (0x20 ≤ ea) && decide (ea + 4 * k ≤ (h.map (·.base)).getD c.g.hdr.satchel))) =
      decide (ea < 0x20 ∨ ((h.map fun h => 0x20 + 32 * h.units).getD c.g.hdr.satchel : Nat) < ea + 4 * k) := by
  rw [Bool.eq_iff_iff]
  simp only [Bool.not_eq_true', Bool.and_eq_false_iff, decide_eq_false_iff_not, decide_eq_true_eq, Int.not_le]
  rfl

theorem Ctx.trst_ok {c : Ctx} {e t : State} {k : Nat} {d : Dst} {va : List LaneWord} {vb : List KReg} {hs : List (Nat × SHdr)}
    {pcs : List (Nat × W64)} (entered : c.searchEnter e = .ok ())
    (clean : ∀ l ∈ lanesOf c.act, (at_ {} va l).poison = false ∧ (at_ {} vb l).poison = false)
    (checked : c.searchCheck e 0 (fun l h => decide (trstAddr va vb l < 0x20 ∨
      ((h.map fun h => 0x20 + 32 * h.units).getD c.g.hdr.satchel : Nat) < trstAddr va vb l + 4 * k)) = .ok hs)
    (laned : c.perLane e e (fun w l => do
      let ws := (List.range k).map fun j => c.vlane e ((c.number d.n.toNat d.ix l).toNat + j) l
      return (← c.storeTrailed (4 * k) ws (trstAddr va vb l) w l, c.after)) = .ok (t, pcs)) : c.trst e k d va vb = .ok t := by
  have unpoisoned : ¬ ((lanesOf c.act).any fun l => (at_ {} va l).poison || (at_ {} vb l).poison) = true :=
    not_any_lanesOf fun l member => by rw [(clean l member).1, (clean l member).2]; rfl
  rw [Ctx.trst, entered, act_ok_bind, if_neg unpoisoned]
  simp only [outside_satchel]
  rw [checked, act_ok_bind, laned, act_ok_bind]
  rfl

theorem exec_trst {x : Ctl} {b64 : Bool} {d : Dst} {a b : Src} {s : State} :
    exec (.trst x b64 d a b) s = run (.trst x b64 d a b) s fun c e =>
      c.guard e c.act (dstNeed (if b64 then 2 else 1) d ++ srcNeed 1 1 a ++ srcNeed 2 1 b) >>= fun _ =>
        c.trst e (if b64 then 2 else 1) d (c.vec e c.act a .i32) (c.offsets e (.src b)) := by
  cases b <;> rfl

theorem searchUpdates : SearchUpdates := by
  intro s t hs pcs x live
  refine ⟨fun a => ?_, fun d => ?_, fun b64 d a b => ?_⟩
  · dsimp only
    rw [show exec (.cut x a) s = execCut x a s from rfl, execCut, run_ok live]
    generalize s.seen (.cut x a) = c
    generalize s.entering (.cut x a) = e
    intro usable clean entered checked laned
    rw [guard_ok usable, act_ok_bind, entered, act_ok_bind, if_neg (not_any_lanesOf clean), checked, act_ok_bind, laned, act_ok_bind]
    rfl
  · dsimp only
    rw [show exec (.cpmark x d) s = execCpmark x d s from rfl, execCpmark, run_ok live]
    generalize s.seen (.cpmark x d) = c
    generalize s.entering (.cpmark x d) = e
    intro usable checked laned
    rw [guard_ok usable, act_ok_bind, checked, act_ok_bind, laned, act_ok_bind]
    rfl
  · dsimp only
    rw [exec_trst, run_ok live]
    generalize s.seen (.trst x b64 d a b) = c
    generalize s.entering (.trst x b64 d a b) = e
    intro usable clean entered checked laned
    rw [guard_ok usable, act_ok_bind, Ctx.trst_ok entered clean checked laned]
    rfl

theorem thefts : Thefts := by
  intro x d s t u hs got asked w live
  dsimp only
  rw [show exec (.steal x d) s = execSteal x d s from rfl, execSteal, run_ok live]
  generalize s.seen (.steal x d) = c
  generalize s.entering (.steal x d) = e
  intro usable checked laned answered goes
  rw [guard_ok usable, act_ok_bind, checked, act_ok_bind, laned, act_ok_bind]
  dsimp only
  rw [answered, act_ok_bind, Ctx.scatter_ok e goes, finish_moved]

end Sys2Proof.Machine

namespace Sys2Proof.SearchTrapsAndHost
open Sys2Proof.Machine

/-- Settles O35: each instruction's meaning once its checks are passed, the lanes' part being the premise's (their ascending order is log entry 28's). -/
theorem searchRegionsAndScatters : Obligations.SearchRegionsAndScatters := ⟨searchRegions, searchScatters⟩

/-- Settles O36: likewise, with the lanes of `trst` that lie outside the satchel told by R317. -/
theorem searchUpdatesAndThefts : Obligations.SearchUpdatesAndThefts := ⟨searchUpdates, thefts⟩

end Sys2Proof.SearchTrapsAndHost
end

section
/-! SUPPORT. The canonical form of memory through the shared parts of the model: memory, core-local storage, translation, traps, accesses, the
network (R18, R33, R58, R107, R344). -/

namespace Sys2Proof.Machine

/-- A state whose memory is in its one form (log entry 1). -/
abbrev State.Canonical (s : State) : Prop := Memory.wf s.mem = true

/-- However a part of some work ends, what it leaves satisfies a property. -/
def Ends {ε α : Type} (bad : ε → Prop) (good : α → Prop) (m : Except ε α) : Prop :=
  match m with
  | .ok a => good a
  | .error e => bad e

/-- A part of an instruction leaves a canonical state where it ends early, and a result with a property where it goes on. -/
abbrev Act.Keeps {α : Type} (m : Act α) (good : α → Prop) : Prop := Ends (fun e => e.2.Canonical) good m

section
variable {ε α β : Type} {bad : ε → Prop} {p : α → Prop} {q : β → Prop}

theorem Ends.bind {m : Except ε α} {f : α → Except ε β} (hm : Ends bad p m) (hf : ∀ a, p a → Ends bad q (f a)) : Ends bad q (m >>= f) := by
  cases m with
  | ok a => exact hf a hm
  | error e => exact hm

end

namespace State.Canonical

/-! ### Updates that leave memory as it is -/

theorem same {s t : State} (h : s.Canonical) (e : t.mem = s.mem) : t.Canonical := (congrArg Memory.wf e).trans h

theorem ofOnlyCores {s t : State} (h : s.Canonical) (e : s.OnlyCores t) : t.Canonical := h.same e.mem

theorem ofOnlyTraffic {s t : State} (h : s.Canonical) (e : s.OnlyTraffic t) : t.Canonical := h.same e.mem

theorem foldl {β : Type} {f : State → β → State} {s : State} {l : List β} (h : s.Canonical) (hf : ∀ t b, t.Canonical → (f t b).Canonical) :
    (l.foldl f s).Canonical := foldl_wf hf l s h

/-- A fold that carries a state and something else. -/
theorem foldlFst {α β : Type} {f : State × α → β → State × α} {l : List β} {acc : State × α} (h : acc.1.Canonical)
    (hf : ∀ acc b, acc.1.Canonical → (f acc b).1.Canonical) : (l.foldl f acc).1.Canonical :=
  List.foldlRecOn (motive := fun acc : State × α => acc.1.Canonical) l f h fun acc ha b _ => hf acc b ha

/-- A fold that carries something else and a state. -/
theorem foldlSnd {α β : Type} {f : α × State → β → α × State} {l : List β} {acc : α × State} (h : acc.2.Canonical)
    (hf : ∀ acc b, acc.2.Canonical → (f acc b).2.Canonical) : (l.foldl f acc).2.Canonical :=
  List.foldlRecOn (motive := fun acc : α × State => acc.2.Canonical) l f h fun acc ha b _ => hf acc b ha

theorem stop {α : Type} {p : α → Prop} {s : State} (h : s.Canonical) {e : End} : Act.Keeps (stop e s) p := h

section
variable {s : State} {c n d e k l slot : Nat}

theorem modCore {f : Core → Core} (h : s.Canonical) : (s.modCore c f).Canonical := h
theorem modDie {f : Die → Die} (h : s.Canonical) : (s.modDie d f).Canonical := h
theorem emit {o : Out} (h : s.Canonical) : (s.emit o).Canonical := h
theorem modFn {f : Fn → Fn} (h : s.Canonical) : (s.modFn n f).Canonical := h
theorem modLaunch {f : Launch → Launch} (h : s.Canonical) : (s.modLaunch l f).Canonical := h
theorem modRoom {f : Room → Room} (h : s.Canonical) : (s.modRoom c n f).Canonical := h
theorem modGroup {f : Group → Group} (h : s.Canonical) : (s.modGroup c n f).Canonical := h
theorem setWarp {w : Warp} (h : s.Canonical) : (s.setWarp c slot w).Canonical := h
theorem setVreg {x : LaneWord} (h : s.Canonical) : (s.setVreg c slot n l x).Canonical := h
theorem modWarp {f : Warp → Warp} (h : s.Canonical) : (s.modWarp c slot f).Canonical := h.ofOnlyCores (s.onlyCores_modWarp _ _ _)
theorem writeReg {r : RegWrite} (h : s.Canonical) : (s.writeReg c slot r).Canonical := h.ofOnlyCores (s.onlyCores_writeReg _ _ _)
theorem writeRegs {rs : List RegWrite} (h : s.Canonical) : (s.writeRegs c slot rs).Canonical := h.ofOnlyCores (s.onlyCores_writeRegs _ _ _)
theorem drain {p : Pending → Bool} (h : s.Canonical) : (s.drain c slot p).Canonical := h.ofOnlyCores (s.onlyCores_drain _ _ _)
theorem land {p : Pending → Bool} (h : s.Canonical) : (s.land c slot p).Canonical := h.writeRegs.modWarp
theorem drainFor {x : Words} (h : s.Canonical) : (s.drainFor x).Canonical := h.drain
theorem settleWarp {came : W64} (h : s.Canonical) : (s.settleWarp c slot came).Canonical := h.ofOnlyCores (s.onlyCores_settleWarp _ _ _)
theorem retire {x : Ctx} (h : s.Canonical) : (s.retire x).Canonical := h.ofOnlyCores (s.onlyCores_retire _)
theorem issued {x : Ctx} (h : s.Canonical) : (s.issued x).Canonical := h.same (s.onlyIssue_issued x).mem
theorem sendOut {o : Outgoing} (h : s.Canonical) : (s.sendOut d o).Canonical := h.ofOnlyTraffic (.sendOut s d o)
theorem sendMarks (h : s.Canonical) : (s.sendMarks d).Canonical := h.ofOnlyTraffic (.sendMarks s d)
theorem closeEpoch (h : s.Canonical) : (s.closeEpoch d).Canonical := h.same (s.closeEpoch_mem d)
theorem mergeStamp {v : List Nat} (h : s.Canonical) : (s.mergeStamp e v).Canonical := h.same (s.mergeStamp_mem e v)
theorem mergeAll {v : List Stamp} (h : s.Canonical) : (s.mergeAll e v).Canonical := h.same (s.mergeAll_mem e v)
theorem spend {tenant : Option Nat} (h : s.Canonical) : (s.spend n tenant).Canonical := h.same (s.spend_mem n tenant)
theorem forgetSec {x : L2Sec} (h : s.Canonical) : (s.forgetSec x).Canonical := h.same (s.forgetSec_mem x)
theorem sendInvals {v : List Nat} (h : s.Canonical) : (s.sendInvals n d v k).Canonical := h.same (s.sendInvals_mem n d v k)

/-! ### Memory behind the cores -/

theorem askEpoch (h : s.Canonical) : (s.askEpoch e k n).Canonical := by
  unfold State.askEpoch
  dsimp only
  split
  · exact h
  · exact h.sendOut

theorem askClose {v : List Nat} (h : s.Canonical) : (s.askClose e d v).Canonical := h.foldl fun _ _ ht => ht.askEpoch

theorem askAll (h : s.Canonical) : (s.askAll e).Canonical := h.askClose

theorem request {who : Asker} {at' : Attr} (h : s.Canonical) : (s.request who at' n k).Canonical := by
  unfold State.request
  dsimp only
  split
  · exact h
  · split
    · exact sendOut h
    · exact h

theorem obtain {who : Asker} {at' : Attr} (h : s.Canonical) : (s.obtain who at' n k).2.Canonical := by
  unfold State.obtain
  split
  · exact h
  · split
    · exact h.request
    · split
      · exact h
      · split
        · exact h.spend
        · exact h.request

theorem fetchBytes {f : Nat → Nat} {who : Asker} {bs : List (Nat × Attr)} (h : s.Canonical) : (s.fetchBytes f who n bs).2.Canonical := by
  unfold State.fetchBytes
  dsimp only
  split
  · exact h
  · split
    · refine foldl (foldlSnd (acc := (Came.ready, s)) h ?_) fun _ _ ht => State.fillSec_wf _ _ _ _ ht
      exact fun _ _ ha => ha.obtain
    · exact foldlSnd (acc := (Came.ready, s)) h fun _ _ ha => ha.obtain

/-! ### Memory behind the cores, written -/

theorem writeBack {x : L2Sec} (h : s.Canonical) : (s.writeBack x).Canonical := State.writeBack_wf x h
theorem evictHome {x : L2Sec} (h : s.Canonical) : (s.evictHome x).Canonical := State.evictHome_wf x h
theorem homeWrite {at' : Attr} {bs : List (Nat × Byte)} {p : Bool} {st : Stamp} (h : s.Canonical) : (s.homeWrite at' n bs p st).Canonical :=
  State.homeWrite_wf _ _ _ _ _ h
theorem fillSec {at' : Attr} {m : BitVec 64} (h : s.Canonical) : (s.fillSec e at' n m).Canonical := State.fillSec_wf _ _ _ _ h
theorem writeAll {at' : Nat → Attr} {w : Doing} {ws : List ByteWrite} (h : s.Canonical) : (s.writeAll e at' w ws).Canonical :=
  State.writeAll_wf _ _ _ _ h
theorem privWrite {x : Nat} (h : s.Canonical) : (s.privWrite e n k x).Canonical := State.privWrite_wf _ _ _ _ h
theorem fnWrite {bs : List Byte} (h : s.Canonical) : (s.fnWrite n k bs).Canonical := State.fnWrite_wf _ _ _ h
theorem writePlaces {o : Option Nat} {rel : Bool} {ws : List (Place × List Byte × Bool)} (h : s.Canonical) : (s.writePlaces e o rel ws).Canonical :=
  State.writePlaces_wf _ _ _ _ h
theorem chipWrite {o : Option Nat} {bs : List Byte} {p : Bool} {st : Option Stamp} (h : s.Canonical) : (s.chipWrite o c n bs p st).Canonical :=
  h.same (s.chipWrite_mem _ _ _ _ _ _)
theorem farWrite {o : Option Nat} {bs : List Byte} {p : Bool} {st : Option Stamp} (h : s.Canonical) : (s.farWrite o c n bs p st).Canonical :=
  h.same (s.farWrite_mem _ _ _ _ _ _)

/-! ### Translation (R24 to R33) -/

theorem keepMap (h : s.Canonical) : (s.keepMap d n k).Canonical := by
  unfold State.keepMap
  dsimp only
  split
  · exact h
  · exact h.modDie

theorem markLeaf {t : Tlb} {w : Bool} (h : s.Canonical) : (s.markLeaf t w).1.Canonical := by
  unfold State.markLeaf
  dsimp only
  generalize t.entry ||| 0x400 ||| (if w then 0x800 else 0) = entry
  split
  · exact h
  · exact sendInvals (homeWrite h)

theorem askWalk {w : Wanted} (h : s.Canonical) : (s.askWalk w n k).Canonical := h.modDie

theorem keepTlb {t : Tlb} (h : s.Canonical) : (s.keepTlb t).Canonical := h

theorem answerWalk {m : Miss} {t : Tlb} (h : s.Canonical) : (s.answerWalk m t).Canonical := by
  unfold State.answerWalk
  dsimp only
  split
  · exact h
  · exact foldl (markLeaf (s := { s with walked := _ }) h) fun _ _ ht => ht.keepTlb

theorem pageWalk (h : s.Canonical) : (s.pageWalk d).Canonical := by
  unfold State.pageWalk
  split
  · exact h
  · extract_lets taken w kept refuse
    have hk : kept.Canonical := foldl (modDie h) fun _ _ ht => ht.keepMap
    split
    · exact hk
    · exact hk
    · exact hk.answerWalk

end
end State.Canonical
end Sys2Proof.Machine
end

section
/-! SUPPORT. The canonical form of memory through traps, the ends of instructions, and accesses (R257, R344, R375). -/

namespace Sys2Proof.Machine

namespace State.Canonical

section
variable {s : State} {c n d e k l slot : Nat}

/-! ### Rooms, gangs and traps -/

theorem forget {who : Asker} (h : s.Canonical) : (s.forget who).Canonical := h

theorem releaseRoom (h : s.Canonical) : (s.releaseRoom c n).Canonical := by
  unfold State.releaseRoom
  split
  · exact h
  · exact h

theorem setStatus (h : s.Canonical) : (s.setStatus c n k l).Canonical := h

theorem dropGang (h : s.Canonical) : (s.dropGang l k).Canonical := by
  refine same (foldl h fun t r ht => releaseRoom (modCore ?_)) rfl
  split
  · exact ht.setStatus
  · exact ht

theorem killGang (h : s.Canonical) : (s.killGang c n).Canonical := by
  unfold State.killGang
  split
  · exact h
  · exact h.dropGang.modLaunch

theorem pagerTakes {g : Group} {t : Trap} {u : State} (h : s.Canonical) (taken : s.pagerTakes g t = some u) : u.Canonical := by
  unfold State.pagerTakes at taken
  split at taken
  · cases taken
  · dsimp only at taken
    split at taken
    · cases taken
    · split at taken
      · cases taken
      · split at taken
        · cases taken
        · cases taken
          exact h

theorem takeTrap {r : SplitRef} {x : Words} {t : Trap} (h : s.Canonical) : (s.takeTrap r x t).Canonical := by
  unfold State.takeTrap
  extract_lets drained answered w g who
  have ha : answered.Canonical := by
    unfold answered
    split
    · exact h.drain
    · exact h.drain
  split
  · exact ha
  · split
    next taken => exact (ha.pagerTakes taken).modGroup
    next =>
      split
      · exact emit (modGroup ha)
      · split
        · exact setWarp ha
        · exact emit (modGroup (setWarp ha))

/-! ### The end of an instruction -/

theorem finish {x : Ctx} {r : End × State} (h : r.2.Canonical) : (State.finish x r).Canonical := by
  unfold State.finish
  split
  · exact h.retire.issued
  · exact h.settleWarp.issued
  · exact same (modWarp h).issued rfl
  · exact h
  · exact h.takeTrap.issued
  · exact h.killGang.issued

end

end State.Canonical

theorem Act.Keeps.ends {m : Act State} (h : Act.Keeps m State.Canonical) : m.ends.2.Canonical := by
  cases m with
  | ok s => exact h
  | error e => exact h

/-- Whatever next state a row of the table answers is canonical. -/
def Answers (o : Host.Outcome State Fault Refusal) : Prop := ∀ t, o = .next t → t.Canonical

theorem answers_next {t : State} (h : t.Canonical) : Answers (.next t) := by
  rintro _ ⟨⟩
  exact h

/-- An instruction of the issuing split leaves a canonical memory where its body does. -/
theorem run_answers {i : Instr} {s : State} {body : Ctx → State → Act State} (h : s.Canonical)
    (hb : ∀ c e, e.Canonical → Act.Keeps (body c e) State.Canonical) : Answers (run i s body) := by
  unfold run
  split
  · rintro _ ⟨⟩
  · exact answers_next (State.Canonical.finish (hb _ _ h.drainFor).ends)

namespace State.Canonical

section
variable {s : State} {c n d e k l slot : Nat} {x : Ctx}

/-! ### Checks before an access (R203, R257) -/

theorem guard {ls : LaneMask} {ns : List Need} {maps : List (Src × OpFmt)} (h : s.Canonical) : Act.Keeps (x.guard s ls ns maps) fun _ => True := by
  unfold Ctx.guard
  split
  · exact h
  · split
    · exact h
    · split
      · exact h
      · trivial

theorem memGuard {ns : List Need} {maps : List (Src × OpFmt)} (h : s.Canonical) : Act.Keeps (x.memGuard s ns maps) fun _ => True := by
  unfold Ctx.memGuard
  split
  · exact h.guard
  · exact h.guard

theorem askAllWalks {w : Wanted} {cs : Checks} (h : s.Canonical) : (s.askAllWalks w n cs).Canonical := by
  refine foldl h fun t q ht => ?_
  split
  · exact ht.askWalk
  · split
    · exact ht
    · exact ht
  · exact ht

theorem remoteWait {α : Type} {p : α → Prop} {addr : W64} (h : s.Canonical) : Act.Keeps (x.remoteWait s addr : Act α) p := h.drain

theorem places {sp : Space} {a : AccKind} {u : LeafUse} {protect : Option (Nat × Nat)} {accs : List (Nat × Int)} (h : s.Canonical) :
    Act.Keeps (x.places s sp a u n k protect accs) fun _ => True := by
  unfold Ctx.places
  extract_lets cs want
  split
  · split
    · exact h
    · exact h
  · split
    · exact h.askAllWalks
    · split
      · exact h
      · split
        · exact h
        · split
          · split
            · exact h.askAllWalks.remoteWait
            · exact h.askAllWalks
          · trivial

theorem range {sp : Space} {a : AccKind} {u : LeafUse} (h : s.Canonical) : Act.Keeps (x.range s sp a l n k d u) fun _ => True := by
  unfold Ctx.range
  extract_lets piece accs
  have checked := h.places (x := x) (sp := sp) (a := a) (u := u) (n := piece) (k := if n % d = 0 then piece else d) (protect := none)
    (accs := if n % d = 0 then accs else [(l, (n : Int))])
  split
  next => trivial
  next stopped => rw [stopped] at checked; exact checked
  next stopped => rw [stopped] at checked; exact checked

end
end State.Canonical
end Sys2Proof.Machine
end

section
/-! SUPPORT. The canonical form of memory through ordering, a lane's own words, results, the network, fetching and waits (R58, R89, R110, R161,
R305). -/

namespace Sys2Proof.Machine
namespace State.Canonical

section
variable {s : State} {c n d e k l slot : Nat} {x : Ctx}

/-! ### Acquire and release (R94, R110) -/

theorem release {sc : Scope} (h : s.Canonical) : (s.release d sc).Canonical := by
  unfold State.release
  split
  · exact h.closeEpoch
  · exact h

theorem releaseNow {sc : Scope} (h : s.Canonical) : Act.Keeps (x.releaseNow s sc) State.Canonical := by
  unfold Ctx.releaseNow
  split
  · exact h
  · split
    · exact h
    · exact h.release

theorem acquireAsk {sc : Scope} {v : List Stamp} (h : s.Canonical) : (s.acquireAsk d sc v).Canonical := foldl h.mergeAll fun _ _ ht => ht.askClose

theorem acquireNow {sc : Scope} {v : List Stamp} (h : s.Canonical) : Act.Keeps (x.acquireNow s sc v) State.Canonical := by
  unfold Ctx.acquireNow
  split
  · exact h.mergeAll
  · exact h.acquireAsk

theorem observe {acq : Option Scope} {ps : List Place} {addr : Option W64} (h : s.Canonical) :
    Act.Keeps (x.observe s acq ps n addr) State.Canonical := by
  unfold Ctx.observe
  extract_lets far reader
  have fetched := h.fetchBytes (f := reader) (who := .split x.ref) (n := x.g.owner) (bs := memBytes ps)
  split
  next came => rw [came] at fetched; exact fetched
  next came =>
    rw [came] at fetched
    split
    · exact remoteWait fetched
    · exact fetched
  next t came =>
    rw [came] at fetched
    extract_lets closed
    have hc : closed.Canonical := by
      unfold closed
      split
      · exact drain fetched
      · exact fetched
    split
    · exact hc.acquireNow
    · exact hc.mergeAll

theorem fenceNow {sc : Scope} (h : s.Canonical) : Act.Keeps (x.fenceNow s sc) State.Canonical := by
  unfold Ctx.fenceNow
  split
  · exact h.askAll
  · exact h.releaseNow

theorem acquireVec {v : List Nat} (h : s.Canonical) : (s.acquireVec e v).2.Canonical := by
  unfold State.acquireVec
  split
  · exact h.mergeStamp
  · exact h.askClose

theorem acquireVecNow {v : List Nat} (h : s.Canonical) : Act.Keeps (x.acquireVecNow s v) State.Canonical := by
  unfold Ctx.acquireVecNow
  have acquired := h.acquireVec (e := x.die) (v := v)
  split
  next ready => rw [ready] at acquired; exact acquired
  next late => rw [late] at acquired; exact acquired

/-! ### A lane's own words and the trail (R11, R302, R305) -/

theorem privRead {accs : List (Nat × Int)} (h : s.Canonical) : Act.Keeps (x.privRead s n accs) fun _ => True :=
  h.places.bind fun _ _ => trivial

theorem privPlaces {ws : List PrivWrite} (h : s.Canonical) : Act.Keeps (x.privPlaces s ws) fun _ => True :=
  h.places.bind fun _ _ => trivial

theorem headers {ls : List Nat} (h : s.Canonical) : Act.Keeps (x.headers s ls) fun _ => True := by
  refine h.privRead.bind fun r _ => h.privRead.bind fun q _ => ?_
  split
  · exact h
  · trivial

theorem srch {α : Type} {p : α → Prop} {ls : LaneMask} (h : s.Canonical) : Act.Keeps (x.srch s n ls : Act α) p := by
  unfold Ctx.srch
  extract_lets low t hs
  have hh : Act.Keeps hs fun _ => True := by
    unfold hs
    split
    · exact h.headers
    · trivial
  clear_value hs
  split
  · exact hh
  · exact h
  · exact h

theorem trail {ws : List (Nat × Nat)} (h : s.Canonical) : Act.Keeps (x.trail s ws) State.Canonical := by
  unfold Ctx.trail
  extract_lets trailed ls
  split
  · exact h
  · refine h.headers.bind fun hs _ => ?_
    refine h.privPlaces.bind fun pl _ => ?_
    split
    · exact h
    · exact h.writePlaces

/-! ### Results (R189, R209) -/

theorem commit {long : Bool} {regs : List RegName} {ws : List RegWrite} (h : s.Canonical) : (x.commit s long regs ws).Canonical := by
  unfold Ctx.commit
  split
  · exact h.modWarp
  · exact h.writeRegs

theorem writeLanes {long : Bool} {dst : Dst} {res : List (Nat × List LaneWord)} {extra : List RegName × List RegWrite} (h : s.Canonical) :
    Act.Keeps (x.writeLanes s long dst n res extra) State.Canonical :=
  h.trail.bind fun _ ht => commit ht

theorem writeK {long : Bool} {b : BitVec 8} {v : KReg} (h : s.Canonical) : (x.writeK s long b v).Canonical := h.commit

theorem laneWise {long flags : Bool} {dst : Dst} {ops : List (Nat × Src × OpFmt)} {f : List W32 → W32 × FFlags} (h : s.Canonical) :
    Act.Keeps (x.laneWise s long flags dst ops f) State.Canonical :=
  h.guard.bind fun _ _ => h.writeLanes

/-! ### The network and the L2 (R58, R60, R108, R109) -/

theorem applyInval {r : Remote} (h : s.Canonical) : (s.applyInval r).Canonical := by
  refine sendMarks ?_
  exact h

/-- Writes into a core's window, one a run of bytes. -/
theorem farWrites {runs : List (Nat × List Byte)} {o : Option Nat} {p : Bool} {st : Option Stamp} (h : s.Canonical) :
    (runs.foldl (fun t b => t.farWrite o c (n + b.1) b.2 p st) s).Canonical := h.foldl fun _ _ ht => ht.farWrite

theorem applyChip {r : Remote} (h : s.Canonical) : (s.applyChip r).Canonical := h.farWrites

theorem applyPart {r : Remote} (h : s.Canonical) : (s.applyPart r).Canonical := by
  unfold State.applyPart
  extract_lets ds t
  have ht : t.Canonical := h
  split
  · exact ht.applyChip
  · exact sendInvals (homeWrite ht)

theorem applyWrite {r : Remote} (h : s.Canonical) : (s.applyWrite r).Canonical := foldl h fun _ _ ht => ht.applyPart

theorem remoteApply (h : s.Canonical) : (s.remoteApply e k).Canonical := by
  unfold State.remoteApply
  split
  · exact h
  · split
    · split
      · exact h.applyInval
      · exact h.applyWrite
    · split
      · exact h.askClose
      · exact h

theorem sendIrqs (h : s.Canonical) : s.sendIrqs.Canonical := foldl h fun _ _ ht => ht.emit

theorem interrupt (h : s.Canonical) : (s.interrupt n k l).Canonical := sendIrqs h

theorem remoteAck (h : s.Canonical) : (s.remoteAck d k).Canonical := by
  unfold State.remoteAck
  split
  · exact h
  · exact sendIrqs (sendMarks h)

theorem markReceive (h : s.Canonical) : (s.markReceive d k).Canonical := by
  unfold State.markReceive
  split
  · exact h
  · split
    · exact h
    · exact h

theorem closeRequest (h : s.Canonical) : (s.closeRequest d k).Canonical := by
  unfold State.closeRequest
  split
  · exact h
  · split
    · exact h
    · extract_lets t
      split
      · exact closeEpoch h
      · exact h

theorem epochTimeout (h : s.Canonical) : (s.epochTimeout e).Canonical := by
  unfold State.epochTimeout
  split
  · split
    · exact h.closeEpoch
    · exact h
  · exact h

theorem recWrite (h : s.Canonical) : (s.recWrite n k l).Canonical := h.privWrite

theorem imageWord {v : Saved} {y : LaneWord} (h : s.Canonical) : (s.imageWord v n k l y).Canonical := recWrite (recWrite h)

theorem landLoad {v : Saved} {p : LoadPlan} (h : s.Canonical) : (s.landLoad v n k p).Canonical :=
  recWrite (foldl (mergeAll h) fun _ _ ht => ht.imageWord)

theorem landLoads (h : s.Canonical) : s.landLoads.Canonical := by
  refine foldl h fun t v ht => ?_
  extract_lets ls
  split
  · exact ht
  · exact same (foldl ht fun _ _ hu => hu.landLoad) rfl

theorem came {p : MemReq → Bool} (h : s.Canonical) : (s.came p).Canonical := by
  refine landLoads (foldl h fun t q ht => ?_)
  split
  · exact ht.modWarp
  all_goals exact ht

theorem l2Fill (h : s.Canonical) : (s.l2Fill e n).Canonical := by
  unfold State.l2Fill
  extract_lets home key at'
  split
  · exact h
  · split
    · exact h
    · exact h
    · exact h
    · exact h
    · split
      · exact h.fillSec
      · split
        · exact h.spend.fillSec
        · exact h
    · exact h.fillSec.came

theorem l2Evict (h : s.Canonical) : (s.l2Evict e n).Canonical := by
  unfold State.l2Evict
  split
  · exact h
  · split
    · exact h.evictHome
    · exact h

theorem cleanSec (h : s.Canonical) : (s.cleanSec n).Canonical := by
  unfold State.cleanSec
  extract_lets home clean x
  have hc : clean.Canonical := by
    unfold clean
    split
    · exact h.writeBack
    · exact h
  exact hc

theorem dropCopies (h : s.Canonical) : (s.dropCopies n).Canonical := foldl h fun _ _ ht => ht

theorem evictSec (h : s.Canonical) : (s.evictSec n).Canonical := by
  unfold State.evictSec
  extract_lets t
  split
  · exact evictHome h.dropCopies
  · exact h.dropCopies

theorem discardSec (h : s.Canonical) : (s.discardSec n).Canonical := by
  unfold State.discardSec
  extract_lets t
  split
  · exact forgetSec h.dropCopies
  · exact h.dropCopies

/-! ### Fetching, and waits that go on (R142, R161, R356) -/

theorem keepLine {r : SplitRef} (h : s.Canonical) : (s.keepLine r n).2.Canonical := by
  unfold State.keepLine
  extract_lets g va asid
  split
  · exact h
  · split
    next pa a t _ _ =>
      have fetched := h.fetchBytes (f := fun _ => dieOf r.core) (who := .split r) (n := g.owner) (bs := (List.range 64).map fun i => (pa + i, a))
      split
      next came => rw [came] at fetched; exact fetched
      · exact fetched
    · exact h

theorem keepCode {r : SplitRef} (h : s.Canonical) : (s.keepCode r n).2.Canonical := by
  unfold State.keepCode
  extract_lets g
  split
  · exact h
  · refine foldlSnd (acc := (Came.ready, s)) h fun acc k ha => ?_
    split
    · exact ha.keepLine
    · exact ha

theorem unblock {r : SplitRef} (h : s.Canonical) : (s.unblock r).Canonical := h.modWarp

end
end State.Canonical

/-- A waiting instruction that goes on leaves a canonical memory where its body does. -/
theorem resume_canonical {r : SplitRef} {s : State} {kinds : List Nat} {body : Ctx → Instr → Block → State → Act State} (h : s.Canonical)
    (hb : ∀ c i b e, e.Canonical → Act.Keeps (body c i b e) State.Canonical) : (resume r s kinds body).Canonical := by
  unfold resume
  extract_lets b
  split
  · exact h
  · split
    · exact h
    · split
      · exact h.askWalk
      · exact h.unblock.takeTrap
      · exact h.killGang
      next i x _ =>
        extract_lets c e t
        have ends : e.2.Canonical := by
          refine (hb c i b _ ?_).ends
          exact h
        have ht : t.Canonical := by
          unfold t
          split
          · exact ends
          · exact ends.finish
          · exact State.Canonical.finish (State.Canonical.unblock ends)
        exact ht

end Sys2Proof.Machine
end

section
/-! SUPPORT. The canonical form of memory through lane-wise, uniform and control instructions (R209 to R246). -/

namespace Sys2Proof.Machine

section
variable {s : State} {i : Instr} {d : Dst} {a b e : Src} {x : Ctl}

/-! ### Lane-wise shapes (R209, R229) -/

theorem int1_answers {f : Ctx → W32 → W32} (h : s.Canonical) : Answers (int1 i s d a f) := run_answers h fun _ _ he => he.laneWise
theorem int2_answers {long : Bool} {f : Ctx → W32 → W32 → W32} (h : s.Canonical) : Answers (int2 i s long d a b f) :=
  run_answers h fun _ _ he => he.laneWise
theorem int3_answers {f : Ctx → W32 → W32 → W32 → W32} (h : s.Canonical) : Answers (int3 i s d a b e f) :=
  run_answers h fun _ _ he => he.laneWise
theorem flt_answers {ops : List (Nat × Src × OpFmt)} {f : Ctx → List Nat → Nat × FFlags} (h : s.Canonical) : Answers (flt i s d ops f) :=
  run_answers h fun _ _ he => he.laneWise
theorem fltQuiet_answers {ops : List (Nat × Src × OpFmt)} {f : Ctx → List Nat → Nat} (h : s.Canonical) : Answers (fltQuiet i s d ops f) :=
  run_answers h fun _ _ he => he.laneWise
theorem special1_answers {fn : SpecialFn} (h : s.Canonical) : Answers (special1 i s fn d a) := run_answers h fun _ _ he => he.laneWise

theorem State.Canonical.commitUnlessPoisoned {p : Bool} {c : Ctx} {long : Bool} {regs : List RegName} {ws : List RegWrite} (h : s.Canonical) :
    Act.Keeps (if p then Machine.stop .kill s else return c.commit s long regs ws : Act State) State.Canonical := by
  split
  · exact h
  · exact h.commit

theorem fltCmp_answers {tomask : Bool} {fm : OpFmt} {f : Ctx → Nat → Nat → W32 × Bool × FFlags} (h : s.Canonical) :
    Answers (fltCmp i s tomask d a b fm f) := by
  refine run_answers h fun c t ht => ?_
  split
  · exact ht.guard.bind fun _ _ => ht.commitUnlessPoisoned
  · exact ht.laneWise

theorem uni2_answers {d : BitVec 8} {f : W64 → W64 → W64} (h : s.Canonical) : Answers (uni2 i s d a b f) :=
  run_answers h fun _ _ he => he.guard.bind fun _ _ => he.writeK

/-! ### Integer instructions (R206, R210, R211) -/

theorem execIcmp_answers {cc : ICond} {tomask : Bool} (h : s.Canonical) : Answers (execIcmp x cc tomask d a b s) := by
  refine run_answers h fun c t ht => ?_
  split
  · exact ht.guard.bind fun _ _ => ht.commitUnlessPoisoned
  · exact ht.laneWise

theorem execMovi_answers {d : BitVec 8} {imm : W32} (h : s.Canonical) : Answers (execMovi x d imm s) := run_answers h fun _ _ he => he.laneWise

theorem execLea_answers (h : s.Canonical) : Answers (execLea x d a b e s) := run_answers h fun _ _ he => he.guard.bind fun _ _ => he.writeLanes
theorem execIadd64_answers (h : s.Canonical) : Answers (execIadd64 x d a b s) :=
  run_answers h fun _ _ he => he.guard.bind fun _ _ => he.writeLanes
theorem execImul64_answers (h : s.Canonical) : Answers (execImul64 x d a b s) :=
  run_answers h fun _ _ he => he.guard.bind fun _ _ => he.writeLanes

theorem execSetix_answers (h : s.Canonical) : Answers (execSetix x a s) :=
  run_answers h fun _ _ he => he.guard.bind fun _ _ => he.commitUnlessPoisoned

theorem State.Canonical.deprecated {c : Ctx} (h : s.Canonical) : (c.deprecated s).Canonical := by
  unfold Ctx.deprecated
  extract_lets n t l
  split
  · exact interrupt (modLaunch h)
  · exact h

theorem execImads_answers (h : s.Canonical) : Answers (execImads x d a b e s) :=
  run_answers h fun _ _ he => he.laneWise.bind fun _ ht => ht.deprecated

/-! ### Activation tables (R243 to R246) -/

theorem execActld_answers {d a : BitVec 8} {n : BitVec 2} (h : s.Canonical) : Answers (execActld x d a n s) := by
  refine run_answers h fun c t ht => ht.guard.bind fun _ _ => ?_
  dsimp only
  split
  · exact ht
  · refine ht.range.bind fun ps _ => ht.observe.bind fun u hu => ?_
    split
    · exact hu
    · exact hu.commit

theorem execActev_answers {n : BitVec 2} (h : s.Canonical) : Answers (execActev x d a n s) :=
  run_answers h fun _ _ he => he.guard.bind fun _ _ => he.writeLanes

theorem execActinfo_answers {d : BitVec 8} {n : BitVec 2} (h : s.Canonical) : Answers (execActinfo x d n s) :=
  run_answers h fun _ _ he => he.guard.bind fun _ _ => he.writeK

end

/-! ### Ends of warps and groups, branches, traps (R148, R160, R217 to R227) -/

namespace State.Canonical

section
variable {s : State} {c n d e k l slot : Nat} {x : Ctx}

theorem reap (h : s.Canonical) : (s.reap c n).Canonical := by
  unfold State.reap
  split
  · exact h
  · extract_lets ms info all quiet
    split
    · exact h.foldl fun t r ht => ht.modCore.releaseRoom
    · exact h

theorem endGroup (h : s.Canonical) : (s.endGroup c n).Canonical := by
  unfold State.endGroup
  extract_lets g freed ended counted told
  have hc : counted.Canonical := modLaunch (modGroup (foldl h fun t r ht => ht.modWarp))
  refine reap ?_
  unfold told
  split
  · exact hc.emit
  · exact hc

theorem checkWarp (h : s.Canonical) : (s.checkWarp c slot).Canonical := by
  unfold State.checkWarp
  extract_lets w t g
  split
  · exact h
  · split
    · exact endGroup (modWarp h)
    · exact modWarp h

theorem branch {f : Nat → W64} (h : s.Canonical) : Act.Keeps (x.branch s f) State.Canonical := by
  unfold Ctx.branch
  split
  · exact h
  · exact h.setWarp

theorem targets {a : Src} (h : s.Canonical) : Act.Keeps (x.targets s a) fun _ => True := by
  unfold Ctx.targets
  extract_lets v
  split
  · exact h
  · trivial

theorem link {d : Dst} (h : s.Canonical) : Act.Keeps (x.link s d) State.Canonical := h.writeLanes

theorem callTo {d : Dst} {f : Nat → W64} (h : s.Canonical) : Act.Keeps (x.callTo s d f) State.Canonical := by
  unfold Ctx.callTo
  split
  · exact h
  · exact h.link.bind fun _ ht => ht.setWarp

theorem setK {d : BitVec 8} {y : W64} (h : s.Canonical) : (x.setK s d y).Canonical := h.writeReg

theorem waitjArrival {r : SplitRef} (h : s.Canonical) : (waitjArrival r s).Canonical := by
  refine resume_canonical h fun c i b t ht => ?_
  dsimp only
  split
  · split
    · exact ht.acquireVecNow.bind fun _ hu => hu.setK
    · exact ht
  · exact ht

theorem waitjTimeout {r : SplitRef} (h : s.Canonical) : (waitjTimeout r s).Canonical := by
  refine resume_canonical h fun c i b t ht => ?_
  extract_lets k late
  split
  · exact ht.setK
  · exact ht

theorem softTrap {imm : W32} (h : s.Canonical) : Act.Keeps (x.softTrap s imm) State.Canonical := by
  unfold Ctx.softTrap
  split
  · exact h.modWarp
  · exact h

theorem traceRecord {args : List W64} (h : s.Canonical) : (s.traceRecord d n k args).1.Canonical := by
  unfold State.traceRecord
  extract_lets f
  split
  split
  · exact h
  · extract_lets at' t
    have ht : t.Canonical := by
      unfold t
      split
      · exact privWrite (privWrite h)
      · exact h
    exact ht

theorem stopGroup (h : s.Canonical) : (s.stopGroup c n).Canonical := modGroup (foldl h fun _ _ ht => ht.drain)

end
end State.Canonical

section
variable {s : State} {x : Ctl} {d : Dst} {a b e : Src} {imm : W32}

theorem execIllegal_answers {pw : Option (BitVec 32)} {w : BitVec 64} (h : s.Canonical) : Answers (execIllegal pw w s) :=
  run_answers h fun _ _ he => he.stop

theorem execNop_answers (h : s.Canonical) : Answers (execNop x s) := run_answers h fun _ _ he => he
theorem execYield_answers (h : s.Canonical) : Answers (execYield x s) := run_answers h fun _ _ he => he
theorem execBra_answers (h : s.Canonical) : Answers (execBra x imm s) := run_answers h fun _ _ he => he.branch

theorem execBrc_answers {a : BitVec 8} (h : s.Canonical) : Answers (execBrc x a imm s) :=
  run_answers h fun _ _ he => he.guard.bind fun _ _ => he.targets.bind fun _ _ => he.branch

theorem execBrx_answers (h : s.Canonical) : Answers (execBrx x a s) :=
  run_answers h fun _ _ he => he.guard.bind fun _ _ => he.targets.bind fun _ _ => he.branch

theorem execCall_answers {d : BitVec 8} (h : s.Canonical) : Answers (execCall x d imm s) :=
  run_answers h fun _ _ he => he.guard.bind fun _ _ => he.callTo

theorem execCalli_answers (h : s.Canonical) : Answers (execCalli x d a s) :=
  run_answers h fun _ _ he => he.guard.bind fun _ _ => he.targets.bind fun _ _ => he.callTo

theorem execRet_answers (h : s.Canonical) : Answers (execRet x a s) :=
  run_answers h fun _ _ he => he.guard.bind fun _ _ => he.targets.bind fun _ _ => he.branch

theorem execRcv_answers {off : BitVec 24} (h : s.Canonical) : Answers (execRcv x off s) := run_answers h fun _ _ he => he.modWarp

theorem execWaitj_answers {d a : BitVec 8} (h : s.Canonical) : Answers (execWaitj x d a imm s) := by
  refine run_answers h fun c t ht => ht.guard.bind fun _ _ => ?_
  dsimp only
  split
  · exact ht
  · split
    · exact ht.acquireVecNow.bind fun _ hu => hu.setK
    · exact ht

theorem execExit_answers (h : s.Canonical) : Answers (execExit x s) := run_answers h fun _ _ he => he.modWarp.checkWarp
theorem execEndGroup_answers (h : s.Canonical) : Answers (execEndGroup x s) := run_answers h fun _ _ he => he.endGroup
theorem execTrap_answers (h : s.Canonical) : Answers (execTrap x imm s) := run_answers h fun _ _ he => he.softTrap
theorem execTrapReturn_answers (h : s.Canonical) : Answers (execTrapReturn x imm s) := run_answers h fun _ _ he => he.softTrap

theorem execSysc_answers {d a : BitVec 8} (h : s.Canonical) : Answers (execSysc x d a imm s) := by
  refine run_answers h fun c t ht => ht.guard.bind fun _ _ => ?_
  dsimp only
  split
  · exact ht
  · refine ht.fenceNow.bind fun u hu => ?_
    refine State.Canonical.setK ?_
    split
    · exact hu
    · split
      · exact hu.traceRecord
      · exact hu

theorem execBkpt_answers (h : s.Canonical) : Answers (execBkpt x s) := by
  refine run_answers h fun c t ht => ?_
  dsimp only
  split
  · exact ht.stopGroup
  · exact ht

/-! ### Uniforms and special registers (R212 to R216) -/

theorem execKmov_answers {d : BitVec 8} (h : s.Canonical) : Answers (execKmov x d a s) :=
  run_answers h fun _ _ he => he.guard.bind fun _ _ => he.writeK
theorem execKmovi_answers {d : BitVec 8} (h : s.Canonical) : Answers (execKmovi x d imm s) :=
  run_answers h fun _ _ he => he.guard.bind fun _ _ => he.writeK
theorem execMmov_answers {d : BitVec 8} (h : s.Canonical) : Answers (execMmov x d a s) :=
  run_answers h fun _ _ he => he.guard.bind fun _ _ => he.commitUnlessPoisoned

theorem execVtok_answers {d : BitVec 8} (h : s.Canonical) : Answers (execVtok x d a b s) := by
  refine run_answers h fun c t ht => ?_
  dsimp only
  split
  · exact ht
  · split
    · exact ht
    · refine ht.guard.bind fun _ _ => ?_
      split
      · exact ht
      · exact ht.writeK

theorem execRdsr_answers {n : BitVec 8} (h : s.Canonical) : Answers (execRdsr x d n s) := by
  refine run_answers h fun c t ht => ?_
  dsimp only
  split
  · exact ht.guard.bind fun _ _ => ht.writeLanes
  · exact ht.guard.bind fun _ _ => ht.writeK

theorem execWrsr_answers {n : BitVec 8} (h : s.Canonical) : Answers (execWrsr x n a s) := by
  refine run_answers h fun c t ht => ?_
  split
  · exact ht.guard.bind fun _ _ => ht.commitUnlessPoisoned
  · refine ht.guard.bind fun _ _ => ?_
    dsimp only
    split
    · exact ht
    · split
      · exact ht.modWarp
      · exact ht.modWarp

end
end Sys2Proof.Machine
end

section
/-! SUPPORT. The canonical form of memory through loads, stores, atomics, described blocks and cache control (R214, R256 to R268). -/

namespace Sys2Proof.Machine

/-- What a load leaves for a restore does not change where its part of the work ends. -/
theorem Act.Keeps.planned {α : Type} {m : Act α} {good : α → Prop} {p : Option LoadPlan} (h : Act.Keeps m good) :
    Act.Keeps (m.planned p) good := by
  unfold Act.planned
  split
  · exact h
  · exact h

namespace State.Canonical

section
variable {s : State} {c n d e k l slot : Nat} {x : Ctx} {sp : Space} {z : Size} {dst : Dst} {a b : Src} {o : Off}

theorem protects (h : s.Canonical) : Act.Keeps (x.protected s sp) fun _ => True := by
  unfold Ctx.protected
  split
  · split
    · trivial
    · exact h.headers.bind fun _ _ => trivial
  · trivial

theorem storePlaces {kind : AccKind} {accs : List (Nat × Int)} (h : s.Canonical) :
    Act.Keeps (x.storePlaces s sp kind n accs) fun _ => True := by
  unfold Ctx.storePlaces
  extract_lets srch
  have searched : ∀ r, Act.Keeps r (fun _ => True) → Act.Keeps (srch r) fun _ => True := by
    intro r hr
    unfold srch
    split
    · split
      · exact h.srch
      · exact hr
    · exact hr
  have refused : Act.Keeps (x.protected s sp) fun _ => True := h.protects
  split
  next prot _ => exact searched _ h.places
  next stop stopped =>
    rw [stopped] at refused
    have first := searched _ (h.places (x := x) (sp := sp) (a := kind) (u := .any) (n := n) (k := n)
      (protect := some (x.g.hdr.satchel, x.g.hdr.satchel)) (accs := accs))
    split
    next met =>
      rw [met] at first
      split
      · exact first
      · exact refused
    · exact refused

theorem load {acq : Option Scope} (h : s.Canonical) : Act.Keeps (x.load s sp z dst a o acq) State.Canonical := by
  refine h.memGuard.bind fun _ _ => ?_
  split
  · exact h
  · split
    · exact h
    · refine h.places.bind fun ps _ => ?_
      dsimp only
      split
      · exact h
      · refine h.observe.planned.bind fun t ht => ht.writeLanes.bind fun u hu => ?_
        exact hu

theorem store {rel : Option Scope} (h : s.Canonical) : Act.Keeps (x.store s sp z dst a o rel) State.Canonical := by
  refine h.memGuard.bind fun _ _ => ?_
  split
  · exact h
  · split
    · exact h
    · refine h.storePlaces.bind fun ps _ => ?_
      extract_lets data write
      have hw : ∀ t : State, t.Canonical → Act.Keeps (write t) State.Canonical := fun t ht => ht.writePlaces
      split
      · exact h.releaseNow.bind hw
      · exact hw _ h

theorem rmwRemote {at' : Attr} {rel p : Bool} {bs : List Byte} (h : s.Canonical) : (s.rmwRemote e at' rel n bs p).Canonical := by
  unfold State.rmwRemote
  exact sendInvals (homeWrite h)

theorem rmwWrite {rel p : Bool} {at' : Place} {bs : List Byte} (h : s.Canonical) : (x.rmwWrite s rel at' bs p).Canonical := by
  unfold Ctx.rmwWrite
  extract_lets rel'
  split
  · split
    · exact h.writePlaces
    · exact h.rmwRemote
  · exact h.writePlaces

theorem rmwAsk {ps : List Place} (h : s.Canonical) : (x.rmwAsk s ps).Canonical := by
  refine foldl h fun t q ht => ?_
  split
  · exact ht
  · exact ht.askClose

theorem rmwRelease {sc : Scope} (h : s.Canonical) : Act.Keeps (x.rmwRelease s sc) State.Canonical := by
  unfold Ctx.rmwRelease
  split
  · exact h
  · refine h.releaseNow.bind fun t ht => ?_
    split
    · exact ht.modWarp
    · exact ht

theorem atomic {g : Access} {fm : OpFmt} {flags useD : Bool} {f : Nat → Nat → Nat → Nat × FFlags} (h : s.Canonical) :
    Act.Keeps (x.atomic s g dst a b fm flags useD f) State.Canonical := by
  unfold Ctx.atomic
  extract_lets n isRel
  refine h.memGuard.bind fun _ _ => ?_
  split
  · exact h
  · split
    · exact h
    · refine h.storePlaces.bind fun lp _ => ?_
      extract_lets ps dropped perform
      have hd : dropped.Canonical := by
        refine foldl h fun t q ht => ?_
        split
        · exact ht
        · exact ht
      split
      · exact hd
      · refine hd.observe.bind fun t ht => ?_
        have hp : ∀ u : State, u.Canonical → Act.Keeps (perform u) State.Canonical := by
          intro u hu
          unfold perform
          split
          · exact hu.rmwAsk
          · extract_lets ev dv old r words
            have hr : r.1.s.Canonical := 
              List.foldlRecOn (motive := fun m : Rmw × FFlags => m.1.s.Canonical) lp _ hu fun m hm p _ => hm.rmwWrite
            have first := hu.writeLanes (x := x) (long := true) (dst := dst) (n := n) (res := words) (extra := ([], []))
            split
            next stopped => rw [stopped] at first; exact first
            · exact hr.writeLanes
        split
        · exact ht.rmwRelease.bind hp
        · exact hp _ ht

theorem prefetchSec {q : Nat × Attr} (h : s.Canonical) : (x.prefetchSec s q).2.Canonical := by
  unfold Ctx.prefetchSec
  extract_lets home
  split
  · exact h
  · have asked := h.obtain (who := .split x.ref) (at' := q.2) (n := x.g.owner) (k := q.1)
    split
    next came => rw [came] at asked; exact asked.fillSec
    · exact asked

theorem backSec {f : State → Nat → State} {q : Nat × Attr} (h : s.Canonical) (hf : ∀ t k, t.Canonical → (f t k).Canonical) :
    (backSec f s q).2.Canonical := by
  unfold Machine.backSec
  split
  · exact hf _ _ h
  · exact h

end
end State.Canonical

section
variable {s : State} {x : Ctl} {d : Dst} {a b e : Src} {imm : W32} {i : Instr} {sp : Space} {z : Size} {g : Access}

theorem plainLoad_answers {d a : BitVec 8} {ua : Bool} {off : W32} (h : s.Canonical) : Answers (plainLoad i sp d ua z a off s) :=
  run_answers h fun _ _ he => he.load

theorem plainStoreOp_answers {d a : BitVec 8} {ua : Bool} {off : W32} (h : s.Canonical) : Answers (plainStoreOp i sp d ua z a off s) :=
  run_answers h fun _ _ he => he.store

theorem execOrderedLoad_answers (h : s.Canonical) : Answers (execOrderedLoad x g d a b s) := run_answers h fun _ _ he => he.load
theorem execOrderedStore_answers (h : s.Canonical) : Answers (execOrderedStore x g d a b s) := run_answers h fun _ _ he => he.store

theorem execKld_answers {sp : Bool} {d : BitVec 8} (h : s.Canonical) : Answers (execKld x sp d a b s) := by
  refine run_answers h fun c t ht => ht.guard.bind fun _ _ => ?_
  dsimp only
  split
  · exact ht
  · refine ht.places.bind fun ps _ => ?_
    split
    · exact ht
    · exact ht.observe.bind fun u hu => hu.writeK

theorem atomI_answers {f : Nat → Nat → Nat → Nat} (h : s.Canonical) : Answers (atomI i s g d a b f) := run_answers h fun _ _ he => he.atomic
theorem execAtomCas_answers (h : s.Canonical) : Answers (execAtomCas x g d a b s) := run_answers h fun _ _ he => he.atomic
theorem execAtomFadd_answers (h : s.Canonical) : Answers (execAtomFadd x g d a b s) := run_answers h fun _ _ he => he.atomic
theorem execFence_answers {sc : Scope} (h : s.Canonical) : Answers (execFence x sc s) := run_answers h fun _ _ he => he.fenceNow

theorem execLdd_answers {sp hdr : Bool} {f : LddFmt} (h : s.Canonical) : Answers (execLdd x sp hdr f d a b s) := by
  refine run_answers h fun c t ht => ht.memGuard.bind fun _ _ => ?_
  split
  · exact ht
  · dsimp only
    split
    · exact ht
    · refine ht.places.bind fun ps _ => ?_
      split
      · exact ht
      · exact ht.observe.bind fun u hu => hu.writeLanes

theorem execStd_answers {sp : Bool} {f : BitVec 5} {d : BitVec 8} (h : s.Canonical) : Answers (execStd x sp f d a b s) := by
  refine run_answers h fun c t ht => ht.memGuard.bind fun _ _ => ?_
  split
  · exact ht
  · dsimp only
    split
    · exact ht
    · exact ht.places.bind fun ps _ => ht.writePlaces

theorem cctl_answers {kind : AccKind} {f : Ctx → State → Nat × Attr → Bool × State} (h : s.Canonical)
    (hf : ∀ c t q, t.Canonical → (f c t q).2.Canonical) : Answers (cctl i s a b kind f) := by
  refine run_answers h fun c t ht => ht.memGuard.bind fun _ _ => ?_
  split
  · exact ht
  · dsimp only
    split
    · exact ht
    · refine ht.places.bind fun ps _ => ?_
      split
      · exact ht
      · split
        · exact State.Canonical.foldlSnd (acc := (true, t)) ht fun _ _ ha => hf _ _ _ ha
        · exact State.Canonical.foldlSnd (acc := (true, t)) ht fun _ _ ha => hf _ _ _ ha

theorem execCctlPrefetch_answers (h : s.Canonical) : Answers (execCctlPrefetch x a b s) := cctl_answers h fun _ _ _ ht => ht.prefetchSec
theorem execCctlClean_answers (h : s.Canonical) : Answers (execCctlClean x a b s) :=
  cctl_answers h fun _ _ _ ht => ht.backSec fun _ _ hu => hu.cleanSec
theorem execCctlEvict_answers (h : s.Canonical) : Answers (execCctlEvict x a b s) :=
  cctl_answers h fun _ _ _ ht => ht.backSec fun _ _ hu => hu.evictSec
theorem execCctlDiscard_answers (h : s.Canonical) : Answers (execCctlDiscard x a b s) := cctl_answers h fun _ _ _ ht => ht.discardSec

end
end Sys2Proof.Machine
end

section
/-! SUPPORT. The canonical form of memory through launches, barriers, counters, tasks and forks (R128, R174, R269 to R278, R332, R333). -/

namespace Sys2Proof.Machine
namespace State.Canonical

section
variable {s : State} {c n d e k l slot : Nat} {x : Ctx}

/-! ### Launches, counters and tasks (R174, R273 to R276) -/

theorem innAt (h : s.Canonical) : (s.innAt n k).1.Canonical := by
  unfold State.innAt
  extract_lets agent w t
  have ht : t.Canonical := foldl h fun _ _ hu => hu.keepMap
  split
  · split
    · exact ht.markLeaf
    · exact ht
  · exact ht
  · exact ht

theorem checkLaunch {o : Option Nat} {r : LaunchRec} (h : s.Canonical) : (s.checkLaunch n k o r).1.Canonical := by
  unfold State.checkLaunch
  refine iteInduction (motive := fun (r : State × Except Nat KHdr) => r.1.Canonical) (fun _ => h) fun _ => ?_
  refine iteInduction (motive := fun (r : State × Except Nat KHdr) => r.1.Canonical) (fun _ => h) fun _ => ?_
  refine iteInduction (motive := fun (r : State × Except Nat KHdr) => r.1.Canonical) (fun _ => h) fun _ => ?_
  refine iteInduction (motive := fun (r : State × Except Nat KHdr) => r.1.Canonical) (fun _ => h) fun _ => ?_
  refine iteInduction (motive := fun (r : State × Except Nat KHdr) => r.1.Canonical) (fun _ => h) fun _ => ?_
  have found := h.innAt (n := r.asid) (k := r.khdr)
  split
  next missing => rw [missing] at found; exact found
  next ready =>
    rw [ready] at found
    dsimp only
    split
    · exact found
    · split
      · exact found
      · exact found

theorem admitLaunch {o : Option Nat} {r : LaunchRec} (h : s.Canonical) : (s.admitLaunch n k o r).1.Canonical := by
  unfold State.admitLaunch
  have checked := h.checkLaunch (n := n) (k := k) (o := o) (r := r)
  split
  next passed => rw [passed] at checked; exact checked
  · exact checked

theorem enqueue {t : BitVec 256} {v : List Nat} (h : s.Canonical) : (s.enqueue n t v).Canonical := h

theorem feedQueue {fuel : Nat} (h : s.Canonical) : (s.feedQueue fuel n k).Canonical := by
  induction fuel generalizing s with
  | zero => exact h
  | succ fuel ih =>
    unfold State.feedQueue
    split
    · split
      · refine ih ?_
        exact h
      · exact h
    · exact h

theorem makeReady {t : Task} (h : s.Canonical) : (s.makeReady t).Canonical := by
  unfold State.makeReady
  extract_lets q
  split
  · exact h
  · exact h

theorem counterAdd {y : W64} {v : List Nat} (h : s.Canonical) : (s.counterAdd n k y v).Canonical := by
  unfold State.counterAdd
  refine foldl ?_ fun t q ht => ht.makeReady
  exact h

theorem pushTask {t : BitVec 256} {ws : List (Nat × W64)} {v : List Nat} (h : s.Canonical) : (s.pushTask n t ws v).1.Canonical := by
  unfold State.pushTask
  dsimp only
  split
  · split
    · exact h
    · split
      · exact h
      · exact h.makeReady
  · split
    · exact h
    · exact h

theorem popTask {r : Ready × State} (h : s.Canonical) (popped : s.popTask n k = some r) : r.2.Canonical := by
  unfold State.popTask at popped
  split at popped
  · cases popped
  · cases popped
    refine feedQueue ?_
    exact h

/-! ### Objects (R128, R269 to R271) -/

theorem object {win : Bool} {kind : AccKind} (h : s.Canonical) : Act.Keeps (x.object s win kind l n k) fun _ => True := by
  refine h.places.bind fun ps _ => ?_
  split
  · split
    · exact h
    · trivial
  · exact h

theorem readObject {p : Place} (h : s.Canonical) : Act.Keeps (x.readObject s p n) fun _ => True := by
  unfold Ctx.readObject
  extract_lets r
  split
  · exact h
  · trivial

theorem genWait {y : BarCtl} {sync differ : Bool} {b : Block} (h : s.Canonical) :
    Act.Keeps (x.genWait s y l n k sync differ b) State.Canonical := by
  refine h.object.bind fun p _ => h.readObject.bind fun bs _ => ?_
  split
  · exact h
  · have acquired : Act.Keeps (x.acquireNow s y.scope (s.stampsOf x.die [p] (if sync then 8 else 16))) State.Canonical := h.acquireNow
    split
    next ready => rw [ready] at acquired; exact acquired
    next late => rw [late] at acquired; exact acquired

theorem arrive {y : BarCtl} {tin tout : W32} {wait : Bool} (h : s.Canonical) : Act.Keeps (x.arrive s y l n tin tout wait) State.Canonical := by
  refine h.object.bind fun p _ => h.readObject.bind fun bs _ => ?_
  split
  · exact h
  · exact h
  · refine h.releaseNow.bind fun t ht => ?_
    extract_lets u v
    have hu : u.Canonical := by
      unfold u
      split
      · exact ht
      · exact ht.release
    split
    · exact genWait (writePlaces hu)
    · exact hu.writePlaces

theorem barrierWaitEnd {r : SplitRef} (h : s.Canonical) : (barrierWaitEnd r s).Canonical := by
  refine resume_canonical h fun c i b t ht => ?_
  split
  · exact ht.genWait
  · exact ht

theorem arriveRetry {r : SplitRef} (h : s.Canonical) : (arriveRetry r s).Canonical := by
  refine resume_canonical h fun c i b t ht => ?_
  split
  · exact ht.arrive
  · exact ht.arrive
  · exact ht

theorem syncWaitEnd {r : SplitRef} (h : s.Canonical) : (syncWaitEnd r s).Canonical := by
  refine resume_canonical h fun c i b t ht => ?_
  split
  · exact ht.genWait
  · exact ht

theorem gbarComplete {gang : Bool} (h : s.Canonical) : (s.gbarComplete c n gang).Canonical := by
  unfold State.gbarComplete
  split
  · exact h
  · extract_lets sc rooms slots live waits runs unmapped ready
    split
    · exact h
    · exact foldl h fun t r ht => resume_canonical ht fun _ _ _ _ hu => hu

/-! ### Joins, pops and forks (R276 to R278) -/

theorem joincApply (h : s.Canonical) : (s.joincApply c n).Canonical := by
  unfold State.joincApply
  split
  · exact h
  · split
    · dsimp only
      split
      · exact h
      · split
        · split
          · exact h.closeEpoch
          · exact h
        · exact reap (modGroup (counterAdd (closeEpoch h)))
    · exact h

theorem popInto {d : BitVec 8} {t : BitVec 256} (h : s.Canonical) : (x.popInto s d t).Canonical := foldl h fun _ _ ht => ht.writeReg

theorem pop {d : BitVec 8} (h : s.Canonical) : Act.Keeps (x.pop s d n) State.Canonical := by
  unfold Ctx.pop
  split
  · exact h
  next popped =>
    have acquired (v : List Nat) : (s.acquireVec x.die v).2.Canonical := h.acquireVec
    split
    next entry _ _ _ late =>
      have stopped := acquired entry.vec
      rw [late] at stopped
      exact stopped
    · exact popInto (acquireVec (h.popTask popped))

theorem tqpopWake {r : SplitRef} (h : s.Canonical) : (tqpopWake r s).Canonical := resume_canonical h fun _ _ _ _ ht => ht.pop

theorem addLaunch {y : Launch} (h : s.Canonical) : (s.addLaunch y).Canonical := h

theorem forkResume (h : s.Canonical) : (s.forkResume l n).Canonical := by
  unfold State.forkResume
  split
  · split
    · exact h
    · exact h
  · exact h

end
end State.Canonical

section
variable {s : State} {x : Ctl} {d : Dst} {a b e : Src} {i : Instr}

theorem arriveOp_answers {y : BarCtl} {wait : Bool} (h : s.Canonical) : Answers (arriveOp i s y a b wait) := by
  refine run_answers h fun c t ht => ?_
  split
  · exact ht
  · refine ht.guard.bind fun _ _ => ?_
    extract_lets addr tin tout
    clear_value tout
    split
    · exact ht
    · exact ht.arrive

theorem waitOp_answers {y : BarCtl} {sync : Bool} (h : s.Canonical) : Answers (waitOp i s y a b sync) := by
  refine run_answers h fun c t ht => ?_
  split
  · exact ht
  · refine ht.guard.bind fun _ _ => ?_
    dsimp only
    split
    · exact ht
    · exact ht.genWait

theorem execGbar_answers {sc : Scope} (h : s.Canonical) : Answers (execGbar x sc s) := by
  refine run_answers h fun c t ht => ?_
  split
  · exact ht
  · exact ht.releaseNow.bind fun _ hu => hu.stop

theorem execCinc_answers (h : s.Canonical) : Answers (execCinc x a b s) := by
  refine run_answers h fun c t ht => ?_
  split
  · exact ht
  · refine ht.guard.bind fun _ _ => ?_
    dsimp only
    split
    · exact ht
    · exact ht.releaseNow.bind fun _ hu => hu.counterAdd

theorem execCrd_answers {d : BitVec 8} (h : s.Canonical) : Answers (execCrd x d a s) := by
  refine run_answers h fun c t ht => ?_
  split
  · exact ht
  · refine ht.guard.bind fun _ _ => ?_
    extract_lets id
    clear_value id
    split
    · exact ht
    · exact ht.acquireVecNow.bind fun _ hu => hu.writeK

theorem execJoinc_answers (h : s.Canonical) : Answers (execJoinc x a b s) := by
  refine run_answers h fun c t ht => ?_
  split
  · exact ht
  · refine ht.guard.bind fun _ _ => ?_
    dsimp only
    split
    · exact ht
    · exact ht.modGroup

theorem execTqpush_answers {d a b n : BitVec 8} (h : s.Canonical) : Answers (execTqpush x d a b n s) := by
  refine run_answers h fun c t ht => ?_
  split
  · exact ht
  · refine ht.guard.bind fun _ _ => ?_
    dsimp only
    split
    · exact ht
    · split
      · exact ht
      · exact ht.releaseNow.bind fun _ hu => hu.pushTask.writeK

theorem execTqpop_answers {d : BitVec 8} (h : s.Canonical) : Answers (execTqpop x d a s) := by
  refine run_answers h fun c t ht => ?_
  split
  · exact ht
  · refine ht.guard.bind fun _ _ => ?_
    dsimp only
    split
    · exact ht
    · split
      · exact ht
      · exact ht.pop

theorem execFork_answers {b : BitVec 8} (h : s.Canonical) : Answers (execFork x d a b s) := by
  refine run_answers h fun c t ht => ht.guard.bind fun _ _ => ?_
  split
  · exact ht
  · extract_lets id thr
    split
    · exact ht
    · split
      · exact ht
      · refine ht.places.bind fun ps _ => ht.observe.bind fun u hu => ?_
        extract_lets recs
        refine iteInduction (motive := fun m => Act.Keeps m State.Canonical) (fun _ => hu) fun _ => hu.releaseNow.bind fun v hv => ?_
        extract_lets fn checked w refused
        have hw : w.Canonical := hv.foldlFst (acc := (v, [])) fun _ _ ha => ha.admitLaunch
        split
        · exact hw.writeLanes
        · refine hw.writeLanes.bind fun y hy => State.Canonical.modGroup (hy.foldl fun z r hz => ?_)
          split
          · exact hz
          · exact hz

end
end Sys2Proof.Machine
end

section
/-! SUPPORT. The canonical form of memory through the engines' accesses and the jobs of the scheduler (R115 to R129, R279 to R284). -/

namespace Sys2Proof.Machine

/-- The state that an engine's work leaves where it ends early. -/
def Halt.left : Halt → State
  | .again s => s
  | .fail _ s => s
  | .kill s => s

/-- A part of an engine's work leaves a canonical state where it ends early, and a result with a property where it goes on. -/
abbrev Work.Keeps {α : Type} (m : Work α) (good : α → Prop) : Prop := Ends (fun e => e.left.Canonical) good m

/-- What a failed access marks about its job changes no memory. -/
theorem Work.Keeps.mark {m : Work State} {c id : Nat} (h : Work.Keeps m State.Canonical) : Work.Keeps (m.mark c id) State.Canonical := by
  unfold Work.mark
  split
  · exact h
  · exact h

theorem Work.Keeps.drop {m : Work State} {c : Nat} {j : Job} (h : Work.Keeps m State.Canonical) : Work.Keeps (m.drop c j) State.Canonical := by
  unfold Work.drop
  split
  · exact h
  · exact h

namespace State.Canonical

section
variable {s : State} {c n d e k l slot id : Nat} {x : Engine} {sp : Space} {u : LeafUse} {a : Int}

/-! ### Accesses of an engine (R58, R115, R121) -/

theorem again {α : Type} {p : α → Prop} (h : s.Canonical) : Work.Keeps (.error (.again s)) p := h
theorem fail {α : Type} {p : α → Prop} (h : s.Canonical) : Work.Keeps (.error (.fail k s)) p := h

theorem enginePlaces {kind : AccKind} (h : s.Canonical) : Work.Keeps (x.places s sp kind u a n k) fun _ => True := by
  unfold Engine.places
  extract_lets acc ps cs pl res
  split
  · exact h
  · split
    · exact h
    · split
      · exact h.askAllWalks
      · split
        · exact h
        · trivial

theorem engineRead (h : s.Canonical) : Work.Keeps (x.read s sp u a n k) fun r => r.2.Canonical := by
  refine h.enginePlaces.bind fun ps _ => ?_
  have fetched := h.fetchBytes (f := fun _ => x.die) (who := x.who) (n := x.g.owner) (bs := memBytes (ps.map (·.1)))
  split
  next came =>
    rw [came] at fetched
    exact mergeAll fetched
  next came => rw [came] at fetched; exact fetched

theorem engineWrite {bs : List (Byte × Bool)} (h : s.Canonical) : Work.Keeps (x.write s sp u a bs) State.Canonical :=
  h.enginePlaces.bind fun _ _ => h.writePlaces

theorem engineObject {kind : AccKind} (h : s.Canonical) : Work.Keeps (x.object s kind n k) fun _ => True := by
  refine h.enginePlaces.bind fun ps _ => ?_
  split
  · dsimp only
    split
    · exact h
    · trivial
  · exact h

theorem engineUpdate {p : Place} {bs : List Byte} (h : s.Canonical) : (x.update s p bs).Canonical := h.release.writePlaces

theorem engineStart (h : s.Canonical) : Work.Keeps (x.start s n k l) State.Canonical := by
  unfold Engine.start
  split
  · exact h
  · refine h.engineObject.bind fun ⟨p, bs⟩ _ => ?_
    dsimp only
    split
    · exact h
    · split
      · exact h.mergeAll
      · exact h.acquireAsk

/-! ### The scheduler's list (R119, R122, R284) -/

theorem modJob {f : Job → Job} (h : s.Canonical) : (s.modJob c id f).Canonical := h

theorem endJob {fuel : Nat} (h : s.Canonical) : (State.endJob fuel s c id k).Canonical := by
  induction fuel generalizing s id k with
  | zero => exact h
  | succ fuel ih =>
    unfold State.endJob
    split
    · exact h
    · dsimp only
      split
      · exact h
      · refine foldl ?_ fun t j ht => ih ht
        exact h

theorem finishJob (h : s.Canonical) : (s.finishJob c id k).Canonical := by
  unfold State.finishJob
  extract_lets room t
  split
  · exact reap h.endJob
  · exact h.endJob

theorem failJob (h : s.Canonical) : (s.failJob c id k).Canonical := h

theorem jobStep {body : Job → Engine → Work State} (h : s.Canonical) (hb : ∀ j x, Work.Keeps (body j x) State.Canonical) :
    (s.jobStep c id body).Canonical := by
  unfold State.jobStep
  split
  · exact h
  next j _ =>
    have done := hb j (s.jobEngine c j)
    split
    next m => rw [m] at done; exact done
    next m => rw [m] at done; exact done
    next m => rw [m] at done; exact done
    next m => rw [m] at done; exact killGang done

theorem jobUnit {body : Job → Engine → Work State} (h : s.Canonical) (hb : ∀ j x, Work.Keeps (body j x) State.Canonical) :
    (s.jobUnit c id k body).Canonical := by
  refine h.jobStep fun j x => ?_
  split
  · exact h
  · exact hb j x

/-! ### Submission, waits, acceptance and start (R118, R121, R282, R283) -/

theorem submit {x : Ctx} (h : s.Canonical) : Act.Keeps (x.submit s l n) State.Canonical := by
  unfold Ctx.submit
  extract_lets me q t
  split
  · exact h
  · have ht : t.Canonical := by
      unfold t
      split
      · exact h
      · exact h
    refine ht.range.bind fun ps _ => ?_
    extract_lets r
    split
    · exact ht
    · split
      · exact ht
      · exact modCore (modWarp ht)

theorem waitJobs {x : Ctx} {b : Block} (h : s.Canonical) : Act.Keeps (x.waitJobs s b) State.Canonical := by
  unfold Ctx.waitJobs
  have acquired := h.acquireVec (e := x.die) (v := (s.warp x.core x.slot).jvec)
  split
  · exact h
  · split
    next ready => rw [ready] at acquired; exact acquired
    next late => rw [late] at acquired; exact acquired

theorem jwaitEnd {r : SplitRef} (h : s.Canonical) : (jwaitEnd r s).Canonical := resume_canonical h fun _ _ _ _ ht => ht.waitJobs

theorem jobAccept (h : s.Canonical) : (s.jobAccept c).Canonical := by
  unfold State.jobAccept
  split
  · exact h
  · split
    · exact h
    · exact h

theorem jobStart (h : s.Canonical) : (s.jobStart c id).Canonical := by
  refine h.jobStep fun j x => ?_
  split
  · exact h
  · exact h.engineStart.bind fun t ht => ht.modJob

/-! ### Units of work (R117, R281) -/

theorem jobRead {j : Job} (h : s.Canonical) : Work.Keeps (j.read x s k a n) fun r => r.2.Canonical := by
  unfold Job.read
  extract_lets r
  split
  · exact h
  · split
    · exact h.engineRead
    · exact h

theorem jobWrite {j : Job} {bs : List (Byte × Bool)} (h : s.Canonical) : Work.Keeps (j.write x s k a bs) State.Canonical := by
  unfold Job.write
  extract_lets r
  split
  · exact h
  · split
    · exact h.engineWrite
    · exact h

theorem touchedOwing (h : s.Canonical) : ((s.touched c id).owe c id n k).Canonical := h

theorem aligned (h : s.Canonical) : Work.Keeps (aligned s a n) fun _ => True := by
  unfold Machine.aligned
  split
  · trivial
  · exact h

theorem porterRow (h : s.Canonical) : (s.porterRow c id).Canonical :=
  h.jobUnit fun _ _ => h.jobRead.bind fun _ ht => Work.Keeps.mark (ht.jobWrite.bind fun _ hu => hu.touchedOwing)

theorem courierElement (h : s.Canonical) : (s.courierElement c id).Canonical := by
  refine h.jobUnit fun j x => h.aligned.bind fun _ _ => h.jobRead.bind fun ⟨ib, t⟩ ht => ?_
  dsimp only
  split
  · exact ht
  · exact Work.Keeps.mark (ht.aligned.bind fun _ _ => ht.jobRead.bind fun _ hu => hu.aligned.bind fun _ _ =>
      hu.jobWrite.bind fun _ hv => hv.touchedOwing)

theorem gather {j : Job} {ks : List Nat} {acc : Option (Nat × Bool)} (h : s.Canonical) :
    Work.Keeps (j.gather x n ks acc s) fun r => r.2.Canonical := by
  induction ks generalizing s acc with
  | nil => exact h
  | cons k ks ih => exact h.aligned.bind fun _ _ => h.jobRead.bind fun _ ht => ih ht

theorem collectiveElement (h : s.Canonical) : (s.collectiveElement c id).Canonical :=
  h.jobUnit fun _ _ => h.gather.bind fun _ ht => Work.Keeps.mark (ht.aligned.bind fun _ _ => ht.jobWrite.bind fun _ hu => hu.touchedOwing)

theorem element {j : Job} {q : Requant} {t : Taken} (h : t.s.Canonical) : Work.Keeps (j.element x q n k t) fun r => r.s.Canonical := by
  unfold Job.element
  extract_lets core holder bookBad seen
  split
  · exact h.jobRead.bind fun _ hu => hu
  · refine h.jobRead.bind fun ⟨bs, u⟩ hu => ?_
    dsimp only
    split
    · exact hu.jobRead.bind fun _ hv => hv
    · exact hu

theorem elements {j : Job} {q : Requant} {cols : List Nat} {t : Taken} (h : t.s.Canonical) :
    Work.Keeps (j.elements x q n cols t) fun r => r.s.Canonical := by
  induction cols generalizing t with
  | nil => exact h
  | cons col cols ih =>
    unfold Job.elements
    dsimp only
    split
    · refine ih ?_
      exact h
    · split
      · exact h.element.bind fun _ hu => ih hu
      · exact h.element.bind fun _ hu => ih hu

theorem requantiseGroup (h : s.Canonical) : (s.requantiseGroup c id).Canonical := by
  refine h.jobUnit fun j x => ?_
  split
  · exact h
  · refine Ends.bind (elements (t := { s := s, rd := [], vals := [] }) h) fun t ht => Work.Keeps.mark ?_
    dsimp only
    split
    · exact ht.jobWrite.bind fun _ hu => hu.touchedOwing
    · exact ht.jobWrite.bind fun _ _ => ht.jobWrite.bind fun _ hu => hu.jobWrite.bind fun _ hv => hv.touchedOwing

/-! ### Raises, countdowns and completion (R122, R125, R128) -/

theorem syncRaiseJob (h : s.Canonical) : (s.syncRaiseJob c id).Canonical := by
  refine h.jobStep fun j x => ?_
  split
  · exact h
  · split
    · exact h
    · exact Work.Keeps.drop (h.engineObject.bind fun _ _ => h.engineUpdate.modJob)

theorem barrierCountdown (h : s.Canonical) : (s.barrierCountdown c id).Canonical := by
  refine h.jobStep fun j x => ?_
  split
  · exact h
  · refine Work.Keeps.drop (h.engineObject.bind fun ⟨p, bs⟩ _ => ?_)
    dsimp only
    split
    · exact h
    · exact h.engineUpdate.modJob

theorem jobComplete (h : s.Canonical) : (s.jobComplete c id).Canonical := by
  unfold State.jobComplete
  split
  · exact h
  · extract_lets o t u
    split
    · exact h
    · refine finishJob ?_
      have ht : t.Canonical := h.release
      unfold u
      split
      · exact ht.modWarp
      · exact ht

end
end State.Canonical

section
variable {s : State} {x : Ctl}

theorem execJsub_answers {a : BitVec 8} (h : s.Canonical) : Answers (execJsub x a s) := by
  refine run_answers h fun c t ht => ?_
  split
  · exact ht
  · refine ht.guard.bind fun _ _ => ?_
    dsimp only
    split
    · exact ht
    · exact ht.submit

theorem execJwait_answers {m : BitVec 8} (h : s.Canonical) : Answers (execJwait x m s) := by
  refine run_answers h fun c t ht => ?_
  split
  · exact ht
  · exact ht.waitJobs

theorem execJchk_answers {d m : BitVec 8} (h : s.Canonical) : Answers (execJchk x d m s) := by
  refine run_answers h fun c t ht => ?_
  split
  · exact ht
  · exact ht.guard.bind fun _ _ => ht.modGroup.writeK

theorem execJcan_answers {m : BitVec 8} (h : s.Canonical) : Answers (execJcan x m s) := by
  refine run_answers h fun c t ht => ?_
  split
  · exact ht
  · exact ht.foldl fun _ _ hu => hu.finishJob

end
end Sys2Proof.Machine
end

section
/-! SUPPORT. The canonical form of memory through the matrix engine and the map slots (R80, R285 to R297). -/

namespace Sys2Proof.Machine
namespace State.Canonical

section
variable {s : State} {c n d e k l slot : Nat} {x : Engine}

/-! ### The ring (R289 to R291) -/

theorem modRing {f : Ring → Ring} (h : s.Canonical) : (s.modRing c n f).Canonical := h
theorem setProgress (h : s.Canonical) : (s.setProgress c n k l).Canonical := h
theorem setTilePoison {p : Bool} (h : s.Canonical) : (s.setTilePoison c k p).Canonical := h

theorem haltRing {p : Option Nat} (h : s.Canonical) : (s.haltRing c n k p).Canonical := by
  unfold State.haltRing
  extract_lets d t u
  have hu : u.Canonical := by
    unfold u
    split
    · exact h
    · exact h
  exact hu

theorem enterSteps {r : BitVec 512} (h : s.Canonical) : (s.enterSteps x r).Canonical := by
  unfold State.enterSteps
  split
  · exact h
  · exact h

theorem mxFetch (h : s.Canonical) : (s.mxFetch c n).Canonical := by
  unfold State.mxFetch
  extract_lets ring x how t
  have ht : t.Canonical := h
  split
  · exact h
  · split
    split
    · exact h.killGang
    · extract_lets r again q
      split
      · exact ht.haltRing
      · refine modRing ?_
        split
        · exact ht.enterSteps
        · exact ht

theorem mxStart (h : s.Canonical) : (s.mxStart c n).Canonical := by
  unfold State.mxStart
  split
  · exact h
  next q _ =>
    split
    · exact h
    · extract_lets x
      have started : Work.Keeps (x.start s (recField q.rec_ 9 8) (recField q.rec_ 127 96) (recField q.rec_ 31 24)) State.Canonical :=
        h.engineStart
      split
      next m => rw [m] at started; exact modRing (enterSteps started)
      next m => rw [m] at started; exact started
      next m => rw [m] at started; exact haltRing started
      next m => rw [m] at started; exact killGang started

/-! ### K-blocks and arrivals (R286, R291) -/

theorem rows {r : BitVec 512} {b : Bool} {is : List Nat} {acc : List OperRow} (h : s.Canonical) :
    Work.Keeps (x.rows r b k is s acc) fun r => r.2.Canonical := by
  induction is generalizing s acc with
  | nil => exact h
  | cons i is ih =>
    unfold Engine.rows
    dsimp only
    split
    · exact h.engineRead.bind fun _ ht => ih ht
    · refine h.engineRead.bind fun ⟨bs, t⟩ ht => ?_
      dsimp only
      split
      · exact ht.engineRead.bind fun _ hu => ih hu
      · exact ih ht

theorem operand {q : Running} {b : Bool} (h : s.Canonical) : Work.Keeps (x.operand s q n b) fun r => r.2.Canonical := by
  unfold Engine.operand
  extract_lets ring
  split
  · exact h
  · exact h.rows

theorem kblock {q : Running} (h : s.Canonical) :
    Work.Keeps (s.kblock x q) fun r => r.2.Canonical ∧ ∀ t, r.1 = some t → t.Canonical := by
  unfold State.kblock
  extract_lets n holder steps
  refine h.operand.bind fun ⟨ra, t⟩ ht => Ends.bind (operand ht) fun ⟨rb, u⟩ hu => ?_
  have hu : u.Canonical := hu
  change Ends _ _ (ite _ _ _)
  extract_lets v w va vb tile old out bad y z
  split
  · exact ⟨hu, fun _ e => nomatch e⟩
  · have hz : z.Canonical := by
      unfold z
      split
      · exact hu
      · exact hu
    refine ⟨hz, ?_⟩
    rintro _ ⟨⟩
    exact hz

theorem mxArrive {q : Running} (h : s.Canonical) : Work.Keeps (s.mxArrive x q) State.Canonical := by
  unfold State.mxArrive
  extract_lets c n d t retire
  have ht : t.Canonical := h
  split
  · exact ht
  · have met : Work.Keeps (x.object t .rmw (recField q.rec_ 159 128) 16) fun _ => True := ht.engineObject
    split
    next m => rw [m] at met; exact haltRing met
    next m => rw [m] at met; exact met
    · split
      · exact ht.haltRing
      · exact ht
      · exact ht.engineUpdate

theorem mxComplete {q : Running} (h : s.Canonical) : Work.Keeps (s.mxComplete x q) State.Canonical := mxArrive h

theorem mxGo {q : Running} (h : s.Canonical) : Work.Keeps (s.mxGo c n q) State.Canonical := by
  unfold State.mxGo
  extract_lets x t
  have ht : t.Canonical := h
  split
  · exact ht.mxArrive
  · split
    · exact mxComplete ht
    · refine Ends.bind (kblock ht) fun r hr => ?_
      obtain ⟨o, u⟩ := r
      obtain ⟨hu, hv⟩ := hr
      cases o with
      | none => exact hu.haltRing
      | some v =>
        have hv : v.Canonical := hv v rfl
        dsimp only
        split
        · exact mxComplete hv
        · exact hv

theorem mxTry (h : s.Canonical) : (s.mxTry c n).2.Canonical := by
  unfold State.mxTry
  split
  · exact h
  next q _ =>
    split
    · exact h
    · have gone : Work.Keeps (s.mxGo c n q) State.Canonical := h.mxGo
      split
      next m => rw [m] at gone; exact gone
      next m => rw [m] at gone; exact gone
      next m => rw [m] at gone; exact haltRing gone
      next m => rw [m] at gone; exact killGang gone

theorem mxKblock (h : s.Canonical) : (s.mxKblock c n).Canonical := by
  unfold State.mxKblock
  split
  · exact h
  · exact h.mxTry

/-! ### The matrix instructions (R290, R294) -/

theorem queueRecords {x : Ctx} {d : BitVec 8} (h : s.Canonical) : Act.Keeps (x.queueRecords s d n) State.Canonical := by
  unfold Ctx.queueRecords
  extract_lets r
  split
  · exact h
  · exact setK (modRing h)

theorem configure {x : Ctx} (h : s.Canonical) : Act.Keeps (x.configure s n k) State.Canonical := by
  unfold Ctx.configure
  extract_lets r
  split
  · exact h
  · exact h

theorem waitRecords {x : Ctx} {d : BitVec 8} {a : W32} (h : s.Canonical) : Act.Keeps (x.waitRecords s d a) State.Canonical := by
  unfold Ctx.waitRecords
  extract_lets r
  split
  · exact h.setK
  · split
    · exact h
    · exact h

theorem loadBook {x : Ctx} {sp : Bool} (h : s.Canonical) : Act.Keeps (x.loadBook s l sp n k) State.Canonical := by
  unfold Ctx.loadBook
  extract_lets holder cores busy
  split
  · exact h
  · exact h.range.bind fun _ _ => h.observe.bind fun _ ht => ht.foldl fun _ _ hu => hu.modCore

theorem engineWaitEnd {r : SplitRef} (h : s.Canonical) : (engineWaitEnd r s).Canonical := by
  refine resume_canonical h fun c i b t ht => ?_
  split
  · exact ht.queueRecords
  · exact ht.configure
  · exact ht.waitRecords
  · exact ht.loadBook
  · exact ht

/-! ### Map slots (R296) -/

theorem loadSlot {o : Option Nat} {bs : List Byte} {p : Bool} (h : s.Canonical) : (s.loadSlot c o k bs p).Canonical := h

theorem bind {x : Ctx} {y : BitVec 2} {sp : Bool} (h : s.Canonical) : Act.Keeps (x.bind s l y sp n) State.Canonical := by
  refine h.range.bind fun ps _ => h.observe.bind fun t ht => ?_
  extract_lets r desc addr slot'
  split
  · exact ht
  · split
    · exact ht
    · clear_value slot'
      split
      · exact ht
      · exact ht.range.bind fun _ _ => ht.observe.bind fun _ hu => modGroup (loadSlot hu)

theorem slotAddr {x : Ctx} {sp : Bool} {a : BitVec 8} (h : s.Canonical) : Act.Keeps (x.slotAddr s sp a) fun _ => True := by
  unfold Ctx.slotAddr
  extract_lets v
  split
  · exact h
  · trivial

theorem blockedWaitEnd {r : SplitRef} (h : s.Canonical) : (blockedWaitEnd r s).Canonical := by
  refine resume_canonical h fun c i b t ht => ?_
  split
  · exact ht.bind
  · exact ht.submit
  · exact ht

end
end State.Canonical

section
variable {s : State} {x : Ctl} {a : Src} {y : BitVec 2} {i : Instr}

theorem execMxq_answers {d : BitVec 8} (h : s.Canonical) : Answers (execMxq x d a s) := by
  refine run_answers h fun c t ht => ?_
  split
  · exact ht
  · refine ht.guard.bind fun _ _ => ?_
    dsimp only
    split
    · exact ht
    · split
      · exact ht
      · exact ht.releaseNow.bind fun _ hu => hu.queueRecords

theorem execMxrunResume_answers (h : s.Canonical) : Answers (execMxrunResume x s) := by
  refine run_answers h fun c t ht => ?_
  split
  · exact ht
  · refine ht.releaseNow.bind fun u hu => ?_
    split
    · exact hu
    · exact hu

theorem execMxrunSkip_answers (h : s.Canonical) : Answers (execMxrunSkip x s) := by
  refine run_answers h fun c t ht => ?_
  split
  · exact ht
  · refine ht.releaseNow.bind fun u hu => ?_
    dsimp only
    split
    · exact hu
    · exact hu

theorem execMxrunAbort_answers (h : s.Canonical) : Answers (execMxrunAbort x s) := by
  refine run_answers h fun c t ht => ?_
  split
  · exact ht
  · refine ht.releaseNow.bind fun u hu => ?_
    dsimp only
    split
    · exact hu
    · exact State.Canonical.modRing (hu.foldl fun _ _ hv => hv.setStatus)

theorem execMxcfg_answers {a e : BitVec 8} (h : s.Canonical) : Answers (execMxcfg x a e s) := by
  refine run_answers h fun c t ht => ?_
  split
  · exact ht
  · refine ht.guard.bind fun _ _ => ?_
    dsimp only
    split
    · exact ht
    · exact ht.range.bind fun _ _ => ht.configure

theorem execMxwait_answers {d : BitVec 8} (h : s.Canonical) : Answers (execMxwait x d a s) := by
  refine run_answers h fun c t ht => ?_
  split
  · exact ht
  · refine ht.guard.bind fun _ _ => ?_
    dsimp only
    split
    · exact ht
    · exact ht.waitRecords

theorem execMxcb_answers {a : BitVec 8} {sp : Bool} {j : BitVec 3} (h : s.Canonical) : Answers (execMxcb x a sp j s) := by
  refine run_answers h fun c t ht => ?_
  split
  · exact ht
  · refine ht.guard.bind fun _ _ => ?_
    dsimp only
    split
    · exact ht
    · exact ht.loadBook

theorem slotOp_answers {needs : List Need} {body : Ctx → State → Nat → Act State} (h : s.Canonical)
    (hb : ∀ c t l, t.Canonical → Act.Keeps (body c t l) State.Canonical) : Answers (slotOp i s y needs body) := by
  refine run_answers h fun c t ht => ?_
  split
  · exact ht
  · refine ht.guard.bind fun _ _ => ?_
    split
    · exact ht
    · exact hb _ _ _ ht

theorem execMapbind_answers {a : BitVec 8} {sp : Bool} (h : s.Canonical) : Answers (execMapbind x y a sp s) :=
  slotOp_answers h fun _ _ _ ht => ht.slotAddr.bind fun _ _ => State.Canonical.bind ht

theorem execMapld_answers {a : BitVec 8} {sp : Bool} (h : s.Canonical) : Answers (execMapld x y a sp s) := by
  refine slotOp_answers h fun c t l ht => ht.slotAddr.bind fun _ _ => ?_
  split
  · exact ht
  · exact ht.range.bind fun _ _ => ht.observe.bind fun _ hu => hu.loadSlot

theorem execMapst_answers {a : BitVec 8} {sp : Bool} (h : s.Canonical) : Answers (execMapst x y a sp s) := by
  refine slotOp_answers h fun c t l ht => ht.slotAddr.bind fun _ _ => ?_
  split
  · exact ht
  · exact ht.range.bind fun _ _ => ht.writePlaces

theorem execMaprel_answers (h : s.Canonical) : Answers (execMaprel x y s) := slotOp_answers h fun _ _ _ ht => ht.modGroup

theorem execMapinfo_answers {d : BitVec 8} (h : s.Canonical) : Answers (execMapinfo x d y s) := by
  refine run_answers h fun c t ht => ?_
  split
  · exact ht
  · exact ht.guard.bind fun _ _ => ht.writeK

end
end Sys2Proof.Machine
end

section
/-! SUPPORT. The canonical form of memory through the search instructions (R300 to R321). -/

namespace Sys2Proof.Machine

/-- A lane's part of a search instruction gives a result with a property where it goes on, whatever the lanes before it met. -/
structure Lane.Keeps {α : Type} (m : Lane α) (good : α → Prop) : Prop where
  ends : ∀ g, Ends (fun _ => True) good (m.run g).1

namespace Lane.Keeps

section
variable {α β : Type} {p : α → Prop} {q : β → Prop}

theorem pure {a : α} (h : p a) : Lane.Keeps (Pure.pure a) p := ⟨fun _ => h⟩

theorem bind {m : Lane α} {f : α → Lane β} (hm : Lane.Keeps m p) (hf : ∀ a, p a → Lane.Keeps (f a) q) : Lane.Keeps (m >>= f) q := by
  refine ⟨fun g => ?_⟩
  have first := hm.ends g
  change Ends _ q (ExceptT.bindCont f (m.run g).1 (m.run g).2).1
  generalize m.run g = r at first ⊢
  obtain ⟨stopped | a, g'⟩ := r
  · trivial
  · exact (hf a first).ends g'

/-- What a lane only looks at. -/
theorem look {m : Lane α} : Lane.Keeps m fun _ => True := by
  refine ⟨fun g => ?_⟩
  unfold Ends
  split
  · trivial
  · trivial

theorem foldlM {γ : Type} {f : α → γ → Lane α} (hf : ∀ a b, p a → Lane.Keeps (f a b) p) (l : List γ) {a : α} (h : p a) :
    Lane.Keeps (l.foldlM f a) p := by
  induction l generalizing a with
  | nil => exact Lane.Keeps.pure h
  | cons b l ih =>
    rw [List.foldlM_cons]
    exact (hf a b h).bind fun _ ha => ih ha

end
end Lane.Keeps

namespace State.Canonical

section
variable {s : State} {c n d e k l slot a fuel : Nat} {x : Ctx} {w : Work2}

/-! ### Accesses of one lane (R302, R305, R308) -/

theorem satWrite {bs : List Byte} {p : Bool} (h : s.Canonical) : Lane.Keeps (x.satWrite s l a bs p) State.Canonical := by
  refine Lane.Keeps.look.bind fun o _ => ?_
  split
  · exact Lane.Keeps.pure h.writePlaces
  · exact Lane.Keeps.pure h

theorem setHeader {y : SHdr} (h : s.Canonical) : Lane.Keeps (x.setHeader s l y) State.Canonical := h.satWrite
theorem setChoice {y : Choice} (h : s.Canonical) : Lane.Keeps (x.setChoice s l a y) State.Canonical := h.satWrite

theorem alt (h : s.Canonical) : Lane.Keeps (x.alt s l n k) fun r => r.1.Canonical := by
  unfold Ctx.alt
  split
  · exact Lane.Keeps.pure h
  · refine Lane.Keeps.look.bind fun o _ => ?_
    split
    · exact Lane.Keeps.pure h
    next p =>
      have fetched := h.fetchBytes (f := fun _ => x.die) (who := .split x.ref) (n := x.g.owner) (bs := memBytes [p])
      split
      next came => rw [came] at fetched; exact Lane.Keeps.pure (mergeAll fetched)
      · exact Lane.Keeps.look.bind fun _ _ => Lane.Keeps.pure h

theorem putLane {y : LaneWord} (h : w.s.Canonical) : Lane.Keeps (x.putLane w l n y) fun r => r.s.Canonical := by
  unfold Ctx.putLane
  split
  · exact Lane.Keeps.pure (setVreg h)
  · refine Lane.Keeps.look.bind fun y _ => ?_
    split
    · exact Lane.Keeps.pure h
    · exact h.satWrite.bind fun _ ht => ht.setHeader.bind fun _ hu => Lane.Keeps.pure (setVreg hu)

/-! ### Unwinding, discarding and backtracking (R307, R315) -/

theorem applyTrail (h : s.Canonical) : Lane.Keeps (x.applyTrail fuel s l a k) State.Canonical := by
  induction fuel generalizing s a with
  | zero => exact Lane.Keeps.pure h
  | succ fuel ih =>
    unfold Ctx.applyTrail
    split
    · exact Lane.Keeps.pure h
    · refine Lane.Keeps.look.bind fun bs _ => ?_
      dsimp only
      split
      · exact (Lane.Keeps.pure (setVreg h)).bind fun _ ht => ih ht
      · split
        · exact (Lane.Keeps.pure h).bind fun _ ht => ih ht
        · exact h.satWrite.bind fun _ ht => ih ht

theorem unwind (h : s.Canonical) : Lane.Keeps (x.unwind s l k) State.Canonical :=
  Lane.Keeps.look.bind fun _ _ => h.applyTrail.bind fun _ ht => ht.setHeader

theorem revoke {y : Choice} (h : s.Canonical) : Lane.Keeps (x.revoke s l y) State.Canonical := by
  refine Lane.Keeps.foldlM (fun t k ht => ?_) _ h
  refine Lane.Keeps.look.bind fun _ _ => Lane.Keeps.look.bind fun o _ => ?_
  split
  · split
    · exact ht.setChoice
    · exact Lane.Keeps.pure ht
  · exact Lane.Keeps.pure ht

theorem discard {p : Choice → Bool} (h : s.Canonical) : Lane.Keeps (x.discard fuel s l p) State.Canonical := by
  induction fuel generalizing s with
  | zero => exact Lane.Keeps.pure h
  | succ fuel ih =>
    refine Lane.Keeps.look.bind fun y _ => ?_
    split
    · exact Lane.Keeps.pure h
    · refine Lane.Keeps.look.bind fun y _ => ?_
      split
      · exact Lane.Keeps.pure h
      · exact h.revoke.bind fun _ ht => Lane.Keeps.look.bind fun _ _ => ht.setHeader.bind fun _ hu => ih hu

theorem backtrackLoop (h : w.s.Canonical) : Lane.Keeps (x.backtrackLoop fuel w l) fun r => r.1.s.Canonical := by
  induction fuel generalizing w with
  | zero => exact Lane.Keeps.look.bind fun _ _ => h.setHeader.bind fun _ ht => Lane.Keeps.pure ht
  | succ fuel ih =>
    -- the loop's match also looks at the header, which keeps Lean from unfolding it by its equations
    set_option smartUnfolding false in
    change Lane.Keeps (x.header w.s l >>= _) _
    refine Lane.Keeps.look.bind fun y _ => ?_
    cases y.holds with
    | false => exact h.setHeader.bind fun _ ht => Lane.Keeps.pure ht
    | true =>
      refine Lane.Keeps.look.bind fun k _ => h.unwind.bind fun t ht => ?_
      split
      · exact ht.alt.bind fun _ hu => hu.setChoice.bind fun v hv => Lane.Keeps.bind (putLane (w := { w with s := v }) hv) fun _ hw =>
          Lane.Keeps.pure hw
      · refine Lane.Keeps.look.bind fun _ _ => ht.setHeader.bind fun u hu => ?_
        set_option smartUnfolding false in
        exact ih (w := { w with s := u }) hu

theorem backtrack (h : w.s.Canonical) : Lane.Keeps (x.backtrack w l) fun r => r.1.s.Canonical := by
  refine Lane.Keeps.look.bind fun o _ => ?_
  split
  · split
    · exact h.unwind.bind fun _ ht => ht.discard.bind fun u hu => backtrackLoop (w := { w with s := u }) hu
    · exact backtrackLoop h
  · exact backtrackLoop h

theorem tryLane {y : Dst} (h : w.s.Canonical) : Lane.Keeps (x.tryLane y n k w l) fun r => r.1.s.Canonical := by
  refine Lane.Keeps.look.bind fun o _ => ?_
  split
  · exact backtrack h
  · refine Lane.Keeps.look.bind fun y _ => h.alt.bind fun ⟨t, word⟩ ht => ?_
    have ht : t.Canonical := ht
    refine iteInduction (motive := fun m => Lane.Keeps m _) (fun _ => ?_) fun _ => ?_
    · exact Lane.Keeps.pure h
    · exact ht.setChoice.bind fun _ hu => hu.setHeader.bind fun v hv => Lane.Keeps.bind (putLane (w := { w with s := v }) hv) fun _ hw =>
        Lane.Keeps.pure hw

theorem storeTrailed {ws : List LaneWord} {ea : Int} (h : w.s.Canonical) : Lane.Keeps (x.storeTrailed n ws ea w l) fun r => r.s.Canonical := by
  refine Lane.Keeps.look.bind fun _ _ => Lane.Keeps.look.bind fun _ _ => Lane.Keeps.look.bind fun y _ => ?_
  split
  · exact Lane.Keeps.pure h
  · exact h.satWrite.bind fun _ ht => ht.setHeader.bind fun _ hu => hu.satWrite.bind fun _ hv => Lane.Keeps.pure hv

/-! ### Theft (R318) -/

theorem copySatchel (h : s.Canonical) : Lane.Keeps (x.copySatchel s l n) State.Canonical :=
  Lane.Keeps.foldlM (fun _ _ ht => Lane.Keeps.look.bind fun _ _ => ht.satWrite) _ h

theorem theft {y : Choice} (h : w.s.Canonical) : Lane.Keeps (x.theft w l n a y) fun r => r.1.s.Canonical := by
  refine h.alt.bind fun r ht => Lane.Keeps.look.bind fun hv _ => Lane.Keeps.look.bind fun hd _ => ?_
  obtain ⟨t, word⟩ := r
  have ht : t.Canonical := ht
  have copied : ((List.range x.g.hdr.allot).foldl (fun s k => s.setVreg x.core x.slot k l (s.vreg x.core x.slot k n)) t).Canonical :=
    ht.foldl fun _ _ hu => hu.setVreg
  exact copied.modWarp.copySatchel.bind fun _ h1 => h1.applyTrail.bind fun _ h2 => h2.setHeader.bind fun _ h3 => h3.setChoice.bind fun _ h4 =>
    h4.satWrite.bind fun _ h5 => h5.setChoice.bind fun _ h6 => h6.setHeader.bind fun u h7 =>
    Lane.Keeps.bind (putLane (w := { w with s := u }) h7) fun _ h8 => Lane.Keeps.pure h8

theorem stealLane (h : w.s.Canonical) : Lane.Keeps (x.stealLane w l) fun r => r.1.s.Canonical := by
  refine Lane.Keeps.look.bind fun y _ => ?_
  split
  · exact Lane.Keeps.pure h
  · refine Lane.Keeps.look.bind fun o _ => ?_
    split
    · exact (theft h).bind fun _ ht => Lane.Keeps.pure ht
    · exact Lane.Keeps.pure h

/-! ### What every search instruction does (R310, R311, R320) -/

theorem refuse {α : Type} {p : α → Prop} {rs : List Refused} (h : s.Canonical) : Act.Keeps (x.refuse s rs : Act α) p := by
  unfold Ctx.refuse
  extract_lets rank best ask trap sp asking fault
  have asked : (rs.foldl ask s).Canonical := h.foldl fun _ _ ht => ht.askAllWalks
  have he : Act.Keeps fault p := by
    unfold fault
    generalize trap = found
    cases found with
    | some t => exact h
    | none =>
      dsimp only
      split
      · exact asked.remoteWait
      · exact asked
  split
  · exact he
  · split
    · exact asked
    · split
      · exact h
      · exact he

theorem perLane {f : Work2 → Nat → Lane (Work2 × W64)} {pre : Nat → Lane Unit} (h0 : s.Canonical) {t : State} (h : t.Canonical)
    (hf : ∀ w l, w.s.Canonical → Lane.Keeps (f w l) fun r => r.1.s.Canonical) : Act.Keeps (x.perLane s t f pre) fun r => r.1.Canonical := by
  unfold Ctx.perLane
  extract_lets r
  have hr : r.1.s.Canonical := by
    refine List.foldlRecOn (motive := fun r : Work2 × List (Nat × W64) × Bool × LaneLog => r.1.s.Canonical) _ _ h fun r hr l _ => ?_
    have went := (hf r.1 l hr).ends r.2.2.2
    split
    next done => rw [done] at went; exact went
    · exact hr
  split
  · exact h0.refuse
  · split
    · exact h0
    · split
      · exact h0
      · split
        · exact hr
        · exact h0.observe.bind fun _ ht => ht.stop

theorem scatter {pcs : List (Nat × W64)} {t : State} (h : s.Canonical) (ht : t.Canonical) : Act.Keeps (x.scatter s t pcs) State.Canonical := by
  unfold Ctx.scatter
  extract_lets f
  split
  · exact h
  · exact ht.setWarp

theorem searchEnter (h : s.Canonical) : Act.Keeps (x.searchEnter s) fun _ => True := by
  unfold Ctx.searchEnter
  extract_lets out
  split
  · exact h.srch
  · split
    · exact h.srch
    · split
      · exact h.srch
      · trivial

theorem searchCheck {big : LaneMask} {out : Nat → Option SHdr → Bool} (h : s.Canonical) :
    Act.Keeps (x.searchCheck s big out) fun _ => True := by
  refine h.searchEnter.bind fun _ _ => ?_
  extract_lets rs waits hs bad away
  split
  · exact h.refuse
  · split
    · exact h.srch
    · split
      · exact h.srch
      · split
        · exact h.srch
        · trivial

end
end State.Canonical

section
variable {s : State} {x : Ctl} {a b : Src} {d : Dst}

theorem execSrchbeg_answers {u : BitVec 8} {off : BitVec 24} (h : s.Canonical) : Answers (execSrchbeg x u off s) := by
  refine run_answers h fun c t ht => ?_
  extract_lets sb base hot
  split
  · exact ht.srch
  · split
    · exact ht.srch
    · split
      · exact ht.srch
      · split
        · exact ht.srch
        · split
          · exact ht
          · split
            · exact ht
            · exact Ends.bind (ht.perLane ht fun _ _ hw => Lane.Keeps.bind hw.setHeader fun _ hu => Lane.Keeps.pure hu) fun _ hr => hr.modWarp

theorem execSrchend_answers (h : s.Canonical) : Answers (execSrchend x s) := by
  refine run_answers h fun c t ht => ht.searchEnter.bind fun _ _ => ?_
  split
  · exact ht.srch
  · exact ht.modWarp

theorem execTrye_answers (h : s.Canonical) : Answers (execTrye x d a b s) := by
  refine run_answers h fun c t ht => ht.guard.bind fun _ _ => ht.searchEnter.bind fun _ _ => ?_
  split
  · exact ht
  · exact ht.searchCheck.bind fun _ _ => (ht.perLane ht fun _ _ hw => hw.tryLane).bind fun _ hr => ht.scatter hr

theorem execFail_answers (h : s.Canonical) : Answers (execFail x s) :=
  run_answers h fun _ _ ht => ht.searchCheck.bind fun _ _ => (ht.perLane ht fun _ _ hw => hw.backtrack).bind fun _ hr => ht.scatter hr

theorem execCut_answers (h : s.Canonical) : Answers (execCut x a s) := by
  refine run_answers h fun c t ht => ht.guard.bind fun _ _ => ht.searchEnter.bind fun _ _ => ?_
  split
  · exact ht
  · exact ht.searchCheck.bind fun _ _ => (ht.perLane ht fun _ _ hw => hw.discard.bind fun _ hu => Lane.Keeps.pure hu).bind fun _ hr => hr

theorem execCpmark_answers (h : s.Canonical) : Answers (execCpmark x d s) :=
  run_answers h fun _ _ ht => ht.guard.bind fun _ _ => ht.searchCheck.bind fun _ _ =>
    (ht.perLane ht fun _ _ hw => Lane.Keeps.look.bind fun _ _ => hw.putLane.bind fun _ hu => Lane.Keeps.pure hu).bind fun _ hr => hr

theorem execCpchk_answers (h : s.Canonical) : Answers (execCpchk x d s) := by
  refine run_answers h fun c t ht => ht.guard.bind fun _ _ => ht.searchCheck.bind fun _ _ =>
    (ht.perLane ht fun w l hw => Lane.Keeps.look.bind fun o _ => ?_).bind fun _ hr => ht.scatter hr
  split
  · exact hw.backtrack
  · exact Lane.Keeps.look.bind fun _ _ => hw.putLane.bind fun _ hu => Lane.Keeps.pure hu

theorem execTrst_answers {b64 : Bool} (h : s.Canonical) : Answers (execTrst x b64 d a b s) := by
  refine run_answers h fun c t ht => ?_
  extract_lets k va vb
  clear_value vb
  refine ht.guard.bind fun _ _ => ht.searchEnter.bind fun _ _ => ?_
  split
  · exact ht
  · exact ht.searchCheck.bind fun _ _ => (ht.perLane ht fun _ _ hw => hw.storeTrailed.bind fun _ hu => Lane.Keeps.pure hu).bind fun _ hr => hr

theorem execSteal_answers (h : s.Canonical) : Answers (execSteal x d s) :=
  run_answers h fun _ _ ht => ht.guard.bind fun _ _ => ht.searchCheck.bind fun _ _ =>
    (ht.perLane ht fun _ _ hw => hw.stealLane.bind fun _ hu => Lane.Keeps.pure hu).bind fun _ hr =>
    (ht.perLane hr fun _ _ hw => Lane.Keeps.look.bind fun _ _ => hw.putLane.bind fun _ hu => Lane.Keeps.pure hu).bind fun _ hq => ht.scatter hq

end
end Sys2Proof.Machine
end

section
/-! SUPPORT. The canonical form of memory through upkeep: the timer, storage errors, buckets, key slots, invalidations, windows, the debugger and
privileged accesses (R36, R65, R131, R139, R350, R360). -/

namespace Sys2Proof.Machine
namespace State.Canonical

section
variable {s : State} {c n d e k l slot : Nat} {i : Inval}

/-! ### The timer and storage errors (R44, R350) -/

theorem presentTimer {r : SplitRef} {x : Words} {f : Bool} (h : s.Canonical) : (s.presentTimer r x f).Canonical := by
  unfold State.presentTimer
  exact finish h.modWarp

theorem timerTrap {r : SplitRef} (h : s.Canonical) : (s.timerTrap r).Canonical := by
  unfold State.timerTrap
  extract_lets g
  split
  · exact h
  · split
    · exact h.modWarp
    · split
      · exact h.presentTimer
      · exact h.presentTimer
      · exact h.askWalk
      · exact h.killGang

theorem strike {y : StorageLoc} (h : s.Canonical) : (s.strike y).Canonical := by
  unfold State.strike
  split
  · exact h
  · exact h
  · exact h
  · exact h
  · exact h

/-! ### Buckets and key slots (R36, R65) -/

theorem bucketRefill (h : s.Canonical) : s.bucketRefill.Canonical := by
  unfold State.bucketRefill
  split
  · exact h
  · exact h

theorem bucketWrite {y : W64} (h : s.Canonical) : (s.bucketWrite n k y).Canonical := by
  unfold State.bucketWrite
  split
  · exact h
  · exact h

theorem sectorTransfer (h : s.Canonical) : (s.sectorTransfer n k).Canonical := by
  unfold State.sectorTransfer
  split
  · exact h
  next q _ =>
    split
    · exact h
    · refine State.Canonical.came ?_
      exact h.spend (n := q.sector) (tenant := some k)

theorem keyDestroyed (h : s.Canonical) : (s.keyDestroyed slot).Canonical := by
  unfold State.keyDestroyed
  split
  · exact h
  · exact same (foldl h fun _ _ ht => ht.forgetSec) rfl

/-! ### Invalidations (R139 to R141) -/

theorem invalStart (h : s.Canonical) : (s.invalStart i).Canonical := same (closeEpoch h) rfl

theorem invalBegin (h : s.Canonical) : (s.invalBegin i).Canonical := by
  unfold State.invalBegin
  split
  · exact h
  · exact h.invalStart

theorem invalReceipt (h : s.Canonical) : (s.invalReceipt n).Canonical := by
  unfold State.invalReceipt
  split
  · exact h
  · split
    · exact h
    · extract_lets t
      have ht : t.Canonical := by
        unfold t
        split
        · exact h
        · split
          · exact h
          · exact h
      exact ht

theorem invalDrained (h : s.Canonical) : (s.invalDrained n).Canonical := by
  unfold State.invalDrained
  split
  · exact h
  · split
    · exact h
    · exact h

theorem invalComplete (h : s.Canonical) : s.invalComplete.Canonical := by
  unfold State.invalComplete
  split
  · exact h
  · split
    · exact h
    · extract_lets t
      have ht : t.Canonical := same (closeEpoch h) rfl
      split
      · exact ht
      · refine invalStart ?_
        exact ht

/-! ### Windows and the debugger (R131, R132, R360, R361) -/

theorem portApply (h : s.Canonical) : (s.portApply c k).Canonical := by
  unfold State.portApply
  extract_lets port
  split
  · exact h
  · split
    · exact h
    · exact modCore (chipWrite h)

theorem passBkpt (h : s.Canonical) : (s.passBkpt c n).Canonical := h.ofOnlyCores (s.onlyCores_passBkpt c n)

theorem singleStep {r : SplitRef} (h : s.Canonical) : (s.singleStep r).Canonical := by
  unfold State.singleStep
  extract_lets n g t
  split
  · exact h
  · refine modGroup (modWarp ?_)
    unfold t
    split
    · exact h.passBkpt
    · exact h

/-! ### Privileged accesses (R17, R18) -/

theorem setShare (h : s.Canonical) : (s.setShare n k l).Canonical := by
  unfold State.setShare
  split
  · exact h
  · exact h

theorem housekeep {bs : List Byte} (h : s.Canonical) : (s.housekeep n bs).Canonical := by
  unfold State.housekeep
  extract_lets x o
  refine iteInduction (motive := Canonical) (fun _ => h) fun _ => ?_
  refine iteInduction (motive := Canonical) (fun _ => h) fun _ => ?_
  refine iteInduction (motive := Canonical) (fun _ => h) fun _ => ?_
  refine iteInduction (motive := Canonical) (fun _ => h) fun _ => ?_
  refine iteInduction (motive := Canonical) (fun _ => h) fun _ => ?_
  refine iteInduction (motive := Canonical) (fun _ => h) fun _ => ?_
  refine iteInduction (motive := Canonical) (fun _ => h) fun _ => ?_
  refine iteInduction (motive := Canonical) (fun _ => h) fun _ => ?_
  refine iteInduction (motive := Canonical) (fun _ => h) fun _ => ?_
  refine iteInduction (motive := Canonical) (fun _ => h.setShare) fun _ => ?_
  refine iteInduction (motive := Canonical) (fun _ => h) fun _ => ?_
  refine iteInduction (motive := Canonical) (fun _ => ?_) fun _ => iteInduction (motive := Canonical) (fun _ => h.bucketWrite) fun _ => h
  split
  · exact h
  · exact h

theorem privChip {o : Option Nat} {bs : List Byte} (h : s.Canonical) : (s.privChip d o n bs).Canonical := by
  unfold State.privChip
  extract_lets c bytes
  split
  · exact h.farWrite
  · exact foldl h fun t q ht => ht.same (t.sendWrite_mem d {} {} q _ false o)

theorem privileged {write : Bool} {o : Option Nat} {bs : List Byte} (h : s.Canonical) : (s.privileged write o n bs).Canonical := by
  unfold State.privileged
  extract_lets d len c off p crosses seen r
  split
  · exact h
  · exact h
  · split
    · split
      · exact h
      · exact h
    · split
      · exact h.privChip
      · refine emit ?_
        exact h
  · exact housekeep (writeAll h)
  · exact h
  · exact h.writeAll
  · exact h

end
end State.Canonical
end Sys2Proof.Machine
end

section
/-! SUPPORT. The canonical form of memory through rooms: cards, placing, starts, saves, restores and slices (R154 to R160, R325, R337, R352). -/

namespace Sys2Proof.Machine

/-- An optional step that keeps a property, repeated over a list where each time it succeeds. -/
theorem optionFoldlM_keeps {α β : Type} {f : α → β → Option α} {p : α → Prop}
    (hf : ∀ a b c, p a → f a b = some c → p c) (l : List β) {a c : α}
    (h : p a) (e : l.foldlM f a = some c) : p c := by
  induction l generalizing a with
  | nil => cases e; exact h
  | cons b l ih =>
    rw [List.foldlM_cons] at e
    obtain ⟨d, hd, rest⟩ := Option.bind_eq_some_iff.mp e
    exact ih (hf a b d h hd) rest

namespace State.Canonical

section
variable {s : State} {c n d e k l slot i : Nat} {y : RoomCard}

/-! ### Room cards (R325) -/

theorem cardWrite {b : BitVec 256} (h : s.Canonical) : (s.cardWrite c n b).Canonical := by
  unfold State.cardWrite
  split
  · exact h
  · exact h.privWrite.closeEpoch.privWrite

theorem clearV (h : s.Canonical) : (s.clearV c n).Canonical := State.clearV_wf c n h

theorem readLaunch (h : s.Canonical) : (s.readLaunch c y n k).1.Canonical := by
  unfold State.readLaunch
  extract_lets bs r
  have checked := h.checkLaunch (n := n) (k := k) (o := none) (r := r)
  split
  · exact h
  · split
    next passed => rw [passed] at checked; exact checked
    next failed => rw [failed] at checked; exact checked

theorem cardStart (h : s.Canonical) : (s.cardStart c y).1.Canonical := by
  unfold State.cardStart
  split
  · exact h
  · extract_lets part
    split
    · exact h
    · have got := h.readLaunch (c := c) (y := y) (n := s.fnOf part) (k := part)
      split
      next missing => rw [missing] at got; exact got
      next ready => rw [ready] at got; exact got

theorem bindCard {r : LaunchRec} {hdr : KHdr} (h : s.Canonical) : (s.bindCard c n y i r hdr).Canonical :=
  same (clearV (c := c) (n := n) h) rfl

theorem takeCard (h : s.Canonical) : (s.takeCard c n).Canonical := by
  unfold State.takeCard
  extract_lets k
  split
  · exact h
  · split
    · exact h.clearV.emit
    · have started := h.cardStart (c := c) (y := k)
      split
      next missing => rw [missing] at started; exact started.clearV.emit
      next t i ready =>
        rw [ready] at started
        have acquired := State.Canonical.acquireVec (e := dieOf c) (v := t.startVec k i) started
        split
        next late => rw [late] at acquired; exact acquired
        next u now =>
          rw [now] at acquired
          extract_lets l
          split
          · exact acquired.bindCard
          · have got := State.Canonical.readLaunch (c := c) (y := k) (n := l.fn) (k := l.part) acquired
            split
            next missing => rw [missing] at got; exact got.clearV.emit
            next ready => rw [ready] at got; exact got.bindCard

/-! ### Placing and fresh starts (R42, R154, R175) -/

theorem seatWarps {ws : List (Nat × Warp)} {t : State} (h : s.Canonical) (e : s.seatWarps c n ws = some t) : t.Canonical := by
  refine optionFoldlM_keeps (fun u w v hu hv => ?_) ws h e
  obtain ⟨sl, _, rfl⟩ := Option.map_eq_some_iff.mp hv
  exact hu.setWarp.modGroup

theorem placeGroup {ws : List (Nat × Warp)} {t : State} (h : s.Canonical) (e : s.placeGroup c n ws = some t) : t.Canonical := by
  obtain ⟨sp, _, rest⟩ := Option.bind_eq_some_iff.mp e
  obtain ⟨at', _, rest⟩ := Option.bind_eq_some_iff.mp rest
  exact seatWarps (modGroup h) rest

theorem leftovers (h : s.Canonical) : (s.leftovers c slot).Canonical := same (modWarp (foldl h fun _ _ ht => ht.modCore)) rfl

theorem argByte {g : Group} (h : s.Canonical) : (s.argByte c g n).1.Canonical := by
  unfold State.argByte
  have found := h.innAt (n := g.lrec.asid) (k := g.lrec.args + n)
  split
  next ready => rw [ready] at found; exact found
  next missing => rw [missing] at found; exact found

theorem spWrite {bs : List Byte} {p : Bool} (h : s.Canonical) : (s.spWrite c n k bs p).Canonical := h

theorem startPad (h : s.Canonical) : (s.startPad c n).Canonical := by
  refine foldl h.spWrite fun t w ht => spWrite (foldlFst (acc := (t, [])) ht fun _ _ ha => ?_)
  exact ha.argByte

theorem beginSlice (h : s.Canonical) : (s.beginSlice n k).Canonical := by
  unfold State.beginSlice
  extract_lets here t
  split
  · exact h
  · split
    · exact h
    · exact h

theorem freshStart (h : s.Canonical) : (s.freshStart c n).Canonical := by
  unfold State.freshStart
  extract_lets g t
  refine modCore (startPad ?_)
  unfold t
  split
  · exact h.foldl fun _ _ hu => hu.leftovers
  · exact h

theorem noteCore (h : s.Canonical) : (s.noteCore l c).Canonical := h

theorem makeResident (h : s.Canonical) : (s.makeResident c n).Canonical := by
  unfold State.makeResident
  split
  · exact h
  · extract_lets g s0
    split
    · exact h
    next placed =>
      exact foldl (optionFoldlM_keeps (fun _ _ _ ht hu => ht.placeGroup hu) _ h.beginSlice placed) fun _ _ ht => ht.freshStart.noteCore

/-! ### Saving (R337, R352) -/

theorem blit {cs : List Chunk} (h : s.Canonical) : (s.blit n k cs).Canonical := State.blit_wf n k cs h

theorem saveMember (h : s.Canonical) : (s.saveMember c n).Canonical := by
  unfold State.saveMember
  extract_lets g st x stopped ringed jobs closed kept written fn told
  have hs : stopped.Canonical := by
    unfold stopped
    split
    · split
      · exact h
      · exact h
    · exact h
  have hk : kept.Canonical := same (closeEpoch (modRing hs)) rfl
  have hw : written.Canonical := hk.blit
  refine releaseRoom (modCore ?_)
  unfold told
  split
  · split
    · exact hw.emit
    · exact hw
  · exact hw

theorem saveGang (h : s.Canonical) : (s.saveGang c n).Canonical := by
  unfold State.saveGang
  split
  · exact h
  · extract_lets ms t
    have ht : t.Canonical := foldl h fun _ _ hu => hu.foldl fun _ _ hv => hv.drain
    split
    · exact ht.foldl fun _ _ hu => hu.saveMember
    · exact ht

/-! ### Restoring (R352, R358) -/

theorem restoreStorage {v : Saved} (h : s.Canonical) : (s.restoreStorage c n v).Canonical := by
  unfold State.restoreStorage
  extract_lets g hdr pa o rows pad struck
  have hr : rows.Canonical := by
    refine foldl h fun t p ht => ?_
    split
    · exact ht
    · exact ht.foldl fun _ _ hu => hu.foldl fun _ _ hw => hw.setVreg
  have hs : struck.Canonical := by
    refine foldl (modCore hr) fun t w ht => ?_
    split
    · exact ht
    · exact ht
  exact hs.foldl fun _ _ ht => ht.modCore.setTilePoison

theorem restoreSlots {v : Saved} {t : State} (h : s.Canonical) (e : s.restoreSlots c n v = some t) : t.Canonical := by
  refine optionFoldlM_keeps (fun u k w hu hw => ?_) _ (modGroup h) e
  split at hw
  · cases hw
    exact hu.modGroup
  · obtain ⟨m, _, rfl⟩ := Option.map_eq_some_iff.mp hw
    exact loadSlot (modGroup hu)

theorem restoreBooks {cs : List Nat} {v : Saved} {holder : Nat × Nat} {t : State} (h : s.Canonical)
    (e : s.restoreBooks cs v holder = some t) : t.Canonical := by
  refine optionFoldlM_keeps (fun u k w hu hw => ?_) _ h e
  dsimp only at hw
  split at hw
  · cases hw
    exact hu.modCore
  · cases hw

theorem resubmit {v : Saved} (h : s.Canonical) : (s.resubmit c n v).Canonical := by
  refine foldl h fun t k ht => ?_
  split
  · exact ht
  · exact ht

theorem restoreRoom {v : Saved} (h : s.Canonical) : (s.restoreRoom c n v).Canonical :=
  modCore (same (privWrite (resubmit (modRoom (modGroup h)))) rfl)

theorem restoreGang (h : s.Canonical) : (s.restoreGang c n).Canonical := by
  unfold State.restoreGang
  split
  · exact h
  next ms _ =>
    extract_lets g vs bad reported s0 cs placed
    split
    · refine foldl (foldl h fun _ _ ht => ?_) fun _ _ ht => ht.modRoom
      exact ht
    · have hp : ∀ t, placed = some t → t.Canonical := by
        intro t ht
        obtain ⟨u, hu, rest⟩ := Option.bind_eq_some_iff.mp ht
        obtain ⟨w, hw, rest⟩ := Option.bind_eq_some_iff.mp rest
        have h1 : u.Canonical := optionFoldlM_keeps (fun _ _ _ hx hy => hx.placeGroup hy) _ h.beginSlice hu
        have h2 : w.Canonical := optionFoldlM_keeps (fun _ _ _ hx hy => hx.restoreSlots hy) _ (h1.foldl fun _ _ hx => hx.restoreStorage) hw
        split at rest
        · exact h2.restoreBooks rest
        · cases rest
          exact h2
      clear_value placed
      split
      · exact h
      · exact (hp _ rfl).foldl fun _ _ ht => ht.restoreRoom.noteCore

/-! ### Slices, discard, relaunch (R331, R338, R376) -/

theorem discardGang (h : s.Canonical) : (s.discardGang l k).Canonical := h.dropGang.modLaunch
theorem modShare {f : Share → Share} (h : s.Canonical) : (s.modShare n k f).Canonical := h

theorem preempt {x : Share} (h : s.Canonical) : (s.preempt x).Canonical := by
  unfold State.preempt
  extract_lets rs gs d save spent gangs
  have discarded : (gangs.foldl (fun s p => s.discardGang p.1 p.2) s).Canonical := h.foldl fun _ _ ht => ht.discardGang
  split
  · split
    · exact h
    · split
      · exact discarded
      · exact h
  · split
    · exact discarded
    · exact h

theorem sliceEnd (h : s.Canonical) : (s.sliceEnd n).Canonical := by
  unfold State.sliceEnd
  extract_lets due
  split
  · exact h.preempt
  · exact h

theorem preemptDeadline (h : s.Canonical) : (s.preemptDeadline n).Canonical := by
  unfold State.preemptDeadline
  split
  · exact h
  · extract_lets gs gangs t u
    have hu : u.Canonical := modShare (foldl h fun _ _ ht => ht.discardGang)
    split
    · exact hu
    · exact hu.emit

theorem deficitUpdate (h : s.Canonical) : s.deficitUpdate.Canonical := by
  unfold State.deficitUpdate
  split
  · exact h
  · exact h

theorem partitionStart (h : s.Canonical) : (s.partitionStart n).Canonical := by
  unfold State.partitionStart
  split
  · exact h
  · exact h

end
end State.Canonical
end Sys2Proof.Machine
end

section
/-! SUPPORT. The canonical form of memory through packets, the host's accesses, submission queues and completions (R113, R133 to R138, R328 to R330,
R389, R392). -/

namespace Sys2Proof.Machine
namespace State.Canonical

section
variable {s : State} {c n d e k l slot fn q : Nat} {p : Packet} {f : FlowRx}

/-! ### What comes from outside (R35, R113, R114, R138) -/

theorem remoteIn {o : Option Nat} {ws : List ByteWrite} (h : s.Canonical) : (s.remoteIn d n o ws).Canonical := by
  refine foldl h fun t j ht => ?_
  extract_lets mine home r u
  have hu : u.Canonical := ht
  split
  · exact hu
  · exact hu.sendOut

theorem peerWrite (h : s.Canonical) : (s.peerWrite d n p).Canonical := by
  unfold State.peerWrite
  split
  · exact h.remoteIn
  · exact h

theorem peerRead (h : s.Canonical) : (s.peerRead d p n k).Canonical := h.sendOut

/-- The sector that a peer's answer brings is written as bytes at their addresses. -/
theorem peerAnswer (h : s.Canonical) : (s.peerAnswer n p).Canonical := by
  unfold State.peerAnswer
  split
  · exact h
  · exact State.Canonical.came (tableWf_putBytes _ _ h)

/-! ### Waystations (R133 to R135) -/

theorem setRx (h : s.Canonical) : (s.setRx d f).Canonical := h

theorem handOn (h : s.Canonical) : (s.handOn d n p).Canonical := by
  unfold State.handOn
  split
  · exact h.peerWrite
  · exact h.peerRead
  · exact h.peerAnswer
  · exact h
  · exact h
  · exact h

theorem deliver {r : Bool} (h : s.Canonical) : (s.deliver d f p r).Canonical := by
  unfold State.deliver
  refine setRx (modDie (handOn ?_))
  exact h

theorem ackPacket (h : s.Canonical) : (s.ackPacket d p).Canonical := by
  unfold State.ackPacket
  split
  · exact h
  · exact h

theorem nakPacket (h : s.Canonical) : (s.nakPacket d p).Canonical := by
  unfold State.nakPacket
  split
  · exact h
  · exact h

theorem arriveOrdered (h : s.Canonical) : (s.arriveOrdered d f p).Canonical := by
  unfold State.arriveOrdered
  extract_lets dist reserve t
  have ht : t.Canonical := h.ackPacket
  split
  · exact ht
  · split
    · split
      · exact h.nakPacket
      · split
        · exact ht.setRx
        · exact ht.deliver
    · split
      · exact ht.setRx
      · exact h.nakPacket

theorem arriveUnordered (h : s.Canonical) : (s.arriveUnordered d f p).Canonical := by
  unfold State.arriveUnordered
  extract_lets ahead next
  split
  · exact h.ackPacket
  · split
    · exact h.ackPacket.deliver
    · exact h.nakPacket

theorem receive (h : s.Canonical) : (s.receive d p).Canonical := by
  unfold State.receive
  extract_lets go first
  have hg : ∀ t f, t.Canonical → (go t f).Canonical := by
    intro t f ht
    unfold go
    split
    · exact ht.arriveOrdered
    · exact ht.arriveUnordered
  split
  · exact h
  · split
    · exact hg _ _ h
    · split
      · exact h.nakPacket
      · exact hg _ _ h.setRx

theorem arrive_ (h : s.Canonical) : (s.arrive d p).Canonical := by
  unfold State.arrive
  split
  · split
    · refine receive ?_
      exact h
    · exact h
  · split
    · exact h
    · exact h.receive

theorem deliverNext (h : s.Canonical) : (s.deliverNext d k).Canonical := by
  unfold State.deliverNext
  split
  · exact h
  · split
    · exact h
    · split
      · exact h.deliver
      · exact h

theorem closeFlow (h : s.Canonical) : (s.closeFlow d n k l).Canonical := by
  unfold State.closeFlow
  extract_lets item busy
  split
  · exact h
  · exact h

theorem frame {ok : Bool} {ps : List Packet} (h : s.Canonical) : (s.frame d ok ps).Canonical := by
  unfold State.frame
  split
  · exact h.foldl fun _ _ ht => ht.arrive_
  · exact h

/-! ### Sources (R136) -/

theorem modTx {g : FlowTx → FlowTx} (h : s.Canonical) : (s.modTx d k g).Canonical := h
theorem pump (h : s.Canonical) : (s.pump d k).Canonical := h.ofOnlyTraffic (.pump s d k)
theorem launch_ {g : FlowTx} (h : s.Canonical) : (s.launch_ d g p).Canonical := h.ofOnlyTraffic (.launch_ s d g p)
theorem flushTx (h : s.Canonical) : (s.flushTx d).Canonical := foldl h.modDie fun _ _ ht => ht.sendOut

theorem acked (h : s.Canonical) : (s.acked d k n).Canonical := by
  unfold State.acked
  split
  · exact h
  · extract_lets t
    exact sendIrqs (flushTx (pump h))

theorem naked (h : s.Canonical) : (s.naked d k n).Canonical := by
  unfold State.naked
  split
  · exact h
  · exact h

theorem resend (h : s.Canonical) : (s.resend d k n).Canonical := by
  unfold State.resend
  split
  · exact h
  · split
    · exact h
    · split
      · exact h
      · exact launch_ (modTx h)

theorem wireNext (h : s.Canonical) : s.wireNext.Canonical := by
  unfold State.wireNext
  split
  · exact h
  · exact h.arrive_
  · exact h.acked
  · exact h.naked
  · exact h.closeFlow

theorem trained (h : s.Canonical) : (s.trained n).Canonical := by
  refine foldl ?_ fun t b ht => foldl ht fun _ _ hu => hu.pump
  exact h

/-! ### The host's accesses (R112, R113, R403) -/

theorem logLookup (h : s.Canonical) : (s.logLookup d n fn k l).Canonical := by
  unfold State.logLookup
  split
  · exact h
  · exact h

theorem postedWrite {bs : List Byte} (h : s.Canonical) : (s.postedWrite d fn n bs).Canonical := by
  unfold State.postedWrite
  split
  · exact h.remoteIn
  · exact h.logLookup

theorem serve {i : Request} {g : State → State} (h : s.Canonical) (hg : ∀ t : State, t.Canonical → (g t).Canonical) :
    (s.serve i g).Canonical := by
  unfold State.serve
  split
  · refine hg _ ?_
    exact h
  · split
    · exact h
    · exact h

theorem answerRead (h : s.Canonical) : (s.answerRead d fn n k).Canonical := emit (mergeAll (logLookup h))

theorem snoop {inval : Bool} (h : s.Canonical) : (s.snoop d n inval).Canonical := by
  unfold State.snoop
  split
  · exact h
  · extract_lets bs t
    have ht : t.Canonical := by
      unfold t
      split
      · exact h.evictSec
      · exact h.cleanSec
    exact ht

/-! ### Completions and submission queues (R328 to R330, R380) -/

theorem post (h : s.Canonical) : (s.post fn n k l).Canonical := by
  unfold State.post
  extract_lets r
  split
  · exact h
  · exact interrupt (modFn (fnWrite h))

theorem postConf (h : s.Canonical) : (s.postConf fn n k).Canonical := by
  unfold State.postConf
  extract_lets r
  split
  · exact h
  · exact interrupt (modFn (fnWrite h))

theorem confirmAll (h : s.Canonical) : s.confirmAll.Canonical := by
  refine foldl h fun t j ht => ?_
  extract_lets g
  split
  · exact ht.modLaunch.postConf
  · exact ht

theorem modSq {g : HostRing → HostRing} (h : s.Canonical) : (s.modSq fn q g).Canonical := h
theorem ring (h : s.Canonical) : (s.ring fn q n).Canonical := h
theorem sqTake (h : s.Canonical) : (s.sqTake fn q).Canonical := h
theorem modOpen {g : Nat → Nat} (h : s.Canonical) : (s.modOpen fn q g).Canonical := h

theorem sqBegin {g : State → Nat → State} (h : s.Canonical) (hg : ∀ t x, t.Canonical → (g t x).Canonical) :
    (s.sqBegin fn q n g).Canonical := by
  unfold State.sqBegin
  split
  · exact h
  · extract_lets r t known
    have ht : t.Canonical := h.logLookup
    split
    · exact ht.sqTake.post
    · split
      · exact ht
      · split
        · exact ht.sqTake.post
        · exact hg _ _ ht.sqTake

theorem hostLaunch {r : LaunchRec} {y : KHdr} (h : s.Canonical) : (s.hostLaunch fn q n k r y).Canonical := h

theorem sqLaunch (h : s.Canonical) : (s.sqLaunch fn q n).Canonical := by
  unfold State.sqLaunch
  extract_lets a
  split
  next pa bs _ _ =>
    have admitted := h.admitLaunch (n := fn) (k := s.partOf fn) (o := none) (r := LaunchRec.of bs)
    dsimp only
    split
    next failed => rw [failed] at admitted; exact admitted.post
    next passed => rw [passed] at admitted; exact modOpen (hostLaunch admitted)
  · exact h.logLookup.post

theorem launchComplete (h : s.Canonical) : (s.launchComplete n).Canonical := by
  unfold State.launchComplete
  extract_lets g t
  split
  · exact h
  · split
    · exact h
    · exact confirmAll (post (modOpen (modLaunch h)))

theorem sqCinc (h : s.Canonical) : (s.sqCinc fn q n).Canonical := by
  unfold State.sqCinc
  split
  · exact h.post
  · exact h.closeEpoch.counterAdd.post

theorem sqCwait (h : s.Canonical) : (s.sqCwait fn q n).Canonical := by
  unfold State.sqCwait
  split
  · exact h.post
  · exact h

theorem cwaitMet (h : s.Canonical) : (s.cwaitMet fn q).Canonical := by
  unfold State.cwaitMet
  split
  · exact h
  · split
    · exact h
    · exact post (modOpen (modFn h))

/-! ### ATS and page requests (R389, R392) -/

theorem atsReply {r w : Bool} (h : s.Canonical) : (s.atsReply d n r w k).Canonical := by
  unfold State.atsReply
  extract_lets page
  split
  · exact h
  · exact h

theorem atsInval (h : s.Canonical) : (s.atsInval fn n k).Canonical := by
  unfold State.atsInval
  extract_lets t
  have ht : t.Canonical := h
  split
  · exact ht
  · split
    · exact ht
    · exact ht

theorem pageAnswer (h : s.Canonical) : (s.pageAnswer fn n k).Canonical := by
  unfold State.pageAnswer
  extract_lets g stale
  have hs : stale.Canonical := h
  split
  · exact hs
  · split
    · exact hs
    · exact h

end
end State.Canonical
end Sys2Proof.Machine
end

section
/-! SUPPORT. The canonical form of memory through cross-lane instructions, the admin queue, firmware, scans and resets, and Lantern (R247 to R254,
R363, R379 to R401). -/

namespace Sys2Proof.Machine
namespace State.Canonical

section
variable {s : State} {c n d e k l fn : Nat} {a : AdminCmd}

/-! ### The admin queue (R391) -/

theorem adminDone (h : s.Canonical) : (s.adminDone fn n k l).Canonical := h.fnWrite.modFn

theorem adminBegin {f : AdminCmd → State → State × Option (Nat × Nat)} (h : s.Canonical)
    (hf : ∀ a t, t.Canonical → (f a t).1.Canonical) : (s.adminBegin fn n f).Canonical := by
  unfold State.adminBegin
  split
  · exact h
  next e _ =>
    extract_lets known a
    split
    · exact h
    · split
      · exact h.adminDone
      · have began := hf a s h
        split
        next came => rw [came] at began; exact began.adminDone
        next came => rw [came] at began; exact began

theorem qreg (h : s.Canonical) : (s.qreg a).1.Canonical := by
  unfold State.qreg
  extract_lets n k r
  split
  · exact h
  · exact h

theorem innBytes (h : s.Canonical) : (s.innBytes fn n k).1.Canonical := h.logLookup

theorem codeload (h : s.Canonical) : (s.codeload a).1.Canonical := by
  unfold State.codeload
  extract_lets f
  split
  · split
    · exact h
    · exact h
  · split
    · exact h
    · have read := h.innBytes (fn := a.target) (n := a.addr) (k := a.arg1)
      split
      next came => rw [came] at read; exact read
      next came =>
        rw [came] at read
        split
        · exact read
        · split
          · exact read
          · refine invalBegin (modFn (fnWrite ?_))
            exact read

theorem codefree (h : s.Canonical) : (s.codefree a).1.Canonical := by
  unfold State.codefree
  split
  · exact h
  · split
    · exact h
    · exact h

theorem keyreg (h : s.Canonical) : (s.keyreg a).1.Canonical := by
  unfold State.keyreg
  split
  · exact h
  · split
    · exact h
    · have read := h.innBytes (fn := a.target) (n := a.addr) (k := 64)
      split
      next came => rw [came] at read; exact read
      next came => rw [came] at read; exact read

theorem pagereg (h : s.Canonical) : (s.pagereg a).1.Canonical := by
  unfold State.pagereg
  split
  · exact h
  · split
    · exact h
    · split
      · exact h
      · split
        · exact h
        · exact h

theorem resumeGroup (h : s.Canonical) : (s.resumeGroup a).1.Canonical := by
  unfold State.resumeGroup
  split
  · exact h
  · split
    · split
      · exact h
      · exact h
    · exact h

theorem dropLaunch (h : s.Canonical) : (s.dropLaunch n).Canonical := same (foldl h fun _ _ ht => ht.dropGang) rfl

theorem abandonLaunch (h : s.Canonical) : (s.abandonLaunch a).1.Canonical := by
  unfold State.abandonLaunch
  split
  · exact h
  · exact h.dropLaunch.modLaunch

theorem setDepthr (h : s.Canonical) : (s.setDepthr a).1.Canonical := by
  unfold State.setDepthr
  split
  · exact h
  · exact h

theorem setTrace (h : s.Canonical) : (s.setTrace a).1.Canonical := by
  unfold State.setTrace
  split
  · exact h
  · exact h

/-! ### Firmware (R398, R399) -/

theorem askPages {gaps : List (Nat × Nat × Nat)} (h : s.Canonical) :
    (gaps.foldl (fun s g => if s.ats.contains g then s else { s with ats := s.ats ++ [g] }.emit (.atsRequest g.1 0 g.2.2)) s).Canonical := by
  refine h.foldl fun t g ht => ?_
  split
  · exact ht
  · exact ht

theorem fwstage (h : s.Canonical) : (s.fwstage a).1.Canonical := by
  unfold State.fwstage
  extract_lets gaps r x
  split
  · exact h
  · split
    · exact h.askPages
    · split
      · exact h
      · split
        · exact h
        · exact h

theorem fwact (h : s.Canonical) : (s.fwact a).1.Canonical := by
  unfold State.fwact
  split
  · exact h
  · exact h

theorem fwStart (h : s.Canonical) : s.fwStart.Canonical := by
  unfold State.fwStart
  split
  · exact h
  · exact h

theorem fwEnd {active : Bool} (h : s.Canonical) : (s.fwEnd active n).Canonical := by
  unfold State.fwEnd
  refine adminDone ?_
  exact h

theorem fwBack (h : s.Canonical) : s.fwBack.Canonical := by
  unfold State.fwBack
  split
  · exact h.fwEnd
  · exact h

theorem fwNext (h : s.Canonical) : s.fwNext.Canonical := by
  unfold State.fwNext
  split
  · exact h.fwStart
  · exact h.fwBack

theorem spdm {signed : Bool} {bs : List Byte} (h : s.Canonical) : (s.spdm n k signed bs).Canonical := h.emit

/-! ### Scans (R379 to R382) -/

theorem scanStart (h : s.Canonical) : s.scanStart.Canonical := by
  unfold State.scanStart
  split
  · exact h
  · exact h

theorem scanRun (h : s.Canonical) : s.scanRun.Canonical := by
  unfold State.scanRun
  split
  · exact h
  · exact h

theorem scanDefer (h : s.Canonical) : s.scanDefer.Canonical := by
  unfold State.scanDefer
  split
  · exact h
  · exact h

theorem killGangOf (h : s.Canonical) : (s.killGangOf n k).Canonical := h.dropGang.modLaunch

theorem suspect (h : s.Canonical) : (s.suspect c).Canonical := by
  refine foldl h fun t n ht => ?_
  extract_lets l u ran
  have hu : u.Canonical := ht
  split
  · exact ht
  · split
    · split
      · exact hu.modOpen.postConf
      · exact hu
    · exact modLaunch (ht.foldl fun _ _ hv => hv.killGangOf)

theorem scanEnd (h : s.Canonical) : s.scanEnd.Canonical := h

theorem scanResult {pass : Bool} {lane : Option (Nat × Nat)} (h : s.Canonical) : (s.scanResult pass lane).Canonical := by
  unfold State.scanResult
  extract_lets c
  split
  · exact h
  · split
    · refine confirmAll (scanEnd (modCore ?_))
      exact h
    · split
      · exact same h.suspect rfl
      · split
        · exact h.modCore.scanEnd
        · exact h.scanEnd

/-! ### Links, engines, partitions (R383 to R387) -/

theorem modPort {f : Port → Port} (h : s.Canonical) : (s.modPort n f).Canonical := h

theorem engineReset {mx : Bool} (h : s.Canonical) : (s.engineReset c mx).Canonical := modCore (foldl h fun _ _ ht => ht.killGang)

theorem dropLaunches {ls : List Nat} (h : s.Canonical) : (ls.foldl (fun s i => s.dropLaunch i) s).Canonical := h.foldl fun _ _ ht => ht.dropLaunch

theorem resetPartition (h : s.Canonical) : (s.resetPartition n).Canonical := by
  unfold State.resetPartition
  extract_lets asid slots mine fn stopped dropped aborted discarded untranslated
  have hs : stopped.Canonical := by
    unfold stopped
    split
    · exact h
    · exact h
  have hd : dropped.Canonical := hs.dropLaunches
  split
  · exact h
  · exact hd.same rfl

theorem resetDone (h : s.Canonical) : (s.resetDone n).Canonical := by
  unfold State.resetDone
  extract_lets slots busy t
  have ht : t.Canonical := h
  split
  · exact h
  · refine modFn (foldl ht fun u i hu => ?_)
    extract_lets l v
    have hv : v.Canonical := hu
    split
    · split
      · exact hv.post
      · exact hv
    · exact hu

theorem flr (h : s.Canonical) : (s.flr n).Canonical := by
  unfold State.flr
  split
  · exact h
  · exact h.resetPartition

theorem clearVfs (h : s.Canonical) : s.clearVfs.Canonical := same (foldl h fun _ _ ht => ht.flr) rfl

/-! ### Bring-up, power and cooling (R400, R401) -/

theorem boot (h : s.Canonical) : s.boot.Canonical := by
  unfold State.boot
  extract_lets ok
  split
  · exact h
  · exact h

theorem powerOn (h : s.Canonical) : s.powerOn.Canonical := same h.boot rfl

theorem thermalTrip (h : s.Canonical) : s.thermalTrip.Canonical := same h.dropLaunches rfl

/-! ### Lantern (R363, R368) -/

theorem lanternGoOn (h : s.Canonical) : (s.lanternGoOn c n).Canonical :=
  same (s := s.passBkpt c n) h.passBkpt rfl

theorem lanternOwn {t : State} (h : s.Canonical) (own : s.lanternOwn = some t) : t.Canonical := by
  unfold State.lanternOwn at own
  split at own
  · cases own
  · split at own
    · cases own
      exact h
    · split at own
      · cases own
      · extract_lets g at own
        split at own
        · cases own
          split
          · exact h
          · refine lanternGoOn ?_
            exact h
        · split at own
          · cases own
          · split at own
            · cases own
              exact same h.stopGroup rfl
            · cases own
              exact h

theorem lanternRun {args : List W32} (h : s.Canonical) : (s.lanternRun n args).Canonical := by
  unfold State.lanternRun
  split
  · exact h
  · extract_lets l at' r
    split
    next bs pa _ _ =>
      extract_lets written
      have admitted := (show written.Canonical from h.fnWrite.fnWrite).admitLaunch (n := l.fn) (k := written.partOf l.fn) (o := none) (r := r)
      split
      next failed => rw [failed] at admitted; exact admitted.emit
      next passed => rw [passed] at admitted; exact same admitted rfl
    · exact h

theorem lanternCont (h : s.Canonical) : (s.lanternCont n).Canonical := by
  unfold State.lanternCont
  extract_lets goals t
  have ht : t.Canonical := h
  split
  · exact ht
  · exact ht.lanternGoOn

theorem evictNow {t : State} (h : s.Canonical) (now : s.evictNow = some t) : t.Canonical := by
  unfold State.evictNow at now
  split at now
  · cases now
  · split at now
    · cases now
    · extract_lets u at now
      have hu : u.Canonical := h.saveGang
      split at now
      · cases now
      · cases now
        exact hu

theorem lanternCinc {x : W64} (h : s.Canonical) : (s.lanternCinc n x).Canonical := by
  unfold State.lanternCinc
  extract_lets fn r
  split
  · exact h
  · exact h.fnWrite.ring

theorem disassemble (h : s.Canonical) : (s.disassemble n k l).Canonical := by
  induction l generalizing s k with
  | zero => exact h
  | succ l ih =>
    unfold State.disassemble
    split
    · exact h
    · exact ih h.emit

end

/-! ### Cross-lane instructions (R247 to R252) -/

section
variable {s : State} {x : Ctx} {d : Dst} {a b : Src} {fm : OpFmt} {op : Combine} {flags : Bool}

theorem shuffle {m : ShMode} {r : BitVec 8} {fillNeed : List Need} {fill : Nat → LaneWord} {away : Option LaneWord} (h : s.Canonical) :
    Act.Keeps (x.shuffle s m d r b fillNeed fill away) State.Canonical := h.guard.bind fun _ _ => h.writeLanes

theorem wide {y : LaneWord} {g : Option FFlags} (h : s.Canonical) : Act.Keeps (x.wide s d y g) State.Canonical := h.writeLanes

theorem wideGuard (h : s.Canonical) : Act.Keeps (x.wideGuard s d a fm) fun _ => True := by
  unfold Ctx.wideGuard
  split
  · exact h
  · refine h.guard.bind fun _ _ => ?_
    split
    · exact h
    · trivial

theorem reduce (h : s.Canonical) : Act.Keeps (x.reduce s d a fm op flags) State.Canonical := h.wideGuard.bind fun _ _ => h.wide

theorem scan {o : Option Src} {excl : Bool} (h : s.Canonical) : Act.Keeps (x.scan s d a o excl fm op flags) State.Canonical :=
  h.guard.bind fun _ _ => h.writeLanes

/-- A part of a fused sequence: results at once, and the split on to the next (R254). -/
theorem fusedPart {s0 : State} {k : Nat} {i : Instr} {last : Bool} {body : Ctx → State → Act State} (h0 : s0.Canonical) (h : s.Canonical)
    (hb : ∀ c e, e.Canonical → Act.Keeps (body c e) State.Canonical) : Act.Keeps (x.fusedPart s0 k i last body s) State.Canonical := by
  unfold Ctx.fusedPart
  extract_lets t p
  have done := hb p t (drainFor (by exact h))
  split
  next u came =>
    rw [came] at done
    refine modWarp (s := if last then u else _) ?_
    split
    · exact done
    · exact drain done
  · exact h0
  · exact h0

end
end State.Canonical

section
variable {s : State} {x : Ctl} {d : Dst} {a b e : Src}

theorem execShfl_answers {m : ShMode} {r : BitVec 8} (h : s.Canonical) : Answers (execShfl x m d r b e s) := by
  refine run_answers h fun _ _ ht => ?_
  split
  · exact ht.shuffle
  · exact ht.shuffle

theorem execBcast_answers {r : BitVec 8} (h : s.Canonical) : Answers (execBcast x d r b s) := run_answers h fun _ _ ht => ht.shuffle
theorem execShflo_answers {m : ShMode} {r : BitVec 8} (h : s.Canonical) : Answers (execShflo x m d r b s) :=
  run_answers h fun _ _ ht => ht.shuffle.bind fun _ hu => State.Canonical.deprecated hu
theorem execPoll_answers {op : PollOp} (h : s.Canonical) : Answers (execPoll x op d a s) :=
  run_answers h fun _ _ ht => ht.wideGuard.bind fun _ _ => ht.wide
theorem execMatchLanes_answers (h : s.Canonical) : Answers (execMatchLanes x d a s) :=
  run_answers h fun _ _ ht => ht.guard.bind fun _ _ => ht.writeLanes

theorem execRaddf_answers (h : s.Canonical) : Answers (execRaddf x d a s) := run_answers h fun _ _ ht => ht.reduce
theorem execRmaxf_answers (h : s.Canonical) : Answers (execRmaxf x d a s) := run_answers h fun _ _ ht => ht.reduce
theorem execRminf_answers (h : s.Canonical) : Answers (execRminf x d a s) := run_answers h fun _ _ ht => ht.reduce
theorem execRint_answers {op : IRed} (h : s.Canonical) : Answers (execRint x op d a s) := run_answers h fun _ _ ht => ht.reduce
theorem execScanf_answers {op : FRed} {excl : Bool} (h : s.Canonical) : Answers (execScanf x op excl d a s) := run_answers h fun _ _ ht => ht.scan
theorem execScani_answers {op : IRed} {excl : Bool} (h : s.Canonical) : Answers (execScani x op excl d a s) := run_answers h fun _ _ ht => ht.scan
theorem execSegf_answers {op : FRed} (h : s.Canonical) : Answers (execSegf x op d a b s) := run_answers h fun _ _ ht => ht.scan
theorem execSegi_answers {op : IRed} (h : s.Canonical) : Answers (execSegi x op d a b s) := run_answers h fun _ _ ht => ht.scan

theorem execFusedSoftmax_answers {la : BitVec 4} {m v t e r : BitVec 8} (h : s.Canonical) : Answers (execFusedSoftmax la m v t e r s) := by
  refine run_answers h fun c t ht => ?_
  refine (ht.fusedPart ht fun _ _ hu => hu.reduce).bind fun s1 h1 => ?_
  refine (ht.fusedPart h1 fun _ _ hu => hu.laneWise).bind fun s2 h2 => ?_
  refine (ht.fusedPart h2 fun _ _ hu => hu.laneWise).bind fun s3 h3 => ?_
  exact (ht.fusedPart h3 fun _ _ hu => hu.reduce).bind fun s4 h4 => h4

theorem execLongLatencyResult_answers {r : SplitRef} (h : s.Canonical) : Answers (execLongLatencyResult r s) := by
  refine answers_next ?_
  split
  · exact h.land
  · exact h

end

/-! ### Steps of other agents whose row takes a case apart -/

section
variable {s : State} {n k l fn : Nat}

theorem execFwHeartbeat_answers {accepts : Bool} (h : s.Canonical) : Answers (execFwHeartbeat accepts s) := by
  refine answers_next ?_
  split
  · exact h
  · split
    · exact h.fwEnd
    · exact h.fwEnd

theorem execDuneshFailover_answers (h : s.Canonical) : Answers (execDuneshFailover s) := by
  refine answers_next ?_
  split
  · exact h
  · exact h

theorem execLanternLoad_answers (h : s.Canonical) : Answers (execLanternLoad n s) := by
  refine answers_next ?_
  split
  · exact h
  · exact h

theorem execLanternBreak_answers (h : s.Canonical) : Answers (execLanternBreak n k s) := by
  refine answers_next ?_
  split
  · exact h
  · exact h

theorem execLanternPrint_answers {items : List (BitVec 8 × BitVec 8)} (h : s.Canonical) : Answers (execLanternPrint n k items s) := by
  refine answers_next ?_
  split
  · exact h
  · split
    · exact h
    · exact h.emit

theorem execLanternMem_answers (h : s.Canonical) : Answers (execLanternMem n k l s) := by
  refine answers_next ?_
  split
  · exact h.emit
  · split
    · exact h
    · exact h.emit

theorem execLanternDis_answers (h : s.Canonical) : Answers (execLanternDis n k s) := by
  refine answers_next ?_
  split
  · exact h.disassemble
  · exact h

theorem execDebuggerWrite_answers {bs : List Byte} (h : s.Canonical) : Answers (execDebuggerWrite n k l bs s) := by
  refine answers_next ?_
  split
  · exact h.chipWrite
  · exact h

theorem execStopRequest_answers (h : s.Canonical) : Answers (execStopRequest n k s) := by
  refine answers_next ?_
  split
  · exact h.stopGroup.emit
  · exact h

theorem execStorageError_answers {e : StorageError} (h : s.Canonical) : Answers (execStorageError e s) := by
  refine answers_next ?_
  split
  · exact h.emit
  · exact h.strike

theorem execKeySlotDestroy_answers (h : s.Canonical) : Answers (execKeySlotDestroy n s) := by
  refine answers_next ?_
  split
  · exact h
  · exact h

theorem execPartitionReset_answers (h : s.Canonical) : Answers (execPartitionReset n s) := by
  refine answers_next ?_
  split
  · exact h.resetPartition
  · exact h

end
end Sys2Proof.Machine
end

section
/-! SUPPORT. Each row of the table leaves memory in its one form: the laws of its parts, arm by arm in the order of the dispatch. -/

namespace Sys2Proof.Machine

theorem State.Canonical.setRegister {s : State} {fn off : Nat} {x : W64} (h : s.Canonical) : (s.setRegister fn off x).Canonical := h.modFn

theorem exec_answers (i : Instr) {s : State} (h : s.Canonical) : Answers (exec i s) := by
  unfold exec
  cases i with
  | illegal => exact execIllegal_answers h
  | nop => exact execNop_answers h
  | bra => exact execBra_answers h
  | brc => exact execBrc_answers h
  | brx => exact execBrx_answers h
  | call => exact execCall_answers h
  | calli => exact execCalli_answers h
  | ret => exact execRet_answers h
  | rcv => exact execRcv_answers h
  | waitj => exact execWaitj_answers h
  | waitjArrival => exact answers_next h.waitjArrival
  | waitjTimeout => exact answers_next h.waitjTimeout
  | exit => exact execExit_answers h
  | endGroup => exact execEndGroup_answers h
  | trap => exact execTrap_answers h
  | trapReturn => exact execTrapReturn_answers h
  | sysc => exact execSysc_answers h
  | bkpt => exact execBkpt_answers h
  | yield => exact execYield_answers h
  | iadd | isub | imul | imulh | idiv | irem | imin | imax | and | or | xor | shl | shr | sra | bfe => exact int2_answers h
  | imad | bfi | sel | bsel | ishf => exact int3_answers h
  | iabs | popc | clz | brev | mov => exact int1_answers h
  | icmp => exact execIcmp_answers h
  | movi => exact execMovi_answers h
  | lea => exact execLea_answers h
  | iadd64 => exact execIadd64_answers h
  | setix => exact execSetix_answers h
  | imads => exact execImads_answers h
  | imul64 => exact execImul64_answers h
  | kadd | ksub | kmul | kand | kor | kxor | kshl | kshr | kcmp => exact uni2_answers h
  | kmov => exact execKmov_answers h
  | kmovi => exact execKmovi_answers h
  | rdsr => exact execRdsr_answers h
  | wrsr => exact execWrsr_answers h
  | vtok => exact execVtok_answers h
  | mmov => exact execMmov_answers h
  | kld => exact execKld_answers h
  | fadd | fmul | ffma | fdiv | fmin | fmax | fscale | frnd | hadd2 | hmul2 | hfma2 | hmnx2 | badd2 | bmul2 | bfma2 | fdot2 | cvt | cvtp
  | cvti | cvtf => exact flt_answers h
  | fsub => exact run_answers h fun _ _ ht => ht.laneWise
  | fcmp | hcmp2 => exact fltCmp_answers h
  | fclass | fabs => exact fltQuiet_answers h
  | fexp | fexp2 | flog2 | frcp | frsq | fsqrt | fsin | fcos | ftanh | fsig => exact special1_answers h
  | actld => exact execActld_answers h
  | actev => exact execActev_answers h
  | actinfo => exact execActinfo_answers h
  | shfl => exact execShfl_answers h
  | poll => exact execPoll_answers h
  | matchLanes => exact execMatchLanes_answers h
  | raddf => exact execRaddf_answers h
  | rmaxf => exact execRmaxf_answers h
  | rminf => exact execRminf_answers h
  | rint => exact execRint_answers h
  | scanf => exact execScanf_answers h
  | scani => exact execScani_answers h
  | segf => exact execSegf_answers h
  | segi => exact execSegi_answers h
  | bcast => exact execBcast_answers h
  | shflo => exact execShflo_answers h
  | fusedSoftmax => exact execFusedSoftmax_answers h
  | longLatencyResult => exact execLongLatencyResult_answers h
  | ld | ldl | lds | ldw | ldt | ldx => exact plainLoad_answers h
  | st | stl | sts | stw | stt | stx => exact plainStoreOp_answers h
  | orderedLoad => exact execOrderedLoad_answers h
  | orderedStore => exact execOrderedStore_answers h
  | atomAdd | atomSub | atomMin | atomMax | atomUmin | atomUmax | atomAnd | atomOr | atomXor | atomExch => exact atomI_answers h
  | atomCas => exact execAtomCas_answers h
  | atomFadd => exact execAtomFadd_answers h
  | fence => exact execFence_answers h
  | ldd => exact execLdd_answers h
  | std => exact execStd_answers h
  | cctlPrefetch => exact execCctlPrefetch_answers h
  | cctlClean => exact execCctlClean_answers h
  | cctlEvict => exact execCctlEvict_answers h
  | cctlDiscard => exact execCctlDiscard_answers h
  | barr | barrw => exact arriveOp_answers h
  | barw | swwait => exact waitOp_answers h
  | barrierWaitEnd => exact answers_next h.barrierWaitEnd
  | arriveRetry => exact answers_next h.arriveRetry
  | syncWaitEnd => exact answers_next h.syncWaitEnd
  | cinc => exact execCinc_answers h
  | crd => exact execCrd_answers h
  | tqpush => exact execTqpush_answers h
  | tqpop => exact execTqpop_answers h
  | tqpopWake => exact answers_next h.tqpopWake
  | fork => exact execFork_answers h
  | forkResume => exact answers_next h.forkResume
  | joinc => exact execJoinc_answers h
  | joincApply => exact answers_next h.joincApply
  | gbar => exact execGbar_answers h
  | gbarComplete => exact answers_next h.gbarComplete
  | jsub => exact execJsub_answers h
  | jwait => exact execJwait_answers h
  | jwaitEnd => exact answers_next h.jwaitEnd
  | jchk => exact execJchk_answers h
  | jcan => exact execJcan_answers h
  | jobAccept => exact answers_next h.jobAccept
  | jobStart => exact answers_next h.jobStart
  | porterRow => exact answers_next h.porterRow
  | courierElement => exact answers_next h.courierElement
  | collectiveElement => exact answers_next h.collectiveElement
  | requantiseGroup => exact answers_next h.requantiseGroup
  | jobComplete => exact answers_next h.jobComplete
  | syncRaise => exact answers_next h.syncRaiseJob
  | barrierCountdown => exact answers_next h.barrierCountdown
  | mxq => exact execMxq_answers h
  | mxrunResume => exact execMxrunResume_answers h
  | mxrunSkip => exact execMxrunSkip_answers h
  | mxrunAbort => exact execMxrunAbort_answers h
  | mxcfg => exact execMxcfg_answers h
  | mxcb => exact execMxcb_answers h
  | mxwait => exact execMxwait_answers h
  | engineWaitEnd => exact answers_next h.engineWaitEnd
  | mxRecordFetch => exact answers_next h.mxFetch
  | mxRecordStart => exact answers_next h.mxStart
  | mxKblock => exact answers_next h.mxKblock
  | mapbind => exact execMapbind_answers h
  | mapld => exact execMapld_answers h
  | mapst => exact execMapst_answers h
  | maprel => exact execMaprel_answers h
  | mapinfo => exact execMapinfo_answers h
  | blockedWaitEnd => exact answers_next h.blockedWaitEnd
  | srchbeg => exact execSrchbeg_answers h
  | srchend => exact execSrchend_answers h
  | trye => exact execTrye_answers h
  | fail => exact execFail_answers h
  | cut => exact execCut_answers h
  | cpmark => exact execCpmark_answers h
  | cpchk => exact execCpchk_answers h
  | trst => exact execTrst_answers h
  | steal => exact execSteal_answers h
  | timerTrap => exact answers_next h.timerTrap
  | storageError => exact execStorageError_answers h
  | pageTableWalk => exact answers_next h.pageWalk
  | l2SectorFill => exact answers_next h.l2Fill
  | l2Writeback => exact answers_next h.l2Evict
  | hbmSectorTransfer => exact answers_next h.sectorTransfer
  | bucketRefill => exact answers_next h.bucketRefill
  | bucketEntryWrite => exact answers_next h.bucketWrite
  | hbmScrub | thermalThrottle | lanternDeleteAll | lanternEvict => exact answers_next h
  | keySlotDestroy => exact execKeySlotDestroy_answers h
  | keySlotDestroyComplete => exact answers_next h.keyDestroyed
  | remoteWriteApply => exact answers_next h.remoteApply
  | remoteWriteAck => exact answers_next h.remoteAck
  | markReceive => exact answers_next h.markReceive
  | closeRequest => exact answers_next h.closeRequest
  | epochTimeout => exact answers_next h.epochTimeout
  | hostPostedWrite => exact answers_next h.postedWrite
  | packetArrival => exact answers_next h.arrive_
  | orderedDelivery => exact answers_next h.deliverNext
  | ack => exact answers_next h.acked
  | nak => exact answers_next h.naked
  | close => exact answers_next h.closeFlow
  | packetResend => exact answers_next h.resend
  | linkFrameReceive => exact answers_next h.frame
  | invalidationBroadcast => exact answers_next h.invalBegin
  | invalidationReceipt => exact answers_next h.invalReceipt
  | invalidationDrained => exact answers_next h.invalDrained
  | invalidationComplete => exact answers_next h.invalComplete
  | registerWindowWrite => exact answers_next h.portApply
  | debuggerWrite => exact execDebuggerWrite_answers h
  | windowHoldSet | windowHoldAck | windowHoldRelease | breakpointArm => exact answers_next h.modRoom
  | stopRequest => exact execStopRequest_answers h
  | singleStep => exact answers_next h.singleStep
  | roomCardWrite => exact answers_next h.cardWrite
  | roomCardTakeUp => exact answers_next h.takeCard
  | groupMakeResident => exact answers_next h.makeResident
  | groupSave => exact answers_next h.saveGang
  | groupRestore => exact answers_next h.restoreGang
  | sliceEnd => exact answers_next h.sliceEnd
  | preemptDeadline => exact answers_next h.preemptDeadline
  | gangRelaunch => exact answers_next h.modLaunch
  | deficitUpdate => exact answers_next h.deficitUpdate
  | scanSlotStart => exact answers_next h.scanStart
  | scanRun => exact answers_next h.scanRun
  | scanDefer => exact answers_next h.scanDefer
  | scanResult => exact answers_next h.scanResult
  | eyeMarginWindow | linkRateRaise | linkReset => exact answers_next h.modPort
  | linkRetrainDone => exact answers_next h.trained
  | engineReset => exact answers_next h.engineReset
  | partitionReset => exact execPartitionReset_answers h
  | partitionResetComplete => exact answers_next h.resetDone
  | functionLevelReset => exact answers_next (h.serve fun _ ht => ht.flr)
  | vfEnableClear => exact answers_next (h.serve fun _ ht => ht.clearVfs)
  | sqDoorbell => exact answers_next (h.serve fun _ ht => ht.ring)
  | launch => exact answers_next (h.sqBegin fun _ _ ht => ht.sqLaunch)
  | launchComplete => exact answers_next h.launchComplete
  | cincEntry => exact answers_next (h.sqBegin fun _ _ ht => ht.sqCinc)
  | cwait => exact answers_next (h.sqBegin fun _ _ ht => ht.sqCwait)
  | cwaitSatisfied => exact answers_next h.cwaitMet
  | nopEntry => exact answers_next (h.sqBegin fun _ _ ht => ht.post)
  | adminDoorbell => exact answers_next (h.serve fun _ ht => ht.modFn)
  | qreg => exact answers_next (h.adminBegin fun _ _ ht => ht.qreg)
  | codeload => exact answers_next (h.adminBegin fun _ _ ht => ht.codeload)
  | codefree => exact answers_next (h.adminBegin fun _ _ ht => ht.codefree)
  | keyreg => exact answers_next (h.adminBegin fun _ _ ht => ht.keyreg)
  | pagereg => exact answers_next (h.adminBegin fun _ _ ht => ht.pagereg)
  | resume => exact answers_next (h.adminBegin fun _ _ ht => ht.resumeGroup)
  | abandon => exact answers_next (h.adminBegin fun _ _ ht => ht.abandonLaunch)
  | depthr => exact answers_next (h.adminBegin fun _ _ ht => ht.setDepthr)
  | trace => exact answers_next (h.adminBegin fun _ _ ht => ht.setTrace)
  | fwstage => exact answers_next (h.adminBegin fun _ _ ht => ht.fwstage)
  | fwact => exact answers_next (h.adminBegin fun _ _ ht => ht.fwact)
  | fwHandover => exact answers_next h.fwStart
  | fwHeartbeat => exact execFwHeartbeat_answers h
  | fwRollback => exact answers_next h.fwBack
  | duneshFailover => exact execDuneshFailover_answers h
  | staleprWrite => exact answers_next h.modFn
  | registerWrite => exact answers_next (h.serve fun _ ht => ht.setRegister)
  | atsTranslationReply => exact answers_next h.atsReply
  | atsInvalidationRequest => exact answers_next h.atsInval
  | pageRequestGroupResponse => exact answers_next (h.serve fun _ ht => ht.pageAnswer)
  | getVersion | getCapabilities | negotiateAlgorithms | getDigests | getCertificate | challenge | getMeasurements => exact answers_next h.spdm
  | powerOn => exact answers_next h.powerOn
  | thermalTrip => exact answers_next h.thermalTrip
  | lanternLoad => exact execLanternLoad_answers h
  | lanternBreak => exact execLanternBreak_answers h
  | lanternRun => exact answers_next h.lanternRun
  | lanternCont => exact answers_next h.lanternCont
  | lanternPrint => exact execLanternPrint_answers h
  | lanternMem => exact execLanternMem_answers h
  | lanternDis => exact execLanternDis_answers h
  | lanternCinc => exact answers_next h.lanternCinc
  | hostRead => exact answers_next (h.serve fun _ ht => ht.answerRead)
  | cxlCacheSnoop => exact answers_next h.snoop
  | privilegedAccess => exact answers_next h.privileged
  | partitionStart => exact answers_next h.partitionStart

end Sys2Proof.Machine
end

section
/-! SUPPORT. The canonical form of memory through the machine's own steps and the issue of instructions, and so through every step (log entries 1
and 2). -/

namespace Sys2Proof.Machine

/-- Each of some steps leaves memory in its one form. -/
def KeepCanonical (fs : List (State → State)) : Prop := ∀ f ∈ fs, ∀ t : State, t.Canonical → (f t).Canonical

namespace KeepCanonical

section
variable {f : State → State} {fs gs : List (State → State)}

theorem nil : KeepCanonical [] := by
  rintro _ ⟨⟩

theorem cons (hf : ∀ t : State, t.Canonical → (f t).Canonical) (hs : KeepCanonical fs) : KeepCanonical (f :: fs) :=
  List.forall_mem_cons.2 ⟨hf, hs⟩

theorem single (hf : ∀ t : State, t.Canonical → (f t).Canonical) : KeepCanonical [f] := nil.cons hf

theorem append (hf : KeepCanonical fs) (hg : KeepCanonical gs) : KeepCanonical (fs ++ gs) := List.forall_mem_append.2 ⟨hf, hg⟩

theorem map {α : Type} {g : α → State → State} {l : List α} (hg : ∀ a (t : State), t.Canonical → (g a t).Canonical) :
    KeepCanonical (l.map g) :=
  List.forall_mem_map.2 fun a _ => hg a

theorem flatMap {α : Type} {g : α → List (State → State)} {l : List α} (hg : ∀ a, KeepCanonical (g a)) : KeepCanonical (l.flatMap g) :=
  fun f hf => (List.mem_flatMap.1 hf).elim fun a ⟨_, here⟩ => hg a f here

theorem ite {c : Prop} [Decidable c] (hf : KeepCanonical fs) (hg : KeepCanonical gs) : KeepCanonical (if c then fs else gs) :=
  iteInduction (fun _ => hf) fun _ => hg

end

/-! ### The lists of the machine's own steps -/

section
variable (s : State)

theorem ownTables : KeepCanonical s.ownTables := by
  unfold State.ownTables
  refine append (append (append (map fun _ _ ht => ht.pageWalk) (map fun _ _ ht => ?_)) (nil.ite (single fun _ ht => ht.bucketRefill)))
    (nil.ite (single fun _ ht => ht.deficitUpdate))
  split
  · exact ht.sectorTransfer
  · exact ht.l2Fill
  · exact ht
  · exact ht
  · exact ht
  · exact ht

theorem ownNetwork : KeepCanonical s.ownNetwork := by
  unfold State.ownNetwork
  extract_lets asks
  refine append (append (append (append (append (append ?wire ?marks) ?acks) ?writes) ?asked) ?closes) ?timeouts
  case wire => exact nil.ite (single fun _ ht => ht.wireNext)
  case marks => exact map fun _ _ ht => ht.markReceive
  case acks => exact flatMap fun _ => map fun _ _ ht => ht.remoteAck
  case writes => exact flatMap fun _ => map fun _ _ ht => ht.remoteApply
  case asked => exact flatMap fun _ => map fun _ _ ht => ht.remoteApply
  case closes => exact map fun _ _ ht => ht.closeRequest
  case timeouts => exact map fun _ _ ht => ht.epochTimeout

theorem ownFabric : KeepCanonical s.ownFabric := by
  unfold State.ownFabric
  refine append (append (append (append (append (append ?rx ?tx) ?ports) ?keys) ?inval) ?atc) ?links
  case rx => exact flatMap fun _ => map fun _ _ ht => ht.deliverNext
  case tx => exact flatMap fun _ => flatMap fun _ => map fun _ _ ht => ht.resend
  case ports => exact flatMap fun _ => map fun _ _ ht => ht.portApply
  case keys => exact map fun _ _ ht => ht.keyDestroyed
  case inval =>
    split
    · exact nil
    · exact append (append (map fun _ _ ht => ht.invalReceipt) (map fun _ _ ht => ht.invalDrained)) (single fun _ ht => ht.invalComplete)
  case atc => exact map fun _ _ ht => ht.atsInval
  case links => exact map fun _ _ ht => ht.trained

theorem waitEnds (r : SplitRef) (kind : Nat) : KeepCanonical (waitEnds r kind) := by
  unfold Machine.waitEnds
  split
  · exact single fun _ ht => ht.barrierWaitEnd
  · exact single fun _ ht => ht.syncWaitEnd
  · exact cons (fun _ ht => ht.waitjArrival) (single fun _ ht => ht.waitjTimeout)
  · exact single fun _ ht => ht.tqpopWake
  · exact single fun _ ht => ht.blockedWaitEnd
  · exact single fun _ ht => ht.blockedWaitEnd
  · exact single fun _ ht => ht.engineWaitEnd
  · exact single fun _ ht => ht.engineWaitEnd
  · exact single fun _ ht => ht.arriveRetry
  · exact single fun _ ht => ht.jwaitEnd
  · exact nil

theorem ownWaits : KeepCanonical s.ownWaits := by
  refine flatMap fun c => flatMap fun p => ?_
  split
  · exact nil
  · exact flatMap fun _ => nil.ite ((single fun _ ht => ht.gbarComplete).ite (waitEnds _ _))

theorem ownJobs : KeepCanonical s.ownJobs := by
  refine flatMap fun c => nil.ite (cons (fun _ ht => ht.jobAccept) (flatMap fun j => ?_))
  refine cons (fun _ ht => ht.jobStart) <| cons (fun _ ht => ht.syncRaiseJob) <| cons (fun _ ht => ht.barrierCountdown) <|
    cons (fun _ ht => ht.jobComplete) <| single fun _ ht => ?_
  split
  · exact ht.porterRow
  · exact ht.courierElement
  · exact ht.collectiveElement
  · exact ht.requantiseGroup

theorem ownMatrix : KeepCanonical s.ownMatrix := by
  refine flatMap fun c => flatMap fun i => ?_
  exact ite (cons (fun _ ht => ht.mxStart) (single fun _ ht => ht.mxKblock)) ((single fun _ ht => ht.mxFetch).ite nil)

theorem ownRooms : KeepCanonical s.ownRooms := by
  refine flatMap fun r => ?_
  split
  · exact (single fun _ ht => ht.takeCard).ite nil
  · split
    · exact (single fun _ ht => ht.restoreGang).ite (single fun _ ht => ht.makeResident)
    · exact cons (fun _ ht => ht.joincApply) (single fun _ ht => ht.reap)
    · exact (single fun _ ht => ht.saveGang).ite nil

theorem serveHeld (i : Request) {t : State} (h : t.Canonical) : (t.serveHeld i).Canonical := by
  refine h.serve fun _ hu => ?_
  split
  · exact hu.ring
  · exact hu.modFn
  · exact hu.flr
  · exact hu.clearVfs
  · exact hu.answerRead
  · exact hu.pageAnswer
  · exact hu.setRegister

theorem queueSteps (fn q : Nat) : KeepCanonical
    [ fun t => t.cwaitMet fn q,
      fun t => t.sqBegin fn q 1 fun t e => t.sqLaunch fn q e,
      fun t => t.sqBegin fn q 2 fun t e => t.sqCinc fn q e,
      fun t => t.sqBegin fn q 3 fun t e => t.sqCwait fn q e,
      fun t => t.sqBegin fn q 4 fun t e => t.post fn 0 (sqTag e) 0 ] :=
  cons (fun _ ht => ht.cwaitMet) <| cons (fun _ ht => ht.sqBegin fun _ _ hu => hu.sqLaunch) <|
    cons (fun _ ht => ht.sqBegin fun _ _ hu => hu.sqCinc) <| cons (fun _ ht => ht.sqBegin fun _ _ hu => hu.sqCwait) <|
    single fun _ ht => ht.sqBegin fun _ _ hu => hu.post

theorem adminSteps (fn : Nat) : KeepCanonical
    [ fun t => t.adminBegin fn 1 State.qreg, fun t => t.adminBegin fn 2 State.codeload, fun t => t.adminBegin fn 3 State.codefree,
      fun t => t.adminBegin fn 4 State.keyreg, fun t => t.adminBegin fn 5 State.pagereg, fun t => t.adminBegin fn 6 State.resumeGroup,
      fun t => t.adminBegin fn 7 State.abandonLaunch, fun t => t.adminBegin fn 8 State.setDepthr, fun t => t.adminBegin fn 9 State.setTrace,
      fun t => t.adminBegin fn 0x20 State.fwstage, fun t => t.adminBegin fn 0x21 State.fwact ] :=
  cons (fun _ ht => ht.adminBegin fun _ _ hu => hu.qreg) <| cons (fun _ ht => ht.adminBegin fun _ _ hu => hu.codeload) <|
    cons (fun _ ht => ht.adminBegin fun _ _ hu => hu.codefree) <| cons (fun _ ht => ht.adminBegin fun _ _ hu => hu.keyreg) <|
    cons (fun _ ht => ht.adminBegin fun _ _ hu => hu.pagereg) <| cons (fun _ ht => ht.adminBegin fun _ _ hu => hu.resumeGroup) <|
    cons (fun _ ht => ht.adminBegin fun _ _ hu => hu.abandonLaunch) <| cons (fun _ ht => ht.adminBegin fun _ _ hu => hu.setDepthr) <|
    cons (fun _ ht => ht.adminBegin fun _ _ hu => hu.setTrace) <| cons (fun _ ht => ht.adminBegin fun _ _ hu => hu.fwstage) <|
    single fun _ ht => ht.adminBegin fun _ _ hu => hu.fwact

theorem ownHost : KeepCanonical s.ownHost := by
  unfold State.ownHost
  refine append (append (append (map fun i _ ht => serveHeld i ht) (map fun _ _ ht => ht.forkResume)) (flatMap fun n => ?_)) (flatMap fun fn => ?_)
  · exact nil.ite (append (map fun _ _ ht => ht.modLaunch) (single fun _ ht => ht.launchComplete))
  · exact append (flatMap fun q => queueSteps fn q) (nil.ite (adminSteps fn))

theorem ownInnkeeper : KeepCanonical s.ownInnkeeper := by
  unfold State.ownInnkeeper
  refine append (append (append (append ?shares ?firmware) ?scans) ?result) ?resets
  case shares => exact flatMap fun _ => cons (fun _ ht => ht.sliceEnd) (single fun _ ht => ht.preemptDeadline)
  case firmware => exact nil.ite (single fun _ ht => ht.fwNext)
  case scans => exact (cons (fun _ ht => ht.scanStart) (cons (fun _ ht => ht.scanDefer) (single fun _ ht => ht.scanRun))).ite nil
  case result => exact (single fun _ ht => ht.scanResult).ite nil
  case resets => exact map fun _ _ ht => ht.resetDone

end
end KeepCanonical

section
variable {s t : State} {r : SplitRef}

namespace State.Canonical

theorem firstStep {fs : List (State → State)} (h : s.Canonical) (hf : KeepCanonical fs) (found : s.firstStep fs = some t) : t.Canonical := by
  obtain ⟨f, mem, here⟩ := List.exists_of_findSome?_eq_some found
  dsimp only at here
  split at here
  · cases here
  · cases here
    exact hf f mem s h

theorem own (h : s.Canonical) (found : s.own = some t) : t.Canonical := by
  simp only [State.own, Option.or_eq_some_iff] at found
  obtain f | ⟨-, f | ⟨-, f | ⟨-, f | ⟨-, f | ⟨-, f | ⟨-, f | ⟨-, f | ⟨-, f | ⟨-, f | ⟨-, f⟩⟩⟩⟩⟩⟩⟩⟩⟩⟩ := found
  · exact h.firstStep (.ownTables s) f
  · exact h.firstStep (.ownNetwork s) f
  · exact h.firstStep (.ownFabric s) f
  · exact h.firstStep (.ownWaits s) f
  · exact h.firstStep (.ownJobs s) f
  · exact h.firstStep (.ownMatrix s) f
  · exact h.lanternOwn f
  · exact h.evictNow f
  · exact h.firstStep (.ownRooms s) f
  · exact h.firstStep (.ownHost s) f
  · exact h.firstStep (.ownInnkeeper s) f

/-! ### Issue and time (R335, R350) -/

theorem ageOthers (h : s.Canonical) : (s.ageOthers r).Canonical := foldl h fun _ _ ht => ht.modWarp

theorem writeOldest (h : s.Canonical) : s.writeOldest.Canonical := by
  refine foldl h fun _ _ ht => foldl ht fun _ _ hu => ?_
  split
  · exact hu.land
  · exact hu

theorem pass {n k : Nat} (h : s.Canonical) : (s.pass n k).Canonical := h

end State.Canonical

theorem issueCode_answers {n : Nat} {i : Instr} (h : s.Canonical) : Answers (s.issueCode r n i) := by
  unfold State.issueCode
  have kept := h.keepCode (r := r) (n := n)
  split
  next came => rw [came] at kept; exact exec_answers i kept
  next came => rw [came] at kept; exact answers_next kept

theorem issue_answers (h : s.Canonical) : Answers (s.issue r) := by
  unfold State.issue
  extract_lets aged u c
  have hu : u.Canonical := h.ageOthers
  split
  · exact exec_answers _ hu
  · split
    · exact answers_next hu.askWalk
    · exact answers_next (State.Canonical.finish hu)
    · exact answers_next hu.killGang
    · split
      · exact issueCode_answers hu
      · exact issueCode_answers hu
      · exact answers_next hu.askWalk

theorem idleStep_answers (h : s.Canonical) : Answers s.idleStep := by
  unfold State.idleStep
  split
  next found => exact answers_next (h.own found)
  · split
    next k _ =>
      split
      · exact issue_answers (s := { s with turn := k + 1 }) h
      · exact answers_next h
    · refine answers_next (State.Canonical.pass (State.Canonical.writeOldest ?_))
      exact h

theorem stepOnce_answers (h : s.Canonical) : Answers s.stepOnce := by
  unfold State.stepOnce
  split
  next c q rest _ =>
    extract_lets u
    have hu : u.Canonical := h
    split
    · exact issue_answers hu
    · exact answers_next hu
  next i rest _ =>
    extract_lets u
    have hu : u.Canonical := h
    split
    · exact exec_answers i hu
    · exact answers_next hu
  next n k rest _ =>
    refine answers_next ?_
    split
    · exact h
    · exact h
  · split
    · exact answers_next h
    · exact idleStep_answers h

end

end Sys2Proof.Machine

namespace Sys2Proof.SearchTrapsAndHost

open Sys2Proof.Machine

/-- Settles O56: whatever a step does, it reaches memory through the operations that keep its one form. -/
theorem memoryStaysCanonical : Obligations.MemoryStaysCanonical := by
  unfold Obligations.MemoryStaysCanonical
  exact fun s t h next => stepOnce_answers h t next

end Sys2Proof.SearchTrapsAndHost
end

section

namespace Sys2Proof.Machine

/-! ### The split of an instruction that issues (R148, R189) -/

section
variable {s : State} {c slot : Nat}

theorem State.splits_modWarp {f : Warp → Warp} (keeps : ∀ w, (f w).splits = w.splits) :
    ((s.modWarp c slot f).warp c slot).splits = (s.warp c slot).splits := by
  by_cases live : (s.warp? c slot).isSome = true
  · rw [State.warp_modWarp_self f live, keeps]
  · have gone : s.warp? c slot = none := by simpa using live
    rw [State.modWarp, gone]

theorem State.splits_modCore {f : Core → Core} (keeps : ∀ k, (f k).warps = k.warps) :
    ((s.modCore c f).warp c slot).splits = (s.warp c slot).splits := by
  rw [State.warp, State.warp, State.warps_modCore keeps]

theorem Warp.splits_write (w : Warp) (r : RegWrite) : (w.write r).splits = w.splits := by
  cases r with
  | m | mbit => unfold Warp.write; dsimp only; split <;> rfl
  | v | k | ix | flags | empty | act => rfl

/-- No result moves a split. -/
theorem State.splits_writeReg (r : RegWrite) : ((s.writeReg c slot r).warp c slot).splits = (s.warp c slot).splits := by
  cases r with
  | v n l x => exact State.splits_modCore (f := fun k => k.setLane _ _ _ _) fun _ => rfl
  | act n b d =>
    dsimp only [State.writeReg, State.flipTable, State.modRoom]
    rw [State.splits_modWarp, State.splits_modCore] <;> exact fun _ => rfl
  | k | m | mbit | ix | flags | empty => exact State.splits_modWarp fun w => Warp.splits_write w _

theorem State.splits_writeRegs (rs : List RegWrite) : ((s.writeRegs c slot rs).warp c slot).splits = (s.warp c slot).splits := by
  unfold State.writeRegs
  induction rs generalizing s with
  | nil => rfl
  | cons r rest ih => exact ih.trans (State.splits_writeReg r)

theorem State.splits_drain (p : Pending → Bool) : ((s.drain c slot p).warp c slot).splits = (s.warp c slot).splits := by
  unfold State.drain State.writePend
  dsimp only
  rw [State.splits_modWarp, State.splits_writeRegs]
  exact fun _ => rfl

end

/-- The split of an instruction that issues is live in the warp that the instruction sees. -/
theorem State.seen_split {s : State} (h : s.Issues) (i : Instr) : (s.seen i).w.split (s.seen i).sp = some (s.seen i).x := by
  have cur : (s.entering i).cur = s.cur := by rw [s.onlyCores_entering i]
  have splits : (s.seen i).w.splits = (s.warp s.cur.core s.cur.slot).splits := by
    show ((s.entering i).warp (s.entering i).cur.core (s.entering i).cur.slot).splits = _
    rw [cur]
    exact State.splits_drain _
  have live : ((s.seen i).w.split (s.seen i).sp).isSome = true := by
    rw [Warp.split, splits, show (s.seen i).sp = s.cur.split from congrArg (·.split) cur]
    unfold State.Issues State.split? at h
    unfold State.warp
    cases there : s.warp? s.cur.core s.cur.slot with
    | none => simp [there] at h
    | some w => simpa [there] using h
  obtain ⟨y, hy⟩ := Option.isSome_iff_exists.mp live
  rw [hy]
  exact congrArg some (congrArg (·.getD { pc := 0, mask := 0 }) hy).symm

/-! ### Branches and calls (R148, R217 to R220) -/

section
variable {c : Ctx} {e : State} {a : Src}

/-- A split whose lanes agree on their next PC does not divide. -/
theorem Ctx.diverge_same {m : LaneMask} {f : Nat → W64} {pc : W64} (live : c.w.split c.sp = some c.x) (some_lane : m ≠ 0)
    (same : ∀ l ∈ lanesOf m, f l = pc) :
    c.w.diverge c.sp (pathsOf m f) true c.x.pc = .ok { c.w with
      splits := c.w.splits.set c.sp (some { c.x with pc := pc, pend := none }), came := c.w.came.set c.sp c.x.pc } := by
  obtain ⟨q, one⟩ := pathsOf_const m f pc some_lane same
  rw [one, Warp.diverge.eq_def, live]
  rfl

theorem Ctx.branch_ok {f : Nat → W64} {w : Warp} (goes : c.w.diverge c.sp (pathsOf c.x.mask f) true c.x.pc = .ok w) :
    c.branch e f = stop .moved (e.setWarp c.core c.slot w) := by
  rw [Ctx.branch, goes]

theorem Ctx.branch_same {f : Nat → W64} {pc : W64} (live : c.w.split c.sp = some c.x) (some_lane : c.x.mask ≠ 0)
    (same : ∀ l ∈ lanesOf c.x.mask, f l = pc) : c.branch e f = stop .moved (c.sent e pc) :=
  Ctx.branch_ok (Ctx.diverge_same live some_lane same)

theorem Ctx.targets_clean (clean : ∀ l ∈ lanesOf c.x.mask, (at_ {} (c.vec e c.x.mask a .bits) l).poison = false) :
    c.targets e a = .ok ((c.vec e c.x.mask a .bits).map fun x => x.data.setWidth 64) :=
  if_neg (not_any_lanesOf clean)

theorem at_targets (v : List LaneWord) (l : Nat) : at_ 0 (v.map fun x => x.data.setWidth 64) l = (at_ {} v l).data.setWidth 64 := by
  simp only [at_, List.getD_eq_getElem?_getD, List.getElem?_map]
  cases v[l]? <;> rfl

/-- Results of a lane-wise kind that are written at once (R189). -/
theorem writeLanes_now {e' : State} {d : Dst} {n : Nat} {res : List (Nat × List LaneWord)} (trails : c.Trails e (c.laneWrites d n res) e') :
    c.writeLanes e false d n res ([], []) = .ok (e'.writeRegs c.core c.slot (c.laneWrites d n res)) := by
  rw [writeLanes_ok trails]
  simp only [List.append_nil]
  rfl

/-- The link goes into every active lane, then the split moves (R220). -/
theorem Ctx.callTo_ok {f : Nat → W64} {d : Dst} {w : Warp} {e' : State}
    (goes : c.w.diverge c.sp (pathsOf c.x.mask f) true c.x.pc = .ok w)
    (trails : c.Trails e (c.laneWrites d 1 ((lanesOf c.x.mask).map fun l => (l, [{ data := c.after.setWidth 32 }]))) e') :
    c.callTo e d f = stop .moved ((e'.writeRegs c.core c.slot
      (c.laneWrites d 1 ((lanesOf c.x.mask).map fun l => (l, [{ data := c.after.setWidth 32 }])))).setWarp c.core c.slot w) := by
  rw [Ctx.callTo, goes, Ctx.link]
  dsimp only
  rw [writeLanes_now trails, act_ok_bind]

end

theorem setWidth_eq_zero_iff (v : W32) : v.setWidth 64 = (0 : W64) ↔ v = 0 := by
  constructor <;> intro h <;> bv_omega

section
variable {i : Instr} {s : State}

/-- A branch past its checks, with clean operands: its next PCs are read as 64-bit words, and a rule gives them from the lanes' own words. -/
theorem exec_branch_clean {needs : List Need} {a : Src} (pcOf : Ctx → W64 → W64) (next : Ctx → W32 → W64)
    (ran : exec i s = run i s fun c e =>
      c.guard e c.x.mask needs >>= fun _ => c.targets e a >>= fun v => c.branch e fun l => pcOf c (at_ 0 v l))
    (agrees : ∀ w, pcOf (s.seen i) (w.setWidth 64) = next (s.seen i) w) (hs : s.Issues) (usable : (s.seen i).Usable (s.seen i).x.mask needs)
    (clean : ∀ l ∈ lanesOf (s.seen i).x.mask, (at_ {} ((s.seen i).vec (s.entering i) (s.seen i).x.mask a .bits) l).poison = false) :
    exec i s = .next (State.finish (s.seen i) ((s.seen i).branch (s.entering i) fun l =>
      next (s.seen i) (at_ {} ((s.seen i).vec (s.entering i) (s.seen i).x.mask a .bits) l).data).ends) := by
  rw [ran, run_ok hs, guard_ok usable, act_ok_bind, Ctx.targets_clean clean, act_ok_bind]
  simp only [at_targets, agrees]

/-- A branch that reads a register, with clean operands: each lane goes where the rule sends it. -/
theorem exec_branchRule {r : BranchRule} (rule : branchRule i = some r) (hs : s.Issues) (usable : (s.seen i).Usable (s.seen i).x.mask r.needs)
    (clean : ∀ l ∈ lanesOf (s.seen i).x.mask, (at_ {} ((s.seen i).vec (s.entering i) (s.seen i).x.mask r.a .bits) l).poison = false) :
    exec i s = .next (State.finish (s.seen i) ((s.seen i).branch (s.entering i) fun l =>
      r.next (s.seen i) (at_ {} ((s.seen i).vec (s.entering i) (s.seen i).x.mask r.a .bits) l).data).ends) := by
  cases i
  case brc x a imm =>
    cases rule
    exact exec_branch_clean (fun c w => if w = 0 then c.after else c.target imm) _ rfl
      (fun w => by simp only [setWidth_eq_zero_iff, dest_eq]) hs usable clean
  case brx x a =>
    cases rule
    exact exec_branch_clean (fun _ w => w) _ rfl (fun _ => rfl) hs usable clean
  case ret x a =>
    cases rule
    exact exec_branch_clean (fun _ w => w) _ rfl (fun _ => rfl) hs usable clean
  all_goals cases rule

end

theorem branchResults : BranchResults := by
  constructor
  · intro x imm s hs c some_lane
    rw [show exec (.bra x imm) s = execBra x imm s from rfl, execBra, run_ok hs]
    rw [Ctx.branch_same (State.seen_split hs _) some_lane fun _ _ => dest_eq _ imm, finish_moved]
  · intro i r s rule hs c e v usable clean
    refine ⟨fun pc some_lane same => ?_, fun w goes => ?_⟩
    · rw [exec_branchRule rule hs usable clean, Ctx.branch_same (State.seen_split hs i) some_lane same, finish_moved]
    · rw [exec_branchRule rule hs usable clean, Ctx.branch_ok goes, finish_moved]

theorem callResults : CallResults := by
  constructor
  · intro x d imm s e' hs i c ws usable some_lane trails
    have goes := Ctx.diverge_same (State.seen_split hs i) some_lane fun _ _ => dest_eq c imm
    rw [show exec i s = execCall x d imm s from rfl, execCall, run_ok hs]
    dsimp only
    rw [guard_ok usable, act_ok_bind, Ctx.callTo_ok goes trails, finish_moved]
    rfl
  · intro x d a w s e' hs i c e v ws usable clean goes trails
    rw [show exec i s = execCalli x d a s from rfl, execCalli, run_ok hs, guard_ok usable, act_ok_bind, Ctx.targets_clean clean, act_ok_bind]
    simp only [at_targets]
    rw [Ctx.callTo_ok goes trails, finish_moved]

end Sys2Proof.Machine

namespace Sys2Proof.IntegerAndControl
open Sys2Proof.Machine

/-- Settles O18: branches by where each lane goes, calls by the link that is written before the split moves. -/
theorem branchAndCallResults : Obligations.BranchAndCallResults := ⟨branchResults, callResults⟩

end Sys2Proof.IntegerAndControl
end

section

namespace Sys2Proof.Machine

/-! ### Masks that lists of splits, entries and paths cover together -/

@[simp] theorem noLanes_or (m : LaneMask) : 0 ||| m = m := BitVec.zero_or

/-- The lanes that the members of a list cover. -/
def coverOf {α : Type} (f : α → LaneMask) (l : List α) : LaneMask := l.foldl (fun m x => m ||| f x) 0

section
variable {α : Type} (f : α → LaneMask)

theorem foldl_or_coverOf (l : List α) (m : LaneMask) : l.foldl (fun m x => m ||| f x) m = m ||| coverOf f l := by
  unfold coverOf
  induction l generalizing m with
  | nil => simp
  | cons x r ih => rw [List.foldl_cons, List.foldl_cons, ih, ih (0 ||| f x), noLanes_or, BitVec.or_assoc]

@[simp] theorem coverOf_nil : coverOf f [] = 0 := rfl

@[simp] theorem coverOf_cons (x : α) (l : List α) : coverOf f (x :: l) = f x ||| coverOf f l := by
  rw [coverOf, List.foldl_cons, foldl_or_coverOf, noLanes_or]

theorem coverOf_append (l k : List α) : coverOf f (l ++ k) = coverOf f l ||| coverOf f k := by
  rw [coverOf, List.foldl_append, foldl_or_coverOf]
  rfl

theorem coverOf_map {β : Type} (g : β → α) (l : List β) : coverOf f (l.map g) = coverOf (fun x => f (g x)) l := by
  rw [coverOf, List.foldl_map]
  rfl

/-- A member's lanes, and those of the others. -/
theorem coverOf_eraseIdx {l : List α} {k : Nat} {x : α} (h : l[k]? = some x) : f x ||| coverOf f (l.eraseIdx k) = coverOf f l := by
  induction l generalizing k with
  | nil => cases h
  | cons y r ih =>
    cases k with
    | zero => simp_all
    | succ k =>
      rw [List.eraseIdx_cons_succ, coverOf_cons, coverOf_cons, ← ih (by simpa using h)]
      ac_rfl

theorem coverOf_set {l : List α} {k : Nat} (h : k < l.length) (x : α) : coverOf f (l.set k x) = f x ||| coverOf f (l.eraseIdx k) := by
  have there : (l.set k x)[k]? = some x := by simp [h]
  rw [← coverOf_eraseIdx f there, List.eraseIdx_set_eq]

theorem coverOf_modifyAt {l : List α} {k : Nat} {x : α} {g : α → α} {m : LaneMask} (h : l[k]? = some x) (more : f (g x) = m ||| f x) :
    coverOf f (modifyAt l k g) = m ||| coverOf f l := by
  induction l generalizing k with
  | nil => cases h
  | cons y r ih =>
    cases k with
    | zero =>
      obtain rfl : y = x := by simpa using h
      rw [modifyAt, coverOf_cons, coverOf_cons, more, BitVec.or_assoc]
    | succ k =>
      rw [modifyAt, coverOf_cons, coverOf_cons, ih (by simpa using h)]
      ac_rfl

end

/-! ### The lanes of a warp (R148 to R152) -/

/-- The lanes that a split slot holds. -/
def slotLanes (x : Option Split) : LaneMask := (x.map (·.mask)).getD 0

/-- The lanes that an entry of the stack holds: those that wait at a JOIN, those that a PATH will run. -/
def StackEntry.holds (e : StackEntry) : LaneMask := if e.join then e.arrived else e.mask

theorem Warp.liveLanes_eq (w : Warp) : w.liveLanes = coverOf slotLanes w.splits ||| coverOf StackEntry.holds w.stack :=
  foldl_or_coverOf StackEntry.holds w.stack _

theorem Warp.split_eq_some {w : Warp} {i : Nat} {x : Split} (h : w.split i = some x) : w.splits[i]? = some (some x) := by
  unfold Warp.split at h
  rw [List.getD_eq_getElem?_getD] at h
  cases there : w.splits[i]? with
  | none => simp [there] at h
  | some y => simpa [there] using h

theorem Warp.freeSlots_head {w : Warp} {i : Nat} {free : List Nat} (h : w.freeSlots = i :: free) : i < 4 ∧ w.split i = none := by
  have member : i ∈ w.freeSlots := by rw [h]; exact List.mem_cons_self
  simpa [Warp.freeSlots] using member

/-- A free slot that is there holds no lane. -/
theorem Warp.coverOf_splits_set {w : Warp} {i : Nat} (inside : i < w.splits.length) (free : w.split i = none) (x : Split) :
    coverOf slotLanes (w.splits.set i (some x)) = x.mask ||| coverOf slotLanes w.splits := by
  have empty : w.splits[i]? = some none := by
    rw [Warp.split, List.getD_eq_getElem?_getD, List.getElem?_eq_getElem inside] at free
    rw [List.getElem?_eq_getElem inside]
    exact congrArg some free
  rw [coverOf_set _ inside, ← coverOf_eraseIdx slotLanes empty]
  show x.mask ||| _ = x.mask ||| (0 ||| _)
  rw [noLanes_or]

/-- A warp of four split slots with lanes more than another's. -/
structure Warp.Gains (w : Warp) (m : LaneMask) (v : Warp) : Prop where
  /-- The lanes. -/
  lanes : v.liveLanes = m ||| w.liveLanes
  /-- The slots. -/
  slots : v.splits.length = 4

theorem Warp.Gains.trans {w v u : Warp} {m n : LaneMask} (h : w.Gains m v) (g : v.Gains n u) : w.Gains (m ||| n) u :=
  ⟨by rw [g.lanes, h.lanes]; ac_rfl, g.slots⟩

/-- A placed split brings its lanes, whether it finds a slot or not. -/
theorem Warp.gains_place {w : Warp} (four : w.splits.length = 4) (x : Split) (came : W64) : w.Gains x.mask (w.place x came) := by
  unfold Warp.place
  split
  next none_ => exact ⟨by rw [none_, noLanes_or], four⟩
  next =>
    split
    next i free head =>
      obtain ⟨inside, empty⟩ := Warp.freeSlots_head head
      refine ⟨?_, by simpa [Warp.fill] using four⟩
      rw [Warp.liveLanes_eq, Warp.liveLanes_eq, Warp.fill, Warp.coverOf_splits_set (by omega) empty, BitVec.or_assoc]
    next =>
      refine ⟨?_, four⟩
      rw [Warp.liveLanes_eq, Warp.liveLanes_eq, coverOf_cons]
      show _ ||| (x.mask ||| _) = _
      ac_rfl

/-- An entry that leaves the stack as a split takes its lanes along. -/
theorem Warp.gains_unstacked {w v : Warp} {j : Nat} {e : StackEntry} (four : w.splits.length = 4) (there : w.stack[j]? = some e)
    (splits : v.splits = w.splits) (stack : v.stack = w.stack.eraseIdx j) {x : Split} (same : x.mask = e.holds) (came : W64) :
    w.Gains 0 (v.place x came) := by
  have placed := Warp.gains_place (w := v) (by rw [splits, four]) x came
  refine ⟨?_, placed.slots⟩
  rw [placed.lanes, Warp.liveLanes_eq, Warp.liveLanes_eq, splits, stack, same, ← coverOf_eraseIdx StackEntry.holds there, noLanes_or]
  ac_rfl

theorem newest_some {st : List StackEntry} {p : StackEntry → Bool} {j : Nat} (h : newest st p = some j) : ∃ e, st[j]? = some e ∧ p e = true := by
  obtain ⟨inside, found, -⟩ := List.findIdx?_eq_some_iff_getElem.mp h
  exact ⟨st[j], List.getElem?_eq_getElem inside, found⟩

theorem Warp.gains_complete {w : Warp} {j : Nat} (four : w.splits.length = 4)
    (full : newest w.stack (fun e => e.join && e.arrived = e.mask) = some j) (came : W64) : w.Gains 0 (w.complete j came) := by
  obtain ⟨e, there, arrived⟩ := newest_some full
  simp only [Bool.and_eq_true, decide_eq_true_eq] at arrived
  obtain ⟨join, arrived⟩ := arrived
  rw [Warp.complete, there]
  exact Warp.gains_unstacked (v := { w with stack := w.stack.eraseIdx j, nest := nestMap w.nest e.mask (· - 1) })
    (x := { pc := e.pc, mask := e.mask, ra := e.ra }) four there rfl rfl (by rw [StackEntry.holds, if_pos join, arrived]) came

theorem Warp.gains_popPath {w : Warp} {j : Nat} (four : w.splits.length = 4) (path : newest w.stack (fun e => !e.join) = some j) (came : W64) :
    w.Gains 0 (w.popPath j came) := by
  obtain ⟨e, there, path⟩ := newest_some path
  simp only [Bool.not_eq_true'] at path
  rw [Warp.popPath, there]
  exact Warp.gains_unstacked (v := { w with stack := w.stack.eraseIdx j })
    (x := { pc := e.pc, mask := e.mask, ra := e.ra, pend := e.pend }) four there rfl rfl (by rw [StackEntry.holds, if_neg (by simp [path])]) came

/-- A split arrives at an entry of the stack that is a JOIN. -/
theorem Warp.joinOf_some {w : Warp} {x : Split} {j : Nat} (h : w.joinOf x = some j) : ∃ e, w.stack[j]? = some e ∧ e.join = true := by
  unfold Warp.joinOf at h
  split at h
  next =>
    split at h
    next =>
      obtain ⟨e, there, found⟩ := newest_some h
      simp only [Bool.and_eq_true] at found
      exact ⟨e, there, found.1.1.1⟩
    next => cases h
  next => cases h

theorem Warp.arriving_some {w : Warp} {i j : Nat} {m : LaneMask} (h : w.arriving = some (i, j, m)) :
    ∃ x, w.split i = some x ∧ x.mask = m ∧ w.joinOf x = some j := by
  obtain ⟨k, -, found⟩ := List.exists_of_findSome?_eq_some h
  split at found
  next x live =>
    obtain ⟨n, at_join, same⟩ := Option.map_eq_some_iff.mp found
    cases same
    exact ⟨x, live, rfl, at_join⟩
  next => cases found

/-- An arrival moves lanes from a split to a JOIN. -/
theorem Warp.gains_arrive {w : Warp} {i j : Nat} {m : LaneMask} (four : w.splits.length = 4) (arrives : w.arriving = some (i, j, m)) :
    w.Gains 0 (w.arrive i j m) := by
  obtain ⟨x, live, rfl, at_join⟩ := Warp.arriving_some arrives
  obtain ⟨e, there, join⟩ := Warp.joinOf_some at_join
  have slot := Warp.split_eq_some live
  have inside : i < w.splits.length := (List.getElem?_eq_some_iff.mp slot).1
  have stack : coverOf StackEntry.holds (modifyAt w.stack j fun e => { e with arrived := e.arrived ||| x.mask }) =
      x.mask ||| coverOf StackEntry.holds w.stack := by
    refine coverOf_modifyAt StackEntry.holds there ?_
    rw [StackEntry.holds, StackEntry.holds, if_pos join, if_pos join, BitVec.or_comm]
  refine ⟨?_, by simpa [Warp.arrive, Warp.free] using four⟩
  rw [Warp.liveLanes_eq, Warp.liveLanes_eq, Warp.arrive, Warp.free]
  dsimp only
  rw [stack, coverOf_set _ inside, ← coverOf_eraseIdx slotLanes slot]
  show (0 ||| _) ||| (x.mask ||| _) = 0 ||| ((x.mask ||| _) ||| _)
  rw [noLanes_or, noLanes_or]
  ac_rfl

/-- Settling moves lanes between splits and stack, and loses or makes none (R149, R150). -/
theorem Warp.gains_settleIn {fuel : Nat} {w : Warp} (four : w.splits.length = 4) (came : W64) : w.Gains 0 (Warp.settleIn fuel w came) := by
  have stays : ∀ {w : Warp}, w.splits.length = 4 → w.Gains 0 w := fun four => ⟨(noLanes_or _).symm, four⟩
  induction fuel generalizing w with
  | zero => exact stays four
  | succ n ih =>
    have goes_on : ∀ {v : Warp}, w.Gains 0 v → w.Gains 0 (Warp.settleIn n v came) := fun step => by simpa using step.trans (ih step.slots)
    unfold Warp.settleIn
    split
    next full => exact goes_on (Warp.gains_complete four full came)
    next =>
      split
      next arrives => exact goes_on (Warp.gains_arrive four arrives)
      next =>
        split
        next => exact stays four
        next =>
          split
          next path => exact goes_on (Warp.gains_popPath four path came)
          next => exact stays four

/-! ### Divergence (R148) -/

/-- A branch's warp once a JOIN entry stands for its split's PEND, if it has one. -/
def Warp.joining (w : Warp) (x : Split) : Warp :=
  if x.pend.isSome then
    { w with
      stack := { join := true, pc := x.pend.getD 0, mask := x.mask, arrived := 0, ra := x.ra, nest := w.nestOf x.mask + 1 } :: w.stack
      nest := nestMap w.nest x.mask (· + 1) }
  else w

/-- What the paths of a branch get as their RA. -/
def Split.pathRa (x : Split) : Option W64 := if x.pend.isSome then x.pend else x.ra

/-- The first path in its split's slot. -/
def Warp.leading (w : Warp) (i : Nat) (p : Path) (ra : Option W64) (came : W64) : Warp :=
  { w with splits := w.splits.set i (some { pc := p.target, mask := p.lanes, ra := ra, pend := none }), came := w.came.set i came }

/-- Paths placed one after another. -/
def Warp.placing (w : Warp) (ps : List Path) (ra : Option W64) (came : W64) : Warp :=
  ps.foldl (fun w q => w.place { pc := q.target, mask := q.lanes, ra := ra, pend := none } came) w

/-- Paths left on the stack. -/
def Warp.stacking (w : Warp) (ps : List Path) (ra : Option W64) : Warp :=
  { w with stack := ps.map (fun q => { join := false, pc := q.target, mask := q.lanes, arrived := 0, ra := ra, nest := w.nestOf q.lanes, pend := none })
      ++ w.stack }

/-- A branch of two paths or more whose split divides. -/
def Warp.dividing (w : Warp) (i : Nat) (x : Split) (p : Path) (rest : List Path) (came : W64) : Warp :=
  let led := (w.joining x).leading i p x.pathRa came
  (led.placing (rest.take led.freeSlots.length) x.pathRa came).stacking (rest.drop led.freeSlots.length) x.pathRa

theorem Warp.diverge_many {w : Warp} {i : Nat} {x : Split} (live : w.split i = some x) (p q : Path) (rest : List Path) (came : W64) :
    w.diverge i (p :: q :: rest) true came =
      if (x.pend.isSome && decide (maskOf (fun l => lane x.mask l && decide (at_ 0 w.nest l = 255)) ≠ 0)) = true then
        .error (.nest (maskOf fun l => lane x.mask l && decide (at_ 0 w.nest l = 255)))
      else if w.stack.length + (if x.pend.isSome then 1 else 0) + ((q :: rest).length - w.freeSlots.length) > 4096 then .error .rsovf
      else .ok (w.dividing i x p (q :: rest) came) := by
  rw [Warp.diverge.eq_def, live]
  rfl

theorem Warp.diverge_one {w : Warp} {i : Nat} {x : Split} (live : w.split i = some x) (p : Path) (came : W64) :
    w.diverge i [p] true came =
      .ok { w with splits := w.splits.set i (some { x with pc := p.target, pend := none }), came := w.came.set i came } := by
  rw [Warp.diverge.eq_def, live]
  rfl

theorem Warp.gains_placing {w : Warp} (four : w.splits.length = 4) (ps : List Path) (ra : Option W64) (came : W64) :
    w.Gains (coverOf Path.lanes ps) (w.placing ps ra came) := by
  unfold Warp.placing
  induction ps generalizing w with
  | nil => exact ⟨(noLanes_or _).symm, four⟩
  | cons p rest ih =>
    have placed := Warp.gains_place four { pc := p.target, mask := p.lanes, ra := ra, pend := none } came
    rw [coverOf_cons]
    exact placed.trans (ih placed.slots)

theorem Warp.gains_stacking {w : Warp} (four : w.splits.length = 4) (ps : List Path) (ra : Option W64) :
    w.Gains (coverOf Path.lanes ps) (w.stacking ps ra) := by
  refine ⟨?_, four⟩
  rw [Warp.liveLanes_eq, Warp.liveLanes_eq, Warp.stacking]
  dsimp only
  rw [coverOf_append, coverOf_map]
  show _ ||| (coverOf Path.lanes ps ||| _) = _
  ac_rfl

/-- A JOIN that stands for a PEND holds no lane yet. -/
theorem Warp.gains_joining {w : Warp} (four : w.splits.length = 4) (x : Split) : w.Gains 0 (w.joining x) := by
  unfold Warp.joining
  split
  · refine ⟨?_, four⟩
    rw [Warp.liveLanes_eq, Warp.liveLanes_eq, coverOf_cons]
    show _ ||| (0 ||| _) = _
    rw [noLanes_or, noLanes_or]
  · exact ⟨(noLanes_or _).symm, four⟩

@[simp] theorem Warp.joining_splits (w : Warp) (x : Split) : (w.joining x).splits = w.splits := by
  unfold Warp.joining
  split <;> rfl

/-- A split replaced by another: the lanes of the rest of the warp stay. -/
theorem Warp.liveLanes_replace {w : Warp} {i : Nat} {x : Split} (live : w.split i = some x) :
    ∃ m, w.liveLanes = x.mask ||| m ∧
      ∀ (v : Warp) (y : Split), v.splits = w.splits.set i (some y) → v.stack = w.stack → v.liveLanes = y.mask ||| m := by
  have slot := Warp.split_eq_some live
  refine ⟨coverOf slotLanes (w.splits.eraseIdx i) ||| coverOf StackEntry.holds w.stack, ?_, fun v y splits stack => ?_⟩
  · rw [Warp.liveLanes_eq, ← coverOf_eraseIdx slotLanes slot, BitVec.or_assoc]
    rfl
  · rw [Warp.liveLanes_eq, splits, stack, coverOf_set _ (List.getElem?_eq_some_iff.mp slot).1, BitVec.or_assoc]
    rfl

/-- The paths of a split that divides run the split's lanes. -/
theorem Warp.gains_dividing {w : Warp} {i : Nat} {x : Split} (four : w.splits.length = 4) (live : w.split i = some x) (p : Path) (rest : List Path)
    (came : W64) (all : coverOf Path.lanes (p :: rest) = x.mask) : w.Gains 0 (w.dividing i x p rest came) := by
  have joined := Warp.gains_joining four x
  obtain ⟨m, before, after⟩ := Warp.liveLanes_replace (w := w.joining x) (x := x) (by rw [Warp.split, Warp.joining_splits]; exact live)
  have led := after ((w.joining x).leading i p x.pathRa came) _ rfl rfl
  have four' : ((w.joining x).leading i p x.pathRa came).splits.length = 4 := by simpa [Warp.leading] using four
  have placed := Warp.gains_placing four' (rest.take ((w.joining x).leading i p x.pathRa came).freeSlots.length) x.pathRa came
  have stacked := placed.trans (Warp.gains_stacking placed.slots (rest.drop ((w.joining x).leading i p x.pathRa came).freeSlots.length) x.pathRa)
  rw [← coverOf_append, List.take_append_drop] at stacked
  refine ⟨?_, stacked.slots⟩
  calc (w.dividing i x p rest came).liveLanes
      = coverOf Path.lanes rest ||| (p.lanes ||| m) := by rw [← led]; exact stacked.lanes
    _ = coverOf Path.lanes (p :: rest) ||| m := by rw [coverOf_cons]; ac_rfl
    _ = 0 ||| w.liveLanes := by rw [all, ← before, joined.lanes]

theorem coverOf_addLane (ps : List Path) (t : W64) (l : Nat) : coverOf Path.lanes (addLane ps t l) = bitOf l ||| coverOf Path.lanes ps := by
  induction ps with
  | nil => exact coverOf_cons Path.lanes _ []
  | cons p rest ih =>
    unfold addLane
    split
    · rw [coverOf_cons, coverOf_cons]
      show p.lanes ||| bitOf l ||| _ = _
      ac_rfl
    · split
      · exact coverOf_cons Path.lanes _ _
      · rw [coverOf_cons, coverOf_cons, ih]
        ac_rfl

theorem getLsbD_coverOf {α : Type} (f : α → LaneMask) (l : List α) (i : Nat) : (coverOf f l).getLsbD i = l.any fun x => (f x).getLsbD i := by
  induction l with
  | nil => simp
  | cons x r ih => rw [coverOf_cons, BitVec.getLsbD_or, ih, List.any_cons]

theorem coverOf_bitOf (m : LaneMask) : coverOf bitOf (lanesOf m) = m := by
  apply BitVec.eq_of_getLsbD_eq
  intro i hi
  have bit : ∀ l, (bitOf l).getLsbD i = decide (l = i) := fun l => by
    rw [bitOf, BitVec.getLsbD_ofNat, Nat.testBit_two_pow, decide_eq_true hi, Bool.true_and]
  rw [getLsbD_coverOf, Bool.eq_iff_iff]
  simp only [List.any_eq_true, bit, decide_eq_true_eq, lanesOf, lanes, List.mem_filter, List.mem_range, exists_eq_right]
  exact and_iff_right hi

theorem coverOf_pathsOf (m : LaneMask) (f : Nat → W64) : coverOf Path.lanes (pathsOf m f) = m := by
  have grown : ∀ (ls : List Nat) (ps : List Path), coverOf Path.lanes (ls.foldl (fun ps l => addLane ps (f l) l) ps) =
      coverOf bitOf ls ||| coverOf Path.lanes ps := by
    intro ls
    induction ls with
    | nil => exact fun ps => (noLanes_or _).symm
    | cons l r ih =>
      intro ps
      rw [List.foldl_cons, ih, coverOf_addLane, coverOf_cons]
      ac_rfl
  rw [pathsOf, grown, coverOf_bitOf]
  exact BitVec.or_zero

theorem Warp.gains_diverge {w v : Warp} {i : Nat} {x : Split} {f : Nat → W64} {came : W64} (four : w.splits.length = 4)
    (live : w.split i = some x) (goes : w.diverge i (pathsOf x.mask f) true came = .ok v) : w.Gains 0 v := by
  have all := coverOf_pathsOf x.mask f
  cases paths : pathsOf x.mask f with
  | nil =>
    rw [paths, Warp.diverge.eq_def, live] at goes
    cases goes
    exact ⟨(noLanes_or _).symm, four⟩
  | cons p rest =>
    cases rest with
    | nil =>
      rw [paths, Warp.diverge_one live] at goes
      cases goes
      obtain ⟨m, before, after⟩ := Warp.liveLanes_replace live
      refine ⟨?_, by simpa using four⟩
      rw [before, noLanes_or]
      exact after _ { x with pc := p.target, pend := none } rfl rfl
    | cons q rest =>
      rw [paths, Warp.diverge_many live] at goes
      obtain ⟨-, fault⟩ | ⟨-, goes⟩ := ite_eq_iff.mp goes
      · cases fault
      obtain ⟨-, fault⟩ | ⟨-, goes⟩ := ite_eq_iff.mp goes
      · cases fault
      cases goes
      exact Warp.gains_dividing four live p (q :: rest) came (paths ▸ all)

/-! ### A branch of two paths -/

theorem getD_set {α : Type} {l : List α} {i : Nat} (inside : i < l.length) (y d : α) (k : Nat) :
    (l.set i y).getD k d = if k = i then y else l.getD k d := by
  rw [List.getD_eq_getElem?_getD, List.getD_eq_getElem?_getD, List.getElem?_set, if_pos inside]
  by_cases same : i = k
  · rw [if_pos same, if_pos same.symm]
    rfl
  · rw [if_neg same, if_neg (Ne.symm same)]

/-- The two paths: the first in its split's slot, the second in the lowest free one. -/
theorem Warp.dividing_two {w : Warp} {i j : Nat} {x : Split} {free : List Nat} (four : w.splits.length = 4) (live : w.split i = some x)
    (head : w.freeSlots = j :: free) (p q : Path) (some_lane : q.lanes ≠ 0) (came : W64) :
    let v := w.dividing i x p [q] came
    v.split i = some { pc := p.target, mask := p.lanes, ra := x.pathRa, pend := none } ∧
      v.split j = some { pc := q.target, mask := q.lanes, ra := x.pathRa, pend := none } ∧
      v.stack = (w.joining x).stack ∧ v.nest = (w.joining x).nest := by
  have inside : i < w.splits.length := (List.getElem?_eq_some_iff.mp (Warp.split_eq_some live)).1
  obtain ⟨below, empty⟩ := Warp.freeSlots_head head
  have other : i ≠ j := fun same => by rw [same, empty] at live; cases live
  have led : ((w.joining x).leading i p x.pathRa came).freeSlots = j :: free := by
    rw [← head]
    refine List.filter_congr fun k _ => ?_
    rw [Warp.split, Warp.leading]
    dsimp only
    rw [Warp.joining_splits, getD_set inside]
    split
    next same => rw [same, live]; rfl
    next => rfl
  have placed : w.dividing i x p [q] came =
      ((w.joining x).leading i p x.pathRa came).fill j { pc := q.target, mask := q.lanes, ra := x.pathRa, pend := none } came := by
    unfold Warp.dividing
    dsimp only
    rw [led]
    simp only [List.length_cons, List.take_succ_cons, List.drop_succ_cons, List.take_nil, List.drop_nil]
    simp only [Warp.placing, Warp.stacking, List.foldl_cons, List.foldl_nil, List.map_nil, List.nil_append, Warp.place, some_lane, if_false, led]
  intro v
  have splits : v.splits = (w.splits.set i (some { pc := p.target, mask := p.lanes, ra := x.pathRa, pend := none })).set j
      (some { pc := q.target, mask := q.lanes, ra := x.pathRa, pend := none }) := by
    rw [show v = _ from placed, Warp.fill, Warp.leading, Warp.joining_splits]
  refine ⟨?_, ?_, by rw [show v = _ from placed]; rfl, by rw [show v = _ from placed]; rfl⟩
  · rw [Warp.split, splits, List.set_comm _ _ other]
    exact (getD_set (by simpa using inside) _ none i).trans (if_pos rfl)
  · rw [Warp.split, splits]
    exact (getD_set (by simpa [four] using below) _ none j).trans (if_pos rfl)

end Sys2Proof.Machine

namespace Sys2Proof.IntegerAndControl
open Sys2Proof.Machine

/-- Settles O19: the paths find their slots, and the JOIN is pushed before them. -/
theorem twoPathDivergence : Obligations.TwoPathDivergence := by
  intro w i j x p q came free live head room four some_lane
  obtain ⟨first, second, stack, nest⟩ := Warp.dividing_two four live head p q some_lane came
  have fits : ¬ w.stack.length + (if x.pend.isSome then 1 else 0) + ([q].length - w.freeSlots.length) > 4096 := by
    rw [head, List.length_singleton, List.length_cons]
    split <;> omega
  refine ⟨fun pend armed cool => ⟨_, ?_, first.trans ?_, second.trans ?_, stack.trans ?_, nest.trans ?_⟩,
    fun unarmed => ⟨_, ?_, first.trans ?_, second.trans ?_, stack.trans ?_, nest.trans ?_⟩⟩
  · have none_hot := cool_lanes (m := x.mask) (nest := w.nest) fun l on => cool l (lt_of_mem_lanesOf on) (List.mem_filter.mp on).2
    rw [Warp.diverge_many live, none_hot, if_neg (by simp), if_neg fits]
  · simp only [Split.pathRa, armed, Option.isSome_some, if_true]
  · simp only [Split.pathRa, armed, Option.isSome_some, if_true]
  · simp only [Warp.joining, armed, Option.isSome_some, if_true, Option.getD_some]
  · simp only [Warp.joining, armed, Option.isSome_some, if_true]
  · rw [Warp.diverge_many live, if_neg (by simp [unarmed]), if_neg fits]
  · simp [Split.pathRa, unarmed]
  · simp [Split.pathRa, unarmed]
  · simp [Warp.joining, unarmed]
  · simp [Warp.joining, unarmed]

/-- Settles O20: the paths of a branch run the lanes of its split, and settling moves lanes between splits and stack. -/
theorem branchesKeepLanes : Obligations.BranchesKeepLanes := by
  refine ⟨fun w v i x f came four live _ goes => ?_, fun w came four => ?_⟩
  · have kept := Warp.gains_diverge four live goes
    exact ⟨kept.lanes.trans (noLanes_or _), kept.slots⟩
  · have kept := Warp.gains_settleIn (fuel := 3 * w.stack.length + 9) four came
    exact ⟨kept.lanes.trans (noLanes_or _), kept.slots⟩

end Sys2Proof.IntegerAndControl
end

section

namespace Sys2Proof.Machine

/-! ### Hints, ends and service calls (R222 to R227) -/

theorem hintResults : HintResults := by
  intro x off s hs
  refine ⟨?_, ?_, ?_, ?_, ?_⟩
  · rw [show exec (.nop x) s = execNop x s from rfl, execNop, run_ok hs, finish_ok]
  · rw [show exec (.yield x) s = execYield x s from rfl, execYield, run_ok hs, finish_ok]
  · intro c
    have offset : BitVec.ofInt 64 (c.x.pc.toInt + 4 * off.toInt) = c.x.pc + off.signExtend 64 * 4 := by
      rw [BitVec.ofInt_add, BitVec.ofInt_toInt, ofInt_four_mul_toInt]
    rw [show exec (.rcv x off) s = execRcv x off s from rfl, execRcv, run_ok hs, finish_ok, offset]
  · intro unarmed
    rw [show exec (.bkpt x) s = execBkpt x s from rfl, execBkpt, run_ok hs, if_neg (by rw [unarmed]; exact Bool.false_ne_true), finish_ok]
  · intro armed
    rw [show exec (.bkpt x) s = execBkpt x s from rfl, execBkpt, run_ok hs, if_pos armed, finish_moved]

theorem endResults : EndResults := by
  intro x s hs
  refine ⟨?_, ?_⟩
  · intro c
    rw [show exec (.exit x) s = execExit x s from rfl, execExit, run_ok hs, finish_moved]
  · intro c
    rw [show exec (.endGroup x) s = execEndGroup x s from rfl, execEndGroup, run_ok hs, finish_moved]

/-- `sysc` past its checks and its fence. -/
theorem exec_sysc_clean {x : Ctl} {d a : BitVec 8} {imm : W32} {s : State} (hs : s.Issues)
    (usable : (s.seen (.sysc x d a imm)).Usable (s.seen (.sysc x d a imm)).x.mask (.k 0 d.toNat :: .k 1 a.toNat :: impliedK a.toNat 3))
    (clean : ∀ n ∈ (List.range 4).map fun j => at_ ({} : KReg) (s.seen (.sysc x d a imm)).w.uni (a.toNat + j), n.poison = false) :
    exec (.sysc x d a imm) s = run (.sysc x d a imm) s fun c e => c.fenceNow e .dev >>= fun t =>
      let r := if imm = 0 then (t, 0)
        else if imm = 1 then t.traceRecord c.die (t.launches.getD c.g.launch {}).fn c.g.part
          (((List.range 4).map fun j => at_ ({} : KReg) c.w.uni (a.toNat + j)).map (·.data))
        else (t, -1)
      .ok (c.putK r.1 d r.2) := by
  have unpoisoned : ¬ ((List.range 4).map fun j => at_ ({} : KReg) (s.seen (.sysc x d a imm)).w.uni (a.toNat + j)).any (·.poison) = true := by
    simpa using clean
  rw [show exec (.sysc x d a imm) s = execSysc x d a imm s from rfl, execSysc, run_ok hs, run_ok hs, guard_ok usable, act_ok_bind]
  dsimp only [Ctx.kreg]
  rw [if_neg unpoisoned]
  rfl

theorem serviceCalls : ServiceCalls := by
  intro x d a imm s hs i c e args t r usable clean marks ports home
  rw [exec_sysc_clean hs usable clean, run_ok hs, Ctx.fenceNow_wide (.inl rfl) marks ports home nofun, act_ok_bind, finish_ok]
  refine congrArg (fun u => Host.Outcome.next (c.done u)) ?_
  split
  · rfl
  · split <;> rfl

end Sys2Proof.Machine

namespace Sys2Proof.IntegerAndControl
open Sys2Proof.Machine

/-- Settles O22: hints and ends by what each does past the fetch, a service call by its fence and its service. -/
theorem hintsEndsAndServiceCalls : Obligations.HintsEndsAndServiceCalls := ⟨hintResults, endResults, serviceCalls⟩

end Sys2Proof.IntegerAndControl
end

section

namespace Sys2Proof.Machine

/-! ### Fields of words (R8) -/

theorem field_eq_extractLsb' {w : Nat} (x : BitVec w) (lo n hi : Nat) (wide : hi + 1 - lo = n) :
    field x.toNat hi lo = (x.extractLsb' lo n).toNat := by
  rw [field, wide, BitVec.extractLsb'_toNat, Nat.shiftRight_eq_div_pow]

theorem ofNat_div_eq_extractLsb' {w : Nat} (x : BitVec w) (lo n : Nat) : BitVec.ofNat n (x.toNat / 2 ^ lo) = x.extractLsb' lo n := by
  rw [BitVec.extractLsb', Nat.shiftRight_eq_div_pow]

/-- Words laid one above the other, as a number. -/
theorem ofNat_foldr_words (x0 x1 x2 x3 : KReg) :
    BitVec.ofNat 256 ([x0, x1, x2, x3].foldr (fun (w : KReg) (acc : Nat) => w.data.toNat + 2 ^ 64 * acc) 0) =
      x3.data ++ x2.data ++ x1.data ++ x0.data := by
  have above : ∀ {m n : Nat} (x : BitVec m) (y : BitVec n), (x ++ y).toNat = y.toNat + 2 ^ n * x.toNat := fun {m n} x y => by
    rw [BitVec.toNat_append, ← Nat.shiftLeft_add_eq_or_of_lt y.isLt, Nat.shiftLeft_eq]
    ring
  apply BitVec.eq_of_toNat_eq
  rw [above, above, above, BitVec.toNat_ofNat]
  have b0 := x0.data.isLt
  have b1 := x1.data.isLt
  have b2 := x2.data.isLt
  have b3 := x3.data.isLt
  simp only [List.foldr_cons, List.foldr_nil]
  omega

/-! ### Tasks (R274 to R276, R334) -/

/-- Counter ID number j of a uniform of IDs (R274). -/
theorem field_counterId (ids : W64) (j : Nat) : field ids.toNat (16 * j + 15) (16 * j) = (ids.extractLsb' (16 * j) 16).toNat :=
  field_eq_extractLsb' ids _ 16 _ (by omega)

/-- The bits of an entry that are to be zero (R274). -/
theorem fieldBeyond_ne_zero (y : BitVec 256) : field y.toNat 31 25 ≠ 0 ↔ y.extractLsb' 25 7 ≠ 0 := by
  rw [field_eq_extractLsb' y 25 7 31 rfl, ne_eq, ne_eq, BitVec.toNat_eq]
  rfl

/-- The entry that four uniforms hold (R274). -/
theorem Ctx.entry_eq (c : Ctx) (a : Nat) :
    BitVec.ofNat 256 (((List.range 4).map fun j => c.kreg (a + j)).foldr (fun (w : KReg) (acc : Nat) => w.data.toNat + 2 ^ 64 * acc) 0) = c.entry a :=
  ofNat_foldr_words _ _ _ _

theorem Ctx.popInto_eq_popped (c : Ctx) (e : State) (d : BitVec 8) (x : BitVec 256) : c.popInto e d x = c.popped e d x := by
  unfold Ctx.popInto Ctx.popped State.writeRegs
  rw [List.foldl_map]
  simp only [ofNat_div_eq_extractLsb']

section
variable {c : Ctx} {e : State} {d : BitVec 8} {q : Nat}

theorem Ctx.pop_waits (empty : e.popTask c.g.part q = none) : c.pop e d q = stop (.wait { kind := 5, addr := BitVec.ofNat 64 q }) e := by
  rw [Ctx.pop, empty]

theorem Ctx.pop_takes {y : Ready} {t : State} (head : e.popTask c.g.part q = some (y, t)) (seen : e.vecOk c.die y.vec = true)
    (seen' : t.vecOk c.die y.vec = true) : c.pop e d q = .ok (c.popped (t.mergeStamp c.die y.vec) d y.entry) := by
  have acquired : ∀ {u : State}, u.vecOk c.die y.vec = true → u.acquireVec c.die y.vec = (true, u.mergeStamp c.die y.vec) := fun ok => by
    rw [State.acquireVec, if_pos ok]
  rw [Ctx.pop, head]
  dsimp only
  rw [acquired seen, acquired seen']
  dsimp only
  rw [Ctx.popInto_eq_popped]

end

section
variable {x : Ctl} {d a b n : BitVec 8} {s : State} (hs : s.Issues) {l : Nat}
  (once : Once (s.seen (.tqpush x d a b n)) l (.k 0 d.toNat :: .k 1 a.toNat :: impliedK a.toNat 3 ++
    if n.toNat = 0 then [] else .k 2 b.toNat :: impliedK b.toNat n.toNat))
  (cleanWords : ∀ w ∈ (List.range 4).map fun j => (s.seen (.tqpush x d a b n)).kreg (a.toNat + j), w.poison = false)
  (cleanIds : n.toNat ≠ 0 → ((s.seen (.tqpush x d a b n)).kreg b.toNat).poison = false)
  (cleanThr : ∀ w ∈ (List.range n.toNat).map fun j => (s.seen (.tqpush x d a b n)).kreg (b.toNat + 1 + j), w.poison = false)
include hs once cleanWords cleanIds cleanThr

/-- `tqpush` with clean operands looks at the queue that its entry names. -/
theorem exec_tqpush_clean :
    let c := s.seen (.tqpush x d a b n)
    let ids := c.kreg b.toNat
    let thr := (List.range n.toNat).map fun j => c.kreg (b.toNat + 1 + j)
    let y := c.entry a.toNat
    exec (.tqpush x d a b n) s = .next (State.finish c (if 64 ≤ taskQueue y ∨ y.extractLsb' 25 7 ≠ 0 then
        stop (.trap { cause := 0x24, lanes := bitOf l, d := BitVec.ofNat 64 (taskQueue y) }) (s.entering (.tqpush x d a b n))
      else c.releaseNow (s.entering (.tqpush x d a b n)) .dev >>= fun t =>
        let r := t.pushTask c.g.part y (thr.zipIdx.map fun p => ((ids.data.extractLsb' (16 * p.2) 16).toNat, p.1.data)) (t.closedVec c.die)
        .ok (c.putK r.1 d (BitVec.ofNat 64 r.2))).ends) := by
  intro c ids thr y
  have first : c.first = l := by rw [Ctx.first, once.lane]; rfl
  have unpoisoned : ¬ ((((List.range 4).map fun j => c.kreg (a.toNat + j)).any (·.poison) || (n.toNat ≠ 0 && ids.poison) ||
      thr.any (·.poison)) = true) := by
    rw [List.any_eq_false.mpr fun w hw => by simp [cleanWords w hw], List.any_eq_false.mpr fun w hw => by simp [cleanThr w hw]]
    simpa using cleanIds
  rw [show exec (.tqpush x d a b n) s = execTqpush x d a b n s from rfl, execTqpush, run_ok hs]
  simp only [once.lane, guard_ok once.usable, act_ok_bind, Ctx.entry_eq, Ctx.tqf, writeK_now, act_pure]
  rw [if_neg unpoisoned, first]
  simp only [field_counterId, fieldBeyond_ne_zero, Bool.or_eq_true, decide_eq_true_eq, c, ids, thr, y]

end

theorem exec_tqpop_once {x : Ctl} {d : BitVec 8} {a : Src} {s : State} (hs : s.Issues) {l : Nat}
    (once : Once (s.seen (.tqpop x d a)) l (.k 0 d.toNat :: impliedK d.toNat 3 ++ srcNeed 1 1 a))
    (clean : ((s.seen (.tqpop x d a)).uniform a).2 = false) :
    let c := s.seen (.tqpop x d a)
    let e := s.entering (.tqpop x d a)
    let q := (c.uniform a).1
    exec (.tqpop x d a) s = .next (State.finish c (if 64 ≤ q.toNat then stop (.trap { cause := 0x24, lanes := bitOf l, d := q }) e
      else c.pop e d q.toNat).ends) := by
  intro c e q
  rw [show exec (.tqpop x d a) s = execTqpop x d a s from rfl, execTqpop, run_ok hs]
  simp only [once.lane, guard_ok once.usable, act_ok_bind, ksrc_data, ksrc_poison, clean, Bool.false_eq_true, if_false, c, e, q]

theorem taskResults : TaskResults := by
  refine ⟨?_, ?_, ?_⟩
  · intro x d a b n s hs i c e ids thr words y
    refine ⟨fun idle => ?_, fun l once cleanWords cleanIds cleanThr => ?_⟩
    · rw [show exec i s = execTqpush x d a b n s from rfl]
      exact run_idle hs (fun c e h => by simp only [lowest_of_idle h]) idle
    · have ran := exec_tqpush_clean hs once cleanWords cleanIds cleanThr
      refine ⟨fun refused => ?_, fun small plain ports home => ?_⟩
      · rw [ran, if_pos refused, finish_trap]
      · rw [ran, if_neg (not_or.mpr ⟨Nat.not_le.mpr small, not_not.mpr plain⟩), Ctx.releaseNow_dev ports home, act_ok_bind, finish_ok]
        rfl
  · intro x d a s hs i c e q
    refine ⟨fun idle => ?_, fun l once clean => ?_⟩
    · rw [show exec i s = execTqpop x d a s from rfl]
      exact run_idle hs (fun c e h => by simp only [lowest_of_idle h]) idle
    · have ran := exec_tqpop_once hs once clean
      refine ⟨fun outside => ?_, fun inside empty => ?_, fun y t inside head seen seen' => ?_⟩
      · rw [ran, if_pos outside, finish_trap]
      · rw [ran, if_neg (Nat.not_le.mpr inside), Ctx.pop_waits empty, finish_wait]
      · rw [ran, if_neg (Nat.not_le.mpr inside), Ctx.pop_takes head seen seen', finish_ok]
  · intro r z d a x y s t waits c u head seen seen'
    exact congrArg Host.Outcome.next (resume_ok waits (List.mem_singleton_self 5) (Ctx.pop_takes head seen seen'))

end Sys2Proof.Machine
end

section

namespace Sys2Proof.Machine

/-! ### Fork (R159, R277) -/

/-- The launch that `fork` makes of an accepted record, with its parent's priority at most. -/
def Ctx.child (c : Ctx) (t : State) (fn : Nat) (r : LaunchRec) (h : KHdr) (lpa : Nat) : Launch :=
  { fn := fn, lpa := lpa, lrec := { r with prio := min r.prio c.g.prio }, hdr := h, part := c.g.part, host := false, vec := t.closedVec c.die }

/-- The launch is made of a record whose first byte lies at a physical address. -/
def Ctx.launchChild (c : Ctx) (t : State) (fn : Nat) (r : LaunchRec) (h : KHdr) (bs : List (Nat × Attr)) : State :=
  match bs with
  | p :: _ => t.addLaunch (c.child t fn r h p.1)
  | [] => t

/-- What `fork` does with the one record that it has read. -/
def Ctx.forkOne (c : Ctx) (e1 : State) (d : Dst) (l : Nat) (bs : List (Nat × Attr)) (bytes : List Byte) (id : Nat) (thr : W64) : Act State :=
  c.releaseNow e1 .dev >>= fun t =>
    let fn := (t.launches.getD c.g.launch {}).fn
    let r := LaunchRec.of bytes
    match t.admitLaunch fn c.g.part (some c.g.lrec.asid) r with
    | (t, .error _) => c.writeLanes t false d 1 [(l, [{ data := 1 }])] ([], [])
    | (t, .ok h) => c.writeLanes t false d 1 [(l, [{ data := 0 }])] ([], []) >>= fun t =>
        .ok ((c.launchChild t fn r h bs).modGroup c.core c.room fun g => { g with phase := .suspended, wake := some (id, thr) })

section
variable {c : Ctx} {e1 t1 t2 : State} {d : Dst} {l : Nat} {bs : List (Nat × Attr)} {bytes : List Byte} {id : Nat} {thr : W64}
  (ports : e1.portsClear c.owner = true) (home : e1.homeBusy c.die = false)
include ports home

theorem Ctx.forkOne_refused {n : Nat}
    (refused : (e1.closeEpoch c.die).admitLaunch (((e1.closeEpoch c.die).launches.getD c.g.launch {}).fn) c.g.part (some c.g.lrec.asid)
      (LaunchRec.of bytes) = (t1, .error n)) (trails : c.Trails t1 (c.laneWrites d 1 [(l, [{ data := 1 }])]) t2) :
    c.forkOne e1 d l bs bytes id thr = .ok (t2.writeRegs c.core c.slot (c.laneWrites d 1 [(l, [{ data := 1 }])])) := by
  rw [Ctx.forkOne, Ctx.releaseNow_dev ports home, act_ok_bind]
  dsimp only
  rw [refused]
  dsimp only
  rw [writeLanes_now trails]

theorem Ctx.forkOne_accepted {h : KHdr}
    (accepted : (e1.closeEpoch c.die).admitLaunch (((e1.closeEpoch c.die).launches.getD c.g.launch {}).fn) c.g.part (some c.g.lrec.asid)
      (LaunchRec.of bytes) = (t1, .ok h)) (trails : c.Trails t1 (c.laneWrites d 1 [(l, [{ data := 0 }])]) t2) :
    let t3 := t2.writeRegs c.core c.slot (c.laneWrites d 1 [(l, [{ data := 0 }])])
    c.forkOne e1 d l bs bytes id thr = .ok ((c.launchChild t3 (((e1.closeEpoch c.die).launches.getD c.g.launch {}).fn) (LaunchRec.of bytes) h
      bs).modGroup c.core c.room fun g => { g with phase := .suspended, wake := some (id, thr) }) := by
  rw [Ctx.forkOne, Ctx.releaseNow_dev ports home, act_ok_bind]
  dsimp only
  rw [accepted]
  dsimp only
  rw [writeLanes_now trails, act_ok_bind]

end

section
variable {x : Ctl} {d : Dst} {a : Src} {b : BitVec 8} {s : State} (hs : s.Issues)
  (usable : (s.seen (.fork x d a b)).Usable (s.seen (.fork x d a b)).act
    (dstNeed 1 d ++ srcNeed 1 2 a ++ (Need.k 2 b.toNat :: impliedK b.toNat 1)))
include hs usable

theorem exec_fork_idle (idle : (s.seen (.fork x d a b)).act = 0) :
    exec (.fork x d a b) s = .next ((s.seen (.fork x d a b)).done (s.entering (.fork x d a b))) := by
  rw [show exec (.fork x d a b) s = execFork x d a b s from rfl, execFork, run_ok hs, guard_ok usable, act_ok_bind, if_pos idle]
  rfl

/-- `fork` of one lane with clean operands and a record that is read. -/
theorem exec_fork_one {accs : List (Nat × Int)} {l : Nat} {bs : List (Nat × Attr)} {e1 : State} (active : (s.seen (.fork x d a b)).act ≠ 0)
    (cleanId : ((s.seen (.fork x d a b)).kreg b.toNat).poison = false) (cleanThr : ((s.seen (.fork x d a b)).kreg (b.toNat + 1)).poison = false)
    (named : (s.seen (.fork x d a b)).addresses (s.entering (.fork x d a b)) .glob a (.imm 0) = some accs)
    (reached : (s.seen (.fork x d a b)).places (s.entering (.fork x d a b)) .glob .read .any 64 64 none accs = .ok [(l, .mem bs)])
    (observed : (s.seen (.fork x d a b)).observe (s.entering (.fork x d a b)) none [.mem bs] 64 (some (firstAddr accs)) = .ok e1)
    (clean : (e1.readPlace (s.seen (.fork x d a b)).die (s.seen (.fork x d a b)).owner (.mem bs) 64).2 = false) :
    let c := s.seen (.fork x d a b)
    exec (.fork x d a b) s = .next (State.finish c (c.forkOne e1 d l bs (e1.readPlace c.die c.owner (.mem bs) 64).1
      ((c.kreg b.toNat).data.toNat % 65536) (c.kreg (b.toNat + 1)).data).ends) := by
  intro c
  rw [show exec (.fork x d a b) s = execFork x d a b s from rfl, execFork, run_ok hs, guard_ok usable, act_ok_bind, if_neg active]
  dsimp only
  rw [named]
  simp only [cleanId, cleanThr, Bool.or_self, Bool.false_eq_true, if_false, reached, act_ok_bind, List.map_cons, List.map_nil, observed,
    List.any_cons, List.any_nil, clean, List.foldl_cons, List.foldl_nil, List.nil_append]
  refine congrArg (fun m => Host.Outcome.next (State.finish c (Act.ends m))) (congrArg (c.releaseNow e1 .dev >>= ·) (funext fun t => ?_))
  dsimp only
  generalize t.admitLaunch _ _ _ _ = answer
  obtain ⟨t1, n | h⟩ := answer
  · rw [if_pos (by simp)]
  · rw [if_neg (by simp)]
    cases bs <;> rfl

end

theorem forkResults : ForkResults := by
  refine ⟨?_, ?_⟩
  · intro x d a b s hs i c e id thr usable
    refine ⟨fun idle => exec_fork_idle hs usable idle, ?_⟩
    intro accs l bs active cleanId cleanThr named reached e1 observed rec_ t lr fn clean ports home
    have ran := exec_fork_one hs usable active cleanId cleanThr named reached observed clean
    constructor
    · intro t1 n t2 refused ws trails
      rw [ran, Ctx.forkOne_refused ports home refused trails, finish_ok]
    · intro t1 h t2 p r accepted placed ws trails t3 new
      rw [ran, Ctx.forkOne_accepted ports home accepted trails, finish_ok, placed]
      rfl
  · intro launch groupid id thr v s saved here there wake reached
    have found : s.savedOf launch groupid = some v := by simp [State.savedOf, saved, here, there]
    rw [show exec (.forkResume launch groupid) s = .next (s.forkResume launch groupid) from rfl, State.forkResume, found, saved]
    simp only [Option.isNone_some, Bool.false_eq_true, if_false, List.map_cons, List.map_nil, wake, here, there, reached, decide_true, Bool.and_self,
      if_true]

end Sys2Proof.Machine

namespace Sys2Proof.EnginesAndFabric
open Sys2Proof.Machine

/-- Settles O29: tasks by what a push and a pop do past their checks, `fork` by its one record refused or accepted, a parent by its counter. -/
theorem taskAndForkResults : Obligations.TaskAndForkResults := ⟨taskResults, forkResults⟩

end Sys2Proof.EnginesAndFabric
end

section

namespace Sys2Proof.Machine

/-! ### Room cards (R325, R326) -/

theorem State.cardWrite_eq {s : State} {c n : Nat} {card : BitVec 256} (core : c < 64) (room : n < 16) (may : s.mayAssign c ⟨card.toNat⟩ = true) :
    let u := s.privWrite s.dunesh (cardAddr c n) 32 (card.toNat / 2 * 2)
    s.cardWrite c n card = (u.closeEpoch u.dunesh).privWrite u.dunesh (cardAddr c n) 8 (card.toNat % 2 ^ 64) := by
  intro u
  have passes : ¬ (!s.mayAssign c ⟨card.toNat⟩ || decide (64 ≤ c) || decide (16 ≤ n)) = true := by simp [may, core, room]
  rw [State.cardWrite, if_neg passes]

section
variable {s : State} {c n : Nat} (valid : (s.cardAt c n).v = true) (free : (s.room c n).group = none) (service : (s.core c).service = true)
include valid free service

theorem State.takeCard_faulty {f : Nat} (faulty : s.cardFault c (s.cardAt c n) = some f) : s.takeCard c n = (s.clearV c n).emit (.refused c n f) := by
  unfold State.takeCard
  simp only [valid, free, service, faulty, Option.isSome_none, Bool.not_true, Bool.or_self, Bool.false_eq_true, if_false]

variable (sound : s.cardFault c (s.cardAt c n) = none)
include sound

/-- A card that names nothing that it may start is refused (log entry 116). -/
theorem State.takeCard_lost {u : State} (lost : s.cardStart c (s.cardAt c n) = (u, none)) :
    s.takeCard c n = (u.clearV c n).emit (.refused c n (if (s.cardAt c n).restore then 192 else 128)) := by
  unfold State.takeCard
  simp only [valid, free, service, sound, lost, Option.isSome_none, Bool.not_true, Bool.or_self, Bool.false_eq_true, if_false]

/-- A card that names a launch binds its group once the start's vectors are acquired and its records are read. -/
theorem State.takeCard_binds {i : Nat} {r : LaunchRec} {h : KHdr} {u v : State} (named : s.cardLaunch (s.cardAt c n) = some i)
    (acquired : s.acquireVec (dieOf c) (s.startVec (s.cardAt c n) i) = (true, u))
    (read : (if (s.cardAt c n).restore then (u, some ((u.launches.getD i {}).lrec, (u.launches.getD i {}).hdr))
      else u.readLaunch c (s.cardAt c n) (u.launches.getD i {}).fn (u.launches.getD i {}).part) = (v, some (r, h))) :
    s.takeCard c n = v.bindCard c n (s.cardAt c n) i r h := by
  have started : s.cardStart c (s.cardAt c n) = (s, some i) := by rw [State.cardStart, named]
  unfold State.takeCard
  simp only [valid, free, service, sound, started, acquired, Option.isSome_none, Bool.not_true, Bool.or_self, Bool.false_eq_true, if_false]
  split at read
  next restore =>
    cases read
    rw [if_pos restore]
  next fresh => rw [if_neg fresh, read]

end

/-- The room holds the card's group once it is bound (R155, R325). -/
theorem State.group_bindCard {s : State} {c n : Nat} (k : RoomCard) (i : Nat) (r : LaunchRec) (h : KHdr) (core : c < s.cores.length)
    (room : n < (s.core c).rooms.length) : ((s.bindCard c n k i r h).room c n).group = some (s.boundGroup k i r h) :=
  congrArg Room.group (State.room_modRoom_self (s.clearV c n) c n _ core room)

/-! ### Gangs placed, saved and restored (R154, R337, R352) -/

section
variable {s t : State} {c n : Nat} {ms : List (Nat × Nat)}

theorem State.makeResident_placed (bound : s.boundGang c n false = some ms)
    (placed : ms.foldlM (fun u r => u.placeGroup r.1 r.2 ((List.range (u.group r.1 r.2).hdr.warps).map fun w => (w, freshWarp)))
      (s.beginSlice (clusterOf c) (s.group c n).part) = some t) :
    s.makeResident c n = ms.foldl (fun u r => (u.freshStart r.1 r.2).noteCore (s.group c n).launch r.1) t := by
  unfold State.makeResident
  rw [bound]
  dsimp only
  rw [placed]

/-- A gang leaves its rooms together: every member blocked, no job that performed an access, no access of its at a port (R337). -/
theorem State.saveGang_leaves {g : Group} (there : (s.room c n).group = some g) :
    let ms := s.members g.launch g.gang
    let u := ms.foldl (fun s r => (s.group r.1 r.2).slots.foldl (fun s sl => s.drain r.1 sl fun _ => true) s) s
    (∀ r ∈ ms, u.mayLeave r.1 r.2 = true ∧ (∀ j ∈ (u.core r.1).jobs, j.room = r.2 → j.performed = false ∧ j.ended = none) ∧
      ∀ k ∈ u.cores, ∀ p ∈ k.port, p.owner ≠ some g.owner) → s.saveGang c n = ms.foldl (fun s r => s.saveMember r.1 r.2) u := by
  intro ms u leaves
  unfold State.saveGang
  rw [there]
  refine if_pos ?_
  rw [List.all_eq_true]
  intro r member
  obtain ⟨may, jobs, ports⟩ := leaves r member
  have idle : (u.core r.1).jobs.any (fun j => j.room = r.2 && (j.performed || j.ended.isSome)) = false := by
    rw [List.any_eq_false]
    intro j hj
    simp only [Bool.and_eq_true, decide_eq_true_eq, not_and]
    intro here
    obtain ⟨none_performed, not_ended⟩ := jobs j hj here
    simp [none_performed, not_ended]
  have quiet : (u.cores.all fun k => k.port.all fun p => p.owner ≠ some g.owner) = true := by simpa using ports
  show (u.mayLeave r.1 r.2 && !(u.core r.1).jobs.any _ && u.cores.all _) = true
  rw [may, idle, quiet]
  rfl

/-- A gang whose records are all good and that fits comes back together (R352, R358). -/
theorem State.restoreGang_back (bound : s.boundGang c n true = some ms)
    (good : ∀ p ∈ s.savedMembers c n ms, s.recordBad p.2 (s.group c n).hdr = none) (fits : s.gangBack c n ms (s.savedMembers c n ms) = some t) :
    s.restoreGang c n =
      (s.savedMembers c n ms).foldl (fun u p => (u.restoreRoom p.1.1 p.1.2 p.2).noteCore (s.group c n).launch p.1.1) t := by
  have no_bad : (s.savedMembers c n ms).filterMap (fun p => (s.recordBad p.2 (s.group c n).hdr).map fun o => (p.1, p.2, o)) = [] := by
    rw [List.filterMap_eq_nil_iff]
    intro p hp
    rw [good p hp]
    rfl
  unfold State.savedMembers at no_bad
  unfold State.restoreGang
  rw [bound]
  dsimp only
  rw [no_bad]
  refine (if_neg Bool.false_ne_true).trans ?_
  split
  next missing => cases (show s.gangBack c n ms (s.savedMembers c n ms) = none from missing).symm.trans fits
  next u placed =>
    cases (show s.gangBack c n ms (s.savedMembers c n ms) = some u from placed).symm.trans fits
    rfl

end

/-! ### Slices and pre-emption (R331, R338) -/

/-- Whether a tenant's slice is over, as SLICE_END tests it. -/
def State.sliceDue (s : State) (cl : Nat) (x : Share) : Bool :=
  let gs := (s.tenantRooms cl x.part).map fun r => s.group r.1 r.2
  x.cluster = cl && !gs.isEmpty && !x.draining && x.saving.isNone && !x.late &&
    ((x.since + s.sliceNs x gs ≤ s.gtime && (s.waitingFor cl).any fun l => l.part ≠ x.part)
     || (s.waitingFor cl).any fun l => (gs.map (·.prio)).foldl max 0 < s.rank l)

theorem State.sliceDue_iff (s : State) (cl : Nat) (x : Share) : s.sliceDue cl x = true ↔ s.sliceOver cl x := by
  simp only [State.sliceDue, State.sliceOver, Bool.and_eq_true, Bool.or_eq_true, decide_eq_true_eq, Bool.not_eq_true', List.isEmpty_eq_false_iff,
    Option.isNone_iff_eq_none, List.any_eq_true, and_assoc, ne_eq]

theorem State.sliceEnd_eq (s : State) (cl : Nat) : s.sliceEnd cl =
    match s.shares.find? (s.sliceDue cl) with
    | some x => s.preempt x
    | none => s := rfl

theorem State.sliceEnd_over {s : State} {cl : Nat} {x : Share} {before after : List Share} (shares : s.shares = before ++ x :: after)
    (first : ∀ y ∈ before, ¬ s.sliceOver cl y) (ends : s.sliceOver cl x) : s.sliceEnd cl = s.preempt x := by
  have found : s.shares.find? (s.sliceDue cl) = some x := by
    rw [List.find?_eq_some_iff_append]
    exact ⟨(s.sliceDue_iff cl x).mpr ends, before, after, shares, fun y hy => by
      simpa using fun due => first y hy ((s.sliceDue_iff cl y).mp due)⟩
  rw [State.sliceEnd_eq, found]

theorem State.sliceEnd_early {s : State} {cl : Nat} (early : ∀ y ∈ s.shares, ¬ s.sliceOver cl y) : s.sliceEnd cl = s := by
  have none_due : s.shares.find? (s.sliceDue cl) = none := by
    rw [List.find?_eq_none]
    exact fun y hy due => early y hy ((s.sliceDue_iff cl y).mp due)
  rw [State.sliceEnd_eq, none_due]

/-- Whether the time that a tenant of a cluster had for its saves is over. -/
def State.saveDue (s : State) (cl : Nat) (x : Share) : Bool :=
  x.cluster = cl && (x.saving.map fun t => decide (t ≤ s.gtime)).getD false

/-- What a tenant's missed deadline does: gangs of restartable kernels are discarded, and a miss is logged for the others. -/
def State.missDeadline (s : State) (cl : Nat) (x : Share) : State :=
  let gs := (s.tenantRooms cl x.part).map fun r => s.group r.1 r.2
  let gangs := ((gs.filter Group.restartable).map fun g => (g.launch, g.gang)).eraseDups
  let u := (gangs.foldl (fun s p => s.discardGang p.1 p.2) s).modShare cl x.part fun y => { y with
    saving := none, late := !gs.all Group.restartable }
  if gs.all Group.restartable then u else u.emit (.missed cl x.part)

theorem State.preemptDeadline_eq (s : State) (cl : Nat) :
    s.preemptDeadline cl = ((s.shares.find? (s.saveDue cl)).map (s.missDeadline cl)).getD s := by
  have test : s.saveDue cl = fun x => x.cluster = cl && (match x.saving with
      | some t => decide (t ≤ s.gtime)
      | none => false) := by
    funext x
    unfold State.saveDue
    cases x.saving <;> rfl
  unfold State.preemptDeadline
  rw [test]
  split
  next none_due => exact congrArg (fun o => (o.map (s.missDeadline cl)).getD s) none_due.symm
  next x found => exact congrArg (fun o => (o.map (s.missDeadline cl)).getD s) found.symm

theorem State.preemptDeadline_early {s : State} {cl : Nat}
    (early : ∀ x ∈ s.shares, x.cluster = cl → ∀ d, x.saving = some d → s.gtime < d) : s.preemptDeadline cl = s := by
  have none_due : s.shares.find? (s.saveDue cl) = none := by
    rw [List.find?_eq_none]
    intro x hx due
    simp only [State.saveDue, Bool.and_eq_true, decide_eq_true_eq] at due
    obtain ⟨here, due⟩ := due
    cases saving : x.saving with
    | none => simp [saving] at due
    | some d =>
      have late := early x hx here d saving
      simp only [saving, Option.map_some, Option.getD_some, decide_eq_true_eq] at due
      omega
  rw [State.preemptDeadline_eq, none_due]
  rfl

/-! ### Relaunch, deficits, partition start (R157, R331, R376) -/

theorem State.gangRelaunch_eq {s : State} {l k : Nat} (waits : ((s.launches.getD l {}).gangInfo k).waiting = true)
    (runs : (s.launches.getD l {}).complete = false) :
    (s.modLaunch l fun x => if (x.gangInfo k).waiting && !x.complete then x.modGang k fun i => { i with waiting := false } else x) =
      s.modLaunch l fun x => x.modGang k fun i => { i with waiting := false } := by
  unfold State.modLaunch
  rw [modifyAt_congr {}]
  exact if_pos (by rw [waits, runs]; rfl)

/-- A tenant's share after one pacing step: it gains its weight while it waits, and loses for each core that it holds. -/
def State.pacedShare (s : State) (x : Share) : Share :=
  { x with deficit := x.deficit + (if x.part ∈ (s.waitingFor x.cluster).map (·.part) then (x.weight : Int) else 0) -
      100 * (((s.tenantRooms x.cluster x.part).map (·.1)).eraseDups.length : Int) }

/-- The shares of the tenants that wait for a cluster of which they have held nothing. -/
def State.newShares (s : State) : List Share :=
  (List.range 16).flatMap fun k =>
    ((((s.waitingFor k).map (·.part)).eraseDups).filter fun p => !s.shares.any fun x => x.cluster = k && x.part = p).map fun p => s.freshShare k p

theorem State.deficitUpdate_due {s : State} (due : s.paced < s.gtime / 100000) :
    s.deficitUpdate = { s with paced := s.paced + 1, shares := (s.shares ++ s.newShares).map s.pacedShare } := by
  have paced : ∀ x : Share, ({ x with deficit := x.deficit +
      ((if (((s.waitingFor x.cluster).map (·.part)).eraseDups).contains x.part then x.weight else 0 : Nat) : Int) - 100 * ((((s.tenantRooms x.cluster x.part).map (·.1)).eraseDups.length : Nat) : Int) } : Share) = s.pacedShare x := by
    intro x
    unfold State.pacedShare
    simp only [List.contains_iff_mem, List.mem_eraseDups]
    split <;> rfl
  rw [State.deficitUpdate, if_neg (Nat.not_le.mpr due)]
  simp only [paced]
  rfl

theorem State.deficitUpdate_early {s : State} (early : s.gtime / 100000 ≤ s.paced) : s.deficitUpdate = s := if_pos early

theorem State.freshShare_names (s : State) (k p : Nat) : (s.freshShare k p).cluster = k ∧ (s.freshShare k p).part = p := by
  unfold State.freshShare
  split <;> exact ⟨rfl, rfl⟩

/-- A tenant that waits for a cluster has a share of it, or gets one. -/
theorem State.share_of_waiting {s : State} {k : Nat} (cluster : k < 16) {l : Launch} (waits : l ∈ s.waitingFor k) :
    ∃ x ∈ s.shares ++ s.newShares, x.cluster = k ∧ x.part = l.part := by
  by_cases has : ∃ x ∈ s.shares, x.cluster = k ∧ x.part = l.part
  · obtain ⟨x, hx, names⟩ := has
    exact ⟨x, List.mem_append_left _ hx, names⟩
  · have absent : (!s.shares.any fun x => x.cluster = k && x.part = l.part) = true := by simpa using has
    refine ⟨s.freshShare k l.part, List.mem_append_right _ ?_, s.freshShare_names k l.part⟩
    refine List.mem_flatMap.mpr ⟨k, List.mem_range.mpr cluster, List.mem_map.mpr ⟨l.part, List.mem_filter.mpr ⟨?_, absent⟩, rfl⟩⟩
    exact List.mem_eraseDups.mpr (List.mem_map.mpr ⟨l, waits, rfl⟩)

theorem State.partitionStart_fresh {s : State} {p : Nat} (fresh : p ∉ s.started) :
    s.partitionStart p = { s with
      started := setInsert s.started p
      counters := s.counters.filter fun x => x.1 / 65536 ≠ p
      tasks := s.tasks.filter fun x => x.part ≠ p
      queues := s.queues.filter fun x => x.1 / 64 ≠ p
      launches := s.launches.map fun (l : Launch) => if l.part = p then { l with begun := true } else l } :=
  if_neg (by simpa using fresh)

end Sys2Proof.Machine

namespace Sys2Proof.SearchTrapsAndHost
open Sys2Proof.Machine

/-- Settles O43: each event by the equation of its own operation, cards first, then gangs, slices and partitions; the refusal of a card that names
nothing to start is log entry 116's. -/
theorem roomSteps : Obligations.RoomSteps := by
  refine ⟨fun c n card s core room may => congrArg Host.Outcome.next (State.cardWrite_eq core room may),
    fun c n f s valid free service faulty => congrArg Host.Outcome.next (State.takeCard_faulty valid free service faulty),
    fun c n i r h u v s valid free service sound named acquired read core room =>
      ⟨_, congrArg Host.Outcome.next (State.takeCard_binds valid free service sound named acquired read), State.group_bindCard _ i r h core room⟩,
    fun c n u s valid free service sound lost => congrArg Host.Outcome.next (State.takeCard_lost valid free service sound lost),
    fun c n ms t s bound placed => congrArg Host.Outcome.next (State.makeResident_placed bound placed),
    ?_,
    fun c n ms t s bound good fits => congrArg Host.Outcome.next (State.restoreGang_back bound good fits),
    fun cl x before after s shares first ends => congrArg Host.Outcome.next (State.sliceEnd_over shares first ends),
    fun cl s early => congrArg Host.Outcome.next (State.sliceEnd_early early), ?_,
    fun cl s early => congrArg Host.Outcome.next (State.preemptDeadline_early early),
    fun l k s waits runs => congrArg Host.Outcome.next (State.gangRelaunch_eq waits runs), ?_,
    fun s early => congrArg Host.Outcome.next (State.deficitUpdate_early early), ?_⟩
  · intro c n g s there ms u leaves
    exact congrArg Host.Outcome.next (State.saveGang_leaves there leaves)
  · intro cl d x s found _ gs gangs u
    refine congrArg Host.Outcome.next ((s.preemptDeadline_eq cl).trans ?_)
    rw [show s.shares.find? (s.saveDue cl) = some x from found]
    rfl
  · intro s due
    refine ⟨_, congrArg Host.Outcome.next (State.deficitUpdate_due due), rfl, fun x hx => ?_, fun k cluster l waits => ?_⟩
    · exact List.mem_map.mpr ⟨x, List.mem_append_left _ hx, rfl⟩
    · obtain ⟨x, hx, names⟩ := State.share_of_waiting cluster waits
      exact ⟨_, List.mem_map_of_mem hx, names⟩
  · intro p s fresh
    exact ⟨_, congrArg Host.Outcome.next (State.partitionStart_fresh fresh), rfl, rfl, rfl, rfl⟩

end Sys2Proof.SearchTrapsAndHost
end
